-- ==== Sys2Proof/Word.lean ====
section
/-! DEFINITION. The word types of the machine and their plainest arithmetic: bytes, words, lanes of a vector register
and lane masks (R3, R4, R56, R58). -/

namespace Sys2Proof

abbrev Byte := BitVec 8
abbrev Word := BitVec 32
abbrev DWord := BitVec 64

/-- A 48-bit address: the program counter and a virtual address (R54, R98). -/
abbrev VAddr := BitVec 48

/-- The value of a vector register: one 32-bit element per lane, lane 0 first (R56). -/
abbrev Lanes := List Word

/-- A mask register or a set of lanes, lane i in bit i (R58). -/
abbrev Mask := BitVec 32

end Sys2Proof
end

