-- ==== Sys2Proof/Syntax.lean ====
section
/-! DEFINITION. The syntax of the L768: one constructor of Instr per row of the opcode table. The first 161 are the
Epier instructions (R171, R176), with exactly the fields their encodings leave free; the last 85 are the named steps and
events of the device, its host, its peers and its bring-up (file 95), with the operands that say on which object they act. -/

namespace Sys2Proof

/-- A scalar register number s0 to s63 (R173). -/
abbrev SReg := BitVec 6
/-- A vector operand code: v0 to v55, k0 to k5, zero, or the hint immediate (R173). -/
abbrev VCode := BitVec 6
/-- A mask register number m0 to m7, or a guard (R44, R58). -/
abbrev MReg := BitVec 3

/-- The operations of the atomics (R245, R246). `cas` to `maxu` are ATOMX's. -/
inductive AtomOp where
  | add | band | bor | bxor | smin | smax | xchg | fadd | cas | incw | bfadd | minu | maxu
  deriving DecidableEq, Repr, Inhabited

/-- A request that a peer device makes of this device (R414). -/
inductive PeerOp where
  | read (n : Nat)
  | write (bytes : List Byte)
  | plst (mask bits : DWord)
  | atom (op : AtomOp) (wide : Bool) (x y : DWord)
  deriving DecidableEq, Repr, Inhabited

/-- Where a placement agent is asked to bring a page (R249, R366). -/
inductive MoveTo where
  | home
  | far (cluster slice : Nat)
  | near (core : Nat)
  deriving DecidableEq, Repr, Inhabited

/-- Cores are named by 192 * cluster + core (R15, R364). Teams, groups, messages and moves are named by the numbers the
machine gave them. -/
inductive Instr where
  /-- SADD Scalar add, 64-bit or 32-bit, signed or unsigned (R192). -/
  | sadd (d : BitVec 6) (a : BitVec 6) (b : BitVec 6) (u : BitVec 1) (w : BitVec 1)
  /-- SSUB Scalar subtract (R192). -/
  | ssub (d : BitVec 6) (a : BitVec 6) (b : BitVec 6) (u : BitVec 1) (w : BitVec 1)
  /-- SMUL Scalar multiply, keeping the low half (R192). -/
  | smul (d : BitVec 6) (a : BitVec 6) (b : BitVec 6) (u : BitVec 1) (w : BitVec 1)
  /-- SMULH Scalar multiply, keeping the high half of the exact product (R192). -/
  | smulh (d : BitVec 6) (a : BitVec 6) (b : BitVec 6) (u : BitVec 1) (w : BitVec 1)
  /-- SDIV Scalar divide truncating toward zero; a zero divisor gives all ones (R192). -/
  | sdiv (d : BitVec 6) (a : BitVec 6) (b : BitVec 6) (u : BitVec 1) (w : BitVec 1)
  /-- SREM Scalar remainder with the sign of the dividend; a zero divisor gives the dividend (R192). -/
  | srem (d : BitVec 6) (a : BitVec 6) (b : BitVec 6) (u : BitVec 1) (w : BitVec 1)
  /-- SAND Scalar bitwise and (R192). -/
  | sand (d : BitVec 6) (a : BitVec 6) (b : BitVec 6) (u : BitVec 1) (w : BitVec 1)
  /-- SOR Scalar bitwise or (R192). -/
  | sor (d : BitVec 6) (a : BitVec 6) (b : BitVec 6) (u : BitVec 1) (w : BitVec 1)
  /-- SXOR Scalar bitwise exclusive or (R192). -/
  | sxor (d : BitVec 6) (a : BitVec 6) (b : BitVec 6) (u : BitVec 1) (w : BitVec 1)
  /-- SSHL Scalar shift left by the count modulo the width (R192). -/
  | sshl (d : BitVec 6) (a : BitVec 6) (b : BitVec 6) (u : BitVec 1) (w : BitVec 1)
  /-- SSHR Scalar shift right, arithmetic or logical (R192). -/
  | sshr (d : BitVec 6) (a : BitVec 6) (b : BitVec 6) (u : BitVec 1) (w : BitVec 1)
  /-- SMIN Scalar minimum (R192). -/
  | smin (d : BitVec 6) (a : BitVec 6) (b : BitVec 6) (u : BitVec 1) (w : BitVec 1)
  /-- SMAX Scalar maximum (R192). -/
  | smax (d : BitVec 6) (a : BitVec 6) (b : BitVec 6) (u : BitVec 1) (w : BitVec 1)
  /-- SCMP Scalar compare under a condition, writing 1 or 0 (R193). -/
  | scmp (d : BitVec 6) (a : BitVec 6) (b : BitVec 6) (cond : BitVec 3) (u : BitVec 1) (w : BitVec 1)
  /-- SSEL Scalar select of sa or sb by whether sc is nonzero (R193). -/
  | ssel (d : BitVec 6) (a : BitVec 6) (b : BitVec 6) (c : BitVec 6)
  /-- SBIT Scalar count leading or trailing zeros, population count or bit reversal (R193). -/
  | sbit (d : BitVec 6) (a : BitVec 6) (op : BitVec 2) (w : BitVec 1)
  /-- SGET Reads a special register into a scalar (R61). -/
  | sget (d : BitVec 6) (i : BitVec 6)
  /-- SSET Writes fflags or fmt from a scalar (R194). -/
  | sset (a : BitVec 6) (i : BitVec 6)
  /-- MGET Reads a mask register into a scalar (R193). -/
  | mget (d : BitVec 6) (mask : BitVec 3)
  /-- MPUT Writes a mask register m1 to m7 from a scalar (R193). -/
  | mput (a : BitVec 6) (mask : BitVec 3)
  /-- SEXT Sign- or zero-extends the low 8, 16 or 32 bits of a scalar (R193). -/
  | sext (d : BitVec 6) (a : BitVec 6) (u : BitVec 1) (size : BitVec 2)
  /-- SADDI Scalar add of an immediate (R196). -/
  | saddi (d : BitVec 6) (a : BitVec 6) (imm : BitVec 12)
  /-- SANDI Scalar and with an immediate (R196). -/
  | sandi (d : BitVec 6) (a : BitVec 6) (imm : BitVec 12)
  /-- SORI Scalar or with an immediate (R196). -/
  | sori (d : BitVec 6) (a : BitVec 6) (imm : BitVec 12)
  /-- SXORI Scalar exclusive or with an immediate (R196). -/
  | sxori (d : BitVec 6) (a : BitVec 6) (imm : BitVec 12)
  /-- SSHLI Scalar shift left by an immediate count (R197). -/
  | sshli (d : BitVec 6) (a : BitVec 6) (c : BitVec 6)
  /-- SSHRI Scalar shift right by an immediate count, logical or arithmetic (R197). -/
  | sshri (d : BitVec 6) (a : BitVec 6) (arith : BitVec 1) (c : BitVec 6)
  /-- SLTI Signed set-less-than against an immediate (R196). -/
  | slti (d : BitVec 6) (a : BitVec 6) (imm : BitVec 12)
  /-- SLTNI Unsigned set-less-than against an immediate (R196). -/
  | sltni (d : BitVec 6) (a : BitVec 6) (imm : BitVec 12)
  /-- SLI Loads a sign-extended 18-bit or hint immediate into a scalar (R196). -/
  | sli (d : BitVec 6) (imm : BitVec 18)
  /-- BRA Unconditional branch (R198). -/
  | bra (off : BitVec 24)
  /-- CALL Branch that writes the return address to s62 (R198). -/
  | call (off : BitVec 24)
  /-- BZ Branch when a scalar is zero (R198). -/
  | bz (a : BitVec 6) (off : BitVec 18)
  /-- BNZ Branch when a scalar is nonzero (R198). -/
  | bnz (a : BitVec 6) (off : BitVec 18)
  /-- JR Jump to a register address, optionally as a call or a return (R199). -/
  | jr (a : BitVec 6) (kind : BitVec 2)
  /-- REPEAT Executes the following body of L instructions a counted number of times (R200). -/
  | rept (a : BitVec 6) (len : BitVec 6)
  /-- BANY Branch when any active lane of a mask is set (R198). -/
  | bany (mask : BitVec 3) (off : BitVec 20)
  /-- BNONE Branch when no active lane of a mask is set (R198). -/
  | bnone (mask : BitVec 3) (off : BitVec 20)
  /-- IFV Pushes the mask stack, narrows m0 to the condition and branches when no lane remains (R42). -/
  | ifv (mask : BitVec 3) (neg : BitVec 1) (off : BitVec 20)
  /-- ELSEV Switches m0 to the other side of the top stack entry, restores fmt, and branches when no lane remains (R42). -/
  | elsev (off : BitVec 20)
  /-- ENDV Pops the mask stack, restoring m0 and fmt (R42). -/
  | endv
  /-- SETFMT Replaces selected fmt fields and returns the old fmt (R203). -/
  | setfmt (d : BitVec 6) (a : BitVec 6) (sel : BitVec 10)
  /-- VADD Vector integer add, wrapping or saturating (R211). -/
  | vadd (guard : BitVec 3) (nw : BitVec 1) (d : BitVec 6) (a : BitVec 6) (b : BitVec 6) (mod : BitVec 2)
  /-- VSUB Vector integer subtract, wrapping or saturating (R211). -/
  | vsub (guard : BitVec 3) (nw : BitVec 1) (d : BitVec 6) (a : BitVec 6) (b : BitVec 6) (mod : BitVec 2)
  /-- VMUL Vector integer multiply, low 32 bits (R211). -/
  | vmul (guard : BitVec 3) (nw : BitVec 1) (d : BitVec 6) (a : BitVec 6) (b : BitVec 6)
  /-- VMULH Vector integer multiply, high 32 bits (R211). -/
  | vmulh (guard : BitVec 3) (nw : BitVec 1) (d : BitVec 6) (a : BitVec 6) (b : BitVec 6) (mod : BitVec 2)
  /-- VMAD Vector integer multiply-add into d (R211). -/
  | vmad (guard : BitVec 3) (d : BitVec 6) (a : BitVec 6) (b : BitVec 6)
  /-- VAND Vector bitwise and (R211). -/
  | vand (guard : BitVec 3) (nw : BitVec 1) (d : BitVec 6) (a : BitVec 6) (b : BitVec 6)
  /-- VOR Vector bitwise or (R211). -/
  | vor (guard : BitVec 3) (nw : BitVec 1) (d : BitVec 6) (a : BitVec 6) (b : BitVec 6)
  /-- VXOR Vector bitwise exclusive or (R211). -/
  | vxor (guard : BitVec 3) (nw : BitVec 1) (d : BitVec 6) (a : BitVec 6) (b : BitVec 6)
  /-- VSHL Vector shift left (R211). -/
  | vshl (guard : BitVec 3) (nw : BitVec 1) (d : BitVec 6) (a : BitVec 6) (b : BitVec 6)
  /-- VSHR Vector shift right, logical or arithmetic (R211). -/
  | vshr (guard : BitVec 3) (nw : BitVec 1) (d : BitVec 6) (a : BitVec 6) (b : BitVec 6) (mod : BitVec 2)
  /-- VMIN Vector integer minimum (R211). -/
  | vmin (guard : BitVec 3) (nw : BitVec 1) (d : BitVec 6) (a : BitVec 6) (b : BitVec 6) (mod : BitVec 2)
  /-- VMAX Vector integer maximum (R211). -/
  | vmax (guard : BitVec 3) (nw : BitVec 1) (d : BitVec 6) (a : BitVec 6) (b : BitVec 6) (mod : BitVec 2)
  /-- VABSD Vector absolute difference (R211). -/
  | vabsd (guard : BitVec 3) (nw : BitVec 1) (d : BitVec 6) (a : BitVec 6) (b : BitVec 6) (mod : BitVec 2)
  /-- VSEL Vector per-lane select of a or b by d (R212). -/
  | vsel (guard : BitVec 3) (d : BitVec 6) (a : BitVec 6) (b : BitVec 6) (mod : BitVec 2)
  /-- VCMP Vector integer compare into a mask register (R213). -/
  | vcmp (guard : BitVec 3) (cond : BitVec 3) (mask : BitVec 3) (a : BitVec 6) (b : BitVec 6) (mod : BitVec 2)
  /-- VBIT Vector count leading or trailing zeros, population or bit reversal (R212). -/
  | vbit (guard : BitVec 3) (nw : BitVec 1) (d : BitVec 6) (a : BitVec 6) (mod : BitVec 2)
  /-- VLANE Writes each lane's index or rank (R217). -/
  | vlane (guard : BitVec 3) (nw : BitVec 1) (d : BitVec 6) (mod : BitVec 2)
  /-- VMOV Vector move from a register, a scalar, a pair from a scalar, or one broadcast lane (R217). -/
  | vmov (guard : BitVec 3) (nw : BitVec 1) (d : BitVec 6) (a : BitVec 6) (b : BitVec 6) (mod : BitVec 2)
  /-- VSHUF Permutes lanes by per-lane indices (R218). -/
  | vshuf (guard : BitVec 3) (nw : BitVec 1) (d : BitVec 6) (a : BitVec 6) (b : BitVec 6) (mod : BitVec 2)
  /-- VROT Rotates lanes up or down by a literal count (R218). -/
  | vrot (guard : BitVec 3) (nw : BitVec 1) (d : BitVec 6) (a : BitVec 6) (b : BitVec 6) (mod : BitVec 2)
  /-- VSLIDE Slides a register up by 1 to 4 bytes, filling from the top of b (R219). -/
  | vslide (guard : BitVec 3) (nw : BitVec 1) (d : BitVec 6) (a : BitVec 6) (b : BitVec 6) (mod : BitVec 2)
  /-- VSCAN Inclusive or exclusive prefix combination over the lanes (R220). -/
  | vscan (guard : BitVec 3) (nw : BitVec 1) (d : BitVec 6) (a : BitVec 6) (b : BitVec 6) (mod : BitVec 1)
  /-- VRED Reduces the instruction's lanes into a scalar register (R220). -/
  | vred (guard : BitVec 3) (d : BitVec 6) (a : BitVec 6) (b : BitVec 6)
  /-- BPERM Byte table lookup by the low or high nibble (R221). -/
  | bperm (guard : BitVec 3) (nw : BitVec 1) (d : BitVec 6) (a : BitVec 6) (b : BitVec 6) (mod : BitVec 2)
  /-- MOP Combines whole mask registers (R214). -/
  | mop (op : BitVec 3) (mask : BitVec 3) (mX : BitVec 3) (mY : BitVec 3)
  /-- MCNT Population, lowest or highest set bit of a mask into a scalar (R215). -/
  | mcnt (guard : BitVec 3) (d : BitVec 6) (mX : BitVec 3) (mod : BitVec 2)
  /-- VEXT Extracts a bit field from each lane, zero- or sign-extended (R212). -/
  | vext (guard : BitVec 3) (nw : BitVec 1) (d : BitVec 6) (a : BitVec 6) (b : BitVec 6) (mod : BitVec 2)
  /-- FADD FP32 add (R222). -/
  | fadd (guard : BitVec 3) (nw : BitVec 1) (d : BitVec 6) (a : BitVec 6) (b : BitVec 6)
  /-- FSUB FP32 subtract (R222). -/
  | fsub (guard : BitVec 3) (nw : BitVec 1) (d : BitVec 6) (a : BitVec 6) (b : BitVec 6)
  /-- FMUL FP32 multiply (R222). -/
  | fmul (guard : BitVec 3) (nw : BitVec 1) (d : BitVec 6) (a : BitVec 6) (b : BitVec 6)
  /-- FFMA FP32 fused multiply-add into d (R222). -/
  | ffma (guard : BitVec 3) (d : BitVec 6) (a : BitVec 6) (b : BitVec 6)
  /-- FNMA FP32 fused d minus a times b (R222). -/
  | fnma (guard : BitVec 3) (d : BitVec 6) (a : BitVec 6) (b : BitVec 6)
  /-- FMIN FP32 minimum under the rules of R80 (R222). -/
  | fmin (guard : BitVec 3) (nw : BitVec 1) (d : BitVec 6) (a : BitVec 6) (b : BitVec 6)
  /-- FMAX FP32 maximum under the rules of R80 (R222). -/
  | fmax (guard : BitVec 3) (nw : BitVec 1) (d : BitVec 6) (a : BitVec 6) (b : BitVec 6)
  /-- FCMP FP32 compare into a mask register (R223). -/
  | fcmp (guard : BitVec 3) (cond : BitVec 3) (mask : BitVec 3) (a : BitVec 6) (b : BitVec 6)
  /-- FRCP Bit-exact approximate FP32 reciprocal (R226). -/
  | frcp (guard : BitVec 3) (nw : BitVec 1) (d : BitVec 6) (a : BitVec 6)
  /-- FRSQ Bit-exact approximate FP32 reciprocal square root (R227). -/
  | frsq (guard : BitVec 3) (nw : BitVec 1) (d : BitVec 6) (a : BitVec 6)
  /-- FEX2 Bit-exact approximate FP32 power of two (R228). -/
  | fex2 (guard : BitVec 3) (nw : BitVec 1) (d : BitVec 6) (a : BitVec 6)
  /-- FLG2 Bit-exact approximate FP32 base-2 logarithm (R229). -/
  | flg2 (guard : BitVec 3) (nw : BitVec 1) (d : BitVec 6) (a : BitVec 6)
  /-- FCLASS Writes a one-hot class mask of each FP32 lane (R224). -/
  | fclass (guard : BitVec 3) (nw : BitVec 1) (d : BitVec 6) (a : BitVec 6)
  /-- CVT Converts each lane between floating and integer types under a rounding mode (R230). -/
  | cvt (guard : BitVec 3) (nw : BitVec 1) (d : BitVec 6) (a : BitVec 6) (dst : BitVec 3) (src : BitVec 3) (rnd : BitVec 2)
  /-- HFMA2 Packed pair of BF16 or FP16 fused multiply-adds (R232). -/
  | hfma2 (guard : BitVec 3) (d : BitVec 6) (a : BitVec 6) (b : BitVec 6) (mod : BitVec 2)
  /-- DADD FP64 add on register pairs (R233). -/
  | dadd (guard : BitVec 3) (nw : BitVec 1) (d : BitVec 6) (a : BitVec 6) (b : BitVec 6)
  /-- DMUL FP64 multiply on register pairs (R233). -/
  | dmul (guard : BitVec 3) (nw : BitVec 1) (d : BitVec 6) (a : BitVec 6) (b : BitVec 6)
  /-- DFMA FP64 fused multiply-add on register pairs (R233). -/
  | dfma (guard : BitVec 3) (d : BitVec 6) (a : BitVec 6) (b : BitVec 6)
  /-- DCMP_F64 FP64 compare into a mask register (R233). -/
  | dcmpF64 (guard : BitVec 3) (cond : BitVec 3) (mask : BitVec 3) (a : BitVec 6) (b : BitVec 6)
  /-- DCVT Conversion to or from FP64 (R233). -/
  | dcvt (guard : BitVec 3) (nw : BitVec 1) (d : BitVec 6) (a : BitVec 6) (code : BitVec 6) (rnd : BitVec 2)
  /-- FSCALE Scales an FP32 or FP64 value by a power of two (R222). -/
  | fscale (guard : BitVec 3) (nw : BitVec 1) (d : BitVec 6) (a : BitVec 6) (b : BitVec 6) (mod : BitVec 2)
  /-- LD Vector load from mem (R240). -/
  | ld (guard : BitVec 3) (data : BitVec 6) (ofs : BitVec 6) (base : BitVec 6) (size : BitVec 3)
  /-- ST Vector store to mem (R240). -/
  | st (guard : BitVec 3) (data : BitVec 6) (ofs : BitVec 6) (base : BitVec 6) (size : BitVec 3)
  /-- LDS Vector load from the scratchpad (R240). -/
  | lds (guard : BitVec 3) (data : BitVec 6) (ofs : BitVec 6) (base : BitVec 6) (size : BitVec 3)
  /-- STS Vector store to the scratchpad, local desk or remote drawer or desk (R240). -/
  | sts (guard : BitVec 3) (data : BitVec 6) (ofs : BitVec 6) (base : BitVec 6) (size : BitVec 3)
  /-- SLD Scalar load from mem (R241). -/
  | sld (data : BitVec 6) (base : BitVec 6) (size : BitVec 3)
  /-- SST Scalar store to mem (R241). -/
  | sst (data : BitVec 6) (base : BitVec 6) (size : BitVec 3)
  /-- PLLD Loads C4 elements from bit-plane layout by element index (R242). -/
  | plld (guard : BitVec 3) (data : BitVec 6) (ofs : BitVec 6) (base : BitVec 6) (planes : BitVec 3)
  /-- PLST Stores C4 elements into plane words as indivisible masked updates (R242). -/
  | plst (guard : BitVec 3) (data : BitVec 6) (ofs : BitVec 6) (base : BitVec 6) (planes : BitVec 3)
  /-- ATOM Vector atomic read-modify-write returning the old value (R244). -/
  | atom (guard : BitVec 3) (data : BitVec 6) (ofs : BitVec 6) (base : BitVec 6) (op : BitVec 3)
  /-- ATOMX Two-operand vector atomic: compare-and-swap, bounded increment or add, unsigned min or max (R246). -/
  | atomx (guard : BitVec 3) (data : BitVec 6) (ofs : BitVec 6) (base : BitVec 6) (op : BitVec 3)
  /-- RED Vector atomic reduction with no value returned (R245). -/
  | red (guard : BitVec 3) (data : BitVec 6) (ofs : BitVec 6) (base : BitVec 6) (op : BitVec 3)
  /-- SATOM Scalar atomic on the scratchpad (R247). -/
  | satom (data : BitVec 6) (base : BitVec 6) (op : BitVec 3)
  /-- PLACE Asks the placement agents to move pages near, far or home (R249). -/
  | place (len : BitVec 6) (base : BitVec 6) (wh : BitVec 3)
  /-- WAITA Waits until a word in mem meets a condition (R250). -/
  | waita (data : BitVec 6) (uns : BitVec 1) (wide : BitVec 1) (base : BitVec 6) (cond : BitVec 3)
  /-- FENCE Acquire, release or two-way fence at a scope (R251). -/
  | fence (scope : BitVec 3) (kind : BitVec 2)
  /-- ACQ Acquires a synchronisation object for its bound region (R253). -/
  | acq (a : BitVec 6) (d : BitVec 6) (scope : BitVec 3)
  /-- REL Releases a synchronisation object after counting covered writes (R253). -/
  | rel (a : BitVec 6) (scope : BitVec 3)
  /-- TLWAIT Waits until a timeline reaches a count (R255). -/
  | tlwait (a : BitVec 6) (tl : BitVec 3)
  /-- TLGET Reads the number most recently handed out on a timeline (R256). -/
  | tlget (d : BitVec 6) (tl : BitVec 3)
  /-- BARALLOC Allocates a named barrier with a participant mask (R262). -/
  | baralloc (d : BitVec 6) (p : BitVec 6)
  /-- BARFREE Frees a named barrier or returns BUSY (R264). -/
  | barfree (d : BitVec 6) (b : BitVec 6)
  /-- BARARR Records the group's arrival in a barrier phase (R263). -/
  | bararr (b : BitVec 6)
  /-- BARWAIT Waits for the phase of the group's latest arrival to complete (R263). -/
  | barwait (b : BitVec 6)
  /-- BARSYNC Arrival followed by wait on a barrier (R263). -/
  | barsync (b : BitVec 6)
  /-- XARR Closes the team's exchange phase towards named neighbours (R269). -/
  | xarr (m : BitVec 6)
  /-- XWAIT Waits for neighbours' closes of the phase, then merges the drawer (R270). -/
  | xwait (m : BitVec 6)
  /-- QALLOC Allocates a named queue with a desk ring, capacity and allowance (R265). -/
  | qalloc (d : BitVec 6) (a : BitVec 6) (c : BitVec 6)
  /-- QFREE Frees a named queue or returns BUSY (R267). -/
  | qfree (d : BitVec 6) (q : BitVec 6)
  /-- QPUSH Pushes a handle, consuming allowance, holding when none (R266). -/
  | qpush (q : BitVec 6) (h : BitVec 6)
  /-- QPOP Pops the oldest handle, holding when empty (R266). -/
  | qpop (d : BitVec 6) (q : BitVec 6)
  /-- QTRY Non-blocking push or pop returning a status (R266). -/
  | qtry (d : BitVec 6) (q : BitVec 6) (h : BitVec 6) (p : BitVec 1)
  /-- QGRANT Returns allowance to a queue (R266). -/
  | qgrant (q : BitVec 6) (n : BitVec 6)
  /-- COPY Engine command copying rows between mem, scratchpad and tray with an optional transform (R277). -/
  | copy (d : BitVec 6) (a : BitVec 6) (tl : BitVec 3)
  /-- HALO Engine command copying desk rows into one neighbour's drawer (R279). -/
  | halo (d : BitVec 6) (a : BitVec 6) (tl : BitVec 3)
  /-- MCAST Engine command copying desk rows into several drawers (R279). -/
  | mcast (d : BitVec 6) (a : BitVec 6) (tl : BitVec 3)
  /-- DCMP_STREAM Engine command decoding a back-reference stream (R280). -/
  | dcmpStream (d : BitVec 6) (a : BitVec 6) (tl : BitVec 3)
  /-- COLL Engine command for a collective across teams, clusters and peers (R282). -/
  | coll (d : BitVec 6) (a : BitVec 6) (tl : BitVec 3)
  /-- SPAWN Deposits new threads into bins keyed by entry (R285). -/
  | spawn (e : BitVec 6) (p : BitVec 6) (guard : BitVec 3)
  /-- REBIN Hands lanes' work to bins keyed by entry and key, removing the lanes (R285). -/
  | rebin (key : BitVec 6) (e : BitVec 6) (p : BitVec 6) (guard : BitVec 3)
  /-- LAUNCH Queues a child grid from a launch record in mem (R286). -/
  | launch (d : BitVec 6) (r : BitVec 6)
  /-- WAITCH Waits for a child grid to end and returns its status (R287). -/
  | waitch (d : BitVec 6) (g : BitVec 6)
  /-- TCLAIM Claims a tray slot or accumulator tile (R294). -/
  | tclaim (d : BitVec 6) (k : BitVec 1)
  /-- TREL Releases a tray slot or accumulator tile after pending uses (R295). -/
  | trel (n : BitVec 6) (k : BitVec 1)
  /-- MMQ Issues up to four quarter operations to the array (R297). -/
  | mmq (a : BitVec 6) (b : BitVec 6) (p : BitVec 6) (qmask : BitVec 4) (metric : BitVec 2)
  /-- MZERO Zeroes an accumulator tile and its flags (R301). -/
  | mzero (t : BitVec 6)
  /-- MDRAIN Drains a tile by conversion, best match or mean to desk or registers (R302). -/
  | mdrain (t : BitVec 6) (a : BitVec 6) (o : BitVec 6) (dst : BitVec 3) (mode : BitVec 3)
  /-- MFILL Loads an accumulator tile from the desk (R301). -/
  | mfill (t : BitVec 6) (a : BitVec 6)
  /-- CUPD Adds A rows into tile rows chosen by an assignment and counts them (R308). -/
  | cupd (a : BitVec 6) (t : BitVec 6) (p : BitVec 6) (c : BitVec 6)
  /-- MENC Encodes a BF16 tray tile into C4 codes by nearest codebook entry (R309). -/
  | menc (d : BitVec 6) (s : BitVec 6) (k : BitVec 6)
  /-- CBLD Loads a codebook table slot from mem or the scratchpad (R296). -/
  | cbld (k : BitVec 6) (a : BitVec 6) (p : BitVec 1)
  /-- MSTAT Reads or clears the matrix status, or reads the wake latency (R312). -/
  | mstat (d : BitVec 6) (s : BitVec 2)
  /-- GOR2 Exact 2-D orientation predicate (R319). -/
  | gor2 (guard : BitVec 3) (d : BitVec 6) (p : BitVec 6) (q : BitVec 6) (ty : BitVec 1)
  /-- GOR3 Exact 3-D orientation predicate (R319). -/
  | gor3 (guard : BitVec 3) (d : BitVec 6) (p : BitVec 6) (q : BitVec 6) (ty : BitVec 1)
  /-- GINC Exact in-circle predicate (R319). -/
  | ginc (guard : BitVec 3) (d : BitVec 6) (p : BitVec 6) (q : BitVec 6) (ty : BitVec 1)
  /-- GINS Exact in-sphere predicate (R319). -/
  | gins (guard : BitVec 3) (d : BitVec 6) (p : BitVec 6) (q : BitVec 6) (ty : BitVec 1)
  /-- GSEG Exact segment intersection classification (R320). -/
  | gseg (guard : BitVec 3) (d : BitVec 6) (p : BitVec 6) (q : BitVec 6) (ty : BitVec 1)
  /-- HIMM Hint supplying 24 bits of an immediate to the next instruction (R186). -/
  | himm (value : BitVec 24)
  /-- HSCHED Scheduling advice hint: delay, operand reuse, keep (R187). -/
  | hsched (delay : BitVec 4) (reuseB : BitVec 1) (reuseA : BitVec 1) (keep : BitVec 1)
  /-- HMOD Modifier hint for the next instruction (R188). -/
  | hmod (xd : BitVec 6) (xe : BitVec 1) (sos : BitVec 1) (peek : BitVec 1) (far : BitVec 1) (w64 : BitVec 1) (sp : BitVec 1) (ord : BitVec 2) (scope : BitVec 3) (sat : BitVec 1) (rme : BitVec 1) (rnd : BitVec 2) (tie : BitVec 2)
  /-- NOP Does nothing except issue and retire (R204). -/
  | nop
  /-- YIELD Places the group at a yield point (R204). -/
  | yield
  /-- EXIT Ends the group (R206). -/
  | exit
  /-- TRAP Raises fault 0x10 with a code, restarting after it (R207). -/
  | trap (code : BitVec 16)
  /-- CSRR Supervisor read of a CSR of a target core, cluster or the partition (R342). -/
  | csrr (d : BitVec 6) (a : BitVec 6) (csr : BitVec 12)
  /-- CSRW Supervisor write of a CSR with clamping (R342). -/
  | csrw (b : BitVec 6) (a : BitVec 6) (csr : BitVec 12)
  /-- TRESUME Resumes or ends a suspended team from its save image (R348). -/
  | tresume (d : BitVec 6) (a : BitVec 6) (fin : BitVec 1)
  /-- TFLUSH Removes translation stash entries for a page range (R349). -/
  | tflush (a : BitVec 6) (b : BitVec 6) (all : BitVec 1)
  /-- SPLIT Sets the unified-store split of an idle core (R350). -/
  | split (d : BitVec 6) (a : BitVec 6)
  /-- HALT Stops the issuing team's partition (R351). -/
  | halt (code : BitVec 16)
  /-- SLEEP Removes the group from candidacy for at least n cycles (R205). -/
  | sleep (n : BitVec 20)
  /-- BRK Raises fault 0x11 with a code, restarting at itself (R207). -/
  | brk (code : BitVec 16)
  /-- BIN_TIMER_EXPIRY A bin's timer expires and the bin launches a group (R33). -/
  | binTimerExpiry (core bin : Nat)
  /-- BIN_GROUP_START A launched bin group takes a free slot and group index once available (R35). -/
  | binGroupStart (core : Nat)
  /-- WATCHDOG_EXPIRY No group of a resident team retired for wdog_interval cycles; fault 0x0B (R53). -/
  | watchdogExpiry (team : Nat)
  /-- ACTIVE_SET_SWAP A ready pending group replaces the active group held longest at a yield point (R386). -/
  | activeSetSwap (core : Nat)
  /-- FORCED_SWAP A pending group ready for 2^16 cycles forces out the oldest active group (R386). -/
  | forcedSwap (core : Nat)
  /-- SLEEP_EXPIRY A sleeping group's count runs out and it becomes a candidate again (R205). -/
  | sleepExpiry (team group : Nat)
  /-- WAITA_REREAD A waiting WAITA reads its word again and tests the condition (R250). -/
  | waitaReread (team group : Nat)
  /-- LOAD_DATA_RETURN A long-latency load or atomic result arrives and is written to its registers (R239). -/
  | loadDataReturn (id : Nat)
  /-- SECTOR_ARRIVAL A sector's data arrives at a filling frame or for a home access, freeing miss-status entries (R117). -/
  | sectorArrival (id : Nat)
  /-- FRAME_ACCESS A request arrives at a frame and is accepted, held or bounced by tenure and state (R364). -/
  | frameAccess (id : Nat)
  /-- REPLICA_LOCK A replica receives a lock from its home directory and acknowledges (R374). -/
  | replicaLock (id : Nat)
  /-- REPLICA_UPDATE A replica receives new bytes, writes them and unlocks (R374). -/
  | replicaUpdate (id : Nat)
  /-- SIDEBOARD_ACCESS An access to a home page arrives at the Sideboard and is performed, bounced or forwarded by the residence bit (R365). -/
  | sideboardAccess (id : Nat)
  /-- BOUNCE A bounced request returns to its core, which drops the stash entry, walks again and replays (R369). -/
  | bounce (id : Nat)
  /-- MOVE_DONE A place's move-done signal releases registered replays and Sideboard retries (R369). -/
  | moveDone (mv : Nat)
  /-- RECALL A core receives a recall and removes matching stash entries (R371). -/
  | pageRecall (id : Nat)
  /-- PAGE_WALK A page walker reads the four-level table and checks and installs the leaf (R358). -/
  | pageWalk (core aspace vpage : Nat)
  /-- CLOSE_MESSAGE A close with a send count arrives at a counting point, which answers when its count matches (R141). -/
  | closeMessage (id : Nat)
  /-- CLOSE_ANSWER A counting point's answer arrives; a release completes when all have answered (R141). -/
  | closeAnswer (id : Nat)
  /-- ENGINE_COMMAND_COMPLETION An engine command's writes are all counted; it completes and its timeline advances (R272). -/
  | engineCommandCompletion (team tl num : Nat)
  /-- DCMP_STREAM_END DCMP writes outn and stat to its card at completion, faulting on a stream error (R280). -/
  | dcmpStreamEnd (team tl num : Nat)
  /-- COLL_ARRIVAL A cluster barrier unit counts participant issues, exchanges counts and completes the collective (R284). -/
  | collArrival (grid k : Nat)
  /-- COPY_DATA_LANDING Copied data lands in desk lines, making them present and releasing parked accesses (R106). -/
  | copyDataLanding (team tl num : Nat)
  /-- DRAWER_DELIVERY A remote store or delivery arrives at a target core's drawer or desk (R105). -/
  | drawerDelivery (id : Nat)
  /-- DELIVERY_RETRY A refused next-phase delivery is retried by the sender's mesh interface (R271). -/
  | deliveryRetry (id : Nat)
  /-- REMOTE_LOAD A remote load is served at the target team's desk (R105). -/
  | remoteLoad (id : Nat)
  /-- TARGET_GONE_ANSWER A target-gone answer reaches the sender, which takes 0x0D at its next boundary (R430). -/
  | targetGoneAnswer (id : Nat)
  /-- EXCHANGE_CLOSE A neighbour's phase close with its send count arrives at the target (R269). -/
  | exchangeClose (id : Nat)
  /-- XWAIT_MERGE Once counts match and lines are present, the phase's drawer bytes merge into the desk (R270). -/
  | xwaitMerge (team group : Nat)
  /-- ARRAY_PASS A closed pass reaches the array and adds its terms into accumulator elements (R91). -/
  | arrayPass (core : Nat)
  /-- PASS_TIMEOUT An open pass closes 16 cycles after it opened (R299). -/
  | passTimeout (core : Nat)
  /-- SUBARRAY_GATE A sub-array idle for marr_idle cycles is power-gated (R315). -/
  | subarrayGate (core sub : Nat)
  /-- SUBARRAY_WAKE A gated sub-array finishes waking for a waiting pass (R315). -/
  | subarrayWake (core sub : Nat)
  /-- PREDICATE_COMPLETION Every active lane of a predicate has decided and its results are written at once (R326). -/
  | predicateCompletion (id : Nat)
  /-- PAGE_MOVE A placement agent prepares and copies a page from source to destination (R366). -/
  | pageMove (part aspace vpage : Nat) (dst : MoveTo)
  /-- FRAME_SEAL The source frame is sealed, resends dirty sectors, increments tenure and sends recalls (R366). -/
  | frameSeal (mv : Nat)
  /-- SEAL_NOTICE The destination receives the seal notice with the resent-sector count (R403). -/
  | sealNotice (mv : Nat)
  /-- SECTOR_LANDING A copied or resent sector lands at the destination (R403). -/
  | sectorLanding (mv sector : Nat)
  /-- TOUCH_PROMOTION A page's touch count reaches touch_thresh and an agent promotes it (R375). -/
  | touchPromotion (core aspace vpage : Nat)
  /-- PLACE_FAR_REQUEST A PLACE far request arrives at a slice agent, which moves or declines the page (R402). -/
  | placeFarRequest (id : Nat)
  /-- STASH_SWEEP Every 2^20 cycles the cluster removes off-colour stash entries and flips the colour (R372). -/
  | stashSweep (cluster : Nat)
  /-- SWAP_OUT A team stops, finishes issued work and is written to its save slot (R393). -/
  | swapOut (team : Nat)
  /-- DISPATCH_STARVATION The oldest passed-over team of a class has waited 2^20 cycles and blocks that class and lower (R382). -/
  | dispatchStarvation (part : Nat)
  /-- TIME_SLICE_EXPIRY A class 1 to 3 team's quantum expires while others wait, and it is saved (R389). -/
  | timeSliceExpiry (team : Nat)
  /-- GRID_COMPLETION After every write of an ended grid is counted, its completion word is written (R381). -/
  | gridCompletion (grid : Nat)
  /-- SUBMISSION_PORT_WRITE Host bytes written into the submission port; byte 0x3F completes the record (R408). -/
  | submissionPortWrite (part off : Nat) (bytes : List Byte)
  /-- CXL_MEM_READ A host CXL.mem read of an HDM offset (R405). -/
  | cxlMemRead (off n : Nat)
  /-- CXL_MEM_WRITE A host CXL.mem write performed and counted before completion (R406). -/
  | cxlMemWrite (off : Nat) (bytes : List Byte)
  /-- GET_VERSION SPDM GET_VERSION request over the DOE mailbox (R421). -/
  | getVersion
  /-- GET_CAPABILITIES SPDM GET_CAPABILITIES request (R421). -/
  | getCapabilities
  /-- NEGOTIATE_ALGORITHMS SPDM NEGOTIATE_ALGORITHMS request (R421). -/
  | negotiateAlgorithms
  /-- GET_DIGESTS SPDM GET_DIGESTS request (R421). -/
  | getDigests
  /-- GET_CERTIFICATE SPDM GET_CERTIFICATE request (R421). -/
  | getCertificate (slot off len : Nat)
  /-- CHALLENGE SPDM CHALLENGE request signed with the identity key (R421). -/
  | challenge (slot : Nat) (nonce : List Byte)
  /-- GET_MEASUREMENTS SPDM GET_MEASUREMENTS request (R421). -/
  | getMeasurements (index : Nat) (nonce : List Byte)
  /-- LAYOUT_WRITE Host write of layout sets the partition layout or is refused (R407). -/
  | layoutWrite (v : DWord)
  /-- EVENTS_CLEAR Host write-1-to-clear of events bits (R407). -/
  | eventsClear (v : DWord)
  /-- LR_CMD Host write of lr_cmd selects a lifetime record value for lr_data (R426). -/
  | lrCmd (v : DWord)
  /-- FW_STORE_STAGED_IMAGE fw_cmd 1: verify the staged image and store it into the inactive slot (R420). -/
  | fwStoreStagedImage
  /-- FW_RAISE_MINIMUM_SVN fw_cmd 2: raise the fused minimum security version (R420). -/
  | fwRaiseMinimumSvn
  /-- FW_COMMAND_DONE A firmware command finishes and fw_stat shows its result (R420). -/
  | fwCommandDone
  /-- PRESET Host write of 1 to preset resets the partition (R408). -/
  | preset (part : Nat) (v : DWord)
  /-- MBX_HEAD_WRITE Host write of mbx_head consumes mailbox entries when in range (R407). -/
  | mbxHeadWrite (part : Nat) (v : DWord)
  /-- WINDOW_TABLE_WRITE Host write of a window table entry, applying to later requests (R411). -/
  | windowTableWrite (part off : Nat) (bytes : List Byte)
  /-- OWNED_RELEASE_DONE The last write-back of a released owned window lands and the owned bit reads 0 (R412). -/
  | ownedReleaseDone (part idx : Nat)
  /-- BAR0_REGISTER_WRITE Host write to a BAR0 register with no behaviour of its own, with reserved bits dropped and clamping (R407). -/
  | bar0RegisterWrite (off : Nat) (v : DWord)
  /-- PEER_REQUEST An inbound peer request is checked against the inbound range and performed (R414). -/
  | peerRequest (port addr : Nat) (op : PeerOp)
  /-- PEER_WRITE_ACK A peer acknowledges a performed write (R152). -/
  | peerWriteAck (id : Nat)
  /-- FLIT_CRC_RETRY A flit failing its CRC is sent again by link-level retry (R413). -/
  | flitCrcRetry (port : Nat)
  /-- LINK_DOWN A Gemar link goes down; pending and later peer accesses raise 0x0D (R415). -/
  | linkDown (port : Nat)
  /-- LINK_UP A Gemar port finishes retraining and sets events bit 5 (R415). -/
  | linkUp (port : Nat) (serial : DWord)
  /-- POWER_ON The management controller runs the boot stages (R418). -/
  | powerOn
  /-- THERMAL_TRIP A stack diode reaches 125 °C and all regulator enables are removed (R422). -/
  | thermalTrip (stack : Nat)
  /-- OVERCURRENT Excess rail current removes the regulator enable (R422). -/
  | overcurrent (rail : Nat)
  /-- SENSOR_SAMPLE Each microsecond the controller samples column sensors and applies failure rules (R423). -/
  | sensorSample (cluster col : Nat) (s0 s1 : Int) (moved : Bool)
  /-- LIFETIME_FLUSH Every 600 s the controller flushes lifetime counts (R426). -/
  | lifetimeFlush
  /-- ORDERLY_SHUTDOWN An orderly shutdown flushes lifetime counts (R426). -/
  | orderlyShutdown
  /-- POWER_LOSS Power is lost, losing at most 600 s of counts (R426). -/
  | powerLoss
  /-- BUS_TEST The test engine drives patterns on an idle core's vertical buses (R427). -/
  | busTest (core : Nat) (bad : List Nat)
  /-- MDRAIN_COMPLETION A drain finishes converting a tile and its data lands in the desk or registers, making the desk lines present and setting the matrix status (R303). -/
  | mdrainCompletion (id : Nat)
  /-- REPLICA_ACKNOWLEDGEMENT A replica's lock or update acknowledgement arrives at the home directory, which proceeds with the strict commit or counts the write (R374). -/
  | replicaAcknowledgement (id : Nat)
  /-- ZERO_LENGTH_READ_COMPLETION The zero-length read that a .sys release sent after host writes returns, letting the release complete (R153). -/
  | zeroLengthReadCompletion (id : Nat)
  /-- MBX_BASE_WRITE A host write of mbx_base enables the fault mailbox, and held fault records are written there in fault order (R396). -/
  | mbxBaseWrite (part : Nat) (v : DWord)
  /-- GEMAR_LANE_LOSS A Gemar port loses lanes and retrains to 4 lanes at half bandwidth (R413). -/
  | gemarLaneLoss (port : Nat)
  /-- HSCHED_DELAY_EXPIRY The delay count of an HSCHED runs out and the group becomes a candidate again (R187). -/
  | hschedDelayExpiry (team group : Nat)
  deriving DecidableEq, Repr

end Sys2Proof
end

