-- ==== Sys2Proof/WellFormed.lean ====
section
/-! DEFINITION. Well-formed instructions: the values of the free fields that the spec does not reserve (R61, R174, R175,
R180, R181, R195, R209, R234, R257, R289, R302, R316, R329, R339, R342). What depends on an attached hint (w64, sos, HIMM) is
checked where the instruction issues (Machine/Operands.lean). -/

namespace Sys2Proof

/-- The register is one of v0 to v55 (R173). -/
def isVReg (c : VCode) : Bool := c < 56
def isEven (c : VCode) : Bool := c.toNat % 2 == 0
/-- A pair starts at an even register; codes 56 to 63 are refused (R56, R175). -/
def isPair (c : VCode) : Bool := isVReg c && isEven c
/-- A quad starts at a multiple of four (R56, R175). -/
def isQuad (c : VCode) : Bool := isVReg c && c.toNat % 4 == 0
/-- V d: v0 to v55 when nw is 0, and 0 when nw is 1 (R174, R175). -/
def vecDest (nw : BitVec 1) (d : VCode) : Bool := if nw == 1 then d == 0 else isVReg d
def pairDest (nw : BitVec 1) (d : VCode) : Bool := if nw == 1 then d == 0 else isPair d

/-- VMOV's four modes (R217): modes 0, 1 and 3 take no b; mode 2 a literal lane; mode 3 writes a pair. -/
def vmovOk (nw : BitVec 1) (d b : VCode) (mod : BitVec 2) : Bool :=
  if mod == 2 then vecDest nw d && b < 32
  else if mod == 3 then pairDest nw d && b == 62
  else vecDest nw d && b == 62

/-- CVT's type pairs (R230): no code 7, and no integer to integer pair. -/
def cvtPair (dst src : BitVec 3) : Bool :=
  dst != 7 && src != 7 && !((dst == 1 || dst == 2) && (src == 1 || src == 2))

/-- DCVT's codes and which of d and a is a pair (R233). -/
def dcvtOk (nw : BitVec 1) (d a code : BitVec 6) : Bool :=
  code < 8 &&
  (if code == 1 || code >= 4 then isPair a else true) &&
  (if code == 1 || code == 4 || code == 5 then vecDest nw d else pairDest nw d)

/-- The data operand of a load: a register, pair or quad by the size (R174, R180, R240). -/
def loadData (size : BitVec 3) (data : VCode) : Bool :=
  if size == 7 then false else if size == 5 then isPair data else if size == 6 then isQuad data else isVReg data
/-- The data operand of a store: any code, or a pair or quad of registers by the size (R174, R175, R240). -/
def storeData (size : BitVec 3) (data : VCode) : Bool :=
  if size == 7 then false else if size == 5 then isPair data else if size == 6 then isQuad data else true
def planesOk (n : BitVec 3) : Bool := n != 0 && n < 5

/-- MDRAIN's combinations of mode and destination, and the quad of `.reg` (R302, R303, R316). -/
def mdrainOk (dst mode : BitVec 3) (a : BitVec 6) : Bool :=
  if mode == 0 then dst < 6
  else if mode < 5 then dst == 0 || (dst == 6 && a < 53 && isQuad a)
  else mode == 5 && dst < 5

/-- The operand ranges of a geometric predicate: `n32` and `n64` point registers and `k` index registers (R318, R329). -/
def predOk (n32 n64 k : Nat) (d p q : VCode) (ty : BitVec 1) : Bool :=
  isVReg d && isVReg p && (ty == 1 || isEven p) &&
  p.toNat + (if ty == 1 then n32 else n64) ≤ 56 && (q == 62 || q.toNat + k ≤ 56)

/-- HMOD's own reserved values (R180, R181, R188). -/
def hmodOk (ever : Nat) (xd : BitVec 6) (xe sos : BitVec 1) (ord : BitVec 2) (scope : BitVec 3) (rme : BitVec 1)
    (rnd tie : BitVec 2) : Bool :=
  (if xe == 1 then isVReg xd else xd == 0) && (sos == 0 || ever == 3) && scope < 5 && (ord != 0 || scope == 0) &&
  (rme == 1 || rnd == 0) && tie != 3

/-- The special registers that SGET may name (R61). -/
def SpecialReg.readable (i : BitVec 6) : Bool := i < 24 && i != 15 || i == 24

/-- The CSR numbers that R339 assigns. -/
def CsrNum.assigned (c : BitVec 12) : Bool :=
  c == 0x001 || c == 0x002 || (0x010 ≤ c && c ≤ 0x015) || c == 0x100 || c == 0x101 || (0x200 ≤ c && c ≤ 0x207)
/-- The CSRs that R339 lets CSRW write. -/
def CsrNum.writable (c : BitVec 12) : Bool :=
  (0x012 ≤ c && c ≤ 0x015) || c == 0x101 || (0x201 ≤ c && c ≤ 0x206)

/-- No field of the instruction holds a value that the decoder table of header version `ever` reserves (R179, R180, R181).
An event has no encoding and no reserved value. SATOM's data field is taken as R235 has it, where R257's row would reserve its codes
56 to 63 (log entry 67). -/
def Instr.wf (ever : Nat) (i : Instr) : Bool :=
  match i with
  | .sadd _ _ _ _ _ => true
  | .ssub _ _ _ _ _ => true
  | .smul _ _ _ _ _ => true
  | .smulh _ _ _ _ _ => true
  | .sdiv _ _ _ _ _ => true
  | .srem _ _ _ _ _ => true
  | .sand _ _ _ _ _ => true
  | .sor _ _ _ _ _ => true
  | .sxor _ _ _ _ _ => true
  | .sshl _ _ _ _ _ => true
  | .sshr _ _ _ _ _ => true
  | .smin _ _ _ _ _ => true
  | .smax _ _ _ _ _ => true
  | .scmp _ _ _ _ _ _ => true
  | .ssel _ _ _ _ => true
  | .sbit _ _ _ _ => true
  | .sget _ i => SpecialReg.readable i
  | .sset _ i => (i == 9 || i == 10)
  | .mget _ _ => true
  | .mput _ mask => mask != 0
  | .sext _ _ _ size => size != 3
  | .saddi _ _ _ => true
  | .sandi _ _ _ => true
  | .sori _ _ _ => true
  | .sxori _ _ _ => true
  | .sshli _ _ _ => true
  | .sshri _ _ _ _ => true
  | .slti _ _ _ => true
  | .sltni _ _ _ => true
  | .sli _ _ => true
  | .bra _ => true
  | .call _ => true
  | .bz _ _ => true
  | .bnz _ _ => true
  | .jr _ kind => kind != 3
  | .rept _ len => len != 0
  | .bany _ _ => true
  | .bnone _ _ => true
  | .ifv _ _ _ => true
  | .elsev _ => true
  | .endv => true
  | .setfmt _ _ _ => true
  | .vadd _ nw d _ _ mod => vecDest nw d && mod != 3
  | .vsub _ nw d _ _ mod => vecDest nw d && mod != 3
  | .vmul _ nw d _ _ => vecDest nw d
  | .vmulh _ nw d _ _ mod => vecDest nw d && mod < 2
  | .vmad _ d _ _ => isVReg d
  | .vand _ nw d _ _ => vecDest nw d
  | .vor _ nw d _ _ => vecDest nw d
  | .vxor _ nw d _ _ => vecDest nw d
  | .vshl _ nw d _ _ => vecDest nw d
  | .vshr _ nw d _ _ mod => vecDest nw d && mod < 2
  | .vmin _ nw d _ _ mod => vecDest nw d && mod < 2
  | .vmax _ nw d _ _ mod => vecDest nw d && mod < 2
  | .vabsd _ nw d _ _ mod => vecDest nw d && mod < 2
  | .vsel _ d _ _ mod => isVReg d && mod < 2
  | .vcmp _ _ mask _ _ mod => mask != 0 && mod < 2
  | .vbit _ nw d _ _ => vecDest nw d
  | .vlane _ nw d mod => vecDest nw d && mod < 2
  | .vmov _ nw d _ b mod => vmovOk nw d b mod
  | .vshuf _ nw d _ _ mod => vecDest nw d && mod < 2
  | .vrot _ nw d _ b mod => vecDest nw d && b < 32 && mod < 2
  | .vslide _ nw d _ _ _ => vecDest nw d
  | .vscan _ nw d _ b _ => vecDest nw d && b < 9
  | .vred _ _ _ b => b < 9
  | .bperm _ nw d _ _ mod => vecDest nw d && mod < 2
  | .mop op mask _ mY => mask != 0 && op != 7 && (op < 4 || mY == 0)
  | .mcnt _ _ _ mod => mod != 3
  | .vext _ nw d _ _ mod => vecDest nw d && mod < 2
  | .fadd _ nw d _ _ => vecDest nw d
  | .fsub _ nw d _ _ => vecDest nw d
  | .fmul _ nw d _ _ => vecDest nw d
  | .ffma _ d _ _ => isVReg d
  | .fnma _ d _ _ => isVReg d
  | .fmin _ nw d _ _ => vecDest nw d
  | .fmax _ nw d _ _ => vecDest nw d
  | .fcmp _ _ mask _ _ => mask != 0
  | .frcp _ nw d _ => vecDest nw d
  | .frsq _ nw d _ => vecDest nw d
  | .fex2 _ nw d _ => vecDest nw d
  | .flg2 _ nw d _ => vecDest nw d
  | .fclass _ nw d _ => vecDest nw d
  | .cvt _ nw d _ dst src _ => vecDest nw d && cvtPair dst src
  | .hfma2 _ d _ _ mod => isVReg d && mod < 2
  | .dadd _ nw d a b => pairDest nw d && isPair a && isPair b
  | .dmul _ nw d a b => pairDest nw d && isPair a && isPair b
  | .dfma _ d a b => isPair d && isPair a && isPair b
  | .dcmpF64 _ _ mask a b => mask != 0 && isPair a && isPair b
  | .dcvt _ nw d a code _ => dcvtOk nw d a code
  | .fscale _ nw d a _ mod => mod < 2 && (if mod == 1 then pairDest nw d && isPair a else vecDest nw d)
  | .ld _ data ofs _ size => loadData size data && ofs != 63
  | .st _ data ofs _ size => storeData size data && ofs != 63
  | .lds _ data ofs _ size => loadData size data && ofs != 63
  | .sts _ data ofs _ size => storeData size data && ofs != 63
  | .sld _ _ size => size < 6
  | .sst _ _ size => size < 6
  | .plld _ data ofs _ planes => planesOk planes && isVReg data && ofs != 63
  | .plst _ _ ofs _ planes => planesOk planes && ofs != 63
  | .atom _ data ofs _ _ => isVReg data && ofs != 63
  | .atomx _ data ofs _ op => op < 5 && isPair data && ofs != 63
  | .red _ _ ofs _ op => op != 6 && ofs != 63
  | .satom data _ _ => isVReg data
  | .place _ _ wh => wh < 3
  | .waita _ _ _ _ cond => cond < 6
  | .fence scope kind => kind != 0 && scope < 5
  | .acq _ _ scope => scope < 5
  | .rel _ scope => scope < 5
  | .tlwait _ _ => true
  | .tlget _ _ => true
  | .baralloc _ _ => true
  | .barfree _ _ => true
  | .bararr _ => true
  | .barwait _ => true
  | .barsync _ => true
  | .xarr _ => true
  | .xwait _ => true
  | .qalloc _ _ _ => true
  | .qfree _ _ => true
  | .qpush _ _ => true
  | .qpop _ _ => true
  | .qtry _ _ _ _ => true
  | .qgrant _ _ => true
  | .copy _ _ _ => true
  | .halo _ _ _ => true
  | .mcast _ _ _ => true
  | .dcmpStream _ _ _ => true
  | .coll _ _ _ => true
  | .spawn _ p _ => isQuad p
  | .rebin key _ p _ => isQuad p && isVReg key
  | .launch _ _ => true
  | .waitch _ _ => true
  | .tclaim _ _ => true
  | .trel _ _ => true
  | .mmq _ _ p _ metric => metric != 3 && (ever != 1 || metric == 0) && p < 62
  | .mzero _ => true
  | .mdrain _ a _ dst mode => mdrainOk dst mode a
  | .mfill _ _ => true
  | .cupd _ _ p _ => p < 54 && isEven p
  | .menc _ _ _ => true
  | .cbld _ _ _ => true
  | .mstat _ s => s != 3
  | .gor2 _ d p q ty => predOk 6 12 3 d p q ty
  | .gor3 _ d p q ty => predOk 12 24 4 d p q ty
  | .ginc _ d p q ty => predOk 8 16 4 d p q ty
  | .gins _ d p q ty => predOk 15 30 5 d p q ty
  | .gseg _ d p q ty => ever == 3 && predOk 8 16 4 d p q ty
  | .himm _ => true
  | .hsched _ _ _ _ => true
  | .hmod xd xe sos _ _ _ _ ord scope _ rme rnd tie => hmodOk ever xd xe sos ord scope rme rnd tie
  | .nop => true
  | .yield => true
  | .exit => true
  | .trap _ => true
  | .csrr _ _ csr => CsrNum.assigned csr
  | .csrw _ _ csr => CsrNum.writable csr
  | .tresume _ _ _ => true
  | .tflush _ _ _ => true
  | .split _ _ => true
  | .halt _ => true
  | .sleep _ => true
  | .brk _ => true
  | .binTimerExpiry _ _ => true
  | .binGroupStart _ => true
  | .watchdogExpiry _ => true
  | .activeSetSwap _ => true
  | .forcedSwap _ => true
  | .sleepExpiry _ _ => true
  | .waitaReread _ _ => true
  | .loadDataReturn _ => true
  | .sectorArrival _ => true
  | .frameAccess _ => true
  | .replicaLock _ => true
  | .replicaUpdate _ => true
  | .sideboardAccess _ => true
  | .bounce _ => true
  | .moveDone _ => true
  | .pageRecall _ => true
  | .pageWalk _ _ _ => true
  | .closeMessage _ => true
  | .closeAnswer _ => true
  | .engineCommandCompletion _ _ _ => true
  | .dcmpStreamEnd _ _ _ => true
  | .collArrival _ _ => true
  | .copyDataLanding _ _ _ => true
  | .drawerDelivery _ => true
  | .deliveryRetry _ => true
  | .remoteLoad _ => true
  | .targetGoneAnswer _ => true
  | .exchangeClose _ => true
  | .xwaitMerge _ _ => true
  | .arrayPass _ => true
  | .passTimeout _ => true
  | .subarrayGate _ _ => true
  | .subarrayWake _ _ => true
  | .predicateCompletion _ => true
  | .pageMove _ _ _ _ => true
  | .frameSeal _ => true
  | .sealNotice _ => true
  | .sectorLanding _ _ => true
  | .touchPromotion _ _ _ => true
  | .placeFarRequest _ => true
  | .stashSweep _ => true
  | .swapOut _ => true
  | .dispatchStarvation _ => true
  | .timeSliceExpiry _ => true
  | .gridCompletion _ => true
  | .submissionPortWrite _ _ _ => true
  | .cxlMemRead _ _ => true
  | .cxlMemWrite _ _ => true
  | .getVersion => true
  | .getCapabilities => true
  | .negotiateAlgorithms => true
  | .getDigests => true
  | .getCertificate _ _ _ => true
  | .challenge _ _ => true
  | .getMeasurements _ _ => true
  | .layoutWrite _ => true
  | .eventsClear _ => true
  | .lrCmd _ => true
  | .fwStoreStagedImage => true
  | .fwRaiseMinimumSvn => true
  | .fwCommandDone => true
  | .preset _ _ => true
  | .mbxHeadWrite _ _ => true
  | .windowTableWrite _ _ _ => true
  | .ownedReleaseDone _ _ => true
  | .bar0RegisterWrite _ _ => true
  | .peerRequest _ _ _ => true
  | .peerWriteAck _ => true
  | .flitCrcRetry _ => true
  | .linkDown _ => true
  | .linkUp _ _ => true
  | .powerOn => true
  | .thermalTrip _ => true
  | .overcurrent _ => true
  | .sensorSample _ _ _ _ _ => true
  | .lifetimeFlush => true
  | .orderlyShutdown => true
  | .powerLoss => true
  | .busTest _ _ => true
  | .mdrainCompletion _ => true
  | .replicaAcknowledgement _ => true
  | .zeroLengthReadCompletion _ => true
  | .mbxBaseWrite _ _ => true
  | .gemarLaneLoss _ => true
  | .hschedDelayExpiry _ _ => true

end Sys2Proof
end

