-- ==== Sys2Proof/Decode.lean ====
section
/-! DEFINITION. Decoding instruction words (R171, R172, R176, R179, R181), the encoder written from the same tables, and the
word forms the host asks for. -/

namespace Sys2Proof

/-- Why a word is no instruction (R179): its class and function are unassigned, a reserved field is nonzero, a field
holds a reserved value or one absent from the header's version, or fewer than four bytes are left. -/
inductive DecodeError where
  | unassigned | reservedField | reservedValue | truncated
  deriving DecidableEq, Repr

/-- The field of `n` bits of `w` whose lowest bit is `lo` (R3). -/
def fieldOf (w : Word) (lo n : Nat) : BitVec n := BitVec.ofNat n (w.toNat / 2 ^ lo)

/-- The value of the fixed bits `lo` to `lo + n - 1` of `w`. -/
def fixedOf (w : Word) (lo n : Nat) : Nat := w.toNat / 2 ^ lo % 2 ^ n

/-- An instruction whose fixed bits are right, or the refusal of a nonzero reserved field. -/
def fixedBits (ok : Bool) (i : Instr) : Except DecodeError Instr := if ok then .ok i else .error .reservedField

/-- Class 0: the word by its function (R172, R176). -/
def decodeClass0 (fn : Nat) (w : Word) : Except DecodeError Instr :=
  match fn with
  | 0 => fixedBits (fixedOf w 2 4 == 0) (.sadd (fieldOf w 18 6) (fieldOf w 12 6) (fieldOf w 6 6) (fieldOf w 1 1) (fieldOf w 0 1))
  | 1 => fixedBits (fixedOf w 2 4 == 0) (.ssub (fieldOf w 18 6) (fieldOf w 12 6) (fieldOf w 6 6) (fieldOf w 1 1) (fieldOf w 0 1))
  | 2 => fixedBits (fixedOf w 2 4 == 0) (.smul (fieldOf w 18 6) (fieldOf w 12 6) (fieldOf w 6 6) (fieldOf w 1 1) (fieldOf w 0 1))
  | 3 => fixedBits (fixedOf w 2 4 == 0) (.smulh (fieldOf w 18 6) (fieldOf w 12 6) (fieldOf w 6 6) (fieldOf w 1 1) (fieldOf w 0 1))
  | 4 => fixedBits (fixedOf w 2 4 == 0) (.sdiv (fieldOf w 18 6) (fieldOf w 12 6) (fieldOf w 6 6) (fieldOf w 1 1) (fieldOf w 0 1))
  | 5 => fixedBits (fixedOf w 2 4 == 0) (.srem (fieldOf w 18 6) (fieldOf w 12 6) (fieldOf w 6 6) (fieldOf w 1 1) (fieldOf w 0 1))
  | 6 => fixedBits (fixedOf w 2 4 == 0) (.sand (fieldOf w 18 6) (fieldOf w 12 6) (fieldOf w 6 6) (fieldOf w 1 1) (fieldOf w 0 1))
  | 7 => fixedBits (fixedOf w 2 4 == 0) (.sor (fieldOf w 18 6) (fieldOf w 12 6) (fieldOf w 6 6) (fieldOf w 1 1) (fieldOf w 0 1))
  | 8 => fixedBits (fixedOf w 2 4 == 0) (.sxor (fieldOf w 18 6) (fieldOf w 12 6) (fieldOf w 6 6) (fieldOf w 1 1) (fieldOf w 0 1))
  | 9 => fixedBits (fixedOf w 2 4 == 0) (.sshl (fieldOf w 18 6) (fieldOf w 12 6) (fieldOf w 6 6) (fieldOf w 1 1) (fieldOf w 0 1))
  | 10 => fixedBits (fixedOf w 2 4 == 0) (.sshr (fieldOf w 18 6) (fieldOf w 12 6) (fieldOf w 6 6) (fieldOf w 1 1) (fieldOf w 0 1))
  | 11 => fixedBits (fixedOf w 2 4 == 0) (.smin (fieldOf w 18 6) (fieldOf w 12 6) (fieldOf w 6 6) (fieldOf w 1 1) (fieldOf w 0 1))
  | 12 => fixedBits (fixedOf w 2 4 == 0) (.smax (fieldOf w 18 6) (fieldOf w 12 6) (fieldOf w 6 6) (fieldOf w 1 1) (fieldOf w 0 1))
  | 13 => fixedBits (fixedOf w 5 1 == 0) (.scmp (fieldOf w 18 6) (fieldOf w 12 6) (fieldOf w 6 6) (fieldOf w 2 3) (fieldOf w 1 1) (fieldOf w 0 1))
  | 14 => fixedBits (true) (.ssel (fieldOf w 18 6) (fieldOf w 12 6) (fieldOf w 6 6) (fieldOf w 0 6))
  | 15 => fixedBits (fixedOf w 1 1 == 0 && fixedOf w 4 8 == 0) (.sbit (fieldOf w 18 6) (fieldOf w 12 6) (fieldOf w 2 2) (fieldOf w 0 1))
  | 16 => fixedBits (fixedOf w 0 6 == 0 && fixedOf w 12 6 == 0) (.sget (fieldOf w 18 6) (fieldOf w 6 6))
  | 17 => fixedBits (fixedOf w 0 6 == 0 && fixedOf w 18 6 == 0) (.sset (fieldOf w 12 6) (fieldOf w 6 6))
  | 18 => fixedBits (fixedOf w 3 15 == 0) (.mget (fieldOf w 18 6) (fieldOf w 0 3))
  | 19 => fixedBits (fixedOf w 3 9 == 0 && fixedOf w 18 6 == 0) (.mput (fieldOf w 12 6) (fieldOf w 0 3))
  | 20 => fixedBits (fixedOf w 3 9 == 0) (.sext (fieldOf w 18 6) (fieldOf w 12 6) (fieldOf w 2 1) (fieldOf w 0 2))
  | _ => .error .unassigned

/-- Class 1: the word by its function (R172, R176). -/
def decodeClass1 (fn : Nat) (w : Word) : Except DecodeError Instr :=
  match fn with
  | 0 => fixedBits (true) (.saddi (fieldOf w 18 6) (fieldOf w 12 6) (fieldOf w 0 12))
  | 1 => fixedBits (true) (.sandi (fieldOf w 18 6) (fieldOf w 12 6) (fieldOf w 0 12))
  | 2 => fixedBits (true) (.sori (fieldOf w 18 6) (fieldOf w 12 6) (fieldOf w 0 12))
  | 3 => fixedBits (true) (.sxori (fieldOf w 18 6) (fieldOf w 12 6) (fieldOf w 0 12))
  | 4 => fixedBits (fixedOf w 6 6 == 0) (.sshli (fieldOf w 18 6) (fieldOf w 12 6) (fieldOf w 0 6))
  | 5 => fixedBits (fixedOf w 7 5 == 0) (.sshri (fieldOf w 18 6) (fieldOf w 12 6) (fieldOf w 6 1) (fieldOf w 0 6))
  | 6 => fixedBits (true) (.slti (fieldOf w 18 6) (fieldOf w 12 6) (fieldOf w 0 12))
  | 7 => fixedBits (true) (.sltni (fieldOf w 18 6) (fieldOf w 12 6) (fieldOf w 0 12))
  | 8 => fixedBits (true) (.sli (fieldOf w 18 6) (fieldOf w 0 18))
  | 16 => fixedBits (true) (.bra (fieldOf w 0 24))
  | 17 => fixedBits (true) (.call (fieldOf w 0 24))
  | 18 => fixedBits (true) (.bz (fieldOf w 18 6) (fieldOf w 0 18))
  | 19 => fixedBits (true) (.bnz (fieldOf w 18 6) (fieldOf w 0 18))
  | 20 => fixedBits (fixedOf w 2 10 == 0 && fixedOf w 18 6 == 0) (.jr (fieldOf w 12 6) (fieldOf w 0 2))
  | 21 => fixedBits (fixedOf w 6 6 == 0 && fixedOf w 18 6 == 0) (.rept (fieldOf w 12 6) (fieldOf w 0 6))
  | 22 => fixedBits (fixedOf w 20 1 == 0) (.bany (fieldOf w 21 3) (fieldOf w 0 20))
  | 23 => fixedBits (fixedOf w 20 1 == 0) (.bnone (fieldOf w 21 3) (fieldOf w 0 20))
  | 24 => fixedBits (true) (.ifv (fieldOf w 21 3) (fieldOf w 20 1) (fieldOf w 0 20))
  | 25 => fixedBits (fixedOf w 20 4 == 0) (.elsev (fieldOf w 0 20))
  | 26 => fixedBits (fixedOf w 0 24 == 0) (.endv)
  | 27 => fixedBits (fixedOf w 10 2 == 0) (.setfmt (fieldOf w 18 6) (fieldOf w 12 6) (fieldOf w 0 10))
  | _ => .error .unassigned

/-- Class 2: the word by its function (R172, R176). -/
def decodeClass2 (fn : Nat) (w : Word) : Except DecodeError Instr :=
  match fn with
  | 0 => fixedBits (true) (.vadd (fieldOf w 21 3) (fieldOf w 20 1) (fieldOf w 14 6) (fieldOf w 8 6) (fieldOf w 2 6) (fieldOf w 0 2))
  | 1 => fixedBits (true) (.vsub (fieldOf w 21 3) (fieldOf w 20 1) (fieldOf w 14 6) (fieldOf w 8 6) (fieldOf w 2 6) (fieldOf w 0 2))
  | 2 => fixedBits (fixedOf w 0 2 == 0) (.vmul (fieldOf w 21 3) (fieldOf w 20 1) (fieldOf w 14 6) (fieldOf w 8 6) (fieldOf w 2 6))
  | 3 => fixedBits (true) (.vmulh (fieldOf w 21 3) (fieldOf w 20 1) (fieldOf w 14 6) (fieldOf w 8 6) (fieldOf w 2 6) (fieldOf w 0 2))
  | 4 => fixedBits (fixedOf w 0 2 == 0 && fixedOf w 20 1 == 0) (.vmad (fieldOf w 21 3) (fieldOf w 14 6) (fieldOf w 8 6) (fieldOf w 2 6))
  | 5 => fixedBits (fixedOf w 0 2 == 0) (.vand (fieldOf w 21 3) (fieldOf w 20 1) (fieldOf w 14 6) (fieldOf w 8 6) (fieldOf w 2 6))
  | 6 => fixedBits (fixedOf w 0 2 == 0) (.vor (fieldOf w 21 3) (fieldOf w 20 1) (fieldOf w 14 6) (fieldOf w 8 6) (fieldOf w 2 6))
  | 7 => fixedBits (fixedOf w 0 2 == 0) (.vxor (fieldOf w 21 3) (fieldOf w 20 1) (fieldOf w 14 6) (fieldOf w 8 6) (fieldOf w 2 6))
  | 8 => fixedBits (fixedOf w 0 2 == 0) (.vshl (fieldOf w 21 3) (fieldOf w 20 1) (fieldOf w 14 6) (fieldOf w 8 6) (fieldOf w 2 6))
  | 9 => fixedBits (true) (.vshr (fieldOf w 21 3) (fieldOf w 20 1) (fieldOf w 14 6) (fieldOf w 8 6) (fieldOf w 2 6) (fieldOf w 0 2))
  | 10 => fixedBits (true) (.vmin (fieldOf w 21 3) (fieldOf w 20 1) (fieldOf w 14 6) (fieldOf w 8 6) (fieldOf w 2 6) (fieldOf w 0 2))
  | 11 => fixedBits (true) (.vmax (fieldOf w 21 3) (fieldOf w 20 1) (fieldOf w 14 6) (fieldOf w 8 6) (fieldOf w 2 6) (fieldOf w 0 2))
  | 12 => fixedBits (true) (.vabsd (fieldOf w 21 3) (fieldOf w 20 1) (fieldOf w 14 6) (fieldOf w 8 6) (fieldOf w 2 6) (fieldOf w 0 2))
  | 13 => fixedBits (fixedOf w 20 1 == 0) (.vsel (fieldOf w 21 3) (fieldOf w 14 6) (fieldOf w 8 6) (fieldOf w 2 6) (fieldOf w 0 2))
  | 14 => fixedBits (fixedOf w 20 1 == 0) (.vcmp (fieldOf w 21 3) (fieldOf w 17 3) (fieldOf w 14 3) (fieldOf w 8 6) (fieldOf w 2 6) (fieldOf w 0 2))
  | 15 => fixedBits (fixedOf w 2 6 == 62) (.vbit (fieldOf w 21 3) (fieldOf w 20 1) (fieldOf w 14 6) (fieldOf w 8 6) (fieldOf w 0 2))
  | 16 => fixedBits (fixedOf w 2 12 == 4030) (.vlane (fieldOf w 21 3) (fieldOf w 20 1) (fieldOf w 14 6) (fieldOf w 0 2))
  | 17 => fixedBits (true) (.vmov (fieldOf w 21 3) (fieldOf w 20 1) (fieldOf w 14 6) (fieldOf w 8 6) (fieldOf w 2 6) (fieldOf w 0 2))
  | 18 => fixedBits (true) (.vshuf (fieldOf w 21 3) (fieldOf w 20 1) (fieldOf w 14 6) (fieldOf w 8 6) (fieldOf w 2 6) (fieldOf w 0 2))
  | 19 => fixedBits (true) (.vrot (fieldOf w 21 3) (fieldOf w 20 1) (fieldOf w 14 6) (fieldOf w 8 6) (fieldOf w 2 6) (fieldOf w 0 2))
  | 20 => fixedBits (true) (.vslide (fieldOf w 21 3) (fieldOf w 20 1) (fieldOf w 14 6) (fieldOf w 8 6) (fieldOf w 2 6) (fieldOf w 0 2))
  | 21 => fixedBits (fixedOf w 1 1 == 0) (.vscan (fieldOf w 21 3) (fieldOf w 20 1) (fieldOf w 14 6) (fieldOf w 8 6) (fieldOf w 2 6) (fieldOf w 0 1))
  | 22 => fixedBits (fixedOf w 0 2 == 0 && fixedOf w 20 1 == 0) (.vred (fieldOf w 21 3) (fieldOf w 14 6) (fieldOf w 8 6) (fieldOf w 2 6))
  | 23 => fixedBits (true) (.bperm (fieldOf w 21 3) (fieldOf w 20 1) (fieldOf w 14 6) (fieldOf w 8 6) (fieldOf w 2 6) (fieldOf w 0 2))
  | 24 => fixedBits (fixedOf w 0 2 == 0 && fixedOf w 5 3 == 0 && fixedOf w 11 3 == 0 && fixedOf w 20 4 == 0) (.mop (fieldOf w 17 3) (fieldOf w 14 3) (fieldOf w 8 3) (fieldOf w 2 3))
  | 25 => fixedBits (fixedOf w 2 6 == 0 && fixedOf w 11 3 == 0 && fixedOf w 20 1 == 0) (.mcnt (fieldOf w 21 3) (fieldOf w 14 6) (fieldOf w 8 3) (fieldOf w 0 2))
  | 26 => fixedBits (true) (.vext (fieldOf w 21 3) (fieldOf w 20 1) (fieldOf w 14 6) (fieldOf w 8 6) (fieldOf w 2 6) (fieldOf w 0 2))
  | _ => .error .unassigned

/-- Class 3: the word by its function (R172, R176). -/
def decodeClass3 (fn : Nat) (w : Word) : Except DecodeError Instr :=
  match fn with
  | 0 => fixedBits (fixedOf w 0 2 == 0) (.fadd (fieldOf w 21 3) (fieldOf w 20 1) (fieldOf w 14 6) (fieldOf w 8 6) (fieldOf w 2 6))
  | 1 => fixedBits (fixedOf w 0 2 == 0) (.fsub (fieldOf w 21 3) (fieldOf w 20 1) (fieldOf w 14 6) (fieldOf w 8 6) (fieldOf w 2 6))
  | 2 => fixedBits (fixedOf w 0 2 == 0) (.fmul (fieldOf w 21 3) (fieldOf w 20 1) (fieldOf w 14 6) (fieldOf w 8 6) (fieldOf w 2 6))
  | 3 => fixedBits (fixedOf w 0 2 == 0 && fixedOf w 20 1 == 0) (.ffma (fieldOf w 21 3) (fieldOf w 14 6) (fieldOf w 8 6) (fieldOf w 2 6))
  | 4 => fixedBits (fixedOf w 0 2 == 0 && fixedOf w 20 1 == 0) (.fnma (fieldOf w 21 3) (fieldOf w 14 6) (fieldOf w 8 6) (fieldOf w 2 6))
  | 5 => fixedBits (fixedOf w 0 2 == 0) (.fmin (fieldOf w 21 3) (fieldOf w 20 1) (fieldOf w 14 6) (fieldOf w 8 6) (fieldOf w 2 6))
  | 6 => fixedBits (fixedOf w 0 2 == 0) (.fmax (fieldOf w 21 3) (fieldOf w 20 1) (fieldOf w 14 6) (fieldOf w 8 6) (fieldOf w 2 6))
  | 7 => fixedBits (fixedOf w 0 2 == 0 && fixedOf w 20 1 == 0) (.fcmp (fieldOf w 21 3) (fieldOf w 17 3) (fieldOf w 14 3) (fieldOf w 8 6) (fieldOf w 2 6))
  | 8 => fixedBits (fixedOf w 0 8 == 248) (.frcp (fieldOf w 21 3) (fieldOf w 20 1) (fieldOf w 14 6) (fieldOf w 8 6))
  | 9 => fixedBits (fixedOf w 0 8 == 248) (.frsq (fieldOf w 21 3) (fieldOf w 20 1) (fieldOf w 14 6) (fieldOf w 8 6))
  | 10 => fixedBits (fixedOf w 0 8 == 248) (.fex2 (fieldOf w 21 3) (fieldOf w 20 1) (fieldOf w 14 6) (fieldOf w 8 6))
  | 11 => fixedBits (fixedOf w 0 8 == 248) (.flg2 (fieldOf w 21 3) (fieldOf w 20 1) (fieldOf w 14 6) (fieldOf w 8 6))
  | 12 => fixedBits (fixedOf w 0 8 == 248) (.fclass (fieldOf w 21 3) (fieldOf w 20 1) (fieldOf w 14 6) (fieldOf w 8 6))
  | 13 => fixedBits (true) (.cvt (fieldOf w 21 3) (fieldOf w 20 1) (fieldOf w 14 6) (fieldOf w 8 6) (fieldOf w 5 3) (fieldOf w 2 3) (fieldOf w 0 2))
  | 14 => fixedBits (fixedOf w 20 1 == 0) (.hfma2 (fieldOf w 21 3) (fieldOf w 14 6) (fieldOf w 8 6) (fieldOf w 2 6) (fieldOf w 0 2))
  | 15 => fixedBits (fixedOf w 0 2 == 0) (.dadd (fieldOf w 21 3) (fieldOf w 20 1) (fieldOf w 14 6) (fieldOf w 8 6) (fieldOf w 2 6))
  | 16 => fixedBits (fixedOf w 0 2 == 0) (.dmul (fieldOf w 21 3) (fieldOf w 20 1) (fieldOf w 14 6) (fieldOf w 8 6) (fieldOf w 2 6))
  | 17 => fixedBits (fixedOf w 0 2 == 0 && fixedOf w 20 1 == 0) (.dfma (fieldOf w 21 3) (fieldOf w 14 6) (fieldOf w 8 6) (fieldOf w 2 6))
  | 18 => fixedBits (fixedOf w 0 2 == 0 && fixedOf w 20 1 == 0) (.dcmpF64 (fieldOf w 21 3) (fieldOf w 17 3) (fieldOf w 14 3) (fieldOf w 8 6) (fieldOf w 2 6))
  | 19 => fixedBits (true) (.dcvt (fieldOf w 21 3) (fieldOf w 20 1) (fieldOf w 14 6) (fieldOf w 8 6) (fieldOf w 2 6) (fieldOf w 0 2))
  | 20 => fixedBits (true) (.fscale (fieldOf w 21 3) (fieldOf w 20 1) (fieldOf w 14 6) (fieldOf w 8 6) (fieldOf w 2 6) (fieldOf w 0 2))
  | _ => .error .unassigned

/-- Class 4: the word by its function (R172, R176). -/
def decodeClass4 (fn : Nat) (w : Word) : Except DecodeError Instr :=
  match fn with
  | 0 => fixedBits (true) (.ld (fieldOf w 21 3) (fieldOf w 15 6) (fieldOf w 9 6) (fieldOf w 3 6) (fieldOf w 0 3))
  | 1 => fixedBits (true) (.st (fieldOf w 21 3) (fieldOf w 15 6) (fieldOf w 9 6) (fieldOf w 3 6) (fieldOf w 0 3))
  | 2 => fixedBits (true) (.lds (fieldOf w 21 3) (fieldOf w 15 6) (fieldOf w 9 6) (fieldOf w 3 6) (fieldOf w 0 3))
  | 3 => fixedBits (true) (.sts (fieldOf w 21 3) (fieldOf w 15 6) (fieldOf w 9 6) (fieldOf w 3 6) (fieldOf w 0 3))
  | 4 => fixedBits (fixedOf w 9 6 == 62 && fixedOf w 21 3 == 0) (.sld (fieldOf w 15 6) (fieldOf w 3 6) (fieldOf w 0 3))
  | 5 => fixedBits (fixedOf w 9 6 == 62 && fixedOf w 21 3 == 0) (.sst (fieldOf w 15 6) (fieldOf w 3 6) (fieldOf w 0 3))
  | 6 => fixedBits (true) (.plld (fieldOf w 21 3) (fieldOf w 15 6) (fieldOf w 9 6) (fieldOf w 3 6) (fieldOf w 0 3))
  | 7 => fixedBits (true) (.plst (fieldOf w 21 3) (fieldOf w 15 6) (fieldOf w 9 6) (fieldOf w 3 6) (fieldOf w 0 3))
  | 8 => fixedBits (true) (.atom (fieldOf w 21 3) (fieldOf w 15 6) (fieldOf w 9 6) (fieldOf w 3 6) (fieldOf w 0 3))
  | 9 => fixedBits (true) (.atomx (fieldOf w 21 3) (fieldOf w 15 6) (fieldOf w 9 6) (fieldOf w 3 6) (fieldOf w 0 3))
  | 10 => fixedBits (true) (.red (fieldOf w 21 3) (fieldOf w 15 6) (fieldOf w 9 6) (fieldOf w 3 6) (fieldOf w 0 3))
  | 11 => fixedBits (fixedOf w 9 6 == 62 && fixedOf w 21 3 == 0) (.satom (fieldOf w 15 6) (fieldOf w 3 6) (fieldOf w 0 3))
  | 12 => fixedBits (fixedOf w 9 6 == 62 && fixedOf w 21 3 == 0) (.place (fieldOf w 15 6) (fieldOf w 3 6) (fieldOf w 0 3))
  | 13 => fixedBits (fixedOf w 11 4 == 0 && fixedOf w 21 3 == 0) (.waita (fieldOf w 15 6) (fieldOf w 10 1) (fieldOf w 9 1) (fieldOf w 3 6) (fieldOf w 0 3))
  | _ => .error .unassigned

/-- Class 5: the word by its function (R172, R176). -/
def decodeClass5 (fn : Nat) (w : Word) : Except DecodeError Instr :=
  match fn with
  | 0 => fixedBits (fixedOf w 5 19 == 0) (.fence (fieldOf w 2 3) (fieldOf w 0 2))
  | 1 => fixedBits (fixedOf w 3 9 == 0) (.acq (fieldOf w 18 6) (fieldOf w 12 6) (fieldOf w 0 3))
  | 2 => fixedBits (fixedOf w 3 15 == 0) (.rel (fieldOf w 18 6) (fieldOf w 0 3))
  | 3 => fixedBits (fixedOf w 3 15 == 0) (.tlwait (fieldOf w 18 6) (fieldOf w 0 3))
  | 4 => fixedBits (fixedOf w 3 15 == 0) (.tlget (fieldOf w 18 6) (fieldOf w 0 3))
  | 5 => fixedBits (fixedOf w 0 12 == 0) (.baralloc (fieldOf w 18 6) (fieldOf w 12 6))
  | 6 => fixedBits (fixedOf w 0 12 == 0) (.barfree (fieldOf w 18 6) (fieldOf w 12 6))
  | 7 => fixedBits (fixedOf w 0 12 == 0 && fixedOf w 18 6 == 0) (.bararr (fieldOf w 12 6))
  | 8 => fixedBits (fixedOf w 0 12 == 0 && fixedOf w 18 6 == 0) (.barwait (fieldOf w 12 6))
  | 9 => fixedBits (fixedOf w 0 12 == 0 && fixedOf w 18 6 == 0) (.barsync (fieldOf w 12 6))
  | 10 => fixedBits (fixedOf w 0 12 == 0 && fixedOf w 18 6 == 0) (.xarr (fieldOf w 12 6))
  | 11 => fixedBits (fixedOf w 0 12 == 0 && fixedOf w 18 6 == 0) (.xwait (fieldOf w 12 6))
  | 12 => fixedBits (fixedOf w 0 6 == 0) (.qalloc (fieldOf w 18 6) (fieldOf w 12 6) (fieldOf w 6 6))
  | 13 => fixedBits (fixedOf w 0 12 == 0) (.qfree (fieldOf w 18 6) (fieldOf w 12 6))
  | 14 => fixedBits (fixedOf w 0 6 == 0 && fixedOf w 18 6 == 0) (.qpush (fieldOf w 12 6) (fieldOf w 6 6))
  | 15 => fixedBits (fixedOf w 0 12 == 0) (.qpop (fieldOf w 18 6) (fieldOf w 12 6))
  | 16 => fixedBits (fixedOf w 1 5 == 0) (.qtry (fieldOf w 18 6) (fieldOf w 12 6) (fieldOf w 6 6) (fieldOf w 0 1))
  | 17 => fixedBits (fixedOf w 0 6 == 0 && fixedOf w 18 6 == 0) (.qgrant (fieldOf w 12 6) (fieldOf w 6 6))
  | 18 => fixedBits (fixedOf w 3 9 == 0) (.copy (fieldOf w 18 6) (fieldOf w 12 6) (fieldOf w 0 3))
  | 19 => fixedBits (fixedOf w 3 9 == 0) (.halo (fieldOf w 18 6) (fieldOf w 12 6) (fieldOf w 0 3))
  | 20 => fixedBits (fixedOf w 3 9 == 0) (.mcast (fieldOf w 18 6) (fieldOf w 12 6) (fieldOf w 0 3))
  | 21 => fixedBits (fixedOf w 3 9 == 0) (.dcmpStream (fieldOf w 18 6) (fieldOf w 12 6) (fieldOf w 0 3))
  | 22 => fixedBits (fixedOf w 3 9 == 0) (.coll (fieldOf w 18 6) (fieldOf w 12 6) (fieldOf w 0 3))
  | 23 => fixedBits (fixedOf w 3 3 == 0 && fixedOf w 18 6 == 0) (.spawn (fieldOf w 12 6) (fieldOf w 6 6) (fieldOf w 0 3))
  | 24 => fixedBits (fixedOf w 3 3 == 0) (.rebin (fieldOf w 18 6) (fieldOf w 12 6) (fieldOf w 6 6) (fieldOf w 0 3))
  | 25 => fixedBits (fixedOf w 0 12 == 0) (.launch (fieldOf w 18 6) (fieldOf w 12 6))
  | 26 => fixedBits (fixedOf w 0 12 == 0) (.waitch (fieldOf w 18 6) (fieldOf w 12 6))
  | _ => .error .unassigned

/-- Class 6: the word by its function (R172, R176). -/
def decodeClass6 (fn : Nat) (w : Word) : Except DecodeError Instr :=
  match fn with
  | 0 => fixedBits (fixedOf w 1 17 == 0) (.tclaim (fieldOf w 18 6) (fieldOf w 0 1))
  | 1 => fixedBits (fixedOf w 1 17 == 0) (.trel (fieldOf w 18 6) (fieldOf w 0 1))
  | 2 => fixedBits (true) (.mmq (fieldOf w 18 6) (fieldOf w 12 6) (fieldOf w 6 6) (fieldOf w 2 4) (fieldOf w 0 2))
  | 3 => fixedBits (fixedOf w 0 18 == 0) (.mzero (fieldOf w 18 6))
  | 4 => fixedBits (true) (.mdrain (fieldOf w 18 6) (fieldOf w 12 6) (fieldOf w 6 6) (fieldOf w 3 3) (fieldOf w 0 3))
  | 5 => fixedBits (fixedOf w 0 12 == 0) (.mfill (fieldOf w 18 6) (fieldOf w 12 6))
  | 6 => fixedBits (true) (.cupd (fieldOf w 18 6) (fieldOf w 12 6) (fieldOf w 6 6) (fieldOf w 0 6))
  | 7 => fixedBits (fixedOf w 0 6 == 0) (.menc (fieldOf w 18 6) (fieldOf w 12 6) (fieldOf w 6 6))
  | 8 => fixedBits (fixedOf w 1 11 == 0) (.cbld (fieldOf w 18 6) (fieldOf w 12 6) (fieldOf w 0 1))
  | 9 => fixedBits (fixedOf w 2 16 == 0) (.mstat (fieldOf w 18 6) (fieldOf w 0 2))
  | 10 => fixedBits (fixedOf w 1 2 == 0) (.gor2 (fieldOf w 21 3) (fieldOf w 15 6) (fieldOf w 9 6) (fieldOf w 3 6) (fieldOf w 0 1))
  | 11 => fixedBits (fixedOf w 1 2 == 0) (.gor3 (fieldOf w 21 3) (fieldOf w 15 6) (fieldOf w 9 6) (fieldOf w 3 6) (fieldOf w 0 1))
  | 12 => fixedBits (fixedOf w 1 2 == 0) (.ginc (fieldOf w 21 3) (fieldOf w 15 6) (fieldOf w 9 6) (fieldOf w 3 6) (fieldOf w 0 1))
  | 13 => fixedBits (fixedOf w 1 2 == 0) (.gins (fieldOf w 21 3) (fieldOf w 15 6) (fieldOf w 9 6) (fieldOf w 3 6) (fieldOf w 0 1))
  | 14 => fixedBits (fixedOf w 1 2 == 0) (.gseg (fieldOf w 21 3) (fieldOf w 15 6) (fieldOf w 9 6) (fieldOf w 3 6) (fieldOf w 0 1))
  | _ => .error .unassigned

/-- Class 7: the word by its function (R172, R176). -/
def decodeClass7 (fn : Nat) (w : Word) : Except DecodeError Instr :=
  match fn with
  | 0 => fixedBits (true) (.himm (fieldOf w 0 24))
  | 1 => fixedBits (fixedOf w 0 9 == 0 && fixedOf w 16 8 == 0) (.hsched (fieldOf w 12 4) (fieldOf w 11 1) (fieldOf w 10 1) (fieldOf w 9 1))
  | 2 => fixedBits (fixedOf w 0 1 == 0) (.hmod (fieldOf w 18 6) (fieldOf w 17 1) (fieldOf w 16 1) (fieldOf w 15 1) (fieldOf w 14 1) (fieldOf w 13 1) (fieldOf w 12 1) (fieldOf w 10 2) (fieldOf w 7 3) (fieldOf w 6 1) (fieldOf w 5 1) (fieldOf w 3 2) (fieldOf w 1 2))
  | 3 => fixedBits (fixedOf w 0 24 == 0) (.nop)
  | 4 => fixedBits (fixedOf w 0 24 == 0) (.yield)
  | 5 => fixedBits (fixedOf w 0 24 == 0) (.exit)
  | 6 => fixedBits (fixedOf w 16 8 == 0) (.trap (fieldOf w 0 16))
  | 7 => fixedBits (true) (.csrr (fieldOf w 18 6) (fieldOf w 12 6) (fieldOf w 0 12))
  | 8 => fixedBits (true) (.csrw (fieldOf w 18 6) (fieldOf w 12 6) (fieldOf w 0 12))
  | 9 => fixedBits (fixedOf w 1 11 == 0) (.tresume (fieldOf w 18 6) (fieldOf w 12 6) (fieldOf w 0 1))
  | 10 => fixedBits (fixedOf w 1 11 == 0) (.tflush (fieldOf w 18 6) (fieldOf w 12 6) (fieldOf w 0 1))
  | 11 => fixedBits (fixedOf w 0 12 == 0) (.split (fieldOf w 18 6) (fieldOf w 12 6))
  | 12 => fixedBits (fixedOf w 16 8 == 0) (.halt (fieldOf w 0 16))
  | 13 => fixedBits (fixedOf w 20 4 == 0) (.sleep (fieldOf w 0 20))
  | 14 => fixedBits (fixedOf w 16 8 == 0) (.brk (fieldOf w 0 16))
  | _ => .error .unassigned

/-- The instruction a word holds, before the check of reserved values. -/
def parseWord (w : Word) : Except DecodeError Instr :=
  let fn := fixedOf w 24 5
  match fixedOf w 29 3 with
  | 0 => decodeClass0 fn w
  | 1 => decodeClass1 fn w
  | 2 => decodeClass2 fn w
  | 3 => decodeClass3 fn w
  | 4 => decodeClass4 fn w
  | 5 => decodeClass5 fn w
  | 6 => decodeClass6 fn w
  | _ => decodeClass7 fn w

/-- Decoding under the table of header version `ever` (R73, R179, R181). -/
def decodeWord (ever : Nat) (w : Word) : Except DecodeError Instr :=
  match parseWord w with
  | .ok i => if i.wf ever then .ok i else .error .reservedValue
  | .error e => .error e

/-- A word from its four bytes, lowest address first (R4, R171). -/
def wordOfBytes (b0 b1 b2 b3 : Byte) : Word :=
  BitVec.ofNat 32 (b0.toNat + 2 ^ 8 * b1.toNat + 2 ^ 16 * b2.toNat + 2 ^ 24 * b3.toNat)

/-- The four bytes of a word, lowest address first (R4). -/
def bytesOfWord (w : Word) : List Byte :=
  [BitVec.ofNat 8 w.toNat, BitVec.ofNat 8 (w.toNat / 2 ^ 8), BitVec.ofNat 8 (w.toNat / 2 ^ 16), BitVec.ofNat 8 (w.toNat / 2 ^ 24)]

/-- Decoding any bytes: the first instruction and the bytes after it (R171: one word, no longer instruction). -/
def decode (ever : Nat) (bs : List Byte) : Except DecodeError (Instr × List Byte) :=
  match bs with
  | b0 :: b1 :: b2 :: b3 :: rest =>
    match decodeWord ever (wordOfBytes b0 b1 b2 b3) with
    | .ok i => .ok (i, rest)
    | .error e => .error e
  | _ => .error .truncated

/-- The instruction the decoder reads from a table row's bits (every row is one word). -/
def decodeTableWord (nbits w : Nat) : Option Instr :=
  match decode 3 (bytesOfWord (BitVec.ofNat 32 (w % 2 ^ nbits))) with
  | .ok (i, _) => some i
  | .error _ => none

/-- A word as a number: the fixed bits and each field's value at its lowest bit. -/
def pack (fixed : Nat) : List (Nat × Nat) → Nat
  | [] => fixed
  | (lo, v) :: fs => v * 2 ^ lo + pack fixed fs

/-- The word of an instruction as a number: the fixed bits of its row plus each field at its place (R172). An event has
no word. -/
def encodeNat (i : Instr) : Option Nat :=
  match i with
  | .sadd d a b u w => some (pack 0x00000000 [(18, d.toNat), (12, a.toNat), (6, b.toNat), (1, u.toNat), (0, w.toNat)])
  | .ssub d a b u w => some (pack 0x01000000 [(18, d.toNat), (12, a.toNat), (6, b.toNat), (1, u.toNat), (0, w.toNat)])
  | .smul d a b u w => some (pack 0x02000000 [(18, d.toNat), (12, a.toNat), (6, b.toNat), (1, u.toNat), (0, w.toNat)])
  | .smulh d a b u w => some (pack 0x03000000 [(18, d.toNat), (12, a.toNat), (6, b.toNat), (1, u.toNat), (0, w.toNat)])
  | .sdiv d a b u w => some (pack 0x04000000 [(18, d.toNat), (12, a.toNat), (6, b.toNat), (1, u.toNat), (0, w.toNat)])
  | .srem d a b u w => some (pack 0x05000000 [(18, d.toNat), (12, a.toNat), (6, b.toNat), (1, u.toNat), (0, w.toNat)])
  | .sand d a b u w => some (pack 0x06000000 [(18, d.toNat), (12, a.toNat), (6, b.toNat), (1, u.toNat), (0, w.toNat)])
  | .sor d a b u w => some (pack 0x07000000 [(18, d.toNat), (12, a.toNat), (6, b.toNat), (1, u.toNat), (0, w.toNat)])
  | .sxor d a b u w => some (pack 0x08000000 [(18, d.toNat), (12, a.toNat), (6, b.toNat), (1, u.toNat), (0, w.toNat)])
  | .sshl d a b u w => some (pack 0x09000000 [(18, d.toNat), (12, a.toNat), (6, b.toNat), (1, u.toNat), (0, w.toNat)])
  | .sshr d a b u w => some (pack 0x0a000000 [(18, d.toNat), (12, a.toNat), (6, b.toNat), (1, u.toNat), (0, w.toNat)])
  | .smin d a b u w => some (pack 0x0b000000 [(18, d.toNat), (12, a.toNat), (6, b.toNat), (1, u.toNat), (0, w.toNat)])
  | .smax d a b u w => some (pack 0x0c000000 [(18, d.toNat), (12, a.toNat), (6, b.toNat), (1, u.toNat), (0, w.toNat)])
  | .scmp d a b cond u w => some (pack 0x0d000000 [(18, d.toNat), (12, a.toNat), (6, b.toNat), (2, cond.toNat), (1, u.toNat), (0, w.toNat)])
  | .ssel d a b c => some (pack 0x0e000000 [(18, d.toNat), (12, a.toNat), (6, b.toNat), (0, c.toNat)])
  | .sbit d a op w => some (pack 0x0f000000 [(18, d.toNat), (12, a.toNat), (2, op.toNat), (0, w.toNat)])
  | .sget d i => some (pack 0x10000000 [(18, d.toNat), (6, i.toNat)])
  | .sset a i => some (pack 0x11000000 [(12, a.toNat), (6, i.toNat)])
  | .mget d mask => some (pack 0x12000000 [(18, d.toNat), (0, mask.toNat)])
  | .mput a mask => some (pack 0x13000000 [(12, a.toNat), (0, mask.toNat)])
  | .sext d a u size => some (pack 0x14000000 [(18, d.toNat), (12, a.toNat), (2, u.toNat), (0, size.toNat)])
  | .saddi d a imm => some (pack 0x20000000 [(18, d.toNat), (12, a.toNat), (0, imm.toNat)])
  | .sandi d a imm => some (pack 0x21000000 [(18, d.toNat), (12, a.toNat), (0, imm.toNat)])
  | .sori d a imm => some (pack 0x22000000 [(18, d.toNat), (12, a.toNat), (0, imm.toNat)])
  | .sxori d a imm => some (pack 0x23000000 [(18, d.toNat), (12, a.toNat), (0, imm.toNat)])
  | .sshli d a c => some (pack 0x24000000 [(18, d.toNat), (12, a.toNat), (0, c.toNat)])
  | .sshri d a arith c => some (pack 0x25000000 [(18, d.toNat), (12, a.toNat), (6, arith.toNat), (0, c.toNat)])
  | .slti d a imm => some (pack 0x26000000 [(18, d.toNat), (12, a.toNat), (0, imm.toNat)])
  | .sltni d a imm => some (pack 0x27000000 [(18, d.toNat), (12, a.toNat), (0, imm.toNat)])
  | .sli d imm => some (pack 0x28000000 [(18, d.toNat), (0, imm.toNat)])
  | .bra off => some (pack 0x30000000 [(0, off.toNat)])
  | .call off => some (pack 0x31000000 [(0, off.toNat)])
  | .bz a off => some (pack 0x32000000 [(18, a.toNat), (0, off.toNat)])
  | .bnz a off => some (pack 0x33000000 [(18, a.toNat), (0, off.toNat)])
  | .jr a kind => some (pack 0x34000000 [(12, a.toNat), (0, kind.toNat)])
  | .rept a len => some (pack 0x35000000 [(12, a.toNat), (0, len.toNat)])
  | .bany mask off => some (pack 0x36000000 [(21, mask.toNat), (0, off.toNat)])
  | .bnone mask off => some (pack 0x37000000 [(21, mask.toNat), (0, off.toNat)])
  | .ifv mask neg off => some (pack 0x38000000 [(21, mask.toNat), (20, neg.toNat), (0, off.toNat)])
  | .elsev off => some (pack 0x39000000 [(0, off.toNat)])
  | .endv => some (pack 0x3a000000 [])
  | .setfmt d a sel => some (pack 0x3b000000 [(18, d.toNat), (12, a.toNat), (0, sel.toNat)])
  | .vadd guard nw d a b mod => some (pack 0x40000000 [(21, guard.toNat), (20, nw.toNat), (14, d.toNat), (8, a.toNat), (2, b.toNat), (0, mod.toNat)])
  | .vsub guard nw d a b mod => some (pack 0x41000000 [(21, guard.toNat), (20, nw.toNat), (14, d.toNat), (8, a.toNat), (2, b.toNat), (0, mod.toNat)])
  | .vmul guard nw d a b => some (pack 0x42000000 [(21, guard.toNat), (20, nw.toNat), (14, d.toNat), (8, a.toNat), (2, b.toNat)])
  | .vmulh guard nw d a b mod => some (pack 0x43000000 [(21, guard.toNat), (20, nw.toNat), (14, d.toNat), (8, a.toNat), (2, b.toNat), (0, mod.toNat)])
  | .vmad guard d a b => some (pack 0x44000000 [(21, guard.toNat), (14, d.toNat), (8, a.toNat), (2, b.toNat)])
  | .vand guard nw d a b => some (pack 0x45000000 [(21, guard.toNat), (20, nw.toNat), (14, d.toNat), (8, a.toNat), (2, b.toNat)])
  | .vor guard nw d a b => some (pack 0x46000000 [(21, guard.toNat), (20, nw.toNat), (14, d.toNat), (8, a.toNat), (2, b.toNat)])
  | .vxor guard nw d a b => some (pack 0x47000000 [(21, guard.toNat), (20, nw.toNat), (14, d.toNat), (8, a.toNat), (2, b.toNat)])
  | .vshl guard nw d a b => some (pack 0x48000000 [(21, guard.toNat), (20, nw.toNat), (14, d.toNat), (8, a.toNat), (2, b.toNat)])
  | .vshr guard nw d a b mod => some (pack 0x49000000 [(21, guard.toNat), (20, nw.toNat), (14, d.toNat), (8, a.toNat), (2, b.toNat), (0, mod.toNat)])
  | .vmin guard nw d a b mod => some (pack 0x4a000000 [(21, guard.toNat), (20, nw.toNat), (14, d.toNat), (8, a.toNat), (2, b.toNat), (0, mod.toNat)])
  | .vmax guard nw d a b mod => some (pack 0x4b000000 [(21, guard.toNat), (20, nw.toNat), (14, d.toNat), (8, a.toNat), (2, b.toNat), (0, mod.toNat)])
  | .vabsd guard nw d a b mod => some (pack 0x4c000000 [(21, guard.toNat), (20, nw.toNat), (14, d.toNat), (8, a.toNat), (2, b.toNat), (0, mod.toNat)])
  | .vsel guard d a b mod => some (pack 0x4d000000 [(21, guard.toNat), (14, d.toNat), (8, a.toNat), (2, b.toNat), (0, mod.toNat)])
  | .vcmp guard cond mask a b mod => some (pack 0x4e000000 [(21, guard.toNat), (17, cond.toNat), (14, mask.toNat), (8, a.toNat), (2, b.toNat), (0, mod.toNat)])
  | .vbit guard nw d a mod => some (pack 0x4f0000f8 [(21, guard.toNat), (20, nw.toNat), (14, d.toNat), (8, a.toNat), (0, mod.toNat)])
  | .vlane guard nw d mod => some (pack 0x50003ef8 [(21, guard.toNat), (20, nw.toNat), (14, d.toNat), (0, mod.toNat)])
  | .vmov guard nw d a b mod => some (pack 0x51000000 [(21, guard.toNat), (20, nw.toNat), (14, d.toNat), (8, a.toNat), (2, b.toNat), (0, mod.toNat)])
  | .vshuf guard nw d a b mod => some (pack 0x52000000 [(21, guard.toNat), (20, nw.toNat), (14, d.toNat), (8, a.toNat), (2, b.toNat), (0, mod.toNat)])
  | .vrot guard nw d a b mod => some (pack 0x53000000 [(21, guard.toNat), (20, nw.toNat), (14, d.toNat), (8, a.toNat), (2, b.toNat), (0, mod.toNat)])
  | .vslide guard nw d a b mod => some (pack 0x54000000 [(21, guard.toNat), (20, nw.toNat), (14, d.toNat), (8, a.toNat), (2, b.toNat), (0, mod.toNat)])
  | .vscan guard nw d a b mod => some (pack 0x55000000 [(21, guard.toNat), (20, nw.toNat), (14, d.toNat), (8, a.toNat), (2, b.toNat), (0, mod.toNat)])
  | .vred guard d a b => some (pack 0x56000000 [(21, guard.toNat), (14, d.toNat), (8, a.toNat), (2, b.toNat)])
  | .bperm guard nw d a b mod => some (pack 0x57000000 [(21, guard.toNat), (20, nw.toNat), (14, d.toNat), (8, a.toNat), (2, b.toNat), (0, mod.toNat)])
  | .mop op mask mX mY => some (pack 0x58000000 [(17, op.toNat), (14, mask.toNat), (8, mX.toNat), (2, mY.toNat)])
  | .mcnt guard d mX mod => some (pack 0x59000000 [(21, guard.toNat), (14, d.toNat), (8, mX.toNat), (0, mod.toNat)])
  | .vext guard nw d a b mod => some (pack 0x5a000000 [(21, guard.toNat), (20, nw.toNat), (14, d.toNat), (8, a.toNat), (2, b.toNat), (0, mod.toNat)])
  | .fadd guard nw d a b => some (pack 0x60000000 [(21, guard.toNat), (20, nw.toNat), (14, d.toNat), (8, a.toNat), (2, b.toNat)])
  | .fsub guard nw d a b => some (pack 0x61000000 [(21, guard.toNat), (20, nw.toNat), (14, d.toNat), (8, a.toNat), (2, b.toNat)])
  | .fmul guard nw d a b => some (pack 0x62000000 [(21, guard.toNat), (20, nw.toNat), (14, d.toNat), (8, a.toNat), (2, b.toNat)])
  | .ffma guard d a b => some (pack 0x63000000 [(21, guard.toNat), (14, d.toNat), (8, a.toNat), (2, b.toNat)])
  | .fnma guard d a b => some (pack 0x64000000 [(21, guard.toNat), (14, d.toNat), (8, a.toNat), (2, b.toNat)])
  | .fmin guard nw d a b => some (pack 0x65000000 [(21, guard.toNat), (20, nw.toNat), (14, d.toNat), (8, a.toNat), (2, b.toNat)])
  | .fmax guard nw d a b => some (pack 0x66000000 [(21, guard.toNat), (20, nw.toNat), (14, d.toNat), (8, a.toNat), (2, b.toNat)])
  | .fcmp guard cond mask a b => some (pack 0x67000000 [(21, guard.toNat), (17, cond.toNat), (14, mask.toNat), (8, a.toNat), (2, b.toNat)])
  | .frcp guard nw d a => some (pack 0x680000f8 [(21, guard.toNat), (20, nw.toNat), (14, d.toNat), (8, a.toNat)])
  | .frsq guard nw d a => some (pack 0x690000f8 [(21, guard.toNat), (20, nw.toNat), (14, d.toNat), (8, a.toNat)])
  | .fex2 guard nw d a => some (pack 0x6a0000f8 [(21, guard.toNat), (20, nw.toNat), (14, d.toNat), (8, a.toNat)])
  | .flg2 guard nw d a => some (pack 0x6b0000f8 [(21, guard.toNat), (20, nw.toNat), (14, d.toNat), (8, a.toNat)])
  | .fclass guard nw d a => some (pack 0x6c0000f8 [(21, guard.toNat), (20, nw.toNat), (14, d.toNat), (8, a.toNat)])
  | .cvt guard nw d a dst src rnd => some (pack 0x6d000000 [(21, guard.toNat), (20, nw.toNat), (14, d.toNat), (8, a.toNat), (5, dst.toNat), (2, src.toNat), (0, rnd.toNat)])
  | .hfma2 guard d a b mod => some (pack 0x6e000000 [(21, guard.toNat), (14, d.toNat), (8, a.toNat), (2, b.toNat), (0, mod.toNat)])
  | .dadd guard nw d a b => some (pack 0x6f000000 [(21, guard.toNat), (20, nw.toNat), (14, d.toNat), (8, a.toNat), (2, b.toNat)])
  | .dmul guard nw d a b => some (pack 0x70000000 [(21, guard.toNat), (20, nw.toNat), (14, d.toNat), (8, a.toNat), (2, b.toNat)])
  | .dfma guard d a b => some (pack 0x71000000 [(21, guard.toNat), (14, d.toNat), (8, a.toNat), (2, b.toNat)])
  | .dcmpF64 guard cond mask a b => some (pack 0x72000000 [(21, guard.toNat), (17, cond.toNat), (14, mask.toNat), (8, a.toNat), (2, b.toNat)])
  | .dcvt guard nw d a code rnd => some (pack 0x73000000 [(21, guard.toNat), (20, nw.toNat), (14, d.toNat), (8, a.toNat), (2, code.toNat), (0, rnd.toNat)])
  | .fscale guard nw d a b mod => some (pack 0x74000000 [(21, guard.toNat), (20, nw.toNat), (14, d.toNat), (8, a.toNat), (2, b.toNat), (0, mod.toNat)])
  | .ld guard data ofs base size => some (pack 0x80000000 [(21, guard.toNat), (15, data.toNat), (9, ofs.toNat), (3, base.toNat), (0, size.toNat)])
  | .st guard data ofs base size => some (pack 0x81000000 [(21, guard.toNat), (15, data.toNat), (9, ofs.toNat), (3, base.toNat), (0, size.toNat)])
  | .lds guard data ofs base size => some (pack 0x82000000 [(21, guard.toNat), (15, data.toNat), (9, ofs.toNat), (3, base.toNat), (0, size.toNat)])
  | .sts guard data ofs base size => some (pack 0x83000000 [(21, guard.toNat), (15, data.toNat), (9, ofs.toNat), (3, base.toNat), (0, size.toNat)])
  | .sld data base size => some (pack 0x84007c00 [(15, data.toNat), (3, base.toNat), (0, size.toNat)])
  | .sst data base size => some (pack 0x85007c00 [(15, data.toNat), (3, base.toNat), (0, size.toNat)])
  | .plld guard data ofs base planes => some (pack 0x86000000 [(21, guard.toNat), (15, data.toNat), (9, ofs.toNat), (3, base.toNat), (0, planes.toNat)])
  | .plst guard data ofs base planes => some (pack 0x87000000 [(21, guard.toNat), (15, data.toNat), (9, ofs.toNat), (3, base.toNat), (0, planes.toNat)])
  | .atom guard data ofs base op => some (pack 0x88000000 [(21, guard.toNat), (15, data.toNat), (9, ofs.toNat), (3, base.toNat), (0, op.toNat)])
  | .atomx guard data ofs base op => some (pack 0x89000000 [(21, guard.toNat), (15, data.toNat), (9, ofs.toNat), (3, base.toNat), (0, op.toNat)])
  | .red guard data ofs base op => some (pack 0x8a000000 [(21, guard.toNat), (15, data.toNat), (9, ofs.toNat), (3, base.toNat), (0, op.toNat)])
  | .satom data base op => some (pack 0x8b007c00 [(15, data.toNat), (3, base.toNat), (0, op.toNat)])
  | .place len base wh => some (pack 0x8c007c00 [(15, len.toNat), (3, base.toNat), (0, wh.toNat)])
  | .waita data uns wide base cond => some (pack 0x8d000000 [(15, data.toNat), (10, uns.toNat), (9, wide.toNat), (3, base.toNat), (0, cond.toNat)])
  | .fence scope kind => some (pack 0xa0000000 [(2, scope.toNat), (0, kind.toNat)])
  | .acq a d scope => some (pack 0xa1000000 [(18, a.toNat), (12, d.toNat), (0, scope.toNat)])
  | .rel a scope => some (pack 0xa2000000 [(18, a.toNat), (0, scope.toNat)])
  | .tlwait a tl => some (pack 0xa3000000 [(18, a.toNat), (0, tl.toNat)])
  | .tlget d tl => some (pack 0xa4000000 [(18, d.toNat), (0, tl.toNat)])
  | .baralloc d p => some (pack 0xa5000000 [(18, d.toNat), (12, p.toNat)])
  | .barfree d b => some (pack 0xa6000000 [(18, d.toNat), (12, b.toNat)])
  | .bararr b => some (pack 0xa7000000 [(12, b.toNat)])
  | .barwait b => some (pack 0xa8000000 [(12, b.toNat)])
  | .barsync b => some (pack 0xa9000000 [(12, b.toNat)])
  | .xarr m => some (pack 0xaa000000 [(12, m.toNat)])
  | .xwait m => some (pack 0xab000000 [(12, m.toNat)])
  | .qalloc d a c => some (pack 0xac000000 [(18, d.toNat), (12, a.toNat), (6, c.toNat)])
  | .qfree d q => some (pack 0xad000000 [(18, d.toNat), (12, q.toNat)])
  | .qpush q h => some (pack 0xae000000 [(12, q.toNat), (6, h.toNat)])
  | .qpop d q => some (pack 0xaf000000 [(18, d.toNat), (12, q.toNat)])
  | .qtry d q h p => some (pack 0xb0000000 [(18, d.toNat), (12, q.toNat), (6, h.toNat), (0, p.toNat)])
  | .qgrant q n => some (pack 0xb1000000 [(12, q.toNat), (6, n.toNat)])
  | .copy d a tl => some (pack 0xb2000000 [(18, d.toNat), (12, a.toNat), (0, tl.toNat)])
  | .halo d a tl => some (pack 0xb3000000 [(18, d.toNat), (12, a.toNat), (0, tl.toNat)])
  | .mcast d a tl => some (pack 0xb4000000 [(18, d.toNat), (12, a.toNat), (0, tl.toNat)])
  | .dcmpStream d a tl => some (pack 0xb5000000 [(18, d.toNat), (12, a.toNat), (0, tl.toNat)])
  | .coll d a tl => some (pack 0xb6000000 [(18, d.toNat), (12, a.toNat), (0, tl.toNat)])
  | .spawn e p guard => some (pack 0xb7000000 [(12, e.toNat), (6, p.toNat), (0, guard.toNat)])
  | .rebin key e p guard => some (pack 0xb8000000 [(18, key.toNat), (12, e.toNat), (6, p.toNat), (0, guard.toNat)])
  | .launch d r => some (pack 0xb9000000 [(18, d.toNat), (12, r.toNat)])
  | .waitch d g => some (pack 0xba000000 [(18, d.toNat), (12, g.toNat)])
  | .tclaim d k => some (pack 0xc0000000 [(18, d.toNat), (0, k.toNat)])
  | .trel n k => some (pack 0xc1000000 [(18, n.toNat), (0, k.toNat)])
  | .mmq a b p qmask metric => some (pack 0xc2000000 [(18, a.toNat), (12, b.toNat), (6, p.toNat), (2, qmask.toNat), (0, metric.toNat)])
  | .mzero t => some (pack 0xc3000000 [(18, t.toNat)])
  | .mdrain t a o dst mode => some (pack 0xc4000000 [(18, t.toNat), (12, a.toNat), (6, o.toNat), (3, dst.toNat), (0, mode.toNat)])
  | .mfill t a => some (pack 0xc5000000 [(18, t.toNat), (12, a.toNat)])
  | .cupd a t p c => some (pack 0xc6000000 [(18, a.toNat), (12, t.toNat), (6, p.toNat), (0, c.toNat)])
  | .menc d s k => some (pack 0xc7000000 [(18, d.toNat), (12, s.toNat), (6, k.toNat)])
  | .cbld k a p => some (pack 0xc8000000 [(18, k.toNat), (12, a.toNat), (0, p.toNat)])
  | .mstat d s => some (pack 0xc9000000 [(18, d.toNat), (0, s.toNat)])
  | .gor2 guard d p q ty => some (pack 0xca000000 [(21, guard.toNat), (15, d.toNat), (9, p.toNat), (3, q.toNat), (0, ty.toNat)])
  | .gor3 guard d p q ty => some (pack 0xcb000000 [(21, guard.toNat), (15, d.toNat), (9, p.toNat), (3, q.toNat), (0, ty.toNat)])
  | .ginc guard d p q ty => some (pack 0xcc000000 [(21, guard.toNat), (15, d.toNat), (9, p.toNat), (3, q.toNat), (0, ty.toNat)])
  | .gins guard d p q ty => some (pack 0xcd000000 [(21, guard.toNat), (15, d.toNat), (9, p.toNat), (3, q.toNat), (0, ty.toNat)])
  | .gseg guard d p q ty => some (pack 0xce000000 [(21, guard.toNat), (15, d.toNat), (9, p.toNat), (3, q.toNat), (0, ty.toNat)])
  | .himm value => some (pack 0xe0000000 [(0, value.toNat)])
  | .hsched delay reuseB reuseA keep => some (pack 0xe1000000 [(12, delay.toNat), (11, reuseB.toNat), (10, reuseA.toNat), (9, keep.toNat)])
  | .hmod xd xe sos peek far w64 sp ord scope sat rme rnd tie => some (pack 0xe2000000 [(18, xd.toNat), (17, xe.toNat), (16, sos.toNat), (15, peek.toNat), (14, far.toNat), (13, w64.toNat), (12, sp.toNat), (10, ord.toNat), (7, scope.toNat), (6, sat.toNat), (5, rme.toNat), (3, rnd.toNat), (1, tie.toNat)])
  | .nop => some (pack 0xe3000000 [])
  | .yield => some (pack 0xe4000000 [])
  | .exit => some (pack 0xe5000000 [])
  | .trap code => some (pack 0xe6000000 [(0, code.toNat)])
  | .csrr d a csr => some (pack 0xe7000000 [(18, d.toNat), (12, a.toNat), (0, csr.toNat)])
  | .csrw b a csr => some (pack 0xe8000000 [(18, b.toNat), (12, a.toNat), (0, csr.toNat)])
  | .tresume d a fin => some (pack 0xe9000000 [(18, d.toNat), (12, a.toNat), (0, fin.toNat)])
  | .tflush a b all => some (pack 0xea000000 [(18, a.toNat), (12, b.toNat), (0, all.toNat)])
  | .split d a => some (pack 0xeb000000 [(18, d.toNat), (12, a.toNat)])
  | .halt code => some (pack 0xec000000 [(0, code.toNat)])
  | .sleep n => some (pack 0xed000000 [(0, n.toNat)])
  | .brk code => some (pack 0xee000000 [(0, code.toNat)])
  | .binTimerExpiry _ _ => none
  | .binGroupStart _ => none
  | .watchdogExpiry _ => none
  | .activeSetSwap _ => none
  | .forcedSwap _ => none
  | .sleepExpiry _ _ => none
  | .waitaReread _ _ => none
  | .loadDataReturn _ => none
  | .sectorArrival _ => none
  | .frameAccess _ => none
  | .replicaLock _ => none
  | .replicaUpdate _ => none
  | .sideboardAccess _ => none
  | .bounce _ => none
  | .moveDone _ => none
  | .pageRecall _ => none
  | .pageWalk _ _ _ => none
  | .closeMessage _ => none
  | .closeAnswer _ => none
  | .engineCommandCompletion _ _ _ => none
  | .dcmpStreamEnd _ _ _ => none
  | .collArrival _ _ => none
  | .copyDataLanding _ _ _ => none
  | .drawerDelivery _ => none
  | .deliveryRetry _ => none
  | .remoteLoad _ => none
  | .targetGoneAnswer _ => none
  | .exchangeClose _ => none
  | .xwaitMerge _ _ => none
  | .arrayPass _ => none
  | .passTimeout _ => none
  | .subarrayGate _ _ => none
  | .subarrayWake _ _ => none
  | .predicateCompletion _ => none
  | .pageMove _ _ _ _ => none
  | .frameSeal _ => none
  | .sealNotice _ => none
  | .sectorLanding _ _ => none
  | .touchPromotion _ _ _ => none
  | .placeFarRequest _ => none
  | .stashSweep _ => none
  | .swapOut _ => none
  | .dispatchStarvation _ => none
  | .timeSliceExpiry _ => none
  | .gridCompletion _ => none
  | .submissionPortWrite _ _ _ => none
  | .cxlMemRead _ _ => none
  | .cxlMemWrite _ _ => none
  | .getVersion => none
  | .getCapabilities => none
  | .negotiateAlgorithms => none
  | .getDigests => none
  | .getCertificate _ _ _ => none
  | .challenge _ _ => none
  | .getMeasurements _ _ => none
  | .layoutWrite _ => none
  | .eventsClear _ => none
  | .lrCmd _ => none
  | .fwStoreStagedImage => none
  | .fwRaiseMinimumSvn => none
  | .fwCommandDone => none
  | .preset _ _ => none
  | .mbxHeadWrite _ _ => none
  | .windowTableWrite _ _ _ => none
  | .ownedReleaseDone _ _ => none
  | .bar0RegisterWrite _ _ => none
  | .peerRequest _ _ _ => none
  | .peerWriteAck _ => none
  | .flitCrcRetry _ => none
  | .linkDown _ => none
  | .linkUp _ _ => none
  | .powerOn => none
  | .thermalTrip _ => none
  | .overcurrent _ => none
  | .sensorSample _ _ _ _ _ => none
  | .lifetimeFlush => none
  | .orderlyShutdown => none
  | .powerLoss => none
  | .busTest _ _ => none
  | .mdrainCompletion _ => none
  | .replicaAcknowledgement _ => none
  | .zeroLengthReadCompletion _ => none
  | .mbxBaseWrite _ _ => none
  | .gemarLaneLoss _ => none
  | .hschedDelayExpiry _ _ => none

/-- The word of a well-formed instruction; none for an event. -/
def encode (i : Instr) : Option Word := (encodeNat i).map (BitVec.ofNat 32)

/-- The instruction is one of the 161 with an encoding, and not one of the 85 events. -/
def Instr.encodable (i : Instr) : Bool := (encodeNat i).isSome

end Sys2Proof
end

