-- ==== Sys2Proof/Config.lean ====
section
/-! DEFINITION. What the spec leaves open for good (free values, as opaque constants without a body) and the device's
fixed numbers (R12, R15, R19, R23). -/

namespace Sys2Proof.Config

/-- A 32-bit value the spec leaves undefined, one per draw: latches after a yield point (R41), bytes of unused register
images (R69), ring bytes read by LDS (R265), elements of a refused load (R430). Log entry 4. -/
opaque freeWord : Nat → Word

/-- A byte the spec leaves undefined, one per draw: overlapping COPY bytes (R278), DCMP output after a stream error
(R280), COLL destinations after disagreement (R282). Log entry 4. -/
opaque freeByte : Nat → Byte

/-- The undefined finite value with which a flagged operand takes part in the array (R93), as a significand. Log entry 4. -/
opaque freeOperand : Nat → Int

/-- The bank key the core draws for a team (R107): the spec asks only that it be odd. Log entry 9. -/
opaque bankKeyDraw : Nat → BitVec 31

/-- How many entries a partition's resume queue has beyond its first (R348 names the queue and gives no depth). Log entry 14. -/
opaque resumeSpare : Nat

/-- The depth of a partition's resume queue: one entry or more. Log entry 14. -/
def resumeDepth : Nat := resumeSpare + 1

/-- The device serial number (R407). Log entry 8. -/
opaque serial : DWord

/-- The firmware image the factory stored for a kind (1 controller, 2 Sideboard, 3 core) in slot 0 (A) or 1 (B). Log entry 8. -/
opaque factoryImage : Nat → Nat → List Byte

/-- The fused SHA-256 hash of key slot 0 to 3 (R419). Log entry 8. -/
opaque keyHash : Nat → List Byte

/-- The revocation fuse of key slot 0 to 3 (R419). Log entry 8. -/
opaque revoked : Nat → Bool

/-- The fused minimum security version as manufactured (R419). Log entry 8. -/
opaque minSvn : Nat

/-- The signature of the device identity key, whose private part never leaves the root of trust (R421). Log entry 8. -/
opaque deviceSign : List Byte → List Byte

/-- The device certificate in SPDM slot 0 (R421). Log entry 8. -/
opaque certificate : List Byte

/-- What an INT32 drain gives for a flagged element, which has no canonical NaN to become (R94, R304 are silent): by tile, row and
column. Log entry 55. -/
opaque flaggedInt : Nat → Nat → Nat → Word

/-- Whether channel ECC fails to correct what an access meets in a column that has a worn lane (R428), one per draw. Log entry 54. -/
opaque eccFails : Nat → Bool

/-- Whether a part of the device trains at a boot (R418): 0 fuses, 1 to 4 the stacks, 5 CXL, 8 + n Gemar port n; one per draw. Log entry 48. -/
opaque trains : Nat → Nat → Bool

/-- Whether the far device at a port issues the k-th COLL of a collective, naming this device (R417). Log entry 56. -/
opaque farColl : Nat → Nat → Nat → Bool

/-- The voltage bin of a column at a sample, one per draw (R425 gives no input for it). Log entry 19. -/
opaque voltageBin : Nat → Fin 8

/-- The ranges to which far devices at the Gemar ports limit the requests they take, by port: base and end (R416). Log entry 68. -/
opaque peerRanges : List (Nat × Nat × Nat)

/-- How many cycles pass in a read of `ccount` before the moment of its value, one per draw (R429). Log entry 69. -/
opaque readMoment : Nat → Nat

/-- How many cycles more than the others' a cluster's own counter goes on while cycles pass, one per draw and cluster: the device has no common time
base (R62, R429). Log entry 69. -/
opaque clockDrift : Nat → Nat

/-- The agents of accesses that no core issues: a host or a peer, and the device itself. -/
def outsideAgent : Nat := 1000000
def deviceAgent : Nat := 1000001

/-- How many cycles one issued instruction takes beside the agenda's ticks (R6 gives no binding latency). Log entry 1. -/
def issueCycles : Nat := 1

def clusters : Nat := 4
def coresPerCluster : Nat := 192
def slicesPerCluster : Nat := 96
def framesPerSlice : Nat := 512
def groupSlots : Nat := 32
def activeSlots : Nat := 8
def traySlots : Nat := 64
def accTiles : Nat := 192
def binsPerCore : Nat := 64
def homePages : Nat := 25165824
/-- Home pages from here hold the residence pointer table (R357). -/
def pointerPages : Nat := 25141248
/-- The array's wake latency in cycles (R312, R339). -/
def wakeLatency : Nat := 256

/-- The serial number that the far device of a port gives at a training (R413, R418), one per draw. Log entry 48. -/
opaque peerSerial : Nat → Nat → DWord

end Sys2Proof.Config
end

