-- ==== Sys2Proof/Machine/Store.lean ====
section
/-! DEFINITION. Sparse stores as plain data: maps from numbers to values as lists in rising key order, and byte memory in
the canonical form (addresses strictly rising, no entry equal to what an unlisted address reads as, which is zero: log
entry 2). Byte order is decided here once (R4). -/

namespace Sys2Proof.Machine

/-- A map from numbers: pairs in strictly rising key order. -/
abbrev NMap (α : Type) := List (Nat × α)

/-- The value at a key, or nothing. -/
def nmGet {α : Type} (k : Nat) : NMap α → Option α
  | [] => none
  | (k', v) :: m => if k = k' then some v else nmGet k m

/-- The value at a key, or the default. -/
def nmGetD {α : Type} (m : NMap α) (k : Nat) (d : α) : α := (nmGet k m).getD d

/-- Put a value at a key, keeping the order of keys. -/
def nmPut {α : Type} (k : Nat) (v : α) : NMap α → NMap α
  | [] => [(k, v)]
  | (k', v') :: m =>
    if k < k' then (k, v) :: (k', v') :: m
    else if k = k' then (k, v) :: m
    else (k', v') :: nmPut k v m

/-- Remove a key. -/
def nmDel {α : Type} (k : Nat) (m : NMap α) : NMap α := m.filter (fun p => p.1 ≠ k)

/-- Change the value at a key if there is one. -/
def nmModify {α : Type} (k : Nat) (f : α → α) (m : NMap α) : NMap α :=
  m.map (fun p => if p.1 = k then (p.1, f p.2) else p)

/-- The lowest number that is not a key, below `n` (lowest free index). -/
def nmFree {α : Type} (m : NMap α) (n : Nat) : Option Nat :=
  (List.range n).find? (fun i => (nmGet i m).isNone)

/-- Byte memory: the bytes that are not zero, in rising address order. -/
abbrev Memory := List Host.Cell

/-- What an unlisted address reads as (log entry 2). -/
def blankByte : Byte := 0

/-- One byte of memory. -/
def readByte (m : Memory) (a : Nat) : Byte := nmGetD m a blankByte

/-- Remove every entry of an address. -/
def eraseByte (a : Nat) : Memory → Memory
  | [] => []
  | (a', b) :: m => if a = a' then eraseByte a m else (a', b) :: eraseByte a m

/-- Write one byte; writing what an unlisted address reads as removes the entry. -/
def writeByte (m : Memory) (a : Nat) (b : Byte) : Memory :=
  if b = blankByte then eraseByte a m else nmPut a b m

/-- Strictly rising keys above a bound, no blank byte. -/
def memWfFrom : Nat → Memory → Bool
  | _, [] => true
  | lo, (a, b) :: m => lo ≤ a && b ≠ blankByte && memWfFrom (a + 1) m

/-- The canonical form of memory. -/
def Memory.wf (m : Memory) : Bool := memWfFrom 0 m

/-- `n` bytes from an address up, lowest first (R4). -/
def readBytes (m : Memory) (a : Nat) : Nat → List Byte
  | 0 => []
  | n + 1 => readByte m a :: readBytes m (a + 1) n

/-- Store bytes from an address up. -/
def writeBytes (m : Memory) (a : Nat) : List Byte → Memory
  | [] => m
  | b :: bs => writeBytes (writeByte m a b) (a + 1) bs

/-- The value of bytes, lowest address in the lowest bits (R4). -/
def leNat : List Byte → Nat
  | [] => 0
  | b :: bs => b.toNat + 256 * leNat bs

/-- The `n` low bytes of a value, lowest first (R4). -/
def natBytes : Nat → Nat → List Byte
  | 0, _ => []
  | n + 1, v => BitVec.ofNat 8 v :: natBytes n (v / 256)

/-- An `n`-byte little-endian value (R4, R9). -/
def readLE (m : Memory) (a n : Nat) : Nat := leNat (readBytes m a n)

/-- Store the low `n` bytes of a value little-endian (R4, R9). -/
def writeLE (m : Memory) (a n v : Nat) : Memory := writeBytes m a (natBytes n v)

/-- Make `n` bytes from `a` blank: the entries outside stay. -/
def clearRange (m : Memory) (a n : Nat) : Memory := m.filter (fun c => c.1 < a || a + n ≤ c.1)

/-- The entries of a range, moved so that `a` becomes 0. -/
def sliceRange (m : Memory) (a n : Nat) : Memory :=
  (m.filter (fun c => a ≤ c.1 && c.1 < a + n)).map (fun c => (c.1 - a, c.2))

/-- Replace the `n` bytes from `a` by the first `n` bytes of `src` (bytes `src` does not list become blank). -/
def pasteRange (m : Memory) (a n : Nat) (src : Memory) : Memory :=
  (src.filter (fun c => c.1 < n)).foldl (fun acc c => writeByte acc (a + c.1) c.2) (clearRange m a n)

end Sys2Proof.Machine
end

