-- ==== Sys2Proof/Machine/Bits.lean ====
section
/-! DEFINITION. The helpers of R9 on patterns: sign and zero extension, wrapping, signed and unsigned reading, bit counts,
lanes of a vector value. -/

namespace Sys2Proof.Machine

/-- The low n bits of x read as a two's complement integer (R9). -/
def sextInt (x n : Nat) : Int :=
  let y := x % 2 ^ n
  if 2 * y < 2 ^ n then (y : Int) else (y : Int) - 2 ^ n

/-- x mod 2^n as an n-bit pattern (R9). -/
def wrapInt (x : Int) (n : Nat) : Nat := (x % (2 ^ n : Nat)).toNat

/-- sext(x, n) to 64 bits. -/
def sext64 (x n : Nat) : DWord := BitVec.ofNat 64 (wrapInt (sextInt x n) 64)
/-- sext(x, n) to 32 bits. -/
def sext32 (x n : Nat) : Word := BitVec.ofNat 32 (wrapInt (sextInt x n) 32)

/-- Bits hi:lo of a number (R7). -/
def bitsOf (x hi lo : Nat) : Nat := x / 2 ^ lo % 2 ^ (hi + 1 - lo)
def bitOf (x i : Nat) : Bool := x.testBit i

/-- The number of bits of x up to its highest set bit. -/
def bitLen (x : Nat) : Nat := if x = 0 then 0 else x.log2 + 1

/-- Leading zeros of an n-bit pattern; n for zero. -/
def clz (x n : Nat) : Nat := n - bitLen (x % 2 ^ n)
/-- Trailing zeros of an n-bit pattern; n for zero. -/
def ctz (x n : Nat) : Nat := ((List.range n).find? (fun i => x.testBit i)).getD n
/-- Set bits of an n-bit pattern. -/
def popcount (x n : Nat) : Nat := ((List.range n).filter (fun i => x.testBit i)).length
/-- An n-bit pattern reversed. -/
def revBits (x n : Nat) : Nat :=
  (List.range n).foldl (fun acc i => if x.testBit i then acc + 2 ^ (n - 1 - i) else acc) 0

def lanes : List Nat := List.range 32
/-- Lane i of a vector value (R7). -/
def lane (v : Lanes) (i : Nat) : Word := v.getD i 0
/-- A vector value from a function of the lane. -/
def ofLanes (f : Nat → Word) : Lanes := lanes.map f
def zeroLanes : Lanes := List.replicate 32 0
/-- Lane i is in the set (R58). -/
def inMask (m : Mask) (i : Nat) : Bool := m.getLsbD i
/-- The lanes of a set in ascending order. -/
def lanesOf (m : Mask) : List Nat := lanes.filter (inMask m)
/-- A set from a condition on lanes. -/
def maskOf (f : Nat → Bool) : Mask :=
  BitVec.ofNat 32 (lanes.foldl (fun acc i => if f i then acc + 2 ^ i else acc) 0)
/-- Lanes of `m` take `new`, the others keep `old` (R208). -/
def blend (m : Mask) (new old : Lanes) : Lanes := ofLanes (fun i => if inMask m i then lane new i else lane old i)
/-- Lanes of `m` take `v`, the others are zero: what latch() pushes (R59, R208). -/
def only (m : Mask) (v : Lanes) : Lanes := ofLanes (fun i => if inMask m i then lane v i else 0)

/-- Byte j of a register as 128 bytes: lane j >> 2, bits 8(j & 3) + 7 : 8(j & 3) (R219). -/
def regByte (v : Lanes) (j : Nat) : Byte := BitVec.ofNat 8 ((lane v (j / 4)).toNat / 2 ^ (8 * (j % 4)))
/-- A register from its 128 bytes. -/
def lanesOfBytes (f : Nat → Byte) : Lanes :=
  ofLanes (fun i => BitVec.ofNat 32 (leNat [f (4 * i), f (4 * i + 1), f (4 * i + 2), f (4 * i + 3)]))
/-- A register with byte j replaced. -/
def setRegByte (v : Lanes) (j : Nat) (b : Byte) : Lanes := lanesOfBytes (fun k => if k = j then b else regByte v k)

/-- The 64-bit value of a register pair's lane: bits 31:0 in the even register (R4, R56). -/
def pair64 (lo hi : Word) : Nat := lo.toNat + 2 ^ 32 * hi.toNat
def lo32 (x : Nat) : Word := BitVec.ofNat 32 x
def hi32 (x : Nat) : Word := BitVec.ofNat 32 (x / 2 ^ 32)

/-- A one-bit field as a truth value. -/
def isSet (b : BitVec 1) : Bool := b == 1

end Sys2Proof.Machine
end

