-- ==== Sys2Proof/Machine/Float.lean ====
section
/-! DEFINITION. Floating formats, exact values, rounding and saturation (R74 to R81), and the accumulator's extended
format (R90). Exact values are dyadic numbers m * 2^e; nothing is rounded before `round`. -/

namespace Sys2Proof.Machine

/-- A rounding mode (R77). -/
inductive RMode where
  | rne | rz | rd | ru
  deriving DecidableEq, Repr, Inhabited

def RMode.ofCode (c : Nat) : RMode :=
  match c % 4 with
  | 0 => .rne
  | 1 => .rz
  | 2 => .rd
  | _ => .ru

/-- A floating format: exponent and fraction widths, bias; `noInf` is E4M3's encoding (R74, R75). -/
structure Fmt where
  ebits : Nat
  fbits : Nat
  bias : Nat
  noInf : Bool
  deriving DecidableEq, Repr, Inhabited

def fp64 : Fmt := ⟨11, 52, 1023, false⟩
def fp32 : Fmt := ⟨8, 23, 127, false⟩
def fp16 : Fmt := ⟨5, 10, 15, false⟩
def bf16 : Fmt := ⟨8, 7, 127, false⟩
def e4m3 : Fmt := ⟨4, 3, 7, true⟩
def e5m2 : Fmt := ⟨5, 2, 15, false⟩
/-- The extended format of an accumulator element (R90). -/
def extFmt : Fmt := ⟨10, 23, 511, false⟩

def Fmt.width (f : Fmt) : Nat := 1 + f.ebits + f.fbits
def Fmt.expMax (f : Fmt) : Nat := 2 ^ f.ebits - 1

/-- What a pattern stands for: a NaN, an infinity, or (-1)^neg * m * 2^e (R74, R75). -/
inductive FVal where
  | nan (signalling : Bool)
  | inf (neg : Bool)
  | fin (neg : Bool) (m : Nat) (e : Int)
  deriving DecidableEq, Repr, Inhabited

/-- The value of a pattern (R74, R75). -/
def decodeF (f : Fmt) (x : Nat) : FVal :=
  let neg := x.testBit (f.ebits + f.fbits)
  let ex := x / 2 ^ f.fbits % 2 ^ f.ebits
  let fr := x % 2 ^ f.fbits
  if ex = f.expMax ∧ (f.noInf = false ∨ fr + 1 = 2 ^ f.fbits) then
    if f.noInf then .nan false
    else if fr = 0 then .inf neg else .nan (!fr.testBit (f.fbits - 1))
  else if ex = 0 then .fin neg fr (1 - (f.bias : Int) - f.fbits)
  else .fin neg (2 ^ f.fbits + fr) ((ex : Int) - f.bias - f.fbits)

/-- The canonical NaN of a format (R76). -/
def canonNaN (f : Fmt) : Nat :=
  if f.noInf then 2 ^ (f.ebits + f.fbits) - 1 else f.expMax * 2 ^ f.fbits + 2 ^ (f.fbits - 1)
def signBit (f : Fmt) (neg : Bool) : Nat := if neg then 2 ^ (f.ebits + f.fbits) else 0
/-- ±infinity; E4M3 has none and takes its NaN (R78 step 4). -/
def infBits (f : Fmt) (neg : Bool) : Nat := if f.noInf then canonNaN f else signBit f neg + f.expMax * 2 ^ f.fbits
/-- The largest finite value of a sign (R74). -/
def maxBits (f : Fmt) (neg : Bool) : Nat :=
  signBit f neg + (if f.noInf then f.expMax * 2 ^ f.fbits + 2 ^ f.fbits - 2 else f.expMax * 2 ^ f.fbits - 1)
def zeroBits (f : Fmt) (neg : Bool) : Nat := signBit f neg

/-- Conditions of one operation (R66). -/
structure FFlags where
  nx : Bool := false
  uf : Bool := false
  ovf : Bool := false
  nv : Bool := false
  deriving DecidableEq, Repr, Inhabited

def FFlags.none : FFlags := ⟨false, false, false, false⟩
def FFlags.invalid : FFlags := ⟨false, false, false, true⟩
def FFlags.or (a b : FFlags) : FFlags := ⟨a.nx || b.nx, a.uf || b.uf, a.ovf || b.ovf, a.nv || b.nv⟩
/-- The flags as bits 3:0 of `fflags` (R66). -/
def FFlags.bits (a : FFlags) : Nat :=
  (if a.nx then 8 else 0) + (if a.uf then 4 else 0) + (if a.ovf then 2 else 0) + (if a.nv then 1 else 0)

/-- A result pattern with its conditions. -/
structure FRes where
  bits : Nat
  fl : FFlags
  deriving DecidableEq, Repr, Inhabited

/-- Round the magnitude m * 2^e (plus a positive rest below 2^e when `sticky`) to a multiple of 2^lsb: the multiple,
and whether it differs. -/
def roundAt (mode : RMode) (neg : Bool) (m : Nat) (e : Int) (sticky : Bool) (lsb : Int) : Nat × Bool :=
  if lsb ≤ e then (m * 2 ^ (e - lsb).toNat, sticky)
  else
    let sh := (lsb - e).toNat
    let q := m / 2 ^ sh
    let r := m % 2 ^ sh
    let half := 2 ^ (sh - 1)
    let inexact := r ≠ 0 || sticky
    let up := match mode with
      | .rne => half < r || (r = half && (sticky || q % 2 = 1))
      | .rz => false
      | .rd => neg && inexact
      | .ru => !neg && inexact
    (if up then q + 1 else q, inexact)

/-- Compare m * 2^e with m' * 2^e' (magnitudes). -/
def magLt (m : Nat) (e : Int) (m' : Nat) (e' : Int) : Bool :=
  if e ≤ e' then m < m' * 2 ^ (e' - e).toNat else m * 2 ^ (e - e').toNat < m'

/-- round(x, f, mode) of a finite exact value by the steps of R78. `sticky` says that x is a little above m * 2^e in
magnitude; the caller then gives m more bits than the precision of f. -/
def roundFin (f : Fmt) (mode : RMode) (neg : Bool) (m : Nat) (e : Int) (sticky : Bool) : FRes :=
  if m = 0 ∧ sticky = false then ⟨zeroBits f neg, .none⟩
  else
    let p := f.fbits + 1
    let emin : Int := 1 - (f.bias : Int) - f.fbits
    let lsb1 := e + bitLen m - p
    let (q, inx) := roundAt mode neg m e sticky lsb1
    let (maxM, maxE) := match decodeF f (maxBits f false) with
      | .fin _ mm ee => (mm, ee)
      | _ => (0, 0)
    if magLt maxM maxE q lsb1 then
      let toInf := match mode with
        | .rne => true
        | .rz => false
        | .rd => neg
        | .ru => !neg
      ⟨if toInf then infBits f neg else maxBits f neg, ⟨true, false, true, false⟩⟩
    else if magLt q lsb1 (2 ^ f.fbits) emin then
      let (q2, inx2) := roundAt mode neg m e sticky emin
      ⟨signBit f neg + q2, ⟨inx2, inx2, false, false⟩⟩
    else
      -- q * 2^lsb1 is normal: renormalise so that the significand has p bits
      let (q3, lsb3) := if lsb1 < emin then (q / 2 ^ (emin - lsb1).toNat, emin) else (q, lsb1)
      let sh := (bitLen q3 : Int) - p
      let (mant, lsb) := if 0 ≤ sh then (q3 / 2 ^ sh.toNat, lsb3 + sh) else (q3 * 2 ^ (-sh).toNat, lsb3 + sh)
      let ex := (lsb - emin).toNat + 1
      ⟨signBit f neg + ex * 2 ^ f.fbits + (mant - 2 ^ f.fbits), ⟨inx, false, false, false⟩⟩

/-- round of any value (R78): a NaN gives the canonical NaN and nv when it signals; an infinity passes without a flag. -/
def roundVal (f : Fmt) (mode : RMode) (x : FVal) : FRes :=
  match x with
  | .nan s => ⟨canonNaN f, if s then .invalid else .none⟩
  | .inf neg => ⟨infBits f neg, .none⟩
  | .fin neg m e => roundFin f mode neg m e false

/-- sat after round (R79): an overflowed result or an infinite x becomes the largest finite value with the sign of x; a
finite x keeps the flags of its rounding, an infinite x raises none. -/
def satVal (f : Fmt) (x : FVal) (r : FRes) : FRes :=
  match x with
  | .nan _ => r
  | .inf neg => ⟨maxBits f neg, .none⟩
  | .fin neg _ _ => if r.fl.ovf then ⟨maxBits f neg, r.fl⟩ else r

def FVal.isNaN : FVal → Bool
  | .nan _ => true
  | _ => false
def FVal.signals : FVal → Bool
  | .nan s => s
  | _ => false
def FVal.finite : FVal → Bool
  | .fin _ _ _ => true
  | _ => false
def FVal.neg : FVal → Bool
  | .nan _ => false
  | .inf n => n
  | .fin n _ _ => n
def FVal.negate : FVal → FVal
  | .nan s => .nan s
  | .inf n => .inf (!n)
  | .fin n m e => .fin (!n) m e
def FVal.isZero : FVal → Bool
  | .fin _ m _ => m == 0
  | _ => false

/-- An exact dyadic number m * 2^e. -/
structure Dya where
  m : Int
  e : Int
  deriving DecidableEq, Repr, Inhabited

def Dya.zero : Dya := ⟨0, 0⟩
def Dya.add (a b : Dya) : Dya :=
  if a.e ≤ b.e then ⟨a.m + b.m * 2 ^ (b.e - a.e).toNat, a.e⟩ else ⟨a.m * 2 ^ (a.e - b.e).toNat + b.m, b.e⟩
def Dya.neg (a : Dya) : Dya := ⟨-a.m, a.e⟩
def Dya.sub (a b : Dya) : Dya := a.add b.neg
def Dya.mul (a b : Dya) : Dya := ⟨a.m * b.m, a.e + b.e⟩
def Dya.abs (a : Dya) : Dya := ⟨a.m.natAbs, a.e⟩
def Dya.sign (a : Dya) : Int := a.m.sign
def Dya.lt (a b : Dya) : Bool := (a.sub b).m < 0
def Dya.eq (a b : Dya) : Bool := (a.sub b).m == 0
def Dya.le (a b : Dya) : Bool := !b.lt a
/-- The exact number of a finite value; zero for a NaN or an infinity. -/
def FVal.toDya : FVal → Dya
  | .fin n m e => ⟨if n then -(m : Int) else m, e⟩
  | _ => .zero
/-- round of an exact number; `zneg` is the sign of an exact zero (R80). -/
def roundDya (f : Fmt) (mode : RMode) (zneg : Bool) (x : Dya) : FRes :=
  roundFin f mode (if x.m = 0 then zneg else x.m < 0) x.m.natAbs x.e false

/-- The sign of an exact zero sum: the common sign of the operands, else minus only under RD (R80). -/
def zeroSumNeg (mode : RMode) (a b : Bool) : Bool := if a = b then a else mode = .rd

/-- round(x + y) (R80, R222). -/
def fpAdd (f : Fmt) (mode : RMode) (x y : FVal) : FRes :=
  let sig : FFlags := if x.signals || y.signals then .invalid else .none
  match x, y with
  | .nan _, _ => ⟨canonNaN f, sig⟩
  | _, .nan _ => ⟨canonNaN f, sig⟩
  | .inf a, .inf b => if a = b then ⟨infBits f a, .none⟩ else ⟨canonNaN f, .invalid⟩
  | .inf a, _ => ⟨infBits f a, .none⟩
  | _, .inf b => ⟨infBits f b, .none⟩
  | .fin a _ _, .fin b _ _ => roundDya f mode (zeroSumNeg mode a b) (x.toDya.add y.toDya)

/-- The exact product of two values, or a NaN with nv for 0 × ∞. -/
def fpProd (x y : FVal) : FVal :=
  match x, y with
  | .nan _, _ => .nan false
  | _, .nan _ => .nan false
  | .inf a, .inf b => .inf (a != b)
  | .inf a, .fin b m _ => if m = 0 then .nan true else .inf (a != b)
  | .fin a m _, .inf b => if m = 0 then .nan true else .inf (a != b)
  | .fin a m e, .fin b m' e' => .fin (a != b) (m * m') (e + e')

/-- round(x × y) (R80, R222). -/
def fpMul (f : Fmt) (mode : RMode) (x y : FVal) : FRes :=
  if x.isNaN || y.isNaN then ⟨canonNaN f, if x.signals || y.signals then .invalid else .none⟩
  else roundVal f mode (fpProd x y)

/-- round(x × y + z), one rounding; 0 × ∞ raises nv whatever z holds (R80, R222). -/
def fpFma (f : Fmt) (mode : RMode) (x y z : FVal) : FRes :=
  if x.isNaN || y.isNaN then ⟨canonNaN f, if x.signals || y.signals || z.signals then .invalid else .none⟩
  else
    let p := fpProd x y
    if p.isNaN then ⟨canonNaN f, .invalid⟩ else fpAdd f mode p z

/-- Numeric less-than with −0 below +0, for values that are no NaN (R80). -/
def fpLess (x y : FVal) : Bool :=
  match x, y with
  | .inf true, .inf true => false
  | .inf true, _ => true
  | _, .inf true => false
  | .inf false, _ => false
  | _, .inf false => true
  | _, _ =>
    let d := x.toDya.sub y.toDya
    if d.m = 0 then x.isZero && y.isZero && x.neg && !y.neg else d.m < 0

/-- FMIN and FMAX (R80): the other operand when one is a NaN, the canonical NaN when both are. -/
def fpMinMax (f : Fmt) (max : Bool) (a b : Nat) : FRes :=
  let x := decodeF f a
  let y := decodeF f b
  let fl : FFlags := if x.signals || y.signals then .invalid else .none
  if x.isNaN && y.isNaN then ⟨canonNaN f, fl⟩
  else if x.isNaN then ⟨b, fl⟩
  else if y.isNaN then ⟨a, fl⟩
  else ⟨if fpLess x y != max then a else b, fl⟩

/-- IEEE equality and order of values that are no NaN: −0 equals +0 (R223). -/
def fpEq (x y : FVal) : Bool :=
  match x, y with
  | .inf a, .inf b => a == b
  | .fin _ _ _, .fin _ _ _ => x.toDya.eq y.toDya
  | _, _ => false
def fpLt (x y : FVal) : Bool := fpLess x y && !fpEq x y

/-- A compare by condition code (R213, R223): the bit, and whether nv is raised. -/
def fpCmp (cond : Nat) (x y : FVal) : Bool × Bool :=
  let un := x.isNaN || y.isNaN
  let sig := x.signals || y.signals
  match cond with
  | 0 => (!un && fpEq x y, sig)
  | 1 => (un || !fpEq x y, sig)
  | 2 => (!un && fpLt x y, un)
  | 3 => (!un && (fpLt x y || fpEq x y), un)
  | 4 => (!un && fpLt y x, un)
  | 5 => (!un && (fpLt y x || fpEq x y), un)
  | 6 => (!un, sig)
  | _ => (un, sig)

/-- FCLASS's ten classes (R224). -/
def fpClass (f : Fmt) (x : Nat) : Nat :=
  match decodeF f x with
  | .nan s => if s then 2 ^ 8 else 2 ^ 9
  | .inf n => if n then 2 ^ 0 else 2 ^ 7
  | .fin n m _ =>
    if m = 0 then (if n then 2 ^ 3 else 2 ^ 4)
    else if m < 2 ^ f.fbits then (if n then 2 ^ 2 else 2 ^ 5)
    else (if n then 2 ^ 1 else 2 ^ 6)

/-- round(a × 2^s): zeros and infinities pass unchanged, and rounding happens only when the result is tiny or overflows
(R222). Every scale beyond 2^8192 overflows, and every one below 2^-8192 underflows, alike. -/
def fpScale (f : Fmt) (mode : RMode) (a : Nat) (s : Int) : FRes :=
  match decodeF f a with
  | .nan sg => ⟨canonNaN f, if sg then .invalid else .none⟩
  | .inf n => ⟨infBits f n, .none⟩
  | .fin n m e => if m = 0 then ⟨zeroBits f n, .none⟩ else roundFin f mode n m (e + max (-8192) (min 8192 s)) false

/-- The integer range of a conversion's destination, as its least and greatest value. -/
def intRange (signed : Bool) (n : Nat) : Int × Int :=
  if signed then (-(2 ^ (n - 1) : Nat), (2 ^ (n - 1) : Nat) - 1) else (0, (2 ^ n : Nat) - 1)

/-- A floating to integer conversion (R81): a NaN gives 0 with nv, a value beyond the range its nearest end with nv, a
rounded value nx. -/
def fpToInt (mode : RMode) (signed : Bool) (n : Nat) (x : FVal) : FRes :=
  let (lo, hi) := intRange signed n
  match x with
  | .nan _ => ⟨0, .invalid⟩
  | .inf neg => ⟨wrapInt (if neg then lo else hi) n, .invalid⟩
  | .fin neg m e =>
    let (q, inx) := roundAt mode neg m e false 0
    let v : Int := if neg then -(q : Int) else q
    if v < lo then ⟨wrapInt lo n, .invalid⟩
    else if hi < v then ⟨wrapInt hi n, .invalid⟩
    else ⟨wrapInt v n, ⟨inx, false, false, false⟩⟩

/-- The exact value of an integer. -/
def intVal (v : Int) : FVal := .fin (v < 0) v.natAbs 0

/-- round of the exact quotient a / b of nonzero b, rounded once (R306). -/
def fpDiv (f : Fmt) (mode : RMode) (x y : FVal) : FRes :=
  match x, y with
  | .fin n m e, .fin n' m' e' =>
    if m' = 0 then ⟨canonNaN f, .invalid⟩
    else
      let k := f.fbits + 4 + bitLen m'
      let q := m * 2 ^ k / m'
      let r := m * 2 ^ k % m'
      roundFin f mode (n != n') q (e - e' - k) (r ≠ 0)
  | .fin n _ _, .inf n' => ⟨zeroBits f (n != n'), .none⟩
  | .inf n, .fin n' _ _ => ⟨infBits f (n != n'), .none⟩
  | _, _ => ⟨canonNaN f, .invalid⟩

end Sys2Proof.Machine
end

