-- ==== Sys2Proof/Machine/State.lean ====
section
/-! DEFINITION. The state of the L768 as plain data: groups, teams, cores, clusters, partitions, the management block and
what is in flight between them; the reasons a step stops; and the state after reset. -/

namespace Sys2Proof.Machine

/-! ## Stops -/

/-- Why the machine stops. -/
inductive Fault where
  /-- Raised by `step` when every regulator enable is removed (thermal trip, overcurrent, power loss) and the agenda holds no
  POWER_ON (R422, R426). Safe: no instruction runs on a device without power. -/
  | poweredOff
  deriving DecidableEq, Repr, Inhabited

/-- Why an instruction has no meaning. -/
inductive Refusal where
  /-- Raised by an arm of `exec` whose instruction is not modelled yet, by its mnemonic. Safe: nothing is claimed of it. -/
  | notModelled (mnemonic : String)
  deriving DecidableEq, Repr, Inhabited

/-! ## Names of places and agents -/

/-- The place a page table entry names (R20, R355), a pool window address (R113), or the host or peer byte that the port die has let an
access through to (R410, R411). Cores count 192 * cluster + core. -/
inductive Place where
  | home (cluster h : Nat)
  | far (cluster slice frame : Nat)
  | near (core frame : Nat)
  | ext (idx : Nat)
  | pool (addr : Nat)
  | host (addr : Nat)
  | peer (port addr : Nat)
  deriving DecidableEq, Repr, Inhabited

/-- A counting point (R140). -/
inductive CountPoint where
  | slice (cluster slice : Nat)
  | core (core : Nat)
  | column (cluster col : Nat)
  deriving DecidableEq, Repr, Inhabited

/-- Whose writes are counted (R140, R142): a group's write phase, or an engine command. -/
inductive Source where
  | group (team group phase : Nat)
  | cmd (team tl num : Nat)
  deriving DecidableEq, Repr, Inhabited

/-! ## Groups -/

/-- A mask stack entry (R67). -/
structure MaskEntry where
  sm0 : Mask
  cond : Mask
  sfmt : Word
  deriving DecidableEq, Repr, Inhabited

/-- An active REPEAT (R200, R201, R345): iterations left after the present one, the body's first word, the number of
non-hint words, how many of them the present iteration has executed. -/
structure Rep where
  remaining : Nat
  first : Nat
  len : Nat
  pos : Nat
  deriving DecidableEq, Repr, Inhabited

/-- The hint run waiting for its instruction (R183, R184). -/
structure Hints where
  first : Option Nat
  himms : List (BitVec 24)
  lastHimm : Bool
  hsched : Option (BitVec 24)
  hmod : Option (BitVec 24)
  deriving DecidableEq, Repr, Inhabited

def Hints.none : Hints := ⟨.none, [], false, .none, .none⟩

/-- What a group is held at (R40); `yp` tells the yield points from the other holds. `performed` holds the next instruction after
an atomic or a REL until the group's reads are performed (R248, R253); `yielded` marks a group whose YIELD has issued (R204),
`placeHome` a fence that waits for PLACE `.home` pages (R251), `split` a SPLIT of a core whose near frames it is still evicting (R350). -/
inductive Wait where
  | timeline (tl n : Nat)
  | waita (va : Nat)
  | xwait
  | waitch (grid : Nat)
  | sleep (until_ : Nat)
  | yielded
  | qpush (q : Nat)
  | qpop (q : Nat)
  | barrier (b phase : Nat)
  | bararr (b phase : Nat)
  | line (off : Nat)
  | longLat
  | shared (seen : Bool)
  | unit
  | issue
  | placeHome
  | release (id : Nat)
  | acquire (refresh : Bool)
  | performed (refresh : Bool)
  | mat
  | deposit
  | split (core : Nat)
  deriving DecidableEq, Repr, Inhabited

/-- The hold is a yield point (R40); the holds listed here are not. -/
def Wait.yp : Wait → Bool
  | .issue => false
  | .placeHome => false
  | .release _ => false
  | .acquire _ => false
  | .performed _ => false
  | .mat => false
  | .deposit => false
  | .split _ => false
  | _ => true

/-- A register with a long-latency result that is outstanding or has not yet been used (R40, R239). -/
inductive RegName where
  | v (n : Nat)
  | s (n : Nat)
  deriving DecidableEq, Repr, Inhabited

/-- A fault on its way into a record (R347). `again` is where its group restarts when another fault of the swap-out is reported, so
that it is raised again (R396); none for a fault that no instruction raises again. `order` is the place of its instruction among the
team's (a name, as `nextId` gives them), and `live` says that the group which issued a faulting engine command has not ended (R347). -/
structure FaultInfo where
  code : Nat
  group : Nat
  restart : Nat
  addr : Nat
  lanes : Mask
  scode : Nat
  aux : Nat
  engine : Bool
  num : Nat
  again : Option Nat
  order : Nat
  live : Bool
  deriving DecidableEq, Repr, Inhabited

/-- A release in progress (R141): the phase it closed, the counting points that have not answered, the names of the peer writes whose
acknowledgement it awaits (R152), and whether its zero-length read is out (R153). -/
structure Release where
  id : Nat
  phase : Nat
  waiting : List CountPoint
  peers : List Nat
  zread : Bool
  deriving DecidableEq, Repr, Inhabited

/-- The release fences before an access: how many at any scope (R134), how many at `.clu` or wider, which alone order pool accesses (R114),
and the name below which the peer writes lie that the latest at `.sys` covers (R152). -/
structure Fences where
  any : Nat
  wide : Nat
  sys : Nat
  deriving DecidableEq, Repr, Inhabited

def Fences.none : Fences := ⟨0, 0, 0⟩

/-- One group (R54). `peerSent` names its peer writes that are not acknowledged (R152). Of reads that are performed at once, `fetchTries` and
`readTries` count the bounces of its next fetch and of its held ACQ, WAITA, CBLD or LAUNCH; `registered` is what the group waits for after the
eighth, the name of a move (0: none was in progress) and the place that bounced it (R369). `sectors` holds the sectors that such a held
read has asked for, each as a place, a tenure and a number: each takes a miss-status entry until its data is there (R117). -/
structure Group where
  index : Nat
  producer : Bool
  launched : Bool
  bin : Nat
  sregs : Vector DWord 64
  masks : Vector Mask 8
  latches : List Lanes
  fmt : Word
  fflags : Word
  stack : List MaskEntry
  pc : Nat
  rep : Option Rep
  hints : Hints
  wait : Option Wait
  since : Nat
  notBefore : Nat
  fresh : List RegName
  phase : Nat
  sent : List (CountPoint × Nat × Nat)
  peerSent : List Nat
  hostSent : List (Nat × Nat)
  releases : List Release
  placeHome : List Nat
  arrived : NMap Nat
  fences : Fences
  fault : Option FaultInfo
  fetchTries : Nat
  readTries : Nat
  registered : Option (Nat × Place)
  sectors : List (Place × Nat × Nat)
  deriving DecidableEq, Repr, Inhabited

/-! ## Teams -/

/-- A kernel header (R71), read from its 64 bytes. -/
structure Header where
  sig : Nat
  ever : Nat
  flags : Nat
  npro : Nat
  ncon : Nat
  gmax : Nat
  bpro : Nat
  bcon : Nat
  npair : Nat
  dfmt : Nat
  epro : Nat
  econ : Nat
  desk : Nat
  tslot : Nat
  atile : Nat
  nbar : Nat
  nque : Nat
  pairs : List Nat
  deriving DecidableEq, Repr, Inhabited

/-- A launch record (R377). -/
structure Record where
  kern : Nat
  args : Nat
  nteam : Nat
  ex : Nat
  ey : Nat
  ez : Nat
  flags : Nat
  per : Nat
  aspace : Nat
  rsv : Nat
  coll : Nat
  svn : Nat
  nbr : Nat
  done : Nat
  sva : Nat
  deriving DecidableEq, Repr, Inhabited

/-- A timeline (R48, R256): numbers handed out, completed numbers beyond the value, the value. -/
structure Timeline where
  handed : Nat
  early : List Nat
  value : Nat
  deriving DecidableEq, Repr, Inhabited

/-- A named barrier (R262, R263): participant mask, phase, group indices that arrived in the present phase (ended ones too),
those that join from the next phase, and the name below which the accesses before the last completion lie (R135). -/
structure Barrier where
  mask : Mask
  phase : Nat
  arrived : List Nat
  joinNext : List Nat
  mark : Nat
  deriving DecidableEq, Repr, Inhabited

/-- A named queue (R265, R266): the ring lies in the desk; e entries from position `head`, allowance a, waiters in order, and
for each entry the name below which the accesses before its push lie (R135). -/
structure Queue where
  off : Nat
  cap : Nat
  head : Nat
  e : Nat
  a : Nat
  marks : List Nat
  pushers : List Nat
  poppers : List Nat
  deriving DecidableEq, Repr, Inhabited

/-- A drawer byte whose mask bit is set (R105, R146): its value, phase tag and source core. -/
structure DrawerByte where
  off : Nat
  val : Byte
  phase : Nat
  src : Nat
  deriving DecidableEq, Repr, Inhabited

/-- The exchange state of a team (R268 to R270, R332): phase, arrived, sends per core and phase, counted arrivals and
received closes per source core and phase, the neighbour table. -/
structure Exchange where
  phase : Nat
  arrived : Bool
  sends : List (Nat × Nat × Nat)
  arrivals : List (Nat × Nat × Nat)
  closes : List (Nat × Nat × Nat)
  nbrs : List (Option Nat)
  deriving DecidableEq, Repr, Inhabited

/-- A claimed tray slot (R108, R294): the team's number, the number it has on its present core, its bytes. -/
structure Slot where
  num : Nat
  phys : Nat
  data : Memory
  deriving DecidableEq, Repr, Inhabited

/-- An accumulator element: an extended-format pattern, or an INT32 in its low 32 bits (R90, R110). -/
abbrev Elem := BitVec 34

/-- A claimed accumulator tile (R110, R313): what the elements of each row are (1 extended format, 2 INT32; a row not listed is zero), those
that are not zero at 64 i + j, flags, the shadow copy with a valid bit per row, and the A and B slots each row's last quarter recorded (R300). -/
structure Tile where
  num : Nat
  phys : Nat
  kinds : NMap Nat
  elems : NMap Elem
  rowFlags : DWord
  colFlags : DWord
  shadow : NMap Elem
  valid : DWord
  recs : NMap (Nat × Nat)
  deriving DecidableEq, Repr, Inhabited

inductive EngineKind where
  | copy | halo | mcast | dcmp | coll
  deriving DecidableEq, Repr, Inhabited

/-- A point of a group that an instruction with accesses in flight can bring it back to (R179, R369): the instruction's name and active
lanes, the group and its own registers as they were before it, and the shared registers that it has emptied (R47). -/
structure Mark where
  group : Nat
  instr : Nat
  lanes : Mask
  was : Group
  rows : NMap Lanes
  emptied : List (Nat × Nat)
  deriving DecidableEq, Repr, Inhabited

/-- An engine command in flight (R272): its number, issuing group, card and the card's desk offset, the exchange phase at issue
(R269), the name below which the accesses before its issue lie (R135), whether its data has landed, whether a fault or a
swap-out stopped it, the address at which a target was gone (R430), its deliveries per counting point, its DCMP status, its place among
the team's COLLs, the release that a COLL of kind 4 opened (R284), how many destination rows have landed (R310), whether its
destination has become undefined (R147), the name under which its issuing group's accesses go on, which is another once that group has
ended (R135, R206), and the output and status of a DCMP that has read its source (R280). -/
structure Cmd where
  kind : EngineKind
  tl : Nat
  num : Nat
  group : Nat
  card : List Byte
  cardOff : Nat
  phase : Nat
  mark : Nat
  landed : Bool
  stopped : Bool
  failed : Option Nat
  sent : List (CountPoint × Nat)
  stat : Nat
  collK : Nat
  relId : Nat
  rowsDone : Nat
  spoilt : Bool
  issuer : Nat
  decoded : Option (List Byte × Nat)
  deriving DecidableEq, Repr, Inhabited

/-- A child grid this team launched (R287): its id, and its end status once it has ended. -/
structure Child where
  grid : Nat
  status : Option Nat
  deriving DecidableEq, Repr, Inhabited

/-- One team (R25, R54). `saveWhy` says why it stops: 0 a fault, 1 pre-emption (R387), 2 the parent-spill rule (R391), 3 its time slice
(R389), 4 its gang (R395); `interval` is the watchdog interval
that applies since `lastRetire` (R53, R341); `frec` is the record of its latest fault (R344); `pending` is the fault to report and `owed`
holds those that no instruction raises again, to be taken after the restore (R396); `marks` holds the points to which faults of accesses in
flight bring its groups back (R179). -/
structure Team where
  id : Nat
  part : Nat
  grid : Nat
  index : Nat
  core : Nat
  firstCore : Nat
  aspace : Nat
  supervisor : Bool
  tag : Word
  kern : Nat
  args : Nat
  header : Header
  groups : NMap Group
  regs : NMap Lanes
  full : List (Nat × Nat)
  desk : Memory
  drawer : List DrawerByte
  absent : List (Nat × Nat × Nat)
  bankKey : Word
  tls : Vector Timeline 8
  cmds : List Cmd
  bars : NMap Barrier
  queues : NMap Queue
  exch : Exchange
  slots : List Slot
  tiles : List Tile
  codebooks : Vector (List (BitVec 16)) 16
  mstat : Word
  children : List Child
  colls : Nat
  slot : Nat
  resident : Bool
  placedAt : Nat
  lastRetire : Nat
  interval : Nat
  stopping : Bool
  saveWhy : Nat
  frec : List Byte
  pending : Option FaultInfo
  owed : List FaultInfo
  marks : List Mark
  deriving DecidableEq, Repr, Inhabited

/-- A grid (R25, R377, R390): its record and header, depth, the team that launched it and the name below which that team's
accesses before the LAUNCH lie (R286), how many teams were placed, on which cores (team index, core) and their names, how many
have ended, its end, and how many COLLs that name a cluster each team index has issued (R282). `id` is 2^32 times the partition plus the grid id, which is unique in its partition (R61). -/
structure Grid where
  id : Nat
  part : Nat
  rec_ : Record
  header : Header
  host : Bool
  depth : Nat
  parent : Nat
  mark : Nat
  accepted : Nat
  passedAt : Nat
  placed : Nat
  homes : List (Nat × Nat)
  members : List Nat
  ended : Nat
  killed : Bool
  finished : Bool
  colls : NMap Nat
  deriving DecidableEq, Repr, Inhabited

/-! ## Cores, frames and clusters -/

inductive FrameState where
  | free | filling | resident | moving | sealed | quarantined
  deriving DecidableEq, Repr, Inhabited

/-- A frame with its directory entry (R363) and its bytes. `srcSealed` says that a filling frame's source is sealed (R364,
R403); `replicaOf` names the home frame of a replica (R373), `locked` a strict lock (R374), `team` the team whose quota it
counts against (R101), `sweeps` the clusters' sweep counts at quarantine (R372), `pk` whether its home page is packed (R122),
`users` the address spaces whose walks use a table frame (R362). -/
structure Frame where
  dirty : BitVec 256
  valid : BitVec 256
  repl : List (Nat × Nat)
  aspace : Nat
  vpage : Nat
  hclu : Nat
  hpage : Nat
  ten : Nat
  state : FrameState
  hold : BitVec 16
  tbl : Bool
  ref_ : Bool
  data : Memory
  srcSealed : Bool
  replicaOf : Option Place
  locked : Bool
  team : Nat
  sweeps : List Nat
  pk : Bool
  users : List Nat
  deriving DecidableEq, Repr, Inhabited

/-- A free frame after reset (R363). -/
def Frame.blank : Frame :=
  ⟨0, 0, [], 0, 0, 0, 0, 0, .free, 0, false, false, [], false, none, false, 0, [], false, []⟩

/-- A translation stash entry (R360): the leaf as read, its page size, the replica the core holds, the colour. -/
structure StashEntry where
  aspace : Nat
  vpage : Nat
  leaf : Nat
  big : Bool
  replica : Option (Nat × Nat)
  colour : Bool
  deriving DecidableEq, Repr, Inhabited

/-- One quarter operation of an MMQ (R297, R298) with the fields of its fusion key (R299). -/
structure Quarter where
  team : Nat
  a : Nat
  b : Nat
  tile : Nat
  row : Nat
  ks : Nat
  metric : Nat
  fmt : Word
  deriving DecidableEq, Repr, Inhabited

/-- A pass of the array (R299): the cycle it opened at and its quarters in arrival order. Among a core's open passes a full one, which takes
no more, waits for its turn in the order of opening. -/
structure Pass where
  opened : Nat
  quarters : List Quarter
  deriving DecidableEq, Repr, Inhabited

/-- A deposit in a bin (R31, R285): source word or key, and four payload words. -/
structure Deposit where
  word : Word
  payload : List Word
  deriving DecidableEq, Repr, Inhabited

/-- An open bin (R32, R33): the cycle and the order of its first deposit (R34), and the name below which the accesses before its deposits
lie (R285). -/
structure Bin where
  team : Nat
  rebin : Bool
  entry : Nat
  keyMask : Word
  key : Word
  start : Nat
  order : Nat
  mark : Nat
  deposits : List Deposit
  deriving DecidableEq, Repr, Inhabited

/-- A predicate instruction in flight (R326): its kind (a number of the model's), its results, decided from the sources read at issue, and
whether its lanes have run in stage 2 (R334). -/
structure PredOp where
  id : Nat
  kind : Nat
  team : Nat
  group : Nat
  d : Nat
  xd : Option Nat
  mask : Mask
  result : Lanes
  stage : Lanes
  ran : Bool
  deriving DecidableEq, Repr, Inhabited

/-- A drain in flight (R302, R303): what it writes, to the desk or to four registers, and the status bits it sets. -/
structure DrainOp where
  id : Nat
  team : Nat
  group : Nat
  tile : Nat
  dst : Nat
  desk : Nat
  vd : Nat
  out : List Byte
  regs : List Lanes
  st : Nat
  deriving DecidableEq, Repr, Inhabited

/-- One core (R19). `pend` holds the pending groups, each with one more than the cycle since which it is ready, 0 while it is not, and
`heldPast` the active ones whose hold at a yield point is over, since their instruction would issue now (R386);
`predQueue` names the predicates whose lanes have entered stage 2 and have not run there, in the order in which it serves them, and `predStarted`
the last issued of those whose lanes it has begun to serve (R334); `lastArray` the cycle of each sub-array's last use, `waking` the sub-arrays that wake and the cycle at which each has woken (R315). -/
structure Core where
  nearQuota : Nat
  binTimeout : Nat
  marrIdle : Nat
  wdog : Nat
  split : Word
  ingress : Nat
  closed : Bool
  active : List (Nat × Nat)
  pend : List (Nat × Nat × Nat)
  stash : List StashEntry
  nears : NMap Frame
  hand : Nat
  openPasses : List Pass
  closedPasses : List Pass
  drains : List DrainOp
  preds : List PredOp
  predQueue : List Nat
  products : List (Nat × Nat × Nat)
  gated : List Nat
  waking : NMap Nat
  lastArray : NMap Nat
  bins : NMap Bin
  launchedBins : List (Nat × Bin)
  touches : NMap Nat
  heldPast : List (Nat × Nat)
  predStarted : Nat
  deriving DecidableEq, Repr, Inhabited

/-- A core after reset: R339's and R340's values. -/
def Core.blank : Core :=
  ⟨128, 4096, 4096, 2 ^ 32, 0x824, 0, false, [], [], [], [], 0, [], [], [], [], [], [], [], [], [], [], [], [], [], 0⟩

/-- A collective that cluster barrier units serve (R282, R284): the clusters on which a unit is taken, the participants' issues (team, timeline,
number), and the clusters that they name, as a mask. -/
structure Coll where
  grid : Nat
  k : Nat
  clusters : List Nat
  issued : List (Nat × Nat × Nat)
  named : Nat
  deriving DecidableEq, Repr, Inhabited

/-- One cluster with its stack (R12, R13). `touches` counts the touches of home pages, and `wanted` holds those that have reached the
threshold, each with the cluster of the core whose touch reached it (R375). -/
structure Cluster where
  cycle : Nat
  touchThresh : Nat
  colour : Bool
  sweeps : Nat
  lastSweep : Nat
  slices : NMap (NMap Frame)
  hands : NMap Nat
  residence : NMap Place
  touches : NMap Nat
  wanted : NMap Nat
  overflow : Memory
  safeClock : List Nat
  deriving DecidableEq, Repr, Inhabited

/-- A cluster after reset (R339, R429). -/
def Cluster.blank : Cluster := ⟨0, 16, false, 0, 0, [], [], [], [], [], [], []⟩

/-! ## Partitions -/

/-- One partition (R337): its CSRs, fault queue, launch and resume queues, BAR0 block and window table. `asSpace` is the address space in
which `as_base` lies, that of the supervisor who wrote it, `asCluster` the cluster on which that team ran, whose pool window it is (R113), and `descs` the descriptors as last read: a change takes effect with the
TFLUSH of its address space (R338; log entry 10). `framed` names the frames that hold host pages of device-owned windows (R412). `submitted` holds completed records that the device has yet to accept (R408). -/
structure Partition where
  class0Reserve : Nat
  tslice : Nat
  asBase : Nat
  asSpace : Option Nat
  asCluster : Nat
  descs : NMap Nat
  fqBase : Nat
  fqSpace : Nat
  fqSize : Nat
  fqHead : Nat
  fqTail : Nat
  fqSeq : Nat
  mbxSeq : Nat
  held : List (Bool × List Byte)
  halted : Bool
  haltCode : Nat
  mbxBase : Nat
  mbxSize : Nat
  mbxHead : Nat
  mbxTail : Nat
  pinBase : Nat
  pinSize : Nat
  windows : Memory
  releasing : List Nat
  framed : NMap Place
  port : Memory
  submitted : List (List Byte)
  resumeQ : List Nat
  nextGrid : Nat
  deriving DecidableEq, Repr, Inhabited

/-- A partition after reset (R339, R407). -/
def Partition.blank : Partition :=
  ⟨0, 0, 0, none, 0, [], 0, 0, 0, 0, 0, 0, 0, [], false, 0, 0, 0, 0, 0, 0, 0, [], [], [], [], [], [], 1⟩

/-! ## Messages in flight -/

/-- What an access does at its place: reads, writes, masked plane-word writes, atomics, REL's release write (R239, R243,
R247, R252). -/
inductive Acc where
  | read
  | write (bytes : List Byte)
  | plst (mask bits : DWord)
  | atom (op : AtomOp) (wide : Bool) (x y : DWord)
  | relBump
  deriving DecidableEq, Repr, Inhabited

/-- Where the value an access returns goes: nowhere, a lane of a register (pair, quad half) extended by its size code, a
scalar register, one plane's bit of a PLLD element. -/
inductive Dest where
  | none
  | lane (reg ln size : Nat)
  | scalar (reg size : Nat)
  | plane (reg ln p e : Nat)
  deriving DecidableEq, Repr, Inhabited

/-- One access on its way (R115: one element each; log entry 6). `va` is its virtual address, `place` and `ten` its
translation, `tries` its bounces, `instr` the name of its instruction, `lanes` that one's active lanes and `restart` its restart address
(R10, R347), `fences` the release fences of its group before it (R134). -/
structure MemReq where
  team : Nat
  group : Nat
  core : Nat
  part : Nat
  aspace : Nat
  user : Bool
  va : Nat
  size : Nat
  acc : Acc
  dest : Dest
  src : Source
  place : Place
  ten : Nat
  rep : Nat
  pk : Bool
  far : Bool
  tries : Nat
  restart : Nat
  instr : Nat
  lanes : Mask
  fences : Fences
  deriving DecidableEq, Repr, Inhabited

/-- A delivery to another core's drawer or desk (R105, R269, R279), tagged with its source and phase, with the active lanes of its
instruction (R347), with the release fences of its group before it (R134), and with the team-instance tag of its target, which a delivery to
a desk carries (R350). -/
structure Delivery where
  team : Nat
  group : Nat
  grid : Nat
  src : Nat
  dst : Nat
  off : Nat
  bytes : List Byte
  phase : Nat
  gang : Bool
  cmd : Option (Nat × Nat)
  from_ : Source
  counted : Bool
  lanes : Mask
  fences : Fences
  tag : Option Word
  deriving DecidableEq, Repr, Inhabited

/-- A message or a result in flight. -/
inductive Msg where
  | mem (r : MemReq)
  | bounced (r : MemReq)
  | parked (r : MemReq) (mv : Nat)
  | sector (r : MemReq) (sec : Nat)
  | result (r : MemReq) (bytes : List Byte)
  | lock (commit core frame : Nat)
  | lockAck (commit core frame : Nat)
  | update (commit core frame : Nat)
  | updateAck (commit core frame : Nat)
  | commit (r : MemReq) (off : Nat) (waiting : List (Nat × Nat)) (locked : Bool)
  | close (src : Source) (pt : CountPoint) (n rel : Nat)
  | answer (src : Source) (pt : CountPoint) (rel : Nat)
  | delivery (d : Delivery) (refused : Bool)
  | rload (team group core : Nat) (addr size : Nat) (dest : Dest) (lanes : Mask) (fences : Fences)
  | gone (team group addr : Nat) (lanes : Mask)
  | xclose (grid src dst phase n : Nat)
  | recall (core aspace vpage : Nat) (loc : Place)
  | placeFar (part aspace vpage : Nat)
  | peerAck (team group name port va : Nat) (lanes : Mask)
  | zread (team group rel : Nat)
  deriving DecidableEq, Repr, Inhabited

/-- A page move in progress (R366): what was read of the leaf (`pk` whether its home is packed), its stage, sectors on their way with their dirty bits, how
many resent sectors are still to land, whether the notice has landed (R403), and whether a PLACE `.home` has asked meanwhile for a move home
to follow (R249). -/
structure Move where
  part : Nat
  aspace : Nat
  vpage : Nat
  src : Place
  dst : Place
  srcTen : Nat
  dstTen : Nat
  hclu : Nat
  hpage : Nat
  pk : Bool
  team : Nat
  rewritten : Bool
  sealed : Bool
  sectors : List (Nat × Bool × Bool × Memory)
  resent : Nat
  notice : Bool
  thenHome : Bool
  deriving DecidableEq, Repr, Inhabited

/-- A suspended team's image that the device keeps beside its bytes in memory (R343 to R346): where it lies, the team, the
next image of its gang, its latest fault record, whether and since when it waits to be restored, whether the parent-spill rule
saved it (R391), its open and launched bins with the cycles that their timers have run (R393), the deliveries of it that a
drawer has refused (R395), and its device-state section as the device wrote it (R346; log entry 16). -/
structure Saved where
  image : Nat
  team : Team
  gangNext : Nat
  record : List Byte
  resumed : Bool
  readyAt : Nat
  spilled : Bool
  bins : List (Nat × Bin)
  launchedBins : List (Nat × Bin)
  msgs : List Msg
  dev : Memory
  deriving DecidableEq, Repr, Inhabited

/-! ## The management block, peers, host and power -/

/-- One column's sensors (R423): the two readings, failed bits, unchanged-sample counts, and the column's reading. -/
structure Sensor where
  s0 : Int
  s1 : Int
  f0 : Bool
  f1 : Bool
  n0 : Nat
  n1 : Nat
  reading : Int
  deriving DecidableEq, Repr, Inhabited

def Sensor.blank : Sensor := ⟨0, 0, false, false, 0, 0, 0⟩

/-- A group of 128 lanes of a vertical bus with 4 spares (R428): lanes with errors in the last test, lanes that have failed and are
to move to a spare, repaired lanes with the power-on hour, and lanes that failed without a free spare and stay in use. -/
structure LaneGroup where
  lastBad : List Nat
  failing : List Nat
  repaired : List (Nat × Nat)
  worn : List Nat
  deriving DecidableEq, Repr, Inhabited

/-- A Gemar port (R413, R415). -/
structure Gemar where
  up : Bool
  lanes : Nat
  serial : DWord
  retries : Nat
  deriving DecidableEq, Repr, Inhabited

/-- The SPDM responder's answers (R421): their contents, not their message bytes, which the spec leaves to DMTF SPDM 1.2. -/
inductive Spdm where
  | none
  | version (major minor : Nat)
  | capabilities
  | algorithms (rsaPss3072 sha256 : Bool)
  | digests (slot0 : List Byte)
  | certificate (part : List Byte)
  | challengeAuth (signature : List Byte)
  | measurements (blocks : List (Nat × List Byte)) (signature : List Byte)
  | error
  deriving DecidableEq, Repr, Inhabited

/-- The management block (R407) with firmware store, fuses, sensors and lifetime record (R418 to R428). `stuck`: a boot stage has failed
without recovery (R418). `latest` gives the slot of the image stored last, by kind (R420). -/
structure Mgmt where
  stage : Nat
  stuck : Bool
  ready : Bool
  recovery : Bool
  failCode : Nat
  layout : Nat
  layoutRefused : Bool
  events : Nat
  lrCmd : DWord
  fwBusy : Bool
  fwCmd : Nat
  fwPending : Nat
  fwResult : Nat
  staging : Memory
  slots : List (Nat × Nat × List Byte)
  latest : List (Nat × Nat)
  runningSlots : List (Nat × Nat)
  runningSvn : Nat
  measurements : List (Nat × List Byte)
  minSvn : Nat
  sensors : NMap Sensor
  buses : NMap (NMap LaneGroup)
  lifetime : List (Nat × Nat × Nat × Nat)
  flushed : List (Nat × Nat × Nat × Nat)
  spdm : Spdm
  tripped : Bool
  deriving DecidableEq, Repr, Inhabited

/-- The management block after reset (R407): every register 0; firmware and fuses are factory data (log entry 8). -/
def Mgmt.blank : Mgmt :=
  ⟨0, false, false, false, 0, 0, false, 0, 0, false, 0, 0, 0, [],
   [(1, 0, Config.factoryImage 1 0), (1, 1, Config.factoryImage 1 1), (2, 0, Config.factoryImage 2 0),
    (2, 1, Config.factoryImage 2 1), (3, 0, Config.factoryImage 3 0), (3, 1, Config.factoryImage 3 1)],
   [], [], 0, [], Config.minSvn, [], [], [], [], .none, false⟩

/-- What moves next (log entry 1): a named event, the issue of a group's next instruction, the passage of cycles, a decision of a
partition's dispatcher, or an error in a storage unit of those that R425 numbers, corrected, or not corrected in an access of a group
(`victim`; log entry 54). -/
inductive Agenda where
  | event (e : Instr)
  | issue (team group : Nat)
  | tick (n : Nat)
  | dispatch (part : Nat)
  | upset (unit : Nat) (victim : Option (Nat × Nat))
  deriving DecidableEq, Repr

/-- The whole machine. `hostMem` and `peerMem` are what lies behind the port die; `peerIn` gives the ports whose far device takes requests
in one range only, its base and its end (R416; log entry 68). -/
structure State where
  power : Bool
  dram : Memory
  clusters : NMap Cluster
  cores : NMap Core
  parts : NMap Partition
  teams : NMap Team
  grids : NMap Grid
  saved : List Saved
  flight : NMap Msg
  moves : NMap Move
  counts : List (CountPoint × Source × Nat)
  colls : List Coll
  mgmt : Mgmt
  gemar : NMap Gemar
  hostMem : Memory
  peerMem : NMap Memory
  peerIn : NMap (Nat × Nat)
  hostRead : List Byte
  peerAnswer : Option (List Byte)
  msix : List Nat
  agenda : List Agenda
  holds : List Bool
  cur : Nat × Nat
  free : Nat
  nextId : Nat
  deriving DecidableEq, Repr

/-- The machine right after power-on reset: nothing resident, the management controller about to boot (R418), every register
at the value R339, R363 and R407 give (other values: log entry 3). -/
def State.reset : State where
  power := true
  dram := []
  clusters := [(0, .blank), (1, .blank), (2, .blank), (3, .blank)]
  cores := []
  parts := [(0, .blank), (1, .blank), (2, .blank), (3, .blank)]
  teams := []
  grids := []
  saved := []
  flight := []
  moves := []
  counts := []
  colls := []
  mgmt := .blank
  gemar := (List.range 12).map (fun n => (n, ⟨false, 8, 0, 0⟩))
  hostMem := []
  peerMem := []
  peerIn := Config.peerRanges
  hostRead := []
  peerAnswer := none
  msix := []
  agenda := []
  holds := []
  cur := (0, 0)
  free := 0
  nextId := 1

end Sys2Proof.Machine
end

