-- ==== Sys2Proof/Machine/Ops.lean ====
section
/-! DEFINITION. The named operations over the state that every meaning uses: reading and changing cores, clusters, teams and
groups; scalar, vector, mask and latch registers; free values; messages; timelines; taking a fault. -/

namespace Sys2Proof.Machine

/-! ## Finding and changing parts of the state -/

def coreOf (s : State) (c : Nat) : Core := nmGetD s.cores c .blank
def setCore (s : State) (c : Nat) (x : Core) : State := { s with cores := nmPut c x s.cores }
def modCore (s : State) (c : Nat) (f : Core → Core) : State := setCore s c (f (coreOf s c))

def clusterOf (s : State) (c : Nat) : Cluster := nmGetD s.clusters c .blank
def setCluster (s : State) (c : Nat) (x : Cluster) : State := { s with clusters := nmPut c x s.clusters }
def modCluster (s : State) (c : Nat) (f : Cluster → Cluster) : State := setCluster s c (f (clusterOf s c))

def partOf (s : State) (p : Nat) : Partition := nmGetD s.parts p .blank
def setPart (s : State) (p : Nat) (x : Partition) : State := { s with parts := nmPut p x s.parts }
def modPart (s : State) (p : Nat) (f : Partition → Partition) : State := setPart s p (f (partOf s p))

def teamOf (s : State) (t : Nat) : Option Team := nmGet t s.teams
def setTeam (s : State) (t : Nat) (x : Team) : State := { s with teams := nmPut t x s.teams }
def modTeam (s : State) (t : Nat) (f : Team → Team) : State := { s with teams := nmModify t f s.teams }

def groupOf (s : State) (t g : Nat) : Option Group := (teamOf s t).bind (fun x => nmGet g x.groups)
def Team.setGroup (t : Team) (g : Nat) (x : Group) : Team := { t with groups := nmPut g x t.groups }
def Team.modGroup (t : Team) (g : Nat) (f : Group → Group) : Team := { t with groups := nmModify g f t.groups }
def modGroup (s : State) (t g : Nat) (f : Group → Group) : State := modTeam s t (fun x => x.modGroup g f)

/-- The cluster a core is in. -/
def clusterOfCore (c : Nat) : Nat := c / Config.coresPerCluster
/-- The core's number in its cluster (R15). -/
def coreInCluster (c : Nat) : Nat := c % Config.coresPerCluster
/-- The cycle counter of a core's cluster (R61, R429). -/
def cycleAt (s : State) (core : Nat) : Nat := (clusterOf s (clusterOfCore core)).cycle

/-- The clusters of each partition under a layout code (R337). -/
def partClusters (layout p : Nat) : List Nat :=
  match layout with
  | 0 => if p = 0 then [0, 1, 2, 3] else []
  | 1 => if p = 0 then [0, 1] else if p = 1 then [2, 3] else []
  | _ => if p < 4 then [p] else []
/-- The partition a cluster belongs to (R337). -/
def partOfCluster (layout c : Nat) : Nat :=
  match layout with
  | 0 => 0
  | 1 => c / 2
  | _ => c
def State.layout (s : State) : Nat := s.mgmt.layout
def inPartition (s : State) (p cluster : Nat) : Bool := (partClusters s.layout p).contains cluster
/-- The cores of a partition in ascending order. -/
def coresOfPart (s : State) (p : Nat) : List Nat :=
  (partClusters s.layout p).flatMap (fun c => (List.range Config.coresPerCluster).map (fun i => c * Config.coresPerCluster + i))

/-! ## Mesh positions (R15 to R17, R144) -/

def meshX (core : Nat) : Nat := core % 16
def meshY (core : Nat) : Nat := core / 16
/-- A node has a full router when x + y is even (R16). -/
def fullRouter (core : Nat) : Bool := (meshX core + meshY core) % 2 == 0
/-- The core whose node hosts slice s (R17). -/
def sliceCore (sl : Nat) : Nat := if sl / 8 % 2 = 0 then 2 * sl + 1 else 2 * sl
/-- The nodes from one column to another in a row, the first left out. -/
def rowTo (y : Nat) (x x' : Nat) : List Nat :=
  if x ≤ x' then (List.range (x' - x)).map (fun i => 16 * y + (x + i + 1))
  else (List.range (x - x')).map (fun i => 16 * y + (x - i - 1))
def colTo (x : Nat) (y y' : Nat) : List Nat :=
  if y ≤ y' then (List.range (y' - y)).map (fun i => 16 * (y + i + 1) + x)
  else (List.range (y - y')).map (fun i => 16 * (y - i - 1) + x)
/-- The column in which a packet turns (R144). -/
def turnColumn (xs ys xd yd : Nat) : Nat :=
  if ys = yd ∨ xs = xd then xd
  else if (xd + ys) % 2 = 0 then xd
  else if xs < xd then xd - 1 else xd + 1
/-- The nodes a packet visits after its source (R144). It changes only timing (R143). -/
def meshRoute (src dst : Nat) : List Nat :=
  let xs := meshX src
  let ys := meshY src
  let xd := meshX dst
  let yd := meshY dst
  if ys = yd then rowTo ys xs xd
  else if xs = xd then colTo xs ys yd
  else
    let xt := turnColumn xs ys xd yd
    rowTo ys xs xt ++ colTo xt ys yd ++ (if xt = xd then [] else rowTo yd xt xd)

/-- Predicates of a core end without a result; the head of the queue of stage 2 has started (R334). -/
def Core.dropPreds (c : Core) (gone : PredOp → Bool) : Core :=
  let out (k : Nat) : Bool := c.preds.any (fun p => p.id = k && gone p)
  { c with
    preds := c.preds.filter (fun p => !gone p), predQueue := c.predQueue.filter (fun k => !out k)
    predStarted := if out (c.predQueue.headD 0) then max c.predStarted (c.predQueue.headD 0) else c.predStarted }

/-! ## Free values and names -/

/-- Draw one undefined 32-bit value (log entry 4). -/
def drawWord (s : State) : Word × State := (Config.freeWord s.free, { s with free := s.free + 1 })
/-- `n` undefined bytes (log entry 4). -/
def drawBytes (s : State) (n : Nat) : List Byte × State :=
  ((List.range n).map (fun i => Config.freeByte (s.free + i)), { s with free := s.free + n })
/-- A name not used before. -/
def newId (s : State) : Nat × State := (s.nextId, { s with nextId := s.nextId + 1 })
/-- Whether the next message stays in flight (log entry 1). -/
def popHold (s : State) : Bool × State :=
  match s.holds with
  | [] => (false, s)
  | h :: hs => (h, { s with holds := hs })
/-- Put a message in flight. -/
def post (s : State) (m : Msg) : State :=
  let (id, s) := newId s
  { s with flight := nmPut id m s.flight }
/-- Put a message in flight under a name it has already, in the place in the order of its group that this name keeps (R130). -/
def putMsg (s : State) (id : Nat) (m : Msg) : State := { s with flight := nmPut id m s.flight }
def dropMsg (s : State) (id : Nat) : State := { s with flight := nmDel id s.flight }

/-- Add one to a lifetime count (R425), which saturates. -/
def lrBump (s : State) (code elem field cap : Nat) : State :=
  let old := (s.mgmt.lifetime.findSome? (fun x => if x.1 = code ∧ x.2.1 = elem ∧ x.2.2.1 = field then some x.2.2.2 else none)).getD 0
  let rest := s.mgmt.lifetime.filter (fun x => ¬(x.1 = code ∧ x.2.1 = elem ∧ x.2.2.1 = field))
  { s with mgmt := { s.mgmt with lifetime := (code, elem, field, min cap (old + 1)) :: rest } }

/-! ## Scalar, mask and latch registers -/

/-- A scalar register; s0 reads zero (R55). -/
def Group.sreg (g : Group) (n : Nat) : DWord := if n = 0 then 0 else g.sregs[n]?.getD 0
/-- Write a scalar register; a write to s0 is discarded (R55). -/
def Group.setS (g : Group) (n : Nat) (v : DWord) : Group := if n = 0 then g else { g with sregs := g.sregs.setIfInBounds n v }
def Group.mask (g : Group) (n : Nat) : Mask := g.masks[n]?.getD 0
def Group.setMask (g : Group) (n : Nat) (v : Mask) : Group := { g with masks := g.masks.setIfInBounds n v }
def Group.m0 (g : Group) : Mask := g.mask 0
/-- The lanes of an instruction: m0 and, when the guard is not 0, the guard mask (R44). -/
def Group.lanesUnder (g : Group) (guard : Nat) : Mask := if guard = 0 then g.m0 else g.m0 &&& g.mask guard
/-- latch(x): x becomes k0, the others move up, k5 is lost (R59). -/
def Group.latch (g : Group) (x : Lanes) : Group := { g with latches := (x :: g.latches).take 6 }
def Group.latchAt (g : Group) (k : Nat) : Lanes := g.latches.getD k zeroLanes
/-- After a yield point every latch holds an undefined value (R41). -/
def Group.scramble (g : Group) (seed : Nat) : Group :=
  { g with latches := (List.range 6).map (fun k => ofLanes (fun i => Config.freeWord (seed + 32 * k + i))) }
/-- A group passes a yield point (R41). -/
def passYield (s : State) (t g : Nat) : State :=
  modGroup { s with free := s.free + 192 } t g (fun x => x.scramble s.free)

/-! ## Vector registers in the team's register allocation (R56, R57, R60, R68) -/

def Team.budget (t : Team) (g : Group) : Nat := if g.producer then t.header.bpro else t.header.bcon
/-- The stride S in rows of 128 bytes (R68). -/
def Header.stride (h : Header) : Nat := max h.bpro h.bcon
def pairFirst (e : Nat) : Nat := bitsOf e 4 0
def pairSecond (e : Nat) : Nat := bitsOf e 9 5
def pairLen (e : Nat) : Nat := bitsOf e 12 10 + 1
/-- The pairing a launched group belongs to, with its entry (R46). -/
def Team.pairing (t : Team) (g : Group) : Option (Nat × Nat) :=
  if g.launched then
    (List.range t.header.npair).findSome? (fun p =>
      let e := t.header.pairs.getD p 0
      if pairFirst e = g.index ∨ pairSecond e = g.index then some (p, e) else none)
  else none
/-- The shared register that a name reaches: pairing and index (R46, R60). -/
def Team.shared (t : Team) (g : Group) (n : Nat) : Option (Nat × Nat) :=
  match t.pairing g with
  | some (p, e) => if 48 ≤ n ∧ n < 48 + pairLen e then some (p, n - 48) else none
  | none => none
/-- The row of 128 bytes that holds a named register, or nothing when the name is outside the budget (R57, R68). -/
def Team.row (t : Team) (g : Group) (n : Nat) : Option Nat :=
  match t.shared g n with
  | some (p, j) => some (t.header.gmax * t.header.stride + 8 * p + j)
  | none => if n < t.budget g then some (g.index * t.header.stride + n) else none
def Team.vreg (t : Team) (g : Group) (n : Nat) : Lanes :=
  match t.row g n with
  | some r => nmGetD t.regs r zeroLanes
  | none => zeroLanes
/-- Write a whole register; a name outside the budget is written nowhere (R57: the instruction has faulted before). -/
def Team.setV (t : Team) (g : Group) (n : Nat) (v : Lanes) : Team :=
  match t.row g n with
  | some r => { t with regs := nmPut r v t.regs }
  | none => t
/-- Write the lanes of `m`, keeping the others (R208). -/
def Team.setVLanes (t : Team) (g : Group) (n : Nat) (m : Mask) (v : Lanes) : Team := t.setV g n (blend m v (t.vreg g n))
/-- The bytes of the register allocation (R68). -/
def Header.allocBytes (h : Header) : Nat := h.gmax * h.stride * 128 + 1024 * h.npair
/-- The register window's byte at an offset, as R69 shows it; `none` where the contents are undefined (an unused image). -/
def Team.windowByte (t : Team) (x : Nat) : Option Byte :=
  let row := x / 128
  let img := row / t.header.stride
  if row < t.header.gmax * t.header.stride then
    match nmGet img t.groups with
    | none => none
    | some g =>
      if row % t.header.stride < t.budget g then some (regByte (nmGetD t.regs row zeroLanes) (x % 128)) else some 0
  else some (regByte (nmGetD t.regs row zeroLanes) (x % 128))
/-- Store one byte through the register window: bytes beyond the group's budget are discarded (R69). -/
def Team.setWindowByte (t : Team) (x : Nat) (b : Byte) : Team :=
  let row := x / 128
  let keep :=
    if row < t.header.gmax * t.header.stride then
      match nmGet (row / t.header.stride) t.groups with
      | none => true
      | some g => row % t.header.stride < t.budget g
    else true
  if keep then { t with regs := nmPut row (setRegByte (nmGetD t.regs row zeroLanes) (x % 128) b) t.regs } else t

/-! ## The desk and its presence (R102, R104, R106) -/

/-- Some command's destination covers the line and its bytes there have not all landed (R106). `absent` lists (line, timeline
or drain mark, number). -/
def Team.lineAbsent (t : Team) (line : Nat) : Bool := t.absent.any (fun x => x.1 = line)
/-- Every desk line that `n` bytes from `off` touch. -/
def linesOf (off n : Nat) : List Nat :=
  if n = 0 then [] else (List.range ((off + n - 1) / 128 + 1 - off / 128)).map (fun i => off / 128 + i)
def Team.present (t : Team) (off n : Nat) : Bool := (linesOf off n).all (fun l => !t.lineAbsent l)

/-! ## Timelines (R48, R49, R256) -/

def Team.tl (t : Team) (n : Nat) : Timeline := t.tls[n]?.getD ⟨0, [], 0⟩
/-- The next number on a timeline (R9, R48). -/
def Team.tlnext (t : Team) (n : Nat) : Nat × Team :=
  let x := t.tl n
  (x.handed + 1, { t with tls := t.tls.setIfInBounds n { x with handed := x.handed + 1 } })
/-- Move the value over every completed number that follows it. -/
def Timeline.advance (x : Timeline) : Nat → Timeline
  | 0 => x
  | k + 1 => if x.early.contains (x.value + 1)
      then Timeline.advance { x with value := x.value + 1, early := x.early.filter (· ≠ x.value + 1) } k else x
/-- Number `k` on a timeline has completed (R48). -/
def Timeline.complete (x : Timeline) (k : Nat) : Timeline :=
  ({ x with early := k :: x.early }).advance (x.early.length + 1)
def Team.tlComplete (t : Team) (n k : Nat) : Team := { t with tls := t.tls.setIfInBounds n ((t.tl n).complete k) }

/-! ## Counting points (R140, R142) -/

/-- Add to a count kept for a key. -/
def bump {α : Type} [DecidableEq α] (k : α) (n : Nat) : List (α × Nat) → List (α × Nat)
  | [] => [(k, n)]
  | (k', m) :: l => if k = k' then (k, m + n) :: l else (k', m) :: bump k n l
def lookup {α : Type} [DecidableEq α] (k : α) (l : List (α × Nat)) : Nat :=
  (l.findSome? (fun p => if p.1 = k then some p.2 else none)).getD 0

/-- The count of performed writes that a counting point keeps for a source (R140). -/
def countAt (s : State) (pt : CountPoint) (src : Source) : Nat :=
  (s.counts.findSome? (fun p => if p.1 = pt ∧ p.2.1 = src then some p.2.2 else none)).getD 0
/-- Count one performed write (R142). -/
def countWrite (s : State) (pt : CountPoint) (src : Source) : State :=
  { s with counts := (pt, src, countAt s pt src + 1) :: s.counts.filter (fun p => ¬(p.1 = pt ∧ p.2.1 = src)) }
/-- Clear an answered count (R141 step 3). -/
def clearCount (s : State) (pt : CountPoint) (src : Source) : State :=
  { s with counts := s.counts.filter (fun p => ¬(p.1 = pt ∧ p.2.1 = src)) }
/-- A group's sends to a counting point in a phase. -/
def Group.sentTo (g : Group) (pt : CountPoint) (ph : Nat) : Nat :=
  (g.sent.findSome? (fun p => if p.1 = pt ∧ p.2.1 = ph then some p.2.2 else none)).getD 0
def Group.setSent (g : Group) (pt : CountPoint) (ph n : Nat) : Group :=
  let rest := g.sent.filter (fun p => ¬(p.1 = pt ∧ p.2.1 = ph))
  { g with sent := if n = 0 then rest else (pt, ph, n) :: rest }
/-- A command's sends (R142). -/
def Team.modCmd (t : Team) (tl num : Nat) (f : Cmd → Cmd) : Team :=
  { t with cmds := t.cmds.map (fun c => if c.tl = tl ∧ c.num = num then f c else c) }
def Team.cmd (t : Team) (tl num : Nat) : Option Cmd := t.cmds.find? (fun c => c.tl = tl ∧ c.num = num)
/-- Record that a source has sent a write to a counting point (R140), or that a bounce took it back (R142). -/
def noteSent (s : State) (src : Source) (pt : CountPoint) (back : Bool) : State :=
  match src with
  | .group t g ph => modGroup s t g (fun x =>
      x.setSent pt ph (if back then x.sentTo pt ph - 1 else x.sentTo pt ph + 1))
  | .cmd t tl num => modTeam s t (fun x => x.modCmd tl num (fun c =>
      { c with sent := if back then c.sent.map (fun p => if p.1 = pt then (p.1, p.2 - 1) else p) else bump pt 1 c.sent }))

/-! ## Taking a fault (R8, R179, R393, R396) -/

/-- The team meets a fault (R396): of those met before it has stopped, the one of the lowest group index is reported; another that no
instruction raises again is kept for after the restore, one of each group and of each engine command. Of two that a group raises again the
older instruction's is reported: the younger has had no effect (R179). -/
def Team.meet (t : Team) (f : FaultInfo) : Team :=
  let same (x y : FaultInfo) : Bool := x.group = y.group && !x.engine && !y.engine
  let keep (x : FaultInfo) : List FaultInfo := if x.again.isNone && !t.owed.any (same x) then t.owed ++ [x] else t.owed
  match t.pending with
  | none => { t with stopping := true, pending := some f }
  | some o =>
    if f.group < o.group then { t with stopping := true, pending := some f, owed := keep o }
    else if !same o f then { t with stopping := true, owed := keep f }
    else if f.again.isNone then { t with stopping := true, owed := if o.again.isNone then t.owed else keep f }
    else if o.again.isNone then { t with stopping := true, pending := some { o with restart := f.restart } }
    else { t with stopping := true, pending := some (if f.order < o.order then f else o) }

/-- The wait of a group whose arrival at a barrier has been counted outlives a fault or a hint, so that it does not arrive twice (R263,
R398). -/
def keepArrival (w : Option Wait) : Option Wait :=
  match w with
  | some (.barrier b ph) => some (.barrier b ph)
  | some (.bararr b ph) => some (.bararr b ph)
  | _ => none

/-- A group that no longer waits in a QPUSH or a QPOP is held on no queue (R266, R267). -/
def Team.leaveQueues (t : Team) (gid : Nat) : Team :=
  { t with queues := t.queues.map (fun q => (q.1, { q.2 with
      pushers := q.2.pushers.filter (· ≠ gid), poppers := q.2.poppers.filter (· ≠ gid) })) }

/-- A group waits for no retry of a read that is performed at once, and asks for no sector (R117, R369). -/
def Group.dropTries (g : Group) : Group := { g with fetchTries := 0, readTries := 0, registered := none, sectors := [] }

/-- Take a fault: the group stops at its restart point, is held on no queue, its hints are dropped (R185), and the whole team stops
issuing; the swap-out follows as its own step (SWAP_OUT, R393). A group that has stopped at a fault stays there, unless an older instruction
raises this one (R179). -/
def takeFault (s : State) (t g : Nat) (f : FaultInfo) : State :=
  modTeam s t (fun x =>
    let stays (y : Group) : Bool := y.fault.any (fun o => f.again.isNone || o.order ≤ f.order)
    let x := if (nmGet g x.groups).any stays then x else x.leaveQueues g
    (x.modGroup g (fun y => if stays y then y
      else { y.dropTries with pc := f.restart, hints := .none, fault := some f, wait := keepArrival y.wait })).meet f)

/-- The group that issued the command has not ended: another may have its index since (R206, R347). -/
def Cmd.live (c : Cmd) : Bool := c.issuer = c.group
/-- An engine command's fault (R274, R280, R430): it names the issuing group and the command. `again`: the command restarts, and so raises
it again. -/
def takeEngineFault (s : State) (t : Nat) (c : Cmd) (code addr : Nat) (again : Bool) : State :=
  modTeam s t (fun x =>
    let restart := match (if c.live then nmGet c.group x.groups else none) with
      | some g => g.hints.first.getD g.pc
      | none => 0
    x.meet ⟨code, c.group, restart, addr, 0, 0, c.tl, true, c.num, if again then some restart else none, s.nextId, c.live⟩)

/-! ## Going back to an instruction (R179, R369; log entry 11) -/

/-- A row of a group's own registers (R68). -/
def Team.ownRow (t : Team) (g : Group) (r : Nat) : Bool :=
  g.index * t.header.stride ≤ r && r < g.index * t.header.stride + t.budget g
/-- The point before an instruction of a group. -/
def Team.markOf (t : Team) (gid instr : Nat) (lanes : Mask) (g : Group) (emptied : List (Nat × Nat)) : Mark :=
  ⟨gid, instr, lanes, g, t.regs.filter (fun p => t.ownRow g p.1), emptied⟩
/-- The team with a group and its own registers as they were at a point. -/
def Team.back (t : Team) (m : Mark) : Team :=
  { t with
    groups := nmPut m.group m.was t.groups
    regs := m.rows.foldl (fun l p => nmPut p.1 p.2 l) (t.regs.filter (fun p => !t.ownRow m.was p.1)) }
/-- What an instruction of a group does late, by its name, belongs to every point behind it too. -/
def Team.late (t : Team) (gid instr : Nat) (f : Team → Team) : Team :=
  if t.marks.isEmpty then f t
  else
    { f t with marks := t.marks.map (fun m =>
        let u := f (t.back m)
        match nmGet gid u.groups with
        | some g => if m.group = gid && instr < m.instr then { m with was := g, rows := u.regs.filter (fun p => u.ownRow g p.1) } else m
        | none => m) }

/-! ## The current group -/

def curTeam (s : State) : Option Team := teamOf s s.cur.1
def curGroup (s : State) : Option Group := groupOf s s.cur.1 s.cur.2
/-- Change the current group. -/
def modCur (s : State) (f : Group → Group) : State := modGroup s s.cur.1 s.cur.2 f
def modCurTeam (s : State) (f : Team → Team) : State := modTeam s s.cur.1 f

/-- What an instruction's own effect comes to: done, a fault with its code, address, lanes, aux and scode, one that has left something in the
management block of a state (an event of R411, a count of R425), or a hold. A hold may keep a first half that has already taken effect (an
arrival, a closed phase). -/
inductive Eff where
  | done (s : State)
  | refused (s : State) (code addr : Nat) (lanes : Mask)
  | fault (code addr : Nat) (lanes : Mask) (aux scode : Nat)
  | hold (w : Wait) (s : State)

/-- A fault without address, with the instruction's active lanes in the record (R347). -/
def Eff.bad (code : Nat) (lanes : Mask) : Eff := .fault code 0 lanes 0 0

end Sys2Proof.Machine
end

