-- ==== Sys2Proof/Machine/Operands.lean ====
section
/-! DEFINITION. Operand forms: which registers an instruction names and which hints it accepts (R173 to R175, R183 to R191,
R209, R235, R238, R259, R290, R292), the values of its operands, and what an attached hint changes in the checks. -/

namespace Sys2Proof.Machine

/-- The fields of HMOD as bits of its word (R188). -/
def M.peek : Nat := 0x8000
def M.far : Nat := 0x4000
def M.w64 : Nat := 0x2000
def M.sp : Nat := 0x1000
def M.ord : Nat := 0x0F80
def M.sat : Nat := 0x0040
def M.rnd : Nat := 0x0038
def M.tie : Nat := 0x0006
/-- xd, xe and sos: the fields of the predicates. -/
def M.pred : Nat := 0xFF0000

/-- What an instruction names: vector operand codes it reads one register each, further registers it reads, registers it
writes, scalar registers read and written, how many HIMMs it accepts besides a code 63, the HMOD bits it accepts, and
whether its vector or scalar result is long-latency (R40, R239). -/
structure Uses where
  codes : List Nat
  reads : List Nat
  writes : List Nat
  sreads : List Nat
  swrites : List Nat
  himm : Nat
  hmod : Nat
  long : Bool
  deriving DecidableEq, Repr, Inhabited

def Uses.none : Uses := ⟨[], [], [], [], [], 0, 0, false⟩

/-- A destination d that is written unless nw is 1 (R175). -/
def vdst (nw : BitVec 1) (d : VCode) : List Nat := if nw = 1 then [] else [d.toNat]
def runOf (a : VCode) (n : Nat) : List Nat := (List.range n).map (fun i => a.toNat + i)
def pairOf (a : VCode) : List Nat := runOf a 2
def quadOf (a : VCode) : List Nat := runOf a 4
def pdst (nw : BitVec 1) (d : VCode) : List Nat := if nw = 1 then [] else pairOf d
/-- The registers of a load or store operand by its size (R240). -/
def regsOf (size : BitVec 3) (d : VCode) : List Nat :=
  if size = 5 then pairOf d else if size = 6 then quadOf d else [d.toNat]
/-- The registers ATOMX reads: operand 2 only for `.cas` and `.bfadd` (R246). -/
def atomxReads (w64 : Bool) (op : BitVec 3) (data : VCode) : List Nat :=
  let two := op = 0 ∨ op = 2
  if w64 then (if two then quadOf data else pairOf data) else (if two then pairOf data else [data.toNat])
/-- Whether a, and d, of DCVT are pairs (R233). -/
def dcvtPairA (code : BitVec 6) : Bool := code = 1 || 4 ≤ code
def dcvtPairD (code : BitVec 6) : Bool := code = 0 || code = 2 || code = 3 || code = 6 || code = 7

/-- The operands of an instruction, with the width bit and the stage-report register that an attached HMOD gives it. -/
def Instr.uses (w64 : Bool) (xd : List Nat) (i : Instr) : Uses :=
  match i with
  | .sadd d a b _ _ => ⟨[], [], [], [a.toNat, b.toNat], [d.toNat], 0, 0, false⟩
  | .ssub d a b _ _ => ⟨[], [], [], [a.toNat, b.toNat], [d.toNat], 0, 0, false⟩
  | .smul d a b _ _ => ⟨[], [], [], [a.toNat, b.toNat], [d.toNat], 0, 0, false⟩
  | .smulh d a b _ _ => ⟨[], [], [], [a.toNat, b.toNat], [d.toNat], 0, 0, false⟩
  | .sdiv d a b _ _ => ⟨[], [], [], [a.toNat, b.toNat], [d.toNat], 0, 0, false⟩
  | .srem d a b _ _ => ⟨[], [], [], [a.toNat, b.toNat], [d.toNat], 0, 0, false⟩
  | .sand d a b _ _ => ⟨[], [], [], [a.toNat, b.toNat], [d.toNat], 0, 0, false⟩
  | .sor d a b _ _ => ⟨[], [], [], [a.toNat, b.toNat], [d.toNat], 0, 0, false⟩
  | .sxor d a b _ _ => ⟨[], [], [], [a.toNat, b.toNat], [d.toNat], 0, 0, false⟩
  | .sshl d a b _ _ => ⟨[], [], [], [a.toNat, b.toNat], [d.toNat], 0, 0, false⟩
  | .sshr d a b _ _ => ⟨[], [], [], [a.toNat, b.toNat], [d.toNat], 0, 0, false⟩
  | .smin d a b _ _ => ⟨[], [], [], [a.toNat, b.toNat], [d.toNat], 0, 0, false⟩
  | .smax d a b _ _ => ⟨[], [], [], [a.toNat, b.toNat], [d.toNat], 0, 0, false⟩
  | .scmp d a b _ _ _ => ⟨[], [], [], [a.toNat, b.toNat], [d.toNat], 0, 0, false⟩
  | .ssel d a b c => ⟨[], [], [], [a.toNat, b.toNat, c.toNat], [d.toNat], 0, 0, false⟩
  | .sbit d a _ _ => ⟨[], [], [], [a.toNat], [d.toNat], 0, 0, false⟩
  | .sget d _ => ⟨[], [], [], [], [d.toNat], 0, 0, false⟩
  | .sset a _ => ⟨[], [], [], [a.toNat], [], 0, 0, false⟩
  | .mget d _ => ⟨[], [], [], [], [d.toNat], 0, 0, false⟩
  | .mput a _ => ⟨[], [], [], [a.toNat], [], 0, 0, false⟩
  | .sext d a _ _ => ⟨[], [], [], [a.toNat], [d.toNat], 0, 0, false⟩
  | .saddi d a _ => ⟨[], [], [], [a.toNat], [d.toNat], 2, 0, false⟩
  | .sandi d a _ => ⟨[], [], [], [a.toNat], [d.toNat], 2, 0, false⟩
  | .sori d a _ => ⟨[], [], [], [a.toNat], [d.toNat], 2, 0, false⟩
  | .sxori d a _ => ⟨[], [], [], [a.toNat], [d.toNat], 2, 0, false⟩
  | .sshli d a _ => ⟨[], [], [], [a.toNat], [d.toNat], 2, 0, false⟩
  | .sshri d a _ _ => ⟨[], [], [], [a.toNat], [d.toNat], 2, 0, false⟩
  | .slti d a _ => ⟨[], [], [], [a.toNat], [d.toNat], 2, 0, false⟩
  | .sltni d a _ => ⟨[], [], [], [a.toNat], [d.toNat], 2, 0, false⟩
  | .sli d _ => ⟨[], [], [], [], [d.toNat], 2, 0, false⟩
  | .bra _ => ⟨[], [], [], [], [], 0, 0, false⟩
  | .call _ => ⟨[], [], [], [], [62], 0, 0, false⟩
  | .bz a _ => ⟨[], [], [], [a.toNat], [], 0, 0, false⟩
  | .bnz a _ => ⟨[], [], [], [a.toNat], [], 0, 0, false⟩
  | .jr a kind => ⟨[], [], [], [a.toNat], (if kind = 1 then [62] else []), 0, 0, false⟩
  | .rept a _ => ⟨[], [], [], [a.toNat], [], 0, 0, false⟩
  | .bany _ _ => ⟨[], [], [], [], [], 0, 0, false⟩
  | .bnone _ _ => ⟨[], [], [], [], [], 0, 0, false⟩
  | .ifv _ _ _ => ⟨[], [], [], [], [], 0, 0, false⟩
  | .elsev _ => ⟨[], [], [], [], [], 0, 0, false⟩
  | .endv => ⟨[], [], [], [], [], 0, 0, false⟩
  | .setfmt d a _ => ⟨[], [], [], [a.toNat], [d.toNat], 2, 0, false⟩
  | .vadd _ nw d a b _ => ⟨[a.toNat, b.toNat], [], (vdst nw d), [], [], 0, M.peek, false⟩
  | .vsub _ nw d a b _ => ⟨[a.toNat, b.toNat], [], (vdst nw d), [], [], 0, M.peek, false⟩
  | .vmul _ nw d a b => ⟨[a.toNat, b.toNat], [], (vdst nw d), [], [], 0, M.peek, false⟩
  | .vmulh _ nw d a b _ => ⟨[a.toNat, b.toNat], [], (vdst nw d), [], [], 0, M.peek, false⟩
  | .vmad _ d a b => ⟨[a.toNat, b.toNat, d.toNat], [], (vdst 0 d), [], [], 0, M.peek, false⟩
  | .vand _ nw d a b => ⟨[a.toNat, b.toNat], [], (vdst nw d), [], [], 0, M.peek, false⟩
  | .vor _ nw d a b => ⟨[a.toNat, b.toNat], [], (vdst nw d), [], [], 0, M.peek, false⟩
  | .vxor _ nw d a b => ⟨[a.toNat, b.toNat], [], (vdst nw d), [], [], 0, M.peek, false⟩
  | .vshl _ nw d a b => ⟨[a.toNat, b.toNat], [], (vdst nw d), [], [], 0, M.peek, false⟩
  | .vshr _ nw d a b _ => ⟨[a.toNat, b.toNat], [], (vdst nw d), [], [], 0, M.peek, false⟩
  | .vmin _ nw d a b _ => ⟨[a.toNat, b.toNat], [], (vdst nw d), [], [], 0, M.peek, false⟩
  | .vmax _ nw d a b _ => ⟨[a.toNat, b.toNat], [], (vdst nw d), [], [], 0, M.peek, false⟩
  | .vabsd _ nw d a b _ => ⟨[a.toNat, b.toNat], [], (vdst nw d), [], [], 0, M.peek, false⟩
  | .vsel _ d a b _ => ⟨[a.toNat, b.toNat, d.toNat], [], (vdst 0 d), [], [], 0, M.peek, false⟩
  | .vcmp _ _ _ a b _ => ⟨[a.toNat, b.toNat], [], [], [], [], 0, M.peek, false⟩
  | .vbit _ nw d a _ => ⟨[a.toNat], [], (vdst nw d), [], [], 0, M.peek, false⟩
  | .vlane _ nw d _ => ⟨[], [], (vdst nw d), [], [], 0, M.peek, false⟩
  | .vmov _ nw d a _ mod => ⟨(if mod = 1 ∨ mod = 3 then [] else [a.toNat]), [], (if mod = 3 then pdst nw d else vdst nw d), (if mod = 1 ∨ mod = 3 then [a.toNat] else []), [], 0, M.peek, false⟩
  | .vshuf _ nw d a b _ => ⟨[a.toNat, b.toNat], [], (vdst nw d), [], [], 0, M.peek, false⟩
  | .vrot _ nw d a _ _ => ⟨[a.toNat], [], (vdst nw d), [], [], 0, M.peek, false⟩
  | .vslide _ nw d a b _ => ⟨[a.toNat, b.toNat], [], (vdst nw d), [], [], 0, M.peek, false⟩
  | .vscan _ nw d a _ _ => ⟨[a.toNat], [], (vdst nw d), [], [], 0, M.peek, false⟩
  | .vred _ d a _ => ⟨[a.toNat], [], [], [], [d.toNat], 0, M.peek, false⟩
  | .bperm _ nw d a b _ => ⟨[a.toNat, b.toNat], [], (vdst nw d), [], [], 0, M.peek, false⟩
  | .mop _ _ _ _ => ⟨[], [], [], [], [], 0, M.peek, false⟩
  | .mcnt _ d _ _ => ⟨[], [], [], [], [d.toNat], 0, M.peek, false⟩
  | .vext _ nw d a b _ => ⟨[a.toNat, b.toNat], [], (vdst nw d), [], [], 0, M.peek, false⟩
  | .fadd _ nw d a b => ⟨[a.toNat, b.toNat], [], (vdst nw d), [], [], 0, (M.peek + M.rnd), false⟩
  | .fsub _ nw d a b => ⟨[a.toNat, b.toNat], [], (vdst nw d), [], [], 0, (M.peek + M.rnd), false⟩
  | .fmul _ nw d a b => ⟨[a.toNat, b.toNat], [], (vdst nw d), [], [], 0, (M.peek + M.rnd), false⟩
  | .ffma _ d a b => ⟨[a.toNat, b.toNat, d.toNat], [], (vdst 0 d), [], [], 0, (M.peek + M.rnd), false⟩
  | .fnma _ d a b => ⟨[a.toNat, b.toNat, d.toNat], [], (vdst 0 d), [], [], 0, (M.peek + M.rnd), false⟩
  | .fmin _ nw d a b => ⟨[a.toNat, b.toNat], [], (vdst nw d), [], [], 0, M.peek, false⟩
  | .fmax _ nw d a b => ⟨[a.toNat, b.toNat], [], (vdst nw d), [], [], 0, M.peek, false⟩
  | .fcmp _ _ _ a b => ⟨[a.toNat, b.toNat], [], [], [], [], 0, M.peek, false⟩
  | .frcp _ nw d a => ⟨[a.toNat], [], (vdst nw d), [], [], 0, M.peek, false⟩
  | .frsq _ nw d a => ⟨[a.toNat], [], (vdst nw d), [], [], 0, M.peek, false⟩
  | .fex2 _ nw d a => ⟨[a.toNat], [], (vdst nw d), [], [], 0, M.peek, false⟩
  | .flg2 _ nw d a => ⟨[a.toNat], [], (vdst nw d), [], [], 0, M.peek, false⟩
  | .fclass _ nw d a => ⟨[a.toNat], [], (vdst nw d), [], [], 0, M.peek, false⟩
  | .cvt _ nw d a _ _ _ => ⟨[a.toNat], [], (vdst nw d), [], [], 0, (M.peek + M.rnd + M.sat), false⟩
  | .hfma2 _ d a b _ => ⟨[a.toNat, b.toNat, d.toNat], [], (vdst 0 d), [], [], 0, (M.peek + M.rnd + M.sat), false⟩
  | .dadd _ nw d a b => ⟨[], (pairOf a ++ pairOf b), (pdst nw d), [], [], 0, (M.peek + M.rnd), false⟩
  | .dmul _ nw d a b => ⟨[], (pairOf a ++ pairOf b), (pdst nw d), [], [], 0, (M.peek + M.rnd), false⟩
  | .dfma _ d a b => ⟨[], (pairOf a ++ pairOf b ++ pairOf d), (pairOf d), [], [], 0, (M.peek + M.rnd), false⟩
  | .dcmpF64 _ _ _ a b => ⟨[], (pairOf a ++ pairOf b), [], [], [], 0, M.peek, false⟩
  | .dcvt _ nw d a code _ => ⟨(if dcvtPairA code then [] else [a.toNat]), (if dcvtPairA code then pairOf a else []), (if dcvtPairD code then pdst nw d else vdst nw d), [], [], 0, (M.peek + M.rnd + M.sat), false⟩
  | .fscale _ nw d a b mod => ⟨(if mod = 1 then [b.toNat] else [a.toNat, b.toNat]), (if mod = 1 then pairOf a else []), (if mod = 1 then pdst nw d else vdst nw d), [], [], 0, (M.peek + M.rnd), false⟩
  | .ld _ data ofs base size => ⟨[ofs.toNat], [], (regsOf size data), [base.toNat], [], 0, (M.peek + M.far), true⟩
  | .st _ data ofs base size => ⟨(if size < 5 then [ofs.toNat, data.toNat] else [ofs.toNat]), (if size < 5 then [] else regsOf size data), [], [base.toNat], [], 0, M.peek, false⟩
  | .lds _ data ofs base size => ⟨[ofs.toNat], [], (regsOf size data), [base.toNat], [], 0, M.peek, true⟩
  | .sts _ data ofs base size => ⟨(if size < 5 then [ofs.toNat, data.toNat] else [ofs.toNat]), (if size < 5 then [] else regsOf size data), [], [base.toNat], [], 0, M.peek, false⟩
  | .sld data base _ => ⟨[], [], [], [base.toNat], [data.toNat], 0, (M.peek + M.far), true⟩
  | .sst data base _ => ⟨[], [], [], [base.toNat, data.toNat], [], 0, M.peek, false⟩
  | .plld _ data ofs base _ => ⟨[ofs.toNat], [], [data.toNat], [base.toNat], [], 0, (M.peek + M.far), true⟩
  | .plst _ data ofs base _ => ⟨[ofs.toNat, data.toNat], [], [], [base.toNat], [], 0, M.peek, false⟩
  | .atom _ data ofs base _ => ⟨(if w64 then [ofs.toNat] else [ofs.toNat, data.toNat]), (if w64 then pairOf data else []), (if w64 then pairOf data else [data.toNat]), [base.toNat], [], 0, (M.peek + M.w64 + M.sp + M.ord), true⟩
  | .atomx _ data ofs base op => ⟨[ofs.toNat], (atomxReads w64 op data), (if w64 then pairOf data else [data.toNat]), [base.toNat], [], 0, (M.peek + M.w64 + M.sp + M.ord), true⟩
  | .red _ data ofs base _ => ⟨(if w64 then [ofs.toNat] else [ofs.toNat, data.toNat]), (if w64 then pairOf data else []), [], [base.toNat], [], 0, (M.peek + M.w64 + M.ord), false⟩
  | .satom data base _ => ⟨[], [], [], [base.toNat, data.toNat], [data.toNat], 0, (M.peek + M.w64 + M.ord), true⟩
  | .place len base _ => ⟨[], [], [], [len.toNat, base.toNat], [], 0, M.peek, false⟩
  | .waita data _ _ base _ => ⟨[], [], [], [data.toNat, base.toNat], [data.toNat], 0, M.peek, false⟩
  | .fence _ _ => ⟨[], [], [], [], [], 0, 0, false⟩
  | .acq a d _ => ⟨[], [], [], [a.toNat], [d.toNat], 0, 0, false⟩
  | .rel a _ => ⟨[], [], [], [a.toNat], [], 0, 0, false⟩
  | .tlwait a _ => ⟨[], [], [], [a.toNat], [], 2, 0, false⟩
  | .tlget d _ => ⟨[], [], [], [], [d.toNat], 0, 0, false⟩
  | .baralloc d p => ⟨[], [], [], [p.toNat], [d.toNat], 0, 0, false⟩
  | .barfree d b => ⟨[], [], [], [b.toNat], [d.toNat], 0, 0, false⟩
  | .bararr b => ⟨[], [], [], [b.toNat], [], 0, 0, false⟩
  | .barwait b => ⟨[], [], [], [b.toNat], [], 0, 0, false⟩
  | .barsync b => ⟨[], [], [], [b.toNat], [], 0, 0, false⟩
  | .xarr m => ⟨[], [], [], [m.toNat], [], 0, 0, false⟩
  | .xwait m => ⟨[], [], [], [m.toNat], [], 0, 0, false⟩
  | .qalloc d a c => ⟨[], [], [], [a.toNat, c.toNat], [d.toNat], 0, 0, false⟩
  | .qfree d q => ⟨[], [], [], [q.toNat], [d.toNat], 0, 0, false⟩
  | .qpush q h => ⟨[], [], [], [q.toNat, h.toNat], [], 0, 0, false⟩
  | .qpop d q => ⟨[], [], [], [q.toNat], [d.toNat], 0, 0, false⟩
  | .qtry d q h p => ⟨[], [], [], (if p = 1 then [q.toNat, h.toNat] else [q.toNat]), (if p = 1 then [d.toNat] else [d.toNat, h.toNat]), 0, 0, false⟩
  | .qgrant q n => ⟨[], [], [], [q.toNat, n.toNat], [], 0, 0, false⟩
  | .copy d a _ => ⟨[], [], [], [a.toNat], [d.toNat], 0, 0, false⟩
  | .halo d a _ => ⟨[], [], [], [a.toNat], [d.toNat], 0, 0, false⟩
  | .mcast d a _ => ⟨[], [], [], [a.toNat], [d.toNat], 0, 0, false⟩
  | .dcmpStream d a _ => ⟨[], [], [], [a.toNat], [d.toNat], 0, 0, false⟩
  | .coll d a _ => ⟨[], [], [], [a.toNat], [d.toNat], 0, 0, false⟩
  | .spawn e p _ => ⟨[], (quadOf p), [], [e.toNat], [], 0, 0, false⟩
  | .rebin key e p _ => ⟨[], (key.toNat :: quadOf p), [], [e.toNat], [], 0, 0, false⟩
  | .launch d r => ⟨[], [], [], [r.toNat], [d.toNat], 0, 0, false⟩
  | .waitch d g => ⟨[], [], [], [g.toNat], [d.toNat], 0, 0, false⟩
  | .tclaim d _ => ⟨[], [], [], [], [d.toNat], 0, M.peek, false⟩
  | .trel n _ => ⟨[], [], [], [n.toNat], [], 0, M.peek, false⟩
  | .mmq a b p _ _ => ⟨[p.toNat], [], [], [a.toNat, b.toNat], [], 0, M.peek, false⟩
  | .mzero t => ⟨[], [], [], [t.toNat], [], 0, M.peek, false⟩
  | .mdrain t a o dst mode => ⟨[], (if dst = 6 ∧ (mode = 3 ∨ mode = 4) then quadOf a else []), (if dst = 6 then quadOf a else []), (if dst = 6 then [t.toNat, o.toNat] else [t.toNat, a.toNat, o.toNat]), [], 0, (M.peek + M.tie), (dst = 6 : Bool)⟩
  | .mfill t a => ⟨[], [], [], [t.toNat, a.toNat], [], 0, M.peek, false⟩
  | .cupd a t p _ => ⟨[], (pairOf p), [], [a.toNat, t.toNat], [], 0, M.peek, false⟩
  | .menc d s k => ⟨[], [], [], [d.toNat, s.toNat, k.toNat], [], 0, M.peek, false⟩
  | .cbld k a _ => ⟨[], [], [], [k.toNat, a.toNat], [], 0, M.peek, false⟩
  | .mstat d _ => ⟨[], [], [], [], [d.toNat], 0, M.peek, false⟩
  | .gor2 _ d p q ty => ⟨[], (runOf p (if ty = 1 then 6 else 12) ++ (if q = 62 then [] else runOf q 3)), (d.toNat :: xd), [], [], 0, (M.peek + M.pred), true⟩
  | .gor3 _ d p q ty => ⟨[], (runOf p (if ty = 1 then 12 else 24) ++ (if q = 62 then [] else runOf q 4)), (d.toNat :: xd), [], [], 0, (M.peek + M.pred), true⟩
  | .ginc _ d p q ty => ⟨[], (runOf p (if ty = 1 then 8 else 16) ++ (if q = 62 then [] else runOf q 4)), (d.toNat :: xd), [], [], 0, (M.peek + M.pred), true⟩
  | .gins _ d p q ty => ⟨[], (runOf p (if ty = 1 then 15 else 30) ++ (if q = 62 then [] else runOf q 5)), (d.toNat :: xd), [], [], 0, (M.peek + M.pred), true⟩
  | .gseg _ d p q ty => ⟨[], (runOf p (if ty = 1 then 8 else 16) ++ (if q = 62 then [] else runOf q 4)), (d.toNat :: xd), [], [], 0, (M.peek + M.pred), true⟩
  | .himm _ => ⟨[], [], [], [], [], 0, 0, false⟩
  | .hsched _ _ _ _ => ⟨[], [], [], [], [], 0, 0, false⟩
  | .hmod _ _ _ _ _ _ _ _ _ _ _ _ _ => ⟨[], [], [], [], [], 0, 0, false⟩
  | .nop => ⟨[], [], [], [], [], 0, 0, false⟩
  | .yield => ⟨[], [], [], [], [], 0, 0, false⟩
  | .exit => ⟨[], [], [], [], [], 0, 0, false⟩
  | .trap _ => ⟨[], [], [], [], [], 0, 0, false⟩
  | .csrr d a _ => ⟨[], [], [], [a.toNat], [d.toNat], 0, 0, false⟩
  | .csrw b a _ => ⟨[], [], [], [b.toNat, a.toNat], [], 0, 0, false⟩
  | .tresume d a _ => ⟨[], [], [], [a.toNat], [d.toNat], 0, 0, false⟩
  | .tflush a b _ => ⟨[], [], [], [a.toNat, b.toNat], [], 0, 0, false⟩
  | .split d a => ⟨[], [], [], [a.toNat], [d.toNat], 0, 0, false⟩
  | .halt _ => ⟨[], [], [], [], [], 0, 0, false⟩
  | .sleep _ => ⟨[], [], [], [], [], 1, 0, false⟩
  | .brk _ => ⟨[], [], [], [], [], 0, 0, false⟩
  | .binTimerExpiry _ _ => .none
  | .binGroupStart _ => .none
  | .watchdogExpiry _ => .none
  | .activeSetSwap _ => .none
  | .forcedSwap _ => .none
  | .sleepExpiry _ _ => .none
  | .waitaReread _ _ => .none
  | .loadDataReturn _ => .none
  | .sectorArrival _ => .none
  | .frameAccess _ => .none
  | .replicaLock _ => .none
  | .replicaUpdate _ => .none
  | .sideboardAccess _ => .none
  | .bounce _ => .none
  | .moveDone _ => .none
  | .pageRecall _ => .none
  | .pageWalk _ _ _ => .none
  | .closeMessage _ => .none
  | .closeAnswer _ => .none
  | .engineCommandCompletion _ _ _ => .none
  | .dcmpStreamEnd _ _ _ => .none
  | .collArrival _ _ => .none
  | .copyDataLanding _ _ _ => .none
  | .drawerDelivery _ => .none
  | .deliveryRetry _ => .none
  | .remoteLoad _ => .none
  | .targetGoneAnswer _ => .none
  | .exchangeClose _ => .none
  | .xwaitMerge _ _ => .none
  | .arrayPass _ => .none
  | .passTimeout _ => .none
  | .subarrayGate _ _ => .none
  | .subarrayWake _ _ => .none
  | .predicateCompletion _ => .none
  | .pageMove _ _ _ _ => .none
  | .frameSeal _ => .none
  | .sealNotice _ => .none
  | .sectorLanding _ _ => .none
  | .touchPromotion _ _ _ => .none
  | .placeFarRequest _ => .none
  | .stashSweep _ => .none
  | .swapOut _ => .none
  | .dispatchStarvation _ => .none
  | .timeSliceExpiry _ => .none
  | .gridCompletion _ => .none
  | .submissionPortWrite _ _ _ => .none
  | .cxlMemRead _ _ => .none
  | .cxlMemWrite _ _ => .none
  | .getVersion => .none
  | .getCapabilities => .none
  | .negotiateAlgorithms => .none
  | .getDigests => .none
  | .getCertificate _ _ _ => .none
  | .challenge _ _ => .none
  | .getMeasurements _ _ => .none
  | .layoutWrite _ => .none
  | .eventsClear _ => .none
  | .lrCmd _ => .none
  | .fwStoreStagedImage => .none
  | .fwRaiseMinimumSvn => .none
  | .fwCommandDone => .none
  | .preset _ _ => .none
  | .mbxHeadWrite _ _ => .none
  | .windowTableWrite _ _ _ => .none
  | .ownedReleaseDone _ _ => .none
  | .bar0RegisterWrite _ _ => .none
  | .peerRequest _ _ _ => .none
  | .peerWriteAck _ => .none
  | .flitCrcRetry _ => .none
  | .linkDown _ => .none
  | .linkUp _ _ => .none
  | .powerOn => .none
  | .thermalTrip _ => .none
  | .overcurrent _ => .none
  | .sensorSample _ _ _ _ _ => .none
  | .lifetimeFlush => .none
  | .orderlyShutdown => .none
  | .powerLoss => .none
  | .busTest _ _ => .none
  | .mdrainCompletion _ => .none
  | .replicaAcknowledgement _ => .none
  | .zeroLengthReadCompletion _ => .none
  | .mbxBaseWrite _ _ => .none
  | .gemarLaneLoss _ => .none
  | .hschedDelayExpiry _ _ => .none

/-! ## The hints an instruction carries -/

/-- The attached HMOD word's bits 23:0, zero when there is none. -/
def Hints.mod (h : Hints) : Nat := (h.hmod.getD 0).toNat
/-- The hint immediate (R186): 64 bits. -/
def Hints.imm (h : Hints) : DWord :=
  match h.himms with
  | [] => 0
  | [a] => sext64 a.toNat 24
  | a :: b :: _ => sext64 (b.toNat * 2 ^ 24 + a.toNat) 48
def Hints.count (h : Hints) : Nat := h.himms.length
def Hints.peek (h : Hints) : Bool := h.mod.testBit 15
def Hints.far (h : Hints) : Bool := h.mod.testBit 14
def Hints.w64 (h : Hints) : Bool := h.mod.testBit 13
def Hints.sp (h : Hints) : Bool := h.mod.testBit 12
def Hints.sos (h : Hints) : Bool := h.mod.testBit 16
def Hints.ord (h : Hints) : Nat := bitsOf h.mod 11 10
def Hints.scope (h : Hints) : Nat := bitsOf h.mod 9 7
def Hints.sat (h : Hints) : Bool := h.mod.testBit 6
/-- The rounding mode that an HMOD puts in place of `dflt` (R188, R189). -/
def Hints.round (h : Hints) (dflt : RMode) : RMode := if h.mod.testBit 5 then .ofCode (bitsOf h.mod 4 3) else dflt
def Hints.tie (h : Hints) : Nat := bitsOf h.mod 2 1
/-- The stage-report register (R188), if the HMOD names one. -/
def Hints.xd (h : Hints) : List Nat := if h.mod.testBit 17 then [bitsOf h.mod 23 18] else []

/-- The operands an instruction names with its hints. -/
def usesWith (h : Hints) (i : Instr) : Uses := Instr.uses h.w64 h.xd i

/-- What attached hints change in the reserved values (R186, R197, R203, R205, R244 to R248, R255, R257, R318, R329). -/
def hintValuesOk (h : Hints) (i : Instr) : Bool :=
  let has := h.count ≠ 0
  match i with
  | .saddi _ _ imm => !has || imm == 0
  | .sandi _ _ imm => !has || imm == 0
  | .sori _ _ imm => !has || imm == 0
  | .sxori _ _ imm => !has || imm == 0
  | .slti _ _ imm => !has || imm == 0
  | .sltni _ _ imm => !has || imm == 0
  | .sshli _ _ c => !has || (c == 0 && h.imm.toNat / 2 ^ 6 == 0)
  | .sshri _ _ ar c => !has || (c == 0 && ar == 0 && h.imm.toNat / 2 ^ 7 == 0)
  | .sli _ imm => !has || imm == 0
  | .setfmt _ a _ => !has || a == 0
  | .sleep n => !has || n == 0
  | .tlwait a _ => !has || a == 0
  | .st _ data _ _ _ => data != 63 || h.count == 1
  | .sts _ data _ _ _ => data != 63 || h.count == 1
  | .plst _ data _ _ _ => data != 63 || h.count == 1
  | .atom _ data _ _ op => !h.w64 || (isPair data && op != 7)
  | .atomx _ data _ _ _ => !h.w64 || isQuad data
  | .red _ data _ _ op => (if h.w64 then isPair data && op != 7 else data != 63 || h.count == 1) && h.ord % 2 == 0
  | .satom _ _ op => !h.w64 || op != 7
  | .gor2 _ d _ q _ => h.sos == (q != 62) && !h.xd.contains d.toNat
  | .gor3 _ d _ q _ => h.sos == (q != 62) && !h.xd.contains d.toNat
  | .ginc _ d _ q _ => h.sos == (q != 62) && !h.xd.contains d.toNat
  | .gins _ d _ q _ => h.sos == (q != 62) && !h.xd.contains d.toNat
  | .gseg _ d _ q _ => h.sos == (q != 62) && !h.xd.contains d.toNat
  | _ => true

/-- The instructions that accept no HMOD, not even one with every field zero: classes 0, 1 and 7 (R191, R352) and functions 5 to 26 of class 5
(R259). -/
def noHmod (i : Instr) : Bool :=
  match i with
  | .sadd _ _ _ _ _ => true
  | .ssub _ _ _ _ _ => true
  | .smul _ _ _ _ _ => true
  | .smulh _ _ _ _ _ => true
  | .sdiv _ _ _ _ _ => true
  | .srem _ _ _ _ _ => true
  | .sand _ _ _ _ _ => true
  | .sor _ _ _ _ _ => true
  | .sxor _ _ _ _ _ => true
  | .sshl _ _ _ _ _ => true
  | .sshr _ _ _ _ _ => true
  | .smin _ _ _ _ _ => true
  | .smax _ _ _ _ _ => true
  | .scmp _ _ _ _ _ _ => true
  | .ssel _ _ _ _ => true
  | .sbit _ _ _ _ => true
  | .sget _ _ => true
  | .sset _ _ => true
  | .mget _ _ => true
  | .mput _ _ => true
  | .sext _ _ _ _ => true
  | .saddi _ _ _ => true
  | .sandi _ _ _ => true
  | .sori _ _ _ => true
  | .sxori _ _ _ => true
  | .sshli _ _ _ => true
  | .sshri _ _ _ _ => true
  | .slti _ _ _ => true
  | .sltni _ _ _ => true
  | .sli _ _ => true
  | .bra _ => true
  | .call _ => true
  | .bz _ _ => true
  | .bnz _ _ => true
  | .jr _ _ => true
  | .rept _ _ => true
  | .bany _ _ => true
  | .bnone _ _ => true
  | .ifv _ _ _ => true
  | .elsev _ => true
  | .endv => true
  | .setfmt _ _ _ => true
  | .baralloc _ _ => true
  | .barfree _ _ => true
  | .bararr _ => true
  | .barwait _ => true
  | .barsync _ => true
  | .xarr _ => true
  | .xwait _ => true
  | .qalloc _ _ _ => true
  | .qfree _ _ => true
  | .qpush _ _ => true
  | .qpop _ _ => true
  | .qtry _ _ _ _ => true
  | .qgrant _ _ => true
  | .copy _ _ _ => true
  | .halo _ _ _ => true
  | .mcast _ _ _ => true
  | .dcmpStream _ _ _ => true
  | .coll _ _ _ => true
  | .spawn _ _ _ => true
  | .rebin _ _ _ _ => true
  | .launch _ _ => true
  | .waitch _ _ => true
  | .nop => true
  | .yield => true
  | .exit => true
  | .trap _ => true
  | .csrr _ _ _ => true
  | .csrw _ _ _ => true
  | .tresume _ _ _ => true
  | .tflush _ _ _ => true
  | .split _ _ => true
  | .halt _ => true
  | .sleep _ => true
  | .brk _ => true
  | _ => false

/-- The instruction accepts its hints (R184, R186, R188, R259): a code 63 needs an HIMM, an HIMM needs a use, and no HMOD field is
set that the instruction does not accept. -/
def hintsAccepted (h : Hints) (i : Instr) : Bool :=
  let u := usesWith h i
  let code63 := u.codes.contains 63
  let most := max u.himm (if code63 then 2 else 0)
  h.count ≤ most && (!code63 || h.count ≠ 0) && (h.mod &&& (0xFFFFFF - u.hmod)) == 0 &&
    (h.hmod.isNone || !noHmod i) && hintValuesOk h i

/-- The instructions that raise 0x01 in a REPEAT body (R201). -/
def bannedInRepeat (i : Instr) : Bool :=
  match i with
  | .bra _ => true
  | .call _ => true
  | .bz _ _ => true
  | .bnz _ _ => true
  | .jr _ _ => true
  | .rept _ _ => true
  | .bany _ _ => true
  | .bnone _ _ => true
  | .ifv _ _ _ => true
  | .elsev _ => true
  | .endv => true
  | .exit => true
  | .trap _ => true
  | .brk _ => true
  | _ => false

/-- The instructions legal only in supervisor mode (R176, R178, R341). -/
def supervisorOnly (i : Instr) : Bool :=
  match i with
  | .csrr _ _ _ => true
  | .csrw _ _ _ => true
  | .tresume _ _ _ => true
  | .tflush _ _ _ => true
  | .split _ _ => true
  | .halt _ => true
  | _ => false

/-! ## Operand values -/

/-- What an instruction works with: the names of its team and group, both as they stood before it, and its hints. -/
structure Ctx where
  tid : Nat
  gid : Nat
  t : Team
  g : Group
  deriving DecidableEq, Repr

def Ctx.h (c : Ctx) : Hints := c.g.hints
def Ctx.core (c : Ctx) : Nat := c.t.core
/-- A scalar operand, read before the instruction (R8). -/
def Ctx.s (c : Ctx) (n : BitVec 6) : DWord := c.g.sreg n.toNat
/-- A vector register, read before the instruction (R8). -/
def Ctx.v (c : Ctx) (n : Nat) : Lanes := c.t.vreg c.g n
/-- The value of a vector operand code (R173). -/
def Ctx.code (c : Ctx) (x : VCode) : Lanes :=
  if x < 56 then c.v x.toNat
  else if x < 62 then c.g.latchAt (x.toNat - 56)
  else if x = 62 then zeroLanes
  else List.replicate 32 (lo32 c.h.imm.toNat)
/-- The lanes of the instruction (R44). -/
def Ctx.lanes (c : Ctx) (guard : BitVec 3) : Mask := c.g.lanesUnder guard.toNat
/-- The value of a vector operand code for an instruction that reads every lane of it, active or not: an inactive lane of a latch supplies
zero (R216). -/
def Ctx.across (c : Ctx) (guard : BitVec 3) (x : VCode) : Lanes :=
  if 56 ≤ x ∧ x < 62 then only (c.lanes guard) (c.code x) else c.code x
/-- Lane i of a pair as 64 bits. -/
def Ctx.pair (c : Ctx) (n : Nat) (i : Nat) : Nat := pair64 (lane (c.v n) i) (lane (c.v (n + 1)) i)
/-- Another group of the same team. -/
def Ctx.grp (c : Ctx) (g : Nat) : Option Group := nmGet g c.t.groups

/-! ## The lanes of an instruction (R44) -/

/-- The guard of an instruction; 0 for one that has none (R44). -/
def guardOf (i : Instr) : BitVec 3 :=
  match i with
  | .sadd _ _ _ _ _ => 0
  | .ssub _ _ _ _ _ => 0
  | .smul _ _ _ _ _ => 0
  | .smulh _ _ _ _ _ => 0
  | .sdiv _ _ _ _ _ => 0
  | .srem _ _ _ _ _ => 0
  | .sand _ _ _ _ _ => 0
  | .sor _ _ _ _ _ => 0
  | .sxor _ _ _ _ _ => 0
  | .sshl _ _ _ _ _ => 0
  | .sshr _ _ _ _ _ => 0
  | .smin _ _ _ _ _ => 0
  | .smax _ _ _ _ _ => 0
  | .scmp _ _ _ _ _ _ => 0
  | .ssel _ _ _ _ => 0
  | .sbit _ _ _ _ => 0
  | .sget _ _ => 0
  | .sset _ _ => 0
  | .mget _ _ => 0
  | .mput _ _ => 0
  | .sext _ _ _ _ => 0
  | .saddi _ _ _ => 0
  | .sandi _ _ _ => 0
  | .sori _ _ _ => 0
  | .sxori _ _ _ => 0
  | .sshli _ _ _ => 0
  | .sshri _ _ _ _ => 0
  | .slti _ _ _ => 0
  | .sltni _ _ _ => 0
  | .sli _ _ => 0
  | .bra _ => 0
  | .call _ => 0
  | .bz _ _ => 0
  | .bnz _ _ => 0
  | .jr _ _ => 0
  | .rept _ _ => 0
  | .bany _ _ => 0
  | .bnone _ _ => 0
  | .ifv _ _ _ => 0
  | .elsev _ => 0
  | .endv => 0
  | .setfmt _ _ _ => 0
  | .vadd guard _ _ _ _ _ => guard
  | .vsub guard _ _ _ _ _ => guard
  | .vmul guard _ _ _ _ => guard
  | .vmulh guard _ _ _ _ _ => guard
  | .vmad guard _ _ _ => guard
  | .vand guard _ _ _ _ => guard
  | .vor guard _ _ _ _ => guard
  | .vxor guard _ _ _ _ => guard
  | .vshl guard _ _ _ _ => guard
  | .vshr guard _ _ _ _ _ => guard
  | .vmin guard _ _ _ _ _ => guard
  | .vmax guard _ _ _ _ _ => guard
  | .vabsd guard _ _ _ _ _ => guard
  | .vsel guard _ _ _ _ => guard
  | .vcmp guard _ _ _ _ _ => guard
  | .vbit guard _ _ _ _ => guard
  | .vlane guard _ _ _ => guard
  | .vmov guard _ _ _ _ _ => guard
  | .vshuf guard _ _ _ _ _ => guard
  | .vrot guard _ _ _ _ _ => guard
  | .vslide guard _ _ _ _ _ => guard
  | .vscan guard _ _ _ _ _ => guard
  | .vred guard _ _ _ => guard
  | .bperm guard _ _ _ _ _ => guard
  | .mop _ _ _ _ => 0
  | .mcnt guard _ _ _ => guard
  | .vext guard _ _ _ _ _ => guard
  | .fadd guard _ _ _ _ => guard
  | .fsub guard _ _ _ _ => guard
  | .fmul guard _ _ _ _ => guard
  | .ffma guard _ _ _ => guard
  | .fnma guard _ _ _ => guard
  | .fmin guard _ _ _ _ => guard
  | .fmax guard _ _ _ _ => guard
  | .fcmp guard _ _ _ _ => guard
  | .frcp guard _ _ _ => guard
  | .frsq guard _ _ _ => guard
  | .fex2 guard _ _ _ => guard
  | .flg2 guard _ _ _ => guard
  | .fclass guard _ _ _ => guard
  | .cvt guard _ _ _ _ _ _ => guard
  | .hfma2 guard _ _ _ _ => guard
  | .dadd guard _ _ _ _ => guard
  | .dmul guard _ _ _ _ => guard
  | .dfma guard _ _ _ => guard
  | .dcmpF64 guard _ _ _ _ => guard
  | .dcvt guard _ _ _ _ _ => guard
  | .fscale guard _ _ _ _ _ => guard
  | .ld guard _ _ _ _ => guard
  | .st guard _ _ _ _ => guard
  | .lds guard _ _ _ _ => guard
  | .sts guard _ _ _ _ => guard
  | .sld _ _ _ => 0
  | .sst _ _ _ => 0
  | .plld guard _ _ _ _ => guard
  | .plst guard _ _ _ _ => guard
  | .atom guard _ _ _ _ => guard
  | .atomx guard _ _ _ _ => guard
  | .red guard _ _ _ _ => guard
  | .satom _ _ _ => 0
  | .place _ _ _ => 0
  | .waita _ _ _ _ _ => 0
  | .fence _ _ => 0
  | .acq _ _ _ => 0
  | .rel _ _ => 0
  | .tlwait _ _ => 0
  | .tlget _ _ => 0
  | .baralloc _ _ => 0
  | .barfree _ _ => 0
  | .bararr _ => 0
  | .barwait _ => 0
  | .barsync _ => 0
  | .xarr _ => 0
  | .xwait _ => 0
  | .qalloc _ _ _ => 0
  | .qfree _ _ => 0
  | .qpush _ _ => 0
  | .qpop _ _ => 0
  | .qtry _ _ _ _ => 0
  | .qgrant _ _ => 0
  | .copy _ _ _ => 0
  | .halo _ _ _ => 0
  | .mcast _ _ _ => 0
  | .dcmpStream _ _ _ => 0
  | .coll _ _ _ => 0
  | .spawn _ _ guard => guard
  | .rebin _ _ _ guard => guard
  | .launch _ _ => 0
  | .waitch _ _ => 0
  | .tclaim _ _ => 0
  | .trel _ _ => 0
  | .mmq _ _ _ _ _ => 0
  | .mzero _ => 0
  | .mdrain _ _ _ _ _ => 0
  | .mfill _ _ => 0
  | .cupd _ _ _ _ => 0
  | .menc _ _ _ => 0
  | .cbld _ _ _ => 0
  | .mstat _ _ => 0
  | .gor2 guard _ _ _ _ => guard
  | .gor3 guard _ _ _ _ => guard
  | .ginc guard _ _ _ _ => guard
  | .gins guard _ _ _ _ => guard
  | .gseg guard _ _ _ _ => guard
  | .himm _ => 0
  | .hsched _ _ _ _ => 0
  | .hmod _ _ _ _ _ _ _ _ _ _ _ _ _ => 0
  | .nop => 0
  | .yield => 0
  | .exit => 0
  | .trap _ => 0
  | .csrr _ _ _ => 0
  | .csrw _ _ _ => 0
  | .tresume _ _ _ => 0
  | .tflush _ _ _ => 0
  | .split _ _ => 0
  | .halt _ => 0
  | .sleep _ => 0
  | .brk _ => 0
  | .binTimerExpiry _ _ => 0
  | .binGroupStart _ => 0
  | .watchdogExpiry _ => 0
  | .activeSetSwap _ => 0
  | .forcedSwap _ => 0
  | .sleepExpiry _ _ => 0
  | .waitaReread _ _ => 0
  | .loadDataReturn _ => 0
  | .sectorArrival _ => 0
  | .frameAccess _ => 0
  | .replicaLock _ => 0
  | .replicaUpdate _ => 0
  | .sideboardAccess _ => 0
  | .bounce _ => 0
  | .moveDone _ => 0
  | .pageRecall _ => 0
  | .pageWalk _ _ _ => 0
  | .closeMessage _ => 0
  | .closeAnswer _ => 0
  | .engineCommandCompletion _ _ _ => 0
  | .dcmpStreamEnd _ _ _ => 0
  | .collArrival _ _ => 0
  | .copyDataLanding _ _ _ => 0
  | .drawerDelivery _ => 0
  | .deliveryRetry _ => 0
  | .remoteLoad _ => 0
  | .targetGoneAnswer _ => 0
  | .exchangeClose _ => 0
  | .xwaitMerge _ _ => 0
  | .arrayPass _ => 0
  | .passTimeout _ => 0
  | .subarrayGate _ _ => 0
  | .subarrayWake _ _ => 0
  | .predicateCompletion _ => 0
  | .pageMove _ _ _ _ => 0
  | .frameSeal _ => 0
  | .sealNotice _ => 0
  | .sectorLanding _ _ => 0
  | .touchPromotion _ _ _ => 0
  | .placeFarRequest _ => 0
  | .stashSweep _ => 0
  | .swapOut _ => 0
  | .dispatchStarvation _ => 0
  | .timeSliceExpiry _ => 0
  | .gridCompletion _ => 0
  | .submissionPortWrite _ _ _ => 0
  | .cxlMemRead _ _ => 0
  | .cxlMemWrite _ _ => 0
  | .getVersion => 0
  | .getCapabilities => 0
  | .negotiateAlgorithms => 0
  | .getDigests => 0
  | .getCertificate _ _ _ => 0
  | .challenge _ _ => 0
  | .getMeasurements _ _ => 0
  | .layoutWrite _ => 0
  | .eventsClear _ => 0
  | .lrCmd _ => 0
  | .fwStoreStagedImage => 0
  | .fwRaiseMinimumSvn => 0
  | .fwCommandDone => 0
  | .preset _ _ => 0
  | .mbxHeadWrite _ _ => 0
  | .windowTableWrite _ _ _ => 0
  | .ownedReleaseDone _ _ => 0
  | .bar0RegisterWrite _ _ => 0
  | .peerRequest _ _ _ => 0
  | .peerWriteAck _ => 0
  | .flitCrcRetry _ => 0
  | .linkDown _ => 0
  | .linkUp _ _ => 0
  | .powerOn => 0
  | .thermalTrip _ => 0
  | .overcurrent _ => 0
  | .sensorSample _ _ _ _ _ => 0
  | .lifetimeFlush => 0
  | .orderlyShutdown => 0
  | .powerLoss => 0
  | .busTest _ _ => 0
  | .mdrainCompletion _ => 0
  | .replicaAcknowledgement _ => 0
  | .zeroLengthReadCompletion _ => 0
  | .mbxBaseWrite _ _ => 0
  | .gemarLaneLoss _ => 0
  | .hschedDelayExpiry _ _ => 0

/-- The lanes of an instruction: those set in m0 and in its guard mask (R44). -/
def Group.lanesOf (g : Group) (i : Instr) : Mask :=
  if guardOf i = 0 then g.m0 else g.m0 &&& g.mask (guardOf i).toNat

end Sys2Proof.Machine
end

