-- ==== Sys2Proof/Machine/Flags.lean ====
section
/-! DEFINITION. Flag computations: the sticky floating-point flags `fflags` (R66, R194), the fields of `fmt` (R63 to R65,
R203) and the matrix status word (R311). -/

namespace Sys2Proof.Machine

/-- Conditions collected over the lanes of an instruction (R66). -/
def FFlags.all (l : List FFlags) : FFlags := l.foldl FFlags.or .none

/-- Set flags; none is cleared (R66). -/
def Group.raise (g : Group) (f : FFlags) : Group := { g with fflags := g.fflags ||| BitVec.ofNat 32 f.bits }

/-- SSET 9 writes all four flags and ignores the other bits (R194). -/
def Group.setFflags (g : Group) (v : DWord) : Group := { g with fflags := BitVec.ofNat 32 (v.toNat % 16) }

/-- A value stored in `fmt`: bits 31:25 read zero (R63). -/
def fmtOf (v : Nat) : Word := BitVec.ofNat 32 (v % 2 ^ 25)

/-- The bits that SETFMT's sel selects (R203). -/
def fmtMask (sel : BitVec 10) : Nat :=
  let f (i m : Nat) := if sel.getLsbD i then m else 0
  f 0 0x00F + f 1 0x0F0 + f 2 0x300 + f 3 0xC00 + f 4 0x1000 + f 5 0x2000 + f 6 0x3C000 + f 7 0x3C0000 + f 8 0xC00000 + f 9 0x1000000

/-- SETFMT's new value (R203). -/
def setfmtValue (old : Word) (v : Nat) (sel : BitVec 10) : Word :=
  let m := fmtMask sel
  fmtOf ((old.toNat &&& (0xFFFFFFFF - m)) ||| (v &&& m))

/-! The fields of `fmt` (R63). -/
def fmtAf (f : Word) : Nat := bitsOf f.toNat 3 0
def fmtBf (f : Word) : Nat := bitsOf f.toNat 7 4
def fmtAccf (f : Word) : Nat := bitsOf f.toNat 9 8
def fmtDrnd (f : Word) : RMode := .ofCode (bitsOf f.toNat 11 10)
def fmtSat (f : Word) : Bool := f.getLsbD 12
def fmtRed (f : Word) : Bool := f.getLsbD 13
def fmtCba (f : Word) : Nat := bitsOf f.toNat 17 14
def fmtCbb (f : Word) : Nat := bitsOf f.toNat 21 18
def fmtTieb (f : Word) : Nat := bitsOf f.toNat 23 22
def fmtPnf (f : Word) : Bool := f.getLsbD 24

/-! The matrix status word (R311). -/
def mstatNf : Nat := 1
def mstatOf : Nat := 2
def mstatUf : Nat := 4
def mstatNx : Nat := 8
def mstatZc : Nat := 16
def mstatNr : Nat := 32
/-- of, uf and nx of the drain's conversions as status bits (R304, R311). -/
def mstatOfFlags (f : FFlags) : Nat :=
  (if f.ovf then mstatOf else 0) + (if f.uf then mstatUf else 0) + (if f.nx then mstatNx else 0)
def Team.raiseMstat (t : Team) (v : Nat) : Team := { t with mstat := t.mstat ||| BitVec.ofNat 32 v }

end Sys2Proof.Machine
end

