-- ==== Sys2Proof/Machine/Translate.lean ====
section
/-! DEFINITION. Pages and their places: pool addresses and home pages (R111, R112), packed blocks (R118 to R122), frames and
their directory (R363), the page table, its walk and table frames (R353 to R362), the stash (R360), the checks of an
address (R99, R113, R237) and of an external window (R409 to R411). -/

namespace Sys2Proof.Machine

/-! ## Pool addresses (R111, R112) -/

/-- The pool address of byte `off` of home page h of a cluster (R112). -/
def homeAddr (c h off : Nat) : Nat := c * 2 ^ 37 + (h % 192) * 2 ^ 29 + (h / 192) * 4096 + off
def poolCluster (a : Nat) : Nat := a / 2 ^ 37 % 4
def poolColumn (a : Nat) : Nat := a / 2 ^ 29 % 256
def poolOff (a : Nat) : Nat := a % 2 ^ 29
/-- The home page a pool address lies in (R356). -/
def poolHome (a : Nat) : Nat := poolOff a / 4096 * 192 + poolColumn a

/-- The pool window in the virtual addresses (R113). -/
def poolBase : Nat := 0xFE0000000000
def inPool (va : Nat) : Bool := poolBase ≤ va && va < poolBase + 2 ^ 37
/-- The pool address of a pool window address for a core of a cluster (R113). -/
def poolAddr (cluster va : Nat) : Nat := cluster * 2 ^ 37 + (va - poolBase)
/-- A pool window address that names no DRAM that software may reach there: a column that is absent (R113), or a page of R357. -/
def poolAbsent (a : Nat) : Bool := 192 ≤ poolColumn a || Config.pointerPages ≤ poolHome a

/-! ## Packed blocks (R118 to R122) -/

/-- The payload bytes of a scheme; reserved schemes have none (R119). -/
def schemeBytes (sc : Nat) : Option Nat :=
  match sc with
  | 0 => some 0
  | 1 => some 128
  | 2 => some 36
  | 3 => some 68
  | 4 => some 4
  | _ => none

/-- The 128 bytes of a line from its payload (R119). -/
def expandLine (sc : Nat) (pl : List Byte) : List Byte :=
  let word (k : Nat) := leNat ((pl.drop k).take 4)
  match sc with
  | 0 => List.replicate 128 0
  | 1 => (List.range 128).map (fun i => pl.getD i 0)
  | 2 => (List.range 32).flatMap (fun j => natBytes 4 (wrapInt ((word 0 : Int) + sextInt (pl.getD (4 + j) 0).toNat 8) 32))
  | 3 => (List.range 32).flatMap (fun j => natBytes 4 (wrapInt ((word 0 : Int) + sextInt (leNat ((pl.drop (4 + 2 * j)).take 2)) 16) 32))
  | _ => (List.range 32).flatMap (fun _ => natBytes 4 (word 0))

/-- Expand the lines of a block whose schemes are given from the payload bytes. -/
def expandLines : List Nat → List Byte → List Byte
  | [], _ => []
  | sc :: l, pl => expandLine sc pl ++ expandLines l (pl.drop ((schemeBytes sc).getD 0))

/-- The 2,048 bytes of a block from its image of 17 chunks; none for an image that R119 refuses. -/
def expandBlock (img : List Byte) : Option (List Byte) :=
  let hdr := leNat (img.take 8)
  let schemes := (List.range 16).map (fun n => hdr / 16 ^ n % 16)
  let sizes := schemes.map schemeBytes
  let total := (sizes.map (fun x => x.getD 0)).sum
  if sizes.all Option.isSome && ((img.drop 9).take 7).all (· = 0) && (img.getD 8 0).toNat = (16 + total + 127) / 128 then
    some (expandLines schemes (img.drop 16))
  else none

/-- The scheme that the Sideboard chooses for a line of 32 words (R121). -/
def chooseScheme (ws : List Nat) : Nat :=
  let b := ws.getD 0 0
  let fits (n : Nat) := ws.all (fun w => wrapInt ((b : Int) + sextInt (wrapInt ((w : Int) - b) 32) n) 32 = w)
  if ws.all (· = 0) then 0 else if ws.all (· = b) then 4 else if fits 8 then 2 else if fits 16 then 3 else 1

/-- The payload of a line under its scheme (R119, R121). -/
def compressLine (ws : List Nat) : Nat × List Byte :=
  let b := ws.getD 0 0
  match chooseScheme ws with
  | 0 => (0, [])
  | 4 => (4, natBytes 4 b)
  | 2 => (2, natBytes 4 b ++ ws.map (fun (w : Nat) => BitVec.ofNat 8 (wrapInt ((w : Int) - b) 8)))
  | 3 => (3, natBytes 4 b ++ ws.flatMap (fun (w : Nat) => natBytes 2 (wrapInt ((w : Int) - b) 16)))
  | _ => (1, ws.flatMap (natBytes 4))

/-- The image that the Sideboard writes for 2,048 bytes (R118, R121), padded with zeros to 17 chunks. -/
def compressBlock (bs : List Byte) : List Byte :=
  let lines16 := (List.range 16).map (fun n =>
    compressLine ((List.range 32).map (fun j => leNat ((bs.drop (128 * n + 4 * j)).take 4))))
  let hdr := (List.range 16).foldl (fun acc n => acc + (lines16.getD n (0, [])).1 * 16 ^ n) 0
  let pay := lines16.flatMap (·.2)
  let img := natBytes 8 hdr ++ [BitVec.ofNat 8 ((16 + pay.length + 127) / 128)] ++ List.replicate 7 0 ++ pay
  img ++ List.replicate (2176 - img.length) 0

/-- The overflow chunk's place for block b of home page h (R120). -/
def overflowAddr (h b : Nat) : Nat := (2 * h + b) * 128
/-- The image of block b of a packed home page (R120). -/
def blockImage (s : State) (c h b : Nat) : List Byte :=
  readBytes s.dram (homeAddr c h (2048 * b)) 2048 ++ readBytes (clusterOf s c).overflow (overflowAddr h b) 128
/-- Replace a block's image whole (R122, R154): 17 chunks. The chunks beyond the count of an image that the Sideboard writes, in the half and in
the overflow chunk, become zeros: no rule says what they hold (log entry 81). -/
def setBlockImage (s : State) (c h b : Nat) (img : List Byte) : State :=
  let s := { s with dram := writeBytes s.dram (homeAddr c h (2048 * b)) (img.take 2048) }
  modCluster s c (fun x => { x with overflow := writeBytes x.overflow (overflowAddr h b) (img.drop 2048) })

/-! ## Home pages as data -/

/-- The home of a page that a frame may hold is a home page of a cluster, or a page of host memory in a device-owned window (R412): the host
page at address 4096 h that partition p has framed counts as home page h of "cluster" 4 + p. -/
def hostHome (c : Nat) : Bool := Config.clusters ≤ c

/-- `n` bytes of a home page within one block: the DRAM bytes, or those of the expanded block; none for a refused image. -/
def homeRead (s : State) (c h : Nat) (pk : Bool) (off n : Nat) : Option (List Byte) :=
  if hostHome c then some (readBytes s.hostMem (4096 * h + off) n)
  else if pk then (expandBlock (blockImage s c h (off / 2048))).map (fun bs => (bs.drop (off % 2048)).take n)
  else some (readBytes s.dram (homeAddr c h off) n)
/-- Replace the bytes of a list from a position. -/
def splice (l : List Byte) (k : Nat) (bs : List Byte) : List Byte := l.take k ++ bs ++ l.drop (k + bs.length)
/-- Write bytes of a home page within one block; a packed block is merged and compressed anew (R122). -/
def homeWrite (s : State) (c h : Nat) (pk : Bool) (off : Nat) (bs : List Byte) : Option State :=
  if hostHome c then some { s with hostMem := writeBytes s.hostMem (4096 * h + off) bs }
  else if pk then
    (expandBlock (blockImage s c h (off / 2048))).map (fun blk =>
      setBlockImage s c h (off / 2048) (compressBlock (splice blk (off % 2048) bs)))
  else some { s with dram := writeBytes s.dram (homeAddr c h off) bs }

/-! ## The residence bitmap and pointer table (R365) -/

/-- The residence entry of a home page: absent when the bit is clear; `.home` when the bit is set and no frame is named yet. That of a host
page is the partition's (R412). -/
def residenceOf (s : State) (c h : Nat) : Option Place :=
  if hostHome c then nmGet h (partOf s (c - Config.clusters)).framed else nmGet h (clusterOf s c).residence
def setResidence (s : State) (c h : Nat) (p : Option Place) : State :=
  let put (l : NMap Place) : NMap Place := match p with
    | some q => nmPut h q l
    | none => nmDel h l
  if hostHome c then modPart s (c - Config.clusters) (fun x => { x with framed := put x.framed })
  else modCluster s c (fun x => { x with residence := put x.residence })

/-! ## Frames (R363) -/

def farFrame (s : State) (c sl f : Nat) : Frame := nmGetD (nmGetD (clusterOf s c).slices sl []) f .blank
def nearFrame (s : State) (core n : Nat) : Frame := nmGetD (coreOf s core).nears n .blank
def frameAt (s : State) (p : Place) : Frame :=
  match p with
  | .far c sl f => farFrame s c sl f
  | .near core n => nearFrame s core n
  | _ => .blank
def setFrame (s : State) (p : Place) (x : Frame) : State :=
  match p with
  | .far c sl f => modCluster s c (fun cl => { cl with slices := nmPut sl (nmPut f x (nmGetD cl.slices sl [])) cl.slices })
  | .near core n => modCore s core (fun co => { co with nears := nmPut n x co.nears })
  | _ => s
def modFrame (s : State) (p : Place) (f : Frame → Frame) : State := setFrame s p (f (frameAt s p))
def isFrame (p : Place) : Bool :=
  match p with
  | .far _ _ _ => true
  | .near _ _ => true
  | _ => false

/-- The near frames of a core: 16 per 64 KiB unit (R19, R340, R355). -/
def nearCount (c : Core) : Nat := bitsOf c.split.toNat 11 8 * 16

/-- Valid or dirty sectors, ascending. -/
def sectorsOf (b : BitVec 256) : List Nat := (List.range 256).filter (fun i => b.getLsbD i)

/-- A sector of a frame's page as the frame has it, or as its home does while the frame has not fetched it (R117, R366); none for a refused
packed image. -/
def frameSector (s : State) (f : Frame) (sec : Nat) : Option (List Byte) :=
  if f.valid.getLsbD sec then some (readBytes f.data (16 * sec) 16) else homeRead s f.hclu f.hpage f.pk (16 * sec) 16

/-- Make a sector of a frame valid by fetching it: from its home (R117, R366), or for a replica from the home frame (R137, R373). None
for a refused packed image. -/
def fetchSector (s : State) (p : Place) (sec : Nat) : Option State :=
  let f := frameAt s p
  if f.valid.getLsbD sec then some s
  else
    (frameSector s (match f.replicaOf with
      | some h => frameAt s h
      | none => f) sec).map (fun bs =>
      setFrame s p { f with data := writeBytes f.data (16 * sec) bs, valid := f.valid ||| BitVec.ofNat 256 (2 ^ sec) })

/-- A frame holds the page whose home is home page h of a cluster. A residence pointer goes on naming the source of a move home until the move
ends (R366), when that frame may hold another page already. -/
def Frame.holds (f : Frame) (c h : Nat) : Bool := f.state ≠ .free && f.hclu = c && f.hpage = h

/-- The move of a home page, wherever it goes. -/
def moveOf (s : State) (c h : Nat) : Option Move :=
  (s.moves.find? (fun m => m.2.hclu = c && m.2.hpage = h)).map (·.2)

/-- Whether a home page that is framed or on the move is packed (R122), whichever page the frame that its residence pointer names holds by now. -/
def pagePk (s : State) (c h : Nat) : Bool :=
  match moveOf s c h with
  | some m => m.pk
  | none => (residenceOf s c h).any (fun q => (frameAt s q).holds c h && (frameAt s q).pk)

/-- A sector of a home page as it stands now, wherever its bytes are: in the frame that holds the page, at the source of a move until the
seal, then on the way, else at the move's destination (R366, R403). -/
def currentSector (s : State) (c h : Nat) (pk : Bool) (sec : Nat) : Option (List Byte) :=
  match moveOf s c h with
  | some m =>
    if isFrame m.src && !m.sealed then frameSector s (frameAt s m.src) sec
    else
      match m.sectors.reverse.find? (·.1 = sec) with
      | some x => some (readBytes x.2.2.2 0 16)
      | none => if isFrame m.dst then frameSector s (frameAt s m.dst) sec else homeRead s c h pk (16 * sec) 16
  | none =>
    match residenceOf s c h with
    | some q => if isFrame q then frameSector s (frameAt s q) sec else homeRead s c h pk (16 * sec) 16
    | none => homeRead s c h pk (16 * sec) 16
/-- `n` bytes within a sector of a home page as they stand now; zeros for a refused packed image. -/
def currentBytes (s : State) (c h : Nat) (pk : Bool) (off n : Nat) : List Byte :=
  match currentSector s c h pk (off / 16) with
  | some bs => (bs.drop (off % 16)).take n
  | none => List.replicate n 0

/-- The whole page of a home frame, as a replica takes it (R137, R373): its bytes, and the sectors that could be read. -/
def pageCopy (s : State) (h : Place) : Memory × BitVec 256 :=
  let f := frameAt s h
  let block (b : Nat) : Option (List Byte) := homeRead s f.hclu f.hpage true (2048 * b) 2048
  let base : Memory := if f.pk then
      writeBytes (writeBytes [] 0 ((block 0).getD [])) 2048 ((block 1).getD [])
    else if hostHome f.hclu then sliceRange s.hostMem (4096 * f.hpage) 4096
    else sliceRange s.dram (homeAddr f.hclu f.hpage 0) 4096
  let half : Nat := 2 ^ 128 - 1
  let known : BitVec 256 := if f.pk then
      BitVec.ofNat 256 ((if (block 0).isSome then half else 0) + (if (block 1).isSome then half * 2 ^ 128 else 0))
    else BitVec.ofNat 256 (2 ^ 256 - 1)
  ((sectorsOf f.valid).foldl (fun m k => writeBytes m (16 * k) (readBytes f.data (16 * k) 16)) base, known ||| f.valid)

/-! ## The leaf (R354, R355) -/

structure Leaf where
  raw : Nat
  place : Place
  ten : Nat
  bind : Nat
  rep : Nat
  pk : Bool
  pin : Bool
  g : Bool
  u : Bool
  x : Bool
  w : Bool
  big : Bool
  deriving DecidableEq, Repr, Inhabited

/-- The place that a leaf's loc names by its kind (R355). -/
def placeOfLoc (kind loc : Nat) : Place :=
  match kind with
  | 0 => .home (loc / 2 ^ 30) (loc % 2 ^ 25)
  | 1 => .near (192 * (loc / 2 ^ 30) + loc / 2 ^ 22 % 256) (loc / 2 ^ 14 % 256)
  | 2 => .far (loc / 2 ^ 30) (loc / 2 ^ 23 % 128) (loc / 2 ^ 14 % 512)
  | _ => .ext (loc % 256)
/-- The kind and loc that name a place (R355). -/
def locOfPlace (p : Place) : Nat × Nat :=
  match p with
  | .home c h => (0, c * 2 ^ 30 + h)
  | .near core n => (1, core / 192 * 2 ^ 30 + core % 192 * 2 ^ 22 + n * 2 ^ 14)
  | .far c sl f => (2, c * 2 ^ 30 + sl * 2 ^ 23 + f * 2 ^ 14)
  | .ext i => (3, i)
  | .pool _ => (0, 0)
  | .host _ => (0, 0)
  | .peer _ _ => (0, 0)

def leafOf (e : Nat) (big : Bool) : Leaf :=
  { raw := e, place := placeOfLoc (bitsOf e 5 4) (bitsOf e 63 32), ten := bitsOf e 27 16, bind := bitsOf e 15 8,
    rep := bitsOf e 7 6, pk := bitOf e 28, pin := bitOf e 29, g := bitOf e 30, u := bitOf e 3, x := bitOf e 2, w := bitOf e 1,
    big := big }

/-- The cluster a place lies in. -/
def placeCluster (p : Place) : Option Nat :=
  match p with
  | .home c _ => some c
  | .far c _ _ => some c
  | .near core _ => some (core / 192)
  | .pool a => some (poolCluster a)
  | .ext _ => none
  | .host _ => none
  | .peer _ _ => none

/-- A leaf that R359 refuses. One of kind home with a number that no home page has (R112) is refused in the same way (DESIGN CHOICE, log
entry 90). -/
def leafBad (s : State) (e : Nat) (big : Bool) : Bool :=
  let loc := bitsOf e 63 32
  let kind := bitsOf e 5 4
  let reserved := match kind with
    | 0 => bitsOf loc 29 25 ≠ 0
    | 1 => bitsOf loc 13 0 ≠ 0
    | 2 => bitsOf loc 13 0 ≠ 0
    | _ => bitsOf loc 31 8 ≠ 0
  let absent := match placeOfLoc kind loc with
    | .home _ h => Config.pointerPages ≤ h
    | .near core n => 192 ≤ loc / 2 ^ 22 % 256 || nearCount (coreOf s core) ≤ n
    | .far _ sl _ => 96 ≤ sl
    | _ => false
  reserved || bitsOf e 7 6 = 3 || absent || (!big && bitOf e 31) ||
    (big && !(kind = 0 && bitOf e 29 && bitsOf e 7 6 = 0 && bitsOf e 27 16 = 0 && !bitOf e 28 && loc % 2 ^ 25 % 512 = 0))

/-! ## Errors of the vertical buses (R425, R427, R428) -/

/-- The core whose vertical buses reach a place: the column beneath it holds home pages and pool bytes, and its Shelf bonds lead to the
frames of the slice at its node (R17, R427). -/
def busOf (p : Place) : Option Nat :=
  match p with
  | .home c h => some (192 * c + h % 192)
  | .pool a => some (192 * poolCluster a + poolColumn a)
  | .far c sl _ => some (192 * c + sliceCore sl)
  | _ => none
/-- One of a core's vertical buses has a worn lane (R428). -/
def busWorn (s : State) (bus : Nat) : Bool := (nmGetD s.mgmt.buses bus []).any (fun g => g.2.worn ≠ [])
/-- An access crosses a core's vertical buses. Where one of them has a worn lane channel ECC corrects what it can (R428; log entry 54): whether
the error stays, and the state in which the lifetime record has counted it (R425) for the storage unit, a DRAM column by its core or the
Shelf above the core as 768 more. -/
def meetEcc (s : State) (bus : Nat) (shelf : Bool) : Bool × State :=
  if !busWorn s bus then (false, s)
  else
    let bad := Config.eccFails s.free
    (bad, lrBump { s with free := s.free + 1 } (if bad then 4 else 3) (if shelf then 768 + bus else bus) 0 (2 ^ 32 - 1))
/-- Several crossings, each of a DRAM column or of the Shelf bonds (`true`), up to the first error. -/
def meetAll : List (Nat × Bool) → State → Bool × State
  | [], s => (false, s)
  | b :: l, s =>
    match meetEcc s b.1 b.2 with
    | (true, s) => (true, s)
    | (false, s) => meetAll l s

/-! ## Reading a table page (R358, R362) -/

/-- How many frames of a slice hold table pages. -/
def tableFrames (s : State) (c sl : Nat) : Nat := ((nmGetD (clusterOf s c).slices sl []).filter (fun p => p.2.tbl)).length
/-- The lowest free frame of a slice that is not quarantined (R402). -/
def freeFar (s : State) (c sl : Nat) : Option Nat :=
  (List.range Config.framesPerSlice).find? (fun f => (farFrame s c sl f).state = .free)

/-- The Sideboard agent holds a table page in a table frame of slice h mod 96, if it can (R362). -/
def holdTable (s : State) (c h aspace : Nat) : State :=
  match residenceOf s c h with
  | some p => modFrame s p (fun f => if f.tbl && f.holds c h && !f.users.contains aspace then { f with users := aspace :: f.users } else f)
  | none =>
    if 64 ≤ tableFrames s c (h % 96) then s
    else
      match freeFar s c (h % 96) with
      | none => s
      | some n =>
        let p := Place.far c (h % 96) n
        let f := frameAt s p
        let s := setFrame s p { Frame.blank with
          ten := f.ten, state := .resident, tbl := true, hclu := c, hpage := h, aspace := aspace, users := [aspace] }
        setResidence s c h (some p)

/-- Read 8 bytes of a table page where it lives (R358): the frame when the home is framed, else DRAM. -/
def tableRead (s : State) (c h off aspace : Nat) : Nat × State :=
  let s := holdTable s c h aspace
  match residenceOf s c h with
  | some p =>
    if isFrame p then
      (leNat (currentBytes s c h (pagePk s c h) off 8), if (frameAt s p).tbl && (frameAt s p).holds c h then (fetchSector s p (off / 16)).getD s else s)
    else (readLE s.dram (homeAddr c h off) 8, s)
  | none => (readLE s.dram (homeAddr c h off) 8, s)

/-- The outcome of a translation: a leaf and the offset of the byte in its place's page, or a fault code; the code 0, which R10 does not use,
stands for a walk that must wait. -/
inductive Walk where
  | leaf (l : Leaf) (h : Nat)
  | fault (code : Nat)
  deriving DecidableEq, Repr, Inhabited

/-- Whether a frame takes an access of some tenure: accepted, held while it fills, or bounced (R364, R136). -/
def frameTakes (f : Frame) (ten : Nat) : Option Bool :=
  if f.ten ≠ ten then none
  else
    match f.state with
    | .resident => if f.locked then some false else some true
    | .moving => some true
    | .filling => some f.srcSealed
    | _ => none
/-- A sector that a move still carries to a frame (R366, R403). -/
def sectorComing (s : State) (p : Place) (sec : Nat) : Bool :=
  s.moves.any (fun m => m.2.dst = p && m.2.sectors.any (fun x => x.1 = sec))
/-- A walker's read of a table page is an access to that page: a frame that fills holds it until the seal notice and the bytes have come
(R364, R403), and after the seal of a move home it waits for that move (R365). -/
def walkWaits (s : State) (c t off : Nat) : Bool :=
  match residenceOf s c t with
  | some q =>
    let f := frameAt s q
    isFrame q && (!f.holds c t || frameTakes f f.ten ≠ some true || sectorComing s q (off / 16))
  | none => false

/-- The bus to a home page's column, and the Shelf bonds of a far frame (R427). -/
def columnBus (c h : Nat) : List (Nat × Bool) := if hostHome c then [] else [(192 * c + h % 192, false)]
def shelfBus (p : Place) : List (Nat × Bool) :=
  match p, busOf p with
  | .far _ _ _, some b => [(b, true)]
  | _, _ => []
/-- The buses that a read of a home page crosses (R427): those of the frame that holds the page, when it is a far frame, and before them those of
the page's column when the frame has yet to fetch the sector, or when no frame holds the page. -/
def readBuses (s : State) (c t off : Nat) : List (Nat × Bool) :=
  match residenceOf s c t with
  | some q => if isFrame q then (if (frameAt s q).valid.getLsbD (off / 16) then [] else columnBus c t) ++ shelfBus q else columnBus c t
  | none => columnBus c t

/-- A walker's read of an entry (R358): it may wait (code 0), or meet an error (R428). The agents and the device read the same bytes as they
stand, wherever they are on their way (`live` is false; log entry 5). -/
def walkRead (live : Bool) (s : State) (c t off aspace : Nat) : Except Nat Nat × State :=
  if live && walkWaits s c t off then (.error 0, s)
  else
    let s := holdTable s c t aspace
    match (if live then meetAll (readBuses s c t off) s else (false, s)) with
    | (true, s) => (.error 0x15, s)
    | (false, s) =>
      let (e, s) := tableRead s c t off aspace
      (.ok e, s)

/-- The walk below one level (R358): `l` is the level of the page (c, t). A table pointer to a page of R357, or to a home page that there is not
(R112), raises 0x04 (DESIGN CHOICE, log entry 90). -/
def walkFrom (live : Bool) (part aspace va : Nat) : Nat → Nat → Nat → State → Walk × State
  | l, c, t, s =>
    let idx := va / 2 ^ (12 + 9 * l) % 512
    match walkRead live s c t (8 * idx) aspace with
    | (.error c, s) => (.fault c, s)
    | (.ok e, s) =>
    if !bitOf e 0 then (.fault 0x04, s)
    else
      let big := l = 1 && bitOf e 31
      let isLeaf := l = 0 || big
      let loc := bitsOf e 63 32
      let named := if isLeaf && bitsOf e 5 4 = 3 then true else inPartition s part (loc / 2 ^ 30)
      if !named then (.fault 0x0E, s)
      else if isLeaf then (if leafBad s e big then (.fault 0x04, s) else (.leaf (leafOf e big) 0, s))
      else if bitsOf e 31 1 ≠ 0 ∨ bitsOf loc 29 25 ≠ 0 ∨ Config.pointerPages ≤ loc % 2 ^ 25 then (.fault 0x04, s)
      else
        match l with
        | 0 => (.fault 0x04, s)
        | l' + 1 => walkFrom live part aspace va l' (loc / 2 ^ 30) (loc % 2 ^ 25) s

/-- Walk from a descriptor (R338, R358). Of a root only the cluster, the column and the page count: R111's other bits and its low 12 bits are
dropped, and a column that is absent goes into the home page formula as it stands (DESIGN CHOICE, log entry 89). -/
def walkRoot (live : Bool) (s : State) (part aspace desc va : Nat) : Walk × State :=
  let root := desc / 2 ^ 64
  if !bitOf desc 0 then (.fault 0x04, s)
  else if !inPartition s part (poolCluster root) then (.fault 0x0E, s)
  else walkFrom live part aspace va 3 (poolCluster root) (poolHome root) s

/-- The home place that a leaf gives a page of a 2 MiB leaf, or its own place (R359). -/
def leafPlace (l : Leaf) (va : Nat) : Place :=
  if l.big then
    match l.place with
    | .home c h => .home c (h + va / 4096 % 512)
    | p => p
  else l.place

/-- A window entry of 32 bytes (R409). -/
structure Window where
  vbase : Nat
  tbase : Nat
  size : Nat
  kind : Nat
  port : Nat
  perm : Nat
  deriving DecidableEq, Repr, Inhabited
def windowOf (s : State) (part i : Nat) : Window :=
  let m := (partOf s part).windows
  let f (o n : Nat) := readLE m (32 * i + o) n
  ⟨f 0 8, f 8 8, f 16 8, f 24 1, f 25 1, f 26 1⟩

/-- What an access asks of its page. -/
inductive Need where
  | read | write | exec
  deriving DecidableEq, Repr, Inhabited

/-- The checks at the port die (R410, R411, R123, R243, R415). A refusal sets `events` bit 4, at a peer's window as at the host's (log entry 74). The
release write of REL counts as an atomic that R123 allows, and needs the entry's write bit alone (log entry 57). -/
def windowCheck (s : State) (part idx va : Nat) (need : Need) (acc : Acc) : Option Nat × State :=
  let w := windowOf s part idx
  let off : Int := (va : Int) - w.vbase
  let atomBad : Bool := match acc with
    | .atom op _ _ _ => w.kind = 1 && !(op = .add || op = .xchg || op = .cas)
    | .plst _ _ => w.kind = 1
    | .relBump => false
    | _ => false
  let needsRead : Bool := match acc with
    | .read => true
    | .atom _ _ _ _ => true
    | _ => false
  let bad (code : Nat) : Option Nat × State :=
    (some code, if w.kind = 1 ∨ w.kind = 2 then { s with mgmt := { s.mgmt with events := s.mgmt.events ||| 16 } } else s)
  if w.kind ≠ 1 ∧ w.kind ≠ 2 then (some 0x04, s)
  else if off < 0 ∨ (w.size : Int) ≤ off then bad 0x05
  else if (need = .write ∧ !bitOf w.perm 1) ∨ (needsRead ∧ !bitOf w.perm 0) then bad 0x05
  else if atomBad then bad 0x05
  else if w.kind = 2 ∧ !(nmGetD s.gemar w.port ⟨false, 0, 0, 0⟩).up then (some 0x0D, s)
  else (none, s)

/-- The byte that an access through an external leaf goes to, once the port die has let it through (R410, R411). -/
def windowPlace (s : State) (part idx va : Nat) (need : Need) (acc : Acc) : Except Nat Place × State :=
  match windowCheck s part idx va need acc with
  | (some c, s) => (.error c, s)
  | (none, s) =>
    let w := windowOf s part idx
    let a := w.tbase + (va - w.vbase)
    (.ok (if w.kind = 1 then .host a else .peer w.port a), s)

/-- The page lies in a window that the host has marked device-owned, entry `idx` (R412): its host page. -/
def ownedPage (s : State) (part idx va : Nat) : Option Nat :=
  let w := windowOf s part idx
  if w.kind = 1 && bitOf w.perm 2 && w.vbase ≤ va && va < w.vbase + w.size then some ((w.tbase + (va - w.vbase)) / 4096) else none
/-- The home that the leaf of a framed page names when it comes home: its home page, or for a host page the window entry that serves the
page (R412). -/
def homePlace (s : State) (part vpage c h : Nat) : Place :=
  if hostHome c then .ext (((List.range 256).find? (fun i => ownedPage s part i (4096 * vpage) = some h)).getD 0) else .home c h

/-- Read bytes within a sector at the place that a leaf names, for the device's reads of its own tables (R338). -/
def peekPlace (s : State) (p : Place) (pk : Bool) (va n : Nat) : List Byte :=
  let off := va % 4096
  match p with
  | .home c h => currentBytes s c h pk off n
  | .pool a => readBytes s.dram a n
  | .host a => readBytes s.hostMem a n
  | .peer port a => readBytes (nmGetD s.peerMem port []) a n
  | .ext _ => List.replicate n 0
  | q => currentBytes s (frameAt s q).hclu (frameAt s q).hpage (frameAt s q).pk off n

/-- The address of an address space's descriptor in the table at `as_base` (R338). -/
def descAddr (s : State) (part aspace : Nat) : Nat := (partOf s part).asBase + 16 * aspace
/-- Where that descriptor lies, and whether its page is packed; none where no page can be read there: one that the port die refuses to read is
not valid (R411, R422). Until a supervisor writes `as_base`, the table lies at that offset of the partition's first cluster's pool (log entry
10). An `as_base` in the pool window of the supervisor who wrote it is translated by the window's rule (R113). A walker's own walk to it may wait
(code 0) or meet an error (R428). -/
def descPlace (live : Bool) (s : State) (part aspace : Nat) : Except Nat (Option (Place × Bool)) × State :=
  let p := partOf s part
  let a := descAddr s part aspace
  match p.asSpace with
  | none => (.ok (some (.home ((partClusters s.layout part).headD 0) (poolHome (a - a % 4096)), false)), s)
  | some own =>
    let d := nmGetD p.descs own 0
    if inPool a then
      let x := poolAddr p.asCluster a
      (.ok (if bitOf d 0 && bitOf d 1 && !poolAbsent x then some (.pool x, false) else none), s)
    else
    match walkRoot live s part own d a with
    | (.leaf l _, s) =>
      (match (match l.place with
        | .ext idx => windowPlace s part idx a .read .read
        | _ => (.ok (leafPlace l a), s)) with
      | (.ok pl, s) => (.ok (some (pl, l.pk)), s)
      | (.error _, s) => (.ok none, s))
    | (.fault c, s) => (if live && (c = 0 || c = 0x15) then .error c else .ok none, s)
/-- Read the descriptor of an address space (R338). -/
def readDescriptor (s : State) (part aspace : Nat) : Nat × State :=
  let a := descAddr s part aspace
  match descPlace false s part aspace with
  | (.ok (some (pl, pk)), s) => (leNat (peekPlace s pl pk a 16), s)
  | (_, s) => (0, s)
/-- Read it anew for the walks that begin from now on: at its first use, and at the TFLUSH that follows a change (R338). -/
def loadDescriptor (s : State) (part aspace : Nat) : Nat × State :=
  let (d, s) := readDescriptor s part aspace
  (d, modPart s part (fun p => { p with descs := nmPut aspace d p.descs }))
/-- The descriptor that walks of an address space go by (R338). -/
def descriptor (s : State) (part aspace : Nat) : Nat × State :=
  match nmGet aspace (partOf s part).descs with
  | some d => (d, s)
  | none => loadDescriptor s part aspace

/-- A walker's read at a place is held while the frame there waits for the seal notice or for its bytes (R364, R403). -/
def placeWaits (s : State) (p : Place) (off : Nat) : Bool :=
  match p with
  | .home c h => walkWaits s c h off
  | q => isFrame q && walkWaits s (frameAt s q).hclu (frameAt s q).hpage off
/-- The buses that a walker's read at a place crosses (R427). -/
def placeBuses (s : State) (p : Place) (off : Nat) : List (Nat × Bool) :=
  match p with
  | .home c h => readBuses s c h off
  | .pool a => [(192 * poolCluster a + poolColumn a, false)]
  | q => if isFrame q then readBuses s (frameAt s q).hclu (frameAt s q).hpage off else []
/-- The descriptor that a walk goes by: one that the walker has yet to read may be held (code 0) or meet an error (R338, R403, R428). -/
def walkDescriptor (s : State) (part aspace : Nat) : Except Nat Nat × State :=
  match nmGet aspace (partOf s part).descs with
  | some d => (.ok d, s)
  | none =>
    let off := descAddr s part aspace % 4096
    match descPlace true s part aspace with
    | (.error c, s) => (.error c, s)
    | (.ok x, s) =>
      if x.any (fun q => placeWaits s q.1 off) then (.error 0, s)
      else
        match meetAll (x.elim [] (fun q => placeBuses s q.1 off)) s with
        | (true, s) => (.error 0x15, s)
        | (false, s) =>
          let (d, s) := loadDescriptor s part aspace
          (.ok d, s)
/-- TFLUSH with partition reach has the descriptor read anew (R338); where that read meets an error, the next walk reads it (R428). -/
def reloadDescriptor (s : State) (part aspace : Nat) : State :=
  match descPlace false s part aspace with
  | (.ok (some q), s) =>
    (match meetAll (placeBuses s q.1 (descAddr s part aspace % 4096)) s with
    | (true, s) => modPart s part (fun p => { p with descs := nmDel aspace p.descs })
    | (false, s) => (loadDescriptor s part aspace).2)
  | (_, s) => (loadDescriptor s part aspace).2

/-- The leaf that a page has now, read for an agent. -/
def leafNow (s : State) (part aspace va : Nat) : Option Leaf :=
  let (d, s) := descriptor s part aspace
  match (walkRoot false s part aspace d va).1 with
  | .leaf l _ => some l
  | .fault _ => none

/-- Bytes that a placement agent carries over some buses: it is no group that a fault could reach, so an error that ECC cannot correct leaves
them undefined (R428; log entry 54). -/
def carried (s : State) (buses : List (Nat × Bool)) (bs : List Byte) : List Byte × State :=
  match meetAll buses s with
  | (true, s) => drawBytes s bs.length
  | (false, s) => (bs, s)
/-- The whole page of a home frame as it reaches a replica. -/
def carriedPage (s : State) (h : Place) : (Memory × BitVec 256) × State :=
  let f := frameAt s h
  let x := pageCopy s h
  let whole : Bool := f.valid.toNat = 2 ^ 256 - 1
  match meetAll ((if whole then [] else columnBus f.hclu f.hpage) ++ shelfBus h) s with
  | (true, s) =>
    let (bs, s) := drawBytes s 4096
    ((writeBytes [] 0 bs, x.2), s)
  | (false, s) => (x, s)

/-- A replica is read anew from its home frame (R137). -/
def refreshFrame (s : State) (core n : Nat) (home : Place) : State :=
  let (x, s) := carriedPage s home
  modFrame s (.near core n) (fun f => { f with data := x.1, valid := x.2 })
/-- Refresh the loose replicas that a core holds of the pages of a binding (0: of any page) (R133, R134, R137): the binding and the mode are
those of the page's leaf. A replica is read anew whole at one moment (log entry 87). -/
def refreshReplicas (s : State) (core bind : Nat) : State :=
  let part := partOfCluster s.layout (clusterOfCore core)
  let due (f : Frame) : Bool := match leafNow s part f.aspace (f.vpage * 4096) with
    | some l => l.rep ≠ 1 && (bind = 0 || l.bind = bind)
    | none => true
  ((coreOf s core).nears.filter (fun p => due p.2)).foldl (fun s p => (p.2.replicaOf.map (refreshFrame s core p.1)).getD s) s

/-! ## The stash (R360) -/

def StashEntry.leafOf (e : StashEntry) : Leaf := Machine.leafOf e.leaf e.big
def StashEntry.hits (e : StashEntry) (aspace va : Nat) : Bool :=
  (e.aspace = aspace || e.leafOf.g) && (if e.big then va / 2 ^ 21 = e.vpage / 512 else va / 4096 = e.vpage)
def stashFind (s : State) (core aspace va : Nat) : Option StashEntry := (coreOf s core).stash.find? (fun e => e.hits aspace va)
/-- The replica of a page's home frame that a core holds, as its frame and tenure (R373). -/
def replicaOn (s : State) (core : Nat) (l : Leaf) : Option (Nat × Nat) :=
  if l.rep = 0 then none
  else ((frameAt s l.place).repl.find? (fun q => q.1 = core)).map (fun q => (q.2, (nearFrame s core q.2).ten))
/-- Install a leaf (R360): 512 entries for 4 KiB leaves, 64 for 2 MiB; the oldest goes. -/
def stashInstall (s : State) (core aspace va : Nat) (l : Leaf) : State :=
  let col := (clusterOf s (clusterOfCore core)).colour
  let e : StashEntry := ⟨aspace, va / 4096, l.raw, l.big, replicaOn s core l, col⟩
  modCore s core (fun c =>
    let same := c.stash.filter (fun x => x.big = l.big)
    let other := c.stash.filter (fun x => x.big ≠ l.big)
    { c with stash := (e :: same).take (if l.big then 64 else 512) ++ other })
/-- Remove the entries that translate a page (R360, R369, R371). -/
def stashDrop (s : State) (core aspace va : Nat) : State :=
  modCore s core (fun c => { c with stash := c.stash.filter (fun e => !e.hits aspace va) })

/-! ## Translating an access (R113, R237, R358) -/

/-- A translated address. -/
structure Xlat where
  place : Place
  ten : Nat
  bind : Nat
  rep : Nat
  pk : Bool
  replica : Option (Nat × Nat)
  pin : Bool
  ext : Bool
  deriving DecidableEq, Repr, Inhabited

/-- The leaf for an address by the stash or a walk, which installs it (R358, R360). An entry from before a change of the layout may name a
cluster that is outside the partition now (R337). -/
def lookupLeaf (s : State) (core part aspace va : Nat) : Walk × Option (Nat × Nat) × State :=
  match stashFind s core aspace va with
  | some e => if (placeCluster e.leafOf.place).all (inPartition s part) then (.leaf e.leafOf 0, e.replica, s) else (.fault 0x0E, none, s)
  | none =>
    match walkDescriptor s part aspace with
    | (.error c, s) => (.fault c, none, s)
    | (.ok d, s) =>
      match walkRoot true s part aspace d va with
      | (.leaf l h, s) => (.leaf l h, replicaOn s core l, stashInstall s core aspace va l)
      | (.fault c, s) => (.fault c, none, s)

/-- What an access finds at a leaf: V, W for a write, X for a fetch and U in user mode (R237), the window checks of an external leaf
(R410), or the place. An access that the port die lets through goes to the byte it names now (R411). -/
def leafXlat (s : State) (part va : Nat) (user : Bool) (need : Need) (acc : Acc) (l : Leaf) (rp : Option (Nat × Nat)) :
    Except Nat Xlat × State :=
  if (user && !l.u) || (need = .write && !l.w) || (need = .exec && !l.x) then (.error 0x05, s)
  else
    match l.place with
    | .ext idx =>
      match windowPlace s part idx va need acc with
      | (.error c, s) => (.error c, s)
      | (.ok p, s) => (.ok ⟨p, 0, l.bind, 0, false, none, l.pin, true⟩, s)
    | _ => (.ok ⟨leafPlace l va, l.ten, l.bind, l.rep, l.pk, rp, l.pin, false⟩, s)

/-- Translate one byte address for an access of a team on a core: its place and tenure, or a fault code. The page of the pool
window is readable and writable and never executable (R113); a page needs V, W for a write, X for a fetch and U in user mode
(R237). -/
def translate (s : State) (core part aspace va : Nat) (user : Bool) (need : Need) (acc : Acc) : Except Nat Xlat × State :=
  if inPool va then
    let a := poolAddr (clusterOfCore core) va
    match walkDescriptor s part aspace with
    | (.error c, s) => (.error c, s)
    | (.ok d, s) =>
    if !(bitOf d 0 && bitOf d 1) then (.error 0x04, s)
    else if need = .exec then (.error 0x05, s)
    else if poolAbsent a then (.error 0x05, s)
    else (.ok ⟨.pool a, 0, 0, 0, false, none, false, false⟩, s)
  else
    let (w, rp, s) := lookupLeaf s core part aspace va
    match w with
    | .fault c => (.error c, s)
    | .leaf l _ => leafXlat s part va user need acc l rp

end Sys2Proof.Machine
end

