-- ==== Sys2Proof/Machine/Issue.lean ====
section
/-! DEFINITION. Issuing an instruction: the decode-time checks in their order (R182), waits on outstanding results and on
shared registers (R40, R47), then the instruction's own effect, and what every instruction does when it has issued (R39,
R44, R183, R200). -/

namespace Sys2Proof.Machine

/-! ## What is outstanding -/

/-- The registers that a request's destination names; a write to s0 is discarded and leaves nothing outstanding (R55). -/
def destRegs (d : Dest) : List RegName :=
  match d with
  | .none => []
  | .lane reg _ size => (List.range (if size = 5 then 2 else 1)).map (fun i => .v (reg + i))
  | .scalar reg _ => if reg = 0 then [] else [.s reg]
  | .plane reg _ _ _ => [.v reg]

/-- The request inside a message, if it is on its way or its result is. -/
def Msg.req : Msg → Option MemReq
  | .mem r => some r
  | .bounced r => some r
  | .parked r _ => some r
  | .sector r _ => some r
  | .result r _ => some r
  | .commit r _ _ _ => some r
  | _ => none

/-- The registers of a group for which a message still brings a result (R40). -/
def Msg.brings (tid gid : Nat) (m : Msg) : List RegName :=
  match m.req with
  | some r => if r.team = tid ∧ r.group = gid then destRegs r.dest else []
  | none =>
    match m with
    | .rload t g _ _ _ d _ _ => if t = tid ∧ g = gid then destRegs d else []
    | _ => []

/-- Every register of a group whose long-latency result is outstanding (R40). -/
def outstanding (s : State) (tid gid core : Nat) : List RegName :=
  s.flight.flatMap (fun p => p.2.brings tid gid) ++
  (coreOf s core).preds.flatMap (fun p =>
    if p.team = tid ∧ p.group = gid then .v p.d :: (match p.xd with
      | some x => [RegName.v x]
      | none => []) else []) ++
  (coreOf s core).drains.flatMap (fun p =>
    if p.team = tid ∧ p.group = gid ∧ p.dst = 6 then (List.range 4).map (fun i => RegName.v (p.vd + i)) else [])

/-- The registers an instruction names; nothing is ever outstanding for s0 (R55). -/
def Uses.names (u : Uses) : List RegName :=
  ((u.codes.filter (· < 56)) ++ u.reads ++ u.writes).map .v ++ ((u.sreads ++ u.swrites).filter (· ≠ 0)).map .s
/-- The registers into which a load or an atomic brings a result later (R239). -/
def Uses.brought (u : Uses) : List RegName := u.writes.map .v ++ (u.swrites.filter (· ≠ 0)).map .s

/-- The vector registers an instruction names that the budget check sees (R57). -/
def Uses.vregs (u : Uses) : List Nat := u.codes.filter (· < 56) ++ u.reads ++ u.writes
/-- Every vector register it names lies in the budget or in the pairing (R57). -/
def budgetOk (t : Team) (g : Group) (u : Uses) : Bool := u.vregs.all (fun n => (t.row g n).isSome)

/-! ## Shared registers (R46, R47) -/

def Team.isFull (t : Team) (k : Nat × Nat) : Bool := t.full.contains k
def Team.setFull (t : Team) (k : Nat × Nat) : Team := if t.isFull k then t else { t with full := k :: t.full }
def Team.setEmpty (t : Team) (k : Nat × Nat) : Team := { t with full := t.full.filter (· ≠ k) }
def sharedOf (t : Team) (g : Group) (l : List Nat) : List (Nat × Nat) := (l.filterMap (t.shared g)).eraseDups
/-- A result written into a shared register sets it full (R47). -/
def Team.fillShared (t : Team) (g : Group) (n : Nat) : Team :=
  match t.shared g n with
  | some k => t.setFull k
  | none => t

/-- What R47 makes of the shared registers of an instruction: whether it must wait (and whether its peeking reads are done),
or the bits after its reads and, for results written at once, after its write. `seen`: the reads were found full before. -/
def sharedWait (t : Team) (g : Group) (u : Uses) (peek seen : Bool) : Option Bool :=
  let rd := sharedOf t g (u.codes.filter (· < 56) ++ u.reads)
  let wr := sharedOf t g u.writes
  if !(seen && peek) && !rd.all t.isFull then some false
  else if wr.all (fun k => !t.isFull k || (rd.contains k && !peek)) then none
  else some (rd.all t.isFull && peek)
def sharedStep (t : Team) (g : Group) (u : Uses) (peek : Bool) : Team :=
  let rd := sharedOf t g (u.codes.filter (· < 56) ++ u.reads)
  let wr := sharedOf t g u.writes
  let t := if peek then t else rd.foldl Team.setEmpty t
  if u.long then t else wr.foldl Team.setFull t

/-! ## REPEAT and the program counter -/

/-- The next pc, and the REPEAT state, when a non-hint instruction of the group has issued (R200). -/
def advance (g : Group) : Group :=
  let next := (g.pc + 4) % 2 ^ 48
  match g.rep with
  | none => { g with pc := next }
  | some r =>
    if r.pos + 1 < r.len then { g with pc := next, rep := some { r with pos := r.pos + 1 } }
    else if r.remaining = 0 then { g with pc := next, rep := none }
    else { g with pc := r.first, rep := some { r with pos := 0, remaining := r.remaining - 1 } }

/-- Make a group the youngest of the active set (R39): `active` is in age order, the oldest first. -/
def youngest (s : State) (core tid gid : Nat) : State :=
  modCore s core (fun c =>
    if c.active.contains (tid, gid) then { c with active := c.active.filter (· ≠ (tid, gid)) ++ [(tid, gid)] } else c)

/-- A group retires an instruction: it becomes the youngest and its team's watchdog starts again (R39, R53). -/
def retire (s : State) (core tid gid : Nat) : State :=
  let s := youngest s core tid gid
  modTeam s tid (fun t => { t with lastRetire := cycleAt s core, interval := (coreOf s core).wdog })

/-- Hold a group: its instruction stays to be issued again (R40). -/
def holdGroup (s : State) (tid gid core : Nat) (w : Wait) : State :=
  modGroup s tid gid (fun g => { g with wait := some w, since := if g.wait = some w then g.since else cycleAt s core })

/-- The address an instruction's fault restarts at: its first hint, or itself (R179). -/
def Group.restart (g : Group) : Nat := g.hints.first.getD g.pc

/-! ## Acquire holds and replicas -/

def MemReq.pool (r : MemReq) : Bool :=
  match r.place with
  | .pool _ => true
  | _ => false
/-- A read or an atomic of the group has not returned (R134, R253). Those of the pool window count only where `wide` holds: for fences at
`.clu` and wider (R114). -/
def readsOut (s : State) (tid gid : Nat) (wide : Bool) : Bool :=
  s.flight.any (fun m => match m.2.req with
    | some r => r.team = tid && r.group = gid && (match r.acc with
      | .write _ => false
      | .plst _ _ => false
      | .relBump => true
      | _ => wide || !r.pool)
    | none => match m.2 with
      | .rload t g _ _ _ _ _ _ => t = tid && g = gid
      | _ => false)

/-! ## Issue -/

/-- The decode-time conditions of R182, with the fault of the first that holds. -/
def decodeFault (t : Team) (g : Group) (i : Instr) : Option Nat :=
  let u := usesWith g.hints i
  if !i.wf t.header.ever || !hintsAccepted g.hints i || (g.rep.isSome && bannedInRepeat i) then some 0x01
  else if supervisorOnly i && !t.supervisor && !(match i with | .tflush _ _ al => al = 0 | _ => false) then some 0x12
  else if !budgetOk t g u then some 0x02
  else none

/-- Finish an instruction that has issued: what passing a first use or a hold at a yield point does to the latches (R41). -/
def afterYield (s : State) (tid gid : Nat) (y : Bool) : State := if y then passYield s tid gid else s

/-- Take a fault raised by the group's instruction (R179, R393). -/
def raiseFault (s : State) (tid gid : Nat) (g : Group) (code addr : Nat) (lanes : Mask) (aux scode restart : Nat) : State :=
  takeFault s tid gid ⟨code, g.index, restart, addr, lanes, scode, aux, false, 0, some g.restart, s.nextId, true⟩

/-- The group's reads are not yet performed, which its next instruction waits for (R248, R253). -/
def unperformed (s : State) (tid gid : Nat) (w : Option Wait) : Bool :=
  match w with
  | some (.performed wide) => readsOut s tid gid wide
  | _ => false

/-- A FENCE, ACQ or REL that has issued: a swap-out lets it finish (R254). -/
def finishing (w : Option Wait) (i : Instr) : Bool :=
  match w, i with
  | some (.release _), .rel _ _ => true
  | some (.release _), .fence _ _ => true
  | some .placeHome, .fence _ _ => true
  | some (.acquire _), .fence _ _ => true
  | some (.acquire _), .acq _ _ _ => true
  | _, _ => false

/-- An instruction of class 4 that brings a long-latency result, whose first use is always a yield point (R239); the use of the result of
a predicate or of an MDRAIN is one only while it is outstanding (R40, R326). -/
def bringsData (i : Instr) : Bool :=
  match i with
  | .ld _ _ _ _ _ => true
  | .lds _ _ _ _ _ => true
  | .sld _ _ _ => true
  | .plld _ _ _ _ _ => true
  | .atom _ _ _ _ _ => true
  | .atomx _ _ _ _ _ => true
  | .satom _ _ _ => true
  | _ => false

/-- How an instruction of the current group starts: it does nothing (its group is not there or waits for the end of a move, R369, its team is
stopping, or an atomic's reads are not performed), it meets a decode-time fault (R182), it is held (R40, R47), or it goes ahead from `s`: `c` is the team
and the group as they stand, and in `s'` the group has already moved past the instruction. -/
inductive Start where
  | idle
  | fault (code : Nat) (g : Group) (s : State)
  | held (w : Wait) (core : Nat) (s : State)
  | go (c : Ctx) (s s' : State)

/-- The state in which an instruction's own effect begins: the group has moved on (R200), has dropped its hints (R184), asks for no sector
any more unless the effect does so again (R117), and its reads and its writes of shared registers have changed their bits (R47). -/
def moveOn (i : Instr) (c : Ctx) (s : State) : State :=
  let u := usesWith c.g.hints i
  let long := if bringsData i then u.brought else []
  let s := modGroup s c.tid c.gid (fun x =>
    { advance { x with hints := .none, wait := none, sectors := [] } with
      fresh := x.fresh.filter (fun n => !u.names.contains n) ++ long })
  modTeam s c.tid (fun x => sharedStep x c.g u c.g.hints.peek)

/-- The start of an instruction of the current group: the checks of R182, then the waits of R40 and R47. -/
def start (i : Instr) (s : State) : Start :=
  let tid := s.cur.1
  let gid := s.cur.2
  match teamOf s tid, groupOf s tid gid with
  | some t, some g =>
    if (t.stopping && !finishing g.wait i) || !t.resident || g.fault.isSome || g.registered.isSome then .idle
    else if unperformed s tid gid g.wait then .idle
    else
      let s := if g.wait = some (.performed true) then refreshReplicas s t.core 0 else s
      match decodeFault t g i with
      | some code => .fault code g s
      | none =>
        let u := usesWith g.hints i
        let names := u.names
        let out := outstanding s tid gid t.core
        if names.any (fun n => out.contains n) then .held .longLat t.core s
        else
          match sharedWait t g u g.hints.peek (g.wait = some (.shared true)) with
          | some b => .held (.shared b) t.core s
          | none =>
            -- first uses and a hold that was a yield point make the latches undefined (R40, R41)
            let first := names.any (fun n => g.fresh.contains n)
            let held := match g.wait with
              | some .yielded => false
              | some w => w.yp
              | none => false
            let s0 := afterYield s tid gid (first || held)
            match teamOf s0 tid, groupOf s0 tid gid with
            | some t0, some g0 => .go ⟨tid, gid, t0, g0⟩ s (moveOn i ⟨tid, gid, t0, g0⟩ s0)
            | _, _ => .idle
  | _, _ => .idle

/-- What an instruction's own effect comes to for its group (R39, R40, R179): it retires; it faults, in the state `s` from which it
went ahead but for what the fault has left in the management block (R411, R425); or it is held in its place, with its hints and its shared
registers as they were. -/
def conclude (c : Ctx) (s : State) : Eff → State
  | .done s => retire s c.t.core c.tid c.gid
  | .refused s' code addr lanes => raiseFault { s with mgmt := s'.mgmt, free := s'.free } c.tid c.gid c.g code addr lanes 0 0 c.g.restart
  | .fault code addr lanes aux scode => raiseFault s c.tid c.gid c.g code addr lanes aux scode c.g.restart
  | .hold w s =>
    let s := modGroup s c.tid c.gid (fun x => { x with pc := c.g.pc, hints := c.g.hints, rep := c.g.rep, fresh := c.g.fresh })
    let s := modTeam s c.tid (fun x => { x with full := c.t.full })
    holdGroup s c.tid c.gid c.t.core w

/-- Issue an instruction of the current group: its start, then its own effect `body`. -/
def issue (i : Instr) (body : Ctx → State → Eff) (s : State) : Host.Outcome State Fault Refusal :=
  match start i s with
  | .idle => .next s
  | .fault code g s' =>
    .next (raiseFault s' s.cur.1 s.cur.2 g code 0 (if code = 0x01 then g.m0 else g.lanesOf i) 0 0 g.restart)
  | .held w core s' => .next (holdGroup s' s.cur.1 s.cur.2 core w)
  | .go c s₀ s₁ => .next (conclude c s₀ (body c s₁))

/-- An instruction whose effect lies in its own group alone. -/
def onGroup (f : Ctx → Group → Group) : Ctx → State → Eff := fun c s => .done (modGroup s c.tid c.gid (f c))
/-- An instruction whose effect is one scalar register. -/
def toScalar (d : BitVec 6) (f : Ctx → DWord) : Ctx → State → Eff := onGroup (fun c g => g.setS d.toNat (f c))

end Sys2Proof.Machine
end

