-- ==== Sys2Proof/Machine/Places.lean ====
section
/-! DEFINITION. Performing an access at its place: frames accept, hold or bounce it (R364), the Sideboard performs, bounces or
forwards it (R365), replicas follow (R136 to R138, R374), writes are counted where they are performed (R140, R142), and a
bounced request walks again and is replayed (R369). -/

namespace Sys2Proof.Machine

/-! ## Atomics (R245 to R247) -/

/-- The new value of an atomic and whether it writes (R245, R246). -/
def atomNew (op : AtomOp) (w : Nat) (old x y : Nat) : Nat × Bool :=
  let x := x % 2 ^ w
  let y := y % 2 ^ w
  let lo := if sextInt old w ≤ sextInt x w then old else x
  let hi := if sextInt old w ≤ sextInt x w then x else old
  match op with
  | .add => ((old + x) % 2 ^ w, true)
  | .band => (old &&& x, true)
  | .bor => (old ||| x, true)
  | .bxor => (old ^^^ x, true)
  | .smin => (lo, true)
  | .smax => (hi, true)
  | .xchg => (x, true)
  | .fadd => ((fpAdd fp32 .rne (decodeF fp32 old) (decodeF fp32 x)).bits, true)
  | .cas => if old = x then (y, true) else (old, false)
  | .incw => (if x ≤ old then 0 else old + 1, true)
  | .bfadd => if old + x < 2 ^ w ∧ old + x ≤ y then (old + x, true) else (old, false)
  | .minu => (min old x, true)
  | .maxu => (max old x, true)

/-- The op of ATOM, RED and SATOM (R245), and of ATOMX (R246). -/
def atomOp (c : BitVec 3) : AtomOp :=
  match c.toNat with
  | 0 => .add
  | 1 => .band
  | 2 => .bor
  | 3 => .bxor
  | 4 => .smin
  | 5 => .smax
  | 6 => .xchg
  | _ => .fadd
def atomxOp (c : BitVec 3) : AtomOp :=
  match c.toNat with
  | 0 => .cas
  | 1 => .incw
  | 2 => .bfadd
  | 3 => .minu
  | _ => .maxu

/-- What an access does to the bytes it finds: the bytes it returns and those it writes. -/
def applyAcc (a : Acc) (old : List Byte) : List Byte × Option (List Byte) :=
  match a with
  | .read => (old, none)
  | .write bs => ([], some bs)
  | .plst m b => ([], some (natBytes 8 ((leNat old &&& (2 ^ 64 - 1 - m.toNat)) ||| (b.toNat &&& m.toNat))))
  | .atom op wide x y =>
    let w := if wide then 64 else 32
    let (n, wr) := atomNew op w (leNat old) x.toNat y.toNat
    (old, if wr then some (natBytes (w / 8) n) else none)
  | .relBump => (old, some (natBytes 8 (leNat old + 256)))

def Acc.writes (a : Acc) : Bool := a ≠ .read
def Acc.need (a : Acc) : Need := if a.writes then .write else .read

/-! ## Counting points and places (R140) -/

def pointOf (p : Place) : Option CountPoint :=
  match p with
  | .home c h => some (.column c (h % 192))
  | .pool a => some (.column (poolCluster a) (poolColumn a))
  | .far c sl _ => some (.slice c sl)
  | .near core _ => some (.core core)
  | .ext _ => none
  | .host _ => none
  | .peer _ _ => none

/-- Note a send to the counting point of a place, or take it back (R140, R142). -/
def noteAt (s : State) (src : Source) (p : Place) (back : Bool) : State :=
  match pointOf p with
  | some pt => noteSent s src pt back
  | none => s

/-! ## Results -/

/-- Extend loaded bytes by a size code (R240). -/
def extendLoad (size : Nat) (bs : List Byte) : Nat :=
  let v := leNat bs
  match size with
  | 1 => wrapInt (sextInt v 8) 64
  | 3 => wrapInt (sextInt v 16) 64
  | _ => v

def Team.setLane (t : Team) (g : Group) (n i : Nat) (w : Word) : Team := t.setV g n ((t.vreg g n).set i w)

/-- Write a result into its register (R240, R242, R247). -/
def Team.putResult (t : Team) (gid : Nat) (d : Dest) (bs : List Byte) : Team :=
  match nmGet gid t.groups with
  | none => t
  | some g =>
    match d with
    | .none => t
    | .lane reg ln size =>
      let v := extendLoad size bs
      let t := t.setLane g reg ln (lo32 v)
      if size = 5 then t.setLane g (reg + 1) ln (hi32 v) else t
    | .scalar reg size => t.modGroup gid (fun x => x.setS reg (BitVec.ofNat 64 (extendLoad size bs)))
    | .plane reg ln p e =>
      let b := if (leNat bs).testBit e then 2 ^ p else 0
      t.setLane g reg ln (lane (t.vreg g reg) ln ||| BitVec.ofNat 32 b)

/-- The pairing registers among some registers of a group (R46). -/
def sharedNames (s : State) (tid gid : Nat) (names : List RegName) : List (Nat × Nat) :=
  match teamOf s tid, groupOf s tid gid with
  | some t, some g => names.filterMap (fun n => match n with
      | .v k => t.shared g k
      | .s _ => none)
  | _, _ => []

/-- A late result must wait: a shared register that it writes is full, since the partner has filled it meanwhile (R47). A team that is
being swapped out takes its results all the same (R393). -/
def resultBlocked (s : State) (tid gid : Nat) (names : List RegName) : Bool :=
  (teamOf s tid).any (fun t => !t.stopping && (sharedNames s tid gid names).any t.isFull)

/-- A result reaches its registers (R239). -/
def deliver (s : State) (r : MemReq) (bs : List Byte) : State :=
  modTeam s r.team (fun t => t.late r.group r.instr (fun t => t.putResult r.group r.dest bs))

def Msg.isResult (m : Msg) : Bool :=
  match m with
  | .result _ _ => true
  | _ => false
/-- A lane into which plane bits are about to land holds 0 (R242). -/
def zeroPlane (s : State) (m : Nat × Msg) : State :=
  match m.2 with
  | .result r _ => (match r.dest with
    | .plane reg ln _ _ => modTeam s r.team (fun t => t.late r.group r.instr (fun t => match nmGet r.group t.groups with
        | some g => t.setLane g reg ln 0
        | none => t))
    | _ => s)
  | _ => s
/-- The write of a long-latency result into shared registers is one write, made when every part of it has arrived and the registers are
empty (R47). -/
def landShared (s : State) (tid gid : Nat) (names : List RegName) : State :=
  let mine := s.flight.filter (fun m => (m.2.brings tid gid).any names.contains)
  if sharedNames s tid gid names = [] || resultBlocked s tid gid names || !mine.all (·.2.isResult) then s
  else mine.foldl (fun s m => match m.2 with
    | .result r bs => deliver (dropMsg s m.1) r bs
    | _ => s) (mine.foldl zeroPlane s)

/-- The end of an instruction with long-latency results, or the arrival of one: what R47 waits for lands, and a shared register for which
nothing more is outstanding becomes full (R44, R47). -/
def fillResult (s : State) (tid gid core : Nat) (names : List RegName) : State :=
  let s := landShared s tid gid names
  let out := outstanding s tid gid core
  modTeam s tid (fun t =>
    match nmGet gid t.groups with
    | none => t
    | some g => names.foldl (fun t n => match n with
        | .v k => if out.contains n then t else t.fillShared g k
        | .s _ => t) t)

/-! ## Performing -/

/-- What comes of an access at its place. -/
inductive Perf where
  | done (s : State) (bytes : List Byte)
  | bounced
  | waits
  | bad (code : Nat) (s : State)

/-- The access is the host's, a peer's or the device's own, which the Sideboard forwards instead of bouncing (R365). -/
def MemReq.foreign (r : MemReq) : Bool := Config.outsideAgent ≤ r.core

/-- An access crosses vertical buses, where channel ECC may fail (R428): 0x15, except for a host or a peer, which no fault reaches: it reads
undefined bytes (log entry 54). -/
def withEcc (s : State) (bus : Nat) (shelf : Bool) (r : MemReq) (go : State → Perf) : Perf :=
  match meetEcc s bus shelf with
  | (false, s) => go s
  | (true, s) =>
    if r.core ≠ Config.outsideAgent then .bad 0x15 s
    else
      match go s with
      | .done s bs =>
        let (bs, s) := drawBytes s bs.length
        .done s bs
      | x => x
/-- The same at a frame, which lies behind Shelf bonds when it is a far frame (R427). -/
def withShelf (s : State) (p : Place) (r : MemReq) (go : State → Perf) : Perf :=
  match p, busOf p with
  | .far _ _ _, some b => withEcc s b true r go
  | _, _ => go s

/-- Write an access's bytes into a replica: only sectors that it has take them; the others are fetched from the home frame when they are read
(R137, R374). A masked write changes the bytes of its mask alone. -/
def overlay (x : Frame) (off : Nat) (acc : Acc) (bs : List Byte) : Frame :=
  let new := match acc with
    | .plst _ _ => ((applyAcc acc (readBytes x.data off 8)).2).getD bs
    | _ => bs
  if x.valid.getLsbD (off / 16) then { x with data := writeBytes x.data off new } else x

/-- Perform at a frame that has accepted the access: fetch its sector, act, set ref, hold and dirty (R364); a store of a core
that holds a loose replica reaches the replica too (R137, R374). It waits for a sector that is on its way (R403). -/
def performFrame (s : State) (p : Place) (r : MemReq) : Perf :=
  let off := r.va % 4096
  let go (s : State) : Perf :=
    match fetchSector s p (off / 16) with
    | none => .bad 0x0F s
    | some s =>
      let f := frameAt s p
      let (res, wr) := applyAcc r.acc (readBytes f.data off r.size)
      let f := { f with ref_ := true, hold := if r.foreign then f.hold else f.hold ||| BitVec.ofNat 16 (2 ^ (r.core % 16)) }
      match wr with
      | none => .done (setFrame s p f) res
      | some bs =>
        let s := setFrame s p { f with data := writeBytes f.data off bs, dirty := f.dirty ||| BitVec.ofNat 256 (2 ^ (off / 16)) }
        let mine := f.repl.filter (fun q => q.1 = r.core)
        let s := if r.rep = 2 then mine.foldl (fun s q => modFrame s (.near q.1 q.2) (fun x => overlay x off r.acc bs)) s else s
        .done s res
  let f := frameAt s p
  if f.valid.getLsbD (off / 16) then withShelf s p r go
  else if sectorComing s p (off / 16) then .waits
  else
    let column (f : Frame) (go : State → Perf) : Perf := withEcc s (192 * f.hclu + f.hpage % 192) false r go
    match f.replicaOf with
    | some h => if (frameAt s h).valid.getLsbD (off / 16) then withShelf s h r go else column (frameAt s h) (fun s => withShelf s h r go)
    | none => column f (fun s => withShelf s p r go)

/-- A commit of the page of a home frame is in progress (R374). -/
def commitOn (s : State) (p : Place) : Bool := s.flight.any (fun m => match m.2 with
  | .commit r _ _ _ => r.place = p
  | _ => false)

/-- The replica mode of a page under an access: its translation's, or for the host or a peer that of the leaf that the frame's directory
names. -/
def modeAt (s : State) (p : Place) (r : MemReq) : Nat :=
  let f := frameAt s p
  if !r.foreign then r.rep
  else match leafNow s (partOfCluster s.layout f.hclu) f.aspace (f.vpage * 4096) with
    | some l => l.rep
    | none => 0
/-- The write reaches a home frame of a strict page that has replicas (R136, R374). -/
def isStrictCommit (s : State) (p : Place) (r : MemReq) : Bool :=
  r.acc.writes && isFrame p && !(frameAt s p).repl.isEmpty && modeAt s p r = 1

/-- Copy the bytes a strict commit wrote from the home frame to a replica (R374 step 3). -/
def updateReplica (s : State) (home : Place) (off n core frame : Nat) : State :=
  let bs := readBytes (frameAt s home).data off n
  modFrame s (.near core frame) (fun x => { overlay x off (.write bs) bs with locked := false })

/-- Perform at a frame that has accepted the access. A strict commit with replicas updates them in the same step unless it is held, and
waits for an earlier commit of the page (R374). -/
def performAt (s : State) (p : Place) (r : MemReq) : Perf :=
  if isStrictCommit s p r then
    if commitOn s p then .waits
    else
      match performFrame s p r with
      | .done s res => .done ((frameAt s p).repl.foldl (fun s q => updateReplica s p (r.va % 4096) r.size q.1 q.2) s) res
      | x => x
  else performFrame s p r

/-- An access at bytes that no frame and no block stands for. -/
def performRaw (r : MemReq) (m : Memory) (a : Nat) (put : Memory → State) (s : State) : Perf :=
  let (res, wr) := applyAcc r.acc (readBytes m a r.size)
  match wr with
  | none => .done s res
  | some bs => .done (put (writeBytes m a bs)) res

/-- Perform an access where it arrives (R114, R123, R364, R365, R410). A forwarded access of the host or a peer waits until the frame that
the pointer names holds the page (R365). One to a host page that a frame holds by now walks again (R412; log entry 17). A peer may refuse an access
(R416), and an error may meet it on its way (R428). -/
def perform (s : State) (r : MemReq) : Perf :=
  match r.place with
  | .home c h =>
    let here (s : State) : Perf :=
      match homeRead s c h r.pk (r.va % 4096) r.size with
      | none => .bad 0x0F s
      | some old =>
        let (res, wr) := applyAcc r.acc old
        match wr with
        | none => .done s res
        | some bs =>
          match homeWrite s c h r.pk (r.va % 4096) bs with
          | some s => .done s res
          | none => .bad 0x0F s
    match residenceOf s c h with
    | none => withEcc s (192 * c + h % 192) false r here
    | some q =>
      if !isFrame q then (if r.foreign then .waits else .bounced)
      else
        let f := frameAt s q
        if f.tbl && f.holds c h then performFrame s q r
        else if !r.foreign then .bounced
        else if f.holds c h && frameTakes f f.ten = some true then performAt s q r
        else .waits
  | .pool a => withEcc s (192 * poolCluster a + poolColumn a) false r (fun s => performRaw r s.dram a (fun m => { s with dram := m }) s)
  | .host a =>
    match residenceOf s (Config.clusters + r.part) (a / 4096) with
    | some q =>
      let f := frameAt s q
      if !r.foreign then .bounced
      else if isFrame q && f.holds (Config.clusters + r.part) (a / 4096) && frameTakes f f.ten = some true then performAt s q r
      else .waits
    | none => performRaw r s.hostMem a (fun m => { s with hostMem := m }) s
  | .peer port a =>
    if (nmGet port s.peerIn).any (fun p => a < p.1 || p.2 < a + r.size) then .bad 0x05 s
    else performRaw r (nmGetD s.peerMem port []) a (fun m => { s with peerMem := nmPut port m s.peerMem }) s
  | .ext _ => .bad 0x04 s
  | p =>
    match frameTakes (frameAt s p) r.ten with
    | none => .bounced
    | some false => .waits
    | some true => performAt s p r

/-- The place where an access was performed, for its count: a table frame or a frame that the Sideboard forwarded to (R365). -/
def performedAt (s : State) (r : MemReq) : Place :=
  match r.place with
  | .home c h =>
    match residenceOf s c h with
    | some q => if isFrame q then q else r.place
    | none => r.place
  | p => p

/-! ## Counts (R140 to R142, R152) -/

/-- The release of a group that closed a phase, while it is in progress. -/
def Group.closing (g : Group) (ph : Nat) : Option Release := g.releases.find? (fun r => r.phase = ph)
def Group.modRelease (g : Group) (id : Nat) (f : Release → Release) : Group :=
  { g with releases := g.releases.map (fun r => if r.id = id then f r else r) }
/-- Drop the releases that have completed, the oldest first: releases complete in program order (R141). -/
def dropDone : List Release → List Release
  | [] => []
  | r :: l => if r.waiting.isEmpty && r.peers.isEmpty && !r.zread then dropDone l else r :: l
def Group.settleReleases (g : Group) : Group := { g with releases := dropDone g.releases }

/-- Change the send count in the close message that a release has out to a counting point; one that comes to 0 is answered, and a point
that has none gets one (R142). -/
def moveClose (s : State) (src : Source) (t g : Nat) (pt : CountPoint) (rel : Nat) (back : Bool) : State :=
  let mine (m : Msg) : Option Nat := match m with
    | .close src' pt' n rel' => if src' = src ∧ pt' = pt ∧ rel' = rel then some n else none
    | _ => none
  match s.flight.findSome? (fun m => (mine m.2).map (fun n => (m.1, n))) with
  | some (id, n) =>
    if !back then putMsg s id (.close src pt (n + 1) rel)
    else if 1 < n then putMsg s id (.close src pt (n - 1) rel)
    else modGroup (dropMsg s id) t g (fun x =>
      (x.modRelease rel (fun r => { r with waiting := r.waiting.filter (· ≠ pt) })).settleReleases)
  | none =>
    if back then s
    else post (modGroup s t g (fun x => x.modRelease rel (fun r => { r with waiting := r.waiting.filter (· ≠ pt) ++ [pt] }))) (.close src pt 1 rel)

/-- Move a write's send count from one counting point to another (R142): in the group's own table while its phase is open, else in the
close messages of the release that closed it. The new point first, so that the release does not complete in between. -/
def moveSend (s : State) (src : Source) (old new : Option CountPoint) : State :=
  if old = new then s
  else
    let closed : Option (Nat × Nat × Nat) := match src with
      | .group t g ph => (groupOf s t g).bind (fun x => if x.phase = ph then none else (x.closing ph).map (fun r => (t, g, r.id)))
      | .cmd _ _ _ => none
    match closed with
    | some (t, g, rel) =>
      let s := match new with
        | some pt => moveClose s src t g pt rel false
        | none => s
      (match old with
      | some pt => moveClose s src t g pt rel true
      | none => s)
    | none =>
      let s := match new with
        | some pt => noteSent s src pt false
        | none => s
      (match old with
      | some pt => noteSent s src pt true
      | none => s)

/-- Count a performed write at its place, moving the send there when it was forwarded (R142). -/
def countPerformed (s : State) (r : MemReq) (at_ : Place) : State :=
  if !r.acc.writes || r.foreign then s
  else
    let s := moveSend s r.src (pointOf r.place) (pointOf at_)
    match pointOf at_ with
    | some pt => countWrite s pt r.src
    | none => s

/-- A peer's acknowledgement of a write reaches its group, and the releases of any group that cover the write (R152). -/
def ackPeer (s : State) (tid gid name : Nat) : State :=
  let heard (x : Group) : Group := Group.settleReleases { x with releases := x.releases.map (fun r => { r with peers := r.peers.filter (· ≠ name) }) }
  let s := modGroup s tid gid (fun x => { x with peerSent := x.peerSent.filter (· ≠ name) })
  { s with teams := s.teams.map (fun t => (t.1, { t.2 with groups := t.2.groups.map (fun g => (g.1, heard g.2)) })) }

/-! ## Late faults (R10, R237, R369, R415, R430; log entry 11) -/

/-- A write that will not be performed takes back its send (R142), and no release waits for its acknowledgement (R152). -/
def unsend (s : State) (id : Nat) (r : MemReq) : State :=
  if !r.acc.writes then s
  else
    let s := moveSend s r.src (pointOf r.place) none
    match r.place, r.src with
    | .peer _ _, .group t g _ => ackPeer s t g id
    | _, _ => s

/-- A faulting instruction and every later one of its group have no effect (R179): the accesses of theirs that are still on their way are
dropped. A strict commit in progress ends without a result. Predicates and drains in flight complete all the same, and their results are in the
image (R328, R393; log entry 11). -/
def dropLater (s : State) (tid gid instr : Nat) : State :=
  let mine (r : MemReq) : Bool := r.team = tid && r.group = gid && instr ≤ r.instr && !r.foreign
  s.flight.foldl (fun s m => match m.2 with
    | .mem r => if mine r then unsend (dropMsg s m.1) m.1 r else s
    | .bounced r => if mine r then unsend (dropMsg s m.1) m.1 r else s
    | .parked r _ => if mine r then unsend (dropMsg s m.1) m.1 r else s
    | .sector r _ => if mine r then unsend (dropMsg s m.1) m.1 r else s
    | .result r _ => if mine r then dropMsg s m.1 else s
    | .commit r off w d => if mine r then putMsg s m.1 (.commit { r with dest := .none } off w d) else s
    | .rload t g _ _ _ _ _ _ => if t = tid && g = gid && instr < m.1 then dropMsg s m.1 else s
    | _ => s) s

/-- Bring a group back to the point before an instruction (R179): its state and its own registers, the shared registers that the instruction
has emptied and the partner has not filled since (R47), its place at a queue, and its arrivals in barrier phases that have not completed. Its
write phases, releases and fences stay. -/
def rollBack (s : State) (tid : Nat) (m : Mark) : State :=
  modTeam s tid (fun t =>
    match nmGet m.group t.groups with
    | none => t
    | some g =>
      let undone (n : Nat) (b : Barrier) : Bool := (nmGet n g.arrived).any (fun ph => b.phase ≤ ph && nmGet n m.was.arrived ≠ some ph)
      let t := (t.leaveQueues m.group).back { m with was := { m.was with
        wait := none, phase := g.phase, sent := g.sent, peerSent := g.peerSent, hostSent := g.hostSent, releases := g.releases,
        placeHome := g.placeHome, fences := g.fences, fault := g.fault } }
      { t with
        full := t.full ++ m.emptied.filter (fun k => !t.full.contains k)
        bars := t.bars.map (fun p => (p.1, if undone p.1 p.2 then { p.2 with arrived := p.2.arrived.filter (· ≠ g.index) } else p.2))
        marks := t.marks.filter (fun x => !(x.group = m.group && m.instr ≤ x.instr)) })

/-- A fault that meets a request after its instruction has issued. Target gone (R415, R430) leaves the destination undefined, and the group
faults at its next boundary. Any other fault takes the group back to before the instruction, which restarts (R10, R369): it reads nothing into a
register, and its record names its active lanes (R237, R347). Behind an older fault of the group it is raised again after the restore. -/
def lateFault (s : State) (id : Nat) (r : MemReq) (code : Nat) : State :=
  let s := unsend s id r
  match teamOf s r.team, groupOf s r.team r.group with
  | some t, some g =>
    if code = 0x0D then
      let (bs, s) := drawBytes s 8
      takeFault (deliver s r bs) r.team r.group ⟨code, g.index, g.restart, r.va, r.lanes, 0, 0, false, 0, none, s.nextId, true⟩
    else if g.fault.any (fun o => o.order ≤ r.instr) then s
    else
      let s := dropLater s r.team r.group r.instr
      let s := match t.marks.find? (fun m => m.group = r.group && m.instr = r.instr) with
        | some m => rollBack s r.team m
        | none => s
      takeFault s r.team r.group ⟨code, g.index, r.restart, r.va, r.lanes, 0, 0, false, 0, some r.restart, r.instr, true⟩
  | _, _ => modTeam s r.team (fun t => t.meet ⟨code, r.group % 32, 0, r.va, r.lanes, 0, 0, false, 0, none, s.nextId, false⟩)

/-- A request of an instruction that a fault has taken back brings nothing more. -/
def takenBack (s : State) (tid gid instr : Nat) : Bool :=
  (groupOf s tid gid).any (fun g => g.fault.any (fun f => f.again.isSome && f.order ≤ instr))
/-- The end of a part of an instruction's accesses: what its registers wait for lands (R44, R47). -/
def fillAfter (s : State) (r : MemReq) : State :=
  if takenBack s r.team r.group r.instr then s else fillResult s r.team r.group r.core (destRegs r.dest)

/-! ## Replay -/

/-- A packed page whose image R119 refuses is met before any byte moves: in a home page, or in a frame that has yet to fetch the sector. -/
def imageBad (s : State) (x : Xlat) (va : Nat) : Bool :=
  let sec := va % 4096 / 16
  let absent (q : Place) : Bool :=
    let f := frameAt s q
    !f.valid.getLsbD sec && f.replicaOf.isNone && !sectorComing s q sec && f.pk && (homeRead s f.hclu f.hpage true (16 * sec) 16).isNone
  match x.place with
  | .home c h =>
    match residenceOf s c h with
    | none => x.pk && (homeRead s c h true (16 * sec) 16).isNone
    | some q => isFrame q && (frameAt s q).holds c h && absent q
  | .far c sl n => (frameAt s (.far c sl n)).ten = x.ten && absent (.far c sl n)
  | .near core n => (frameAt s (.near core n)).ten = x.ten && absent (.near core n)
  | _ => false

/-- Where an access goes: an ordinary load uses the replica that the core holds (R138, R373), one with `.far` unless the page is loose (R188,
R189). -/
def Xlat.target (x : Xlat) (core : Nat) (acc : Acc) (far : Bool) : Place × Nat :=
  match x.replica with
  | some (n, ten) => if acc = .read && !(far && x.rep = 2) then (.near core n, ten) else (x.place, x.ten)
  | none => (x.place, x.ten)

/-- The request of a bounced access walked again, translated as at issue (R369), or the fault of its replay; 0 where the walk must wait. -/
def retranslate (s : State) (r : MemReq) : Except Nat MemReq × State :=
  let s := stashDrop s r.core r.aspace r.va
  match translate s r.core r.part r.aspace r.va r.user r.acc.need r.acc with
  | (.error c, s) => (.error c, s)
  | (.ok x, s) =>
    if imageBad s x r.va then (.error 0x0F, s)
    else
      let (pl, ten) := x.target r.core r.acc r.far
      let r' := { r with place := pl, ten := ten, pk := x.pk, rep := x.rep, tries := r.tries + 1 }
      (.ok r', if r.acc.writes then moveSend s r.src (pointOf r.place) (pointOf pl) else s)

/-- The move that has a place as its source or destination. -/
def moveAt (s : State) (p : Place) : Option Nat :=
  (s.moves.find? (fun m => m.2.src = p || m.2.dst = p ||
    (match p with
    | .home c h => m.2.hclu = c && m.2.hpage = h
    | _ => false))).map (·.1)
/-- The place whose moves an access meets: for a host byte that of its host page (R412). -/
def MemReq.at_ (r : MemReq) : Place :=
  match r.place with
  | .host a => .home (Config.clusters + r.part) (a / 4096)
  | p => p

/-- What follows a performed access: its count, the acknowledgement of a peer (R152), and its result, which may stay in flight (log
entry 1); one for a shared register lands with the instruction's others (R47). -/
def afterPerform (s0 s : State) (id : Nat) (r : MemReq) (bs : List Byte) : State :=
  let s := countPerformed s r (performedAt s0 r)
  let s := match r.place, r.src with
    | .peer port _, .group t g _ =>
      if r.acc.writes then
        let (h, s) := popHold s
        if h then post s (.peerAck t g id port r.va r.lanes) else ackPeer s t g id
      else s
    | _, _ => s
  if r.dest = .none then s
  else
    let (h, s) := popHold s
    if h || sharedNames s r.team r.group (destRegs r.dest) ≠ [] then post s (.result r bs) else deliver s r bs

/-- An access touches its page (R375): the core counts its home and far touches, the Sideboard those of home pages, by its own cluster's
`touch_thresh` (log entry 70). -/
def noteTouch (s : State) (r : MemReq) : State :=
  let key := r.aspace * 2 ^ 36 + r.va / 4096
  let core (s : State) := modCore s r.core (fun c => { c with touches := nmPut key (nmGetD c.touches key 0 + 1) c.touches })
  if r.foreign then s
  else
    match r.place with
    | .home c h => core (modCluster s c (fun x =>
        let n := nmGetD x.touches h 0 + 1
        { x with
          touches := nmPut h n x.touches
          wanted := if x.touchThresh ≤ n && (nmGet h x.wanted).isNone then nmPut h (clusterOfCore r.core) x.wanted else x.wanted }))
    | .far _ _ _ => core s
    | _ => s

/-- The sector that an accepted access must wait for (R117, R364). -/
def missing (s : State) (r : MemReq) : Option Nat :=
  let f := frameAt s r.place
  let sec := r.va % 4096 / 16
  if isFrame r.place && frameTakes f r.ten = some true && !f.valid.getLsbD sec then some sec else none

/-- A frame that accepts an access of a tenure, or holds it until it may (R364), does not have a sector (R117). -/
def lacks (s : State) (p : Place) (ten sec : Nat) : Bool :=
  let f := frameAt s p
  isFrame p && (frameTakes f ten).isSome && !f.valid.getLsbD sec
/-- The miss-status entry that a request takes (R117): the sector that it needs and that is not valid at its place, which is any sector of a
home access, and one that a filling frame does not have. The lanes of one instruction share it. -/
def missKey (s : State) (r : MemReq) : Option (Nat × Nat) :=
  match r.place with
  | .home _ _ => some (r.instr, r.va / 16)
  | _ => if lacks s r.place r.ten (r.va % 4096 / 16) then some (r.instr, r.va / 16) else none
/-- The entries that the held reads of a core's groups have (R117): those for the sectors that they have asked for and that have not come. -/
def heldEntries (s : State) (core : Nat) : List (Nat × Nat) :=
  (s.teams.filter (fun t => t.2.resident && t.2.core = core)).flatMap (fun t => t.2.groups.flatMap (fun g =>
    (g.2.sectors.filter (fun x => lacks s x.1 x.2.1 x.2.2)).map (fun x => (0, 2 ^ 64 + x.2.2))))
/-- The entries of a core in use (R117): until the sector's data arrives; a bounced request has released its entry. -/
def missEntries (s : State) (core : Nat) : List (Nat × Nat) :=
  heldEntries s core ++ (s.flight.filterMap (fun m =>
    let of (r : MemReq) : Option (Nat × Nat) := if r.core = core then missKey s r else none
    match m.2 with
    | .mem r => of r
    | .sector r _ => of r
    | .result r _ => if r.place matches .home _ _ then of r else none
    | _ => none)).eraseDups
/-- There is an entry for a request that goes out again (R117, R369). -/
def entryFree (s : State) (r : MemReq) : Bool :=
  let e := missEntries s r.core
  (missKey s r).all (fun k => e.contains k || e.length < 256)

/-- A strict commit whose locks stay in flight (R374 step 1). -/
def startCommit (s : State) (id : Nat) (r : MemReq) : State :=
  let reps := (frameAt s r.place).repl
  reps.foldl (fun s q => post s (.lock id q.1 q.2)) (putMsg s id (.commit r (r.va % 4096) reps false))

/-- A request that has bounced for the eighth time registers with the place that bounced it, for the end of the move there (R369); 0 stands
for no move in progress: the end of the next one there serves. -/
def parkAt (s : State) (id : Nat) (r : MemReq) : State := putMsg s id (.parked r ((moveAt s r.at_).getD 0))

/-- A read that is performed at once has bounced: it is counted (R425), and the core walks again (R369). -/
def bounceBack (s : State) (core aspace va : Nat) : State := stashDrop (lrBump s 5 (clusterOfCore core) 0 (2 ^ 64 - 1)) core aspace va
/-- A group registers with a place that has bounced a read of it for the eighth time, as a request does in `parkAt` (R369). -/
def Group.registerAt (g : Group) (s : State) (r : MemReq) (tries : Nat) : Group :=
  if 8 ≤ tries then { g with registered := some ((moveAt s r.at_).getD 0, r.at_) } else g
/-- A read that a held instruction performs at once has bounced. -/
def readBounced (s : State) (r : MemReq) : State :=
  modGroup (bounceBack s r.core r.aspace r.va) r.team r.group (fun g => { g with readTries := g.readTries + 1 }.registerAt s r (g.readTries + 1))
/-- A group's fetch has bounced. -/
def fetchBounced (s : State) (r : MemReq) : State :=
  modGroup (bounceBack s r.core r.aspace r.va) r.team r.group (fun g => { g with fetchTries := g.fetchTries + 1 }.registerAt s r (g.fetchTries + 1))

/-! ## The order of a group's accesses (R114, R116, R130, R134, R153, R369) -/

/-- What the order of a group's accesses goes by: the bytes it names (in mem, or in the desk or drawer of a core), the place they
have, and the release fences before it; `bounced` says that it has bounced at least once, `refused` that a drawer has refused it (R271). -/
structure InFlight where
  team : Nat
  group : Nat
  core : Option (Nat × Bool)
  lo : Nat
  n : Nat
  place : Option Place
  writes : Bool
  bounced : Bool
  refused : Bool
  fences : Fences
  deriving DecidableEq, Repr, Inhabited

def InFlight.pool (a : InFlight) : Bool :=
  match a.place with
  | some (.pool _) => true
  | _ => false
def InFlight.posted (a : InFlight) : Bool :=
  match a.place with
  | some (.host _) => a.writes
  | _ => false
/-- A write to a peer window. -/
def InFlight.toPeer (a : InFlight) : Bool :=
  match a.place with
  | some (.peer _ _) => a.writes
  | _ => false

def MemReq.inFlight (r : MemReq) (bounced : Bool) : InFlight :=
  ⟨r.team, r.group, none, r.va, r.size, some r.place, r.acc.writes, bounced || r.tries ≠ 0, false, r.fences⟩
def Delivery.inFlight (d : Delivery) (refused : Bool) : InFlight :=
  ⟨d.team, d.group, some (d.dst, d.gang), d.off, d.bytes.length, none, true, false, refused, d.fences⟩
/-- A remote load reads a desk. -/
def remoteRead (tid gid core addr size : Nat) (fences : Fences) : InFlight :=
  ⟨tid, gid, some (core, false), addr % 2 ^ 18, size, none, false, false, false, fences⟩

/-- The access of a group that a message still has to perform. -/
def Msg.access (m : Msg) : Option InFlight :=
  let of (r : MemReq) (bounced : Bool) : Option InFlight := if r.foreign then none else some (r.inFlight bounced)
  match m with
  | .mem r => of r false
  | .sector r _ => of r false
  | .commit r _ _ _ => of r false
  | .bounced r => of r true
  | .parked r _ => of r true
  | .delivery d ref => if d.cmd.isSome then none else some (d.inFlight ref)
  | .rload t g core addr size _ _ fences => some (remoteRead t g core addr size fences)
  | _ => none

/-- A release fence with whose epoch `f` begins comes after an access and waits until it is performed (R134); for a pool access only one at
`.clu` or wider does (R114), for a write to a peer only one at `.sys`: others cover such a write as far as it has been sent (R152). -/
def InFlight.before (o : InFlight) (f : Fences) (pool : Bool) : Bool :=
  if o.toPeer then o.fences.sys < f.sys else if pool then o.fences.wide < f.wide else o.fences.any < f.any
/-- The older access comes before a release fence that the younger one follows. -/
def fenced (o r : InFlight) : Bool := o.before r.fences (o.pool || r.pool)

/-- Two accesses that must keep their order: posted writes to the host, whoever issued them (R153); and two of one group that share bytes
(R116, R130), of which the older one has bounced from the same page (R369), or between which a release fence lies where the younger one
writes (R134). -/
def ordered (o r : InFlight) : Bool :=
  let meet (a b : Nat) : Bool := a < b + r.n && b < a + o.n
  (o.posted && r.posted) || (o.team = r.team && o.group = r.group &&
  ((o.core = r.core && meet o.lo r.lo) ||
   (o.core.isNone && r.core.isNone && o.place = r.place && meet (o.lo % 4096) (r.lo % 4096) && o.place.any (fun p => pointOf p ≠ none)) ||
   (o.core.isNone && r.core.isNone && o.lo / 4096 = r.lo / 4096 && o.bounced) ||
   (r.writes && fenced o r)))

/-- A peer has not acknowledged a write that a release fence at `.sys` covers (R152). -/
def peerOut (s : State) (f : Fences) : Bool :=
  s.flight.any (fun m => match m.2 with
    | .peerAck _ _ name _ _ _ => name < f.sys
    | _ => false)
/-- An access older than message `id` holds one back. -/
def heldBackBy (s : State) (a : InFlight) (id : Nat) : Bool :=
  s.flight.any (fun m => m.1 < id && m.2.access.any (fun o => ordered o a)) || (a.writes && peerOut s a.fences)
def heldBack (s : State) (r : MemReq) (id : Nat) : Bool := heldBackBy s (r.inFlight false) id

/-- An access of the group that a release fence of it precedes is still in flight: a write to the own scratchpad waits (R134, R152). -/
def fenceHolds (s : State) (tid gid : Nat) (f : Fences) : Bool :=
  s.flight.any (fun m => m.2.access.any (fun o => o.team = tid && o.group = gid && o.before f o.pool)) || peerOut s f

/-! ## Settling (R369) -/

/-- A bounced request is back at its core, counted (R425); after its eighth bounce it waits at the place that bounced it (R369). -/
def returned (s : State) (id : Nat) (r : MemReq) : State :=
  let s := lrBump s 5 (clusterOfCore r.core) 0 (2 ^ 64 - 1)
  if 8 ≤ r.tries + 1 then parkAt s id { r with tries := r.tries + 1 } else putMsg s id (.bounced r)
/-- A request bounces: with it return the requests of its instruction to the page that are still on their way, and the core removes the stash
entry that they used (R369). -/
def bounceAll (s : State) (id : Nat) (r : MemReq) : State :=
  let along (s : State) (k : Nat) (x : MemReq) : State :=
    if x.team = r.team && x.group = r.group && x.instr = r.instr && x.va / 4096 = r.va / 4096 && !x.foreign then returned s k x else s
  let s := s.flight.foldl (fun s m => match m.2 with
    | .mem x => along s m.1 x
    | .sector x _ => along s m.1 x
    | _ => s) s
  stashDrop (returned s id r) r.core r.aspace r.va

/-- Perform a request, or bounce and replay it up to the eighth bounce, its instruction's requests to the page in program order (R369);
what cannot be performed yet stays in flight under its name, and so keeps its place in its group's order. -/
def settle : Nat → State → Nat → MemReq → State
  | 0, s, id, r => parkAt s id r
  | k + 1, s, id, r =>
    let (h, s) := match missing s r with
      | some _ => popHold s
      | none => (false, s)
    if h then putMsg s id (.sector r ((missing s r).getD 0))
    else
      let (h, s) := if isStrictCommit s r.place r && !commitOn s r.place && frameTakes (frameAt s r.place) r.ten = some true then popHold s else (false, s)
      if h then startCommit s id r
      else
        match perform s r with
        | .done s' bs => noteTouch (afterPerform s s' id r bs) r
        | .waits => putMsg s id (.mem r)
        | .bad c s => lateFault s id r c
        | .bounced =>
          let s := bounceAll s id r
          if 8 ≤ r.tries + 1 then s
          else
            let (h, s) := popHold s
            if h || heldBack s r id then s
            else
              match retranslate (dropMsg s id) r with
              | (.ok r', s') => if entryFree s' r' then settle k s' id r' else putMsg s id (.bounced r)
              | (.error 0, s) => putMsg s id (.bounced r)
              | (.error c, s) => lateFault s id r c

/-- Send a request: it is performed at once, or stays in flight when the agenda holds it or an older access holds it back. -/
def submit (s : State) (r : MemReq) : State :=
  let s := if r.acc.writes then noteAt s r.src r.place false else s
  let (id, s) := newId s
  let s := match r.place, r.src with
    | .peer _ _, .group t g _ => if r.acc.writes then modGroup s t g (fun x => { x with peerSent := x.peerSent ++ [id] }) else s
    | .host _, .group t g ph => if r.acc.writes then modGroup s t g (fun x => { x with hostSent := bump ph 1 x.hostSent }) else s
    | _, _ => s
  let (h, s) := popHold s
  if h || heldBack s r id then putMsg s id (.mem r) else settle 9 s id r

end Sys2Proof.Machine
end

