-- ==== Sys2Proof/Machine/Fetch.lean ====
section
/-! DEFINITION. Fetching a group's next instruction word through translation (R171, R198), the passage of cycles (R61), and
the group a loaded word runs in (log entry 12). -/

namespace Sys2Proof.Machine

/-- What fetching a word, or the instruction in it, comes to: it is there, it faults with a code and the address it records, or its page
is not ready (R364). -/
inductive Fetched (α : Type) where
  | ok (x : α)
  | fault (code addr : Nat)
  | wait
  deriving DecidableEq, Repr

/-- Read the word that a group executes at an address, where it lies (R198): the page must be mapped and executable, and in user mode a user
page (R237). The read presents its tenure, sets ref and hold, and walks again when it bounces (R21, R364, R369); at the eighth bounce it
registers, and the group waits for the end of the move. -/
def fetchFrom (t : Team) (g : Group) (pc : Nat) : Nat → State → Fetched Word × State
  | 0, s => (.wait, s)
  | k + 1, s =>
    match translate s t.core t.part t.aspace pc (!t.supervisor) .exec .read with
    | (.error 0, s) => (.wait, s)
    | (.error c, s) => (.fault c pc, s)
    | (.ok x, s) =>
      let r : MemReq := {
        team := t.id, group := g.index, core := t.core, part := t.part, aspace := t.aspace, user := !t.supervisor, va := pc, size := 4,
        acc := .read, dest := .none, src := .group t.id g.index g.phase, place := x.place, ten := x.ten, rep := x.rep, pk := x.pk,
        far := true, tries := 0, restart := g.pc, instr := 0, lanes := 0, fences := .none }
      match perform s r with
      | .done s bs => (.ok (BitVec.ofNat 32 (leNat bs)), if (groupOf s t.id g.index).any (·.fetchTries ≠ 0) then modGroup s t.id g.index (fun g => { g with fetchTries := 0 }) else s)
      | .bad c s => (.fault c pc, s)
      | .waits => (.wait, s)
      | .bounced =>
        let s := fetchBounced s r
        if (groupOf s t.id g.index).any (·.registered.isSome) then (.wait, s) else fetchFrom t g pc k s
/-- The word at an address. -/
def fetchAt (s : State) (t : Team) (g : Group) (pc : Nat) : Fetched Word × State := fetchFrom t g pc 8 s
/-- The word at a group's program counter. -/
def fetch (s : State) (t : Team) (g : Group) : Fetched Word × State := fetchAt s t g g.pc

/-- The instruction a group issues next, or the fault of its fetch or decoding (R179, R198, R347). -/
def fetchInstr (s : State) (t : Team) (g : Group) : Fetched Instr × State :=
  match fetch s t g with
  | (.fault c a, s) => (.fault c a, s)
  | (.wait, s) => (.wait, s)
  | (.ok w, s) =>
    match decodeWord t.header.ever w with
    | .ok i => (.ok i, s)
    | .error _ => (.fault 0x01 0, s)

/-- Cycles pass on every cluster, each by its own counter: no count of one tells the count of another (R61, R62, R429; log entry 69). -/
def tick (s : State) (n : Nat) : State :=
  { s with
    clusters := s.clusters.map (fun c => (c.1, { c.2 with cycle := c.2.cycle + n + Config.clockDrift (s.free + c.1) })), free := s.free + 4 }

/-- A hold of a FENCE, ACQ or REL. -/
def Wait.ordering : Wait → Bool
  | .release _ => true
  | .acquire _ => true
  | .placeHome => true
  | _ => false
/-- The team is resident and runs, and the group is active and a candidate (R38, R39, R187, R205), which waits for the end of no move (R369). While the team stops, a group inside a
FENCE, ACQ or REL goes on, wherever it is (R254, R393). -/
def canIssue (s : State) (tid gid : Nat) : Bool :=
  match teamOf s tid, groupOf s tid gid with
  | some t, some g =>
    let core := coreOf s t.core
    t.resident && (!t.stopping || g.wait.any Wait.ordering) && g.fault.isNone && g.registered.isNone &&
      (core.active.contains (tid, gid) || (t.stopping && core.pend.any (fun p => p.1 = tid && p.2.1 = gid))) && g.notBefore ≤ cycleAt s t.core
  | _, _ => false

/-! ## The group of a loaded word (log entry 12) -/

/-- A group at its start (R31): scalars, masks and latches zero but m0, program counter and `fmt` as given. -/
def Group.start (idx : Nat) (producer launched : Bool) (bin pc : Nat) (m0 : Mask) (dfmt : Word) : Group :=
  { index := idx, producer := producer, launched := launched, bin := bin, sregs := Vector.replicate 64 0,
    masks := (Vector.replicate 8 0).set 0 m0, latches := List.replicate 6 zeroLanes, fmt := dfmt, fflags := 0, stack := [],
    pc := pc, rep := none, hints := .none, wait := none, since := 0, notBefore := 0, fresh := [], phase := 0, sent := [],
    peerSent := [], hostSent := [], releases := [], placeHome := [], arrived := [], fences := .none, fault := none,
    fetchTries := 0, readTries := 0, registered := none, sectors := [] }

/-- A team at its placement, before its groups (R54, R102, R384). -/
def Team.start (id part grid index core aspace : Nat) (sup : Bool) (tag : Word) (kern args : Nat) (h : Header) : Team :=
  { id := id, part := part, grid := grid, index := index, core := core, firstCore := core, aspace := aspace, supervisor := sup,
    tag := tag, kern := kern, args := args, header := h, groups := [], regs := [], full := [], desk := [], drawer := [],
    absent := [], bankKey := BitVec.ofNat 32 (2 * (Config.bankKeyDraw id).toNat + 1), tls := Vector.replicate 8 ⟨0, [], 0⟩,
    cmds := [], bars := [], queues := [], exch := ⟨0, false, [], [], [], List.replicate 8 none⟩, slots := [], tiles := [],
    codebooks := Vector.replicate 16 (List.replicate 16 0), mstat := 0, children := [], colls := 0, slot := 0, resident := true,
    placedAt := 0, lastRetire := 0, interval := 2 ^ 32, stopping := false, saveWhy := 0, frec := [], pending := none, owed := [], marks := [] }

/-- The header of the loaded word's team: version 3, one consumer group of 56 registers, a desk of 64 KiB, reservations. -/
def loadHeader : Header :=
  ⟨0x4B484450, 3, 0, 0, 1, 32, 0, 56, 0, 0, 0, 0x40, 0x10000, 8, 8, 8, 8, List.replicate 16 0⟩
def loadPc : Nat := 0x10000
/-- The leaf of its page: home page 512 of cluster 0, executable, writable, user (R354). -/
def loadLeaf : Nat := 512 * 2 ^ 32 + 15
def loadTeam (id : Nat) : Team :=
  { Team.start id 0 1 0 0 0 true 1 loadPc 0 loadHeader with
    groups := [(0, Group.start 0 false true 0 loadPc 0xFFFFFFFF 0)] }

/-- The state with the bytes of a word where the loaded team of core 0 fetches next. -/
def loadWord (s : State) (bytes : List Byte) : State :=
  let id := s.nextId
  let s := { s with
    power := true
    dram := writeBytes s.dram (homeAddr 0 512 0) bytes
    teams := nmPut id (loadTeam id) s.teams
    nextId := id + 1
    agenda := [.issue id 0] }
  modCore s 0 (fun c => { c with active := [(id, 0)], stash := ⟨0, loadPc / 4096, loadLeaf, false, none, false⟩ :: c.stash })

end Sys2Proof.Machine
end

