-- ==== Sys2Proof/Machine/Control.lean ====
section
/-! DEFINITION. Branches, jumps, REPEAT and the mask stack (R42, R43, R198 to R202). -/

namespace Sys2Proof.Machine

/-- The target of a branch at `pc` with a signed word offset of n bits (R198). -/
def branchTarget (pc off n : Nat) : Nat := wrapInt ((pc : Int) + 4 + 4 * sextInt off n) 48

/-- A branch that is taken when `taken` holds; REPEAT bodies hold no branch, so nothing else moves (R198, R201). -/
def branch (off n : Nat) (taken : Ctx → Bool) (also : Ctx → Group → Group) : Ctx → State → Eff :=
  onGroup (fun c g =>
    let g := also c g
    if taken c then { g with pc := branchTarget c.g.pc off n } else g)

/-- The address of the word after the instruction, as CALL and JR save it (R198, R199). -/
def Ctx.ret (c : Ctx) : DWord := BitVec.ofNat 64 ((c.g.pc + 4) % 2 ^ 48)

def execBra (off : BitVec 24) (s : State) : Host.Outcome State Fault Refusal :=
  issue (.bra off) (branch off.toNat 24 (fun _ => true) (fun _ g => g)) s
def execCall (off : BitVec 24) (s : State) : Host.Outcome State Fault Refusal :=
  issue (.call off) (branch off.toNat 24 (fun _ => true) (fun c g => g.setS 62 c.ret)) s
def execBz (a : BitVec 6) (off : BitVec 18) (s : State) : Host.Outcome State Fault Refusal :=
  issue (.bz a off) (branch off.toNat 18 (fun c => c.s a = 0) (fun _ g => g)) s
def execBnz (a : BitVec 6) (off : BitVec 18) (s : State) : Host.Outcome State Fault Refusal :=
  issue (.bnz a off) (branch off.toNat 18 (fun c => c.s a ≠ 0) (fun _ g => g)) s
def execBany (mask : BitVec 3) (off : BitVec 20) (s : State) : Host.Outcome State Fault Refusal :=
  issue (.bany mask off) (branch off.toNat 20 (fun c => (c.g.mask mask.toNat &&& c.g.m0) ≠ 0) (fun _ g => g)) s
def execBnone (mask : BitVec 3) (off : BitVec 20) (s : State) : Host.Outcome State Fault Refusal :=
  issue (.bnone mask off) (branch off.toNat 20 (fun c => (c.g.mask mask.toNat &&& c.g.m0) = 0) (fun _ g => g)) s

/-- JR (R199). -/
def execJr (a : BitVec 6) (kind : BitVec 2) (s : State) : Host.Outcome State Fault Refusal :=
  issue (.jr a kind) (fun c s =>
    let t := (c.s a).toNat
    if t % 4 ≠ 0 then .bad 0x03 c.g.m0
    else if t / 2 ^ 48 ≠ 0 then .bad 0x05 c.g.m0
    else onGroup (fun c g => { (if kind = 1 then g.setS 62 c.ret else g) with pc := t }) c s) s

/-- A hint word, whatever its fields hold (R183, R184): class 7, function 0 to 2. -/
def isHintWord (w : Word) : Bool := bitsOf w.toNat 31 29 = 7 && bitsOf w.toNat 28 24 < 3

/-- The first word after the next L non-hint words, from the first of them on (R200). Hints among the words belong to the body and are skipped
over, so the body's end is known only by counting words, and these are read as a fetch reads them. A word that no fetch could read counts
as one (log entry 53). -/
def skipBody (t : Team) (g : Group) : Nat → Nat → Nat → State → Fetched Nat × State
  | 0, _, pc, s => (.ok pc, s)
  | _, 0, pc, s => (.ok pc, s)
  | fuel + 1, n + 1, pc, s =>
    match fetchAt s t g pc with
    | (.wait, s) => (.wait, s)
    | (.ok w, s) => skipBody t g fuel (if isHintWord w then n + 1 else n) ((pc + 4) % 2 ^ 48) s
    | (.fault _ _, s) => skipBody t g fuel n ((pc + 4) % 2 ^ 48) s

/-- REPEAT (R200): with a count of 0 execution continues after the body; otherwise the body, which begins at the next word,
executes that many times. The address space has 2^46 words, so the count of words skipped never ends early. -/
def execRept (a len : BitVec 6) (s : State) : Host.Outcome State Fault Refusal :=
  issue (.rept a len) (fun c s =>
    let n := (c.s a).toNat
    let next := (c.g.pc + 4) % 2 ^ 48
    if n = 0 then
      match skipBody c.t c.g (2 ^ 46) len.toNat next s with
      | (.ok pc, s) => onGroup (fun _ g => { g with pc := pc }) c s
      | (_, s) => .hold .issue s
    else onGroup (fun _ g => { g with rep := some ⟨n - 1, next, len.toNat, 0⟩ }) c s) s

/-! ## The mask stack (R42, R43, R202) -/

def execIfv (mask : BitVec 3) (neg : BitVec 1) (off : BitVec 20) (s : State) : Host.Outcome State Fault Refusal :=
  issue (.ifv mask neg off) (fun c s =>
    if 16 ≤ c.g.stack.length then .bad 0x09 c.g.m0
    else
      let cond := if isSet neg then ~~~(c.g.mask mask.toNat) else c.g.mask mask.toNat
      let m := c.g.m0 &&& cond
      onGroup (fun c g =>
        let g := { g with stack := ⟨c.g.m0, cond, c.g.fmt⟩ :: g.stack }.setMask 0 m
        if m = 0 then { g with pc := branchTarget c.g.pc off.toNat 20 } else g) c s) s
def execElsev (off : BitVec 20) (s : State) : Host.Outcome State Fault Refusal :=
  issue (.elsev off) (fun c s =>
    match c.g.stack with
    | [] => .bad 0x09 c.g.m0
    | e :: _ =>
      let m := e.sm0 &&& ~~~e.cond
      onGroup (fun c g =>
        let g := { g with fmt := e.sfmt }.setMask 0 m
        if m = 0 then { g with pc := branchTarget c.g.pc off.toNat 20 } else g) c s) s
def execEndv (s : State) : Host.Outcome State Fault Refusal :=
  issue .endv (fun c s =>
    match c.g.stack with
    | [] => .bad 0x09 c.g.m0
    | e :: rest => onGroup (fun _ g => { g with fmt := e.sfmt, stack := rest }.setMask 0 e.sm0) c s) s

end Sys2Proof.Machine
end

