-- ==== Sys2Proof/Machine/Scalar.lean ====
section
/-! DEFINITION. Class 0 and the immediates of class 1 (R190 to R197), SETFMT (R203), on the scalar state of the group. -/

namespace Sys2Proof.Machine

/-- A scalar operand of R192 as an integer: the low 32 bits when w is 1, read as signed when u is 0. -/
def sOperand (v : DWord) (u w : BitVec 1) : Int :=
  let n := if isSet w then 32 else 64
  if isSet u then ((v.toNat % 2 ^ n : Nat) : Int) else sextInt v.toNat n

/-- The result of R192: wrapped to 64 bits, or to 32 bits and extended by u. -/
def sResult (r : Int) (u w : BitVec 1) : DWord :=
  if isSet w then
    let z := wrapInt r 32
    if isSet u then BitVec.ofNat 64 z else sext64 z 32
  else BitVec.ofNat 64 (wrapInt r 64)

/-- The width in bits that w selects (R192). -/
def sWidth (w : BitVec 1) : Nat := if isSet w then 32 else 64

/-- Integer division and remainder rounding toward zero, with the zero divisor of R192. -/
def sQuot (n : Nat) (x y : Int) : Int := if y = 0 then 2 ^ n - 1 else x.tdiv y
def sRem (x y : Int) : Int := if y = 0 then x else x.tmod y
/-- A bitwise operation on the n-bit patterns of two operands (R192). -/
def sBits (f : Nat → Nat → Nat) (n : Nat) (x y : Int) : Int := (f (wrapInt x n) (wrapInt y n) : Nat)
/-- The shift count y mod n (R192). -/
def sCount (n : Nat) (y : Int) : Nat := (y % (n : Int)).toNat

/-- An instruction of R192 with its op on (width, x, y). -/
def sBin (op : Nat → Int → Int → Int) (d a b : BitVec 6) (u w : BitVec 1) : Ctx → State → Eff :=
  toScalar d (fun c => sResult (op (sWidth w) (sOperand (c.s a) u w) (sOperand (c.s b) u w)) u w)

def execSadd (d a b : BitVec 6) (u w : BitVec 1) (s : State) : Host.Outcome State Fault Refusal :=
  issue (.sadd d a b u w) (sBin (fun _ x y => x + y) d a b u w) s
def execSsub (d a b : BitVec 6) (u w : BitVec 1) (s : State) : Host.Outcome State Fault Refusal :=
  issue (.ssub d a b u w) (sBin (fun _ x y => x - y) d a b u w) s
def execSmul (d a b : BitVec 6) (u w : BitVec 1) (s : State) : Host.Outcome State Fault Refusal :=
  issue (.smul d a b u w) (sBin (fun _ x y => x * y) d a b u w) s
def execSmulh (d a b : BitVec 6) (u w : BitVec 1) (s : State) : Host.Outcome State Fault Refusal :=
  issue (.smulh d a b u w) (sBin (fun n x y => (x * y).fdiv (2 ^ n)) d a b u w) s
def execSdiv (d a b : BitVec 6) (u w : BitVec 1) (s : State) : Host.Outcome State Fault Refusal :=
  issue (.sdiv d a b u w) (sBin sQuot d a b u w) s
def execSrem (d a b : BitVec 6) (u w : BitVec 1) (s : State) : Host.Outcome State Fault Refusal :=
  issue (.srem d a b u w) (sBin (fun _ => sRem) d a b u w) s
def execSand (d a b : BitVec 6) (u w : BitVec 1) (s : State) : Host.Outcome State Fault Refusal :=
  issue (.sand d a b u w) (sBin (sBits (· &&& ·)) d a b u w) s
def execSor (d a b : BitVec 6) (u w : BitVec 1) (s : State) : Host.Outcome State Fault Refusal :=
  issue (.sor d a b u w) (sBin (sBits (· ||| ·)) d a b u w) s
def execSxor (d a b : BitVec 6) (u w : BitVec 1) (s : State) : Host.Outcome State Fault Refusal :=
  issue (.sxor d a b u w) (sBin (sBits (· ^^^ ·)) d a b u w) s
def execSshl (d a b : BitVec 6) (u w : BitVec 1) (s : State) : Host.Outcome State Fault Refusal :=
  issue (.sshl d a b u w) (sBin (fun n x y => x * 2 ^ sCount n y) d a b u w) s
def execSshr (d a b : BitVec 6) (u w : BitVec 1) (s : State) : Host.Outcome State Fault Refusal :=
  issue (.sshr d a b u w) (sBin (fun n x y => x.fdiv (2 ^ sCount n y)) d a b u w) s
def execSmin (d a b : BitVec 6) (u w : BitVec 1) (s : State) : Host.Outcome State Fault Refusal :=
  issue (.smin d a b u w) (sBin (fun _ x y => min x y) d a b u w) s
def execSmax (d a b : BitVec 6) (u w : BitVec 1) (s : State) : Host.Outcome State Fault Refusal :=
  issue (.smax d a b u w) (sBin (fun _ x y => max x y) d a b u w) s

/-- A condition of SCMP, VCMP and WAITA on two integers; ordered always holds and unordered never (R193, R213). -/
def intCond (cond : Nat) (x y : Int) : Bool :=
  match cond with
  | 0 => x = y
  | 1 => x ≠ y
  | 2 => x < y
  | 3 => x ≤ y
  | 4 => x > y
  | 5 => x ≥ y
  | 6 => true
  | _ => false

def boolWord (b : Bool) : DWord := if b then 1 else 0

def execScmp (d a b : BitVec 6) (cond : BitVec 3) (u w : BitVec 1) (s : State) : Host.Outcome State Fault Refusal :=
  issue (.scmp d a b cond u w)
    (toScalar d (fun c => boolWord (intCond cond.toNat (sOperand (c.s a) u w) (sOperand (c.s b) u w)))) s
def execSsel (d a b cc : BitVec 6) (s : State) : Host.Outcome State Fault Refusal :=
  issue (.ssel d a b cc) (toScalar d (fun c => if c.s cc ≠ 0 then c.s a else c.s b)) s

/-- SBIT's and VBIT's operation on an n-bit pattern (R193, R212). -/
def bitOp (op n x : Nat) : Nat :=
  match op with
  | 0 => clz x n
  | 1 => ctz x n
  | 2 => popcount x n
  | _ => revBits x n
def execSbit (d a : BitVec 6) (op : BitVec 2) (w : BitVec 1) (s : State) : Host.Outcome State Fault Refusal :=
  issue (.sbit d a op w) (toScalar d (fun c => BitVec.ofNat 64 (bitOp op.toNat (sWidth w) ((c.s a).toNat % 2 ^ sWidth w)))) s

/-- The special registers (R61, R62). -/
def special (c : Ctx) (s : State) (i : Nat) : DWord :=
  match i with
  | 0 => BitVec.ofNat 64 c.g.index
  | 1 => BitVec.ofNat 64 c.t.groups.length
  | 2 => BitVec.ofNat 64 (c.t.index % 2 ^ 32)
  | 3 => BitVec.ofNat 64 (c.t.index / 2 ^ 32)
  | 4 => BitVec.ofNat 64 (c.t.grid % 2 ^ 32)
  | 5 => boolWord c.g.producer
  | 6 => BitVec.ofNat 64 (coreInCluster c.t.core)
  | 7 => BitVec.ofNat 64 (clusterOfCore c.t.core)
  | 8 => BitVec.ofNat 64 (cycleAt s c.t.core)
  | 9 => BitVec.ofNat 64 c.g.fflags.toNat
  | 10 => BitVec.ofNat 64 c.g.fmt.toNat
  | 11 => BitVec.ofNat 64 c.t.exch.phase
  | 12 => if c.g.launched then BitVec.allOnes 64 else BitVec.ofNat 64 c.g.bin
  | 13 => BitVec.ofNat 64 c.t.args
  | 14 => BitVec.ofNat 64 (coreInCluster c.t.firstCore * 2 ^ 18)
  | 24 => BitVec.ofNat 64 c.t.tag.toNat
  | n => if 16 ≤ n ∧ n < 24 then BitVec.ofNat 64 (c.t.tl (n - 16)).value else 0
def execSget (d i : BitVec 6) (s : State) : Host.Outcome State Fault Refusal :=
  issue (.sget d i) (fun c s => toScalar d (fun c => special c s i.toNat) c s) s
def execSset (a i : BitVec 6) (s : State) : Host.Outcome State Fault Refusal :=
  issue (.sset a i) (onGroup (fun c g => if i = 9 then g.setFflags (c.s a) else { g with fmt := fmtOf (c.s a).toNat })) s
def execMget (d : BitVec 6) (mask : BitVec 3) (s : State) : Host.Outcome State Fault Refusal :=
  issue (.mget d mask) (toScalar d (fun c => BitVec.ofNat 64 (c.g.mask mask.toNat).toNat)) s
def execMput (a : BitVec 6) (mask : BitVec 3) (s : State) : Host.Outcome State Fault Refusal :=
  issue (.mput a mask) (onGroup (fun c g => g.setMask mask.toNat (BitVec.ofNat 32 (c.s a).toNat))) s
def execSext (d a : BitVec 6) (u : BitVec 1) (size : BitVec 2) (s : State) : Host.Outcome State Fault Refusal :=
  issue (.sext d a u size) (toScalar d (fun c =>
    let n := if size = 0 then 8 else if size = 1 then 16 else 32
    if isSet u then BitVec.ofNat 64 ((c.s a).toNat % 2 ^ n) else sext64 (c.s a).toNat n)) s

/-! ## Immediates (R196, R197) -/

/-- The immediate of an SI instruction: h with an HIMM, else imm12 sign-extended (R186, R196). -/
def Ctx.imm12 (c : Ctx) (imm : BitVec 12) : DWord := if c.h.count ≠ 0 then c.h.imm else sext64 imm.toNat 12

/-- An SI instruction with its op on 64-bit patterns. -/
def sImm (op : DWord → DWord → DWord) (d a : BitVec 6) (imm : BitVec 12) : Ctx → State → Eff :=
  toScalar d (fun c => op (c.s a) (c.imm12 imm))

def execSaddi (d a : BitVec 6) (imm : BitVec 12) (s : State) : Host.Outcome State Fault Refusal :=
  issue (.saddi d a imm) (sImm (· + ·) d a imm) s
def execSandi (d a : BitVec 6) (imm : BitVec 12) (s : State) : Host.Outcome State Fault Refusal :=
  issue (.sandi d a imm) (sImm (· &&& ·) d a imm) s
def execSori (d a : BitVec 6) (imm : BitVec 12) (s : State) : Host.Outcome State Fault Refusal :=
  issue (.sori d a imm) (sImm (· ||| ·) d a imm) s
def execSxori (d a : BitVec 6) (imm : BitVec 12) (s : State) : Host.Outcome State Fault Refusal :=
  issue (.sxori d a imm) (sImm (· ^^^ ·) d a imm) s
/-- The count of SSHLI and SSHRI: bits 5:0 of the immediate or of h (R197). -/
def Ctx.count6 (c : Ctx) (cnt : BitVec 6) : Nat := if c.h.count ≠ 0 then c.h.imm.toNat % 64 else cnt.toNat
def execSshli (d a cnt : BitVec 6) (s : State) : Host.Outcome State Fault Refusal :=
  issue (.sshli d a cnt) (toScalar d (fun c => (c.s a) <<< c.count6 cnt)) s
def execSshri (d a : BitVec 6) (arith : BitVec 1) (cnt : BitVec 6) (s : State) : Host.Outcome State Fault Refusal :=
  issue (.sshri d a arith cnt) (toScalar d (fun c =>
    let ar := if c.h.count ≠ 0 then c.h.imm.getLsbD 6 else isSet arith
    if ar then (c.s a).sshiftRight (c.count6 cnt) else (c.s a) >>> c.count6 cnt)) s
def execSlti (d a : BitVec 6) (imm : BitVec 12) (s : State) : Host.Outcome State Fault Refusal :=
  issue (.slti d a imm) (sImm (fun x i => boolWord (x.slt i)) d a imm) s
def execSltni (d a : BitVec 6) (imm : BitVec 12) (s : State) : Host.Outcome State Fault Refusal :=
  issue (.sltni d a imm) (sImm (fun x i => boolWord (x.ult i)) d a imm) s
def execSli (d : BitVec 6) (imm : BitVec 18) (s : State) : Host.Outcome State Fault Refusal :=
  issue (.sli d imm) (toScalar d (fun c => if c.h.count ≠ 0 then c.h.imm else sext64 imm.toNat 18)) s

/-- SETFMT (R203). -/
def execSetfmt (d a : BitVec 6) (sel : BitVec 10) (s : State) : Host.Outcome State Fault Refusal :=
  issue (.setfmt d a sel) (onGroup (fun c g =>
    let v := if c.h.count ≠ 0 then c.h.imm.toNat else (c.s a).toNat
    { g with fmt := setfmtValue c.g.fmt (v % 2 ^ 32) sel }.setS d.toNat (BitVec.ofNat 64 c.g.fmt.toNat))) s

end Sys2Proof.Machine
end

