-- ==== Sys2Proof/Machine/Release.lean ====
section
/-! DEFINITION. Releases by counting (R140 to R142, R152, R153): closing a write phase, close messages and answers, the
completion of a release; and what a fence waits for (R134, R249, R251). -/

namespace Sys2Proof.Machine

/-- The release of a group by its name. -/
def Group.release (g : Group) (id : Nat) : Option Release := g.releases.find? (·.id = id)
/-- An answer of a counting point reaches its source (R141 step 4, R142): a group's release, or an engine command. -/
def takeAnswer (s : State) (src : Source) (pt : CountPoint) (rel : Nat) : State :=
  match src with
  | .group t g _ => modGroup s t g (fun x =>
      (x.modRelease rel (fun r => { r with waiting := r.waiting.filter (· ≠ pt) })).settleReleases)
  | .cmd t tl num => modTeam s t (fun x => x.modCmd tl num (fun c => { c with sent := c.sent.filter (·.1 ≠ pt) }))

/-- A counting point whose count matches a close answers and clears the count (R141 step 3); otherwise the close stays. -/
def takeClose (s : State) (src : Source) (pt : CountPoint) (n rel : Nat) : State :=
  if countAt s pt src = n then
    let s := clearCount s pt src
    let (h, s) := popHold s
    if h then post s (.answer src pt rel) else takeAnswer s src pt rel
  else post s (.close src pt n rel)

/-- Send a close message (R141 step 2). -/
def sendClose (s : State) (src : Source) (pt : CountPoint) (n rel : Nat) : State :=
  let (h, s) := popHold s
  if h then post s (.close src pt n rel) else takeClose s src pt n rel

/-- A posted write older than a message is still on its way to the host: PCIe keeps the zero-length read behind it (R153). -/
def hostPending (s : State) (id : Nat) : Bool :=
  s.flight.any (fun m => m.1 < id && m.2.access.any InFlight.posted)

/-- The names of the peer writes that are performed and not yet acknowledged (R152). -/
def peersOut (s : State) : List Nat := s.flight.filterMap (fun m => match m.2 with
  | .peerAck _ _ name _ _ _ => some name
  | _ => none)

/-- Close the write phase of a group and open a release (R141); `sys` makes it wait for peers and the host (R152, R153): for the group's own
writes, and since a release covers what others have made visible to it (R133), for every peer write that has been performed and every host
write on its way. Nothing when three phases are still open. -/
def openRelease (s : State) (tid gid : Nat) (sys : Bool) : Option (Nat × State) :=
  match groupOf s tid gid with
  | none => none
  | some g =>
    if 3 ≤ g.releases.length then none
    else
      let (id, s) := newId s
      let w := g.phase
      let mine : List (CountPoint × Nat × Nat) := g.sent.filter (fun (p : CountPoint × Nat × Nat) => p.2.1 = w)
      let peers := if sys then g.peerSent ++ peersOut s else []
      let z := sys && (!g.hostSent.isEmpty || hostPending s id)
      let r : Release := ⟨id, w, mine.map (·.1), peers, z⟩
      let s := modGroup s tid gid (fun x =>
        { x with phase := (w + 1) % 4, sent := x.sent.filter (fun (p : CountPoint × Nat × Nat) => p.2.1 ≠ w), releases := x.releases ++ [r],
                 hostSent := if sys then [] else x.hostSent })
      let s := mine.foldl (fun s p => sendClose s (.group tid gid w) p.1 p.2.2 id) s
      let s := if z then
          let (h, s) := popHold s
          if h || hostPending s s.nextId then post s (.zread tid gid id)
          else modGroup s tid gid (fun x => (x.modRelease id (fun r => { r with zread := false })).settleReleases)
        else s
      some (id, modGroup s tid gid Group.settleReleases)

/-- A page has come home: its leaf names home, no frame or replica of it is in use and no move of it is under way (R249). -/
def pageAtHome (s : State) (part aspace vpage : Nat) : Bool :=
  let (d, s) := descriptor s part aspace
  match (walkRoot false s part aspace d (vpage * 4096)).1 with
  | .fault _ => true
  | .leaf l _ =>
    let moving := s.moves.any (fun m => m.2.part = part && m.2.aspace = aspace && m.2.vpage = vpage)
    match leafPlace l (vpage * 4096) with
    | .home c h => (match residenceOf s c h with
        | none => true
        | some p => isFrame p && (frameAt s p).tbl) && !moving
    | .ext _ => true
    | .pool _ => true
    | _ => false

/-- The pages of a group's earlier PLACE `.home` are at home (R249, R251). -/
def placedHome (s : State) (c : Ctx) : Bool :=
  c.g.placeHome.all (fun v => pageAtHome s c.t.part c.t.aspace v)

/-- The fences before a group's accesses after one more release fence of a scope: it begins a new epoch (R134), at `.clu` or wider for pool
accesses too (R114), and at `.sys` peers must have acknowledged what it covers (R152). -/
def Fences.next (f : Fences) (s : State) (scope : Nat) : Fences :=
  ⟨f.any + 1, if 2 ≤ scope then f.wide + 1 else f.wide, if scope = 4 then s.nextId else f.sys⟩
def newEpoch (s : State) (tid gid scope : Nat) : State :=
  modGroup s tid gid (fun g => { g with fences := g.fences.next s scope })

/-- A fence of some kinds at a scope (R134, R251): it waits for PLACE `.home` pages at `.clu` and wider; a release kind closes the
phase; an acquire kind waits for earlier reads and refreshes replicas. R134 asks the order of the group's own accesses of every scope;
the scope of R127 decides only which other agents may rely on it. -/
def fence (c : Ctx) (acq rel : Bool) (scope : Nat) (s : State) : Eff :=
  if 2 ≤ scope ∧ !placedHome s c then .hold .placeHome s
  else
    let s := if 2 ≤ scope then modGroup s c.tid c.gid (fun g => { g with placeHome := [] }) else s
    let released := match c.g.wait with
      | some (.acquire _) => true
      | _ => false
    match (if rel && !released then (openRelease s c.tid c.gid (scope = 4)).map (fun x => newEpoch x.2 c.tid c.gid scope) else some s) with
    | none => .hold (.release 0) s
    | some s =>
      if acq then
        if readsOut s c.tid c.gid (2 ≤ scope) then .hold (.acquire (2 ≤ scope)) s
        else .done (if 2 ≤ scope then refreshReplicas s c.core 0 else s)
      else .done s

end Sys2Proof.Machine
end

