-- ==== Sys2Proof/Machine/Scratch.lean ====
section
/-! DEFINITION. The scratchpad: addresses, own desk and register window, remote desks and drawers, deliveries and their counts
(R69, R70, R99, R103 to R107, R146, R269 to R271, R430). -/

namespace Sys2Proof.Machine

/-- A grid that is a gang; one that is cooperative (R52, R377). -/
def Team.gang (t : Team) : Bool := bitOf t.header.flags 0
def Team.coop (t : Team) (s : State) : Bool :=
  t.gang || bitOf t.header.flags 1 || (match nmGet t.grid s.grids with
    | some g => bitOf g.rec_.flags 2
    | none => false)

/-- The resident team of a grid on a core (R105). -/
def teamOn (s : State) (grid core : Nat) : Option Nat :=
  (s.teams.find? (fun p => p.2.resident && p.2.grid = grid && p.2.core = core)).map (·.1)

/-- The bank of a desk word (R107); it changes only timing. -/
def deskBank (k : Word) (a : Nat) : Nat := ((a / 4) ^^^ ((a / 128 * k.toNat) % 2 ^ 32 / 2 ^ 27)) % 32

/-- What a scratchpad address reaches (R103 to R105, R394), or a fault. -/
inductive Spad where
  | desk (off : Nat)
  | window (off : Nat)
  | remote (team core off : Nat)
  | bad (code : Nat)
  deriving DecidableEq, Repr, Inhabited

/-- The form of a scratchpad address (R99). -/
def spadForm (a : Nat) : Bool := a < 2 ^ 26 && a / 2 ^ 18 < 192

/-- Resolve `n` bytes at a scratchpad address for a team; `atomic` for scratchpad atomics (R104, R105, R69). -/
def spadAt (s : State) (t : Team) (a n : Nat) (atomic : Bool) : Spad :=
  let core := a / 2 ^ 18
  let off := a % 2 ^ 18
  let coop := t.coop s
  if !spadForm a then .bad 0x05
  else if core = coreInCluster t.core ∨ (!coop ∧ core = coreInCluster t.firstCore) then
    if off < 2 ^ 17 then (if off + n ≤ t.header.desk then .desk off else .bad 0x05)
    else if off - 2 ^ 17 + n ≤ t.header.allocBytes then .window (off - 2 ^ 17) else .bad 0x05
  else if !coop || atomic || 2 ^ 17 ≤ off then .bad 0x05
  else
    match teamOn s t.grid (clusterOfCore t.core * Config.coresPerCluster + core) with
    | none => .bad 0x0D
    | some tid =>
      match teamOf s tid with
      | none => .bad 0x0D
      | some u => if off + n ≤ u.header.desk then .remote tid (clusterOfCore t.core * Config.coresPerCluster + core) off else .bad 0x05

/-- A desk byte lies in the ring of an allocated queue (R265). -/
def Team.inRing (t : Team) (off : Nat) : Bool := t.queues.any (fun q => q.2.off ≤ off && off < q.2.off + 4 * q.2.cap)

/-- What an LDS reads of a desk: ring bytes read as undefined values (R265; log entry 4). Whatever else reads a desk finds its bytes. -/
def readDesk (s : State) (t : Team) (off n : Nat) : List Byte × State :=
  let (fr, s) := if (List.range n).any (fun i => t.inRing (off + i)) then drawBytes s n else (List.replicate n 0, s)
  ((List.range n).map (fun i => if t.inRing (off + i) then fr.getD i 0 else readByte t.desk (off + i)), s)
/-- Read the register window: bytes of unused images are undefined (R69). -/
def readWindow (s : State) (t : Team) (off n : Nat) : List Byte × State :=
  let bs := (List.range n).map (fun i => t.windowByte (off + i))
  let (fr, s) := if bs.any Option.isNone then drawBytes s n else (List.replicate n 0, s)
  ((List.range n).map (fun i => (bs.getD i none).getD (fr.getD i 0)), s)

/-- The registers of the issuing group whose bytes a window range shows (R70). -/
def windowRegs (t : Team) (g : Group) (off n : Nat) : List RegName :=
  (List.range 56).filterMap (fun r => match t.row g r with
    | some row => if row * 128 < off + n ∧ off < row * 128 + 128 then some (RegName.v r) else none
    | none => none)

def Team.writeDesk (t : Team) (off : Nat) (bs : List Byte) : Team := { t with desk := writeBytes t.desk off bs }
def Team.writeWindow (t : Team) (off : Nat) : List Byte → Team
  | [] => t
  | b :: bs => (t.setWindowByte off b).writeWindow (off + 1) bs

/-! ## Deliveries (R105, R146, R269 to R271, R430) -/

/-- A line that the delivery touches still holds unmerged bytes of the phase before (R271). -/
def Team.drawerBlocks (t : Team) (d : Delivery) : Bool :=
  t.drawer.any (fun b => d.phase = (b.phase + 1) % 4 && (linesOf d.off d.bytes.length).contains (b.off / 128))

/-- A drawer has refused an older delivery of the team to some of the same bytes: one that a barrier or a queue has put behind it does not
overtake it (R116, R130, R135). A command's deliveries come in no such order. -/
def behindRefused (s : State) (id : Nat) (d : Delivery) : Bool :=
  d.gang && d.cmd.isNone && s.flight.any (fun m => m.1 < id && (match m.2 with
    | .delivery o true => o.cmd.isNone && o.team = d.team && o.dst = d.dst && o.off < d.off + d.bytes.length && d.off < o.off + o.bytes.length
    | _ => false))
/-- A gang's drawer refuses a delivery (R271). -/
def drawerRefuses (s : State) (id : Nat) (t : Team) (d : Delivery) : Bool := t.drawerBlocks d || behindRefused s id d

def drawerPut (l : List DrawerByte) (b : DrawerByte) : List DrawerByte := b :: l.filter (fun x => ¬(x.off = b.off ∧ x.phase = b.phase))
/-- Put bytes into a drawer under its byte mask, tagged with phase and source (R105). -/
def Team.drawerWrite (t : Team) (src phase : Nat) : Nat → List Byte → Team
  | _, [] => t
  | off, b :: bs => { t with drawer := drawerPut t.drawer ⟨off, b, phase, src⟩ }.drawerWrite src phase (off + 1) bs

def bumpArrival (l : List (Nat × Nat × Nat)) (core phase : Nat) : List (Nat × Nat × Nat) :=
  let n := (l.findSome? (fun x => if x.1 = core ∧ x.2.1 = phase then some x.2.2 else none)).getD 0
  (core, phase, n + 1) :: l.filter (fun x => ¬(x.1 = core ∧ x.2.1 = phase))

/-- A delivery whose target is gone (R430): the sending group takes 0x0D at its next boundary, a command fails. -/
def deliveryGone (s : State) (d : Delivery) : State :=
  let s := moveSend s d.from_ (some (.core d.dst)) none
  match d.cmd with
  | some (tl, num) => modTeam s d.team (fun t => t.modCmd tl num (fun c => { c with failed := some (coreInCluster d.dst * 2 ^ 18 + d.off) }))
  | none => post s (.gone d.team d.group (coreInCluster d.dst * 2 ^ 18 + d.off) d.lanes)

/-- A team's core accepts a delivery: in a gang's drawer, or in the desk of a cooperative grid's team; it is counted there (R105, R140,
R269). -/
def acceptDelivery (s : State) (tid : Nat) (d : Delivery) : State :=
  let s := modTeam s tid (fun t =>
    if d.gang then
      let t := t.drawerWrite d.src d.phase d.off d.bytes
      { t with exch := { t.exch with arrivals := bumpArrival t.exch.arrivals d.src d.phase } }
    else t.writeDesk d.off d.bytes)
  countWrite s (.core d.dst) d.from_
/-- A delivery to a desk carries the tag of a team instance that is not on its core any more (R350). -/
def Delivery.stale (d : Delivery) (t : Team) : Bool := d.tag.any (· ≠ t.tag)
/-- A delivery reaches its core. A refused one stays, under its name, to be retried (R271); one with another instance's tag is dropped (R350). -/
def takeDelivery (s : State) (id : Nat) (d : Delivery) : State :=
  match (teamOn s d.grid d.dst).bind (fun tid => (teamOf s tid).map (fun t => (tid, t))) with
  | none => deliveryGone s d
  | some (tid, t) => if d.stale t then deliveryGone s d else if d.gang && drawerRefuses s id t d then putMsg s id (.delivery d true) else acceptDelivery s tid d

/-- An older access of the group holds a delivery back (R116, R130, R134), unless that is one that its drawer has refused, which then refuses
this one too; a command's deliveries come in no such order. -/
def deliveryHeld (s : State) (id : Nat) (d : Delivery) : Bool := d.cmd.isNone && !behindRefused s id d && heldBackBy s (d.inFlight false) id

/-- The phase that a send issued now carries (R269). -/
def Exchange.sendPhase (x : Exchange) : Nat := if x.arrived then (x.phase + 1) % 4 else x.phase

/-- Send a delivery, counted per destination core in the exchange phase (R269); a command's deliveries were counted at its issue
(`counted` is false). One to a desk takes the tag of the team instance there (R350). -/
def sendDelivery (s : State) (d : Delivery) : State :=
  let d : Delivery := { d with tag := if d.gang then none else ((teamOn s d.grid d.dst).bind (teamOf s)).map (·.tag) }
  let s := noteSent s d.from_ (.core d.dst) false
  let s := if d.gang && d.counted then modTeam s d.team (fun t =>
      { t with exch := { t.exch with sends := bumpArrival t.exch.sends d.dst d.phase } }) else s
  let (id, s) := newId s
  let (h, s) := popHold s
  if h || deliveryHeld s id d then putMsg (modCore s d.dst (fun c => { c with ingress := c.ingress + 1 })) id (.delivery d false)
  else takeDelivery s id d

/-- The result of a scratchpad load named `instr`, on its way to a shared register (R47). -/
def loadedMsg (t : Team) (gid instr : Nat) (addr size : Nat) (dest : Dest) (bs : List Byte) : Msg :=
  let r : MemReq := {
    team := t.id, group := gid, core := t.core, part := t.part, aspace := t.aspace, user := !t.supervisor, va := addr, size := size,
    acc := .read, dest := dest, src := .group t.id gid 0, place := .ext 0, ten := 0, rep := 0, pk := false, far := false, tries := 0,
    restart := 0, instr := instr, lanes := 0, fences := .none }
  .result r bs
/-- Serve a remote load at the target's desk, when its lines are present (R105, R106, R430); ring bytes are undefined there too
(R265). -/
def takeRemoteLoad (s : State) (id tid gid core addr size : Nat) (dest : Dest) (lanes : Mask) (fences : Fences) : State :=
  match teamOf s tid with
  | none => s
  | some t =>
    let off := addr % 2 ^ 18
    let put (s : State) (bs : List Byte) : State :=
      if sharedNames s tid gid (destRegs dest) ≠ [] then putMsg s id (loadedMsg t gid id addr size dest bs)
      else modTeam s tid (fun t => t.late gid id (fun t => t.putResult gid dest bs))
    match (teamOn s t.grid core).bind (teamOf s) with
    | none =>
      let (bs, s) := drawBytes s size
      post (put s bs) (.gone tid gid addr lanes)
    | some u =>
      if !u.present off size then putMsg s id (.rload tid gid core addr size dest lanes fences)
      else
        let (bs, s) := readDesk s u off size
        put s bs
/-- Send a remote load, in its group's order (R128, R130). While it waits at its target for an absent line (R106) its group is not held: it goes on
until the first use of the result (R239; DESIGN CHOICE, log entry 91). -/
def sendRemoteLoad (s : State) (tid gid core addr size : Nat) (dest : Dest) (lanes : Mask) (fences : Fences) : State :=
  let (id, s) := newId s
  let (h, s) := popHold s
  if h || heldBackBy s (remoteRead tid gid core addr size fences) id then putMsg s id (.rload tid gid core addr size dest lanes fences)
  else takeRemoteLoad s id tid gid core addr size dest lanes fences
/-- A remote load in flight reaches its target, unless an older access of the group holds it back. -/
def serveLoad (s : State) (id tid gid core addr size : Nat) (dest : Dest) (lanes : Mask) (fences : Fences) : State :=
  match teamOf s tid with
  | some t =>
    if heldBackBy s (remoteRead tid gid core addr size fences) id then s
    else fillResult (takeRemoteLoad (dropMsg s id) id tid gid core addr size dest lanes fences) tid gid t.core (destRegs dest)
  | none => dropMsg s id

/-- What has reached a core before its team leaves is served and accepted (R430): the remote loads of its desk and the deliveries to it,
those that a drawer has refused too when the team ends. -/
def serveReached (s : State) (t : Team) (refused : Bool) : State :=
  s.flight.foldl (fun s m => match nmGet m.1 s.flight with
    | some (.rload tid gid core addr size dest ln f) =>
      if core = t.core && (teamOf s tid).any (fun u => u.grid = t.grid) then serveLoad s m.1 tid gid core addr size dest ln f else s
    | some (.delivery d ref) =>
      if d.grid = t.grid && d.dst = t.core && (refused || !ref) && !deliveryHeld s m.1 d then
        let s := dropMsg (if ref then s else modCore s t.core (fun c => { c with ingress := c.ingress - 1 })) m.1
        if d.stale t then deliveryGone s d else acceptDelivery s t.id d
      else s
    | _ => s) s

end Sys2Proof.Machine
end

