-- ==== Sys2Proof/Machine/Memory.lean ====
section
/-! DEFINITION. Class 4: loads, stores, plane accesses and atomics on mem and the scratchpad, with the checks of R237 in their
order (R235 to R248). Each lane's element is one access (log entry 6). -/

namespace Sys2Proof.Machine

/-- One access of an instruction: its lane, address, bytes, alignment, what it does, where its value goes. -/
structure Access where
  ln : Nat
  addr : Nat
  size : Nat
  al : Nat
  acc : Acc
  dest : Dest
  deriving DecidableEq, Repr, Inhabited

/-- Insert in ascending address order, after equal ones (R237). -/
def insertAccess (a : Access) : List Access → List Access
  | [] => [a]
  | b :: l => if a.addr < b.addr then a :: b :: l else b :: insertAccess a l
def sortAccesses (l : List Access) : List Access := l.foldl (fun acc a => insertAccess a acc) []

/-- The lowest lane's address among the accesses that meet a condition (R237). -/
def faultAddr (l : List Access) (p : Access → Bool) : Nat :=
  match l.find? p with
  | some a => a.addr
  | none => 0

/-- Translate accesses in order up to the first that faults: the translations, and that access with its code. -/
def translateAll (c : Ctx) : List Access → State → (List (Access × Xlat) × Option (Access × Nat)) × State
  | [], s => (([], none), s)
  | a :: l, s =>
    match translate s c.core c.t.part c.t.aspace a.addr (!c.t.supervisor) a.acc.need a.acc with
    | (.error e, s) => (([], some (a, e)), s)
    | (.ok x, s) =>
      let (r, s) := translateAll c l s
      (((a, x) :: r.1, r.2), s)

/-- A PLACE `.near` of the team is still filling the page (R399). -/
def placeBusy (s : State) (c : Ctx) (va : Nat) : Bool :=
  s.moves.any (fun m => m.2.team = c.tid && m.2.aspace = c.t.aspace && m.2.vpage = va / 4096 && !m.2.rewritten)

/-- The request of a translated access of the instruction named `instr`, whose active lanes are `lanes`. `far`: an ordinary load of a loose
page goes past the replica that the core holds (R188). -/
def Ctx.request (c : Ctx) (instr : Nat) (lanes : Mask) (a : Access) (x : Xlat) (far : Bool) : MemReq :=
  let (pl, ten) := x.target c.core a.acc far
  { team := c.tid, group := c.gid, core := c.core, part := c.t.part, aspace := c.t.aspace, user := !c.t.supervisor, va := a.addr,
    size := a.size, acc := a.acc, dest := a.dest, src := .group c.tid c.gid c.g.phase, place := pl, ten := ten, rep := x.rep,
    pk := x.pk, far := far, tries := 0, restart := c.g.restart, instr := instr, lanes := lanes, fences := c.g.fences }
/-- The request of an ACQ or a WAITA, which goes to the place that the entry names, never to a replica (R250, R252). -/
def Ctx.plainRequest (c : Ctx) (a : Access) (x : Xlat) : MemReq :=
  { c.request 0 c.g.m0 a x true with place := x.place, ten := x.ten }

/-- What the checks of R237 make of the accesses of an instruction on mem: the fault of the first that fails, a walk that must wait, or the
translations. -/
inductive Checked where
  | fault (code addr : Nat) (s : State)
  | wait
  | ok (l : List (Access × Xlat)) (s : State)

/-- The checks of R237 in their order. A faulting access may have left a mark in the management block (R411, R425), which the state of the
fault shows. -/
def checkMem (c : Ctx) (l : List Access) (s : State) : Checked :=
  if l.any (fun a => a.addr % a.al ≠ 0) then .fault 0x03 (faultAddr l (fun a => a.addr % a.al ≠ 0)) s
  else if l.any (fun a => 2 ^ 48 ≤ a.addr) then .fault 0x05 (faultAddr l (fun a => 2 ^ 48 ≤ a.addr)) s
  else
    match translateAll c (sortAccesses l) s with
    | ((_, some (_, 0)), _) => .wait
    | ((_, some (b, code)), s') => .fault code (faultAddr l (fun a => a.addr / 4096 = b.addr / 4096)) s'
    | ((r, none), s') =>
      let l' := l.filterMap (fun a => (r.find? (fun p => p.1 = a)).map (fun p => (a, p.2)))
      match l'.find? (fun p => imageBad s' p.2 p.1.addr) with
      | some p => .fault 0x0F p.1.addr s'
      | none => .ok l' s'

/-- The miss-status entries that an instruction's accesses take (R117). -/
def missNeed (s : State) (c : Ctx) (l : List (Access × Xlat)) (far : Bool) : List (Nat × Nat) :=
  (l.filterMap (fun p => missKey s (c.request s.nextId 0 p.1 p.2 far))).eraseDups
/-- The accesses can leave: no PLACE `.near` of the team is filling their pages (R399), and there are entries for them (R117). -/
def canSend (s : State) (c : Ctx) (l : List (Access × Xlat)) (far : Bool) : Bool :=
  l.all (fun p => !placeBusy s c p.1.addr) && (missEntries s c.core).length + (missNeed s c l far).length ≤ 256

/-- Requests of an instruction are on their way. -/
def underWay (s : State) (tid gid instr : Nat) : Bool :=
  s.flight.any (fun m => m.2.req.any (fun r => r.team = tid && r.group = gid && r.instr = instr && !r.foreign))
/-- The points to which no request can bring a group back any more are forgotten. -/
def pruneMarks (s : State) (tid : Nat) : State :=
  modTeam s tid (fun t => { t with marks := t.marks.filter (fun m => underWay s tid m.group m.instr) })
/-- Send the accesses one by one, up to one that takes the instruction back. -/
def sendEach (c : Ctx) (instr : Nat) (lanes : Mask) (far : Bool) : List (Access × Xlat) → State → State
  | [], s => s
  | p :: l, s =>
    if takenBack s c.tid c.gid instr then s else sendEach c instr lanes far l (submit s (c.request instr lanes p.1 p.2 far))
/-- Send the accesses of an instruction, in ascending lane order (R116); a fault that meets one of them later brings the group back to the
point before it (R179). -/
def sendAll (c : Ctx) (lanes : Mask) (l : List (Access × Xlat)) (far : Bool) (names : List RegName) (s : State) : State :=
  if l.isEmpty then fillResult s c.tid c.gid c.core names
  else
    let (instr, s) := newId s
    let emptied := c.t.full.filter (fun k => !(teamOf s c.tid).any (fun t => t.full.contains k))
    let s := modTeam s c.tid (fun t => { t with marks := t.marks ++ [c.t.markOf c.gid instr lanes c.g emptied] })
    let s := sendEach c instr lanes far l s
    let s := if takenBack s c.tid c.gid instr then s else fillResult s c.tid c.gid c.core names
    pruneMarks s c.tid

/-- Perform the accesses of an instruction on mem after every check; `names` are the registers into which
it loads, which take their result with no lane on too (R44). -/
def memAccess (c : Ctx) (active : Mask) (names : List RegName) (l : List Access) (far : Bool) (s : State) : Eff :=
  match checkMem c l s with
  | .fault code addr s' => .refused s' code addr active
  | .wait => .hold .issue s
  | .ok l' s' => if canSend s' c l' far then .done (sendAll c active l' far names s') else .hold .issue s

/-- The address of a lane (R236). -/
def Ctx.addr (c : Ctx) (base : BitVec 6) (ofs : VCode) (i : Nat) : Nat :=
  ((c.s base).toNat + (lane (c.code ofs) i).toNat) % 2 ^ 64

/-- Bytes of a size code (R240). -/
def sizeBytes (size : Nat) : Nat :=
  match size with
  | 0 => 1
  | 1 => 1
  | 2 => 2
  | 3 => 2
  | 4 => 4
  | 5 => 8
  | _ => 16

/-- The registers that a load or an atomic of a size code writes (R240). -/
def loadNames (data : VCode) (size : Nat) : List RegName :=
  (List.range (match size with
    | 5 => 2
    | 6 => 4
    | _ => 1)).map (fun i => RegName.v (data.toNat + i))

/-- The data of a lane as bytes of a size (R240). -/
def Ctx.dataBytes (c : Ctx) (data : VCode) (size i : Nat) : List Byte :=
  match size with
  | 5 => natBytes 8 (c.pair data.toNat i)
  | 6 => natBytes 8 (c.pair data.toNat i) ++ natBytes 8 (c.pair (data.toNat + 2) i)
  | k => natBytes (sizeBytes k) (lane (c.code data) i).toNat

/-- The accesses of a vector load or store; `.b128` is two accesses of 8 bytes (R129). -/
def Ctx.vecAccesses (c : Ctx) (m : Mask) (data ofs : VCode) (base : BitVec 6) (size : Nat) (load : Bool) : List Access :=
  (lanesOf m).flatMap (fun i =>
    let a := c.addr base ofs i
    let n := sizeBytes size
    let bs := if load then [] else c.dataBytes data size i
    if size = 6 then
      [⟨i, a, 8, 16, if load then .read else .write (bs.take 8), if load then .lane data.toNat i 5 else .none⟩,
       ⟨i, (a + 8) % 2 ^ 64, 8, 8, if load then .read else .write (bs.drop 8), if load then .lane (data.toNat + 2) i 5 else .none⟩]
    else [⟨i, a, n, n, if load then .read else .write bs, if load then .lane data.toNat i size else .none⟩])

def execLd (guard : BitVec 3) (data ofs base : BitVec 6) (size : BitVec 3) (s : State) : Host.Outcome State Fault Refusal :=
  issue (.ld guard data ofs base size) (fun c s =>
    let m := c.lanes guard
    memAccess c m (loadNames data size.toNat) (c.vecAccesses m data ofs base size.toNat true) c.h.far s) s
def execSt (guard : BitVec 3) (data ofs base : BitVec 6) (size : BitVec 3) (s : State) : Host.Outcome State Fault Refusal :=
  issue (.st guard data ofs base size) (fun c s =>
    let m := c.lanes guard
    memAccess c m [] (c.vecAccesses m data ofs base size.toNat false) false s) s
def execSld (data base : BitVec 6) (size : BitVec 3) (s : State) : Host.Outcome State Fault Refusal :=
  issue (.sld data base size) (fun c s =>
    let n := sizeBytes size.toNat
    memAccess c c.g.m0 [] [⟨0, (c.s base).toNat, n, n, .read, .scalar data.toNat size.toNat⟩] c.h.far s) s
def execSst (data base : BitVec 6) (size : BitVec 3) (s : State) : Host.Outcome State Fault Refusal :=
  issue (.sst data base size) (fun c s =>
    let n := sizeBytes size.toNat
    memAccess c c.g.m0 [] [⟨0, (c.s base).toNat, n, n, .write (natBytes n (c.s data).toNat), .none⟩] false s) s

/-! ## Plane access (R242, R243) -/

/-- The element index of a lane, and the address of its plane word p (R242). -/
def Ctx.planeAddr (c : Ctx) (base : BitVec 6) (ofs : VCode) (i p : Nat) : Nat :=
  ((c.s base).toNat + 32 * ((lane (c.code ofs) i).toNat / 64) + 8 * p) % 2 ^ 64
def Ctx.planeBit (c : Ctx) (ofs : VCode) (i : Nat) : Nat := (lane (c.code ofs) i).toNat % 64
/-- The planes of `.pn`: 4 - n to 3. -/
def planesOf (n : Nat) : List Nat := (List.range n).map (fun k => 4 - n + k)

/-- The state in which the plane words of a PLLD are read: its destination lanes hold 0 (R242), but for a shared destination, which takes its
whole write when everything has arrived (R47). -/
def clearPlane (c : Ctx) (m : Mask) (data : VCode) (s : State) : State :=
  modTeam s c.tid (fun t => if (t.shared c.g data.toNat).isSome then t else t.setVLanes c.g data.toNat m zeroLanes)
/-- PLLD. The record of a misaligned base names s[base]: the rule names no lane's address (log entry 58). -/
def execPlld (guard : BitVec 3) (data ofs base : BitVec 6) (planes : BitVec 3) (s : State) : Host.Outcome State Fault Refusal :=
  issue (.plld guard data ofs base planes) (fun c s =>
    let m := c.lanes guard
    let b := (c.s base).toNat
    if m ≠ 0 ∧ b % 32 ≠ 0 then .fault 0x03 b m 0 0
    else
      let l := (lanesOf m).flatMap (fun i => (planesOf planes.toNat).map (fun p =>
        (⟨i, c.planeAddr base ofs i p, 8, 8, .read, .plane data.toNat i p (c.planeBit ofs i)⟩ : Access)))
      match memAccess c m [.v data.toNat] l c.h.far (clearPlane c m data s) with
      | .hold w _ => .hold w s
      | e => e) s

/-- The masked updates of PLST: one per plane word, a higher lane's bit kept (R243). -/
def Ctx.planeUpdates (c : Ctx) (m : Mask) (data ofs : VCode) (base : BitVec 6) (n : Nat) : List Access :=
  let v := c.code data
  let all := (lanesOf m).flatMap (fun i => (planesOf n).map (fun p =>
    (c.planeAddr base ofs i p, i, c.planeBit ofs i, (lane v i).toNat.testBit p)))
  let addrs := (all.map (·.1)).eraseDups
  addrs.map (fun a =>
    let mine := all.filter (fun x => x.1 = a)
    let (msk, bits) := mine.foldl (fun (acc : Nat × Nat) x =>
      let b := 2 ^ x.2.2.1
      (acc.1 ||| b, if x.2.2.2 then acc.2 ||| b else acc.2 &&& (2 ^ 64 - 1 - b))) (0, 0)
    let first := (mine.map (fun x => x.2.1)).foldl min 31
    ⟨first, a, 8, 8, .plst (BitVec.ofNat 64 msk) (BitVec.ofNat 64 bits), .none⟩)
/-- PLST; a misaligned base as in PLLD. -/
def execPlst (guard : BitVec 3) (data ofs base : BitVec 6) (planes : BitVec 3) (s : State) : Host.Outcome State Fault Refusal :=
  issue (.plst guard data ofs base planes) (fun c s =>
    let m := c.lanes guard
    let b := (c.s base).toNat
    if m ≠ 0 ∧ b % 32 ≠ 0 then .fault 0x03 b m 0 0
    else memAccess c m [] (c.planeUpdates m data ofs base planes.toNat) false s) s

/-! ## The scratchpad (R240, R247) -/

/-- What the checks make of scratchpad accesses (R237, R99, R103 to R105): a fault, or where each goes. -/
def checkSpad (s : State) (c : Ctx) (l : List Access) (atomic : Bool) : Except (Nat × Nat) (List (Access × Spad)) :=
  if l.any (fun a => a.addr % a.al ≠ 0) then .error (0x03, faultAddr l (fun a => a.addr % a.al ≠ 0))
  else if l.any (fun a => !spadForm a.addr) then .error (0x05, faultAddr l (fun a => !spadForm a.addr))
  else
    let r := l.map (fun a => (a, spadAt s c.t a.addr a.size atomic))
    match (sortAccesses l).findSome? (fun a => match spadAt s c.t a.addr a.size atomic with
      | .bad e => some e
      | _ => none) with
    | some code => .error (code, faultAddr l (fun a => spadAt s c.t a.addr a.size atomic = .bad code))
    | none => .ok r

/-- What a scratchpad access must wait for: an absent desk line (R106), or an outstanding result of the group (R70). -/
def spadWait (s : State) (c : Ctx) (p : Access × Spad) : Option Wait :=
  match p.2 with
  | .desk off => if c.t.present off p.1.size then none else some (.line off)
  | .window off =>
    let out := outstanding s c.tid c.gid c.core
    if (windowRegs c.t c.g off p.1.size).any (fun r => out.contains r) then some .longLat else none
  | _ => none

/-- One access of an instruction to the group's own scratchpad acts; what it brings is noted beside what the lanes before it have brought. -/
def spadAct (c : Ctx) (x : List (Access × List Byte) × State) (p : Access × Spad) : List (Access × List Byte) × State :=
  match teamOf x.2 c.tid with
  | none => x
  | some t =>
    let act (read : State → List Byte × State) (write : State → List Byte → State) : List (Access × List Byte) × State :=
      let (old, s) := match p.1.acc with
        | .write _ => ([], x.2)
        | _ => read x.2
      let (res, wr) := applyAcc p.1.acc old
      (if p.1.dest = .none then x.1 else x.1 ++ [(p.1, res)], match wr with
        | some bs => write s bs
        | none => s)
    match p.2 with
    | .desk off => act (fun s => if p.1.acc = .read then readDesk s t off p.1.size else (readBytes t.desk off p.1.size, s))
        (fun s bs => modTeam s c.tid (fun t => t.writeDesk off bs))
    | .window off => act (fun s => readWindow s t off p.1.size) (fun s bs => modTeam s c.tid (fun t => t.writeWindow off bs))
    | _ => x
/-- A lane's result reaches its register; one for a shared register lands with the others of its instruction (R47). -/
def spadLand (c : Ctx) (instr : Nat) (s : State) (r : Access × List Byte) : State :=
  if sharedNames s c.tid c.gid (destRegs r.1.dest) ≠ [] then post s (loadedMsg c.t c.gid instr r.1.addr r.1.size r.1.dest r.2)
  else modTeam s c.tid (fun t => t.putResult c.gid r.1.dest r.2)
/-- An access of an instruction to another core's scratchpad is sent. -/
def spadSend (c : Ctx) (active : Mask) (s : State) (p : Access × Spad) : State :=
  match p.2 with
  | .remote _ core off =>
    (match p.1.acc with
    | .write bs => sendDelivery s ⟨c.tid, c.gid, c.t.grid, c.core, core, off, bs, c.t.exch.sendPhase, c.t.gang, none,
        .group c.tid c.gid c.g.phase, true, active, c.g.fences, none⟩
    | _ => sendRemoteLoad s c.tid c.gid core p.1.addr p.1.size p.1.dest active c.g.fences)
  | _ => s
/-- Perform the scratchpad accesses of the instruction named `instr`, in lane order (R116): those to the group's own scratchpad act, then all that
they bring reaches the registers together, so that no lane reads through the window what the instruction has loaded (R8; log entry 71); those
to other cores are sent. -/
def spadLanes (c : Ctx) (active : Mask) (instr : Nat) (l : List (Access × Spad)) (s : State) : State :=
  let (rs, s) := l.foldl (spadAct c) ([], s)
  l.foldl (spadSend c active) (rs.foldl (spadLand c instr) s)

/-- A write to the group's own scratchpad waits for the accesses before its latest release fence (R134). -/
def fenceWait (s : State) (c : Ctx) (p : Access × Spad) : Bool :=
  p.1.acc.writes && (match p.2 with
    | .desk _ => true
    | .window _ => true
    | _ => false) && fenceHolds s c.tid c.gid c.g.fences

/-- The scratchpad accesses of an instruction, in ascending lane order (R116); `names` as in `memAccess`. -/
def spadAccess (c : Ctx) (active : Mask) (names : List RegName) (l : List Access) (atomic : Bool) (s : State) : Eff :=
  match checkSpad s c l atomic with
  | .error (code, addr) => .fault code addr active 0 0
  | .ok r =>
    match r.findSome? (spadWait s c) with
    | some w => .hold w s
    | none =>
      if r.any (fenceWait s c) then .hold .issue s
      else .done (fillResult (spadLanes c active s.nextId r s) c.tid c.gid c.core names)

def execLds (guard : BitVec 3) (data ofs base : BitVec 6) (size : BitVec 3) (s : State) : Host.Outcome State Fault Refusal :=
  issue (.lds guard data ofs base size) (fun c s =>
    let m := c.lanes guard
    spadAccess c m (loadNames data size.toNat) (c.vecAccesses m data ofs base size.toNat true) false s) s
def execSts (guard : BitVec 3) (data ofs base : BitVec 6) (size : BitVec 3) (s : State) : Host.Outcome State Fault Refusal :=
  issue (.sts guard data ofs base size) (fun c s =>
    let m := c.lanes guard
    spadAccess c m [] (c.vecAccesses m data ofs base size.toNat false) false s) s

/-! ## Atomics (R244 to R248) -/

/-- After an atomic with an acquire order (R248): an acquire fence that the group is held at while reads are outstanding. -/
def ordAfter (c : Ctx) (s : State) : State :=
  if c.h.ord % 2 = 1 then
    if readsOut s c.tid c.gid (2 ≤ c.h.scope) then modGroup s c.tid c.gid (fun g => { g with wait := some (.performed (2 ≤ c.h.scope)) })
    else if 2 ≤ c.h.scope then refreshReplicas s c.core 0 else s
  else s
/-- An atomic between the fences of its ord and scope (R248). The release fence closes the phase only when the atomic can go on behind it:
one that faults or waits has not issued (R8). -/
def withOrder (f : Ctx → State → Eff) (c : Ctx) (s : State) : Eff :=
  let scope := c.h.scope
  let go (c : Ctx) (s : State) : Eff := match f c s with
    | .done s => .done (ordAfter c s)
    | e => e
  if c.h.ord ≠ 0 && 2 ≤ scope && !placedHome s c then .hold .issue s
  else if c.h.ord < 2 then go c s
  else
    match f { c with g := { c.g with fences := c.g.fences.next s scope } } s with
    | .done _ =>
      (match fence c false true scope s with
      | .done s => go (match groupOf s c.tid c.gid with
          | some g => { c with g := { c.g with phase := g.phase, fences := g.fences } }
          | none => c) s
      | _ => .hold .issue s)
    | e => e

/-- The accesses of a vector atomic: operand x, and y for ATOMX (R244, R246). -/
def Ctx.atomAccesses (c : Ctx) (m : Mask) (data ofs : VCode) (base : BitVec 6) (op : AtomOp) (two ret : Bool) : List Access :=
  let w := c.h.w64
  let n := if w then 8 else 4
  (lanesOf m).map (fun i =>
    let x := if w then c.pair data.toNat i else (lane (c.code data) i).toNat
    let y := if !two then 0 else if w then c.pair (data.toNat + 2) i else (lane (c.v (data.toNat + 1)) i).toNat
    ⟨i, c.addr base ofs i, n, n, .atom op w (BitVec.ofNat 64 x) (BitVec.ofNat 64 y),
      if ret then .lane data.toNat i (if w then 5 else 4) else .none⟩)

def execAtom (guard : BitVec 3) (data ofs base : BitVec 6) (op : BitVec 3) (s : State) : Host.Outcome State Fault Refusal :=
  issue (.atom guard data ofs base op) (withOrder (fun c s =>
    let m := c.lanes guard
    let l := c.atomAccesses m data ofs base (atomOp op) false true
    let names := loadNames data (if c.h.w64 then 5 else 4)
    if c.h.sp then spadAccess c m names l true s else memAccess c m names l true s)) s
def execAtomx (guard : BitVec 3) (data ofs base : BitVec 6) (op : BitVec 3) (s : State) : Host.Outcome State Fault Refusal :=
  issue (.atomx guard data ofs base op) (withOrder (fun c s =>
    let m := c.lanes guard
    let l := c.atomAccesses m data ofs base (atomxOp op) (op = 0 || op = 2) true
    let names := loadNames data (if c.h.w64 then 5 else 4)
    if c.h.sp then spadAccess c m names l true s else memAccess c m names l true s)) s
def execRed (guard : BitVec 3) (data ofs base : BitVec 6) (op : BitVec 3) (s : State) : Host.Outcome State Fault Refusal :=
  issue (.red guard data ofs base op) (withOrder (fun c s =>
    let m := c.lanes guard
    memAccess c m [] (c.atomAccesses m data ofs base (atomOp op) false false) true s)) s
def execSatom (data base : BitVec 6) (op : BitVec 3) (s : State) : Host.Outcome State Fault Refusal :=
  issue (.satom data base op) (withOrder (fun c s =>
    let w := c.h.w64
    let n := if w then 8 else 4
    spadAccess c c.g.m0 [] [⟨0, (c.s base).toNat, n, n, .atom (atomOp op) w (c.s data) 0, .scalar data.toNat (if w then 5 else 4)⟩]
      true s)) s

/-! ## Reads that an instruction performs at once (R117, R132, R369) -/

/-- What the reads of an ACQ, a WAITA, a CBLD or a LAUNCH come to, which the instruction performs at once: their bytes, a hold, or a fault with its
address. -/
inductive AtOnce where
  | done (s : State) (bytes : List Byte)
  | held (s : State)
  | bad (code addr : Nat) (s : State)

/-- The sectors that a held instruction's reads have asked for and that have yet to come: they keep their miss-status entries (R117). -/
def asked (s : State) (l : List MemReq) : List (Place × Nat × Nat) :=
  ((l.map (fun r => (r.place, r.ten, r.va % 4096 / 16))).filter (fun x => lacks s x.1 x.2.1 x.2.2)).eraseDups
/-- Perform reads one after another at their places; `before`: the state before the first, which stays where one must wait. -/
def readRun (before : State) (all : List MemReq) : List MemReq → State → AtOnce
  | [], s => .done s []
  | r :: l, s =>
    match perform s r with
    | .done s bs => (match readRun before all l s with
      | .done s rest => .done s (bs ++ rest)
      | e => e)
    | .bad code s => .bad code r.va s
    | .bounced => .held (readBounced s r)
    | .waits => .held (modGroup before r.team r.group (fun g => { g with sectors := asked before all }))
/-- Perform reads of an instruction at once, unless an older access holds one back. Its bounces count from the last time that it could read (R369). -/
def readAtOnce (c : Ctx) (l : List MemReq) (s : State) : AtOnce :=
  if l.any (fun r => heldBack s r s.nextId) then .held s
  else
    match readRun s l l s with
    | .done s bs => .done (modGroup s c.tid c.gid (fun g => { g with readTries := 0 })) bs
    | e => e

/-! ## WAITA (R250) -/

/-- WAITA reads its word at the place the entry names, never a replica; while the condition fails the group waits, and the event WAITA_REREAD
reads again. A condition that holds at the first read is taken as a yield point too (log entry 59). -/
def execWaita (data : BitVec 6) (uns wide : BitVec 1) (base : BitVec 6) (cond : BitVec 3) (s : State) :
    Host.Outcome State Fault Refusal :=
  issue (.waita data uns wide base cond) (fun c s =>
    let n := if isSet wide then 8 else 4
    let w : BitVec 1 := if isSet wide then 0 else 1
    let a := (c.s base).toNat
    match checkMem c [⟨0, a, n, n, .read, .none⟩] s with
    | .fault code addr s' => .refused s' code addr c.g.m0
    | .wait => .hold (.waita a) s
    | .ok [] s => .done s
    | .ok ((acc, x) :: _) s =>
      let r := c.plainRequest acc x
      if placeBusy s c a || !entryFree s r then .hold .issue s
      else
        match readAtOnce c [r] s with
        | .done s bs =>
          let v : DWord := BitVec.ofNat 64 (leNat bs)
          if intCond cond.toNat (sOperand v uns w) (sOperand (c.s data) uns w) then
            .done (passYield (modGroup s c.tid c.gid (fun g => g.setS data.toNat (sResult (sOperand v uns w) uns w))) c.tid c.gid)
          else .hold (.waita a) s
        | .held s => .hold (.waita a) s
        | .bad code _ s' => .refused s' code a c.g.m0) s

end Sys2Proof.Machine
end

