-- ==== Sys2Proof/Machine/Moves.lean ====
section
/-! DEFINITION. Moving pages (R366 to R376, R399, R402, R403): rewriting a leaf, the steps of a move, recalls, replicas, the
clocks of the agents, PLACE (R249), and the steps of strict commits and of frames as events. -/

namespace Sys2Proof.Machine

/-! ## Recalls and freed frames (R371, R372) -/

/-- A recall reaches a core: its entries of that page and location go (R371). -/
def takeRecall (s : State) (core aspace vpage : Nat) (loc : Place) : State :=
  let hit (e : StashEntry) := e.hits aspace (vpage * 4096) && e.leafOf.place = loc
  let s := lrBump s 5 (clusterOfCore core) 1 (2 ^ 64 - 1)
  if (coreOf s core).stash.any hit then modCore s core (fun c => { c with stash := c.stash.filter (fun e => !hit e) }) else s

/-- Recalls to every core of the partition whose filter bit is set (R371). -/
def sendRecalls (s : State) (part : Nat) (hold : BitVec 16) (aspace vpage : Nat) (loc : Place) : State :=
  ((coresOfPart s part).filter (fun c => hold.getLsbD (c % 16))).foldl (fun s c =>
    let (h, s) := popHold s
    if h then post s (.recall c aspace vpage loc) else takeRecall s c aspace vpage loc) s

/-- The sweeps completed per cluster now. -/
def sweepsNow (s : State) : List Nat := [0, 1, 2, 3].map (fun c => (clusterOf s c).sweeps)

/-- A frame given up: its tenure increments, and it is free, or quarantined when the new tenure is 0 (R363, R366, R372). -/
def freeFrame (s : State) (p : Place) : State :=
  modFrame s p (fun f =>
    let ten := (f.ten + 1) % 4096
    { Frame.blank with ten := ten, state := if ten = 0 then .quarantined else .free, sweeps := if ten = 0 then sweepsNow s else [] })

/-! ## Replicas (R373) -/

/-- A replica is dropped: it leaves the home directory's list and its frame is given up. -/
def dropReplica (s : State) (home : Place) (core n : Nat) : State :=
  freeFrame (modFrame s home (fun f => { f with repl := f.repl.filter (fun q => q ≠ (core, n)) })) (.near core n)
def dropReplicas (s : State) (home : Place) : State :=
  (frameAt s home).repl.foldl (fun s q => dropReplica s home q.1 q.2) s

/-- Change the move of a name. -/
def modMove (s : State) (mv : Nat) (f : Move → Move) : State := { s with moves := nmModify mv f s.moves }

/-- A move of the page, or of its home page, is in progress. -/
def moving (s : State) (part aspace vpage c h : Nat) : Bool :=
  s.moves.any (fun m => (m.2.part = part && m.2.aspace = aspace && m.2.vpage = vpage) || (m.2.hclu = c && m.2.hpage = h))

/-- A bounced request is walked again and replayed (R369), once the walk can go on and there is a miss-status entry for it (R117). -/
def replay (s : State) (id : Nat) (r : MemReq) : State :=
  match retranslate (dropMsg s id) r with
  | (.ok r', s') => if entryFree s' r' then fillAfter (settle 9 s' id r') r else putMsg s id (.bounced r)
  | (.error 0, s') => putMsg s' id (.bounced r)
  | (.error c, s') => lateFault s' id r c
/-- A group that has registered for the end of move `mv`, or for that of a move at some places, may read again (R369). -/
def Group.woken (g : Group) (mv : Nat) (places : List Place) : Group :=
  if g.registered.any (fun x => if x.1 = 0 then places.contains x.2 else x.1 = mv) then { g with registered := none } else g
/-- Replays of requests that waited for the end of move `mv`, or for that of a move at some places; groups that have registered for it read
again (R369). -/
def wakeParked (s : State) (mv : Nat) (places : List Place) : State :=
  (s.flight.filter (fun m => match m.2 with
    | .parked r k => if k = 0 then places.contains r.place || places.contains r.at_ else k = mv
    | _ => false)).foldl (fun s m =>
      match m.2.req with
      | none => s
      | some r =>
        let (h, s) := popHold s
        if h || heldBack s r m.1 then putMsg s m.1 (.bounced r) else replay s m.1 r)
    { s with teams := s.teams.map (fun t => (t.1, { t.2 with groups := t.2.groups.map (fun g => (g.1, g.2.woken mv places)) })) }

/-! ## Strict commits (R374) -/

/-- The value that a commit of an atomic returns. -/
def commitValue (s : State) (r : MemReq) (bs : List Byte) : State :=
  if r.dest = .none then s
  else if sharedNames s r.team r.group (destRegs r.dest) ≠ [] then post s (.result r bs)
  else deliver s r bs
/-- A commit whose write cannot be performed ends, and its replicas are unlocked. -/
def commitBad (s : State) (cm : Nat) (r : MemReq) (code : Nat) : State :=
  lateFault ((frameAt s r.place).repl.foldl (fun s q => modFrame s (.near q.1 q.2) (fun f => { f with locked := false })) (dropMsg s cm)) cm r code
/-- Every lock is acknowledged: the write is performed at home and the new bytes are sent (R374 steps 2, 3). -/
def commitWrite (s : State) (cm : Nat) (r : MemReq) (off : Nat) : State :=
  match performFrame s r.place r with
  | .done s bs =>
    let reps := (frameAt s r.place).repl
    reps.foldl (fun s q => post s (.update cm q.1 q.2)) (putMsg (commitValue s r bs) cm (.commit { r with dest := .none } off reps true))
  | .bad code s => commitBad s cm r code
  | _ => s
/-- Every update is acknowledged: the write is counted (R374 step 4). -/
def commitDone (s : State) (cm : Nat) (r : MemReq) : State :=
  fillAfter (noteTouch (countPerformed (dropMsg s cm) r r.place) r) r
/-- The commit in progress at a home frame runs to its end. -/
def finishCommit (s : State) (p : Place) : State :=
  match s.flight.findSome? (fun m => match m.2 with
    | .commit r off _ done => if r.place = p then some (m.1, r, off, done) else none
    | _ => none) with
  | none => s
  | some (cm, r, off, done) =>
    let s := { s with flight := s.flight.filter (fun m => match m.2 with
      | .lock k _ _ => k ≠ cm
      | .lockAck k _ _ => k ≠ cm
      | .update k _ _ => k ≠ cm
      | .updateAck k _ _ => k ≠ cm
      | _ => true) }
    let ends (s : State) : State :=
      commitDone ((frameAt s p).repl.foldl (fun s q => updateReplica s p off r.size q.1 q.2) s) cm r
    if done then ends s
    else
      match performFrame s p r with
      | .done s bs => ends (commitValue s r bs)
      | .bad code s => commitBad s cm r code
      | _ => s

/-! ## Posted writes (R153) -/

/-- A message of the right kind performs its access now, unless an older one holds it back. -/
def performMsg (s : State) (id : Nat) (r : MemReq) : State :=
  if heldBack s r id then s else fillAfter (settle 9 (dropMsg s id) id r) r
/-- A message arrives and does what it brings, unless something older holds it back. One that waits for the end of a move stays (R369). -/
def bringMsg (s : State) (id : Nat) : State :=
  match nmGet id s.flight with
  | some (.mem r) => performMsg s id r
  | some (.sector r _) => performMsg s id r
  | some (.bounced r) => if heldBack s r id then s else replay s id r
  | some (.commit r _ _ _) => finishCommit s r.place
  | some (.delivery d ref) =>
    if ref || deliveryHeld s id d then s else takeDelivery (modCore (dropMsg s id) d.dst (fun c => { c with ingress := c.ingress - 1 })) id d
  | some (.rload t g core addr size dest lanes f) => serveLoad s id t g core addr size dest lanes f
  | some (.peerAck t g name _ _ _) => ackPeer (dropMsg s id) t g name
  | _ => s
/-- The posted writes on their way to the host arrive, and with them the messages before the last of them, which may hold them back: PCIe keeps behind
them what the device writes there next (R153). A write that still waits then has bounced, and is on its way to no host (log entry 5). -/
def flushHost (s : State) : State :=
  let pass (s : State) : State := s.flight.foldl (fun s m => if hostPending s s.nextId then bringMsg s m.1 else s) s
  let t := pass (pass { s with holds := [] })
  { t with holds := s.holds }

/-! ## Landing (R366 step 5, R403) -/

/-- The seal notice lands at the destination (R403). -/
def noticeMove (s : State) (mv : Nat) : State :=
  modMove s mv (fun m => if m.sealed then { m with notice := true } else m)

/-- The destination counts its source as sealed once the notice has landed and as many resent sectors as it tells (R403). -/
def sealedAt (s : State) (m : Move) : State :=
  if isFrame m.dst && m.notice && m.resent = 0 then modFrame s m.dst (fun f => { f with srcSealed := true }) else s

/-- A move writes back to the host, by posted writes (R412). -/
def Move.toHost (m : Move) : Bool := hostHome m.hclu && !isFrame m.dst

/-- The first sector of a number on its way lands (R366 step 2, R403). At a packed home block whose image R119 refuses, a dirty sector is lost (log
entry 72). -/
def landSector (s : State) (mv sec : Nat) : State :=
  match nmGet mv s.moves with
  | none => s
  | some m =>
    match m.sectors.find? (·.1 = sec) with
    | none => s
    | some x =>
      let s := modMove s mv (fun m => { m with
        sectors := m.sectors.erase x, resent := if x.2.2.1 then m.resent - 1 else m.resent })
      let (bytes, s) := carried s (if isFrame m.dst then shelfBus m.dst else columnBus m.hclu m.hpage) (readBytes x.2.2.2 0 16)
      if isFrame m.dst then
        modFrame s m.dst (fun f => { f with
          data := writeBytes f.data (16 * sec) bytes, valid := f.valid ||| BitVec.ofNat 256 (2 ^ sec),
          dirty := if x.2.1 then f.dirty ||| BitVec.ofNat 256 (2 ^ sec) else f.dirty })
      else (homeWrite s m.hclu m.hpage (match leafNow s m.part m.aspace (m.vpage * 4096) with
        | some l => l.pk
        | none => m.pk) (16 * sec) bytes).getD s

/-- Every group of the address space learns that a page has come home (R249). -/
def cameHome (s : State) (part aspace vpage : Nat) : State :=
  { s with teams := s.teams.map (fun p => if p.2.part = part && p.2.aspace = aspace then
      (p.1, { p.2 with groups := p.2.groups.map (fun g => (g.1, { g.2 with placeHome := g.2.placeHome.filter (· ≠ vpage) })) })
    else p) }

/-- The end of a move (R366 step 5), and its move-done signal (R369). -/
def finishMove (s : State) (mv : Nat) : State :=
  match nmGet mv s.moves with
  | none => s
  | some m =>
    if !m.sealed || !m.sectors.isEmpty || !m.notice then s
    else
      let s := { s with moves := nmDel mv s.moves }
      let s := if isFrame m.dst then modFrame (sealedAt s m) m.dst (fun f => { f with state := .resident })
        else cameHome (setResidence s m.hclu m.hpage none) m.part m.aspace m.vpage
      wakeParked s mv [m.src, m.dst, .home m.hclu m.hpage]

/-- Every sector on its way lands. -/
def landAll (s : State) (mv : Nat) : State :=
  match nmGet mv s.moves with
  | none => s
  | some m => m.sectors.foldl (fun s x => landSector s mv x.1) (if m.toHost then flushHost s else s)
/-- The notice of a sealed move and all its sectors have landed (R403). -/
def landMove (s : State) (mv : Nat) : State :=
  let s := landAll (noticeMove s mv) mv
  match nmGet mv s.moves with
  | some m => sealedAt s m
  | none => s

/-! ## The leaf and its rewrite (R367) -/

/-- The table page and offset of the leaf of a page, below a level. -/
def slotFrom (s : State) (va : Nat) : Nat → Nat → Nat → Option (Nat × Nat × Nat)
  | l, c, t =>
    let off := 8 * (va / 2 ^ (12 + 9 * l) % 512)
    let e := (tableRead s c t off 0).1
    if !bitOf e 0 then none
    else
      match l with
      | 0 => some (c, t, off)
      | l' + 1 => if l = 1 && bitOf e 31 then none else slotFrom s va l' (bitsOf e 63 62) (bitsOf e 56 32)

/-- Where the 4 KiB leaf of a page lies (R353, R356). -/
def leafSlot (s : State) (part aspace va : Nat) : Option (Nat × Nat × Nat) :=
  let (d, s) := descriptor s part aspace
  let root := d / 2 ^ 64
  if bitOf d 0 then slotFrom s va 3 (poolCluster root) (poolHome root) else none

/-- An agent that reads or writes a home page after the seal of its move waits until the notice and the sectors have landed (R403). -/
def landSealed (s : State) (c h : Nat) : State :=
  match s.moves.find? (fun m => m.2.hclu = c && m.2.hpage = h) with
  | some (mv, m) => if m.sealed then landMove s mv else s
  | none => s
/-- Write bytes of a home page where they are now (R365, R367): in its frame, at the source of a move until the seal, then at the move's
destination, or at home. -/
def currentWrite (s : State) (c h : Nat) (pk : Bool) (off : Nat) (bs : List Byte) : State :=
  let s := landSealed s c h
  let sec := off / 16
  let inFrame (q : Place) : State := match fetchSector s q sec with
    | some s => modFrame s q (fun f => { f with data := writeBytes f.data off bs, dirty := f.dirty ||| BitVec.ofNat 256 (2 ^ sec) })
    | none => s
  let atHome := (homeWrite s c h pk off bs).getD s
  match s.moves.find? (fun m => m.2.hclu = c && m.2.hpage = h) with
  | some (_, m) =>
    if isFrame m.src && !m.sealed then inFrame m.src
    else if isFrame m.dst then inFrame m.dst else atHome
  | none =>
    match residenceOf s c h with
    | some q => if isFrame q then inFrame q else atHome
    | none => atHome
/-- Write 8 bytes of a table page at its place (R365, R367). -/
def tableWrite (s : State) (c h off v : Nat) : State := currentWrite s c h (pagePk s c h) off (natBytes 8 v)

/-- A leaf with another place and tenure: kind, loc and ten change and no other bit (R367). -/
def leafWith (e : Nat) (p : Place) (ten : Nat) : Nat :=
  let (k, loc) := locOfPlace p
  loc * 2 ^ 32 + bitsOf e 31 28 * 2 ^ 28 + ten * 2 ^ 16 + bitsOf e 15 6 * 2 ^ 6 + k * 16 + bitsOf e 3 0

/-- The slot of a page's leaf and its entry, when the entry is valid and its kind, loc and ten name a place and its tenure, whatever its other
bits hold (R367). -/
def leafNaming (s : State) (part aspace va : Nat) (p : Place) (ten : Nat) : Option ((Nat × Nat × Nat) × Nat) :=
  (leafSlot s part aspace va).bind (fun x =>
    let e := (tableRead s x.1 x.2.1 x.2.2 0).1
    if bitOf e 0 && placeOfLoc (bitsOf e 5 4) (bitsOf e 63 32) = p && bitsOf e 27 16 = ten then some (x, e) else none)
/-- The rewrite of a leaf (R367), when its entry still names the source, and is not pinned when the move is out of home. -/
def rewriteLeaf (s : State) (part aspace va : Nat) (src : Place) (srcTen : Nat) (dst : Place) (dstTen : Nat) : Option State :=
  (leafNaming s part aspace va src srcTen).bind (fun x =>
    if isFrame src || !bitOf x.2 29 then some (tableWrite s x.1.1 x.1.2.1 x.1.2.2 (leafWith x.2 dst dstTen)) else none)

/-! ## The steps of a move (R366, R403) -/

/-- A frame sends sectors of its page, as they are now, with their dirty bits (R366, R403). -/
def sendSectors (s : State) (src : Place) (resent : Bool) : List Nat → List (Nat × Bool × Bool × Memory) × State
  | [] => ([], s)
  | k :: l =>
    let f := frameAt s src
    let (bs, s) := carried s (shelfBus src) (readBytes f.data (16 * k) 16)
    let (rest, s) := sendSectors s src resent l
    ((k, f.dirty.getLsbD k, resent, writeBytes [] 0 bs) :: rest, s)

/-- Prepare, copy and rewrite (R366 steps 1 to 3): the move's name and the state, or nothing when it is declined or
abandoned. `dst` is free or home; `team` counts a near frame against its quota (R101). A strict commit of the page ends first (R374). -/
def startMove (s : State) (part aspace vpage : Nat) (l : Leaf) (dst : Place) (team : Nat) : Option (Nat × State) :=
  let s := finishCommit s l.place
  let va := vpage * 4096
  let src := l.place
  let f := frameAt s src
  let (hc, hh) := match src with
    | .home c h => (c, h)
    | .ext idx => (Config.clusters + part, (ownedPage s part idx va).getD 0)
    | _ => (f.hclu, f.hpage)
  if l.big || src = dst || moving s part aspace vpage hc hh then none
  else
    let ready := if isFrame src then f.state = .resident && f.ten = l.ten && !f.tbl
      else match src with
        | .home c h => (residenceOf s c h).isNone && !l.pin
        | .ext idx => (ownedPage s part idx va).isSome && (residenceOf s hc hh).isNone && !l.pin && isFrame dst
        | _ => false
    if !ready then none
    else
      let s := if isFrame src then dropReplicas s src else s
      -- step 1
      let s := if isFrame src then modFrame s src (fun f => { f with state := .moving }) else setResidence s hc hh (some (.home hc hh))
      let dt := (frameAt s dst).ten
      let pk := if isFrame src then f.pk else l.pk
      let s := if isFrame dst then setFrame s dst { Frame.blank with
          ten := dt, state := .filling, aspace := aspace, vpage := vpage, hclu := hc, hpage := hh, srcSealed := !isFrame src, team := team, pk := pk }
        else s
      -- step 2
      let f := frameAt s src
      let want := if isFrame dst then f.valid else f.dirty
      let (sent, s) := sendSectors s src false (sectorsOf want)
      let s := if isFrame src then modFrame s src (fun f => { f with dirty := 0 }) else s
      -- step 3
      match rewriteLeaf s part aspace va src l.ten dst (if isFrame dst then dt else 0) with
      | none => none
      | some s =>
        let s := if isFrame dst then setResidence s hc hh (some dst) else s
        let (mv, s) := newId s
        some (mv, { s with moves := nmPut mv ⟨part, aspace, vpage, src, dst, l.ten, dt, hc, hh, pk, team, true, !isFrame src,
          sent, 0, !isFrame src, false⟩ s.moves })

/-- The seal of a frame source (R366 step 4): dirtied sectors are sent again, recalls go out, the frame is given up. -/
def sealMove (s : State) (mv : Nat) : State :=
  match nmGet mv s.moves with
  | none => s
  | some m =>
    if m.sealed || !m.rewritten then s
    else
      let f := frameAt s m.src
      let (again, s) := sendSectors s m.src true (sectorsOf f.dirty)
      let s := modMove s mv (fun m => { m with sealed := true, sectors := m.sectors ++ again, resent := again.length })
      freeFrame (sendRecalls s m.part f.hold m.aspace m.vpage m.src) m.src

/-- Run a move through its seal, notice, landings and end, while the agenda holds nothing back. -/
def endMove (s : State) (mv : Nat) : State := finishMove (landMove (sealMove s mv) mv) mv

/-- Some group of the address space has asked for the page at home and has not been told that it is (R249). -/
def wantedHome (s : State) (part aspace vpage : Nat) : Bool :=
  s.teams.any (fun p => p.2.part = part && p.2.aspace = aspace && p.2.groups.any (fun g => g.2.placeHome.contains vpage))

/-- Move a page home now, if it is framed and nothing else moves it (R249, R375). `whole`: nothing of the move stays in flight. -/
def moveHome (s : State) (part aspace vpage : Nat) (whole : Bool) : State :=
  match leafNow s part aspace (vpage * 4096) with
  | none => s
  | some l =>
    if !isFrame l.place then s
    else
      let f := frameAt s l.place
      match startMove s part aspace vpage l (homePlace s part vpage f.hclu f.hpage) 0 with
      | none => s
      | some (mv, s) =>
        let (h, s) := if whole then (false, s) else popHold s
        if h then s else endMove s mv

/-- What follows a finished move of a page that PLACE `.home` has asked for meanwhile, though the group that asked may be gone by now (R249). -/
def followHome (s : State) (m : Move) : State :=
  if m.thenHome || wantedHome s m.part m.aspace m.vpage then moveHome s m.part m.aspace m.vpage false else s
/-- Run a move to its end; a move home that was asked for meanwhile follows it (R249). -/
def runMove (s : State) (mv : Nat) : State :=
  let s' := endMove s mv
  match nmGet mv s.moves, nmGet mv s'.moves with
  | some m, none => followHome s' m
  | _, _ => s'

/-! ## The clocks (R367, R375, R399) -/

/-- The leaf that a frame's directory names no longer names the frame (R367). -/
def unnamed (s : State) (part : Nat) (p : Place) : Bool :=
  let f := frameAt s p
  f.state = .resident && !f.tbl && f.replicaOf.isNone && (leafNaming s part f.aspace (f.vpage * 4096) p f.ten).isNone

/-- A frame whose leaf no longer names it is freed without a write-back (R367), after the commit in progress there (R374). -/
def freeUnnamed (s : State) (p : Place) : State :=
  let s := finishCommit s p
  let f := frameAt s p
  wakeParked (freeFrame (setResidence (dropReplicas s p) f.hclu f.hpage none) p) 0 [p, .home f.hclu f.hpage]

/-- One frame under a clock hand: freed (R367), ref cleared, or taken (R375). -/
inductive Pass1 where
  | gone (s : State)
  | passed (s : State)
  | taken (s : State)

def clockAt (s : State) (part : Nat) (p : Place) : Pass1 :=
  let f := frameAt s p
  if unnamed s part p then .gone (freeUnnamed s p)
  else if f.ref_ then .passed (modFrame s p (fun f => { f with ref_ := false }))
  else if f.state = .resident && !f.tbl then .taken s
  else .passed s

/-- Pass frames in the given order until one is freed or taken; the frame's number. -/
def clockRun (s : State) (part : Nat) (place : Nat → Place) : List Nat → Option Nat × Bool × State
  | [] => (none, false, s)
  | n :: l =>
    match clockAt s part (place n) with
    | .gone s => (some n, false, s)
    | .taken s => (some n, true, s)
    | .passed s => clockRun s part place l

/-- Numbers below `n` from a hand's position on, wrapped round; a hand that a SPLIT has left beyond the last frame wraps to the first. -/
def fromHand (n hand : Nat) : List Nat :=
  let first := if hand < n then hand else 0
  (List.range n).map (fun i => (first + i) % n)

/-- Evict one frame of a set by a clock (R375): a replica is dropped, when no commit of its page is under way (R374); another frame's page
goes home. -/
def evict (s : State) (part : Nat) (p : Place) : State :=
  let f := frameAt s p
  match f.replicaOf, p with
  | some h, .near core n => dropReplica (finishCommit s h) h core n
  | _, _ => moveHome s part f.aspace f.vpage true

/-- The near frames of a core that a team holds (R101). -/
def teamNears (s : State) (core team : Nat) : List Nat :=
  (List.range (nearCount (coreOf s core))).filter (fun n =>
    let f := nearFrame s core n
    f.team = team && f.state ≠ .free && f.state ≠ .quarantined)
/-- Evict one of the team's near frames (R399 step 1). -/
def evictNear (s : State) (part core team : Nat) : State :=
  let mine := teamNears s core team
  let order := (fromHand (max 1 (nearCount (coreOf s core))) (coreOf s core).hand).filter (fun n => mine.contains n)
  let (r, take, s) := clockRun s part (.near core) (order ++ order)
  match r with
  | none => s
  | some n =>
    let s := if take then evict s part (.near core n) else s
    modCore s core (fun c => { c with hand := (n + 1) % max 1 (nearCount c) })
/-- The lowest free near frame outside quarantine (R399 step 3). -/
def freeNear (s : State) (core : Nat) : Option Nat :=
  (List.range (nearCount (coreOf s core))).find? (fun n => (nearFrame s core n).state = .free)

/-- Evict one frame of a slice (R402, R375). -/
def evictFar (s : State) (part c sl : Nat) : State :=
  let hand := nmGetD (clusterOf s c).hands sl 0
  let order := fromHand Config.framesPerSlice hand
  let (r, take, s) := clockRun s part (.far c sl) (order ++ order)
  match r with
  | none => s
  | some n =>
    let s := if take then evict s part (.far c sl n) else s
    modCluster s c (fun x => { x with hands := nmPut sl ((n + 1) % Config.framesPerSlice) x.hands })

/-! ## The decisions of the agents (R375, R399, R402) -/

/-- The page lies in a near frame of the core already, as its frame or as a replica. -/
def nearAlready (s : State) (core : Nat) (l : Leaf) : Bool :=
  (match l.place with
  | .near c _ => c = core
  | _ => false) || (frameAt s l.place).repl.any (fun q => q.1 = core)

/-- The home page of a leaf's page. -/
def homeOf (s : State) (l : Leaf) : Nat × Nat :=
  match l.place with
  | .home c h => (c, h)
  | p => ((frameAt s p).hclu, (frameAt s p).hpage)

/-- Make a replica on a core (R373), in a free near frame. The core may be one of another cluster than the home frame: `repl` names no cluster, and
no rule says (R363; DESIGN CHOICE, log entry 94). -/
def makeReplica (s : State) (core team aspace vpage n : Nat) (l : Leaf) : State :=
  let h := frameAt s l.place
  if 4 ≤ h.repl.length || h.state ≠ .resident || h.ten ≠ l.ten then s
  else
    let ten := (nearFrame s core n).ten
    let (x, s) := carriedPage s l.place
    let s := setFrame s (.near core n) { Frame.blank with
      ten := ten, state := .resident, aspace := aspace, vpage := vpage, hclu := h.hclu, hpage := h.hpage, data := x.1,
      valid := x.2, replicaOf := some l.place, team := team, pk := l.pk }
    let s := modFrame s l.place (fun f => { f with repl := f.repl ++ [(core, n)] })
    stashInstall (stashDrop s core aspace (vpage * 4096)) core aspace (vpage * 4096) l

/-- Give up the team's frames until it holds fewer than the quota (R399 step 1). -/
def makeRoom (part core team quota : Nat) : Nat → State → State
  | 0, s => s
  | k + 1, s => if (teamNears s core team).length < quota then s else makeRoom part core team quota k (evictNear s part core team)

/-- A core agent decides a request for one page (R399): a PLACE's (`asked`), or its own. A replica is made for a PLACE only (R373). A host page
of a device-owned window may be framed, but not for a PLACE, which R399 declines (R375, R412), and a page of the pool window never (R113). Where
the frames evicted for the page go into quarantine and no other is free, the page is not filled: no rule says more (DESIGN CHOICE, log entry 96). -/
def placeNear (s : State) (part core team aspace vpage : Nat) (asked : Bool) : State :=
  match leafNow s part aspace (vpage * 4096) with
  | none => s
  | some l =>
    let (hc, hh) := homeOf s l
    let quota := (coreOf s core).nearQuota
    let mine := teamNears s core team
    let surplus := mine.length - quota + 1
    let external := match l.place with
      | .ext idx => asked || (partOf s part).releasing.contains idx || (ownedPage s part idx (vpage * 4096)).isNone
      | _ => false
    if inPool (vpage * 4096) || l.pin || l.big || external || moving s part aspace vpage hc hh || quota = 0 || nearAlready s core l then s
    else if mine.length < quota && (freeNear s core).isNone then s
    else if quota ≤ mine.length && (mine.filter (fun n => (nearFrame s core n).state = .resident)).length < surplus then s
    else if l.rep ≠ 0 && !(asked && isFrame l.place) then s
    else
      let s := if quota ≤ mine.length then makeRoom part core team quota mine.length s else s
      match (if (teamNears s core team).length < quota then freeNear s core else none) with
      | none => s
      | some n =>
        if l.rep ≠ 0 then makeReplica s core team aspace vpage n l
        else
          match startMove s part aspace vpage l (.near core n) team with
          | none => s
          | some (mv, s) =>
            let (h, s) := if isFrame l.place then popHold s else (false, s)
            if h then s else runMove s mv

/-- Evict frames of a slice until one is free: an evicted frame may go into quarantine (R372, R402). -/
def makeRoomFar (part c sl : Nat) : Nat → State → State
  | 0, s => s
  | k + 1, s => if (freeFar s c sl).isSome then s else makeRoomFar part c sl k (evictFar s part c sl)

/-- A slice agent decides a request for one page (R402), for slice h mod 96 of its home cluster, or of the cluster that the Sideboard
or PAGE_MOVE names (R375). No page of the pool window is framed (R113). -/
def placeFar (s : State) (part aspace vpage : Nat) (dest : Option Nat) : State :=
  match leafNow s part aspace (vpage * 4096) with
  | none => s
  | some l =>
    let (hc, hh) := homeOf s l
    let decline := inPool (vpage * 4096) || l.pin || l.big || hostHome hc || moving s part aspace vpage hc hh || (match l.place with
      | .ext _ => true
      | .far _ _ _ => true
      | .home c h => (residenceOf s c h).isSome
      | _ => false)
    if decline then s
    else
      let sl := hh % 96
      let cl := dest.getD hc
      let s := makeRoomFar part cl sl Config.framesPerSlice s
      match freeFar s cl sl with
      | none => s
      | some n =>
        match startMove s part aspace vpage l (.far cl sl n) 0 with
        | none => s
        | some (mv, s) =>
          let (h, s) := popHold s
          if h then s else runMove s mv

/-! ## PLACE (R249) -/

/-- The pages that hold n bytes from an address on, the first 512, within mem and outside the pool window (R249). -/
def placePages (a n : Nat) : List Nat :=
  if n = 0 then []
  else
    let first := a / 4096
    let count := min 512 ((a + n - 1) / 4096 + 1 - first)
    ((List.range count).map (fun i => first + i)).filter (fun v => v < 2 ^ 36 && !inPool (v * 4096))

/-- A page is framed or replicated, or on its way (R249). -/
def awayFromHome (s : State) (part aspace vpage : Nat) : Bool := !pageAtHome s part aspace vpage

def placeOne (c : Ctx) (w : Nat) (s : State) (vpage : Nat) : State :=
  match w with
  | 0 => placeNear s c.t.part c.core c.tid c.t.aspace vpage true
  | 1 =>
    let (h, s) := popHold s
    if h then post s (.placeFar c.t.part c.t.aspace vpage) else placeFar s c.t.part c.t.aspace vpage none
  | _ =>
    if awayFromHome s c.t.part c.t.aspace vpage then
      let s := modGroup s c.tid c.gid (fun g => { g with placeHome := g.placeHome ++ [vpage] })
      let asked (m : Move) : Bool := m.part = c.t.part && m.aspace = c.t.aspace && m.vpage = vpage
      let s := { s with moves := s.moves.map (fun m => (m.1, if asked m.2 then { m.2 with thenHome := true } else m.2)) }
      moveHome s c.t.part c.t.aspace vpage false
    else s

/-- A load of a core that a replica would serve from then on is on its way to the home frame by the translation that it has used (R361, R364). -/
def loadOn (s : State) (core : Nat) (home : Place) (rep : Nat) : Bool :=
  let load (r : MemReq) : Bool := r.core = core && r.acc = .read && r.place = home && !(r.far && rep = 2)
  s.flight.any (fun m => match m.2 with
    | .mem r => load r
    | .sector r _ => load r
    | _ => false)
/-- A replica creation waits for the commits of its page (R374), and for the core's earlier loads from the home frame, so that none of them
returns a later value than a load from the replica behind it (R138, R139). It waits in its PLACE, which issues then (DESIGN CHOICE, log entry
97). -/
def replicaWaits (s : State) (c : Ctx) (vpage : Nat) : Bool :=
  match leafNow s c.t.part c.t.aspace (vpage * 4096) with
  | some l => l.rep ≠ 0 && isFrame l.place && (commitOn s l.place || loadOn s c.core l.place l.rep)
  | none => false

def execPlace (len base : BitVec 6) (wher : BitVec 3) (s : State) : Host.Outcome State Fault Refusal :=
  issue (.place len base wher) (fun c s =>
    let pages := placePages (c.s base).toNat (c.s len).toNat
    if wher = 0 && pages.any (replicaWaits s c) then .hold .issue s
    else .done (pages.foldl (placeOne c wher.toNat) s)) s

/-! ## Events -/

/-- The touches of a page have reached a threshold at its home's Sideboard: the cluster of the core whose touch reached it (R375). -/
def wantedBy (s : State) (l : Leaf) : Option Nat :=
  match l.place with
  | .home c h => nmGet h (clusterOf s c).wanted
  | _ => none
/-- The Sideboard promotes a home page into a far frame; its touches count anew (R375). -/
def promoteFar (s : State) (part aspace vpage cl : Nat) (l : Leaf) : State :=
  match l.place with
  | .home c h =>
    placeFar (modCluster s c (fun x => { x with touches := nmDel h x.touches, wanted := nmDel h x.wanted })) part aspace vpage (some cl)
  | _ => s
/-- A core's touches of a page have reached its cluster's `touch_thresh` (R375), or the page is a host page that agents may frame (R412). -/
def wantedNear (s : State) (part core aspace vpage : Nat) (l : Leaf) : Bool :=
  match l.place with
  | .ext idx => (ownedPage s part idx (vpage * 4096)).isSome
  | _ => (clusterOf s (clusterOfCore core)).touchThresh ≤ nmGetD (coreOf s core).touches (aspace * 2 ^ 36 + vpage) 0
/-- The core agent promotes a page into a near frame for a team of that address space there; its touches count anew (R375). -/
def promoteNear (s : State) (part core aspace vpage : Nat) : State :=
  match s.teams.find? (fun t => t.2.resident && t.2.core = core && t.2.part = part && t.2.aspace = aspace) with
  | some t => placeNear (modCore s core (fun x => { x with touches := nmDel (aspace * 2 ^ 36 + vpage) x.touches })) part core t.1 aspace vpage false
  | none => s

/-- PAGE_MOVE: an agent moves a page (R366, R375): home, or as touches let it, into the slice of its home page or into a near frame of a
core. -/
def execPageMove (part aspace vpage : Nat) (dst : MoveTo) (s : State) : Host.Outcome State Fault Refusal :=
  .next (match leafNow s part aspace (vpage * 4096) with
    | none => s
    | some l =>
      match dst with
      | .home => moveHome s part aspace vpage false
      | .far c sl =>
        if (homeOf s l).2 % 96 = sl && inPartition s part c && wantedBy s l = some c then promoteFar s part aspace vpage c l else s
      | .near core => if wantedNear s part core aspace vpage l then promoteNear s part core aspace vpage else s)

/-- FRAME_SEAL (R366 step 4). -/
def execFrameSeal (mv : Nat) (s : State) : Host.Outcome State Fault Refusal := .next (sealMove s mv)
/-- SEAL_NOTICE (R403). -/
def execSealNotice (mv : Nat) (s : State) : Host.Outcome State Fault Refusal :=
  let s := noticeMove s mv
  .next (match nmGet mv s.moves with
    | some m => sealedAt s m
    | none => s)
/-- SECTOR_LANDING (R403); on its way to the host a sector stays behind older posted writes (R153, R412). -/
def execSectorLanding (mv sector : Nat) (s : State) : Host.Outcome State Fault Refusal :=
  .next (match nmGet mv s.moves with
    | none => s
    | some m =>
      if m.toHost && hostPending s s.nextId then s
      else
        let s := landSector s mv sector
        match nmGet mv s.moves with
        | some m => sealedAt s m
        | none => s)
/-- MOVE_DONE (R366 step 5, R369), after which a PLACE `.home` that came meanwhile is served (R249). -/
def execMoveDone (mv : Nat) (s : State) : Host.Outcome State Fault Refusal :=
  .next (match nmGet mv s.moves with
    | none => s
    | some m =>
      let s := finishMove s mv
      if (nmGet mv s.moves).isNone then followHome s m else s)

/-- PLACE_FAR_REQUEST (R402). -/
def execPlaceFarRequest (id : Nat) (s : State) : Host.Outcome State Fault Refusal :=
  .next (match nmGet id s.flight with
    | some (.placeFar part aspace vpage) => placeFar (dropMsg s id) part aspace vpage none
    | _ => s)

/-- RECALL (R371). -/
def execRecall (id : Nat) (s : State) : Host.Outcome State Fault Refusal :=
  .next (match nmGet id s.flight with
    | some (.recall core aspace vpage loc) => takeRecall (dropMsg s id) core aspace vpage loc
    | _ => s)

/-- TOUCH_PROMOTION (R375): a home page whose touches have reached the threshold goes into a far frame of the cluster of the core whose touch
reached it, another into a near frame of the touching core. -/
def execTouchPromotion (core aspace vpage : Nat) (s : State) : Host.Outcome State Fault Refusal :=
  .next (match s.teams.find? (fun t => t.2.resident && t.2.core = core && t.2.aspace = aspace) with
    | none => s
    | some t =>
      match leafNow s t.2.part aspace (vpage * 4096) with
      | none => s
      | some l =>
        if wantedBy s l = some (clusterOfCore core) then promoteFar s t.2.part aspace vpage (clusterOfCore core) l
        else if !(l.place matches .ext _) && wantedNear s t.2.part core aspace vpage l then promoteNear s t.2.part core aspace vpage
        else s)

/-- FRAME_ACCESS: a request arrives at a frame (R364). -/
def execFrameAccess (id : Nat) (s : State) : Host.Outcome State Fault Refusal :=
  .next (match nmGet id s.flight with
    | some (.mem r) => if isFrame r.place then performMsg s id r else s
    | _ => s)
/-- SIDEBOARD_ACCESS: a request arrives at a home page, the pool window or a port die (R365, R410). -/
def execSideboardAccess (id : Nat) (s : State) : Host.Outcome State Fault Refusal :=
  .next (match nmGet id s.flight with
    | some (.mem r) => if isFrame r.place then s else performMsg s id r
    | _ => s)
/-- SECTOR_ARRIVAL: the sector that an access waited for arrives (R117). -/
def execSectorArrival (id : Nat) (s : State) : Host.Outcome State Fault Refusal :=
  .next (match nmGet id s.flight with
    | some (.sector r _) =>
      if heldBack s r id then s
      else performMsg (if (missing s r).isSome then { s with holds := false :: s.holds } else s) id r
    | _ => s)
/-- BOUNCE: a bounced request has returned; its core walks again and replays it (R369). -/
def execBounce (id : Nat) (s : State) : Host.Outcome State Fault Refusal :=
  .next (match nmGet id s.flight with
    | some (.bounced r) => if heldBack s r id then s else replay s id r
    | _ => s)
/-- LOAD_DATA_RETURN: a result arrives and is written (R239), in a shared register with the others of its instruction (R47). -/
def execLoadDataReturn (id : Nat) (s : State) : Host.Outcome State Fault Refusal :=
  .next (match nmGet id s.flight with
    | some (.result r bs) =>
      let s := if sharedNames s r.team r.group (destRegs r.dest) = [] then deliver (dropMsg s id) r bs else s
      fillAfter s r
    | _ => s)

/-- PAGE_WALK: a walker reads the tables and installs the leaf (R358, R360). -/
def execPageWalk (core aspace vpage : Nat) (s : State) : Host.Outcome State Fault Refusal :=
  let part := partOfCluster s.layout (clusterOfCore core)
  let va := vpage * 4096
  .next (if (stashFind s core aspace va).isSome || inPool va then s
    else
      match walkDescriptor s part aspace with
      | (.error _, s) => s
      | (.ok d, s) =>
        match walkRoot true s part aspace d va with
        | (.leaf l _, s) => stashInstall s core aspace va l
        | (.fault _, s) => s)

/-- REPLICA_LOCK: a replica is locked and acknowledges (R374 step 1). -/
def execReplicaLock (id : Nat) (s : State) : Host.Outcome State Fault Refusal :=
  .next (match nmGet id s.flight with
    | some (.lock cm core n) =>
      post (modFrame (dropMsg s id) (.near core n) (fun f => { f with locked := true })) (.lockAck cm core n)
    | _ => s)
/-- REPLICA_UPDATE: a replica takes the new bytes, unlocks and acknowledges (R374 step 3). -/
def execReplicaUpdate (id : Nat) (s : State) : Host.Outcome State Fault Refusal :=
  .next (match nmGet id s.flight with
    | some (.update cm core n) =>
      (match nmGet cm s.flight with
      | some (.commit r off _ _) => post (updateReplica (dropMsg s id) r.place off r.size core n) (.updateAck cm core n)
      | _ => dropMsg s id)
    | _ => s)

/-- REPLICA_ACKNOWLEDGEMENT (R374): after the last lock the write is performed; after the last update it is counted. -/
def execReplicaAcknowledgement (id : Nat) (s : State) : Host.Outcome State Fault Refusal :=
  .next (
    let ack (cm core n : Nat) : State :=
      let s := dropMsg s id
      match nmGet cm s.flight with
      | some (.commit r off waiting done) =>
        let w := waiting.filter (fun q => q ≠ (core, n))
        let s := putMsg s cm (.commit r off w done)
        if !w.isEmpty then s
        else if done then
          let s := commitDone s cm r
          if wantedHome s r.part r.aspace (r.va / 4096) then moveHome s r.part r.aspace (r.va / 4096) false else s
        else fillAfter (commitWrite s cm r off) r
      | _ => s
    match nmGet id s.flight with
    | some (.lockAck cm core n) => ack cm core n
    | some (.updateAck cm core n) => ack cm core n
    | _ => s)

/-- STASH_SWEEP (R372): once each of the cluster's requests is performed or bounced and 2^20 cycles have passed, entries of the other colour go and
the colour flips; frames leave quarantine after two sweeps on every cluster of their partition. -/
def execStashSweep (cluster : Nat) (s : State) : Host.Outcome State Fault Refusal :=
  let c := clusterOf s cluster
  let busy := s.flight.any (fun m => match m.2 with
    | .result _ _ => false
    | .bounced _ => false
    | .parked _ _ => false
    | x => (match x.req with
      | some r => !r.foreign && clusterOfCore r.core = cluster
      | none => false))
  .next (if c.cycle < c.lastSweep + 2 ^ 20 || busy then s
    else
      let s := modCluster s cluster (fun x => { x with colour := !x.colour, sweeps := x.sweeps + 1, lastSweep := x.cycle })
      let s := { s with cores := s.cores.map (fun p => if clusterOfCore p.1 = cluster then
        (p.1, { p.2 with stash := p.2.stash.filter (fun e => e.colour = c.colour) }) else p) }
      let clus (cl : Nat) := partClusters s.layout (partOfCluster s.layout cl)
      let leave (cl : Nat) (f : Frame) : Frame :=
        if f.state = .quarantined && (clus cl).all (fun k => f.sweeps.getD k 0 + 2 ≤ (clusterOf s k).sweeps)
        then { f with state := .free, sweeps := [] } else f
      { s with
        cores := s.cores.map (fun p => (p.1, { p.2 with nears := p.2.nears.map (fun q => (q.1, leave (clusterOfCore p.1) q.2)) }))
        clusters := s.clusters.map (fun p => (p.1, { p.2 with slices := p.2.slices.map (fun sl => (sl.1, sl.2.map (fun q => (q.1, leave p.1 q.2)))) })) })

end Sys2Proof.Machine
end

