-- ==== Sys2Proof/Machine/Sync.lean ====
section
/-! DEFINITION. Named barriers (R262 to R264, R398), named queues (R265 to R267) and exchange phases (R268 to R271). -/

namespace Sys2Proof.Machine

/-- Every access that a team issued before a name has been performed (R135): the edge of a synchronising instruction. Pool accesses are ordered
by fences only (R114), and a delivery that a drawer has refused, for which nobody waits (R271), keeps its place before the team's younger ones
to the same bytes (`behindRefused`). -/
def settledBefore (s : State) (tid mark : Nat) : Bool :=
  !s.flight.any (fun m => m.1 < mark && m.2.access.any (fun a => a.team = tid && !a.pool && !a.refused))

/-! ## Barriers (R262 to R264) -/

/-- The live set of a barrier's present phase: its mask, of the indices in use, without those that join later (R263). -/
def Team.live (t : Team) (b : Barrier) : List Nat :=
  (t.groups.map (·.1)).filter (fun g => b.mask.getLsbD g && !b.joinNext.contains g)
/-- The phase completes when someone has arrived and every live member has (R263). -/
def Team.completeBarrier (t : Team) (mark : Nat) (b : Barrier) : Barrier :=
  if b.arrived ≠ [] && (t.live b).all b.arrived.contains then
    { b with phase := b.phase + 1, arrived := [], joinNext := [], mark := mark }
  else b
def Team.completeBarriers (t : Team) (mark : Nat) : Team := { t with bars := t.bars.map (fun p => (p.1, t.completeBarrier mark p.2)) }
/-- A group that starts joins each barrier that names its index: the present phase if nobody has arrived, else the next (R263). -/
def Team.joinBarriers (t : Team) (g : Nat) : Team :=
  { t with bars := t.bars.map (fun p =>
      (p.1, if p.2.mask.getLsbD g && p.2.arrived ≠ [] then { p.2 with joinNext := g :: p.2.joinNext } else p.2)) }

/-- A wait on a barrier whose phase has not completed. -/
def Team.stuck (t : Team) (g : Group) : Bool :=
  match g.wait with
  | some (.barrier b ph) => (match nmGet b t.bars with
    | some x => x.phase ≤ ph
    | none => false)
  | some (.bararr b ph) => (match nmGet b t.bars with
    | some x => x.phase ≤ ph
    | none => false)
  | _ => false

/-- The barrier unit's check (R398): when every live group waits on a barrier phase that has not completed, none can; 0x0A names
the lowest group index, and no lanes: it is the unit's fault and no instruction's (log entry 13). -/
def checkDeadlock (s : State) (tid : Nat) : State :=
  match teamOf s tid with
  | none => s
  | some t =>
    if t.resident && !t.stopping && t.groups ≠ [] && t.groups.all (fun p => t.stuck p.2) then
      match t.groups with
      | (gid, g) :: _ => takeFault (lrBump s 6 (clusterOfCore t.core) 1 (2 ^ 32 - 1)) tid gid ⟨0x0A, g.index, g.restart, 0, 0, 0, 0, false, 0, some g.restart, s.nextId, true⟩
      | [] => s
    else s

/-- The number in a barrier or queue operand, when its higher bits are zero (R261). -/
def objNum (v : DWord) (bits : Nat) : Option Nat := if v.toNat < 2 ^ bits then some v.toNat else none

/-- The allocated barrier that an operand names (R261, R264). -/
def Ctx.barrier (c : Ctx) (b : BitVec 6) : Option (Nat × Barrier) :=
  (objNum (c.s b) 6).bind (fun n => (nmGet n c.t.bars).map (fun x => (n, x)))

def execBaralloc (d p : BitVec 6) (s : State) : Host.Outcome State Fault Refusal :=
  issue (.baralloc d p) (fun c s =>
    let m := (c.s p).toNat % 2 ^ 32
    if m = 0 ∨ 2 ^ c.t.header.gmax ≤ m then .bad 0x0C c.g.m0
    else
      match nmFree c.t.bars c.t.header.nbar with
      | none => onGroup (fun _ g => g.setS d.toNat 1) c s
      | some n =>
        let s := modTeam s c.tid (fun t => { t with bars := nmPut n ⟨BitVec.ofNat 32 m, 0, [], [], 0⟩ t.bars })
        onGroup (fun _ g => g.setS d.toNat (BitVec.ofNat 64 (n * 256))) c s) s

def execBarfree (d b : BitVec 6) (s : State) : Host.Outcome State Fault Refusal :=
  issue (.barfree d b) (fun c s =>
    match c.barrier b with
    | none => .bad 0x0C c.g.m0
    | some (n, x) =>
      let held := c.t.groups.any (fun p => p.1 ≠ c.gid && (match p.2.wait with
        | some (.barrier k _) => k = n
        | some (.bararr k _) => k = n
        | _ => false))
      if held || (c.t.live x).any x.arrived.contains then onGroup (fun _ g => g.setS d.toNat 3) c s
      else
        let s := modTeam s c.tid (fun t => { t with
          bars := nmDel n t.bars, groups := t.groups.map (fun p => (p.1, { p.2 with arrived := nmDel n p.2.arrived })) })
        onGroup (fun _ g => g.setS d.toNat 0) c s) s

/-- Record the arrival of the group in the present phase (R263). -/
def arrive (c : Ctx) (n : Nat) (x : Barrier) (s : State) : State :=
  modTeam s c.tid (fun t =>
    let t := t.modGroup c.gid (fun g => { g with arrived := nmPut n x.phase g.arrived })
    { t with bars := nmModify n (fun b => { b with arrived := c.g.index :: b.arrived }) t.bars }.completeBarriers s.nextId)

/-- The phase of the group's latest arrival, if it has not completed. -/
def pendingPhase (c : Ctx) (n : Nat) (x : Barrier) : Option Nat :=
  (nmGet n c.g.arrived).bind (fun ph => if x.phase ≤ ph then some ph else none)

/-- After an instruction that may have begun a barrier wait, the barrier unit checks the team (R398). -/
def thenCheck (tid : Nat) : Host.Outcome State Fault Refusal → Host.Outcome State Fault Refusal
  | .next s => .next (checkDeadlock s tid)
  | o => o

/-- The waiting half (R263): the phase has completed and the accesses before its arrivals are performed (R135). One that completes at once
is taken as a yield point too (log entry 59). -/
def awaitPhase (c : Ctx) (n ph : Nat) (s : State) : Eff :=
  match (teamOf s c.tid).bind (fun t => nmGet n t.bars) with
  | none => .done s
  | some x => if ph < x.phase && settledBefore s c.tid x.mark then .done (passYield s c.tid c.gid) else .hold (.barrier n ph) s

def execBararr (b : BitVec 6) (s : State) : Host.Outcome State Fault Refusal :=
  thenCheck s.cur.1 (issue (.bararr b) (fun c s =>
    match c.barrier b with
    | none => .bad 0x0C c.g.m0
    | some (n, x) =>
      if !x.mask.getLsbD c.g.index then .bad 0x0C c.g.m0
      else
        match pendingPhase c n x with
        | some ph => .hold (.bararr n ph) s
        | none => .done (arrive c n x s)) s)

/-- BARWAIT; a phase that has completed already is taken as a yield point too (log entry 59). -/
def execBarwait (b : BitVec 6) (s : State) : Host.Outcome State Fault Refusal :=
  thenCheck s.cur.1 (issue (.barwait b) (fun c s =>
    match c.barrier b with
    | none => .bad 0x0C c.g.m0
    | some (n, x) =>
      if !x.mask.getLsbD c.g.index then .bad 0x0C c.g.m0
      else
        match nmGet n c.g.arrived with
        | none => .done (passYield s c.tid c.gid)
        | some ph => awaitPhase c n ph s) s)

def execBarsync (b : BitVec 6) (s : State) : Host.Outcome State Fault Refusal :=
  thenCheck s.cur.1 (issue (.barsync b) (fun c s =>
    match c.barrier b with
    | none => .bad 0x0C c.g.m0
    | some (n, x) =>
      if !x.mask.getLsbD c.g.index then .bad 0x0C c.g.m0
      else
        match c.g.wait with
        | some (.barrier k ph) => if k = n then awaitPhase c n ph s else .done s
        | _ =>
          match pendingPhase c n x with
          | some ph => .hold (.bararr n ph) s
          | none => awaitPhase c n x.phase (arrive c n x s)) s)

/-! ## Queues (R265 to R267) -/

def Ctx.queue (c : Ctx) (q : BitVec 6) : Option (Nat × Queue) :=
  (objNum (c.s q) 5).bind (fun n => (nmGet n c.t.queues).map (fun x => (n, x)))
def setQueue (s : State) (tid n : Nat) (q : Queue) : State := modTeam s tid (fun t => { t with queues := nmPut n q t.queues })

def execQalloc (d a cc : BitVec 6) (s : State) : Host.Outcome State Fault Refusal :=
  issue (.qalloc d a cc) (fun c s =>
    let off := (c.s a).toNat
    let v := (c.s cc).toNat
    let cap := v % 2 ^ 16
    let al := v / 2 ^ 16
    if off % 4 ≠ 0 ∨ 2 ^ 18 ≤ off ∨ c.t.header.desk < off + 4 * cap ∨ cap = 0 ∨ 4096 < cap ∨ cap < al then .bad 0x0C c.g.m0
    else
      match nmFree c.t.queues c.t.header.nque with
      | none => onGroup (fun _ g => g.setS d.toNat 1) c s
      | some n => onGroup (fun _ g => g.setS d.toNat (BitVec.ofNat 64 (n * 256))) c (setQueue s c.tid n ⟨off, cap, 0, 0, al, [], [], []⟩)) s

def execQfree (d q : BitVec 6) (s : State) : Host.Outcome State Fault Refusal :=
  issue (.qfree d q) (fun c s =>
    match c.queue q with
    | none => .bad 0x0C c.g.m0
    | some (n, x) =>
      if 0 < x.e || x.pushers ≠ [] || x.poppers ≠ [] then onGroup (fun _ g => g.setS d.toNat 3) c s
      else onGroup (fun _ g => g.setS d.toNat 0) c (modTeam s c.tid (fun t => { t with queues := nmDel n t.queues }))) s

/-- Append a handle: its word goes into the ring in the desk (R265, R266). -/
def pushQueue (s : State) (tid n : Nat) (x : Queue) (h : DWord) : State :=
  let at_ := x.off + 4 * ((x.head + x.e) % x.cap)
  let s := modTeam s tid (fun t => t.writeDesk at_ (natBytes 4 h.toNat))
  setQueue s tid n { x with e := x.e + 1, a := x.a - 1, marks := x.marks ++ [s.nextId] }
/-- The oldest handle can be taken: its entry is there, the accesses before its push are performed (R135), and its ring line is present
(R106). -/
def canPop (s : State) (tid : Nat) (x : Queue) : Bool :=
  0 < x.e && settledBefore s tid (x.marks.headD 0) && (teamOf s tid).all (fun t => t.present (x.off + 4 * x.head) 4)
/-- Take the oldest handle. -/
def popQueue (s : State) (tid n : Nat) (x : Queue) : Nat × State :=
  let v := match teamOf s tid with
    | some t => readLE t.desk (x.off + 4 * x.head) 4
    | none => 0
  (v, setQueue s tid n { x with head := (x.head + 1) % x.cap, e := x.e - 1, marks := x.marks.drop 1 })

/-- The group stands first among waiters, or nobody waits. -/
def firstOf (l : List Nat) (g : Nat) : Bool := l.headD g = g
def waitIn (l : List Nat) (g : Nat) : List Nat := if l.contains g then l else l ++ [g]

def execQpush (q h : BitVec 6) (s : State) : Host.Outcome State Fault Refusal :=
  issue (.qpush q h) (fun c s =>
    match c.queue q with
    | none => .bad 0x0C c.g.m0
    | some (n, x) =>
      if 0 < x.a && firstOf x.pushers c.gid then
        .done (pushQueue s c.tid n { x with pushers := x.pushers.filter (· ≠ c.gid) } (c.s h))
      else .hold (.qpush n) (setQueue s c.tid n { x with pushers := waitIn x.pushers c.gid })) s

/-- QPOP; one that takes its handle at once is taken as a yield point too (log entry 59). -/
def execQpop (d q : BitVec 6) (s : State) : Host.Outcome State Fault Refusal :=
  issue (.qpop d q) (fun c s =>
    match c.queue q with
    | none => .bad 0x0C c.g.m0
    | some (n, x) =>
      if canPop s c.tid x && firstOf x.poppers c.gid then
        let (v, s) := popQueue s c.tid n { x with poppers := x.poppers.filter (· ≠ c.gid) }
        .done (passYield (modGroup s c.tid c.gid (fun g => g.setS d.toNat (BitVec.ofNat 64 v))) c.tid c.gid)
      else .hold (.qpop n) (setQueue s c.tid n { x with poppers := waitIn x.poppers c.gid })) s

/-- QTRY never overtakes a held group (R266). A pop of an entry whose push is not yet settled, or whose ring line is absent, is held before
issue (R106, R135; log entry 60). Where QTRY.pop names one register for both results, the status stands (log entry 61). -/
def execQtry (d q h : BitVec 6) (push : BitVec 1) (s : State) : Host.Outcome State Fault Refusal :=
  issue (.qtry d q h push) (fun c s =>
    match c.queue q with
    | none => .bad 0x0C c.g.m0
    | some (n, x) =>
      if isSet push then
        if 0 < x.a && x.pushers = [] then onGroup (fun _ g => g.setS d.toNat 0) c (pushQueue s c.tid n x (c.s h))
        else onGroup (fun _ g => g.setS d.toNat 2) c s
      else if 0 < x.e && x.poppers = [] then
        if canPop s c.tid x then
          let (v, s) := popQueue s c.tid n x
          onGroup (fun _ g => (g.setS h.toNat (BitVec.ofNat 64 v)).setS d.toNat 0) c s
        else .hold .issue s
      else onGroup (fun _ g => g.setS d.toNat 1) c s) s

def execQgrant (q n : BitVec 6) (s : State) : Host.Outcome State Fault Refusal :=
  issue (.qgrant q n) (fun c s =>
    match c.queue q with
    | none => .bad 0x0C c.g.m0
    | some (k, x) =>
      let v := (c.s n).toNat
      if 2 ^ 16 ≤ v ∨ x.cap < x.a + x.e + v then .bad 0x0C c.g.m0
      else .done (setQueue s c.tid k { x with a := x.a + v })) s

/-! ## Exchange phases (R268 to R271) -/

/-- A count kept per core and phase. -/
def phaseCount (l : List (Nat × Nat × Nat)) (core ph : Nat) : Nat :=
  (l.findSome? (fun x => if x.1 = core ∧ x.2.1 = ph then some x.2.2 else none)).getD 0
def dropPhase (l : List (Nat × Nat × Nat)) (ph : Nat) : List (Nat × Nat × Nat) := l.filter (fun x => x.2.1 ≠ ph)

/-- The cores that a neighbour mask names; nothing when it names an empty entry or has a bit above 7 (R269). -/
def Team.named (t : Team) (m : DWord) : Option (List Nat) :=
  if 2 ^ 8 ≤ m.toNat then none
  else
    let es := ((List.range 8).filter (fun i => m.getLsbD i)).map (fun i => t.exch.nbrs.getD i none)
    if es.contains none then none else some (es.filterMap (fun x => x)).eraseDups

/-- A close reaches the target team (R269). -/
def takeXclose (s : State) (grid src dst ph n : Nat) : State :=
  match teamOn s grid dst with
  | none => s
  | some tid => modTeam s tid (fun t => { t with exch := { t.exch with closes := (src, ph, n) :: t.exch.closes } })

/-- XARR (R269, R332): every other core named gets a close with the team's send count of the phase; later sends carry the next phase. A close
arrives no sooner than the accesses before it (R135). -/
def execXarr (m : BitVec 6) (s : State) : Host.Outcome State Fault Refusal :=
  issue (.xarr m) (fun c s =>
    let x := c.t.exch
    match c.t.named (c.s m) with
    | none => .bad 0x14 c.g.m0
    | some all =>
      let cores := all.filter (· ≠ c.core)
      let sent := (x.sends.filter (fun (y : Nat × Nat × Nat) => y.2.1 = x.phase ∧ y.2.2 ≠ 0)).map (·.1)
      if !c.t.gang || x.arrived || sent.any (fun k => k ≠ c.core && !cores.contains k) then .bad 0x14 c.g.m0
      else
        let s := modTeam s c.tid (fun t => { t with exch := { t.exch with arrived := true } })
        .done (cores.foldl (fun s k =>
          let (h, s) := popHold s
          let n := phaseCount x.sends k x.phase
          if h || !settledBefore s c.tid s.nextId then post s (.xclose c.t.grid c.core k x.phase n)
          else takeXclose s c.t.grid c.core k x.phase n) s)) s

/-- The drawer bytes of a phase are copied into the desk and their mask bits cleared, in one step (R146, R270). -/
def Team.merge (t : Team) (ph : Nat) : Team :=
  let mine := t.drawer.filter (fun b => b.phase = ph)
  { t with desk := mine.foldl (fun d b => writeByte d b.off b.val) t.desk, drawer := t.drawer.filter (fun b => b.phase ≠ ph) }

def execXwait (m : BitVec 6) (s : State) : Host.Outcome State Fault Refusal :=
  issue (.xwait m) (fun c s =>
    let x := c.t.exch
    match c.t.named (c.s m) with
    | none => .bad 0x14 c.g.m0
    | some all =>
      let cores := all.filter (· ≠ c.core)
      let closed := (x.closes.filter (fun (y : Nat × Nat × Nat) => y.2.1 = x.phase)).map (·.1)
      if !c.t.gang || !x.arrived || closed.any (fun k => !cores.contains k) then .bad 0x14 c.g.m0
      else if !cores.all (fun k => closed.contains k && phaseCount x.arrivals k x.phase = phaseCount x.closes k x.phase) ||
          phaseCount x.arrivals c.core x.phase ≠ phaseCount x.sends c.core x.phase then .hold .xwait s
      else if (c.t.drawer.filter (fun b => b.phase = x.phase)).any (fun b => c.t.lineAbsent (b.off / 128)) then .hold .xwait s
      else
        let s := modTeam s c.tid (fun t =>
          let t := t.merge x.phase
          { t with exch := { t.exch with phase := (x.phase + 1) % 4, arrived := false, sends := dropPhase t.exch.sends x.phase,
                                         arrivals := dropPhase t.exch.arrivals x.phase, closes := dropPhase t.exch.closes x.phase } })
        .done (passYield s c.tid c.gid)) s

/-- EXCHANGE_CLOSE (R269): a close arrives, after the accesses that its sender issued before it. -/
def execExchangeClose (id : Nat) (s : State) : Host.Outcome State Fault Refusal :=
  .next (match nmGet id s.flight with
    | some (.xclose grid src dst ph n) =>
      (match teamOn s grid src with
      | some tid => if settledBefore s tid id then takeXclose (dropMsg s id) grid src dst ph n else s
      | none => takeXclose (dropMsg s id) grid src dst ph n)
    | _ => s)

/-- DRAWER_DELIVERY: a delivery arrives at a drawer or a desk (R105). -/
def execDrawerDelivery (id : Nat) (s : State) : Host.Outcome State Fault Refusal :=
  .next (match nmGet id s.flight with
    | some (.delivery d false) =>
      if deliveryHeld s id d then s else takeDelivery (modCore (dropMsg s id) d.dst (fun c => { c with ingress := c.ingress - 1 })) id d
    | _ => s)
/-- DELIVERY_RETRY: a refused delivery is sent again (R271); it stays refused while the drawer bytes still hold the other phase. -/
def execDeliveryRetry (id : Nat) (s : State) : Host.Outcome State Fault Refusal :=
  .next (match nmGet id s.flight with
    | some (.delivery d true) =>
      let blocked := d.gang && ((teamOn s d.grid d.dst).bind (teamOf s)).any (fun t => drawerRefuses s id t d)
      if blocked || deliveryHeld s id d then s else takeDelivery (dropMsg s id) id d
    | _ => s)
/-- REMOTE_LOAD: a remote load is served at the target's desk (R105). -/
def execRemoteLoad (id : Nat) (s : State) : Host.Outcome State Fault Refusal :=
  .next (match nmGet id s.flight with
    | some (.rload tid gid core addr size dest ln f) => serveLoad s id tid gid core addr size dest ln f
    | _ => s)
/-- TARGET_GONE_ANSWER: the sending group takes 0x0D at its next boundary (R430); an ended group's team takes it. -/
def execTargetGoneAnswer (id : Nat) (s : State) : Host.Outcome State Fault Refusal :=
  .next (match nmGet id s.flight with
    | some (.gone tid gid addr ln) =>
      let s := dropMsg s id
      (match groupOf s tid gid with
      | some g => takeFault s tid gid ⟨0x0D, g.index, g.restart, addr, ln, 0, 0, false, 0, none, s.nextId, true⟩
      | none => modTeam s tid (fun t => t.meet ⟨0x0D, gid % 32, 0, addr, ln, 0, 0, false, 0, none, s.nextId, false⟩))
    | _ => s)

end Sys2Proof.Machine
end

