-- ==== Sys2Proof/Machine/VectorInt.lean ====
section
/-! DEFINITION. Class 2: vector integer arithmetic, compares and masks, and moving data between lanes (R208 to R221). -/

namespace Sys2Proof.Machine

/-- Write a vector result to d in the instruction's lanes unless nw is 1, and push it (R208, R59). -/
def writeVec (c : Ctx) (guard : BitVec 3) (nw : BitVec 1) (d : VCode) (r : Lanes) (s : State) : State :=
  let m := c.lanes guard
  let s := if isSet nw then s else modTeam s c.tid (fun t => t.setVLanes c.g d.toNat m r)
  modGroup s c.tid c.gid (fun g => g.latch (only m r))

/-- A lane-wise instruction on two operand codes (R208, R211). -/
def vecBin (op : Word → Word → Word) (guard : BitVec 3) (nw : BitVec 1) (d a b : VCode) : Ctx → State → Eff := fun c s =>
  let x := c.code a
  let y := c.code b
  .done (writeVec c guard nw d (ofLanes (fun i => op (lane x i) (lane y i))) s)

/-- A word read as signed or unsigned (R211). -/
def rd32 (signed : Bool) (x : Word) : Int := if signed then x.toInt else x.toNat
def word32 (x : Int) : Word := BitVec.ofNat 32 (wrapInt x 32)
def clampInt (lo hi x : Int) : Int := if x < lo then lo else if hi < x then hi else x
/-- VADD's and VSUB's result under mod: wrapping, signed or unsigned saturation (R211). -/
def addSat (mod : Nat) (f : Int → Int → Int) (x y : Word) : Word :=
  match mod with
  | 0 => word32 (f (rd32 false x) (rd32 false y))
  | 1 => word32 (clampInt (-2 ^ 31) (2 ^ 31 - 1) (f (rd32 true x) (rd32 true y)))
  | _ => word32 (clampInt 0 (2 ^ 32 - 1) (f (rd32 false x) (rd32 false y)))

def execVadd (guard : BitVec 3) (nw : BitVec 1) (d a b : BitVec 6) (mod : BitVec 2) (s : State) : Host.Outcome State Fault Refusal :=
  issue (.vadd guard nw d a b mod) (vecBin (addSat mod.toNat (· + ·)) guard nw d a b) s
def execVsub (guard : BitVec 3) (nw : BitVec 1) (d a b : BitVec 6) (mod : BitVec 2) (s : State) : Host.Outcome State Fault Refusal :=
  issue (.vsub guard nw d a b mod) (vecBin (addSat mod.toNat (· - ·)) guard nw d a b) s
def execVmul (guard : BitVec 3) (nw : BitVec 1) (d a b : BitVec 6) (s : State) : Host.Outcome State Fault Refusal :=
  issue (.vmul guard nw d a b) (vecBin (· * ·) guard nw d a b) s
def execVmulh (guard : BitVec 3) (nw : BitVec 1) (d a b : BitVec 6) (mod : BitVec 2) (s : State) : Host.Outcome State Fault Refusal :=
  issue (.vmulh guard nw d a b mod)
    (vecBin (fun x y => word32 ((rd32 (mod = 0) x * rd32 (mod = 0) y).fdiv (2 ^ 32))) guard nw d a b) s
def execVmad (guard : BitVec 3) (d a b : BitVec 6) (s : State) : Host.Outcome State Fault Refusal :=
  issue (.vmad guard d a b) (fun c s =>
    let z := c.v d.toNat
    let x := c.code a
    let y := c.code b
    .done (writeVec c guard 0 d (ofLanes (fun i => lane x i * lane y i + lane z i)) s)) s
def execVand (guard : BitVec 3) (nw : BitVec 1) (d a b : BitVec 6) (s : State) : Host.Outcome State Fault Refusal :=
  issue (.vand guard nw d a b) (vecBin (· &&& ·) guard nw d a b) s
def execVor (guard : BitVec 3) (nw : BitVec 1) (d a b : BitVec 6) (s : State) : Host.Outcome State Fault Refusal :=
  issue (.vor guard nw d a b) (vecBin (· ||| ·) guard nw d a b) s
def execVxor (guard : BitVec 3) (nw : BitVec 1) (d a b : BitVec 6) (s : State) : Host.Outcome State Fault Refusal :=
  issue (.vxor guard nw d a b) (vecBin (· ^^^ ·) guard nw d a b) s
def execVshl (guard : BitVec 3) (nw : BitVec 1) (d a b : BitVec 6) (s : State) : Host.Outcome State Fault Refusal :=
  issue (.vshl guard nw d a b) (vecBin (fun x y => x <<< (y.toNat % 32)) guard nw d a b) s
def execVshr (guard : BitVec 3) (nw : BitVec 1) (d a b : BitVec 6) (mod : BitVec 2) (s : State) : Host.Outcome State Fault Refusal :=
  issue (.vshr guard nw d a b mod)
    (vecBin (fun x y => if mod = 0 then x >>> (y.toNat % 32) else x.sshiftRight (y.toNat % 32)) guard nw d a b) s
def execVmin (guard : BitVec 3) (nw : BitVec 1) (d a b : BitVec 6) (mod : BitVec 2) (s : State) : Host.Outcome State Fault Refusal :=
  issue (.vmin guard nw d a b mod)
    (vecBin (fun x y => if rd32 (mod = 0) x ≤ rd32 (mod = 0) y then x else y) guard nw d a b) s
def execVmax (guard : BitVec 3) (nw : BitVec 1) (d a b : BitVec 6) (mod : BitVec 2) (s : State) : Host.Outcome State Fault Refusal :=
  issue (.vmax guard nw d a b mod)
    (vecBin (fun x y => if rd32 (mod = 0) x ≤ rd32 (mod = 0) y then y else x) guard nw d a b) s
def execVabsd (guard : BitVec 3) (nw : BitVec 1) (d a b : BitVec 6) (mod : BitVec 2) (s : State) : Host.Outcome State Fault Refusal :=
  issue (.vabsd guard nw d a b mod)
    (vecBin (fun x y => BitVec.ofNat 32 (rd32 (mod = 0) x - rd32 (mod = 0) y).natAbs) guard nw d a b) s

/-! ## Bits within a lane (R212) -/

def execVsel (guard : BitVec 3) (d a b : BitVec 6) (mod : BitVec 2) (s : State) : Host.Outcome State Fault Refusal :=
  issue (.vsel guard d a b mod) (fun c s =>
    let z := c.v d.toNat
    let x := c.code a
    let y := c.code b
    let pick (w : Word) := if mod = 0 then w ≠ 0 else w.msb
    .done (writeVec c guard 0 d (ofLanes (fun i => if pick (lane z i) then lane x i else lane y i)) s)) s
/-- A lane-wise instruction on one operand code. -/
def vecUn (op : Word → Word) (guard : BitVec 3) (nw : BitVec 1) (d a : VCode) : Ctx → State → Eff := fun c s =>
  let x := c.code a
  .done (writeVec c guard nw d (ofLanes (fun i => op (lane x i))) s)
def execVbit (guard : BitVec 3) (nw : BitVec 1) (d a : BitVec 6) (mod : BitVec 2) (s : State) : Host.Outcome State Fault Refusal :=
  issue (.vbit guard nw d a mod) (vecUn (fun x => BitVec.ofNat 32 (bitOp mod.toNat 32 x.toNat)) guard nw d a) s
/-- VEXT's field (R212). -/
def extField (signed : Bool) (a b : Word) : Word :=
  let p := bitsOf b.toNat 4 0
  let w := bitsOf b.toNat 13 8
  if w = 0 ∨ 32 < w then 0
  else
    let f := a.toNat / 2 ^ p % 2 ^ w
    if signed then sext32 f w else BitVec.ofNat 32 f
def execVext (guard : BitVec 3) (nw : BitVec 1) (d a b : BitVec 6) (mod : BitVec 2) (s : State) : Host.Outcome State Fault Refusal :=
  issue (.vext guard nw d a b mod) (vecBin (extField (mod = 1)) guard nw d a b) s

/-! ## Compares and masks (R210, R213 to R215) -/

/-- A compare writes its destination mask: its bits in the lanes, every other bit cleared (R210). -/
def writeMask (c : Ctx) (guard mask : BitVec 3) (f : Nat → Bool) (s : State) : State :=
  modGroup s c.tid c.gid (fun g => g.setMask mask.toNat (maskOf f &&& c.lanes guard))
def execVcmp (guard cond mask : BitVec 3) (a b : BitVec 6) (mod : BitVec 2) (s : State) : Host.Outcome State Fault Refusal :=
  issue (.vcmp guard cond mask a b mod) (fun c s =>
    let x := c.code a
    let y := c.code b
    .done (writeMask c guard mask
      (fun i => intCond cond.toNat (rd32 (mod = 0) (lane x i)) (rd32 (mod = 0) (lane y i))) s)) s
/-- MOP's operation (R214). -/
def maskOp (op : Nat) (x y : Mask) : Mask :=
  match op with
  | 0 => x &&& y
  | 1 => x ||| y
  | 2 => x ^^^ y
  | 3 => x &&& ~~~y
  | 4 => ~~~x
  | 5 => x &&& (-x)
  | _ => x
def execMop (op mask mX mY : BitVec 3) (s : State) : Host.Outcome State Fault Refusal :=
  issue (.mop op mask mX mY)
    (onGroup (fun c g => g.setMask mask.toNat (maskOp op.toNat (c.g.mask mX.toNat) (c.g.mask mY.toNat)))) s
def execMcnt (guard : BitVec 3) (d : BitVec 6) (mX : BitVec 3) (mod : BitVec 2) (s : State) : Host.Outcome State Fault Refusal :=
  issue (.mcnt guard d mX mod) (toScalar d (fun c =>
    let x := (c.g.mask mX.toNat &&& c.lanes guard).toNat
    BitVec.ofNat 64 (if mod = 0 then popcount x 32 else if mod = 1 then ctz x 32 else if x = 0 then 32 else x.log2))) s

/-! ## Moving data between lanes (R216 to R221) -/

def execVlane (guard : BitVec 3) (nw : BitVec 1) (d : BitVec 6) (mod : BitVec 2) (s : State) : Host.Outcome State Fault Refusal :=
  issue (.vlane guard nw d mod) (fun c s =>
    let m := c.lanes guard
    .done (writeVec c guard nw d (ofLanes (fun i => BitVec.ofNat 32 (if mod = 0 then i else popcount (m.toNat % 2 ^ i) 32))) s)) s
/-- Write a pair result and push both halves, the even register first (R59, R208). -/
def writePair (c : Ctx) (guard : BitVec 3) (nw : BitVec 1) (d : VCode) (r : Nat → Nat) (s : State) : State :=
  let m := c.lanes guard
  let lo := ofLanes (fun i => lo32 (r i))
  let hi := ofLanes (fun i => hi32 (r i))
  let s := if isSet nw then s else
    modTeam s c.tid (fun t => (t.setVLanes c.g d.toNat m lo).setVLanes c.g (d.toNat + 1) m hi)
  modGroup s c.tid c.gid (fun g => (g.latch (only m lo)).latch (only m hi))
def execVmov (guard : BitVec 3) (nw : BitVec 1) (d a b : BitVec 6) (mod : BitVec 2) (s : State) : Host.Outcome State Fault Refusal :=
  issue (.vmov guard nw d a b mod) (fun c s =>
    .done (
      if mod = 0 then writeVec c guard nw d (c.code a) s
      else if mod = 1 then writeVec c guard nw d (ofLanes (fun _ => lo32 (c.s a).toNat)) s
      else if mod = 2 then writeVec c guard nw d (ofLanes (fun _ => lane (c.code a) b.toNat)) s
      else writePair c guard nw d (fun _ => (c.s a).toNat) s)) s
def execVshuf (guard : BitVec 3) (nw : BitVec 1) (d a b : BitVec 6) (mod : BitVec 2) (s : State) : Host.Outcome State Fault Refusal :=
  issue (.vshuf guard nw d a b mod) (fun c s =>
    let x := c.across guard a
    let y := c.across guard b
    .done (writeVec c guard nw d (ofLanes (fun i =>
      let k := (lane y i).toNat
      if mod = 0 then lane x (k % 32) else if k < 32 then lane x k else 0)) s)) s
def execVrot (guard : BitVec 3) (nw : BitVec 1) (d a b : BitVec 6) (mod : BitVec 2) (s : State) : Host.Outcome State Fault Refusal :=
  issue (.vrot guard nw d a b mod) (fun c s =>
    let x := c.across guard a
    let n := b.toNat
    .done (writeVec c guard nw d (ofLanes (fun i => lane x (if mod = 0 then (i + n) % 32 else (i + 32 - n) % 32))) s)) s
def execVslide (guard : BitVec 3) (nw : BitVec 1) (d a b : BitVec 6) (mod : BitVec 2) (s : State) : Host.Outcome State Fault Refusal :=
  issue (.vslide guard nw d a b mod) (fun c s =>
    let x := c.across guard a
    let y := c.across guard b
    let n := mod.toNat + 1
    .done (writeVec c guard nw d (lanesOfBytes (fun j => if n ≤ j then regByte x (j - n) else regByte y (128 - n + j))) s)) s

/-- The identity of a scan or reduction (R220). -/
def redIdentity (op : Nat) : Word :=
  match op with
  | 1 => 0xFFFFFFFF
  | 4 => 0x7FFFFFFF
  | 5 => 0x80000000
  | 6 => 0xFFFFFFFF
  | _ => 0
/-- One step of a scan or reduction, with its flags (R220). -/
def redStep (op : Nat) (r x : Word) : Word × FFlags :=
  match op with
  | 0 => (r + x, .none)
  | 1 => (r &&& x, .none)
  | 2 => (r ||| x, .none)
  | 3 => (r ^^^ x, .none)
  | 4 => (if r.toInt ≤ x.toInt then r else x, .none)
  | 5 => (if r.toInt ≤ x.toInt then x else r, .none)
  | 6 => (if r ≤ x then r else x, .none)
  | 7 => (if r ≤ x then x else r, .none)
  | _ =>
    let f := fpAdd fp32 .rne (decodeF fp32 r.toNat) (decodeF fp32 x.toNat)
    (BitVec.ofNat 32 f.bits, f.fl)
/-- Combine the lanes of a list in order: the values before and after each lane, the result and the flags (R220). -/
def scanLanes (op : Nat) (v : Lanes) : List Nat → Word → FFlags → List (Nat × Word × Word) × Word × FFlags
  | [], r, fl => ([], r, fl)
  | j :: js, r, fl =>
    let (r', f) := redStep op r (lane v j)
    let (l, e, fl') := scanLanes op v js r' (fl.or f)
    ((j, r, r') :: l, e, fl')
def execVscan (guard : BitVec 3) (nw : BitVec 1) (d a b : BitVec 6) (mod : BitVec 1) (s : State) : Host.Outcome State Fault Refusal :=
  issue (.vscan guard nw d a b mod) (fun c s =>
    let (l, _, fl) := scanLanes b.toNat (c.code a) (lanesOf (c.lanes guard)) (redIdentity b.toNat) .none
    let r := ofLanes (fun i => match l.find? (fun p => p.1 = i) with
      | some p => if isSet mod then p.2.1 else p.2.2
      | none => 0)
    .done (modGroup (writeVec c guard nw d r s) c.tid c.gid (fun g => g.raise fl))) s
def execVred (guard : BitVec 3) (d a b : BitVec 6) (s : State) : Host.Outcome State Fault Refusal :=
  issue (.vred guard d a b) (onGroup (fun c g =>
    let (_, r, fl) := scanLanes b.toNat (c.code a) (lanesOf (c.lanes guard)) (redIdentity b.toNat) .none
    let v := if b = 4 ∨ b = 5 then sext64 r.toNat 32 else BitVec.ofNat 64 r.toNat
    (g.raise fl).setS d.toNat v)) s
def execBperm (guard : BitVec 3) (nw : BitVec 1) (d a b : BitVec 6) (mod : BitVec 2) (s : State) : Host.Outcome State Fault Refusal :=
  issue (.bperm guard nw d a b mod) (fun c s =>
    let x := c.across guard a
    let y := c.across guard b
    .done (writeVec c guard nw d (lanesOfBytes (fun j =>
      let v := (regByte x j).toNat
      regByte y (if mod = 0 then v % 16 else v / 16))) s)) s

end Sys2Proof.Machine
end

