-- ==== Sys2Proof/Machine/VectorFloat.lean ====
section
/-! DEFINITION. Class 3: FP32 arithmetic and compares, the approximating functions by their tables and integer steps,
conversions, packed 16-bit pairs and FP64 (R222 to R233). -/

namespace Sys2Proof.Machine

/-- Lane results with their flags: write them, push them, collect the flags of the lanes (R66, R208). -/
def writeFloat (c : Ctx) (guard : BitVec 3) (nw : BitVec 1) (d : VCode) (r : Nat → FRes) (s : State) : State :=
  let fl := FFlags.all ((lanesOf (c.lanes guard)).map (fun i => (r i).fl))
  let s := writeVec c guard nw d (ofLanes (fun i => BitVec.ofNat 32 (r i).bits)) s
  modGroup s c.tid c.gid (fun g => g.raise fl)
/-- The same for pairs (R59, R233). -/
def writeFloatPair (c : Ctx) (guard : BitVec 3) (nw : BitVec 1) (d : VCode) (r : Nat → FRes) (s : State) : State :=
  let fl := FFlags.all ((lanesOf (c.lanes guard)).map (fun i => (r i).fl))
  let s := writePair c guard nw d (fun i => (r i).bits) s
  modGroup s c.tid c.gid (fun g => g.raise fl)

def val32 (w : Word) : FVal := decodeF fp32 w.toNat
/-- The rounding mode of an instruction: RNE, or an attached HMOD's (R188, R222). -/
def Ctx.mode (c : Ctx) : RMode := c.h.round .rne

def fltBin (op : RMode → FVal → FVal → FRes) (guard : BitVec 3) (nw : BitVec 1) (d a b : VCode) : Ctx → State → Eff := fun c s =>
  let x := c.code a
  let y := c.code b
  .done (writeFloat c guard nw d (fun i => op c.mode (val32 (lane x i)) (val32 (lane y i))) s)
def fltTri (op : RMode → FVal → FVal → FVal → FRes) (guard : BitVec 3) (d a b : VCode) : Ctx → State → Eff := fun c s =>
  let x := c.code a
  let y := c.code b
  let z := c.v d.toNat
  .done (writeFloat c guard 0 d (fun i => op c.mode (val32 (lane x i)) (val32 (lane y i)) (val32 (lane z i))) s)
def fltUn (op : Word → FRes) (guard : BitVec 3) (nw : BitVec 1) (d a : VCode) : Ctx → State → Eff := fun c s =>
  let x := c.code a
  .done (writeFloat c guard nw d (fun i => op (lane x i)) s)

def execFadd (guard : BitVec 3) (nw : BitVec 1) (d a b : BitVec 6) (s : State) : Host.Outcome State Fault Refusal :=
  issue (.fadd guard nw d a b) (fltBin (fpAdd fp32) guard nw d a b) s
def execFsub (guard : BitVec 3) (nw : BitVec 1) (d a b : BitVec 6) (s : State) : Host.Outcome State Fault Refusal :=
  issue (.fsub guard nw d a b) (fltBin (fun m x y => fpAdd fp32 m x y.negate) guard nw d a b) s
def execFmul (guard : BitVec 3) (nw : BitVec 1) (d a b : BitVec 6) (s : State) : Host.Outcome State Fault Refusal :=
  issue (.fmul guard nw d a b) (fltBin (fpMul fp32) guard nw d a b) s
def execFfma (guard : BitVec 3) (d a b : BitVec 6) (s : State) : Host.Outcome State Fault Refusal :=
  issue (.ffma guard d a b) (fltTri (fpFma fp32) guard d a b) s
def execFnma (guard : BitVec 3) (d a b : BitVec 6) (s : State) : Host.Outcome State Fault Refusal :=
  issue (.fnma guard d a b) (fltTri (fun m x y z => fpFma fp32 m x.negate y z) guard d a b) s
def execFmin (guard : BitVec 3) (nw : BitVec 1) (d a b : BitVec 6) (s : State) : Host.Outcome State Fault Refusal :=
  issue (.fmin guard nw d a b) (fun c s =>
    let x := c.code a
    let y := c.code b
    .done (writeFloat c guard nw d (fun i => fpMinMax fp32 false (lane x i).toNat (lane y i).toNat) s)) s
def execFmax (guard : BitVec 3) (nw : BitVec 1) (d a b : BitVec 6) (s : State) : Host.Outcome State Fault Refusal :=
  issue (.fmax guard nw d a b) (fun c s =>
    let x := c.code a
    let y := c.code b
    .done (writeFloat c guard nw d (fun i => fpMinMax fp32 true (lane x i).toNat (lane y i).toNat) s)) s
/-- A floating compare into a mask, raising nv (R210, R223). -/
def fltCompare (c : Ctx) (guard cond mask : BitVec 3) (x y : Nat → FVal) (s : State) : State :=
  let r (i : Nat) := fpCmp cond.toNat (x i) (y i)
  let nv := (lanesOf (c.lanes guard)).any (fun i => (r i).2)
  modGroup (writeMask c guard mask (fun i => (r i).1) s) c.tid c.gid (fun g => g.raise (if nv then .invalid else .none))
def execFcmp (guard cond mask : BitVec 3) (a b : BitVec 6) (s : State) : Host.Outcome State Fault Refusal :=
  issue (.fcmp guard cond mask a b) (fun c s =>
    let x := c.code a
    let y := c.code b
    .done (fltCompare c guard cond mask (fun i => val32 (lane x i)) (fun i => val32 (lane y i)) s)) s
def execFclass (guard : BitVec 3) (nw : BitVec 1) (d a : BitVec 6) (s : State) : Host.Outcome State Fault Refusal :=
  issue (.fclass guard nw d a) (vecUn (fun x => BitVec.ofNat 32 (fpClass fp32 x.toNat)) guard nw d a) s
def execFscale (guard : BitVec 3) (nw : BitVec 1) (d a b : BitVec 6) (mod : BitVec 2) (s : State) : Host.Outcome State Fault Refusal :=
  issue (.fscale guard nw d a b mod) (fun c s =>
    let y := c.code b
    .done (if mod = 1 then
        writeFloatPair c guard nw d (fun i => fpScale fp64 c.mode (c.pair a.toNat i) (lane y i).toInt) s
      else
        let x := c.code a
        writeFloat c guard nw d (fun i => fpScale fp32 c.mode (lane x i).toNat (lane y i).toInt) s)) s

/-! ## The approximating functions (R225 to R229) -/

/-- The normalised significand M and exponent e of a finite nonzero value m * 2^x (R225). -/
def normal24 (m : Nat) (x : Int) : Nat × Int :=
  let sh := 24 - bitLen m
  (m * 2 ^ sh, x - sh + 23)

/-- FRCP's table (R226). -/
def rcpTable (t : Nat) : Nat := (2 ^ 25 / (257 + 2 * t) + 1) / 2
def fpRcp (x : Word) : FRes :=
  match val32 x with
  | .nan sg => ⟨canonNaN fp32, if sg then .invalid else .none⟩
  | .inf n => ⟨zeroBits fp32 n, .none⟩
  | .fin n m ex =>
    if m = 0 then ⟨infBits fp32 n, .none⟩
    else
      let (mm, e) := normal24 m ex
      let t : Int := rcpTable (bitsOf mm 22 16)
      let y1 := (t * (2 ^ 40 - mm * t)).fdiv (2 ^ 24)
      let y2 := (y1 * (2 ^ 55 - mm * y1)).fdiv (2 ^ 54)
      roundFin fp32 .rne n y2.toNat (-31 - e) false

/-- The integer square root, bit by bit. -/
def isqrtFrom (n : Nat) : Nat → Nat → Nat
  | 0, r => r
  | k + 1, r => isqrtFrom n k (if (r + 2 ^ k) * (r + 2 ^ k) ≤ n then r + 2 ^ k else r)
/-- FRSQ's table: 2^16 / sqrt(c) rounded, with c = (129 + 2k) / 128 * (1 or 2) (R227). -/
def rsqTable (j : Nat) : Nat :=
  let q := (129 + 2 * (j % 64)) * (if 64 ≤ j then 2 else 1)
  (isqrtFrom (2 ^ 41 / q) 20 0 + 1) / 2
def fpRsq (x : Word) : FRes :=
  match val32 x with
  | .nan sg => ⟨canonNaN fp32, if sg then .invalid else .none⟩
  | .inf n => if n then ⟨canonNaN fp32, .invalid⟩ else ⟨zeroBits fp32 false, .none⟩
  | .fin n m ex =>
    if m = 0 then ⟨infBits fp32 n, .none⟩
    else if n then ⟨canonNaN fp32, .invalid⟩
    else
      let (mm, e) := normal24 m ex
      let odd := e % 2 ≠ 0
      let a : Int := if odd then 2 * mm else mm
      let e2 := if odd then e - 1 else e
      let sj : Int := rsqTable ((if odd then 64 else 0) + bitsOf mm 22 17)
      let y1 := (sj * (3 * 2 ^ 55 - a * (sj * sj))).fdiv (2 ^ 42)
      let y2 := (y1 * (3 * 2 ^ 83 - a * (y1 * y1))).fdiv (2 ^ 84)
      roundFin fp32 .rne false y2.toNat (-30 - e2 / 2) false

/-- E2T of R228: 2^30 * 2^(j/64) rounded. -/
def ex2Table : List Nat :=
  [1073741824, 1085434106, 1097253708, 1109202018, 1121280436, 1133490379, 1145833280, 1158310587, 1170923762, 1183674286, 1196563654, 1209593378, 1222764986, 1236080024, 1249540052, 1263146652] ++
  [1276901417, 1290805962, 1304861917, 1319070932, 1333434672, 1347954824, 1362633090, 1377471191, 1392470869, 1407633882, 1422962010, 1438457051, 1454120821, 1469955159, 1485961921, 1502142985] ++
  [1518500250, 1535035634, 1551751076, 1568648537, 1585730000, 1602997467, 1620452965, 1638098541, 1655936265, 1673968228, 1692196547, 1710623359, 1729250827, 1748081133, 1767116489, 1786359126] ++
  [1805811301, 1825475297, 1845353420, 1865448001, 1885761398, 1906295993, 1927054196, 1948038440, 1969251188, 1990694927, 2012372174, 2034285470, 2056437387, 2078830522, 2101467502, 2124350982]

/-- G of R229: 2^30 * log2(1 + j/128) rounded. -/
def lg2Table : List Nat :=
  [0, 12055174, 24017256, 35887675, 47667823, 59359063, 70962728, 82480119, 93912511, 105261148, 116527248, 127712004, 138816582, 149842124, 160789745, 171660541] ++
  [182455581, 193175914, 203822568, 214396548, 224898839, 235330407, 245692198, 255985140, 266210141, 276368092, 286459867, 296486323, 306448299, 316346620, 326182095, 335955515] ++
  [345667660, 355319292, 364911162, 374444004, 383918542, 393335482, 402695523, 411999347, 421247625, 430441017, 439580170, 448665721, 457698295, 466678506, 475606957, 484484242] ++
  [493310944, 502087636, 510814882, 519493235, 528123241, 536705435, 545240343, 553728485, 562170370, 570566499, 578917365, 587223455, 595485245, 603703206, 611877800, 620009483] ++
  [628098702, 636145900, 644151509, 652115959, 660039669, 667923055, 675766525, 683570481, 691335320, 699061430, 706749198, 714399001, 722011213, 729586201, 737124328, 744625951] ++
  [752091421, 759521085, 766915285, 774274358, 781598637, 788888448, 796144114, 803365955, 810554283, 817709409, 824831638, 831921271, 838978604, 846003931, 852997541, 859959719] ++
  [866890747, 873790901, 880660455, 887499680, 894308843, 901088206, 907838029, 914558569, 921250079, 927912807, 934547002, 941152905, 947730758, 954280797, 960803257, 967298370] ++
  [973766362, 980207461, 986621888, 993009864, 999371606, 1005707329, 1012017244, 1018301561, 1024560487, 1030794226, 1037002979, 1043186948, 1049346328, 1055481314, 1061592099, 1067678873]

def fpEx2 (x : Word) : FRes :=
  match val32 x with
  | .nan sg => ⟨canonNaN fp32, if sg then .invalid else .none⟩
  | .inf n => if n then ⟨zeroBits fp32 false, .none⟩ else ⟨infBits fp32 false, .none⟩
  | .fin neg m ex =>
    if m = 0 then ⟨0x3F800000, .none⟩
    else
      let r : Int := (roundAt .rne neg m (ex + 23) false 0).1
      let xx := clampInt (-160 * 2 ^ 23) (128 * 2 ^ 23) (if neg then -r else r)
      let n := xx.fdiv (2 ^ 23)
      let f := (xx - n * 2 ^ 23).toNat
      let q := f % 2 ^ 17 * 744261118 / 2 ^ 23
      let p := 2 ^ 30 + q + q ^ 2 / 2 ^ 31 + q ^ 3 / (3 * 2 ^ 61)
      let y := ex2Table.getD (f / 2 ^ 17) 0 * p / 2 ^ 30
      roundFin fp32 .rne false y (n - 30) false

def fpLg2 (x : Word) : FRes :=
  match val32 x with
  | .nan sg => ⟨canonNaN fp32, if sg then .invalid else .none⟩
  | .inf n => if n then ⟨canonNaN fp32, .invalid⟩ else ⟨infBits fp32 false, .none⟩
  | .fin n m ex =>
    if m = 0 then ⟨infBits fp32 true, .none⟩
    else if n then ⟨canonNaN fp32, .invalid⟩
    else
      let (mm, e) := normal24 m ex
      let j := bitsOf mm 22 16
      let cc := 2 ^ 23 + j * 2 ^ 16
      let u := (mm - cc) * 2 ^ 30 / cc
      let w := u - u ^ 2 / 2 ^ 31 + u ^ 3 / (3 * 2 ^ 60)
      let z := w * 1549082005 / 2 ^ 30
      let v : Int := e * 2 ^ 30 + (lg2Table.getD j 0 + z : Nat)
      roundFin fp32 .rne (v < 0) v.natAbs (-30) false

def execFrcp (guard : BitVec 3) (nw : BitVec 1) (d a : BitVec 6) (s : State) : Host.Outcome State Fault Refusal :=
  issue (.frcp guard nw d a) (fltUn fpRcp guard nw d a) s
def execFrsq (guard : BitVec 3) (nw : BitVec 1) (d a : BitVec 6) (s : State) : Host.Outcome State Fault Refusal :=
  issue (.frsq guard nw d a) (fltUn fpRsq guard nw d a) s
def execFex2 (guard : BitVec 3) (nw : BitVec 1) (d a : BitVec 6) (s : State) : Host.Outcome State Fault Refusal :=
  issue (.fex2 guard nw d a) (fltUn fpEx2 guard nw d a) s
def execFlg2 (guard : BitVec 3) (nw : BitVec 1) (d a : BitVec 6) (s : State) : Host.Outcome State Fault Refusal :=
  issue (.flg2 guard nw d a) (fltUn fpLg2 guard nw d a) s

/-! ## Conversions (R230, R233) -/

/-- The floating format of a CVT code (R230). -/
def cvtFmt (code : Nat) : Fmt :=
  match code with
  | 0 => fp32
  | 3 => fp16
  | 4 => bf16
  | 5 => e4m3
  | _ => e5m2
/-- Bytes of a CVT type (R230). -/
def cvtBytes (code : Nat) : Nat :=
  match code with
  | 0 => 4
  | 1 => 4
  | 2 => 4
  | 3 => 2
  | 4 => 2
  | _ => 1
/-- A value read as a CVT type; upper bits of a narrow source are ignored (R230). -/
def cvtSource (code x : Nat) : FVal :=
  match code with
  | 1 => intVal (sextInt x 32)
  | 2 => intVal ((x % 2 ^ 32 : Nat) : Int)
  | c => decodeF (cvtFmt c) (x % 2 ^ (8 * cvtBytes c))
/-- Conversion of an exact value to a floating format, saturated when asked (R78, R79). -/
def convertTo (f : Fmt) (mode : RMode) (sat : Bool) (x : FVal) : FRes :=
  let r := roundVal f mode x
  if sat then satVal f x r else r
/-- One element converted as CVT does (R230, R278). -/
def cvtElem (dst src : Nat) (mode : RMode) (sat : Bool) (x : Nat) : FRes :=
  let v := cvtSource src x
  match dst with
  | 1 => fpToInt mode true 32 v
  | 2 => fpToInt mode false 32 v
  | c => convertTo (cvtFmt c) mode sat v
def execCvt (guard : BitVec 3) (nw : BitVec 1) (d a : BitVec 6) (dst src : BitVec 3) (rnd : BitVec 2) (s : State) :
    Host.Outcome State Fault Refusal :=
  issue (.cvt guard nw d a dst src rnd) (fun c s =>
    let x := c.code a
    let mode := c.h.round (.ofCode rnd.toNat)
    .done (writeFloat c guard nw d (fun i => cvtElem dst.toNat src.toNat mode c.h.sat (lane x i).toNat) s)) s

/-- `.sat` on a rounded sum or product: an infinite result becomes the largest finite value of its sign (R79, R232). -/
def satRes (f : Fmt) (sat : Bool) (r : FRes) : FRes :=
  if sat then
    match decodeF f r.bits with
    | .inf n => ⟨maxBits f n, r.fl⟩
    | _ => r
  else r
def execHfma2 (guard : BitVec 3) (d a b : BitVec 6) (mod : BitVec 2) (s : State) : Host.Outcome State Fault Refusal :=
  issue (.hfma2 guard d a b mod) (fun c s =>
    let x := c.code a
    let y := c.code b
    let z := c.v d.toNat
    let f := if mod = 0 then bf16 else fp16
    let half (v : Lanes) (i h : Nat) := decodeF f ((lane v i).toNat / 2 ^ (16 * h) % 2 ^ 16)
    let one (i h : Nat) := satRes f c.h.sat (fpFma f c.mode (half x i h) (half y i h) (half z i h))
    .done (writeFloat c guard 0 d (fun i =>
      let l := one i 0
      let u := one i 1
      ⟨l.bits + 2 ^ 16 * u.bits, l.fl.or u.fl⟩) s)) s

/-! ## FP64 (R233) -/

def Ctx.val64 (c : Ctx) (n : VCode) (i : Nat) : FVal := decodeF fp64 (c.pair n.toNat i)
def execDadd (guard : BitVec 3) (nw : BitVec 1) (d a b : BitVec 6) (s : State) : Host.Outcome State Fault Refusal :=
  issue (.dadd guard nw d a b) (fun c s =>
    .done (writeFloatPair c guard nw d (fun i => fpAdd fp64 c.mode (c.val64 a i) (c.val64 b i)) s)) s
def execDmul (guard : BitVec 3) (nw : BitVec 1) (d a b : BitVec 6) (s : State) : Host.Outcome State Fault Refusal :=
  issue (.dmul guard nw d a b) (fun c s =>
    .done (writeFloatPair c guard nw d (fun i => fpMul fp64 c.mode (c.val64 a i) (c.val64 b i)) s)) s
def execDfma (guard : BitVec 3) (d a b : BitVec 6) (s : State) : Host.Outcome State Fault Refusal :=
  issue (.dfma guard d a b) (fun c s =>
    .done (writeFloatPair c guard 0 d (fun i => fpFma fp64 c.mode (c.val64 a i) (c.val64 b i) (c.val64 d i)) s)) s
def execDcmpF64 (guard cond mask : BitVec 3) (a b : BitVec 6) (s : State) : Host.Outcome State Fault Refusal :=
  issue (.dcmpF64 guard cond mask a b) (fun c s => .done (fltCompare c guard cond mask (c.val64 a) (c.val64 b) s)) s
def execDcvt (guard : BitVec 3) (nw : BitVec 1) (d a code : BitVec 6) (rnd : BitVec 2) (s : State) :
    Host.Outcome State Fault Refusal :=
  issue (.dcvt guard nw d a code rnd) (fun c s =>
    let mode := c.h.round (.ofCode rnd.toNat)
    let sat := c.h.sat
    let one (i : Nat) : Nat := (lane (c.code a) i).toNat
    .done (match code.toNat with
      | 0 => writeFloatPair c guard nw d (fun i => convertTo fp64 mode sat (decodeF fp32 (one i))) s
      | 1 => writeFloat c guard nw d (fun i => convertTo fp32 mode sat (c.val64 a i)) s
      | 2 => writeFloatPair c guard nw d (fun i => convertTo fp64 mode sat (intVal (sextInt (one i) 32))) s
      | 3 => writeFloatPair c guard nw d (fun i => convertTo fp64 mode sat (intVal (one i))) s
      | 4 => writeFloat c guard nw d (fun i => fpToInt mode true 32 (c.val64 a i)) s
      | 5 => writeFloat c guard nw d (fun i => fpToInt mode false 32 (c.val64 a i)) s
      | 6 => writeFloatPair c guard nw d (fun i => convertTo fp64 mode sat (intVal (sextInt (c.pair a.toNat i) 64))) s
      | _ => writeFloatPair c guard nw d (fun i => fpToInt mode true 64 (c.val64 a i)) s)) s

end Sys2Proof.Machine
end

