-- ==== Sys2Proof/Machine/Matrix.lean ====
section
/-! DEFINITION. The tray, the accumulator tiles and the array (R84 to R97, R108 to R110, R290 to R316): claims, codebooks,
quarters and passes, fills, drains, CUPD, MENC and the matrix status. -/

namespace Sys2Proof.Machine

/-! ## Elements (R87, R90, R93, R108) -/

/-- An operand element of the array: a finite value, flagged when the pattern is a NaN or an infinity (R93). -/
abbrev Operand := FVal

/-- The code of C4 element c of row r (R87, R108). -/
def c4Code (data : Memory) (r c : Nat) : Nat :=
  let bit (p : Nat) := if (readLE data (32 * r + 8 * p) 8).testBit c then 2 ^ p else 0
  bit 0 + bit 1 + bit 2 + bit 3

/-- Element (r, c) of a tray slot read in a format (R83, R84, R108). -/
def slotElem (data : Memory) (f : Nat) (cb : List (BitVec 16)) (r c : Nat) : Operand :=
  match f with
  | 0 => decodeF bf16 (readLE data (2 * (64 * r + c)) 2)
  | 1 => decodeF fp16 (readLE data (2 * (64 * r + c)) 2)
  | 2 => decodeF e4m3 (readByte data (64 * r + c)).toNat
  | 3 => decodeF e5m2 (readByte data (64 * r + c)).toNat
  | 4 => decodeF bf16 (cb.getD (c4Code data r c) 0).toNat
  | _ => intVal (sextInt (readByte data (64 * r + c)).toNat 8)

/-- The undefined finite value with which a flagged operand takes part (R93; log entry 4). -/
def freeOperand (n : Nat) : FVal := .fin (Config.freeOperand n < 0) (Config.freeOperand n).natAbs (-133)
def orFree (x : Operand) (n : Nat) : FVal := if x.finite then x else freeOperand n

/-- A term of an array operation, exact (R91). -/
def arrayTerm (metric : Nat) (a b : FVal) : FVal :=
  let d := a.toDya.sub b.toDya
  match metric with
  | 0 => fpProd a b
  | 1 => .fin false d.m.natAbs d.e
  | _ => .fin false (d.m.natAbs * d.m.natAbs) (2 * d.e)

/-- One run: the exact sum of an element and its terms, rounded to the extended format (R91). -/
def addRun (acc : Elem) (terms : List FVal) : Elem :=
  match decodeF extFmt acc.toNat with
  | .fin n m e =>
    let x : FVal := .fin n m e
    let sum := terms.foldl (fun d t => d.add t.toDya) x.toDya
    let zneg := n && m = 0 && terms.all (fun t => t.isZero && t.neg)
    BitVec.ofNat 34 (roundDya extFmt .rne zneg sum).bits
  | _ => acc
/-- The same for an INT32 element, modulo 2^32 (R91). -/
def addInt (acc : Elem) (terms : List FVal) : Elem :=
  let sum := terms.foldl (fun d t => d.add t.toDya) (⟨(acc.toNat : Int), 0⟩ : Dya)
  BitVec.ofNat 34 (wrapInt (sum.m * 2 ^ sum.e.toNat) 32)

/-- Four runs of 16 terms (R91). -/
def addTerms (int : Bool) (acc : Elem) (terms : List FVal) : Elem :=
  [0, 1, 2, 3].foldl (fun x n =>
    let run := (terms.drop (16 * n)).take 16
    if int then addInt x run else addRun x run) acc

/-! ## Tiles (R110, R313) -/

def setElem (m : NMap Elem) (k : Nat) (v : Elem) : NMap Elem := if v = 0 then nmDel k m else nmPut k v m

/-- An element whose value the spec does not state (log entry 4). -/
def freeElem (n : Nat) : Elem := BitVec.ofNat 34 ((Config.freeWord n).toNat + 2 ^ 32 * (Config.freeWord (n + 4096)).toNat)
/-- A row of a tile as elements of one kind: a row that holds the other kind holds values the spec does not state. -/
def Tile.rowAs (t : Tile) (r kind seed : Nat) : Tile :=
  let free (m : NMap Elem) : NMap Elem :=
    if (nmGetD t.kinds r kind) = kind then m
    else (List.range 64).foldl (fun m j => setElem m (64 * r + j) (freeElem (seed + 64 * r + j))) m
  { t with kinds := nmPut r kind t.kinds, elems := free t.elems, shadow := free t.shadow }
def Tile.as (t : Tile) (rows : List Nat) (kind seed : Nat) : Tile := rows.foldl (fun t r => t.rowAs r kind seed) t

/-- A tile just claimed (R110, R294). -/
def Tile.fresh (num phys : Nat) : Tile := ⟨num, phys, [], [], 0, 0, [], 0, []⟩

def Team.slotAt (t : Team) (n : Nat) : Option Slot := t.slots.find? (fun x => x.num = n)
def Team.tileAt (t : Team) (n : Nat) : Option Tile := t.tiles.find? (fun x => x.num = n)
def Team.setTile (t : Team) (n : Nat) (x : Tile) : Team := { t with tiles := t.tiles.map (fun y => if y.num = n then x else y) }
def Team.setSlot (t : Team) (n : Nat) (d : Memory) : Team :=
  { t with slots := t.slots.map (fun y => if y.num = n then { y with data := d } else y) }
def Team.codebook (t : Team) (k : Nat) : List (BitVec 16) := t.codebooks[k]?.getD []

/-- A tile with `fmt`.red = 0 writes loses the valid shadow of a row it touches (R313). -/
def clearValid (t : Tile) (rows : List Nat) : Tile := { t with valid := rows.foldl (fun v r => v &&& ~~~(BitVec.ofNat 64 (2 ^ r))) t.valid }

/-! ## Quarters and passes (R297 to R300) -/

/-- Apply one quarter (R298): eight rows of 64 elements, the flags of R93 and R300, the shadow of R313. -/
def applyQuarter (t : Team) (q : Quarter) (seed : Nat) : Team :=
  match t.slotAt q.a, t.slotAt q.b, t.tileAt q.tile with
  | some sa, some sb, some tile =>
    let af := fmtAf q.fmt
    let bf := fmtBf q.fmt
    let int := fmtAccf q.fmt = 1
    let ks := (List.range 64).filter (fun k => q.ks ≤ k)
    let rows := (List.range 8).map (fun i => q.row + i)
    let tile := tile.as rows (if int then 2 else 1) (seed + 8192)
    let av (r k : Nat) := slotElem sa.data af (t.codebook (fmtCba q.fmt)) r k
    let bv (k j : Nat) := slotElem sb.data bf (t.codebook (fmtCbb q.fmt)) k j
    let terms (r j : Nat) : List FVal := (List.range 64).map (fun k =>
      if k < q.ks then .fin false 0 0
      else arrayTerm q.metric (orFree (av r k) (seed + 64 * r + k)) (orFree (bv k j) (seed + 4096 + 64 * k + j)))
    let places := rows.flatMap (fun r => (List.range 64).map (fun j => (r, j)))
    let red := fmtRed q.fmt
    let tile := places.foldl (fun (x : Tile) p =>
      let i := 64 * p.1 + p.2
      let ts := terms p.1 p.2
      let x : Tile := { x with elems := setElem x.elems i (addTerms int (nmGetD x.elems i 0) ts) }
      if red then { x with shadow := setElem x.shadow i (addTerms int (nmGetD x.shadow i 0) ts) } else x) tile
    let rf := rows.filter (fun r => ks.any (fun k => !(av r k).finite))
    let cf := (List.range 64).filter (fun j => ks.any (fun k => !(bv k j).finite))
    let tile : Tile := { tile with
      rowFlags := rf.foldl (fun v r => v ||| BitVec.ofNat 64 (2 ^ r)) tile.rowFlags
      colFlags := cf.foldl (fun v j => v ||| BitVec.ofNat 64 (2 ^ j)) tile.colFlags
      recs := rows.foldl (fun m r => nmPut r (q.a, q.b) m) tile.recs }
    t.setTile q.tile (if red then tile else clearValid tile rows)
  | _, _, _ => t

/-- Note the use of a pair's product table, most recent first, at most four (R85). -/
def useProduct (l : List (Nat × Nat × Nat)) (k : Nat × Nat × Nat) : List (Nat × Nat × Nat) := (k :: l.filter (· ≠ k)).take 4

/-- A pass reaches the array (R91, R92). It uses all four sub-arrays, whatever part of them its quarters fill (log entry 73). -/
def runPass (s : State) (core : Nat) (p : Pass) : State :=
  p.quarters.foldl (fun s q =>
    let seed := s.free
    let s := modTeam { s with free := s.free + 16384 } q.team (fun t => applyQuarter t q seed)
    modCore s core (fun c => { c with
      lastArray := (List.range 4).map (fun k => (k, cycleAt s core))
      products := if fmtAf q.fmt = 4 && fmtBf q.fmt = 4 then useProduct c.products (q.team, fmtCba q.fmt, fmtCbb q.fmt) else c.products })) s

/-- Every pass of a core closes and reaches the array, in the order in which the passes opened (R299). The sub-arrays have woken by then
(R315): how long that takes changes only timing (log entry 1). -/
def flushArray (s : State) (core : Nat) : State :=
  let c := coreOf s core
  let all := c.closedPasses ++ c.openPasses
  if all.isEmpty then s
  else all.foldl (fun s p => runPass s core p) (modCore s core (fun c => { c with closedPasses := [], openPasses := [], gated := [], waking := [] }))

/-- The fields of the fusion key agree (R299). -/
def Quarter.fuses (a b : Quarter) : Bool :=
  let f := a.fmt
  let g := b.fmt
  a.team = b.team && a.b = b.b && a.metric = b.metric && fmtAf f = fmtAf g && fmtBf f = fmtBf g && fmtAccf f = fmtAccf g &&
    fmtCba f = fmtCba g && fmtCbb f = fmtCbb g && fmtRed f = fmtRed g
/-- Two quarters name the same rows of a tile (R299). -/
def Quarter.meets (a b : Quarter) : Bool := a.team = b.team && a.tile = b.tile && a.row = b.row
def Pass.meets (p : Pass) (q : Quarter) : Bool := p.quarters.any (fun x => x.meets q)
def Pass.full (p : Pass) : Bool :=
  let rows := 8 * p.quarters.length
  match p.quarters with
  | [] => false
  | q :: _ => if fmtRed q.fmt then 32 ≤ rows else 64 ≤ rows

/-- Close the first n open passes (the oldest). -/
def closeFirst (c : Core) (n : Nat) : Core :=
  { c with closedPasses := c.closedPasses ++ c.openPasses.take n, openPasses := c.openPasses.drop n }
/-- Close passes that 16 cycles or their rows have closed, in the order in which they opened (R299). -/
def closeDue (c : Core) (now : Nat) : Core :=
  closeFirst c (c.openPasses.takeWhile (fun p => p.opened + 16 ≤ now || p.full)).length

/-- A quarter arrives (R299): passes whose rows it meets close with every older one; then it joins the open pass of its key or
opens one, a fifth closing the oldest. -/
def joinPass (c : Core) (now : Nat) (q : Quarter) : Core :=
  let met := (List.range c.openPasses.length).filter (fun i => (c.openPasses.getD i ⟨0, []⟩).meets q)
  let c := match met.getLast? with
    | some i => closeDue (closeFirst c (i + 1)) now
    | none => c
  let fits (p : Pass) : Bool := !p.full && (match p.quarters with
    | x :: _ => x.fuses q
    | [] => false)
  if c.openPasses.any fits then
    let i := (c.openPasses.findIdx fits)
    closeDue { c with openPasses := c.openPasses.set i { c.openPasses.getD i ⟨now, []⟩ with quarters := (c.openPasses.getD i ⟨now, []⟩).quarters ++ [q] } } now
  else
    let c := if 4 ≤ (c.openPasses.filter (fun p => !p.full)).length then closeDue (closeFirst c 1) now else c
    { c with openPasses := c.openPasses ++ [⟨now, [q]⟩] }

/-! ## Checks (R64, R83, R293) -/

/-- A number in a scalar's low bits, when no higher bit is set (R293). -/
def lowNum (v : DWord) (bits : Nat) : Option Nat := objNum v bits
def Ctx.slotOf (c : Ctx) (r : BitVec 6) : Option Slot := (lowNum (c.s r) 6).bind c.t.slotAt
def Ctx.tileOf (c : Ctx) (r : BitVec 6) : Option Tile := (lowNum (c.s r) 8).bind c.t.tileAt
/-- The formats that an array operation consumes are codes that exist and combine (R64, R83). -/
def fmtOk (f : Word) (withB : Bool) : Bool :=
  fmtAccf f ≤ 1 && fmtAf f ≤ 5 && (!withB || fmtBf f ≤ 5) &&
    (if fmtAccf f = 1 then fmtAf f = 5 && (!withB || fmtBf f = 5) else fmtAf f ≠ 5 && (!withB || fmtBf f ≠ 5))

/-- The quarters that an MMQ issues (R297), or none where its checks refuse one. -/
def mmqQuarters (c : Ctx) (a b : BitVec 6) (p : VCode) (qmask : BitVec 4) (metric : BitVec 2) : Option (List Quarter) :=
  let qs := [0, 1, 2, 3].filter (fun q => qmask.getLsbD q && inMask c.g.m0 (8 * q))
  let w (q : Nat) := (lane (c.code p) (8 * q)).toNat
  let mk1 (q : Nat) : Quarter :=
    ⟨c.tid, (c.s a).toNat, (c.s b).toNat, bitsOf (w q) 7 0, bitsOf (w q) 21 16, bitsOf (w q) 29 24, metric.toNat, c.g.fmt⟩
  let good (q : Nat) : Bool :=
    bitsOf (w q) 31 30 = 0 && bitsOf (w q) 23 22 = 0 && bitsOf (w q) 15 8 = 0 && bitsOf (w q) 18 16 = 0 &&
    (c.t.tileAt (bitsOf (w q) 7 0)).isSome && (c.slotOf a).isSome && (c.slotOf b).isSome && fmtOk c.g.fmt true
  if qs.all good then some (qs.map mk1) else none

/-- An instruction reaches its tile over the core's Shelf bonds, where an error may meet it (R110, R427, R428): 0x15. -/
def onShelf (c : Ctx) (f : State → Eff) (s : State) : Eff :=
  match meetEcc s c.core true with
  | (true, s') => .refused s' 0x15 0 c.g.m0
  | (false, s') => f s'

def execMmq (a b p : BitVec 6) (qmask : BitVec 4) (metric : BitVec 2) (s : State) : Host.Outcome State Fault Refusal :=
  issue (.mmq a b p qmask metric) (fun c s =>
    match mmqQuarters c a b p qmask metric with
    | none => .bad 0x08 c.g.m0
    | some qs =>
      let now := cycleAt s c.core
      let go (s : State) : Eff := .done (modCore s c.core (fun x => qs.foldl (fun x q => joinPass x now q) (closeDue x now)))
      if qs.isEmpty then go s else onShelf c go s) s

/-! ## Claims (R294, R295) -/

/-- The first number below n that a list of used numbers leaves free. -/
def lowestFree (n : Nat) (used : List Nat) : Option Nat := (List.range n).find? (fun i => !used.contains i)
/-- The teams resident on a core. -/
def teamsOn (s : State) (core : Nat) : List Team := (s.teams.filter (fun p => p.2.resident && p.2.core = core)).map (·.2)
/-- The number a claim returns: the core's, unless a restored team already uses it for another (R314). -/
def claimNum (phys : Nat) (mine : List Nat) (n : Nat) : Nat := if mine.contains phys then (lowestFree n mine).getD phys else phys

/-- A matrix-port instruction other than MMQ closes every open pass (R299); what was issued before it reaches the array (R291). -/
def onPort (f : Ctx → State → Eff) : Ctx → State → Eff := fun c s =>
  let s := flushArray s c.core
  match teamOf s c.tid with
  | some t => f { c with t := t } s
  | none => .done s

def execTclaim (d : BitVec 6) (k : BitVec 1) (s : State) : Host.Outcome State Fault Refusal :=
  issue (.tclaim d k) (onPort (fun c s =>
    let none1 := onGroup (fun _ g => g.setS d.toNat 1) c s
    if isSet k then
      if c.t.header.atile ≤ c.t.tiles.length then none1
      else
        match lowestFree Config.accTiles ((teamsOn s c.core).flatMap (fun t => t.tiles.map (·.phys))) with
        | none => none1
        | some ph =>
          let n := claimNum ph (c.t.tiles.map (·.num)) Config.accTiles
          onGroup (fun _ g => g.setS d.toNat (BitVec.ofNat 64 (n * 256))) c
            (modTeam s c.tid (fun t => { t with tiles := t.tiles ++ [Tile.fresh n ph] }))
    else
      if c.t.header.tslot ≤ c.t.slots.length then none1
      else
        match lowestFree Config.traySlots ((teamsOn s c.core).flatMap (fun t => t.slots.map (·.phys))) with
        | none => none1
        | some ph =>
          let n := claimNum ph (c.t.slots.map (·.num)) Config.traySlots
          onGroup (fun _ g => g.setS d.toNat (BitVec.ofNat 64 (n * 256))) c
            (modTeam s c.tid (fun t => { t with slots := t.slots ++ [⟨n, ph, []⟩] })))) s

/-- A command's card writes a tray slot (R276). -/
def Cmd.fillsSlot (x : Cmd) (n : Nat) : Bool :=
  x.kind = .copy && (x.card.getD 0x28 0).toNat / 4 % 4 = 2 && leNat ((x.card.drop 8).take 8) = n

def execTrel (n : BitVec 6) (k : BitVec 1) (s : State) : Host.Outcome State Fault Refusal :=
  issue (.trel n k) (onPort (fun c s =>
    if isSet k then
      match c.tileOf n with
      | none => .bad 0x08 c.g.m0
      | some x =>
        if (coreOf s c.core).drains.any (fun d => d.team = c.tid && d.tile = x.num) then .hold .mat s
        else .done (modTeam s c.tid (fun t => { t with tiles := t.tiles.filter (fun y => y.num ≠ x.num) }))
    else
      match c.slotOf n with
      | none => .bad 0x08 c.g.m0
      | some x =>
        if c.t.cmds.any (fun y => y.fillsSlot x.num) then .hold .mat s
        else .done (modTeam s c.tid (fun t => { t with slots := t.slots.filter (fun y => y.num ≠ x.num) })))) s

/-! ## MZERO and MFILL (R301) -/

def execMzero (t : BitVec 6) (s : State) : Host.Outcome State Fault Refusal :=
  issue (.mzero t) (onPort (fun c s =>
    match c.tileOf t with
    | none => .bad 0x08 c.g.m0
    | some x => onShelf c (fun s => .done (modTeam s c.tid (fun y => y.setTile x.num { x with
        kinds := [], elems := [], rowFlags := 0, colFlags := 0, shadow := [], valid := BitVec.allOnes 64 }))) s)) s

/-- An offset in the own desk for `n` bytes (R301, R303), or nothing. -/
def ownDesk (s : State) (t : Team) (a n : Nat) : Option Nat :=
  match spadAt s t a n false with
  | .desk off => some off
  | _ => none

/-- The element that an FP32 word loads, and whether it sets its row flag (R90, R301). -/
def fillElem (int : Bool) (w seed : Nat) : Elem × Bool :=
  if int then (BitVec.ofNat 34 w, false)
  else
    let v := decodeF fp32 w
    if v.finite then (BitVec.ofNat 34 (roundVal extFmt .rne v).bits, false)
    else (BitVec.ofNat 34 (Config.freeWord seed).toNat, true)

def execMfill (t a : BitVec 6) (s : State) : Host.Outcome State Fault Refusal :=
  issue (.mfill t a) (onPort (fun c s =>
    match c.tileOf t with
    | none => .bad 0x08 c.g.m0
    | some x =>
      let addr := (c.s a).toNat
      if 1 < fmtAccf c.g.fmt then .bad 0x08 c.g.m0
      else if addr % 128 ≠ 0 then .fault 0x03 addr c.g.m0 0 0
      else
        match ownDesk s c.t addr 16384 with
        | none => .fault 0x05 addr c.g.m0 0 0
        | some off =>
          if !c.t.present off 16384 then .hold (.line off) s
          else onShelf c (fun s =>
            let int := fmtAccf c.g.fmt = 1
            let bs := readBytes c.t.desk off 16384
            let seed := s.free
            let word (i : Nat) := leNat ((bs.drop (4 * i)).take 4)
            let all := (List.range 4096).map (fun i => fillElem int (word i) (seed + i))
            let es : NMap Elem := (List.range 4096).filterMap (fun i =>
              let v := (all.getD i (0, false)).1
              if v = 0 then none else some (i, v))
            let rf := (List.range 64).foldl (fun (v : DWord) r =>
              if ((all.drop (64 * r)).take 64).any (·.2) then v ||| BitVec.ofNat 64 (2 ^ r) else v) 0
            .done (modTeam { s with free := s.free + 4096 } c.tid (fun y => y.setTile x.num { x with
              kinds := (List.range 64).map (fun r => (r, if int then 2 else 1)), elems := es, rowFlags := rf, colFlags := 0, shadow := es, valid := BitVec.allOnes 64 }))) s)) s

/-! ## MDRAIN (R302 to R307) -/

/-- The format and the element bytes of a drain's destination (R302, R303). -/
def drainFmt (dst : Nat) : Fmt :=
  match dst with
  | 1 => bf16
  | 2 => fp16
  | 3 => e4m3
  | 4 => e5m2
  | _ => fp32
def drainBytes (dst : Nat) : Nat :=
  match dst with
  | 1 => 2
  | 2 => 2
  | 3 => 1
  | 4 => 1
  | _ => 4

def Tile.flagged (t : Tile) (i j : Nat) : Bool := t.rowFlags.getLsbD i || t.colFlags.getLsbD j
def Tile.elem (t : Tile) (i j : Nat) : Elem := nmGetD t.elems (64 * i + j) 0

/-- R304: an element converted to its target, with status bits. INT32 has no canonical NaN: what a flagged element becomes there is a free
value (log entry 55). -/
def convElem (t : Tile) (int : Bool) (f : Fmt) (fmt : Word) (i j : Nat) : Nat × Nat :=
  if t.flagged i j then (if int then (Config.flaggedInt t.num i j).toNat else canonNaN f, mstatNf)
  else if int then ((t.elem i j).toNat % 2 ^ 32, 0)
  else
    let r := convertTo f (fmtDrnd fmt) (fmtSat fmt) (decodeF extFmt (t.elem i j).toNat)
    (r.bits, mstatOfFlags r.fl)

def orAll (l : List Nat) : Nat := l.foldl (· ||| ·) 0

/-- `.cvt`: every element in row-major order (R303). -/
def drainCvt (t : Tile) (int : Bool) (dst : Nat) (fmt : Word) : List Byte × Nat :=
  let all := (List.range 4096).map (fun k => convElem t int (drainFmt dst) fmt (k / 64) (k % 64))
  (all.flatMap (fun x => natBytes (drainBytes dst) x.1), orAll (all.map (·.2)))

/-- A running best: index and value pattern (R303, R305). -/
structure Best where
  idx : Nat
  val : Nat
  deriving DecidableEq, Repr, Inhabited

/-- The value is a candidate's: no NaN, and for INT32 not the mark of an empty row (R305). -/
def Best.valid (int : Bool) (b : Best) : Bool :=
  if int then !(b.val = 0x80000000 && b.idx = 0xFFFFFFFF) else !(decodeF fp32 b.val).isNaN
/-- The first value is strictly better: lesser for a minimum, greater for a maximum (R305). -/
def betterVal (int max : Bool) (a b : Nat) : Bool :=
  if int then (if max then sextInt b 32 < sextInt a 32 else sextInt a 32 < sextInt b 32)
  else (if max then fpLess (decodeF fp32 b) (decodeF fp32 a) else fpLess (decodeF fp32 a) (decodeF fp32 b))
/-- A new candidate replaces a standing one (R305). -/
def beats (int max hi : Bool) (new old : Best) : Bool :=
  betterVal int max new.val old.val || (!betterVal int max old.val new.val && (if hi then old.idx < new.idx else new.idx < old.idx))

/-- The best candidate of a row, with the status bits of its conversions (R305). -/
def rowBest (t : Tile) (int max hi : Bool) (fmt : Word) (ofs i : Nat) : Option Best × Nat :=
  (List.range 64).foldl (fun (acc : Option Best × Nat) j =>
    let (v, st) := convElem t int fp32 fmt i j
    let new : Best := ⟨(j + ofs) % 2 ^ 32, v⟩
    let flagged := t.flagged i j
    let st := acc.2 ||| st
    if flagged || (!int && (decodeF fp32 v).isNaN) then (acc.1, st)
    else
      match acc.1 with
      | none => (some new, st)
      | some old => (if beats int max hi new old then some new else some old, st)) (none, 0)

/-- The best list of modes 1 to 4 (R305), over the running bests of the merging modes. -/
def drainBest (t : Tile) (int : Bool) (mode : Nat) (hi : Bool) (fmt : Word) (ofs : Nat) (old : List Best) : List Best × Nat :=
  let max := mode = 2 || mode = 4
  let rows := (List.range 64).map (fun i =>
    let (b, st) := rowBest t int max hi fmt ofs i
    let st := if b.isNone then st ||| mstatNr else st
    let none1 : Best := ⟨0xFFFFFFFF, if int then 0x80000000 else canonNaN fp32⟩
    if mode ≤ 2 then (b.getD none1, st)
    else
      let o := old.getD i none1
      match b with
      | none => (o, st)
      | some n => (if !o.valid int || beats int max hi n o then n else o, st))
  (rows.map (·.1), orAll (rows.map (·.2)))

/-- `.mean` (R306). Its of, uf and nx are those of the quotients and of the counts that it writes (log entry 86). -/
def drainMean (t : Tile) (dst : Nat) (fmt : Word) (cc : Nat) : List Byte × Nat :=
  let f := drainFmt dst
  let one (i j : Nat) : Nat × Nat :=
    let n := decodeF extFmt (t.elem i cc).toNat
    if t.flagged i j || t.flagged i cc then (canonNaN f, mstatNf)
    else if !n.finite then (canonNaN f, 0)
    else if j = cc then
      let r := roundVal f (fmtDrnd fmt) n
      (r.bits, mstatOfFlags r.fl)
    else if n.isZero then (zeroBits f false, mstatZc)
    else
      let x := decodeF extFmt (t.elem i j).toNat
      let r := fpDiv f (fmtDrnd fmt) x n
      let r := if fmtSat fmt && (r.fl.ovf || x matches .inf _) then ⟨maxBits f (x.neg != n.neg), r.fl⟩ else r
      (r.bits, mstatOfFlags r.fl)
  let all := (List.range 4096).map (fun k => one (k / 64) (k % 64))
  let zc := if (List.range 64).any (fun i => !t.flagged i cc && (decodeF extFmt (t.elem i cc).toNat).isZero) then mstatZc else 0
  (all.flatMap (fun x => natBytes (drainBytes dst) x.1), orAll (all.map (·.2)) ||| zc)

/-- The first row, ascending, of a valid shadow whose copies differ outside flagged rows and columns (R95, R313). -/
def mismatchRow (t : Tile) : Option Nat :=
  (List.range 64).find? (fun i => t.valid.getLsbD i && (List.range 64).any (fun j =>
    !t.flagged i j && nmGetD t.elems (64 * i + j) 0 ≠ nmGetD t.shadow (64 * i + j) 0))

def bestBytes (l : List Best) : List Byte := l.flatMap (fun b => natBytes 4 b.idx) ++ l.flatMap (fun b => natBytes 4 b.val)
def bestRegs (l : List Best) : List Lanes :=
  [ofLanes (fun i => lo32 (l.getD i default).idx), ofLanes (fun i => lo32 (l.getD (32 + i) default).idx),
   ofLanes (fun i => lo32 (l.getD i default).val), ofLanes (fun i => lo32 (l.getD (32 + i) default).val)]

/-- The mark under which a drain's desk lines are absent: beyond the timelines (R303). -/
def drainMark : Nat := 8
def Team.markAbsent (t : Team) (off n tl num : Nat) : Team :=
  { t with absent := t.absent ++ (linesOf off n).map (fun l => (l, tl, num)) }
def Team.markLanded (t : Team) (tl num : Nat) : Team := { t with absent := t.absent.filter (fun x => ¬(x.2.1 = tl ∧ x.2.2 = num)) }

/-- A drain's result lands (R303), and its status is set (R311). -/
def landDrain (s : State) (core : Nat) (d : DrainOp) : State :=
  let s := modCore s core (fun c => { c with drains := c.drains.filter (fun x => x.id ≠ d.id) })
  let s := modTeam s d.team (fun t =>
    let t := t.raiseMstat d.st
    if d.dst = 6 then
      t.late d.group d.id (fun t => match nmGet d.group t.groups with
        | some g => (List.range 4).foldl (fun t k => t.setV g (d.vd + k) (d.regs.getD k zeroLanes)) t
        | none => t)
    else (t.writeDesk d.desk d.out).markLanded drainMark d.id)
  if d.dst = 6 then fillResult s d.team d.group core ((List.range 4).map (fun k => RegName.v (d.vd + k))) else s

/-- The consumed fields and the mode agree (R302, R305, R306). -/
def drainOk (c : Ctx) (dst mode : Nat) (o : DWord) : Bool :=
  let accf := fmtAccf c.g.fmt
  let tieOk := mode = 0 || mode = 5 || c.h.tie ≠ 0 || fmtTieb c.g.fmt ≤ 1
  accf ≤ 1 && (mode ≠ 0 || (dst = 5 : Bool) = (accf = 1 : Bool)) && (mode ≠ 5 || accf = 0) && tieOk && (mode ≠ 5 || o.toNat < 64)

/-- MDRAIN. A merging mode waits for the running bests' lines; a drain to the desk is a write of the group (R134). The record of a mismatch in a row
that no quarter has recorded names the slots 0 and 0 (R313; log entry 85). -/
def execMdrain (t a o : BitVec 6) (dst mode : BitVec 3) (s : State) : Host.Outcome State Fault Refusal :=
  issue (.mdrain t a o dst mode) (onPort (fun c s =>
    let m := mode.toNat
    let best := 1 ≤ m && m ≤ 4
    let reg := dst = 6
    let size := if best then 512 else 4096 * drainBytes dst.toNat
    let addr := (c.s a).toNat
    match c.tileOf t with
    | none => .bad 0x08 c.g.m0
    | some x =>
      if !drainOk c dst.toNat m (c.s o) then .bad 0x08 c.g.m0
      else if !reg && addr % 128 ≠ 0 then .fault 0x03 addr c.g.m0 0 0
      else
        match (if reg then some 0 else ownDesk s c.t addr size) with
        | none => .fault 0x05 addr c.g.m0 0 0
        | some off =>
          if !reg && ((3 ≤ m && m ≤ 4 && !c.t.present off 512) || fenceHolds s c.tid c.gid c.g.fences) then .hold .issue s
          else onShelf c (fun s =>
            match mismatchRow x with
            | some r =>
              let ab := nmGetD x.recs r (0, 0)
              .fault 0x07 0 c.g.m0 (x.num + 256 * r + 65536 * ab.1 + 2 ^ 24 * ab.2) 0
            | none =>
              let int := fmtAccf c.g.fmt = 1
              let x' := x.as (List.range 64) (if int then 2 else 1) s.free
              let s := { s with free := s.free + 8192 }
              let hi := if c.h.tie ≠ 0 then c.h.tie = 2 else fmtTieb c.g.fmt = 1
              let old : List Best := if !(3 ≤ m && m ≤ 4) then []
                else if reg then (List.range 64).map (fun i =>
                  ⟨(lane (c.v (a.toNat + i / 32)) (i % 32)).toNat, (lane (c.v (a.toNat + 2 + i / 32)) (i % 32)).toNat⟩)
                else (List.range 64).map (fun i => ⟨readLE c.t.desk (off + 4 * i) 4, readLE c.t.desk (off + 256 + 4 * i) 4⟩)
              let (out, regs, st) : List Byte × List Lanes × Nat :=
                if m = 0 then (let r := drainCvt x' int dst.toNat c.g.fmt; (r.1, [], r.2))
                else if m = 5 then (let r := drainMean x' dst.toNat c.g.fmt (c.s o).toNat; (r.1, [], r.2))
                else (let r := drainBest x' int m hi c.g.fmt (c.s o).toNat old; (bestBytes r.1, bestRegs r.1, r.2))
              let (id, s) := newId s
              let d : DrainOp := ⟨id, c.tid, c.gid, x.num, dst.toNat, off, a.toNat, out, regs, st⟩
              let s := modCore s c.core (fun y => { y with drains := y.drains ++ [d] })
              let s := if reg then s else modTeam s c.tid (fun y => y.markAbsent off size drainMark id)
              let (h, s) := popHold s
              .done (if h then s else landDrain s c.core d)) s)) s

/-! ## CUPD, MENC and CBLD (R296, R308 to R310) -/

def execCupd (a t p cc : BitVec 6) (s : State) : Host.Outcome State Fault Refusal :=
  issue (.cupd a t p cc) (onPort (fun c s =>
    match c.slotOf a, c.tileOf t with
    | some sa, some x =>
      if !fmtOk c.g.fmt false then .bad 0x08 c.g.m0
      else onShelf c (fun s =>
        let int := fmtAccf c.g.fmt = 1
        let af := fmtAf c.g.fmt
        let cb := c.t.codebook (fmtCba c.g.fmt)
        let seed := s.free
        let red := fmtRed c.g.fmt
        let v0 := c.v p.toNat
        let v1 := c.v (p.toNat + 1)
        let one : FVal := .fin false 1 0
        let add (m : NMap Elem) (r d : Nat) : NMap Elem := (List.range 64).foldl (fun m j =>
          let i := 64 * d + j
          let y := if j = cc.toNat then one else orFree (slotElem sa.data af cb r j) (seed + 64 * r + j)
          setElem m i (if int then addInt (nmGetD m i 0) [y] else addRun (nmGetD m i 0) [y])) m
        let x1 := (List.range 64).foldl (fun (x : Tile) r =>
          let d := (if r < 32 then lane v0 r else lane v1 (r - 32)).toNat
          if 64 ≤ d then x
          else
            let bad := (List.range 64).any (fun j => j ≠ cc.toNat && !(slotElem sa.data af cb r j).finite)
            let x := x.rowAs d (if int then 2 else 1) (seed + 4096)
            let x : Tile := { x with elems := add x.elems r d, shadow := if red then add x.shadow r d else x.shadow,
                                     rowFlags := if bad then x.rowFlags ||| BitVec.ofNat 64 (2 ^ d) else x.rowFlags }
            if red then x else clearValid x [d]) x
        .done (modTeam { s with free := s.free + 12288 } c.tid (fun y => y.setTile x.num x1))) s
    | _, _ => .bad 0x08 c.g.m0)) s

/-- A distance of MENC: infinite, or exact (R309). -/
def mencDist (x e : FVal) : Option Dya :=
  match x, e with
  | .inf a, .inf b => if a = b then some .zero else none
  | .fin _ _ _, .fin _ _ _ => some (x.toDya.sub e.toDya).abs
  | _, _ => none
def distLt (a b : Option Dya) : Bool :=
  match a, b with
  | some x, some y => x.lt y
  | some _, none => true
  | _, _ => false
/-- MENC's code of a value (R309): the lowest entry that minimises the distance. -/
def mencCode (tab : List FVal) (x : FVal) : Nat :=
  if x.isNaN then 0
  else
    ((List.range 16).foldl (fun (acc : Option (Nat × Option Dya)) c =>
      let e := tab.getD c (.nan false)
      if e.isNaN then acc
      else
        match acc with
        | none => some (c, mencDist x e)
        | some (c', d) => if distLt (mencDist x e) d then some (c, mencDist x e) else some (c', d)) none).elim 0 (·.1)

def execMenc (d sl k : BitVec 6) (s : State) : Host.Outcome State Fault Refusal :=
  issue (.menc d sl k) (onPort (fun c s =>
    match c.slotOf d, c.slotOf sl, lowNum (c.s k) 4 with
    | some sd, some ss, some kk =>
      let tab := (List.range 16).map (fun i => decodeF bf16 ((c.t.codebook kk).getD i 0).toNat)
      let code (r cc : Nat) := mencCode tab (slotElem ss.data 0 [] r cc)
      let row (r : Nat) : List Byte :=
        let cs := (List.range 64).map (code r)
        [0, 1, 2, 3].flatMap (fun p => natBytes 8 ((List.range 64).foldl (fun acc i =>
          if (cs.getD i 0).testBit p then acc + 2 ^ i else acc) 0))
      .done (modTeam s c.tid (fun t => t.setSlot sd.num ((List.range 64).foldl (fun m r => writeBytes m (32 * r) (row r)) sd.data)))
    | _, _, _ => .bad 0x08 c.g.m0)) s

/-- Load a codebook slot and discard the product tables built from it (R85, R296). -/
def loadCodebook (s : State) (c : Ctx) (k : Nat) (bs : List Byte) : State :=
  let es := (List.range 16).map (fun i => BitVec.ofNat 16 (leNat ((bs.drop (2 * i)).take 2)))
  let s := modTeam s c.tid (fun t => { t with codebooks := t.codebooks.setIfInBounds k es })
  modCore s c.core (fun x => { x with products := x.products.filter (fun p => ¬(p.1 = c.tid ∧ (p.2.1 = k ∨ p.2.2 = k))) })

/-- CBLD. The 16 reads of its mem form are performed at one moment, in the step that issues it: R132 says nothing of the moments (DESIGN CHOICE, log
entry 93). Its `.sp` form reads the own desk alone: an address in the register window is refused, since R69 names LDS, STS and atomics
as what reaches it (log entry 80). -/
def execCbld (k a : BitVec 6) (p : BitVec 1) (s : State) : Host.Outcome State Fault Refusal :=
  issue (.cbld k a p) (onPort (fun c s =>
    let addr := (c.s a).toNat
    if addr % 32 ≠ 0 then .fault 0x03 addr c.g.m0 0 0
    else if isSet p then
      match ownDesk s c.t addr 32 with
      | none => .fault 0x05 addr c.g.m0 0 0
      | some off =>
        match lowNum (c.s k) 4 with
        | none => .bad 0x08 c.g.m0
        | some kk =>
          if !c.t.present off 32 then .hold (.line off) s
          else .done (loadCodebook s c kk (readBytes c.t.desk off 32))
    else
      let l : List Access := (List.range 16).map (fun i => ⟨i, addr + 2 * i, 2, 2, .read, .none⟩)
      match checkMem c l s with
      | .fault code ad s' => .refused s' code ad c.g.m0
      | .wait => .hold .issue s
      | .ok l' s' =>
        match lowNum (c.s k) 4 with
        | none => .bad 0x08 c.g.m0
        | some kk =>
          if !canSend s' c l' false then .hold .issue s
          else
            match readAtOnce c (l'.map (fun p => c.request 0 c.g.m0 p.1 p.2 false)) s' with
            | .done s bs => .done (loadCodebook s c kk bs)
            | .held s => .hold .mat s
            | .bad code ad s => .refused s code ad c.g.m0)) s

/-- MSTAT waits for every matrix-port operation of the team issued before it (R312). -/
def execMstat (d : BitVec 6) (sel : BitVec 2) (s : State) : Host.Outcome State Fault Refusal :=
  issue (.mstat d sel) (onPort (fun c s =>
    if (coreOf s c.core).drains.any (fun x => x.team = c.tid) then .hold .mat s
    else
      let v := if sel = 2 then Config.wakeLatency else c.t.mstat.toNat
      let s := if sel = 1 then modTeam s c.tid (fun t => { t with mstat := 0 }) else s
      onGroup (fun _ g => g.setS d.toNat (BitVec.ofNat 64 v)) c s)) s

/-! ## Events -/

/-- ARRAY_PASS: the oldest closed pass reaches the array when no sub-array is gated (R91, R299, R315). -/
def execArrayPass (core : Nat) (s : State) : Host.Outcome State Fault Refusal :=
  let c := coreOf s core
  .next (match c.closedPasses with
    | p :: rest => if c.gated.isEmpty then runPass (modCore s core (fun c => { c with closedPasses := rest })) core p else s
    | [] => s)

/-- PASS_TIMEOUT: 16 cycles after it opened, an open pass closes (R299). -/
def execPassTimeout (core : Nat) (s : State) : Host.Outcome State Fault Refusal :=
  .next (modCore s core (fun c => closeDue c (cycleAt s core)))

/-- SUBARRAY_GATE (R315): a sub-array has been idle for `marr_idle` cycles. -/
def execSubarrayGate (core sub : Nat) (s : State) : Host.Outcome State Fault Refusal :=
  let c := coreOf s core
  .next (if sub < 4 && c.marrIdle ≠ 0 && nmGetD c.lastArray sub 0 + c.marrIdle ≤ cycleAt s core && c.openPasses.isEmpty &&
      c.closedPasses.isEmpty && !c.gated.contains sub then setCore s core { c with gated := sub :: c.gated } else s)

/-- SUBARRAY_WAKE: a gated sub-array that a pass waits for begins to wake, and has woken after the wake latency (R315). -/
def execSubarrayWake (core sub : Nat) (s : State) : Host.Outcome State Fault Refusal :=
  let c := coreOf s core
  let now := cycleAt s core
  .next (if c.closedPasses.isEmpty || !c.gated.contains sub then s
    else
      match nmGet sub c.waking with
      | none => setCore s core { c with waking := nmPut sub (now + Config.wakeLatency) c.waking }
      | some w => if w ≤ now then setCore s core { c with gated := c.gated.filter (· ≠ sub), waking := nmDel sub c.waking } else s)

/-- MDRAIN_COMPLETION (R303); a result for full shared registers waits (R47). -/
def execMdrainCompletion (id : Nat) (s : State) : Host.Outcome State Fault Refusal :=
  .next (match s.cores.findSome? (fun p => (p.2.drains.find? (fun d => d.id = id)).map (fun d => (p.1, d))) with
    | some (core, d) =>
      if d.dst = 6 && resultBlocked s d.team d.group ((List.range 4).map (fun k => RegName.v (d.vd + k))) then s else landDrain s core d
    | none => s)

end Sys2Proof.Machine
end

