-- ==== Sys2Proof/Machine/Engine.lean ====
section
/-! DEFINITION. Engine commands (R272 to R284, R331, R333): cards and their checks, COPY with its transforms, HALO, MCAST, DCMP
and COLL, from issue to completion. -/

namespace Sys2Proof.Machine

/-! ## Cards (R276, R280, R281) -/

def cardField (b : List Byte) (o n : Nat) : Nat := leNat ((b.drop o).take n)

/-- The card of COPY, HALO and MCAST (R276). -/
structure CopyCard where
  src : Nat
  dst : Nat
  rowb : Nat
  rows : Nat
  sstr : Int
  dstr : Int
  spaces : Nat
  xf : Nat
  xarg : Nat
  xmode : Nat
  tgt : Nat
  rsv : Bool
  deriving DecidableEq, Repr, Inhabited

def copyCard (b : List Byte) : CopyCard :=
  { src := cardField b 0 8, dst := cardField b 8 8, rowb := cardField b 0x10 4, rows := cardField b 0x14 4,
    sstr := sextInt (cardField b 0x18 8) 64, dstr := sextInt (cardField b 0x20 8) 64, spaces := cardField b 0x28 1,
    xf := cardField b 0x29 1, xarg := cardField b 0x2A 1, xmode := cardField b 0x2B 1, tgt := cardField b 0x2C 2,
    rsv := (b.drop 0x2E).any (· ≠ 0) }
def CopyCard.srcSpace (k : CopyCard) : Nat := k.spaces % 4
def CopyCard.dstSpace (k : CopyCard) : Nat := k.spaces / 4 % 4
def CopyCard.srcType (k : CopyCard) : Nat := k.xarg % 8
def CopyCard.dstType (k : CopyCard) : Nat := k.xarg / 16 % 8
/-- Element sizes at the source and at the destination (R277, R278). -/
def CopyCard.srcElem (k : CopyCard) : Nat :=
  match k.xf with
  | 1 => 2 ^ k.xarg
  | 2 => cvtBytes k.srcType
  | 4 => 32
  | _ => 1
def CopyCard.dstElem (k : CopyCard) : Nat :=
  match k.xf with
  | 1 => 2 ^ k.xarg
  | 2 => cvtBytes k.dstType
  | 3 => 32
  | _ => 1
/-- How many destination rows there are, and their length (R278). -/
def CopyCard.shape (k : CopyCard) : Nat × Nat :=
  match k.xf with
  | 1 => (k.rowb / k.srcElem, k.rows * k.srcElem)
  | 2 => (k.rows, k.rowb / k.srcElem * k.dstElem)
  | 3 => (k.rows, k.rowb / 2)
  | 4 => (k.rows, 2 * k.rowb)
  | _ => (k.rows, k.rowb)
def CopyCard.srcRow (k : CopyCard) (r : Nat) : Nat := wrapInt ((k.src : Int) + r * k.sstr) 64
def CopyCard.dstRow (k : CopyCard) (r : Nat) : Nat := wrapInt ((k.dst : Int) + r * k.dstr) 64

/-- Row 1 of R273: a reserved value, or one that the command does not take. -/
def CopyCard.illegal (k : CopyCard) (kind : EngineKind) : Bool :=
  let st := k.srcType
  let dt := k.dstType
  let isInt (c : Nat) := c = 1 || c = 2
  k.rsv || 2 ^ 20 < k.rowb || 65536 < k.rows || k.srcSpace = 3 || k.dstSpace = 3 || 16 ≤ k.spaces || 4 < k.xf || 8 ≤ k.xmode ||
  k.srcSpace = 2 || (k.xf ≠ 2 && k.xmode ≠ 0) || (k.xf ≠ 1 && k.xf ≠ 2 && k.xarg ≠ 0) || (k.xf = 1 && 2 < k.xarg) ||
  (k.xf = 2 && (k.xarg / 8 % 2 = 1 || 128 ≤ k.xarg || st = 7 || dt = 7 || (isInt st && isInt dt))) ||
  (match kind with
  | .copy => k.tgt ≠ 0
  | .halo => 8 ≤ k.tgt || k.spaces ≠ 5 || k.xf ≠ 0 || 2 ^ 18 ≤ k.dst
  | _ => 512 ≤ k.tgt || k.spaces ≠ 5 || k.xf ≠ 0 || 2 ^ 18 ≤ k.dst)

/-- Row 2 of R273: alignment and shape (R277, R278, R333). -/
def CopyCard.misshapen (k : CopyCard) : Bool :=
  let (rr, ll) := k.shape
  k.src % k.srcElem ≠ 0 || k.sstr % k.srcElem ≠ 0 || k.rowb % k.srcElem ≠ 0 || (k.xf = 3 && k.rowb % 64 ≠ 0) ||
  (k.xf = 1 && (64 < k.rows || 64 < k.rowb / k.srcElem)) ||
  (k.dstSpace ≠ 2 && (k.dst % k.dstElem ≠ 0 || k.dstr % k.dstElem ≠ 0)) ||
  (k.dstSpace = 2 && (rr ≠ 64 || !(ll = 32 || ll = 64 || ll = 128) || (k.xf = 1 && (k.rows ≠ 64 || k.xarg = 2))))

/-- Rows of an address: each, or the base alone when there are none. -/
def rowAddrs (f : Nat → Nat) (n : Nat) : List Nat := if n = 0 then [f 0] else (List.range n).map f

/-- Row 3 of R273 for COPY: every scratchpad row in reach, one of no bytes too (R277), a remote destination only from the own desk
without a transform; and a mem row within 48 bits (R99). The code and the address. The pages of a mem row are checked when the command
runs (R274). -/
def copyReach (s : State) (t : Team) (k : CopyCard) : Option (Nat × Nat) :=
  let (rr, ll) := k.shape
  let src := rowAddrs k.srcRow k.rows
  let dst := if k.dstSpace = 2 then [] else rowAddrs k.dstRow rr
  let at_ (space a n : Nat) (dest : Bool) : Option (Nat × Nat) :=
    if space = 0 then (if 2 ^ 48 < a + max 1 n then some (0x05, a) else none)
    else
      match spadAt s t a (max 1 n) false with
      | .desk _ => none
      | .window _ => some (0x05, a)
      | .remote _ _ _ =>
        if dest && (k.xf ≠ 0 || k.srcSpace ≠ 1 || src.any (fun x => (ownDesk s t x (max 1 k.rowb)).isNone)) then some (0x05, a) else none
      | .bad c => some (c, a)
  (src.findSome? (fun a => at_ k.srcSpace a k.rowb false)).or (dst.findSome? (fun a => at_ k.dstSpace a ll true))

/-- The cores that HALO or MCAST names: none stands for an empty entry (R279). -/
def targets (t : Team) (kind : EngineKind) (tgt : Nat) : List (Option Nat) :=
  match kind with
  | .halo => [t.exch.nbrs.getD (tgt % 8) none]
  | _ => ((List.range 9).filter (fun i => tgt.testBit i)).map (fun i => if i = 8 then some t.core else t.exch.nbrs.getD i none)

/-- Row 3 for HALO and MCAST: sources in the own desk, and each delivery to a core on which a team of the grid is resident, within that
team's desk, which is as large as the own one (R105, R279). -/
def haloReach (s : State) (t : Team) (k : CopyCard) (kind : EngineKind) : Option (Nat × Nat) :=
  let src := rowAddrs k.srcRow k.rows
  match src.find? (fun a => (ownDesk s t a (max 1 k.rowb)).isNone) with
  | some a => some (0x05, a)
  | none =>
    if !t.gang then none
    else
      (targets t kind k.tgt).findSome? (fun x => match x with
        | none => none
        | some core => (rowAddrs (fun r => wrapInt ((k.dst : Int) + r * k.dstr) 64) k.rows).findSome? (fun o =>
            if (teamOn s t.grid core).isNone then some (0x0D, coreInCluster core * 2 ^ 18 + o % 2 ^ 18)
            else if t.header.desk < o + max 1 k.rowb then some (0x05, coreInCluster core * 2 ^ 18 + o % 2 ^ 18) else none))

/-- The checks of R273 for COPY, HALO and MCAST in the order of its table: a fault code and address, or nothing. -/
def checkCopy (s : State) (t : Team) (kind : EngineKind) (k : CopyCard) : Option (Nat × Nat) :=
  if k.illegal kind then some (0x01, 0)
  else if k.misshapen then some (0x03, 0)
  else
    match (if kind = .copy then copyReach s t k else haloReach s t k kind) with
    | some e => some e
    | none =>
      if kind = .copy then
        (if k.dstSpace = 2 && (t.slotAt k.dst).isNone then some (0x08, 0) else none)
      else if !t.gang || (targets t kind k.tgt).contains none then some (0x14, 0)
      else none

/-! ## Accesses of a running command (R147, R274) -/

/-- What an access of a command comes to. -/
inductive Got where
  | ok (bytes : List Byte) (s : State)
  | wait
  | fault (code addr : Nat) (s : State)
  | gone (addr : Nat)

/-- One access to mem within a sector; a bounce is translated again (R21, R274). A write counts under the command's tag where it is performed
(R142), and one to the host stays behind older posted writes (R153). -/
def engAccess (t : Team) (c : Cmd) : Nat → State → Nat → Acc → Nat → Got
  | 0, _, _, _, _ => .wait
  | k + 1, s, va, acc, n =>
    if 2 ^ 48 ≤ va then .fault 0x05 va s
    else
      match translate s t.core t.part t.aspace va (!t.supervisor) acc.need acc with
      | (.error 0, _) => .wait
      | (.error code, s) => .fault code va s
      | (.ok x, s) =>
        let r : MemReq := {
          team := t.id, group := c.group, core := t.core, part := t.part, aspace := t.aspace, user := !t.supervisor, va := va, size := n,
          acc := acc, dest := .none, src := .cmd t.id c.tl c.num, place := x.place, ten := x.ten, rep := x.rep, pk := x.pk, far := true,
          tries := 0, restart := 0, instr := 0, lanes := 0, fences := .none }
        if (r.inFlight false).posted && hostPending s s.nextId then .wait
        else
        match perform s r with
        | .done s' bs => .ok bs (match (if acc.writes then pointOf (performedAt s r) else none) with
          | some pt => countWrite (noteSent s' r.src pt false) pt r.src
          | none => s')
        | .waits => .wait
        | .bad code s' => .fault code va s'
        | .bounced => engAccess t c k (bounceBack s t.core t.aspace va) va acc n

/-- A byte range cut at sector boundaries. -/
def sectorCuts : Nat → Nat → Nat → List (Nat × Nat)
  | 0, _, _ => []
  | f + 1, va, n =>
    if n = 0 then []
    else
      let k := min n (16 - va % 16)
      (va, k) :: sectorCuts f (va + k) (n - k)
def cuts (va n : Nat) : List (Nat × Nat) := sectorCuts (n / 16 + 2) va n

def engReadCuts (t : Team) (c : Cmd) : List (Nat × Nat) → State → Got
  | [], s => .ok [] s
  | (va, n) :: l, s =>
    match engAccess t c 9 s va .read n with
    | .ok bs s => (match engReadCuts t c l s with
      | .ok rest s => .ok (bs ++ rest) s
      | e => e)
    | e => e
def engWriteCuts (t : Team) (c : Cmd) : List (Nat × Nat) → List Byte → State → Got
  | [], _, s => .ok [] s
  | (va, n) :: l, bs, s =>
    match engAccess t c 9 s va (.write (bs.take n)) n with
    | .ok _ s => engWriteCuts t c l (bs.drop n) s
    | e => e
def engRead (t : Team) (c : Cmd) (va n : Nat) (s : State) : Got := engReadCuts t c (cuts va n) s
def engWrite (t : Team) (c : Cmd) (va : Nat) (bs : List Byte) (s : State) : Got := engWriteCuts t c (cuts va bs.length) bs s

/-- Lines that another command or a drain still has to write (R106 rule 5). -/
def presentFor (t : Team) (c : Cmd) (off n : Nat) : Bool :=
  (linesOf off n).all (fun l => !t.absent.any (fun x => x.1 = l && !(x.2.1 = c.tl && x.2.2 = c.num)))

/-- Read one source row of a COPY, HALO or MCAST. One whose line only a COPY stopped by its own fault would bring waits, and the swap-out of its team with
it (R106, R275; DESIGN CHOICE, log entry 79). -/
def readRow (t : Team) (c : Cmd) (space a n : Nat) (s : State) : Got :=
  if space = 0 then engRead t c a n s
  else
    match spadAt s t a n false with
    | .desk off =>
      if !presentFor t c off n then .wait else .ok (readBytes t.desk off n) s
    | .remote tid _ off =>
      (match teamOf s tid with
      | some u =>
        if u.present off n then .ok (readBytes u.desk off n) s else .wait
      | none => .gone a)
    | .window _ => .fault 0x05 a s
    | .bad code => if code = 0x0D then .gone a else .fault code a s

def readRows (t : Team) (c : Cmd) (k : CopyCard) : List Nat → State → Except Got (List (List Byte) × State)
  | [], s => .ok ([], s)
  | r :: l, s =>
    match readRow t c k.srcSpace (k.srcRow r) k.rowb s with
    | .ok bs s => (match readRows t c k l s with
      | .ok (rest, s) => .ok (bs :: rest, s)
      | .error e => .error e)
    | e => .error e

/-! ## Transforms (R87, R278) -/

/-- The elements of e bytes of a row. -/
def elemsOf (row : List Byte) (e : Nat) : List (List Byte) := (List.range (row.length / e)).map (fun i => (row.drop (e * i)).take e)
/-- One plane group from 64 codes (R87). -/
def packGroup (codes : List Byte) : List Byte :=
  [0, 1, 2, 3].flatMap (fun p => natBytes 8 ((List.range 64).foldl (fun acc i =>
    if (codes.getD i 0).getLsbD p then acc + 2 ^ i else acc) 0))
/-- 64 codes from one plane group (R87). -/
def expandGroup (g : List Byte) : List Byte :=
  (List.range 64).map (fun i => BitVec.ofNat 8 ([0, 1, 2, 3].foldl (fun acc p =>
    if (leNat ((g.drop (8 * p)).take 8)).testBit i then acc + 2 ^ p else acc) 0))
/-- The destination rows (R278). -/
def transform (k : CopyCard) (rows : List (List Byte)) : List (List Byte) :=
  match k.xf with
  | 1 => (List.range (k.rowb / k.srcElem)).map (fun j => rows.flatMap (fun r => (elemsOf r k.srcElem).getD j []))
  | 2 => rows.map (fun r => (elemsOf r k.srcElem).flatMap (fun e =>
      natBytes k.dstElem (cvtElem k.dstType k.srcType (.ofCode (k.xmode % 4)) (k.xmode.testBit 2) (leNat e)).bits))
  | 3 => rows.map (fun r => (elemsOf r 64).flatMap packGroup)
  | 4 => rows.map (fun r => (elemsOf r 32).flatMap expandGroup)
  | _ => rows

/-- The storage of a byte that a COPY names: of the own desk, of DRAM, of a frame, or behind the port die. -/
def storageAt (s : State) (t : Team) (space a : Nat) : Option (Option Place × Nat) :=
  if space = 0 then
    match (translate s t.core t.part t.aspace a (!t.supervisor) .read .read).1 with
    | .ok x => some (match x.place with
      | .home c h => (some (.pool 0), homeAddr c h (a % 4096))
      | .pool b => (some (.pool 0), b)
      | .host b => (some (.host 0), b)
      | .peer port b => (some (.peer port 0), b)
      | p => (some p, a % 4096))
    | .error _ => none
  else
    match spadAt s t a 1 false with
    | .desk off => some (none, off)
    | _ => none
/-- The storage of `n` bytes, in pieces within a sector. -/
def storageOf (s : State) (t : Team) (space a n : Nat) : List (Option Place × Nat × Nat) :=
  (cuts a n).filterMap (fun q => (storageAt s t space q.1).map (fun k => (k.1, k.2, q.2)))
/-- The storage of the source bytes of a COPY. -/
def sourceOf (s : State) (t : Team) (k : CopyCard) : List (Option Place × Nat × Nat) :=
  if k.srcSpace = k.dstSpace then (List.range k.rows).flatMap (fun r => storageOf s t k.srcSpace (k.srcRow r) k.rowb) else []
/-- A byte lies in some storage. -/
def coincides (s : State) (t : Team) (space : Nat) (src : List (Option Place × Nat × Nat)) (a : Nat) : Bool :=
  (storageAt s t space a).any (fun k => src.any (fun p => p.1 = k.1 && p.2.1 ≤ k.2 && k.2 < p.2.1 + p.2.2))
/-- Bytes of a destination row that coincide with source bytes, under whatever names, are undefined (R278; log entry 4). -/
def overlapFree (t : Team) (k : CopyCard) (a : Nat) (bs : List Byte) (s : State) : List Byte × State :=
  let src := sourceOf s t k
  let hits := if src.isEmpty then [] else (List.range bs.length).filter (fun i => coincides s t k.dstSpace src (a + i))
  if hits.isEmpty then (bs, s)
  else
    let (fr, s) := drawBytes s bs.length
    ((List.range bs.length).map (fun i => if hits.contains i then fr.getD i 0 else bs.getD i 0), s)
/-- Some destination byte of a COPY coincides with a source byte. -/
def CopyCard.selfLaps (k : CopyCard) (s : State) (t : Team) : Bool :=
  let src := sourceOf s t k
  !src.isEmpty && (List.range k.shape.1).any (fun j => (List.range k.shape.2).any (fun i => coincides s t k.dstSpace src (k.dstRow j + i)))

/-- The delivery of a row to another core, or to the own drawer. -/
def cmdDelivery (t : Team) (c : Cmd) (dst off : Nat) (bs : List Byte) : Delivery :=
  ⟨t.id, c.group, t.grid, t.core, dst, off, bs, c.phase, t.gang, some (c.tl, c.num), .cmd t.id c.tl c.num, false, 0, .none, none⟩

/-- Write one destination row of a COPY. -/
def writeRow (t : Team) (c : Cmd) (k : CopyCard) (j : Nat) (bs : List Byte) (s : State) : Got :=
  if k.dstSpace = 2 then
    let s := flushArray s t.core
    .ok [] (modTeam s t.id (fun t => match t.slotAt k.dst with
      | some sl => t.setSlot k.dst (writeBytes sl.data (bs.length * j) bs)
      | none => t))
  else
    let a := k.dstRow j
    let (bs, s) := overlapFree t k a bs s
    if k.dstSpace = 0 then engWrite t c a bs s
    else
      match spadAt s t a bs.length false with
      | .desk off => .ok [] (modTeam s t.id (fun t => t.writeDesk off bs))
      | .remote _ core off => .ok [] (sendDelivery s (cmdDelivery t c core off bs))
      | .window _ => .fault 0x05 a s
      | .bad code => if code = 0x0D then .gone a else .fault code a s

/-- Write destination rows from row j on: the row reached. With `part`, rows land one after another as the agenda lets them (R147, R310). -/
def writeRows (t : Team) (c : Cmd) (k : CopyCard) (part : Bool) : Nat → List (List Byte) → State → Nat × Got
  | j, [], s => (j, .ok [] s)
  | j, bs :: l, s =>
    match writeRow t c k j bs s with
    | .ok _ s =>
      let (h, s) := if part && !l.isEmpty then popHold s else (false, s)
      if h then (j + 1, .ok [] s) else writeRows t c k part (j + 1) l s
    | .wait => (j, if part then .ok [] s else .wait)
    | e => (j, e)

/-- The accesses of a command's group before its issue are performed, also when the group has ended since (R135, R206); pool accesses are
ordered by fences only (R114). -/
def cmdReady (s : State) (t : Team) (c : Cmd) : Bool :=
  !s.flight.any (fun m => m.1 < c.mark && m.2.access.any (fun a => a.team = t.id && a.group = c.issuer && !a.pool && !a.core.any (·.2)))

/-- What a run of a command's data comes to: it has landed, or the first n rows have, it must wait, or it fails. -/
inductive Ran where
  | landed (s : State)
  | partly (n : Nat) (s : State)
  | wait
  | fault (code addr : Nat) (s : State)
  | gone (addr : Nat)

def Got.ran : Got → Ran
  | .ok _ s => .landed s
  | .wait => .wait
  | .fault c a s => .fault c a s
  | .gone a => .gone a

/-- Move the data of a COPY, HALO or MCAST (R276 to R279). A COPY without a transform lands row by row; one that overlaps itself, whose later
rows could read what its earlier ones wrote, and a transform land whole. -/
def moveData (t : Team) (c : Cmd) (s : State) : Ran :=
  let k := copyCard c.card
  if k.rows = 0 ∨ k.rowb = 0 then .landed s
  else
    match readRows t c k (List.range k.rows) s with
    | .error e => e.ran
    | .ok (rows, s) =>
      if c.kind = .copy then
        let (j, g) := writeRows t c k (k.xf = 0 && !k.selfLaps s t) c.rowsDone ((transform k rows).drop c.rowsDone) s
        (match g with
        | .ok _ s => if j < k.shape.1 then .partly j s else .landed s
        | g => g.ran)
      else
        .landed ((targets t c.kind k.tgt).foldl (fun s x => match x with
          | none => s
          | some core => (List.range rows.length).foldl (fun s (r : Nat) =>
              sendDelivery s (cmdDelivery t c core (wrapInt ((k.dst : Int) + (r : Int) * k.dstr) 64) (rows.getD r []))) s) s)

/-! ## DCMP (R280) -/

/-- What decoding a stream comes to: the output so far, whether it failed, and the state after the reads. -/
inductive Decoded where
  | ended (out : List Byte) (s : State)
  | error (out : List Byte) (s : State)
  | stop (out : List Byte) (g : Got)

/-- Copy bytes of a match, one by one (R280). -/
def matchCopy (off cap : Nat) : Nat → List Byte → List Byte × Bool
  | 0, out => (out, true)
  | k + 1, out =>
    if cap ≤ out.length then (out, false)
    else matchCopy off cap k (out ++ [out.getD (out.length - off) 0])

/-- Decode tokens (R280): one unit of fuel a token. -/
def dcmpLoop (t : Team) (c : Cmd) (src slen cap : Nat) : Nat → Nat → List Byte → State → Decoded
  | 0, _, out, s => .error out s
  | f + 1, p, out, s =>
    if slen ≤ p then .error out s
    else
      match engRead t c (src + p) 1 s with
      | .ok bs s =>
        let tok := (bs.getD 0 0).toNat
        if tok < 0x80 then
          let n := min (tok + 1) (min (slen - (p + 1)) (cap - out.length))
          (match engRead t c (src + p + 1) n s with
          | .ok lit s =>
            if n < tok + 1 then .error (out ++ lit) s else dcmpLoop t c src slen cap f (p + 1 + n) (out ++ lit) s
          | e => .stop out e)
        else if slen < p + 3 then .error out s
        else
          (match engRead t c (src + p + 1) 2 s with
          | .ok ob s =>
            let off := leNat ob
            if tok = 0xFF ∧ off = 0 then .ended out s
            else if off = 0 ∨ out.length < off then .error out s
            else
              let (out, ok) := matchCopy off cap (tok % 128 + 3) out
              if ok then dcmpLoop t c src slen cap f (p + 3) out s else .error out s
          | e => .stop out e)
      | e => .stop out e

/-- A DCMP reads its stream: its output and its status, 1 after a stream error, when the output is undefined (R280); or what stops it, and how many
bytes it has put out before. -/
def decodeCmd (t : Team) (c : Cmd) (s : State) : Except (Got × Nat) ((List Byte × Nat) × State) :=
  match dcmpLoop t c (cardField c.card 0 8) (cardField c.card 0x10 4) (cardField c.card 0x14 4) (cardField c.card 0x10 4 + 1) 0 [] s with
  | .ended out s => .ok ((out, 0), s)
  | .error out s =>
    let (fr, s) := drawBytes s out.length
    .ok ((fr, 1), s)
  | .stop out g => .error (g, out.length)
/-- Write bytes from the start of a DCMP's destination on. -/
def dcmpPut (t : Team) (c : Cmd) (out : List Byte) (s : State) : Got :=
  let dst := cardField c.card 8 8
  if cardField c.card 0x18 1 = 0 then engWrite t c dst out s
  else
    match ownDesk s t dst out.length with
    | some off => .ok [] (modTeam s t.id (fun t => t.writeDesk off out))
    | none => .fault 0x05 dst s

/-- The checks of R273 for DCMP (R280); the pages of its mem bytes are checked when it runs (R274). The `slen` bytes of its stream, and the `cap`
bytes of its destination, at least one of each, must lie within mem, or a scratchpad destination within the own desk, however long the output
is (R99; log entry 76). -/
def checkDcmp (s : State) (t : Team) (b : List Byte) : Option (Nat × Nat) :=
  let dst := cardField b 8 8
  let n (o l : Nat) : Bool := ((b.drop o).take l).any (· ≠ 0)
  if 1 < cardField b 0x18 1 || n 0x19 23 || n 0x38 8 then some (0x01, 0)
  else if 2 ^ 48 < cardField b 0 8 + max 1 (cardField b 0x10 4) then some (0x05, cardField b 0 8)
  else if cardField b 0x18 1 = 0 then (if 2 ^ 48 < dst + max 1 (cardField b 0x14 4) then some (0x05, dst) else none)
  else if (ownDesk s t dst (max 1 (cardField b 0x14 4))).isNone then some (0x05, dst)
  else none

/-! ## COLL (R281 to R284) -/

structure CollCard where
  src : Nat
  dst : Nat
  cnt : Nat
  kind : Nat
  rop : Nat
  clm : Nat
  peers : Nat
  root : Nat
  deriving DecidableEq, Repr, Inhabited
def collCard (b : List Byte) : CollCard :=
  ⟨cardField b 0 8, cardField b 8 8, cardField b 0x10 4, cardField b 0x14 1, cardField b 0x15 1, cardField b 0x16 1, cardField b 0x18 2,
   cardField b 0x1C 4⟩

def clustersOf (m : Nat) : List Nat := [0, 1, 2, 3].filter (fun c => m.testBit c)
def portsOf (m : Nat) : List Nat := (List.range 12).filter (fun n => m.testBit n)

/-- The participants of a grid on some clusters: team index and core, ascending (R282). -/
def participants (s : State) (grid : Nat) (cl : List Nat) : List (Nat × Nat) :=
  match nmGet grid s.grids with
  | none => []
  | some g => g.homes.filter (fun h => cl.contains (clusterOfCore h.2))

/-- How many bytes a participant contributes and receives (R283); `n` contributions reach a gather. -/
def CollCard.reads (k : CollCard) (index : Nat) : Nat := if k.kind = 4 ∨ (k.kind = 0 ∧ index ≠ k.root) then 0 else 4 * k.cnt
def CollCard.writes (k : CollCard) (index n : Nat) : Nat :=
  match k.kind with
  | 1 => 4 * k.cnt * n
  | 3 => if index = k.root then 4 * k.cnt else 0
  | 4 => 0
  | _ => 4 * k.cnt

/-- A page of a byte range that is outside mem, invalid or lacks a permission, with its code and the state in which the refusal has left its
event (R99, R273, R411); code 0 where a walk must wait. -/
def badPage (s : State) (t : Team) (need : Need) (acc : Acc) (a n : Nat) : Option (Nat × Nat × State) :=
  if n = 0 then none
  else
    (List.range ((a + n - 1) / 4096 + 1 - a / 4096)).findSome? (fun i =>
      let va := if i = 0 then a else (a / 4096 + i) * 4096
      if 2 ^ 48 ≤ va then some (0x05, va, s)
      else
        match translate s t.core t.part t.aspace va (!t.supervisor) need acc with
        | (.error e, s') => some (e, va, s')
        | (.ok _, _) => none)

/-- How many contributions a card awaits (R282, R283). -/
def CollCard.contributions (k : CollCard) (s : State) (grid : Nat) : Nat :=
  (participants s grid (clustersOf k.clm)).length + (portsOf k.peers).length
/-- The checks of R273 for COLL (R281, R282), in the order of its table; its buffers come last, and those of a command whose clm is 0, which moves
nothing, are not checked (log entry 83). -/
def checkColl (s : State) (t : Team) (b : List Byte) : Option (Nat × Nat × State) :=
  let k := collCard b
  let n (o l : Nat) : Bool := ((b.drop o).take l).any (· ≠ 0)
  if 2 ^ 24 < k.cnt || 4 < k.kind || 5 < k.rop || 16 ≤ k.clm || n 0x17 1 || 4096 ≤ k.peers || n 0x1A 2 || n 0x20 32 ||
      (k.kind = 4 && (k.src ≠ 0 || k.dst ≠ 0 || k.cnt ≠ 0 || k.rop ≠ 0 || k.root ≠ 0)) then some (0x01, 0, s)
  else if k.src % 4 ≠ 0 || k.dst % 4 ≠ 0 then some (0x03, 0, s)
  else if !t.coop s || (k.clm ≠ 0 && !k.clm.testBit (clusterOfCore t.core)) then some (0x14, 0, s)
  else if (clustersOf k.clm).any (fun c => !inPartition s t.part c) then some (0x0E, 0, s)
  else if k.clm = 0 then none
  else (badPage s t .read .read k.src (k.reads t.index)).or (badPage s t .write (.write []) k.dst (k.writes t.index (k.contributions s t.grid)))

/-- One reduction step (R283). -/
def collOp (rop a b : Nat) : Nat :=
  match rop with
  | 0 => (a + b) % 2 ^ 32
  | 1 => (fpAdd fp32 .rne (decodeF fp32 a) (decodeF fp32 b)).bits
  | 2 => if sextInt a 32 ≤ sextInt b 32 then a else b
  | 3 => if sextInt a 32 ≤ sextInt b 32 then b else a
  | 4 => (fpMinMax fp32 false a b).bits
  | _ => (fpMinMax fp32 true a b).bits
/-- Insert by key, for an order that nothing fixes (R96, R283). -/
def insertKey (x : Nat × List Byte) : List (Nat × List Byte) → List (Nat × List Byte)
  | [] => [x]
  | y :: l => if x.1 < y.1 then x :: y :: l else y :: insertKey x l
/-- Combine contributions of `cnt` words, in an order that is a free value (log entry 4). A single contribution is the result as it stands,
a NaN's bits too: no step combines it (log entry 64). -/
def collReduce (rop cnt seed : Nat) (l : List (List Byte)) : List Byte :=
  let keyed := (List.range l.length).map (fun i => ((Config.freeWord (seed + i)).toNat, l.getD i []))
  let order := (keyed.foldl (fun acc x => insertKey x acc) []).map (·.2)
  let word (b : List Byte) (i : Nat) := leNat ((b.drop (4 * i)).take 4)
  match order with
  | [] => []
  | x :: rest => (List.range cnt).flatMap (fun i => natBytes 4 (rest.foldl (fun acc b => collOp rop acc (word b i)) (word x i)))

/-- A collective of the same place `k` among the COLLs of a grid that a command of a team on cluster `cl`, naming the clusters `clm`, is matched in:
its participants are on the clusters that the command names, or it names the command's cluster (R282). -/
def Coll.meets (x : Coll) (grid k cl clm : Nat) : Bool :=
  x.grid = grid && x.k = k && (x.named.testBit cl || x.clusters.any (fun q => clm.testBit q))
/-- A command joins the collectives in which it is matched, which are one from then on (R282, R284). -/
def joinColl (l : List Coll) (grid k cl clm : Nat) (cmd : Nat × Nat × Nat) : List Coll :=
  let mine := l.filter (fun x => x.meets grid k cl clm)
  l.filter (fun x => !x.meets grid k cl clm) ++ [{
    grid := grid, k := k, clusters := (mine.flatMap (·.clusters) ++ [cl]).eraseDups, issued := mine.flatMap (·.issued) ++ [cmd]
    named := mine.foldl (fun m x => m ||| x.named) clm }]

/-- A participant's command with its team. -/
def collCmds (s : State) (x : Coll) : List (Team × Cmd) :=
  x.issued.filterMap (fun y => match teamOf s y.1 with
    | some t => (t.cmd y.2.1 y.2.2).map (fun c => (t, c))
    | none => none)

/-- A release has completed (R141), or its group has ended and no close of it is on its way. -/
def releaseDone (s : State) (t : Team) (c : Cmd) : Bool :=
  c.relId = 0 || (match (if c.live then nmGet c.group t.groups else none) with
    | some g => (g.release c.relId).isNone
    | none => true) && !s.flight.any (fun m => match m.2 with
    | .close _ _ _ rel => rel = c.relId
    | .answer _ _ rel => rel = c.relId
    | _ => false)

/-- A participant's issue counts as arrived: its release is complete (R284) and the accesses before it are performed (R135). -/
def collArrived (s : State) (p : Team × Cmd) : Bool := releaseDone s p.1 p.2 && settledBefore s p.1.id p.2.mark

/-- A participant's command at a collective's place had completed before it was matched in this one: it named fewer clusters, none of which lacked
an arrival (R282; log entry 62). -/
def collBefore (s : State) (x : Coll) (index : Nat) : Bool :=
  !(collCmds s x).any (fun p => p.1.index = index) && (nmGet x.grid s.grids).any (fun g => x.k < nmGetD g.colls index 0)
/-- Every participant of every command that was matched has arrived (R282, R284). Where commands disagree in their clusters, those of all of
them are awaited, but for such as have completed before (log entry 62). A far device takes part while its port is up and it issues the collective too (R417; log entry 56). -/
def collComplete (s : State) (x : Coll) : Bool :=
  let cs := collCmds s x
  let need := participants s x.grid (clustersOf x.named)
  cs.length = x.issued.length && need.all (fun h => cs.any (fun p => p.1.index = h.1) || collBefore s x h.1) && cs.all (collArrived s) &&
    cs.all (fun p => (portsOf (collCard p.2.card).peers).all (fun n =>
      (nmGetD s.gemar n ⟨false, 0, 0, 0⟩).up && (nmGet x.grid s.grids).any (fun g => g.rec_.coll ≠ 0 && Config.farColl n g.rec_.coll x.k)))

/-- Matched commands agree (R282). -/
def collAgree (cs : List (Team × Cmd)) : Bool :=
  let key (p : Team × Cmd) :=
    let k := collCard p.2.card
    (k.kind, k.rop, k.clm, k.peers, k.cnt, k.root)
  match cs with
  | [] => true
  | c :: l => l.all (fun d => key d = key c)

/-- Read the contributions, ascending in team index; a refused page stops with its team's fault, which its command raises again (DESIGN CHOICE, log
entry 84). -/
def collReads : List (Team × Cmd) → State → Except (Option (Team × Cmd × Nat × Nat × State)) (List (List Byte) × State)
  | [], s => .ok ([], s)
  | (t, c) :: l, s =>
    let k := collCard c.card
    match engRead t c k.src (k.reads t.index) s with
    | .ok bs s => (match collReads l s with
      | .ok (rest, s) => .ok (bs :: rest, s)
      | .error e => .error e)
    | .wait => .error none
    | .gone _ => .error none
    | .fault code a s => .error (some (t, c, code, a, s))

/-- Write the results and mark the commands landed. One whose destination page is refused by then has landed all the same, and its team takes the
engine fault, after which the command does not restart (log entry 84). -/
def collWrites (data : Team → Cmd → List Byte) : List (Team × Cmd) → State → Option State
  | [], s => some s
  | (t, c) :: l, s =>
    let k := collCard c.card
    match engWrite t c k.dst (data t c) s with
    | .ok _ s => collWrites data l (modTeam s t.id (fun t => t.modCmd c.tl c.num (fun c => { c with landed := true })))
    | .fault code a s => collWrites data l
        (modTeam (takeEngineFault s t.id c code a false) t.id (fun t => t.modCmd c.tl c.num (fun c => { c with landed := true })))
    | _ => none

/-- Commands that disagree land with undefined destinations, each its own, and without a fault (R282; log entry 4). -/
def collSpoil : List (Team × Cmd) → State → Option State
  | [], s => some s
  | (t, c) :: l, s =>
    let k := collCard c.card
    let (bs, s) := drawBytes s (k.writes t.index (k.contributions s t.grid))
    let land (s : State) : State := modTeam s t.id (fun t => t.modCmd c.tl c.num (fun c => { c with landed := true }))
    match engWrite t c k.dst bs s with
    | .ok _ s => collSpoil l (land s)
    | .wait => none
    | _ => collSpoil l (land s)

def insertTeam (x : Team × Cmd) : List (Team × Cmd) → List (Team × Cmd)
  | [] => [x]
  | y :: l => if x.1.index < y.1.index then x :: y :: l else y :: insertTeam x l

/-- Run a complete collective (R282, R283): commands that disagree, or disagree with one that has completed before, have undefined destinations;
far contributions are values from outside (log entry 4). A broadcast whose root is no participating team takes the first far contribution (log
entry 63). Where a source page is refused the collective does not run: its command faults, stays unlanded and is tried again (DESIGN CHOICE, log
entry 84). -/
def runColl (s : State) (x : Coll) : State :=
  let cs := (collCmds s x).foldl (fun acc p => insertTeam p acc) []
  let done (s : State) : State := { s with colls := s.colls.filter (· ≠ x) }
  match cs with
  | [] => s
  | (_, c0) :: _ =>
    let k := collCard c0.card
    let ports := portsOf k.peers
    if !collAgree cs || (participants s x.grid (clustersOf x.named)).any (fun h => collBefore s x h.1) then
      (match collSpoil cs s with
      | some s => done s
      | none => s)
    else
      match collReads cs s with
      | .error none => s
      | .error (some (t, c, code, a, s)) => takeEngineFault s t.id c code a true
      | .ok (own, s) =>
        let seed := s.free
        let far := ports.map (fun p => (List.range (4 * k.cnt)).map (fun i => Config.freeByte (seed + 2 ^ 26 * p + i)))
        let s := { s with free := s.free + 2 ^ 30 }
        let all := own ++ far
        let root := (cs.zip own).findSome? (fun p => if p.1.1.index = k.root then some p.2 else none)
        let result : List Byte := match k.kind with
          | 0 => root.getD (far.headD [])
          | 1 => all.flatMap (fun b => b)
          | 4 => []
          | _ => collReduce k.rop k.cnt s.free all
        (match collWrites (fun t c =>
            let kc := collCard c.card
            if kc.writes t.index all.length = 0 then [] else result) cs s with
        | some s => done s
        | none => s)

/-! ## Completion (R48, R272, R274, R280, R430) -/

/-- Every delivery of a landed command is counted (R142): it leaves the list and its timeline advances; a failed one raises
target gone, a DCMP with a stream error 0x0F. -/
def completeCmd (s : State) (tid : Nat) (c : Cmd) : State :=
  if !c.landed || !c.sent.all (fun p => countAt s p.1 (.cmd tid c.tl c.num) = p.2) then s
  else
    let s := c.sent.foldl (fun s p => clearCount s p.1 (.cmd tid c.tl c.num)) s
    let s := modTeam s tid (fun t =>
      let t : Team := { t with cmds := t.cmds.filter (fun d => !(d.tl = c.tl && d.num = c.num)) }
      (t.tlComplete c.tl c.num).markLanded c.tl c.num)
    match c.failed with
    | some a => takeEngineFault s tid c 0x0D a false
    | none => if c.stat = 1 then takeEngineFault s tid c 0x0F 0 false else s

/-- A command's present record. -/
def cmdOf (s : State) (tid tl num : Nat) : Option (Team × Cmd) := (teamOf s tid).bind (fun t => (t.cmd tl num).map (fun c => (t, c)))
def completeNow (s : State) (tid tl num : Nat) : State :=
  match cmdOf s tid tl num with
  | some (_, c) => completeCmd s tid c
  | none => s

/-- A command starts anew: what it has sent, landed and decoded is forgotten (R275). -/
def resetCmd (s : State) (tid : Nat) (c : Cmd) : State :=
  modTeam (c.sent.foldl (fun s p => clearCount s p.1 (.cmd tid c.tl c.num)) s) tid (fun t =>
    t.modCmd c.tl c.num (fun c => { c with sent := [], rowsDone := 0, spoilt := false, decoded := none }))

/-- The first n rows of a COPY have landed: the lines that no later row touches have all its bytes (R106). -/
def rowsLanded (s : State) (t : Team) (c : Cmd) (n : Nat) : State :=
  let k := copyCard c.card
  let left : List Nat := if k.dstSpace ≠ 1 then []
    else ((List.range k.shape.1).drop n).flatMap (fun j => match spadAt s t (k.dstRow j) k.shape.2 false with
      | .desk off => linesOf off k.shape.2
      | _ => [])
  modTeam s t.id (fun u => { u.modCmd c.tl c.num (fun x => { x with rowsDone := n }) with
    absent := u.absent.filter (fun x => !(x.2.1 = c.tl && x.2.2 = c.num) || left.contains x.1) })

/-- Free values in `n` bytes of a command's destination, sector by sector where it can be written, but for bytes that coincide with its source. -/
def sprayRow (t : Team) (c : Cmd) (space a n : Nat) (src : List (Option Place × Nat × Nat)) (s : State) : State :=
  let (bs, s) := drawBytes s n
  let pieces := if src.isEmpty then cuts a n
    else ((List.range n).filter (fun i => !coincides s t space src (a + i))).map (fun i => (a + i, 1))
  pieces.foldl (fun s q =>
    let b := (bs.drop (q.1 - a)).take q.2
    if space = 0 then (match engAccess t c 9 s q.1 (.write b) q.2 with
      | .ok _ s => s
      | _ => s)
    else match spadAt s t q.1 q.2 false with
      | .desk off => modTeam s t.id (fun t => t.writeDesk off b)
      | _ => s) s
/-- The destination of a command that does more than copy bytes is undefined until it completes (R147, R275; log entry 4): free values stand there
meanwhile, also while a fault or a swap-out has stopped it. `n`: how many bytes a DCMP has put out. -/
def sprayCmd (t : Team) (c : Cmd) (n : Nat) (s : State) : State :=
  let k := copyCard c.card
  match c.kind with
  | .dcmp =>
    let sp := cardField c.card 0x18 1
    sprayRow t c sp (cardField c.card 8 8) n (if sp = 0 then storageOf s t 0 (cardField c.card 0 8) (cardField c.card 0x10 4) else []) s
  | .copy =>
    if k.xf = 0 || k.rows = 0 || k.rowb = 0 then s
    else
      let src := sourceOf s t k
      (List.range k.shape.1).foldl (fun s j =>
        if k.dstSpace = 2 then
          let (bs, s) := drawBytes s k.shape.2
          match writeRow t c k j bs s with
          | .ok _ s => s
          | _ => s
        else sprayRow t c k.dstSpace (k.dstRow j) k.shape.2 src s) s
  | _ => s

/-- Run a command's data, if it may run: nothing changes when it must wait. -/
def landCmd (s : State) (t : Team) (c : Cmd) : State :=
  if c.landed || c.stopped || !cmdReady s t c then s
  else
    let land (s : State) (f : Cmd → Cmd) : State := modTeam s t.id (fun u =>
      (u.modCmd c.tl c.num (fun x => f { x with landed := true })).markLanded c.tl c.num)
    let finish (r : Ran) (n : Nat) (f : State → State) (g : Cmd → Cmd) : State :=
      match r with
      | .landed s => land (f s) g
      | .partly n s => rowsLanded s t c n
      | .wait => s
      | .gone a => land s (fun x => { x with failed := some a })
      | .fault code a s =>
        takeEngineFault (modTeam (sprayCmd t c n s) t.id (fun u => u.modCmd c.tl c.num (fun x => { x with stopped := true }))) t.id c code a true
    match c.kind with
    | .dcmp =>
      let got : Except (Got × Nat) ((List Byte × Nat) × State) := match c.decoded with
        | some d => .ok (d, s)
        | none => decodeCmd t c s
      match got with
      | .ok ((out, stat), s) =>
        finish (dcmpPut t c out s).ran out.length
          (fun s => modTeam s t.id (fun u => u.writeDesk (c.cardOff + 0x30) (natBytes 4 out.length ++ natBytes 4 stat)))
          (fun x => { x with stat := stat })
      | .error g => finish g.1.ran g.2 (fun s => s) (fun x => x)
    | .coll => s
    | _ => finish (moveData t c s) 0 (fun s => s) (fun x => x)

/-- A command's destination becomes undefined (`sprayCmd`), once: at its issue, or for a DCMP, whose extent its source decides, when it has read the
source. -/
def spoilCmd (s : State) (tid tl num : Nat) : State :=
  match cmdOf s tid tl num with
  | none => s
  | some (t, c) =>
    let mark (s : State) (d : Option (List Byte × Nat)) : State := modTeam s tid (fun t => t.modCmd tl num (fun c => { c with spoilt := true, decoded := d }))
    if c.landed || c.spoilt then s
    else
      match c.kind with
      | .dcmp =>
        if !cmdReady s t c then s
        else
          match decodeCmd t c s with
          | .ok (d, s) => mark (sprayCmd t c d.1.length s) (some d)
          | .error g => sprayCmd t c g.2 s
      | .copy => if (copyCard c.card).xf = 0 then s else mark (sprayCmd t c 0 s) none
      | _ => s

/-- Land and complete a command that the agenda does not hold; it may hold a DCMP once that has read its source. -/
def runCmd (s : State) (tid tl num : Nat) : State :=
  match cmdOf s tid tl num with
  | none => s
  | some (t, c) =>
    let land (s : State) (t : Team) (c : Cmd) : State := completeNow (landCmd s t c) tid tl num
    match c.kind with
    | .coll =>
      (match s.colls.find? (fun x => x.issued.contains (tid, tl, num)) with
      | some x =>
        if collComplete s x && (collCard c.card).peers = 0 then
          let s := runColl s x
          x.issued.foldl (fun s y => completeNow s y.1 y.2.1 y.2.2) s
        else s
      | none => completeNow s tid tl num)
    | .dcmp =>
      let s := spoilCmd s tid tl num
      (match cmdOf s tid tl num with
      | none => s
      | some (t', c') =>
        let (h, s) := if c'.spoilt && !c.spoilt then popHold s else (false, s)
        if h then s else land s t' c')
    | _ => land s t c

/-! ## Issue (R272) -/

/-- The sends that a gang's deliveries will make, counted at issue (R269). -/
def countSends (s : State) (t : Team) (kind : EngineKind) (card : List Byte) : State :=
  let k := copyCard card
  let dsts : List Nat :=
    if !t.gang || k.rows = 0 || k.rowb = 0 then []
    else
      match kind with
      | .copy => if k.dstSpace ≠ 1 then [] else (List.range k.rows).filterMap (fun j => match spadAt s t (k.dstRow j) k.rowb false with
          | .remote _ core _ => some core
          | _ => none)
      | .halo => (List.range k.rows).flatMap (fun _ => (targets t kind k.tgt).filterMap (fun x => x))
      | .mcast => (List.range k.rows).flatMap (fun _ => (targets t kind k.tgt).filterMap (fun x => x))
      | _ => []
  modTeam s t.id (fun u => { u with exch := { u.exch with
    sends := dsts.foldl (fun l core => bumpArrival l core t.exch.sendPhase) u.exch.sends } })

/-- A COPY's own desk lines become absent (R106 rule 2). -/
def hideLines (s : State) (t : Team) (kind : EngineKind) (card : List Byte) (tl num : Nat) : State :=
  let k := copyCard card
  let (rr, ll) := k.shape
  if kind ≠ .copy || k.dstSpace ≠ 1 || k.rows = 0 || k.rowb = 0 then s
  else (List.range rr).foldl (fun s j => match spadAt s t (k.dstRow j) ll false with
    | .desk off => modTeam s t.id (fun u => u.markAbsent off ll tl num)
    | _ => s) s

/-- The checks of R273 for a card: a fault code, an address, and the state in which a refusal has left its event (R411). -/
def checkCard (s : State) (t : Team) (kind : EngineKind) (card : List Byte) : Option (Nat × Nat × State) :=
  let plain (e : Option (Nat × Nat)) : Option (Nat × Nat × State) := e.map (fun e => (e.1, e.2, s))
  match kind with
  | .dcmp => plain (checkDcmp s t card)
  | .coll => checkColl s t card
  | k => plain (checkCopy s t k (copyCard card))

/-- Issue an engine command (R272, R331): the slot, the card's address, its lines, its bytes, the checks of R273, the number. -/
def engineIssue (kind : EngineKind) (d a : BitVec 6) (tl : BitVec 3) (c : Ctx) (s : State) : Eff :=
  let addr := (c.s a).toNat
  if 64 ≤ c.t.cmds.length then .hold .issue s
  else
    match ownDesk s c.t addr 64 with
    | none => .fault 0x05 addr c.g.m0 0 0
    | some off =>
      if addr % 64 ≠ 0 then .fault 0x03 addr c.g.m0 0 0
      else if !c.t.present off 64 then .hold (.line off) s
      else
        let card := readBytes c.t.desk off 64
        match checkCard s c.t kind card with
        | some (0, _, _) => .hold .issue s
        | some (code, ad, s') => .refused s' code ad c.g.m0
        | none =>
          let k := collCard card
          let isColl := kind = .coll && k.clm ≠ 0
          -- a COLL that names no cluster and an MCAST that names no drawer complete at once (R279, R282)
          let idle := (kind = .coll && k.clm = 0) || (kind = .mcast && (copyCard card).tgt = 0)
          let cl := clusterOfCore c.core
          let needsUnit := isColl && !(s.colls.any (fun x => x.meets c.t.grid c.t.colls cl k.clm && x.clusters.contains cl))
          if needsUnit && 256 ≤ (s.colls.filter (fun x => x.clusters.contains cl)).length then .hold .unit s
          else
            match (if isColl && k.kind = 4 then openRelease s c.tid c.gid (k.peers ≠ 0) else some (0, s)) with
            | none => .hold .issue s
            | some (rel, s) =>
              let num := (c.t.tl tl.toNat).handed + 1
              let mark := s.nextId
              let cmd : Cmd := { kind := kind, tl := tl.toNat, num := num, group := c.gid, card := card, cardOff := off,
                                 phase := c.t.exch.sendPhase, mark := mark, landed := idle, stopped := false,
                                 failed := none, sent := [], stat := 0, collK := if isColl then c.t.colls else 2 ^ 64, relId := rel, rowsDone := 0,
                                 spoilt := false, issuer := c.gid, decoded := none }
              let s := modTeam s c.tid (fun t =>
                let t := (t.tlnext tl.toNat).2
                { t with cmds := t.cmds ++ [cmd], colls := if isColl then t.colls + 1 else t.colls })
              let s := modGroup s c.tid c.gid (fun g => g.setS d.toNat (BitVec.ofNat 64 num))
              let s := countSends s c.t kind card
              let s := hideLines s c.t kind card tl.toNat num
              let s : State := if isColl then { s with
                  colls := joinColl s.colls c.t.grid c.t.colls cl k.clm (c.tid, tl.toNat, num)
                  grids := nmModify c.t.grid (fun g => { g with colls := nmPut c.t.index (c.t.colls + 1) g.colls }) s.grids } else s
              let (h, s) := popHold s
              .done (spoilCmd (if h then s else runCmd s c.tid tl.toNat num) c.tid tl.toNat num)

def execCopy (d a : BitVec 6) (tl : BitVec 3) (s : State) : Host.Outcome State Fault Refusal :=
  issue (.copy d a tl) (engineIssue .copy d a tl) s
def execHalo (d a : BitVec 6) (tl : BitVec 3) (s : State) : Host.Outcome State Fault Refusal :=
  issue (.halo d a tl) (engineIssue .halo d a tl) s
def execMcast (d a : BitVec 6) (tl : BitVec 3) (s : State) : Host.Outcome State Fault Refusal :=
  issue (.mcast d a tl) (engineIssue .mcast d a tl) s
def execDcmpStream (d a : BitVec 6) (tl : BitVec 3) (s : State) : Host.Outcome State Fault Refusal :=
  issue (.dcmpStream d a tl) (engineIssue .dcmp d a tl) s

/-! ## Counting messages (R141, R142, R152, R153) -/

/-- CLOSE_MESSAGE: a counting point answers when its count matches (R141 step 3). -/
def execCloseMessage (id : Nat) (s : State) : Host.Outcome State Fault Refusal :=
  .next (match nmGet id s.flight with
    | some (.close src pt n rel) => if countAt s pt src = n then takeClose (dropMsg s id) src pt n rel else s
    | _ => s)
/-- CLOSE_ANSWER (R141 step 4). -/
def execCloseAnswer (id : Nat) (s : State) : Host.Outcome State Fault Refusal :=
  .next (match nmGet id s.flight with
    | some (.answer src pt rel) => takeAnswer (dropMsg s id) src pt rel
    | _ => s)
/-- PEER_WRITE_ACK (R152). -/
def execPeerWriteAck (id : Nat) (s : State) : Host.Outcome State Fault Refusal :=
  .next (match nmGet id s.flight with
    | some (.peerAck t g name _ _ _) => ackPeer (dropMsg s id) t g name
    | _ => s)
/-- ZERO_LENGTH_READ_COMPLETION (R153): the read stays behind the posted writes. -/
def execZeroLengthReadCompletion (id : Nat) (s : State) : Host.Outcome State Fault Refusal :=
  .next (match nmGet id s.flight with
    | some (.zread t g rel) =>
      if hostPending s id then s
      else modGroup (dropMsg s id) t g (fun x => (x.modRelease rel (fun r => { r with zread := false })).settleReleases)
    | _ => s)

end Sys2Proof.Machine
end

