-- ==== Sys2Proof/Machine/Predicate.lean ====
section
/-! DEFINITION. The exact geometric predicates (R317 to R329, R334): operands, determinants, the three stages, the symbolic
tie-break, non-finite coordinates and completion. -/

namespace Sys2Proof.Machine

/-! ## Determinants over any arithmetic (R319, R321) -/

/-- The operations of an arithmetic in which a determinant is evaluated. -/
structure Arith (α : Type) where
  add : α → α → α
  sub : α → α → α
  mul : α → α → α

inductive PredKind where
  | gor2 | gor3 | ginc | gins | gseg
  deriving DecidableEq, Repr, Inhabited

def PredKind.dim : PredKind → Nat
  | .gor3 => 3
  | .gins => 3
  | _ => 2
def PredKind.points : PredKind → Nat
  | .gor2 => 3
  | .gins => 5
  | _ => 4
/-- The rows end in a lift (R319). -/
def PredKind.lifted : PredKind → Bool
  | .ginc => true
  | .gins => true
  | _ => false

variable {α : Type}

def det2 (A : Arith α) (d : α) (u v : List α) : α := A.sub (A.mul (u.getD 0 d) (v.getD 1 d)) (A.mul (u.getD 1 d) (v.getD 0 d))
def det3 (A : Arith α) (d : α) (u v w : List α) : α :=
  let z (x : List α) := x.getD 2 d
  A.add (A.add (A.mul (z u) (det2 A d v w)) (A.mul (z v) (det2 A d w u))) (A.mul (z w) (det2 A d u v))
def det4 (A : Arith α) (d : α) (a b c e : List α) : α :=
  let l (x : List α) := x.getD 3 d
  A.add (A.sub (A.mul (l e) (det3 A d a b c)) (A.mul (l c) (det3 A d e a b)))
    (A.sub (A.mul (l b) (det3 A d c e a)) (A.mul (l a) (det3 A d b c e)))
/-- The determinant D of a predicate from its rows (R319, R321). -/
def detOf (A : Arith α) (d : α) (k : PredKind) (rows : List (List α)) : α :=
  let r (i : Nat) := rows.getD i []
  match k with
  | .gor3 => det3 A d (r 0) (r 1) (r 2)
  | .ginc => det3 A d (r 0) (r 1) (r 2)
  | .gins => det4 A d (r 0) (r 1) (r 2) (r 3)
  | _ => det2 A d (r 0) (r 1)
/-- A lift: the sum of squares in x, y, z order. -/
def liftOf (A : Arith α) (d : α) (v : List α) : α :=
  match v with
  | [] => d
  | x :: l => l.foldl (fun acc y => A.add acc (A.mul y y)) (A.mul x x)
/-- The rows of a predicate from translated vectors, with lifts where it has them. -/
def rowsOf (A : Arith α) (d : α) (k : PredKind) (vs : List (List α)) : List (List α) :=
  if k.lifted then vs.map (fun v => v ++ [liftOf A d v]) else vs
/-- Translated vectors: each point but the last, less the last. -/
def translated (A : Arith α) (pts : List (List α)) : List (List α) :=
  match pts.getLast? with
  | none => []
  | some z => pts.dropLast.map (fun p => (p.zip z).map (fun q => A.sub q.1 q.2))

def exactArith : Arith Dya := ⟨Dya.add, Dya.sub, Dya.mul⟩

/-! ## Stages (R321 to R323) -/

/-- A stage-0 value with the lane's condition: an fl step overflowed or was tiny and nonzero. -/
structure Fl where
  v : Dya
  bad : Bool
  deriving DecidableEq, Repr, Inhabited
/-- fl(x) (R321). -/
def fl (x : Dya) (bad : Bool) : Fl :=
  let r := roundDya fp64 .rne false x
  ⟨(decodeF fp64 r.bits).toDya, bad || r.fl.ovf || (x.m ≠ 0 && magLt x.m.natAbs x.e 1 (-1022))⟩
def flArith : Arith Fl :=
  ⟨fun a b => fl (a.v.add b.v) (a.bad || b.bad), fun a b => fl (a.v.sub b.v) (a.bad || b.bad), fun a b => fl (a.v.mul b.v) (a.bad || b.bad)⟩
/-- P̃'s arithmetic: every subtraction becomes an addition (R321). -/
def flAbsArith : Arith Fl := { flArith with sub := flArith.add }

/-- B0 and B1 (R322), with u = 2^-53: (k + j u) u. -/
def boundOf (k j : Nat) : Dya := ⟨(k : Int) * 2 ^ 53 + j, -106⟩
def bound0 : PredKind → Dya
  | .gor3 => boundOf 7 56
  | .ginc => boundOf 10 96
  | .gins => boundOf 16 224
  | _ => boundOf 3 16
def bound1 : PredKind → Dya
  | .gor3 => boundOf 3 28
  | .ginc => boundOf 4 48
  | .gins => boundOf 5 72
  | _ => boundOf 2 12

/-- The differences of stage 0, D̃ and P̃ with their conditions, and whether some fl step among them left the range (R321). -/
def stage0 (k : PredKind) (pts : List (List Dya)) : List (List Fl) × Fl × Fl × Bool :=
  let z0 : Fl := ⟨.zero, false⟩
  let diffs := translated flArith (pts.map (fun p => p.map (fun x => (⟨x, false⟩ : Fl))))
  let rows := rowsOf flArith z0 k diffs
  let d0 := detOf flArith z0 k rows
  let p0 := detOf flAbsArith z0 k (rows.map (fun r => r.map (fun x => (⟨x.v.abs, x.bad⟩ : Fl))))
  (diffs, d0, p0, d0.bad || p0.bad || rows.any (fun r => r.any (·.bad)))

/-- The sign of a determinant with the stage that decided it (R321 to R323). `bad`: some fl step in the lane left the range, also one of another
determinant that the lane evaluates (R320). -/
def stagedSign (k : PredKind) (bad : Bool) (pts : List (List Dya)) : Int × Nat :=
  let exact := translated exactArith pts
  let (diffs, d0, p0, _) := stage0 k pts
  if !bad && ((bound0 k).mul p0.v).lt d0.v.abs then (d0.v.sign, 0)
  else
    let same := (exact.zip diffs).all (fun q => (q.1.zip q.2).all (fun x => x.1.eq x.2.v))
    let d1 := detOf exactArith .zero k (rowsOf exactArith .zero k (diffs.map (fun r => r.map (·.v))))
    if same then (d1.sign, 1)
    else if !bad && ((bound1 k).mul p0.v).lt d1.abs then (d1.sign, 1)
    else ((detOf exactArith .zero k (rowsOf exactArith .zero k exact)).sign, 2)

/-! ## The symbolic tie-break (R324) -/

/-- A polynomial in ε: the coefficients that are not zero, by exponent. -/
abbrev Poly := NMap Dya
def polyPut (p : Poly) (k : Nat) (x : Dya) : Poly :=
  let y := (nmGetD p k .zero).add x
  if y.m = 0 then nmDel k p else nmPut k y p
def polyAdd (a b : Poly) : Poly := b.foldl (fun p t => polyPut p t.1 t.2) a
def polyNeg (a : Poly) : Poly := a.map (fun t => (t.1, t.2.neg))
def polyMul (a b : Poly) : Poly := a.foldl (fun p t => b.foldl (fun p u => polyPut p (t.1 + u.1) (t.2.mul u.2)) p) []
def polyArith : Arith Poly := ⟨polyAdd, fun a b => polyAdd a (polyNeg b), polyMul⟩
/-- The rank of a point among the distinct indices, ascending: points of equal index move together. -/
def rankOf (idx : List Nat) (n : Nat) : Nat := (idx.eraseDups.filter (fun i => i < idx.getD n 0)).length
/-- The sign of D(ε) for every sufficiently small ε > 0. -/
def perturbedSign (k : PredKind) (pts : List (List Dya)) (ranks : List Nat) : Int :=
  let moved : List (List Poly) := (List.range pts.length).map (fun n =>
    let p := pts.getD n []
    (List.range p.length).map (fun c => polyPut (polyPut [] 0 (p.getD c .zero)) (3 ^ (k.dim * ranks.getD n 0 + c)) ⟨1, 0⟩))
  let d := detOf polyArith [] k (rowsOf polyArith [] k (translated polyArith moved))
  match d with
  | (_, x) :: _ => x.sign
  | [] => 0

/-- A determinant's sign and stage, by the tie-break when it is zero and indices are given (R324). -/
def solvedSign (k : PredKind) (bad : Bool) (pts : List (List Dya)) (ranks : Option (List Nat)) : Int × Nat :=
  let r := stagedSign k bad pts
  match ranks with
  | some l => if r.1 = 0 then (perturbedSign k pts l, 2) else r
  | none => r

/-! ## GSEG (R320) -/

def Dya.minD (a b : Dya) : Dya := if b.lt a then b else a
def Dya.maxD (a b : Dya) : Dya := if a.lt b then b else a
/-- A point's coordinates lie between the ends' of a segment. -/
def onSegment (x s e : List Dya) : Bool :=
  [0, 1].all (fun k =>
    let v (p : List Dya) := p.getD k .zero
    ((v s).minD (v e)).le (v x) && (v x).le ((v s).maxD (v e)))
/-- The class of two segments and its stage (R320, R323), from four orientations. An fl step of any of them that left the range counts for the whole
lane (R321, R322). -/
def segClass (pts : List (List Dya)) (ranks : Option (List Nat)) : Nat × Nat :=
  let p (i : Nat) := pts.getD i []
  let bad := [(0, 1, 2), (0, 1, 3), (2, 3, 0), (2, 3, 1)].any (fun x => (stage0 .gor2 [p x.1, p x.2.1, p x.2.2]).2.2.2)
  let o (i j k : Nat) := solvedSign .gor2 bad [p i, p j, p k] (ranks.map (fun l => [l.getD i 0, l.getD j 0, l.getD k 0]))
  let o1 := o 0 1 2
  let o2 := o 0 1 3
  let o3 := o 2 3 0
  let o4 := o 2 3 1
  let stage := max (max o1.2 o2.2) (max o3.2 o4.2)
  let cls :=
    if o1.1 = 0 ∧ o2.1 = 0 ∧ o3.1 = 0 ∧ o4.1 = 0 then
      let x (i k : Nat) := (p i).getD k .zero
      let axis := if (x 0 0).eq (x 1 0) && (x 0 0).eq (x 2 0) && (x 0 0).eq (x 3 0) then 1 else 0
      let lo := ((x 0 axis).minD (x 1 axis)).maxD ((x 2 axis).minD (x 3 axis))
      let hi := ((x 0 axis).maxD (x 1 axis)).minD ((x 2 axis).maxD (x 3 axis))
      if lo.lt hi then 3 else if lo.eq hi then 2 else 0
    else if o1.1 * o2.1 < 0 ∧ o3.1 * o4.1 < 0 then 1
    else if (o1.1 = 0 && onSegment (p 2) (p 0) (p 1)) || (o2.1 = 0 && onSegment (p 3) (p 0) (p 1)) ||
        (o3.1 = 0 && onSegment (p 0) (p 2) (p 3)) || (o4.1 = 0 && onSegment (p 1) (p 2) (p 3)) then 2
    else 0
  (cls, stage)

/-! ## The instruction (R317, R318, R325, R326) -/

/-- The coordinates of a lane's points (R318). -/
def predPoints (c : Ctx) (k : PredKind) (p : VCode) (f32 : Bool) (i : Nat) : List (List FVal) :=
  (List.range k.points).map (fun n => (List.range k.dim).map (fun j =>
    let r := p.toNat + (if f32 then 1 else 2) * (n * k.dim + j)
    if f32 then decodeF fp32 (lane (c.v r) i).toNat else decodeF fp64 (c.pair r i)))

/-- A lane's result word and stage report (R319, R320, R325, R327). -/
def predLane (k : PredKind) (pts : List (List FVal)) (ranks : Option (List Nat)) : Word × Nat :=
  if pts.any (fun p => p.any (fun x => !x.finite)) then (if k = .gseg then 4 else 2, 3)
  else
    let xs := pts.map (fun p => p.map FVal.toDya)
    match k with
    | .gseg =>
      let r := segClass xs ranks
      (BitVec.ofNat 32 r.1, r.2)
    | _ =>
      let r := solvedSign k (stage0 k xs).2.2.2 xs ranks
      (BitVec.ofInt 32 r.1, r.2)

/-- The registers that a predicate in flight writes. -/
def PredOp.names (o : PredOp) : List RegName := .v o.d :: (match o.xd with
  | some x => [RegName.v x]
  | none => [])
/-- A lane of it needs stage 2 (R327). -/
def PredOp.deep (o : PredOp) : Bool := (lanesOf o.mask).any (fun i => lane o.stage i = 2)
/-- The predicates in flight in a core's unit. -/
def predsOf (s : State) (core : Nat) : List PredOp := (coreOf s core).preds
/-- A predicate's lanes enter stage 2 (R334): the queue is in issue order, but lanes that enter after later-issued ones have started, of which
`started` and the queue's head are the last issued, wait behind all that are queued. Lanes that enter later never come before older ones that are
queued, wherever those stand. -/
def enqueue (started : Nat) (q : List Nat) (id : Nat) : List Nat :=
  let younger := (q.reverse.takeWhile (id < ·)).reverse
  if q.contains id then q
  else if id < max started (q.headD 0) then q ++ [id]
  else q.take (q.length - younger.length) ++ [id] ++ younger
/-- The lanes of a predicate that need stage 2 have entered it, and before them those of every older predicate of its kind, which pass the
stages in the same time (R334; log entry 75). -/
def enterStage2 (s : State) (core : Nat) (o : PredOp) : State :=
  let enters := (predsOf s core).filter (fun x => x.deep && !x.ran && ((x.kind = o.kind && x.id < o.id) || x.id = o.id))
  if !o.deep then s else modCore s core (fun c => { c with predQueue := (enters.map (·.id)).foldl (enqueue c.predStarted) c.predQueue })
/-- The lanes of a predicate that stands first in the queue run in stage 2 (R334), and the next one's start. -/
def runStage2 (s : State) (core : Nat) (o : PredOp) : State :=
  if (coreOf s core).predQueue.head? ≠ some o.id then s
  else modCore s core (fun c => { c with
    predQueue := c.predQueue.drop 1, predStarted := max c.predStarted o.id
    preds := c.preds.map (fun x => if x.id = o.id then { x with ran := true } else x) })
/-- It can complete: its lanes that need stage 2 have run there (R334), and its shared registers are free (R47). -/
def predReady (s : State) (core : Nat) (o : PredOp) : Bool :=
  !resultBlocked s o.team o.group o.names && (predsOf s core).any (fun x => x.id = o.id && (!x.deep || x.ran))

/-- A predicate's results are written, all at once (R326). -/
def landPred (s : State) (core : Nat) (o : PredOp) : State :=
  let s := modCore s core (fun c => { c with preds := c.preds.filter (fun x => x.id ≠ o.id) })
  let s := modTeam s o.team (fun t => t.late o.group o.id (fun t =>
    match nmGet o.group t.groups with
    | none => t
    | some g =>
      let t := t.setVLanes g o.d o.mask o.result
      match o.xd with
      | some x => t.setVLanes g x o.mask o.stage
      | none => t))
  fillResult s o.team o.group core o.names
/-- A predicate's lanes go on to stage 2, those of the first in the queue run, and it completes if it can. -/
def runPred (s : State) (core : Nat) (o : PredOp) : State :=
  let s := runStage2 (enterStage2 s core o) core o
  if predReady s core o then landPred s core o else s
/-- The number of a kind of predicate. -/
def PredKind.num (k : PredKind) (f32 : Bool) : Nat :=
  (match k with
  | .gor2 => 0
  | .gor3 => 2
  | .ginc => 4
  | .gins => 6
  | .gseg => 8) + (if f32 then 1 else 0)

/-- A predicate of some kind (R325, R326). -/
def predicate (k : PredKind) (guard : BitVec 3) (d p q : VCode) (ty : BitVec 1) : Ctx → State → Eff := fun c s =>
  let m := c.lanes guard
  let xd := c.h.xd.head?
  if m = 0 then .done (fillResult s c.tid c.gid c.core (.v d.toNat :: (c.h.xd.map RegName.v)))
  else if 8 ≤ (coreOf s c.core).preds.length then .hold .issue s
  else
    let f32 := isSet ty
    let pts (i : Nat) := predPoints c k p f32 i
    let odd := maskOf (fun i => inMask m i && (pts i).any (fun x => x.any (fun y => !y.finite)))
    if odd ≠ 0 && !fmtPnf c.g.fmt then .bad 0x06 odd
    else
      let ranks (i : Nat) : Option (List Nat) :=
        if c.h.sos then
          let idx := (List.range k.points).map (fun n => (lane (c.v (q.toNat + n)) i).toNat)
          some ((List.range k.points).map (rankOf idx))
        else none
      let res := lanes.map (fun i => if inMask m i then predLane k (pts i) (ranks i) else (0, 0))
      let (id, s) := newId s
      let o : PredOp := ⟨id, k.num f32, c.tid, c.gid, d.toNat, xd, m, res.map (·.1), res.map (fun r => BitVec.ofNat 32 r.2), false⟩
      let s := modCore s c.core (fun x => { x with preds := x.preds ++ [o] })
      let (h, s) := popHold s
      .done (if h then s else runPred s c.core o)

def execGor2 (guard : BitVec 3) (d p q : BitVec 6) (ty : BitVec 1) (s : State) : Host.Outcome State Fault Refusal :=
  issue (.gor2 guard d p q ty) (predicate .gor2 guard d p q ty) s
def execGor3 (guard : BitVec 3) (d p q : BitVec 6) (ty : BitVec 1) (s : State) : Host.Outcome State Fault Refusal :=
  issue (.gor3 guard d p q ty) (predicate .gor3 guard d p q ty) s
def execGinc (guard : BitVec 3) (d p q : BitVec 6) (ty : BitVec 1) (s : State) : Host.Outcome State Fault Refusal :=
  issue (.ginc guard d p q ty) (predicate .ginc guard d p q ty) s
def execGins (guard : BitVec 3) (d p q : BitVec 6) (ty : BitVec 1) (s : State) : Host.Outcome State Fault Refusal :=
  issue (.gins guard d p q ty) (predicate .gins guard d p q ty) s
def execGseg (guard : BitVec 3) (d p q : BitVec 6) (ty : BitVec 1) (s : State) : Host.Outcome State Fault Refusal :=
  issue (.gseg guard d p q ty) (predicate .gseg guard d p q ty) s

/-- PREDICATE_COMPLETION (R326, R334). -/
def execPredicateCompletion (id : Nat) (s : State) : Host.Outcome State Fault Refusal :=
  .next (match s.cores.findSome? (fun p => (p.2.preds.find? (fun d => d.id = id)).map (fun d => (p.1, d))) with
    | some (core, o) => runPred s core o
    | none => s)

end Sys2Proof.Machine
end

