-- ==== Sys2Proof/Machine/Grids.lean ====
section
/-! DEFINITION. Grids and teams before they run (R25 to R29, R71, R72, R268, R377 to R384): launch records and kernel headers, what
the dispatcher refuses, the device's own accesses through an address space (R338, R343, R400), neighbour tables, the room a
core has. -/

namespace Sys2Proof.Machine

/-! ## The device's own accesses (R338, R343, R347, R381, R400) -/

/-- Translate for the device: a walk that no stash serves; the pool window is that of `cluster` (R113). A walk that is no access but a question
(`live` false) reads the tables as they stand. -/
def devXlat (live : Bool) (s : State) (part aspace cluster va : Nat) (user : Bool) (need : Need) (acc : Acc) : Except Nat Xlat × State :=
  if 2 ^ 48 ≤ va then (.error 0x05, s)
  else if inPool va then translate s (cluster * Config.coresPerCluster) part aspace va user need acc
  else
    match (if live then walkDescriptor s part aspace else match descriptor s part aspace with
      | (d, s) => (.ok d, s)) with
    | (.error c, s) => (.error c, s)
    | (.ok d, s) =>
      match walkRoot live s part aspace d va with
      | (.fault c, s) => (.error c, s)
      | (.leaf l _, s) => leafXlat s part va user need acc l none

/-- One access of the device within a sector. A write to the host stays behind the posted writes before it (R153). A move or a strict commit of the
page that it must wait for runs to its end first (R364, R369, R374). -/
def devAccess (part aspace cluster : Nat) (user : Bool) (va : Nat) (acc : Acc) (n : Nat) : Nat → State → Got
  | 0, _ => .wait
  | k + 1, s =>
    let again (s : State) : Got := devAccess part aspace cluster user va acc n k s
    match devXlat true s part aspace cluster va user acc.need acc with
    | (.error 0, s) => again (s.moves.foldl (fun s m => runMove s m.1) s)
    | (.error c, s) => .fault c va s
    | (.ok x, s) =>
      let r : MemReq := ⟨0, 0, Config.deviceAgent, part, aspace, user, va, n, acc, .none, .group 0 0 0, x.place, x.ten, x.rep, x.pk, true, 0, 0, 0,
        0, .none⟩
      let s := if (r.inFlight false).posted then flushHost s else s
      match perform s r with
      | .done s bs => .ok bs s
      | .bad c s => .fault c va s
      | _ =>
        match moveAt s r.at_ with
        | some mv => again (runMove s mv)
        | none =>
          let at_ := performedAt s r
          if commitOn s at_ then again (finishCommit s at_) else .wait

def devReadCuts (part aspace cluster : Nat) (user : Bool) : List (Nat × Nat) → State → Got
  | [], s => .ok [] s
  | (va, n) :: l, s =>
    match devAccess part aspace cluster user va .read n 5 s with
    | .ok bs s => (match devReadCuts part aspace cluster user l s with
      | .ok rest s => .ok (bs ++ rest) s
      | e => e)
    | e => e
def devWriteCuts (part aspace cluster : Nat) : List (Nat × Nat) → List Byte → State → Got
  | [], _, s => .ok [] s
  | (va, n) :: l, bs, s =>
    match devAccess part aspace cluster false va (.write (bs.take n)) n 5 s with
    | .ok _ s => devWriteCuts part aspace cluster l (bs.drop n) s
    | e => e
/-- Read bytes through an address space. -/
def devRead (s : State) (part aspace cluster : Nat) (user : Bool) (va n : Nat) : Got := devReadCuts part aspace cluster user (cuts va n) s
/-- Write bytes through an address space, with supervisor rights. -/
def devWrite (s : State) (part aspace cluster va : Nat) (bs : List Byte) : Got := devWriteCuts part aspace cluster (cuts va bs.length) bs s
/-- The same, where a page that refuses the write loses it (log entry 15). -/
def devPut (s : State) (part aspace cluster va : Nat) (bs : List Byte) : State :=
  match devWrite s part aspace cluster va bs with
  | .ok _ s => s
  | .fault _ _ s => s
  | _ => s

/-! ## Launch records and kernel headers (R71, R377) -/

def parseRecord (b : List Byte) : Record :=
  { kern := cardField b 0 8, args := cardField b 8 8, nteam := cardField b 0x10 4, ex := cardField b 0x14 4, ey := cardField b 0x18 2,
    ez := cardField b 0x1A 2, flags := cardField b 0x1C 1, per := cardField b 0x1D 1, aspace := cardField b 0x1E 1,
    rsv := cardField b 0x1F 1, coll := cardField b 0x20 4, svn := cardField b 0x24 4, nbr := cardField b 0x28 8,
    done := cardField b 0x30 8, sva := cardField b 0x38 8 }
/-- N, the team count (R377). -/
def Record.count (r : Record) : Nat := r.nteam + 1
def Record.cls (r : Record) : Nat := r.flags % 4
def Record.geometry (r : Record) : Nat := r.flags / 16 % 4
def Record.supervisor (r : Record) : Bool := bitOf r.flags 3

def parseHeader (b : List Byte) : Header :=
  { sig := cardField b 0 4, ever := cardField b 4 1, flags := cardField b 5 1, npro := cardField b 6 1, ncon := cardField b 7 1,
    gmax := cardField b 8 1, bpro := cardField b 9 1, bcon := cardField b 0x0A 1, npair := cardField b 0x0B 1, dfmt := cardField b 0x0C 4,
    epro := cardField b 0x10 4, econ := cardField b 0x14 4, desk := cardField b 0x18 4, tslot := cardField b 0x1C 1,
    atile := cardField b 0x1D 1, nbar := cardField b 0x1E 1, nque := cardField b 0x1F 1,
    pairs := (List.range 16).map (fun i => cardField b (0x20 + 2 * i) 2) }
def Header.gang (h : Header) : Bool := bitOf h.flags 0

/-- The grid is cooperative or a gang (R52, R377). -/
def together (r : Record) (h : Header) : Bool := h.gang || bitOf h.flags 1 || bitOf r.flags 2

/-- A budget of a role that has groups (R71). -/
def budgetValue (b : Nat) : Bool := b % 8 = 0 && 8 ≤ b && b ≤ 56

/-- The pairings name groups of the launch, each at most once (R72). -/
def pairsBad (h : Header) : Bool :=
  let used := (h.pairs.take h.npair).flatMap (fun e => [pairFirst e, pairSecond e])
  16 < h.npair || (h.pairs.take h.npair).any (fun e => e / 2 ^ 13 ≠ 0) || used.any (fun g => h.npro + h.ncon ≤ g) ||
    used.eraseDups.length ≠ used.length || (h.pairs.drop h.npair).any (· ≠ 0)

/-- R72 and R102, with the test whether an address lies in the kernel's executable pages; both entries are tested, also that of a role
without groups. A desk that is no multiple of 128 and an epro other than 0 beside npro 0 are refused by no rule and are taken as they stand
(R71; log entry 65). -/
def headerBad (h : Header) (kern : Nat) (exec : Nat → Bool) : Bool :=
  h.sig ≠ 0x4B484450 || h.ever = 0 || 3 < h.ever || 4 ≤ h.flags || 2 ^ 25 ≤ h.dfmt || h.npro + h.ncon = 0 ||
  h.gmax < h.npro + h.ncon || 32 < h.gmax || (if h.npro = 0 then h.bpro ≠ 0 else !budgetValue h.bpro) ||
  (h.bcon ≠ 0 && !budgetValue h.bcon) || (h.ncon ≠ 0 && h.bcon = 0) || pairsBad h || 2 ^ 17 < h.desk || kern % 64 ≠ 0 ||
  h.epro % 4 ≠ 0 || !exec (kern + h.epro) || h.econ % 4 ≠ 0 || !exec (kern + h.econ)

/-- An address lies in an executable page of an address space (R72, R285, R346). -/
def execPage (s : State) (part aspace : Nat) (user : Bool) (va : Nat) : Bool :=
  match (devXlat false s part aspace 0 va user .exec .read).1 with
  | .ok _ => true
  | .error _ => false

/-- The geometry breaks R377. -/
def geometryBad (r : Record) : Bool :=
  let g := r.geometry
  g ≠ 0 && ((g < 2 && r.ey ≠ 1) || (g < 3 && r.ez ≠ 1) || r.ex * r.ey * r.ez ≠ r.count)

/-! ## The room on a core (R383) -/

/-- What resident teams and one more need of a core: group slots, register bytes, desk bytes, tray slots, tiles, barriers,
queues. -/
def Header.needs (h : Header) : List Nat := [h.npro + h.ncon, h.allocBytes, h.desk, h.tslot, h.atile, h.nbar, h.nque]
/-- What a resident or a saved team itself needs of a core: a slot for each of its live groups (log entry 88). -/
def Team.holds (t : Team) : List Nat :=
  [t.groups.length, t.header.allocBytes, t.header.desk, t.header.tslot, t.header.atile, t.header.nbar, t.header.nque]
def addList : List Nat → List Nat → List Nat
  | [], _ => []
  | a :: l, m => (a + m.headD 0) :: addList l m.tail
def withinList : List Nat → List Nat → Bool
  | [], _ => true
  | a :: l, m => a ≤ m.headD 0 && withinList l m.tail
/-- What a core has under its split (R19, R340). -/
def Core.room (c : Core) : List Nat :=
  [Config.groupSlots, bitsOf c.split.toNat 3 0 * 2 ^ 16, bitsOf c.split.toNat 7 4 * 2 ^ 16, Config.traySlots, Config.accTiles, 64, 32]
/-- A resident team's SPLIT is still evicting near frames of a core (R350). -/
def splitting (s : State) (core : Nat) : Bool :=
  s.teams.any (fun p => p.2.resident && p.2.groups.any (fun g => g.2.wait = some (.split core)))
/-- The core can take `needs` beside what is resident on it (R102, R383): enough is free in all, wherever on the core it lies (log entry 82).
A core that a SPLIT closes takes nothing (R350); a SPLIT whose team has left its core closes it no more. -/
def coreTakes (s : State) (needs : List Nat) (core : Nat) : Bool :=
  !((coreOf s core).closed && splitting s core) && withinList ((teamsOn s core).foldl (fun n t => addList n t.holds) needs) (coreOf s core).room

/-! ## The save image's size (R343) -/

def up4k (n : Nat) : Nat := (n + 4095) / 4096 * 4096
def Header.devSize (h : Header) : Nat := up4k (65536 + 8192 * h.tslot + 33024 * h.atile + 64 * (h.nbar + h.nque))
/-- Where each section after the group records begins, and the total (R343). -/
def Header.regsAt (_ : Header) : Nat := 4096 + 65536
def Header.deskAt (h : Header) : Nat := h.regsAt + up4k h.allocBytes
def Header.drawerAt (h : Header) : Nat := h.deskAt + up4k h.desk
def Header.marksAt (h : Header) : Nat := h.drawerAt + up4k h.desk
def Header.devAt (h : Header) : Nat := h.marksAt + up4k (h.desk / 8 + h.desk / 1024)
/-- Z, the image size (R378, R343). -/
def Header.imageSize (h : Header) : Nat := h.devAt + h.devSize

/-! ## Refusals (R379, R286, R408) -/

/-- The reasons 1, 2, 4, 5 and 6 of R379 in their order for a readable header; 0 when none holds. -/
def refusal (s : State) (part : Nat) (r : Record) (h : Header) : Nat :=
  let cl := (partClusters s.layout part).length
  if headerBad h r.kern (execPage s part r.aspace (!r.supervisor)) then 1
  else if r.rsv ≠ 0 || 64 ≤ r.flags || 8 ≤ r.per || geometryBad r || r.svn = 0 then 2
  else if (h.gang && 192 < r.count) || (together r h && 192 * cl < r.count) then 4
  else if !(coresOfPart s part).any (fun c => withinList h.needs (coreOf s c).room) then 5
  else if together r h && r.svn < r.count then 6
  else 0

/-! ## Grids -/

/-- The key of a grid: partition and grid id. -/
def gridKey (part id : Nat) : Nat := part * 2 ^ 32 + id % 2 ^ 32
/-- The next grid id of a partition, the first from the last one on that no live grid has (R61, R380). -/
def nextGridId (s : State) (part : Nat) : Nat × State :=
  let n := (partOf s part).nextGrid
  let from_ := (List.range (s.grids.length + 1)).map (fun i => (n + i - 1) % (2 ^ 32 - 1) + 1)
  let id := (from_.find? (fun k => (nmGet (gridKey part k) s.grids).isNone)).getD n
  (id, modPart s part (fun p => { p with nextGrid := id % (2 ^ 32 - 1) + 1 }))

/-- Put an accepted record into its queue as a grid (R380, R390). -/
def addGrid (s : State) (part id : Nat) (r : Record) (h : Header) (host : Bool) (depth parent mark : Nat) : State :=
  let key := gridKey part id
  { s with
    grids := nmPut key ⟨key, part, r, h, host, depth, parent, mark, s.nextId, 0, 0, [], [], 0, false, false, []⟩ s.grids
    nextId := s.nextId + 1 }

/-- Records of a partition whose grids still have teams to place (R380). -/
def queued (s : State) (part : Nat) (host : Bool) : Nat :=
  (s.grids.filter (fun g => g.2.part = part && g.2.host = host && g.2.placed < g.2.rec_.count)).length

/-! ## Neighbour tables (R268, R377) -/

/-- The team index next to team t in a dimension, or nothing at an edge that is not periodic (R268). -/
def neighbour (r : Record) (t dim : Nat) (plus : Bool) : Option Nat :=
  let n := if dim = 0 then r.ex else if dim = 1 then r.ey else r.ez
  let stride := if dim = 0 then 1 else if dim = 1 then r.ex else r.ex * r.ey
  let x := t / stride % n
  if r.geometry ≤ dim then none
  else if plus then
    if x + 1 < n then some (t + stride) else if bitOf r.per dim then some (t - x * stride) else none
  else
    if 0 < x then some (t - stride) else if bitOf r.per dim then some (t + (n - 1) * stride) else none
/-- The eight entries of team t, given the cores of the grid's teams (R268). -/
def neighbourTable (r : Record) (homes : List (Nat × Nat)) (t : Nat) : List (Option Nat) :=
  (List.range 8).map (fun i => (neighbour r t (i / 2) (i % 2 = 1)).bind (fun u => (homes.find? (·.1 = u)).map (·.2)))
/-- The bytes of an entry in the neighbour area (R268). -/
def neighbourByte (e : Option Nat) : Byte :=
  match e with
  | some core => BitVec.ofNat 8 (coreInCluster core)
  | none => 0xFF

end Sys2Proof.Machine
end

