-- ==== Sys2Proof/Machine/Image.lean ====
section
/-! DEFINITION. The save image (R343 to R346): its bytes in memory, what a supervisor may edit in it, writing and reading it page by
page, and the fault record (R347). The device-state section's bytes are free values (log entry 16). -/

namespace Sys2Proof.Machine

/-! ## The fault record (R347) -/

/-- The 64 bytes of a fault record without its seq. -/
def faultRecord (t : Team) (f : FaultInfo) (image : Nat) (gang : Bool) : List Byte :=
  natBytes 1 f.code ++ natBytes 1 ((if gang then 1 else 0) + (if f.engine then 2 else 0)) ++ natBytes 2 f.scode ++
  natBytes 1 (coreInCluster t.core) ++ natBytes 1 (clusterOfCore t.core) ++ natBytes 1 f.group ++ natBytes 1 t.aspace ++
  natBytes 4 (t.grid % 2 ^ 32) ++ natBytes 4 t.index ++ natBytes 8 f.restart ++ natBytes 8 f.addr ++ natBytes 4 f.lanes.toNat ++
  natBytes 4 f.aux ++ natBytes 8 f.num ++ natBytes 8 image ++ natBytes 8 0
/-- The record with its sequence number (R347). -/
def withSeq (rec_ : List Byte) (seq : Nat) : List Byte := rec_.take 56 ++ natBytes 8 seq

/-! ## The image's bytes (R343 to R345) -/

def groupAt (g : Nat) : Nat := 4096 + 2048 * g
/-- A group record (R345), at its place. Its count of remaining iterations leaves out the present one (log entry 34). -/
def putGroup (m : Memory) (g : Group) : Memory :=
  let b := groupAt g.index
  let m := writeBytes m b ((List.range 64).flatMap (fun i => natBytes 8 (g.sreg i).toNat))
  let m := writeBytes m (b + 0x200) ((List.range 8).flatMap (fun i => natBytes 4 (g.mask i).toNat))
  let m := writeBytes m (b + 0x220) (natBytes 4 g.fmt.toNat ++ natBytes 4 g.fflags.toNat ++ natBytes 8 g.restart)
  let m := match g.rep with
    | some r => writeBytes m (b + 0x230) (natBytes 8 r.remaining ++ natBytes 8 r.first ++ natBytes 4 (r.len + 2 ^ 16 * r.pos))
    | none => m
  let flags := 1 + (if g.producer then 2 else 0) + (if g.rep.isSome then 4 else 0)
  let m := writeBytes m (b + 0x244) (natBytes 1 g.stack.length ++ natBytes 1 g.phase ++ natBytes 1 g.index ++ natBytes 1 flags)
  let m := writeBytes m (b + 0x280) (g.stack.reverse.flatMap (fun e => natBytes 4 e.sm0.toNat ++ natBytes 4 e.cond.toNat ++ natBytes 4 e.sfmt.toNat))
  writeBytes m (b + 0x380) ((List.range 6).flatMap (fun k => (List.range 32).flatMap (fun i => natBytes 4 (lane (g.latchAt k) i).toNat)))

/-- The header of an image (R344). -/
def imageHeader (t : Team) (gang : Bool) (next state : Nat) : List Byte :=
  natBytes 4 0x53564147 ++ natBytes 1 state ++ natBytes 1 ((if gang then 1 else 0) + (if t.supervisor then 2 else 0)) ++
  natBytes 1 t.aspace ++ natBytes 1 t.exch.phase ++ natBytes 4 (t.grid % 2 ^ 32) ++ natBytes 4 t.index ++ natBytes 8 t.kern ++ natBytes 8 next ++
  (List.range 8).flatMap (fun i => natBytes 8 (t.tl i).value) ++ (List.range 8).flatMap (fun i => natBytes 8 (t.tl i).handed) ++
  natBytes 4 t.header.devSize ++ natBytes 4 t.header.imageSize ++ natBytes 4 t.bankKey.toNat ++ natBytes 4 0 ++
  (List.range 64).map (fun i => t.frec.getD i 0)

/-- The drawer's mask bits and the presence bits (R343). -/
def marksOf (t : Team) : Memory :=
  let m := t.drawer.foldl (fun (m : Memory) b => writeByte m (b.off / 8) (readByte m (b.off / 8) ||| BitVec.ofNat 8 (2 ^ (b.off % 8)))) []
  (List.range (t.header.desk / 128)).foldl (fun m l =>
    let a := t.header.desk / 8 + l / 8
    if t.lineAbsent l then m else writeByte m a (readByte m a ||| BitVec.ofNat 8 (2 ^ (l % 8)))) m

/-- The bytes that the device writes into its section, meaningful only to it (R346): `n` free values from `seed` on (log entry 16). -/
def devState (seed n : Nat) : Memory :=
  (List.range n).filterMap (fun i => if Config.freeByte (seed + i) = 0 then none else some (i, Config.freeByte (seed + i)))

/-- The whole image of a team (R343); `dev` is its last section. -/
def imageOf (t : Team) (gang : Bool) (next state : Nat) (dev : Memory) : Memory :=
  let h := t.header
  let m := writeBytes [] 0 (imageHeader t gang next state)
  let m := t.groups.foldl (fun m g => putGroup m g.2) m
  let m := t.regs.foldl (fun m r => writeBytes m (h.regsAt + 128 * r.1) ((List.range 128).map (fun j => regByte r.2 j))) m
  let m := pasteRange m h.deskAt h.desk t.desk
  let m := t.drawer.foldl (fun m b => writeByte m (h.drawerAt + b.off) b.val) m
  pasteRange m h.marksAt (up4k (h.desk / 8 + h.desk / 1024)) (marksOf t) ++ dev.map (fun c => (h.devAt + c.1, c.2))

/-! ## What a supervisor may edit (R346) -/

/-- The ranges of an image that R346 does not compare: the fields that it names, and the parts that it names neither as fields to change nor as
ones whose change makes TRESUME return NONE. An unused group record is compared whole: no group has the fields it would hold (log entry 35). -/
def editable (t : Team) : List (Nat × Nat) :=
  let h := t.header
  t.groups.map (fun g => (groupAt g.1, 0x248)) ++ t.groups.map (fun g => (groupAt g.1 + 0x280, 192)) ++
  t.groups.map (fun g => (groupAt g.1 + 0x380, 768)) ++ [(h.regsAt, h.devAt - h.regsAt)]
def maskEdits (t : Team) (m : Memory) : Memory := (editable t).foldl (fun m r => clearRange m r.1 r.2) m

/-- The restart address that an image gives a group. -/
def restartIn (img : Memory) (g : Nat) : Nat := readLE img (groupAt g + 0x228) 8

/-- A group reloaded from its record (R345, R394). Its index and its live and producer flags stay (log entry 35). A group sent elsewhere waits
for nothing. -/
def Group.reload (g : Group) (img : Memory) : Group :=
  let b := groupAt g.index
  let f (o n : Nat) : Nat := readLE img (b + o) n
  let entry (i : Nat) : MaskEntry :=
    ⟨BitVec.ofNat 32 (f (0x280 + 12 * i) 4), BitVec.ofNat 32 (f (0x284 + 12 * i) 4), BitVec.ofNat 32 (f (0x288 + 12 * i) 4)⟩
  { g with
    sregs := Vector.ofFn (fun (i : Fin 64) => if i = 0 then 0 else BitVec.ofNat 64 (f (8 * i) 8))
    masks := Vector.ofFn (fun (i : Fin 8) => BitVec.ofNat 32 (f (0x200 + 4 * i) 4))
    fmt := BitVec.ofNat 32 (f 0x220 4 % 2 ^ 25)
    fflags := BitVec.ofNat 32 (f 0x224 4 % 16)
    pc := f 0x228 8
    wait := if f 0x228 8 = g.pc then g.wait else none
    rep := if bitOf (f 0x247 1) 2 then some ⟨f 0x230 8, f 0x238 8, f 0x240 2, f 0x242 2⟩ else none
    phase := f 0x245 1 % 4
    stack := ((List.range (min 16 (f 0x244 1))).map entry).reverse
    latches := (List.range 6).map (fun k => lanesOfBytes (fun j => readByte img (b + 0x380 + 128 * k + j))) }

/-- The drawer's bytes as an image marks them (R343, R394); one that the team has not had before counts as its own of the present phase (log
entry 35). -/
def drawerIn (t : Team) (img : Memory) : List DrawerByte :=
  let h := t.header
  (List.range h.desk).filterMap (fun o =>
    if !(readByte img (h.marksAt + o / 8)).getLsbD (o % 8) then none
    else
      let v := readByte img (h.drawerAt + o)
      some (match t.drawer.find? (·.off = o) with
        | some d => { d with val := v }
        | none => ⟨o, v, t.exch.phase, t.core⟩))
/-- The lines that an image marks as absent (R343, R394); one that was present stays absent until an image marks it otherwise (log entry 35). -/
def absentIn (t : Team) (img : Memory) : List (Nat × Nat × Nat) :=
  let h := t.header
  (List.range (h.desk / 128)).flatMap (fun l =>
    if (readByte img (h.marksAt + h.desk / 8 + l / 8)).getLsbD (l % 8) then []
    else if t.lineAbsent l then t.absent.filter (·.1 = l) else [(l, 16, 0)])
/-- Groups that an edited image sends elsewhere are held on no queue any more (R266, R267). -/
def leaveEdited (t : Team) (img : Memory) : Team :=
  t.groups.foldl (fun u p => if (p.2.reload img).wait = p.2.wait then u else u.leaveQueues p.1) t
/-- The team with every section of its image reloaded but the device's own, which is as the device wrote it (R346, R394). -/
def takeEdits (t : Team) (img : Memory) : Team :=
  let h := t.header
  let row (r : Nat) : Lanes := lanesOfBytes (fun j => readByte img (h.regsAt + 128 * r + j))
  { leaveEdited t img with
    groups := t.groups.map (fun p => (p.1, p.2.reload img))
    regs := (List.range (h.allocBytes / 128)).map (fun r => (r, row r))
    desk := sliceRange img h.deskAt h.desk
    drawer := drawerIn t img
    absent := absentIn t img }

/-! ## Writing and reading an image (R343, R348) -/

/-- A page is read and written whole where it lies at home and its column has no worn lane; elsewhere by its sectors. An image begins where its
record's `sva` and slot put it, a multiple of 4,096 or not (log entry 78). -/
def wholeAt (s : State) (va : Nat) (x : Xlat) : Option (Nat × Nat) :=
  match x.place with
  | .home c h => if va % 4096 = 0 && (residenceOf s c h).isNone && !x.pk && !busWorn s (192 * c + h % 192) then some (c, h) else none
  | _ => none
/-- Write one page, whole. -/
def writePage (part aspace cluster va : Nat) (page : Memory) (s : State) : Got :=
  match devXlat true s part aspace cluster va false .write (.write []) with
  | (.error 0, s) => devWrite s part aspace cluster va (readBytes page 0 4096)
  | (.error c, s) => .fault c va s
  | (.ok x, s) =>
    match wholeAt s va x with
    | some (c, h) => .ok [] { s with dram := pasteRange s.dram (homeAddr c h 0) 4096 page }
    | none => devWrite s part aspace cluster va (readBytes page 0 4096)
/-- Write pages from an address; a page that refuses the write loses its bytes (log entry 15). Nothing when one must wait. -/
def writeImage (part aspace cluster : Nat) (img : Memory) (at_ : Nat) : List Nat → State → Option State
  | [], s => some s
  | p :: l, s =>
    match writePage part aspace cluster (at_ + 4096 * p) (sliceRange img (4096 * p) 4096) s with
    | .ok _ s => writeImage part aspace cluster img at_ l s
    | .fault _ _ s => writeImage part aspace cluster img at_ l s
    | _ => none

/-- What reading an image comes to. -/
inductive ImageRead where
  | ok (img : Memory) (s : State)
  | wait
  | fault (code addr : Nat) (s : State)

/-- Read one page with the rights of a mode. -/
def readPage (part aspace cluster : Nat) (user : Bool) (va : Nat) (s : State) : ImageRead :=
  let slow (s : State) : ImageRead := match devRead s part aspace cluster user va 4096 with
    | .ok bs s => .ok (writeBytes [] 0 bs) s
    | .fault c a s => .fault c a s
    | _ => .wait
  match devXlat true s part aspace cluster va user .read .read with
  | (.error 0, s) => slow s
  | (.error c, s) => .fault c va s
  | (.ok x, s) =>
    match wholeAt s va x with
    | some (c, h) => .ok (sliceRange s.dram (homeAddr c h 0) 4096) s
    | none => slow s
/-- Read pages from an address. -/
def readImage (part aspace cluster : Nat) (user : Bool) (at_ : Nat) : List Nat → Memory → State → ImageRead
  | [], img, s => .ok img s
  | p :: l, img, s =>
    match readPage part aspace cluster user (at_ + 4096 * p) s with
    | .ok page s => readImage part aspace cluster user at_ l (pasteRange img (4096 * p) 4096 page) s
    | e => e

/-- The pages of an image. -/
def Header.imagePages (h : Header) : List Nat := List.range (h.imageSize / 4096)

end Sys2Proof.Machine
end

