-- ==== Sys2Proof/Machine/Dispatcher.lean ====
section
/-! DEFINITION. The dispatcher (R382 to R392): the active set, groups of bins, placing and restoring teams, stopping them, the end of
teams and grids, completion words, and the decisions as events. -/

namespace Sys2Proof.Machine

/-! ## The active set (R38, R39, R386) -/

/-- A group enters a core: the active set's youngest place while there is room, else the pending set. -/
def enterCore (s : State) (core tid gid : Nat) : State :=
  modCore s core (fun c =>
    if c.active.length < Config.activeSlots then { c with active := c.active ++ [(tid, gid)] }
    else { c with pend := c.pend ++ [(tid, gid, 0)] })
/-- Pending groups enter while the active set has room. -/
def refill (s : State) (core : Nat) : State :=
  modCore s core (fun c =>
    let n := Config.activeSlots - c.active.length
    { c with active := c.active ++ (c.pend.take n).map (fun p => (p.1, p.2.1)), pend := c.pend.drop n })
/-- Groups that a test names leave the core. -/
def leaveCore (s : State) (core : Nat) (out : Nat × Nat → Bool) : State :=
  refill (modCore s core (fun c =>
    { c with active := c.active.filter (fun p => !out p), pend := c.pend.filter (fun p => !out (p.1, p.2.1)) })) core

/-- The pending group that has been ready longest, with one more than the cycle since which it is (R386). -/
def readyPending (s : State) (core : Nat) : Option (Nat × Nat × Nat) :=
  match (coreOf s core).pend.filter (fun p => p.2.2 ≠ 0) with
  | [] => none
  | x :: l => some (l.foldl (fun b y => if y.2.2 < b.2.2 then y else b) x)
/-- The active groups held at a yield point, with the cycle since when; one whose hold is over is held no more. -/
def heldActive (s : State) (core : Nat) : List ((Nat × Nat) × Nat) :=
  (coreOf s core).active.filterMap (fun p => match groupOf s p.1 p.2 with
    | some g => if g.wait.any Wait.yp && !(coreOf s core).heldPast.contains p then some (p, g.since) else none
    | none => none)
/-- Exchange an active group and a pending one (R386). -/
def exchange (s : State) (core : Nat) (out : Nat × Nat) (in_ : Nat × Nat × Nat) : State :=
  modCore s core (fun c =>
    { c with active := c.active.filter (· ≠ out) ++ [(in_.1, in_.2.1)], pend := c.pend.filter (· ≠ in_) ++ [(out.1, out.2, 0)] })

/-- ACTIVE_SET_SWAP (R386). -/
def execActiveSetSwap (core : Nat) (s : State) : Host.Outcome State Fault Refusal :=
  .next (match readyPending s core, heldActive s core with
    | some p, x :: l =>
      let longest := l.foldl (fun (b : (Nat × Nat) × Nat) y => if y.2 < b.2 then y else b) x
      exchange s core longest.1 p
    | _, _ => s)
/-- A group stands at an instruction boundary (R386): it is neither between a hint and its instruction (R185) nor inside an instruction that
has begun to act and is not a yield point. -/
def atBoundary (g : Group) : Bool :=
  g.hints.first.isNone && (match g.wait with
  | some (.release _) => false
  | some (.acquire _) => false
  | some (.performed _) => false
  | some .placeHome => false
  | some .deposit => false
  | some (.split _) => false
  | _ => true)
/-- FORCED_SWAP (R386): of the oldest active group, at its next instruction boundary. -/
def execForcedSwap (core : Nat) (s : State) : Host.Outcome State Fault Refusal :=
  .next (match readyPending s core, (coreOf s core).active with
    | some p, x :: _ =>
      if p.2.2 + 2 ^ 16 ≤ cycleAt s core + 1 && (heldActive s core).isEmpty && (groupOf s x.1 x.2).any atBoundary then exchange s core x p
      else s
    | _, _ => s)

/-! ## Groups from bins (R31, R33, R35) -/

/-- The lanes of a bin's payload word k. -/
def payloadLanes (b : Bin) (k : Nat) : Lanes := ofLanes (fun i => match b.deposits[i]? with
  | some d => d.payload.getD k 0
  | none => 0)
/-- Start a group of a launched bin as index `idx` (R31): its registers are zero but v0 to v4, and s1 holds the bin. -/
def binGroup (t : Team) (n : Nat) (b : Bin) (idx : Nat) : Team :=
  let m := maskOf (fun i => i < b.deposits.length)
  let g := (Group.start idx false false n (t.kern + b.entry) m t.header.dfmt).setS 1 (BitVec.ofNat 64 n)
  let s0 := idx * t.header.stride
  let t : Team := { t with
    groups := nmPut idx g t.groups
    regs := t.regs.filter (fun r => !(s0 ≤ r.1 && r.1 < s0 + t.header.stride)) }
  let t := t.setV g 0 (ofLanes (fun i => match b.deposits[i]? with
    | some d => d.word
    | none => 0))
  ([1, 2, 3, 4].foldl (fun (t : Team) k => t.setV g k (payloadLanes b (k - 1))) t).joinBarriers idx

/-- A launched bin's group can start: a free slot on the core, fewer groups than Gmax (R35, R72), and the accesses before its
deposits performed (R285). -/
def binCanStart (s : State) (core : Nat) (b : Bin) : Bool :=
  match teamOf s b.team with
  | none => false
  | some t => t.resident && !t.stopping && t.groups.length < t.header.gmax && settledBefore s b.team b.mark &&
      ((teamsOn s core).map (fun t => t.groups.length)).sum < Config.groupSlots
/-- Start the groups of launched bins that can start, the oldest first. -/
def startBins (core : Nat) : List (Nat × Bin) → State → State
  | [], s => s
  | x :: l, s =>
    if binCanStart s core x.2 then
      match (teamOf s x.2.team).bind (fun t => nmFree t.groups t.header.gmax) with
      | none => startBins core l s
      | some idx =>
        let s := modTeam s x.2.team (fun t => binGroup t x.1 x.2 idx)
        let s := modCore s core (fun c => { c with launchedBins := c.launchedBins.erase x })
        startBins core l (enterCore s core x.2.team idx)
    else startBins core l s
/-- Launch a bin (R33): it is free at once, its group waits for a slot. -/
def launchBin (s : State) (core n : Nat) : State :=
  match nmGet n (coreOf s core).bins with
  | none => s
  | some b =>
    let s := modCore s core (fun c => { c with bins := nmDel n c.bins, launchedBins := c.launchedBins ++ [(n, b)] })
    let (h, s) := popHold s
    if h then s else startBins core (coreOf s core).launchedBins s

/-! ## The end of grids (R50, R381, R287, R391) -/

/-- Every write of the grid's teams is performed (R381). -/
def gridSettled (s : State) (g : Grid) : Bool :=
  !s.flight.any (fun m => match m.2 with
    | .result _ _ => false
    | .delivery d _ => g.members.contains d.team
    | x => (match x.req with
      | some r => g.members.contains r.team && r.acc.writes && !r.foreign
      | none => false))

/-- Write the completion word and forget the grid (R381). A halted partition writes none. -/
def completeGrid (s : State) (key : Nat) : State :=
  match nmGet key s.grids with
  | none => s
  | some g =>
    if !g.finished || !gridSettled s g then s
    else
      let word := (key % 2 ^ 32) * 2 ^ 32 + (if g.killed then 2 else 1)
      let cl := (partClusters s.layout g.part).headD 0
      let s := if g.rec_.done = 0 || (partOf s g.part).halted then s else devPut s g.part g.rec_.aspace cl g.rec_.done (natBytes 8 word)
      { s with grids := nmDel key s.grids }

/-- Give a child's end status to the team that launched it, resident or saved; a spilled parent becomes ready (R287, R391). -/
def tellParent (s : State) (parent id status : Nat) : State :=
  let tell (t : Team) : Team := { t with children := t.children.map (fun c => if c.grid = id then { c with status := some status } else c) }
  let now := s.nextId
  let s := modTeam s parent tell
  { s with
    nextId := now + 1
    saved := s.saved.map (fun x => if x.team.id = parent then
      let awaits := x.team.groups.any (fun g => g.2.wait = some (.waitch id))
      let fresh := x.spilled && awaits && !x.resumed
      { x with team := tell x.team, resumed := x.resumed || fresh, readyAt := if fresh then now else x.readyAt }
    else x) }

/-- One more team of a grid has ended, killed by the supervisor or by its own end. -/
def teamOver (s : State) (key : Nat) (killed : Bool) : State :=
  match nmGet key s.grids with
  | none => s
  | some g =>
    let last := decide (g.ended + 1 = g.rec_.count)
    let g : Grid := { g with ended := g.ended + 1, killed := g.killed || killed, finished := last }
    let s := { s with grids := nmPut key g s.grids }
    if !g.finished then s
    else
      let s := if g.parent = 0 then s else tellParent s g.parent (key % 2 ^ 32) (if g.killed then 2 else 0)
      let (h, s) := popHold s
      if h then s else completeGrid s key

/-! ## Stopping a team (R387, R389, R391, R395) -/

/-- Stop a team for a swap-out that no fault causes; the reason is kept until SWAP_OUT. -/
def stopTeam (s : State) (tid why : Nat) : State :=
  modTeam s tid (fun t => if t.stopping || !t.resident then t else { t with stopping := true, saveWhy := why })

/-- The class of a grid. -/
def gridClass (s : State) (key : Nat) : Nat :=
  match nmGet key s.grids with
  | some g => g.rec_.cls
  | none => 3
/-- A core of the reserve of its partition (R387). -/
def onReserve (s : State) (part core : Nat) : Bool := coreInCluster core < (partOf s part).class0Reserve
/-- Pre-empt every lower-class team on a reserve core (R387). -/
def preemptReserve (s : State) (part : Nat) : State :=
  (s.teams.filter (fun p => p.2.part = part && onReserve s part p.2.core && gridClass s p.2.grid ≠ 0)).foldl (fun s p => stopTeam s p.1 1) s
/-- A class-0 team waits (R387). -/
def class0Queued (s : State) (part : Nat) : Bool :=
  s.grids.any (fun g => g.2.part = part && g.2.rec_.cls = 0 && g.2.placed < g.2.rec_.count) ||
  s.saved.any (fun x => x.team.part = part && x.resumed && gridClass s x.team.grid = 0)
/-- A team of a grid may use a core of the reserve (R387). -/
def reserveOk (s : State) (part : Nat) (r : Record) (h : Header) : Bool :=
  r.cls = 0 || (!(s.teams.any (fun p => p.2.part = part && onReserve s part p.2.core && gridClass s p.2.grid = 0)) &&
    !class0Queued s part && h.imageSize ≤ 2 ^ 20 && !together r h)

/-- The cores on which a team of a grid fits now, in the order in which they are tried: for class 0 the reserve first. -/
def coresFor (s : State) (g : Grid) (needs : List Nat) : List Nat :=
  let all := coresOfPart s g.part
  let ok := reserveOk s g.part g.rec_ g.header
  let order := if g.rec_.cls = 0 then all.filter (onReserve s g.part) ++ all.filter (fun c => !onReserve s g.part c) else all
  order.filter (fun c => (ok || !onReserve s g.part c) && coreTakes s needs c)

/-! ## Placement (R31, R68, R102, R383, R384) -/

/-- The save slots that teams of a grid hold (R378). -/
def usedSlots (s : State) (key : Nat) : List Nat :=
  (s.teams.filter (fun p => p.2.grid = key)).map (fun p => p.2.slot) ++ (s.saved.filter (fun x => x.team.grid = key)).map (fun x => x.team.slot)

/-- The groups of a team at its launch (R29, R31). -/
def launchGroups (h : Header) (kern : Nat) : NMap Group :=
  (List.range (h.npro + h.ncon)).map (fun i =>
    (i, Group.start i (i < h.npro) true 0 (kern + (if i < h.npro then h.epro else h.econ)) 0xFFFFFFFF (BitVec.ofNat 32 h.dfmt)))

/-- Place team `index` of a grid on a core (R384); `nbrs` are its neighbour table. -/
def placeTeam (s : State) (g : Grid) (index core slot : Nat) (nbrs : List (Option Nat)) : State :=
  let (id, s) := newId s
  let r := g.rec_
  let t := Team.start id g.part g.id index core r.aspace r.supervisor (BitVec.ofNat 32 id) r.kern r.args g.header
  let now := cycleAt s core
  let t : Team := { t with
    groups := launchGroups g.header r.kern, exch := { t.exch with nbrs := nbrs }, slot := slot, placedAt := now, lastRetire := now,
    interval := (coreOf s core).wdog }
  let note (x : Grid) : Grid :=
    let homes := if x.homes.any (·.1 = index) then x.homes else x.homes ++ [(index, core)]
    { x with placed := x.placed + 1, passedAt := 0, members := x.members ++ [id], homes := homes }
  let s := { s with teams := nmPut id t s.teams, grids := nmModify g.id note s.grids }
  t.groups.foldl (fun s p => enterCore s core id p.1) s

/-- Write a team's entries of the neighbour area (R268, R384). -/
def putNeighbours (s : State) (g : Grid) (index : Nat) (nbrs : List (Option Nat)) : State :=
  if g.rec_.nbr = 0 then s
  else devPut s g.part g.rec_.aspace ((partClusters s.layout g.part).headD 0) (g.rec_.nbr + 8 * index) (nbrs.map neighbourByte)

/-- What an attempt to place comes to. -/
inductive Placed where
  | all (s : State)
  | passed (s : State)
  | waits (s : State)

/-- Place the teams of a grid that is neither cooperative nor a gang, one at a time (R382). -/
def placeEach (key : Nat) : Nat → State → Placed
  | 0, s => .waits s
  | k + 1, s =>
    match nmGet key s.grids with
    | none => .all s
    | some g =>
      if g.rec_.count ≤ g.placed then .all s
      else
        match lowestFree g.rec_.svn (usedSlots s key) with
        | none => .waits s
        | some slot =>
          match (coresFor s g g.header.needs).head? with
          | none => .passed s
          | some core =>
            let none8 : List (Option Nat) := List.replicate 8 none
            placeEach key k (placeTeam (putNeighbours s g g.placed none8) g g.placed core slot none8)

/-- The sets of cores that a cooperative or gang grid of n teams could take at once: a gang those of one cluster (R383). -/
def coreSets (s : State) (g : Grid) : List (List Nat) :=
  let fit := coresFor s g g.header.needs
  let sets := if g.header.gang then (partClusters s.layout g.part).map (fun c => fit.filter (fun k => clusterOfCore k = c)) else [fit]
  sets.filter (fun l => g.rec_.count ≤ l.length)
/-- Place a cooperative or gang grid all at once (R383). -/
def placeTogether (s : State) (g : Grid) : Placed :=
  match coreSets s g with
  | [] => .passed s
  | l :: _ =>
    let homes := (List.range g.rec_.count).map (fun i => (i, l.getD i 0))
    let s := { s with grids := nmModify g.id (fun x => { x with homes := homes }) s.grids }
    let s := homes.foldl (fun s h => putNeighbours s g h.1 (neighbourTable g.rec_ homes h.1)) s
    .all (homes.foldl (fun s h => placeTeam s g h.1 h.2 h.1 (neighbourTable g.rec_ homes h.1)) s)

/-- The cores that the next team of a grid could take now (R383, R387). -/
def placeCores (s : State) (g : Grid) : List Nat :=
  if together g.rec_ g.header then (coreSets s g).flatten else coresFor s g g.header.needs

/-- Place what can be placed of a grid, at most `limit` teams of one that is neither cooperative nor a gang, once the accesses before its LAUNCH
are performed (R286). -/
def placeGrid (limit : Nat) (s : State) (g : Grid) : Placed :=
  if g.parent ≠ 0 && !settledBefore s g.parent g.mark then .waits s
  else if together g.rec_ g.header then (if g.placed = 0 then placeTogether s g else .all s)
  else placeEach g.id limit s

/-! ## Restore (R378, R394, R395) -/

/-- The physical numbers that a restored team's claims take on its new core (R314). -/
def renumber (used : List Nat) (n : Nat) : Nat → List Nat
  | 0 => []
  | k + 1 =>
    let x := (lowestFree n used).getD 0
    x :: renumber (x :: used) n k

/-- Reopen a saved bin on a core, with the rest of its timer (R393). Its number stays if it is free there; else it takes the lowest free
one, which s1 and SGET 12 of its group then show (log entry 66). It launches when no bin is free. -/
def reopenBin (core : Nat) (s : State) (x : Nat × Bin) : State :=
  let c := coreOf s core
  let b : Bin := { x.2 with start := cycleAt s core - x.2.start }
  match (if (nmGet x.1 c.bins).isNone then some x.1 else nmFree c.bins Config.binsPerCore) with
  | some n => setCore s core { c with bins := nmPut n b c.bins }
  | none => setCore s core { c with launchedBins := c.launchedBins ++ [(x.1, b)] }

/-- Change the cycle that a sleeping group waits for. -/
def Wait.mapCycle (f : Nat → Nat) (w : Wait) : Wait :=
  match w with
  | .sleep u => .sleep (f u)
  | x => x
/-- The cycles a saved group still has to pass count from the restore on its core's counter (R205, R345). -/
def Group.rebase (now : Nat) (g : Group) : Group :=
  { g with
    fault := none, since := now, notBefore := if g.notBefore = 0 then 0 else now + g.notBefore
    wait := g.wait.map (Wait.mapCycle (now + ·)) }
/-- The other faults of the swap-out that no instruction raises again are taken now (R396). -/
def Team.raiseOwed (t : Team) : Team :=
  t.owed.foldl (fun t f => t.meet { f with restart := match (if f.live then nmGet f.group t.groups else none) with
    | some g => g.restart
    | none => 0 }) { t with owed := [] }

/-- Put a saved team on a core again (R394): its image is read through its own address space and marked resumed; each group goes
on at its restart address under a new team-instance tag. Nothing while the image cannot be read. -/
def restoreTeam (s : State) (x : Saved) (core : Nat) : Option State :=
  let t := x.team
  let cl := clusterOfCore core
  match readImage t.part t.aspace cl false x.image t.header.imagePages [] s with
  | .ok img s =>
    let t := takeEdits t img
    let s := devPut s t.part t.aspace cl (x.image + 4) [2]
    let (tag, s) := newId s
    let (tag, s) := if BitVec.ofNat 32 tag = t.tag then newId s else (tag, s)
    let now := cycleAt s core
    let others := teamsOn s core
    let sl := renumber (others.flatMap (fun u => u.slots.map (·.phys))) Config.traySlots t.slots.length
    let tl := renumber (others.flatMap (fun u => u.tiles.map (·.phys))) Config.accTiles t.tiles.length
    let t : Team := { t with
      core := core, tag := BitVec.ofNat 32 tag, resident := true, stopping := false, saveWhy := 0, pending := none, placedAt := now,
      lastRetire := now, interval := (coreOf s core).wdog,
      groups := t.groups.map (fun p => (p.1, p.2.rebase now))
      slots := (t.slots.zip sl).map (fun p => { p.1 with phys := p.2 })
      tiles := (t.tiles.zip tl).map (fun p => { p.1 with phys := p.2 })
      cmds := t.cmds.map (fun c => { c with stopped := false }) }
    let s := { s with teams := nmPut t.id t.raiseOwed s.teams, saved := s.saved.filter (fun y => y.team.id ≠ t.id) }
    let s := modPart s t.part (fun p => { p with resumeQ := p.resumeQ.filter (· ≠ t.id) })
    let s := x.bins.foldl (reopenBin core) s
    let s := modCore s core (fun c => { c with launchedBins := c.launchedBins ++ x.launchedBins })
    let s := x.msgs.foldl post s
    some (t.groups.foldl (fun s p => enterCore s core t.id p.1) s)
  | _ => none
/-- Put the teams of a gang on their cores again, all or none (R395). -/
def restoreAll : List Saved → State → Option State
  | [], s => some s
  | y :: l, s => (restoreTeam s y y.team.core).bind (restoreAll l)

/-- The cores on which a ready team could be restored now: where it fits, and for a cooperative or gang grid the one it left (R394), which must
not be one of a reserve that is closed to it (R387); none while a member of its gang cannot go back (R395). -/
def restoreCores (s : State) (x : Saved) : List Nat :=
  match nmGet x.team.grid s.grids with
  | none => []
  | some g =>
    let back (y : Saved) : Bool := coreTakes s y.team.holds y.team.core &&
      (reserveOk s g.part g.rec_ g.header || !onReserve s g.part y.team.core)
    if g.header.gang then
      let all := s.saved.filter (fun y => y.team.grid = g.id)
      if all.all (fun y => y.resumed && back y) then all.map (·.team.core) else []
    else if together g.rec_ g.header then (if back x then [x.team.core] else [])
    else coresFor s g x.team.holds
/-- Restore a ready team, or its whole gang, if it fits (R394, R395). -/
def tryRestore (s : State) (x : Saved) : State :=
  match restoreCores s x with
  | [] => s
  | core :: _ =>
    let gang := (nmGet x.team.grid s.grids).any (fun g => g.header.gang)
    (if gang then restoreAll (s.saved.filter (fun y => y.team.grid = x.team.grid)) s else restoreTeam s x core).getD s

/-! ## The parent-spill rule (R391) -/

/-- A group is still held at its yield point (R40): what a WAITCH, a TLWAIT, a SLEEP, a barrier or a queue waits for has not come yet. At any
other yield point a group counts as held until it issues. -/
def heldStill (s : State) (t : Team) (g : Group) : Bool :=
  match g.wait with
  | some (.waitch id) => t.children.any (fun c => c.grid = id && c.status.isNone)
  | some (.timeline tl n) => (t.tl tl).value < n
  | some (.sleep u) => cycleAt s t.core < u
  | some (.barrier b _) => t.stuck g || (nmGet b t.bars).any (fun x => !settledBefore s t.id x.mark)
  | some (.bararr _ _) => t.stuck g
  | some (.qpush q) => (nmGet q t.queues).any (fun x => x.a = 0 || !firstOf x.pushers g.index)
  | some (.qpop q) => (nmGet q t.queues).any (fun x => !canPop s t.id x || !firstOf x.poppers g.index)
  | some w => w.yp
  | none => false
/-- A team at least one of whose groups is held in WAITCH, every other at a yield point. -/
def spillable (s : State) (t : Team) : Bool :=
  t.resident && !t.stopping && t.groups.any (fun g => match g.2.wait with
    | some (.waitch _) => true
    | _ => false) && t.groups.all (fun g => heldStill s t g.2)
def gridDepth (s : State) (key : Nat) : Nat :=
  match nmGet key s.grids with
  | some g => g.depth
  | none => 0
/-- Save one spillable parent of a queued child that no core can take: the deepest, and the oldest among equals, which is the one that has been
on its core longest (log entry 40). -/
def spill (s : State) (part : Nat) : State :=
  let stuck := s.grids.filter (fun g => g.2.part = part && !g.2.host && g.2.placed < g.2.rec_.count && (placeCores s g.2).isEmpty)
  let cands := (stuck.filterMap (fun g => teamOf s g.2.parent)).filter (spillable s)
  match cands with
  | [] => s
  | t :: l =>
    let best := l.foldl (fun (b u : Team) =>
      let db := gridDepth s b.grid
      let du := gridDepth s u.grid
      if db < du || (db = du && u.placedAt < b.placedAt) then u else b) t
    stopTeam s best.id 2

/-! ## Dispatch (R382) -/

/-- Insert by the order of becoming ready. -/
def insertReady (x : Saved) : List Saved → List Saved
  | [] => [x]
  | y :: l => if x.readyAt < y.readyAt then x :: y :: l else y :: insertReady x l

/-- Restores of a class, in the order in which they became ready. -/
def restoreClass (part cls : Nat) (s : State) : State :=
  let l := (s.saved.filter (fun x => x.team.part = part && x.resumed && gridClass s x.team.grid = cls)).foldl (fun l x => insertReady x l) []
  l.foldl (fun s x =>
    match s.saved.find? (fun y => y.team.id = x.team.id) with
    | none => s
    | some y => tryRestore s y) s

/-- Insert by the order of acceptance. -/
def insertAccepted (x : Grid) : List Grid → List Grid
  | [] => [x]
  | y :: l => if x.accepted < y.accepted then x :: y :: l else y :: insertAccepted x l
/-- The grids of a class that have teams to place, in acceptance order. -/
def unplaced (s : State) (part cls : Nat) : List Grid :=
  (s.grids.filter (fun g => g.2.part = part && g.2.rec_.cls = cls && g.2.placed < g.2.rec_.count)).foldl (fun l g => insertAccepted g.2 l) []

/-- The cycle that the dispatcher counts by. -/
def partCycle (s : State) (part : Nat) : Nat := (clusterOf s ((partClusters s.layout part).headD 0)).cycle
/-- Place what fits of the grids of a class, in their order, of each no more than `limit`, and note since when one has been passed over
(R382). -/
def placeClass (part limit : Nat) : List Nat → State → State
  | [], s => s
  | key :: l, s =>
    match nmGet key s.grids with
    | none => placeClass part limit l s
    | some g =>
      match placeGrid limit s g with
      | .all s => placeClass part limit l s
      | .waits s => placeClass part limit l s
      | .passed s =>
        placeClass part limit l { s with grids := nmModify key (fun g => { g with passedAt := if g.passedAt = 0 then partCycle s part + 1 else g.passedAt }) s.grids }

/-- The oldest unplaced team of a class has been passed over for 2^20 cycles (R382). -/
def starved (s : State) (part cls : Nat) : Option Nat :=
  match unplaced s part cls with
  | [] => none
  | g :: _ => if g.passedAt ≠ 0 && g.passedAt + 2 ^ 20 ≤ partCycle s part + 1 then some g.id else none
/-- Class after class (R382). The oldest unplaced team of a class that has been passed over too long comes first, that one team alone
(a cooperative or gang grid is placed whole), and bars the way of its class and the lower ones until it is placed. -/
def dispatchClasses (part : Nat) : List Nat → State → State
  | [], s => s
  | c :: l, s =>
    let s := match starved s part c with
      | some key => placeClass part 1 [key] s
      | none => s
    if (starved s part c).isSome then s
    else dispatchClasses part l (placeClass part 24577 ((unplaced (restoreClass part c s) part c).map (·.id)) (restoreClass part c s))

/-- A decision of a partition's dispatcher (R382, R391): nothing in a halted partition (R351) or in recovery (R420). -/
def dispatchPart (s : State) (part : Nat) : State :=
  if (partOf s part).halted || s.mgmt.recovery || !s.power then s else spill (dispatchClasses part [0, 1, 2, 3] s) part

/-! ## The end of a team (R50, R430) -/

/-- Everything on a core that belongs to a team goes (R50). -/
def clearCore (s : State) (core tid : Nat) : State :=
  leaveCore (modCore s core (fun c => { c.dropPreds (fun d => d.team = tid) with
    bins := c.bins.filter (fun b => b.2.team ≠ tid), launchedBins := c.launchedBins.filter (fun b => b.2.team ≠ tid),
    drains := c.drains.filter (fun d => d.team ≠ tid) })) core (fun p => p.1 = tid)

/-- The drains of a team that are on their way reach their places. -/
def landDrains (s : State) (core tid : Nat) : State :=
  ((coreOf s core).drains.filter (fun d => d.team = tid)).foldl (fun s d => landDrain s core d) s
/-- The team ends, once what has reached its core is served, and its core's resources are free; the dispatcher decides anew. -/
def endTeam (s : State) (t : Team) : State :=
  let s := clearCore (serveReached (landDrains (flushArray s t.core) t.core t.id) t true) t.core t.id
  let s := { s with teams := nmDel t.id s.teams }
  let s := startBins t.core (coreOf s t.core).launchedBins s
  dispatchPart (teamOver s t.grid false) t.part

/-- A team whose groups have all ended: its bins launch at once, and it ends when nothing of it is left (R50). -/
def checkEnd (s : State) (tid : Nat) : State :=
  match teamOf s tid with
  | none => s
  | some t =>
    if !t.resident || t.stopping || t.groups ≠ [] then s
    else
      let mine := ((coreOf s t.core).bins.filter (fun b => b.2.team = tid)).map (·.1)
      if mine ≠ [] then mine.foldl (fun s n => launchBin s t.core n) s
      else if (coreOf s t.core).launchedBins.any (fun b => b.2.team = tid) || t.cmds ≠ [] then s
      else endTeam s t

/-! ## Events -/

/-- DISPATCH_STARVATION: the dispatcher decides, and a team passed over for 2^20 cycles bars its class and the lower ones (R382). -/
def execDispatchStarvation (part : Nat) (s : State) : Host.Outcome State Fault Refusal := .next (dispatchPart s part)

/-- A grid's next team waits for placement and could use a core once one of its teams has left it (R387, R389): it has a save slot, the
accesses before its LAUNCH are performed, and it fits. -/
def couldPlace (s : State) (t : Team) (w : Grid) : Bool :=
  let s' : State := { s with teams := nmDel t.id s.teams }
  w.placed < w.rec_.count && (together w.rec_ w.header || (lowestFree w.rec_.svn (usedSlots s w.id)).isSome) &&
    (w.parent = 0 || settledBefore s w.parent w.mark) && (placeCores s' w).contains t.core
/-- The same of a team that waits to be restored. -/
def couldRestore (s : State) (t : Team) (x : Saved) : Bool :=
  let s' : State := { s with teams := nmDel t.id s.teams }
  x.resumed && (restoreCores s' x).contains t.core
/-- TIME_SLICE_EXPIRY (R389). -/
def execTimeSliceExpiry (team : Nat) (s : State) : Host.Outcome State Fault Refusal :=
  .next (match teamOf s team with
    | none => s
    | some t =>
      match nmGet t.grid s.grids with
      | none => s
      | some g =>
        let q := (partOf s t.part).tslice
        let between (c : Nat) : Bool := 1 ≤ c && c ≤ g.rec_.cls
        let waiting := s.grids.any (fun w => w.2.part = t.part && between w.2.rec_.cls && couldPlace s t w.2) ||
          s.saved.any (fun x => x.team.part = t.part && between (gridClass s x.team.grid) && couldRestore s t x)
        if q ≠ 0 && g.rec_.cls ≠ 0 && !together g.rec_ g.header && t.placedAt + 1024 * q ≤ cycleAt s t.core && waiting then stopTeam s team 3
        else s)

/-- GRID_COMPLETION (R381). -/
def execGridCompletion (grid : Nat) (s : State) : Host.Outcome State Fault Refusal := .next (completeGrid s grid)

/-- WATCHDOG_EXPIRY (R53, R398): the record names the lowest live group index, and the lanes of its instruction (log entry 13). -/
def execWatchdogExpiry (team : Nat) (s : State) : Host.Outcome State Fault Refusal :=
  .next (match teamOf s team with
    | none => s
    | some t =>
      match t.groups with
      | (gid, g) :: _ =>
        if t.resident && !t.stopping && t.lastRetire + t.interval ≤ cycleAt s t.core then
          takeFault (lrBump s 6 (clusterOfCore t.core) 0 (2 ^ 32 - 1)) team gid 
            ⟨0x0B, g.index, g.restart, 0, g.m0, 0, 0, false, 0, some g.restart, s.nextId, true⟩
        else s
      | [] => s)

/-- Teams whose groups have all ended end, once nothing else of them is left (R50). -/
def endIdle (s : State) : State := (s.teams.filter (fun p => p.2.groups.isEmpty)).foldl (fun s p => checkEnd s p.1) s

/-- COLL (R281 to R284): a collective that completes at its last issue may end teams whose groups have all ended. -/
def execColl (d a : BitVec 6) (tl : BitVec 3) (s : State) : Host.Outcome State Fault Refusal :=
  issue (.coll d a tl) (fun c s =>
    match engineIssue .coll d a tl c s with
    | .done s => .done (endIdle s)
    | e => e) s

/-! ## Engine commands as events (R106, R272, R280, R284) -/

/-- COPY_DATA_LANDING: the command's data moves, and its desk lines become present (R106). -/
def execCopyDataLanding (team tl num : Nat) (s : State) : Host.Outcome State Fault Refusal :=
  .next (match cmdOf s team tl num with
    | some (t, c) => if c.kind = .coll || !t.resident then s else landCmd s t c
    | none => s)
/-- ENGINE_COMMAND_COMPLETION: all its writes are counted; its timeline advances (R272), and the team may end (R50). -/
def execEngineCommandCompletion (team tl num : Nat) (s : State) : Host.Outcome State Fault Refusal :=
  .next (match cmdOf s team tl num with
    | some (t, c) => if t.resident then checkEnd (completeCmd s team c) team else s
    | none => s)
/-- DCMP_STREAM_END (R280). -/
def execDcmpStreamEnd (team tl num : Nat) (s : State) : Host.Outcome State Fault Refusal :=
  .next (match cmdOf s team tl num with
    | some (t, c) => if c.kind = .dcmp && t.resident then checkEnd (completeNow (landCmd s t c) team tl num) team else s
    | none => s)
/-- COLL_ARRIVAL: once every participant has arrived, a collective of the grid's k-th COLLs runs and its commands complete (R282 to R284). -/
def execCollArrival (grid k : Nat) (s : State) : Host.Outcome State Fault Refusal :=
  .next (match s.colls.find? (fun x => x.grid = grid && x.k = k && collComplete s x) with
    | none => s
    | some x => x.issued.foldl (fun s y => checkEnd (completeNow s y.1 y.2.1 y.2.2) y.1) (runColl s x))

end Sys2Proof.Machine
end

