-- ==== Sys2Proof/Machine/Work.lean ====
section
/-! DEFINITION. Creating work (R31 to R37, R285 to R287, R377 to R380, R390): SPAWN, REBIN, LAUNCH, WAITCH, and bins as events. -/

namespace Sys2Proof.Machine

/-! ## Deposits (R32 to R36, R285) -/

/-- The bin with the oldest first deposit (R34). -/
def oldestBin (c : Core) : Option Nat :=
  match c.bins with
  | [] => none
  | x :: l => some (l.foldl (fun (b : Nat × Bin) y => if y.2.order < b.2.order then y else b) x).1

/-- Put a deposit into bin n of a core; a bin of 32 threads launches (R33). -/
def putDeposit (s : State) (core n : Nat) (b : Bin) (d : Deposit) : State :=
  let b : Bin := { b with deposits := b.deposits ++ [d], mark := s.nextId }
  let s := modCore s core (fun c => { c with bins := nmPut n b c.bins })
  if 32 ≤ b.deposits.length then launchBin s core n else s

/-- One deposit (R32, R34): into the open bin of its key, else into the lowest free bin, for which the oldest bin is launched when
there is none. -/
def deposit (s : State) (core : Nat) (key : Bin) (d : Deposit) : State :=
  let same (b : Bin) : Bool := b.team = key.team && b.rebin = key.rebin && b.entry = key.entry && b.keyMask = key.keyMask && b.key = key.key
  match (coreOf s core).bins.find? (fun p => same p.2) with
  | some (n, b) => putDeposit s core n b d
  | none =>
    let s := if (nmFree (coreOf s core).bins Config.binsPerCore).isSome then s
      else match oldestBin (coreOf s core) with
        | some n => launchBin s core n
        | none => s
    match nmFree (coreOf s core).bins Config.binsPerCore with
    | some n =>
      let (first, s) := newId s
      putDeposit s core n { key with start := cycleAt s core, order := first, deposits := [] } d
    | none => s

/-- The entry operand is refused (R285, R72). -/
def entryBad (s : State) (c : Ctx) (e : DWord) (spawn : Bool) : Bool :=
  let entry := e.toNat % 2 ^ 32
  entry % 4 ≠ 0 || !execPage s c.t.part c.t.aspace (!c.t.supervisor) (c.t.kern + entry) || (spawn && e.toNat / 2 ^ 32 ≠ 0) || c.t.header.bcon = 0

/-- The deposits of an instruction's lanes, ascending (R32): `word` is the source word or the key. -/
def deposits (c : Ctx) (p : BitVec 6) (m : Mask) (key : Nat → Bin) (word : Nat → Word) (s : State) : State :=
  (lanesOf m).foldl (fun s i =>
    deposit s c.core (key i) ⟨word i, (List.range 4).map (fun k => lane (c.v (p.toNat + k)) i)⟩) s

def execSpawn (e p : BitVec 6) (guard : BitVec 3) (s : State) : Host.Outcome State Fault Refusal :=
  issue (.spawn e p guard) (fun c s =>
    let m := c.lanes guard
    if entryBad s c (c.s e) true then .bad 0x13 m
    else .done (deposits c p m (fun _ => ⟨c.tid, false, (c.s e).toNat % 2 ^ 32, 0, 0, 0, 0, 0, []⟩)
      (fun i => BitVec.ofNat 32 (32 * c.g.index + i)) s)) s

/-- The lanes leave their group for good (R36). -/
def Group.dropLanes (g : Group) (m : Mask) : Group :=
  { g.setMask 0 (g.m0 &&& ~~~m) with stack := g.stack.map (fun e => { e with sm0 := e.sm0 &&& ~~~m, cond := e.cond &&& ~~~m }) }

def execRebin (key e p : BitVec 6) (guard : BitVec 3) (s : State) : Host.Outcome State Fault Refusal :=
  issue (.rebin key e p guard) (fun c s =>
    let m := c.lanes guard
    let km := hi32 (c.s e).toNat
    let k (i : Nat) : Word := lane (c.v key.toNat) i
    if entryBad s c (c.s e) false then .bad 0x13 m
    else
      let s := deposits c p m (fun i => ⟨c.tid, true, (c.s e).toNat % 2 ^ 32, km, k i &&& km, 0, 0, 0, []⟩) k s
      .done (modGroup s c.tid c.gid (fun g => g.dropLanes m))) s

/-- BIN_TIMER_EXPIRY (R33): the bin's timer has run out, while its team is resident (R393). -/
def execBinTimerExpiry (core bin : Nat) (s : State) : Host.Outcome State Fault Refusal :=
  .next (match nmGet bin (coreOf s core).bins with
    | some b => if b.start + (coreOf s core).binTimeout ≤ cycleAt s core then launchBin s core bin else s
    | none => s)
/-- BIN_GROUP_START (R35). -/
def execBinGroupStart (core : Nat) (s : State) : Host.Outcome State Fault Refusal := .next (startBins core (coreOf s core).launchedBins s)

/-! ## LAUNCH (R286, R379, R390) -/

/-- Read mem bytes for the issuing group before its instruction completes, translated and checked (R237), each sector at its place (R117). -/
def readRecord (c : Ctx) (s : State) (a n : Nat) : AtOnce :=
  match checkMem c ((cuts a n).map (fun k => ⟨0, k.1, k.2, 1, .read, .none⟩)) s with
  | .fault code addr s => .bad code addr s
  | .wait => .held s
  | .ok l s' => if canSend s' c l true then readAtOnce c (l.map (fun p => c.request 0 c.g.m0 p.1 p.2 true)) s' else .held s

def execLaunch (d r : BitVec 6) (s : State) : Host.Outcome State Fault Refusal :=
  issue (.launch d r) (fun c s =>
    let a := (c.s r).toNat
    let part := c.t.part
    if a % 64 ≠ 0 then .fault 0x13 0 c.g.m0 2 0
    else
      match readRecord c s a 64 with
      | .bad code _ s' => .refused s' code a c.g.m0
      | .held s => .hold .issue s
      | .done s b =>
        let rc := parseRecord b
        let (desc, s) := descriptor s part rc.aspace
        if !bitOf desc 0 then .fault 0x13 0 c.g.m0 3 0
        else
          match devRead s part rc.aspace (clusterOfCore c.core) (!c.t.supervisor) rc.kern 64 with
          | .fault code _ s' => .refused s' code rc.kern c.g.m0
          | .ok hb s =>
            let h := parseHeader hb
            let why := refusal s part rc h
            let depth := gridDepth s c.t.grid + 1
            if why ≠ 0 then .fault 0x13 0 c.g.m0 why 0
            else if rc.supervisor then .fault 0x13 0 c.g.m0 8 0
            else if 8 < depth then onGroup (fun _ g => g.setS d.toNat 1) c s
            else if 1024 ≤ queued s part false then onGroup (fun _ g => g.setS d.toNat 2) c s
            else
              let (id, s) := nextGridId s part
              let s := addGrid s part id rc h false depth c.tid s.nextId
              let s := modTeam s c.tid (fun t => { t with children := t.children ++ [⟨id, none⟩] })
              let s := modGroup s c.tid c.gid (fun g => g.setS d.toNat (BitVec.ofNat 64 (id * 2 ^ 32)))
              let s := if rc.cls = 0 then preemptReserve s part else s
              .done (dispatchPart s part)
          | _ => .hold .issue s) s

/-- WAITCH; a grid that has ended already is taken as a yield point too (log entry 59). -/
def execWaitch (d g : BitVec 6) (s : State) : Host.Outcome State Fault Refusal :=
  issue (.waitch d g) (fun c s =>
    let id := (c.s g).toNat % 2 ^ 32
    let give (v : Nat) : Eff := .done (passYield (modGroup s c.tid c.gid (fun g => g.setS d.toNat (BitVec.ofNat 64 v))) c.tid c.gid)
    match c.t.children.find? (fun x => x.grid = id) with
    | none => give 1
    | some x =>
      match x.status with
      | none => .hold (.waitch id) s
      | some v =>
        match nmGet (gridKey c.t.part id) s.grids with
        | some gr => if gridSettled s gr then give v else .hold (.waitch id) s
        | none => give v) s

end Sys2Proof.Machine
end

