-- ==== Sys2Proof/Machine/Hints.lean ====
section
/-! DEFINITION. Class 7 in user mode (R183 to R188, R204 to R207): hints, NOP, YIELD, EXIT, TRAP, SLEEP and BRK, and the waits that
end as events. -/

namespace Sys2Proof.Machine

/-! ## Hint words (R183 to R188) -/

/-- How many hints a run holds. -/
def Hints.total (h : Hints) : Nat := h.himms.length + (if h.hsched.isSome then 1 else 0) + (if h.hmod.isSome then 1 else 0)

/-- Issue a hint: the limits of its run (R184) and its own reserved values, then `add`. The fault restarts at the first hint. -/
def issueHint (i : Instr) (fits : Hints → Bool) (add : Hints → Hints) (delay : Nat) (s : State) : Host.Outcome State Fault Refusal :=
  let tid := s.cur.1
  let gid := s.cur.2
  match teamOf s tid, groupOf s tid gid with
  | some t, some g =>
    if t.stopping || !t.resident || g.fault.isSome || g.registered.isSome then .next s
    else if unperformed s tid gid g.wait then .next s
    else
      let s := if g.wait = some (.performed true) then refreshReplicas s t.core 0 else s
      if !i.wf t.header.ever || 3 ≤ g.hints.total || !fits g.hints then .next (raiseFault s tid gid g 0x01 0 g.m0 0 0 g.restart)
      else
        let until_ := if delay = 0 then 0 else cycleAt s t.core + delay
        let s := modGroup s tid gid (fun x => { x with
          pc := (g.pc + 4) % 2 ^ 48, wait := keepArrival g.wait, notBefore := until_,
          hints := add { g.hints with first := some (g.hints.first.getD g.pc) } })
        .next (retire s t.core tid gid)
  | _, _ => .next s

/-- HIMM (R186): two must be adjacent words (R184). -/
def execHimm (value : BitVec 24) (s : State) : Host.Outcome State Fault Refusal :=
  issueHint (.himm value) (fun h => h.himms.isEmpty || (h.himms.length = 1 && h.lastHimm))
    (fun h => { h with himms := h.himms ++ [value], lastHimm := true }) 0 s
/-- HSCHED (R187): the group is no candidate for `delay` cycles; the other fields change nothing that a program can see. -/
def execHsched (delay : BitVec 4) (reuseB reuseA keep : BitVec 1) (s : State) : Host.Outcome State Fault Refusal :=
  issueHint (.hsched delay reuseB reuseA keep) (fun h => h.hsched.isNone)
    (fun h => { h with hsched := some (BitVec.ofNat 24 ((encode (.hsched delay reuseB reuseA keep)).getD 0).toNat), lastHimm := false }) delay.toNat s
/-- HMOD (R188). -/
def execHmod (xd : BitVec 6) (xe sos peek far w64 sp : BitVec 1) (ord : BitVec 2) (scope : BitVec 3) (sat rme : BitVec 1) (rnd tie : BitVec 2)
    (s : State) : Host.Outcome State Fault Refusal :=
  issueHint (.hmod xd xe sos peek far w64 sp ord scope sat rme rnd tie) (fun h => h.hmod.isNone)
    (fun h => { h with hmod := some (BitVec.ofNat 24 ((encode (.hmod xd xe sos peek far w64 sp ord scope sat rme rnd tie)).getD 0).toNat), lastHimm := false }) 0 s

/-! ## NOP, YIELD and SLEEP (R204, R205) -/

def execNop (s : State) : Host.Outcome State Fault Refusal := issue .nop (fun _ s => .done s) s
/-- The group stands at a yield point, at which a pending group may take its place; it goes on at once when none does (R204). -/
def yieldNow (c : Ctx) (s : State) : Eff :=
  .done (modGroup (passYield s c.tid c.gid) c.tid c.gid (fun g => { g with wait := some .yielded, since := cycleAt s c.core }))
def execYield (s : State) : Host.Outcome State Fault Refusal := issue .yield yieldNow s
/-- SLEEP is no candidate for n cycles from its issue, at which it counts as retired; with n = 0 it is YIELD (R205). -/
def execSleep (n : BitVec 20) (s : State) : Host.Outcome State Fault Refusal :=
  issue (.sleep n) (fun c s =>
    let k := if c.h.count ≠ 0 then c.h.imm.toNat % 2 ^ 32 else n.toNat
    if k = 0 then yieldNow c s
    else
      let u := cycleAt s c.core + k
      .done (modGroup (passYield s c.tid c.gid) c.tid c.gid (fun g => { g with notBefore := u, wait := some (.sleep u), since := cycleAt s c.core }))) s

/-! ## EXIT (R206) -/

/-- The source and the name under which an ended group's accesses go on, so that a group that takes its index has its own. -/
def retag (tid gid new : Nat) (m : Msg) : Msg :=
  let req (r : MemReq) : MemReq := if r.team = tid && r.group = gid && !r.foreign then
    { r with group := new, dest := .none, src := (match r.src with
      | .group _ _ _ => .group tid new 0
      | x => x) } else r
  match m with
  | .mem r => .mem (req r)
  | .bounced r => .bounced (req r)
  | .parked r mv => .parked (req r) mv
  | .sector r sec => .sector (req r) sec
  | .result r bs => .result (req r) bs
  | .commit r off w l => .commit (req r) off w l
  | .delivery d ref => if d.team = tid && d.group = gid && d.cmd.isNone then
      .delivery { d with group := new, from_ := .group tid new 0 } ref else m
  | .rload t g core addr size dest ln f => if t = tid && g = gid then .rload t new core addr size .none ln f else .rload t g core addr size dest ln f
  | .gone t g addr ln => if t = tid && g = gid then .gone t new addr ln else m
  | .peerAck t g name port va ln => if t = tid && g = gid then .peerAck t new name port va ln else m
  | x => x
/-- A close, an answer or a zero-length read of an ended group's releases. -/
def ofRelease (tid gid : Nat) (m : Msg) : Bool :=
  match m with
  | .close (.group t g _) _ _ _ => t = tid && g = gid
  | .answer (.group t g _) _ _ => t = tid && g = gid
  | .zread t g _ => t = tid && g = gid
  | _ => false

/-- The drains of an ended group to its registers end without a result, and set their status bits all the same (R206, R311). -/
def dropDrains (s : State) (core tid gid : Nat) : State :=
  let mine (d : DrainOp) : Bool := d.team = tid && d.group = gid && d.dst = 6
  let st := ((coreOf s core).drains.filter mine).map (·.st)
  modTeam (modCore s core (fun c => { c with drains := c.drains.filter (fun d => !mine d) })) tid (fun t => st.foldl Team.raiseMstat t)

/-- A group ends (R50, R206, R263, R398): its register results are discarded, its accesses go on, its index is free. A shared register that it has
filled and its partner has not read stays full, with its value (R46); R206's pending value is one that is still in flight (DESIGN CHOICE, log
entry 92). -/
def endGroup (c : Ctx) (s : State) : State :=
  let tid := c.tid
  let gid := c.gid
  let core := c.core
  let s := dropDrains s core tid gid
  let new := gid + 32 * s.nextId
  let s := { s with
    flight := (s.flight.filter (fun m => !ofRelease tid gid m.2)).map (fun m => (m.1, retag tid gid new m.2))
    counts := s.counts.filter (fun p => match p.2.1 with
      | .group t g _ => !(t = tid && g = gid)
      | _ => true)
    nextId := s.nextId + 1 }
  let s := modCore s core (fun x => x.dropPreds (fun p => p.team = tid && p.group = gid))
  let s := modTeam s tid (fun t =>
    let bars : NMap Barrier := t.bars.map (fun p => (p.1, { p.2 with joinNext := p.2.joinNext.filter (· ≠ gid) }))
    let t : Team := { t.leaveQueues gid with
      groups := nmDel gid t.groups, bars := bars, marks := t.marks.filter (·.group ≠ gid)
      cmds := t.cmds.map (fun k => if k.issuer = gid then { k with issuer := new } else k) }
    t.completeBarriers s.nextId)
  let s := leaveCore s core (fun p => p = (tid, gid))
  let s := startBins core (coreOf s core).launchedBins s
  checkEnd (checkDeadlock s tid) tid

def execExit (s : State) : Host.Outcome State Fault Refusal := issue .exit (fun c s => .done (endGroup c s)) s

/-! ## TRAP and BRK (R207) -/

/-- TRAP: fault 0x10 with its code, restarting at the word after it. -/
def execTrap (code : BitVec 16) (s : State) : Host.Outcome State Fault Refusal :=
  issue (.trap code) (fun c s =>
    .done (raiseFault s c.tid c.gid c.g 0x10 0 c.g.m0 0 code.toNat ((c.g.pc + 4) % 2 ^ 48))) s
/-- BRK: fault 0x11 with its code, restarting at itself or its first hint. -/
def execBrk (code : BitVec 16) (s : State) : Host.Outcome State Fault Refusal :=
  issue (.brk code) (fun c _ => .fault 0x11 0 c.g.m0 0 code.toNat) s

/-! ## Waits that end (R187, R205, R250, R270) -/

/-- SLEEP_EXPIRY: the count has run out; the group is a candidate again. -/
def execSleepExpiry (team group : Nat) (s : State) : Host.Outcome State Fault Refusal :=
  .next (match teamOf s team, groupOf s team group with
    | some t, some g =>
      (match g.wait with
      | some (.sleep u) => if u ≤ cycleAt s t.core then modGroup s team group (fun g => { g with wait := none, notBefore := 0 }) else s
      | _ => s)
    | _, _ => s)
/-- HSCHED_DELAY_EXPIRY. -/
def execHschedDelayExpiry (team group : Nat) (s : State) : Host.Outcome State Fault Refusal :=
  .next (match teamOf s team, groupOf s team group with
    | some t, some g => if g.wait.isNone && g.notBefore ≤ cycleAt s t.core then modGroup s team group (fun g => { g with notBefore := 0 }) else s
    | _, _ => s)
/-- WAITA_REREAD: the group's WAITA reads its word again (R250). -/
def execWaitaReread (team group : Nat) (s : State) : Host.Outcome State Fault Refusal :=
  match teamOf s team, groupOf s team group with
  | some t, some g =>
    (match g.wait, fetchInstr s t g with
    | some (.waita _), (.ok (.waita data uns wide base cond), s) => execWaita data uns wide base cond { s with cur := (team, group) }
    | _, _ => .next s)
  | _, _ => .next s
/-- XWAIT_MERGE: the group's XWAIT finds the counts met and the lines present, and merges (R270). -/
def execXwaitMerge (team group : Nat) (s : State) : Host.Outcome State Fault Refusal :=
  match teamOf s team, groupOf s team group with
  | some t, some g =>
    (match g.wait, fetchInstr s t g with
    | some .xwait, (.ok (.xwait m), s) => execXwait m { s with cur := (team, group) }
    | _, _ => .next s)
  | _, _ => .next s

end Sys2Proof.Machine
end

