-- ==== Sys2Proof/Machine/SwapOut.lean ====
section
/-! DEFINITION. Swap-out (R254, R275, R314, R328, R343, R393, R395, R396): messages run as their events, finishing what a team has
issued, writing its image, freeing its core, and delivering fault records (R347, R396, R400, R408). -/

namespace Sys2Proof.Machine

/-! ## Messages as events -/

/-- What the event of a message does to the state. -/
def runMsg (s : State) (id : Nat) (m : Msg) : State :=
  let o : Host.Outcome State Fault Refusal := match m with
    | .mem r => if isFrame r.place then execFrameAccess id s else execSideboardAccess id s
    | .bounced _ => execBounce id s
    | .parked _ mv => .next (runMove s mv)
    | .sector _ _ => execSectorArrival id s
    | .result _ _ => execLoadDataReturn id s
    | .lock _ _ _ => execReplicaLock id s
    | .lockAck _ _ _ => execReplicaAcknowledgement id s
    | .update _ _ _ => execReplicaUpdate id s
    | .updateAck _ _ _ => execReplicaAcknowledgement id s
    | .commit _ _ _ _ => .next s
    | .close _ _ _ _ => execCloseMessage id s
    | .answer _ _ _ => execCloseAnswer id s
    | .delivery _ ref => if ref then execDeliveryRetry id s else execDrawerDelivery id s
    | .rload _ _ _ _ _ _ _ _ => execRemoteLoad id s
    | .gone _ _ _ _ => execTargetGoneAnswer id s
    | .xclose _ _ _ _ _ => execExchangeClose id s
    | .recall _ _ _ _ => execRecall id s
    | .placeFar _ _ _ => execPlaceFarRequest id s
    | .peerAck _ _ _ _ _ _ => execPeerWriteAck id s
    | .zread _ _ _ => execZeroLengthReadCompletion id s
  match o with
  | .next s => s
  | _ => s

/-! ## Finishing what a team has issued (R393 steps 2 and 3) -/

def Source.team (x : Source) : Nat :=
  match x with
  | .group t _ _ => t
  | .cmd t _ _ => t
/-- A message that a swap-out of the team must see finished: its own, and what has reached its core (R393, R430). -/
def concerns (s : State) (t : Team) (id : Nat) (m : Msg) : Bool :=
  match m with
  | .close src _ _ _ => src.team = t.id
  | .answer src _ _ => src.team = t.id
  | .delivery d _ => d.team = t.id || (d.grid = t.grid && d.dst = t.core && !deliveryHeld s id d)
  | .rload u g core addr size _ _ f => u = t.id ||
      (core = t.core && (teamOf s u).any (fun x => x.grid = t.grid) && !heldBackBy s (remoteRead u g core addr size f) id)
  | .gone u _ _ _ => u = t.id
  | .xclose grid src dst _ _ => t.gang && grid = t.grid && (src = t.core || dst = t.core)
  | .peerAck u _ _ _ _ _ => u = t.id
  | .zread u _ _ => u = t.id
  | .lock cm _ _ => (nmGet cm s.flight).any (fun x => x.req.any (fun r => r.team = t.id))
  | .lockAck cm _ _ => (nmGet cm s.flight).any (fun x => x.req.any (fun r => r.team = t.id))
  | .update cm _ _ => (nmGet cm s.flight).any (fun x => x.req.any (fun r => r.team = t.id))
  | .updateAck cm _ _ => (nmGet cm s.flight).any (fun x => x.req.any (fun r => r.team = t.id))
  | x => x.req.any (fun r => r.team = t.id && !r.foreign)

/-- A command that a swap-out lets run to completion (R275), or whose lines a remote load waits for (R106, R430). A HALO, MCAST or COPY whose source
line only a command stopped by its own fault would bring stays among them, although it waits for good (DESIGN CHOICE, log entry 79). -/
def mustFinish (s : State) (t : Team) (c : Cmd) : Bool :=
  let k := copyCard c.card
  !c.stopped && (match c.kind with
  | .halo => true
  | .mcast => true
  | .coll => true
  | .dcmp => c.landed
  | .copy => c.landed ||
      (k.dstSpace = 1 && (match spadAt s t k.dst 1 false with
        | .remote _ _ _ => true
        | .bad code => code = 0x0D
        | _ => false)) ||
      s.flight.any (fun m => match m.2 with
        | .rload _ _ core addr size _ _ _ => core = t.core && !t.present (addr % 2 ^ 18) size
        | _ => false))

/-- One round: the team's messages, its matrix and predicate work, its commands. -/
def finishRound (tid : Nat) (s : State) : State :=
  let s := s.flight.foldl (fun s m => match teamOf s tid, nmGet m.1 s.flight with
    | some t, some x => if concerns s t m.1 x then runMsg s m.1 x else s
    | _, _ => s) s
  match teamOf s tid with
  | none => s
  | some t =>
    let s := flushArray s t.core
    let s := landDrains s t.core tid
    let s := ((coreOf s t.core).preds.filter (fun d => d.team = tid)).foldl (fun s d => runPred s t.core d) s
    t.cmds.foldl (fun s c => if mustFinish s t c then runCmd s tid c.tl c.num else s) s
def finishRounds (tid : Nat) : Nat → State → State
  | 0, s => s
  | k + 1, s => finishRounds tid k (finishRound tid s)
/-- Finish a team's work, nothing being held back. -/
def finishTeam (s : State) (tid : Nat) : State :=
  let h := s.holds
  let s := finishRounds tid 12 { s with holds := [] }
  { s with holds := h }

/-- A message that may stay: a delivery that a gang's drawer has refused (R395). -/
def mayStay (m : Msg) : Bool :=
  match m with
  | .delivery d ref => ref && d.gang
  | _ => false
/-- A HALO or MCAST whose data has left and of which a delivery is refused: it completes after the restore (R395). -/
def awaitsRefused (s : State) (t : Team) (c : Cmd) : Bool :=
  c.landed && s.flight.any (fun m => match m.2 with
    | .delivery d ref => ref && d.gang && d.team = t.id && d.cmd = some (c.tl, c.num)
    | _ => false)
/-- Everything that R393 waits for is done: the team's accesses and commands, every FENCE, ACQ and REL that it has issued, with the releases that
these have opened (R254), and its predicates (R328). A remote load, or a command to another core, whose line only a command stopped by its own fault
would bring waits on, and the swap-out with it (R106, R275, R430; DESIGN CHOICE, log entry 79). -/
def quiet (s : State) (t : Team) : Bool :=
  !s.flight.any (fun m => concerns s t m.1 m.2 && !mayStay m.2) &&
  t.groups.all (fun g => !g.2.wait.any Wait.ordering && g.2.releases.isEmpty) &&
  !(coreOf s t.core).preds.any (fun d => d.team = t.id) &&
  !t.cmds.any (fun c => mustFinish s t c && !awaitsRefused s t c)

/-! ## Fault records (R347, R396, R400, R408) -/

/-- The port die lets the device write `n` bytes of host memory: they fall in a valid entry of kind 1 (R411, R422). -/
def hostWritable (s : State) (p a n : Nat) : Bool :=
  (List.range 256).any (fun i =>
    let w := windowOf s p i
    w.kind = 1 && bitOf w.perm 1 && w.tbase ≤ a && a + n ≤ w.tbase + w.size)
/-- Write a record to the fault mailbox if it is enabled and has room (R408), behind the posted writes before it (R153): its sequence number. A record
that the port die refuses sets its event and is kept (R411). -/
def toMailbox (s : State) (p : Nat) (rec_ : List Byte) : Option Nat × State :=
  let x := partOf s p
  let a := x.mbxBase + 64 * (x.mbxTail % 2 ^ x.mbxSize)
  if x.mbxBase = 0 || 2 ^ x.mbxSize ≤ wrapInt ((x.mbxTail : Int) - x.mbxHead) 64 then (none, s)
  else if !hostWritable s p a 64 then (none, { s with mgmt := { s.mgmt with events := s.mgmt.events ||| 16 } })
  else
    let seq := x.mbxSeq + 1
    let s := modPart (flushHost s) p (fun y => { y with mbxTail := (y.mbxTail + 1) % 2 ^ 64, mbxSeq := seq })
    (some seq, { s with hostMem := writeBytes s.hostMem a (withSeq rec_ seq), msix := s.msix ++ [2 * p] })
/-- Deliver one record (R347, R396): a user team's to the fault queue while it is on, else to the mailbox; a record whose write
would fault goes to the mailbox (R400). -/
def tryDeliver (s : State) (p : Nat) (sup : Bool) (rec_ : List Byte) : Option Nat × State :=
  let x := partOf s p
  if sup || x.fqBase = 0 then toMailbox s p rec_
  else if 2 ^ x.fqSize ≤ wrapInt ((x.fqTail : Int) - x.fqHead) 64 then (none, s)
  else
    let a := x.fqBase + 64 * (x.fqTail % 2 ^ x.fqSize)
    let seq := x.fqSeq + 1
    match devWrite s p x.fqSpace ((partClusters s.layout p).headD 0) a (withSeq rec_ seq) with
    | .ok _ s => (some seq, modPart s p (fun y => { y with fqTail := (y.fqTail + 1) % 2 ^ 64, fqSeq := seq }))
    | .fault _ _ s => toMailbox s p rec_
    | _ => (none, s)
/-- A delivered record's number goes into the image that holds the record, too (R347): not into that of another team, nor of a newer fault, which now
lies there. -/
def patchSeq (s : State) (p : Nat) (rec_ : List Byte) (seq : Nat) : State :=
  let at_ := cardField rec_ 48 8
  match s.saved.find? (fun x => x.team.part = p && x.image = at_ && x.team.aspace = cardField rec_ 7 1 && withSeq x.team.frec 0 = withSeq rec_ 0) with
  | none => s
  | some x =>
    let s := { s with saved := s.saved.map (fun y => if y.team.id = x.team.id then { y with team := { y.team with frec := withSeq rec_ seq } } else y) }
    devPut s p x.team.aspace (clusterOfCore x.team.core) (at_ + 0xB0 + 56) (natBytes 8 seq)
/-- Deliver records in fault order; those without a destination or room are kept. -/
def deliverList (p : Nat) : List (Bool × List Byte) → State → List (Bool × List Byte) × State
  | [], s => ([], s)
  | (sup, r) :: l, s =>
    match tryDeliver s p sup r with
    | (some seq, s) => deliverList p l (patchSeq s p r seq)
    | (none, s) =>
      let (rest, s) := deliverList p l s
      ((sup, r) :: rest, s)
/-- Records held for want of a destination or of room go out, the oldest first (R396). -/
def flushRecords (s : State) (p : Nat) : State :=
  let (kept, s) := deliverList p (partOf s p).held s
  modPart s p (fun x => { x with held := kept })
/-- Deliver a new record, behind the held ones. -/
def deliverRecord (s : State) (p : Nat) (sup : Bool) (rec_ : List Byte) : State :=
  flushRecords (modPart s p (fun x => { x with held := x.held ++ [(sup, rec_)] })) p

/-! ## The swap-out (R393, R395, R396) -/

/-- The team as its image shows it: each group at its restart address, without hints (R185). A group whose fault is not the reported one
restarts so that it raises it again; a fault of the team that no instruction raises again is kept (R396). -/
def parked (reported : Option FaultInfo) (t : Team) : Team :=
  let pcOf (g : Group) : Nat := match g.fault with
    | some f => if reported = some f then g.pc else f.again.getD g.pc
    | none => g.restart
  { t with
    groups := t.groups.map (fun p => (p.1, { p.2 with pc := pcOf p.2, hints := .none }))
    owed := t.owed ++ (if t.pending = reported then [] else t.pending.toList.filter (fun f => f.again.isNone)) }
/-- The record's restart address for an engine fault: the issuing group's in the image, or 0 when it has ended (R347). -/
def FaultInfo.inImage (f : FaultInfo) (t : Team) : FaultInfo :=
  if f.engine then { f with restart := match (if f.live then nmGet f.group t.groups else none) with
    | some g => g.pc
    | none => 0 } else f

/-- The image address of a team (R378). -/
def imageAt (s : State) (t : Team) : Nat :=
  match nmGet t.grid s.grids with
  | some g => g.rec_.sva + t.slot * t.header.imageSize
  | none => 0

/-- Write the images of the teams, in order, each naming the next (R343, R395); each team comes with its device-state section. -/
def writeImages (gang : Bool) : List (Team × Memory) → State → Option State
  | [], s => some s
  | (t, dev) :: l, s =>
    let next := match l with
      | [] => 0
      | u :: _ => imageAt s u.1
    match writeImage t.part t.aspace (clusterOfCore t.core) (imageOf t gang next 1 dev) (imageAt s t) t.header.imagePages s with
    | some s => writeImages gang l s
    | none => none

/-- The cycles that a group still has to pass, in place of the cycle on its core's counter at which they have (R205). A SPLIT that is not over
is issued again after the restore (R350), and a read that no access waits for any more counts its bounces afresh (R369). -/
def Group.remaining (now : Nat) (g : Group) : Group :=
  let g := g.dropTries
  { g with
    notBefore := g.notBefore - now
    wait := (match g.wait with
      | some (.split _) => none
      | w => w.map (Wait.mapCycle (· - now))) }

/-- Take a team off its core into its saved image (R393 step 4). -/
def saveTeam (gang : Bool) (next : Nat) (ready spilled : Bool) (dev : Memory) (s : State) (t : Team) : State :=
  let c := coreOf s t.core
  let now := cycleAt s t.core
  let (at_, s) := newId s
  let msgs := s.flight.filter (fun m => match m.2 with
    | .delivery d ref => gang && ref && d.grid = t.grid && (d.team = t.id || (d.dst = t.core && (teamOf s d.team).isNone))
    | _ => false)
  let x : Saved := {
    image := imageAt s t, gangNext := next, dev := dev
    team := { t with
      resident := false, stopping := false, pending := none, saveWhy := 0, marks := [], groups := t.groups.map (fun g => (g.1, g.2.remaining now)) }
    record := t.frec, resumed := ready, readyAt := at_, spilled := spilled,
    bins := (c.bins.filter (fun b => b.2.team = t.id)).map (fun b => (b.1, { b.2 with start := now - b.2.start })),
    launchedBins := c.launchedBins.filter (fun b => b.2.team = t.id), msgs := msgs.map (·.2) }
  let s := msgs.foldl (fun s m => dropMsg s m.1) s
  clearCore { s with teams := nmDel t.id s.teams, saved := s.saved ++ [x] } t.core t.id
def saveTeams (gang suspended : Bool) : List (Team × Memory) → State → State
  | [], s => s
  | (t, dev) :: l, s =>
    let next := match l with
      | [] => 0
      | u :: _ => imageAt s u.1
    let spilled := !suspended && t.saveWhy = 2
    saveTeams gang suspended l (saveTeam gang next (!suspended && !spilled) spilled dev s t)

def insertIndex (x : Team) : List Team → List Team
  | [] => [x]
  | y :: l => if x.index < y.index then x :: y :: l else y :: insertIndex x l

/-- Each team with the device-state section of its image (R343; log entry 16). -/
def withSections : List Team → State → List (Team × Memory) × State
  | [], s => ([], s)
  | t :: l, s =>
    let (r, s') := withSections l { s with free := s.free + t.header.devSize }
    ((t, devState s.free t.header.devSize) :: r, s')
/-- Swap out the given teams, all quiet (R393 step 4, R395, R396): the images are written, with the record of the faulting team; the
cores are free; the record is delivered and the dispatcher decides anew. Nothing when a page of an image must wait. -/
def swapTeams (s : State) (l : List Team) (gang : Bool) : Option State :=
  let l : List Team := l.foldl (fun acc t => insertIndex t acc) []
  let bad : Option (Team × FaultInfo) := l.findSome? (fun (t : Team) => t.pending.map (fun f => (t, f)))
  let l : List Team := l.map (fun u => parked (match bad with
    | some (t, f) => if u.id = t.id then some f else none
    | none => none) u)
  let rec_ : List Byte := match bad with
    | some (t, f) => (match l.find? (fun u => u.id = t.id) with
      | some u => faultRecord u (f.inImage u) (imageAt s u) gang
      | none => [])
    | none => []
  let l : List Team := l.map (fun (u : Team) => match bad with
    | some (t, _) => if u.id = t.id then { u with frec := rec_ } else u
    | none => u)
  let (ls, s) := withSections l s
  match writeImages gang ls s with
  | none => none
  | some s =>
    let s := saveTeams gang bad.isSome ls s
    let s := l.foldl (fun s (t : Team) => startBins t.core (coreOf s t.core).launchedBins s) s
    let s := match bad with
      | some (t, _) => deliverRecord s t.part t.supervisor rec_
      | none => s
    match l with
    | [] => some s
    | t :: _ => some (dispatchPart s t.part)

/-- A spilled team's child may have ended before the team was saved (R391). -/
def childOver (t : Team) : Bool :=
  t.groups.any (fun g => match g.2.wait with
    | some (.waitch id) => t.children.any (fun c => c.grid = id && c.status.isSome)
    | _ => false)

/-- SWAP_OUT (R393): a stopped team, or its gang, finishes what it has issued and is saved; the event does nothing more while
something it waits for is left. -/
def execSwapOut (team : Nat) (s : State) : Host.Outcome State Fault Refusal :=
  .next (match teamOf s team with
    | none => s
    | some t =>
      if !t.stopping || !t.resident || (partOf s t.part).halted then s
      else
        let gang := t.gang
        let ids := if gang then (s.teams.filter (fun p => p.2.resident && p.2.grid = t.grid)).map (·.1) else [team]
        let s := ids.foldl (fun s i => stopTeam s i 4) s
        let s := ids.foldl finishTeam s
        let all := ids.filterMap (teamOf s)
        if all.all (quiet s) then
          let s1 := all.foldl (fun s (t : Team) => (t.cmds.filter (fun c => !c.landed)).foldl (fun s c =>
            resetCmd (spoilCmd s t.id c.tl c.num) t.id c) s) s
          let all := (ids.filterMap (teamOf s1)).map (fun t => if t.saveWhy = 2 && childOver t then { t with saveWhy := 1 } else t)
          (swapTeams s1 all gang).getD s
        else s)

end Sys2Proof.Machine
end

