-- ==== Sys2Proof/Machine/Privileged.lean ====
section
/-! DEFINITION. The privileged instructions (R335 to R352): CSRR, CSRW, TRESUME, TFLUSH, SPLIT and HALT. -/

namespace Sys2Proof.Machine

/-! ## CSRs (R339 to R342) -/

/-- The core whose copy of a per-core or per-cluster CSR an operand names, or a fault code (R342). -/
def csrTarget (s : State) (c : Ctx) (a : DWord) : Except Nat Nat :=
  let v := a.toNat
  if !a.getLsbD 15 then .ok c.core
  else if bitsOf v 14 10 ≠ 0 || v / 2 ^ 16 ≠ 0 || 191 < v % 256 then .error 0x05
  else if !inPartition s c.t.part (bitsOf v 9 8) then .error 0x0E
  else .ok (bitsOf v 9 8 * Config.coresPerCluster + v % 256)

/-- `part_cfg` (R339): partition number, cluster mask, layout code. -/
def partCfg (s : State) (p : Nat) : Nat :=
  p + 16 * ((partClusters s.layout p).foldl (fun m c => m + 2 ^ c) 0) + 256 * s.layout

/-- The value of a CSR (R339). -/
def csrRead (s : State) (part core : Nat) (csr : BitVec 12) : Nat :=
  let c := coreOf s core
  let p := partOf s part
  match csr.toNat with
  | 0x001 => Config.wakeLatency
  | 0x002 => 0x40C040202008
  | 0x010 => c.split.toNat
  | 0x011 => c.ingress
  | 0x012 => c.nearQuota
  | 0x013 => c.binTimeout
  | 0x014 => c.marrIdle
  | 0x015 => c.wdog
  | 0x100 => cycleAt s core
  | 0x101 => (clusterOf s (clusterOfCore core)).touchThresh
  | 0x200 => partCfg s part
  | 0x201 => p.class0Reserve
  | 0x202 => p.tslice
  | 0x203 => p.asBase
  | 0x204 => p.fqBase
  | 0x205 => p.fqSize
  | 0x206 => p.fqHead
  | _ => p.fqTail

/-- A value clamped to the nearest end of a range (R339). -/
def clampTo (lo hi v : Nat) : Nat := if v < lo then lo else if hi < v then hi else v

/-- Write a CSR (R339, R341): reserved bits dropped, the rest clamped. `as_base` and `fq_base` keep the writer's address space,
and `as_base` its cluster (R113, R338, R400); records that were held for the fault queue go out (R347, R396). -/
def csrWrite (s : State) (part core aspace : Nat) (csr : BitVec 12) (v : Nat) : State :=
  match csr.toNat with
  | 0x012 => modCore s core (fun c => { c with nearQuota := clampTo 0 192 v })
  | 0x013 => modCore s core (fun c => { c with binTimeout := clampTo 1 (2 ^ 20) v })
  | 0x014 => modCore s core (fun c => { c with marrIdle := v })
  | 0x015 => modCore s core (fun c => { c with wdog := clampTo (2 ^ 16) (2 ^ 48) v })
  | 0x101 => modCluster s (clusterOfCore core) (fun c => { c with touchThresh := clampTo 1 65535 v })
  | 0x201 => modPart s part (fun p => { p with class0Reserve := clampTo 0 192 (v % 256) })
  | 0x202 => modPart s part (fun p => { p with tslice := v })
  | 0x203 =>
    modPart (descriptor s part aspace).2 part (fun p => { p with asBase := v % 2 ^ 48 / 4096 * 4096, asSpace := some aspace, asCluster := clusterOfCore core })
  | 0x204 => flushRecords (modPart s part (fun p => { p with fqBase := v % 2 ^ 48 / 64 * 64, fqSpace := aspace })) part
  | 0x205 => flushRecords (modPart s part (fun p => { p with fqSize := clampTo 0 16 v })) part
  | 0x206 =>
    let p := partOf s part
    if wrapInt ((p.fqTail : Int) - v) 64 ≤ 2 ^ p.fqSize then flushRecords (modPart s part (fun p => { p with fqHead := v })) part else s
  | _ => s

def execCsrr (d a : BitVec 6) (csr : BitVec 12) (s : State) : Host.Outcome State Fault Refusal :=
  issue (.csrr d a csr) (fun c s =>
    match (if csr.toNat < 0x200 then csrTarget s c (c.s a) else .ok c.core) with
    | .error code => .bad code c.g.m0
    | .ok core => onGroup (fun _ g => g.setS d.toNat (BitVec.ofNat 64 (csrRead s c.t.part core csr))) c s) s
def execCsrw (b a : BitVec 6) (csr : BitVec 12) (s : State) : Host.Outcome State Fault Refusal :=
  issue (.csrw b a csr) (fun c s =>
    match (if csr.toNat < 0x200 then csrTarget s c (c.s a) else .ok c.core) with
    | .error code => .bad code c.g.m0
    | .ok core => .done (csrWrite s c.t.part core c.t.aspace csr (c.s b).toNat)) s

/-! ## TRESUME (R346, R348, R401) -/

/-- What TRESUME finds at an image address. -/
inductive Found where
  | images (l : List Saved) (s : State)
  | nothing
  | wait
  | fault (code addr : Nat) (s : State)

/-- Read the images through the supervisor's address space, which must be able to mark them there, and compare each with what the device wrote
(R346, R348): a suspended one is one that no TRESUME has resumed. -/
def checkImages (c : Ctx) (gang : Bool) : List Saved → State → Found
  | [], s => .images [] s
  | x :: l, s =>
    let t := x.team
    match devXlat true s c.t.part c.t.aspace (clusterOfCore c.core) x.image false .write (.write []) with
    | (.error 0, _) => .wait
    | (.error code, s) => .fault code x.image s
    | (.ok _, s) =>
      match readImage c.t.part c.t.aspace (clusterOfCore c.core) false x.image t.header.imagePages [] s with
      | .fault code addr s => .fault code addr s
      | .wait => .wait
      | .ok img s =>
        let same := maskEdits t img = maskEdits t (imageOf t gang x.gangNext 1 x.dev)
        let good (p : Nat × Group) : Bool :=
          let r := restartIn img p.1
          r < 2 ^ 48 && r % 4 = 0 && execPage s t.part t.aspace (!t.supervisor) r
        if !same || !t.groups.all good || (x.resumed && (partOf s t.part).resumeQ.contains t.id) then .nothing
        else
          match checkImages c gang l s with
          | .images rest s => .images (x :: rest) s
          | e => e

/-- The image at an address with the images its gang chains, when the address names a team's or a gang's first image: the header there, as
the supervisor reads it, says whose it is (R344, R348). -/
def findImages (c : Ctx) (s : State) (a : Nat) : Found :=
  match devXlat true s c.t.part c.t.aspace (clusterOfCore c.core) a false .write (.write []) with
  | (.error 0, _) => .wait
  | (.error code, s) => .fault code a s
  | (.ok _, s) =>
    match devRead s c.t.part c.t.aspace (clusterOfCore c.core) false a 16 with
    | .fault code x s => .fault code x s
    | .ok hd s =>
      (match s.saved.find? (fun x => x.team.part = c.t.part && x.image = a && x.team.aspace = cardField hd 6 1 &&
          x.team.grid % 2 ^ 32 = cardField hd 8 4 && x.team.index = cardField hd 0x0C 4) with
      | none => .nothing
      | some x =>
        let gang := x.team.gang
        let all := if gang then s.saved.filter (fun y => y.team.grid = x.team.grid) else [x]
        if all.any (fun y => y.team.index < x.team.index) then .nothing else checkImages c gang all s)
    | _ => .wait
/-- Mark images resumed or ended through the supervisor's address space (R348); nothing while one must wait. -/
def markImages (c : Ctx) (v : Byte) : List Saved → State → Option State
  | [], s => some s
  | x :: l, s =>
    match devWrite s c.t.part c.t.aspace (clusterOfCore c.core) (x.image + 4) [v] with
    | .ok _ s => markImages c v l s
    | .fault _ _ s => markImages c v l s
    | _ => none

/-- The group's accesses before the TRESUME are performed (R401). -/
def groupSettled (s : State) (c : Ctx) : Bool :=
  !s.flight.any (fun m => m.2.access.any (fun o => o.team = c.tid && o.group = c.gid))

def execTresume (d a : BitVec 6) (fin : BitVec 1) (s : State) : Host.Outcome State Fault Refusal :=
  issue (.tresume d a fin) (fun c s =>
    let addr := (c.s a).toNat
    let part := c.t.part
    let status (v : Nat) (s : State) : State := modGroup s c.tid c.gid (fun g => g.setS d.toNat (BitVec.ofNat 64 v))
    if addr % 4096 ≠ 0 then .fault 0x03 addr c.g.m0 0 0
    else if !groupSettled s c then .hold .issue s
    else
      match findImages c s addr with
      | .fault code x s => .refused s code x c.g.m0
      | .wait => .hold .issue s
      | .nothing => .done (status 1 s)
      | .images l s1 =>
        let q := (partOf s part).resumeQ
        if !isSet fin && Config.resumeDepth ≤ q.length then .done (status 2 s)
        else
          match markImages c (if isSet fin then 3 else 2) l s1 with
          | none => .hold .issue s
          | some s =>
            let s := status 0 s
            let ids := l.map (fun x => x.team.id)
            let s := if isSet fin then
                l.foldl (fun s x => teamOver s x.team.grid true) { s with saved := s.saved.filter (fun y => !ids.contains y.team.id) }
              else
                let at_ := s.nextId
                modPart { s with
                  nextId := at_ + 1
                  saved := s.saved.map (fun y => if ids.contains y.team.id && !y.resumed then { y with resumed := true, readyAt := at_ } else y) }
                  part (fun p => { p with resumeQ := p.resumeQ ++ ids })
            .done (dispatchPart s part)) s

/-! ## TFLUSH (R338, R349, R362) -/

/-- A stash entry that translates a page of a flush for an address space. -/
def flushes (space first count : Nat) (e : StashEntry) : Bool :=
  let lo := if e.big then e.vpage / 512 * 512 else e.vpage
  let hi := if e.big then lo + 511 else lo
  (e.aspace = space || e.leafOf.g) && (count = 0 || (first ≤ hi && lo < first + count))

/-- Release the table frames of a partition whose address spaces are all invalid, writing back their dirty sectors (R362). A release increments no
tenure: no translation names a table frame (R372). -/
def releaseTables (s : State) (part : Nat) : State :=
  (partClusters s.layout part).foldl (fun s c =>
    (clusterOf s c).slices.foldl (fun s sl => sl.2.foldl (fun s f =>
      let p := Place.far c sl.1 f.1
      let x := frameAt s p
      if x.tbl && x.users.all (fun a => !bitOf (descriptor s part a).1 0) then
        let s := (sectorsOf x.dirty).foldl (fun s k => (homeWrite s x.hclu x.hpage false (16 * k) (readBytes x.data (16 * k) 16)).getD s) s
        setFrame (setResidence s x.hclu x.hpage none) p { Frame.blank with ten := x.ten }
      else s) s) s) s

def execTflush (a b : BitVec 6) (all : BitVec 1) (s : State) : Host.Outcome State Fault Refusal :=
  issue (.tflush a b all) (fun c s =>
    let v := (c.s a).toNat
    let n := (c.s b).toNat
    let first := v % 2 ^ 48 / 4096
    if v / 2 ^ (if c.t.supervisor then 56 else 48) ≠ 0 then .fault 0x05 0 c.g.m0 0 0
    else
      let space := if c.t.supervisor then v / 2 ^ 48 else c.t.aspace
      let drop (x : Core) : Core := { x with stash := x.stash.filter (fun e => !flushes space first n e) }
      if isSet all then
        let s := reloadDescriptor s c.t.part space
        let s := { s with cores := s.cores.map (fun p => if inPartition s c.t.part (clusterOfCore p.1) then (p.1, drop p.2) else p) }
        .done (releaseTables s c.t.part)
      else .done (modCore s c.core drop)) s

/-! ## SPLIT (R350, R376) -/

/-- Evict a near frame whose unit goes: a move or a strict commit under way ends first, a replica is dropped, another page goes home. -/
def evictForSplit (s : State) (part core n : Nat) : State :=
  let p := Place.near core n
  let s := match moveAt s p with
    | some mv => runMove s mv
    | none => s
  let s := finishCommit s p
  let f := frameAt s p
  if f.state = .free || f.state = .quarantined then s
  else if unnamed s part p then freeUnnamed s p
  else evict s part p

/-- Another resident team's group, or another group of this team, is still inside a SPLIT of a core. -/
def splitsBeside (s : State) (c : Ctx) (core : Nat) : Bool :=
  s.teams.any (fun p => p.2.resident && p.2.groups.any (fun g => g.2.wait = some (.split core) && !(p.1 = c.tid && g.1 = c.gid)))
/-- SPLIT (R350). The core stays closed to dispatch while a frame is left to evict, and the group is held in the SPLIT that closed it. -/
def execSplit (d a : BitVec 6) (s : State) : Host.Outcome State Fault Refusal :=
  issue (.split d a) (fun c s =>
    let v := (c.s a).toNat
    let cl := bitsOf v 9 8
    let core := cl * Config.coresPerCluster + v % 256
    let regs := bitsOf v 19 16
    let desk := bitsOf v 23 20
    let near := bitsOf v 27 24
    let status (x : Nat) (s : State) : State := modGroup s c.tid c.gid (fun g => g.setS d.toNat (BitVec.ofNat 64 x))
    if bitsOf v 15 10 ≠ 0 || v / 2 ^ 28 ≠ 0 || regs = 0 || desk = 0 || 12 < near || regs + 2 * desk + near ≠ 16 || 191 < v % 256 ||
        !inPartition s c.t.part cl then .done (status 1 s)
    else if c.g.wait ≠ some (.split core) && (!(teamsOn s core).isEmpty || (coreOf s core).ingress ≠ 0) then .done (status 3 s)
    else
      let s1 := ((coreOf s core).nears.filter (fun p => 16 * near ≤ p.1)).foldl (fun s p => evictForSplit s c.t.part core p.1) s
      let left := (coreOf s1 core).nears.any (fun p => 16 * near ≤ p.1 && p.2.state ≠ .free && p.2.state ≠ .quarantined)
      if left then .hold (.split core) (modCore s1 core (fun x => { x with closed := true }))
      else
        let s := modCore s1 core (fun x => { x with closed := splitsBeside s1 c core, split := BitVec.ofNat 32 (near * 256 + desk * 16 + regs) })
        .done (dispatchPart (status 0 s) c.t.part)) s

/-! ## HALT (R351) -/

/-- The partition halts: no team issues, engine commands are abandoned, nothing is saved, the host is signalled. -/
def haltPart (s : State) (part code : Nat) : State :=
  let s := { s with
    teams := s.teams.map (fun p => if p.2.part = part then
      (p.1, { p.2 with groups := p.2.groups.map (fun g => (g.1, { g.2 with wait := none })), stopping := true, saveWhy := 0, pending := none, owed := [], cmds := [], absent := p.2.absent.filter (fun x => 8 ≤ x.2.1) }) else p)
    colls := s.colls.filter (fun x => x.grid / 2 ^ 32 ≠ part)
    msix := s.msix ++ [2 * part + 1] }
  modPart s part (fun p => { p with halted := true, haltCode := code })

def execHalt (code : BitVec 16) (s : State) : Host.Outcome State Fault Refusal :=
  issue (.halt code) (fun c s => .done (haltPart s c.t.part code.toNat)) s

/-- `pstat` (R407): halted, idle, records held for want of a destination, the HALT code. -/
def pstat (s : State) (p : Nat) : Nat :=
  let x := partOf s p
  let idle := !s.teams.any (fun t => t.2.part = p) && !s.saved.any (fun y => y.team.part = p)
  let want := x.held.any (fun r => x.mbxBase = 0 && (r.1 || x.fqBase = 0))
  (if x.halted then 1 else 0) + (if idle then 2 else 0) + (if want then 4 else 0) + 2 ^ 16 * x.haltCode

end Sys2Proof.Machine
end

