-- ==== Sys2Proof/Machine/HostLink.lean ====
section
/-! DEFINITION. What the host does (R380, R404 to R412): the submission port, CXL.mem, the registers and window tables of BAR0, and
the reset of a partition. -/

namespace Sys2Proof.Machine

/-- CXL.io and the management block work: once stage 0x05 has trained CXL, or in recovery (R418, R420). -/
def hostIo (s : State) : Bool := s.power && (6 ≤ s.mgmt.stage || s.mgmt.recovery)
/-- CXL.mem works too. -/
def hostMemUp (s : State) : Bool := s.power && 6 ≤ s.mgmt.stage && !s.mgmt.recovery

/-! ## The submission port (R379 to R381, R408) -/

/-- The completion word of a refused record (R379, R381). -/
def refuseRecord (s : State) (part id : Nat) (r : Record) (why : Nat) : State :=
  if r.done = 0 then s
  else devPut s part r.aspace ((partClusters s.layout part).headD 0) r.done (natBytes 8 ((id % 2 ^ 32) * 2 ^ 32 + why * 256 + 3))

/-- Accept a record (R379, R380, R408): it gets its grid id; a refused one only its completion word. Nothing when its header
cannot be read yet. -/
def acceptRecord (s : State) (part : Nat) (bytes : List Byte) : Option State :=
  let r := parseRecord bytes
  let (id, s) := nextGridId s part
  if (partOf s part).halted then some (refuseRecord s part id r 7)
  else
    let (d, s) := descriptor s part r.aspace
    if !bitOf d 0 then some (refuseRecord s part id r 3)
    else
      match devRead s part r.aspace ((partClusters s.layout part).headD 0) (!r.supervisor) r.kern 64 with
      | .fault _ _ s => some (refuseRecord s part id r 3)
      | .ok hb s =>
        let h := parseHeader hb
        let why := refusal s part r h
        if why ≠ 0 then some (refuseRecord s part id r why)
        else
          let s := addGrid s part id r h true 0 0 0
          let s := if r.cls = 0 then preemptReserve s part else s
          some (dispatchPart s part)
      | _ => none

/-- Completed records are accepted in the order of their completion; one whose header cannot be read yet waits (R380, R408). -/
def acceptAll (part : Nat) : List (List Byte) → State → State
  | [], s => modPart s part (fun p => { p with submitted := [] })
  | b :: l, s =>
    match acceptRecord s part b with
    | some s => acceptAll part l s
    | none => modPart s part (fun p => { p with submitted := b :: l })
def takeSubmitted (s : State) (part : Nat) : State :=
  let l := (partOf s part).submitted
  if l.isEmpty then s else acceptAll part l s
/-- What the dispatcher of a partition does by itself: it accepts records, and places and decides (R380, R383). -/
def servePart (s : State) (part : Nat) : State := dispatchPart (takeSubmitted s part) part

/-- SUBMISSION_PORT_WRITE (R408): bytes collect in the port; byte 0x3F completes a record. A write that would complete a record
while 1,024 are in use is withheld (R380). -/
def execSubmissionPortWrite (part off : Nat) (bytes : List Byte) (s : State) : Host.Outcome State Fault Refusal :=
  .next (if !hostIo s || 64 < off + bytes.length || bytes.isEmpty || (partClusters s.layout part).isEmpty then s
    else
      let last := off + bytes.length = 64
      if last && 1024 ≤ queued s part true + (partOf s part).submitted.length then s
      else
        let port := writeBytes (partOf s part).port off bytes
        let done := if last then [readBytes port 0 64] else []
        let s := modPart s part (fun p => { p with port := port, submitted := p.submitted ++ done })
        if last then takeSubmitted s part else s)

/-! ## CXL.mem (R365, R405, R406) -/

/-- One access of the host or a peer within a sector of a home page (R365, R405, R414): forwarded to a frame, else the DRAM bytes; the pages
of R357 read zero and discard writes. A move or a strict commit of the page that it must wait for runs to its end first. -/
def homeAccess (c h off n : Nat) (acc : Acc) : Nat → State → Option (List Byte × State)
  | 0, _ => none
  | k + 1, s =>
    if Config.pointerPages ≤ h then some (List.replicate n 0, s)
    else
      let r : MemReq := ⟨0, 0, Config.outsideAgent, partOfCluster s.layout c, 0, false, off, n, acc, .none, .group 0 0 0, .home c h, 0, 0, false,
        true, 0, 0, 0, 0, .none⟩
      match perform s r with
      | .done s bs => some (bs, s)
      | _ =>
        match moveAt s (.home c h) with
        | some mv => homeAccess c h off n acc k (runMove s mv)
        | none =>
          let at_ := performedAt s r
          if commitOn s at_ then homeAccess c h off n acc k (finishCommit s at_) else none

/-- 96 GiB, the span of a cluster in the HDM range (R405). -/
def hdmSpan : Nat := 96 * 2 ^ 30

/-- Read bytes of the HDM range, cut at sectors. -/
def hdmRead : List (Nat × Nat) → State → Option (List Byte × State)
  | [], s => some ([], s)
  | (o, n) :: l, s =>
    let r := o % hdmSpan
    (homeAccess (o / hdmSpan) (r / 4096) (r % 4096) n .read 5 s).bind (fun x =>
      (hdmRead l x.2).map (fun y => (x.1 ++ y.1, y.2)))
def hdmWrite : List (Nat × Nat) → List Byte → State → Option State
  | [], _, s => some s
  | (o, n) :: l, bs, s =>
    let r := o % hdmSpan
    (homeAccess (o / hdmSpan) (r / 4096) (r % 4096) n (.write (bs.take n)) 5 s).bind (fun x => hdmWrite l (bs.drop n) x.2)

/-- CXL_MEM_READ (R405): the bytes reach the host. -/
def execCxlMemRead (off n : Nat) (s : State) : Host.Outcome State Fault Refusal :=
  .next (if !hostMemUp s || 4 * hdmSpan < off + n then s
    else match hdmRead (cuts off n) s with
      | some (bs, s) => { s with hostRead := bs }
      | none => s)
/-- CXL_MEM_WRITE (R406): performed at its place before the completion. -/
def execCxlMemWrite (off : Nat) (bytes : List Byte) (s : State) : Host.Outcome State Fault Refusal :=
  .next (if !hostMemUp s || 4 * hdmSpan < off + bytes.length then s else (hdmWrite (cuts off bytes.length) bytes s).getD s)

/-! ## BAR0 (R407, R408) -/

/-- LAYOUT_WRITE (R337, R407): ignored, with bit 8 set, while a team of the device is resident or for the reserved code. -/
def execLayoutWrite (v : DWord) (s : State) : Host.Outcome State Fault Refusal :=
  let code := v.toNat % 4
  .next (if !hostIo s then s
    else if code = 3 || s.teams.any (fun p => p.2.resident) then { s with mgmt := { s.mgmt with layoutRefused := true } }
    else { s with mgmt := { s.mgmt with layout := code, layoutRefused := false } })
/-- EVENTS_CLEAR (R407): ones clear bits. -/
def execEventsClear (v : DWord) (s : State) : Host.Outcome State Fault Refusal :=
  .next (if hostIo s then { s with mgmt := { s.mgmt with events := s.mgmt.events &&& (63 - (v.toNat % 64)) } } else s)
/-- MBX_HEAD_WRITE (R407): taken only in range; entries that it frees are written. -/
def execMbxHeadWrite (part : Nat) (v : DWord) (s : State) : Host.Outcome State Fault Refusal :=
  let p := partOf s part
  .next (if hostIo s && part < 4 && wrapInt ((p.mbxTail : Int) - v.toNat) 64 ≤ 2 ^ p.mbxSize then
      flushRecords (modPart s part (fun p => { p with mbxHead := v.toNat })) part
    else s)
/-- MBX_BASE_WRITE (R396, R407): held records go out. -/
def execMbxBaseWrite (part : Nat) (v : DWord) (s : State) : Host.Outcome State Fault Refusal :=
  .next (if hostIo s && part < 4 then flushRecords (modPart s part (fun p => { p with mbxBase := v.toNat / 64 * 64 })) part else s)
/-- BAR0_REGISTER_WRITE (R407): `mbx_size`, `pin_base`, `pin_size` and the staging window; any other offset is ignored. -/
def execBar0RegisterWrite (off : Nat) (v : DWord) (s : State) : Host.Outcome State Fault Refusal :=
  let part := (off - 0x100000) / 0x10000
  let reg := (off - 0x100000) % 0x10000
  .next (if !hostIo s then s
    else if 0x800000 ≤ off && off + 8 ≤ 0x1000000 then
      { s with mgmt := { s.mgmt with staging := writeBytes s.mgmt.staging (off - 0x800000) (natBytes 8 v.toNat) } }
    else if off < 0x100000 || 4 ≤ part then s
    else if reg = 0x118 then flushRecords (modPart s part (fun p => { p with mbxSize := clampTo 0 16 v.toNat })) part
    else if reg = 0x200 then modPart s part (fun p => { p with pinBase := v.toNat / 4096 * 4096 })
    else if reg = 0x208 then modPart s part (fun p => { p with pinSize := v.toNat })
    else s)

/-! ## Window tables (R409, R411, R412) -/

/-- What a window table keeps of a byte (R407, R409): reserved bits and the bits below an alignment read zero, a port is clamped. -/
def windowByteOf (o : Nat) (b : Byte) : Byte :=
  if o < 0x18 then (if o % 8 = 0 then 0 else if o % 8 = 1 then b &&& 0xF0 else b)
  else if o = 0x18 then b
  else if o = 0x19 then BitVec.ofNat 8 (min 11 b.toNat)
  else if o = 0x1A then b &&& 7
  else 0
/-- Write one byte of a window table (R411, R412): an owned entry keeps its bases, size and kind; its owned bit reads 1 until the
release is done. True when the write has begun a release of the entry. -/
def putWindowByte (p : Partition) (a : Nat) (b : Byte) : Partition :=
  let o := a % 32
  let base := a / 32 * 32
  let perm := readByte p.windows (base + 0x1A)
  let owned := readByte p.windows (base + 0x18) = 1 && perm.getLsbD 2
  let v := windowByteOf o b
  if owned && o ≤ 0x18 then p
  else if owned && o = 0x1A && !v.getLsbD 2 then
    { p with windows := writeByte p.windows a (v ||| 4), releasing := if p.releasing.contains (a / 32) then p.releasing else p.releasing ++ [a / 32] }
  else { p with windows := writeByte p.windows a v }
def putWindowBytes : Nat → List Byte → Partition → Partition
  | _, [], p => p
  | a, b :: bs, p => putWindowBytes (a + 1) bs (putWindowByte p a b)

/-- The frames that hold host pages of a window (R412). -/
def framedIn (s : State) (part idx : Nat) : List Place :=
  ((partOf s part).framed.filter (fun p => isFrame p.2 && ownedPage s part idx ((frameAt s p.2).vpage * 4096) = some p.1)).map (·.2)
/-- A framed page goes home once a move of it has ended (R366, R412); a frame that its leaf no longer names is freed (R367). -/
def bringHome (s : State) (part : Nat) (p : Place) : State :=
  let s := match moveAt s p with
    | some mv => runMove s mv
    | none => s
  let f := frameAt s p
  if f.state ≠ .resident then s
  else if unnamed s part p then freeUnnamed s p
  else moveHome s part f.aspace f.vpage true
/-- The virtual page of a frame, or of a move, that holds a host page. -/
def framedPage (s : State) (part : Nat) (p : Nat × Place) : Nat :=
  if isFrame p.2 then (frameAt s p.2).vpage else ((moveOf s (Config.clusters + part) p.1).map (·.vpage)).getD 0
/-- A page of a window is still in a frame, or on its way home (R412). -/
def stillFramed (s : State) (part idx : Nat) : Bool :=
  (partOf s part).framed.any (fun p => ownedPage s part idx (framedPage s part p * 4096) = some p.1)
/-- A release of a window goes on (R412): its framed pages move home, and once the last write-back has been performed the owned bit reads 0. -/
def endRelease (s : State) (part idx : Nat) : State :=
  if !(partOf s part).releasing.contains idx then s
  else
    let s := (framedIn s part idx).foldl (fun s p => bringHome s part p) s
    if stillFramed s part idx then s
    else modPart s part (fun p => { p with
      releasing := p.releasing.filter (· ≠ idx)
      windows := writeByte p.windows (32 * idx + 0x1A) (readByte p.windows (32 * idx + 0x1A) &&& 3) })

/-- WINDOW_TABLE_WRITE (R411): for every request that reaches the port die from now on. -/
def execWindowTableWrite (part off : Nat) (bytes : List Byte) (s : State) : Host.Outcome State Fault Refusal :=
  .next (if !hostIo s || 4 ≤ part || 8192 < off + bytes.length then s
    else
      let s := modPart s part (putWindowBytes off bytes)
      (partOf s part).releasing.foldl (fun s i =>
        let (h, s) := popHold s
        if h then s else endRelease s part i) s)
/-- OWNED_RELEASE_DONE (R412). -/
def execOwnedReleaseDone (part idx : Nat) (s : State) : Host.Outcome State Fault Refusal := .next (endRelease s part idx)

/-! ## The reset of a partition (R408) -/

/-- A frame's dirty sectors are written back, to the host behind older posted writes (R153), and it is freed (R408 step 3). Its tenure goes on by
one, a table frame's too (R370), although R372 does not list a reset among the increments (DESIGN CHOICE, log entry 95). -/
def writeBack (s : State) (p : Place) : State :=
  let f := frameAt s p
  if f.state = .free || f.state = .quarantined then s
  else if f.replicaOf.isSome then freeFrame s p
  else
    let s := if hostHome f.hclu then flushHost s else s
    let s := (sectorsOf f.dirty).foldl (fun s k => (homeWrite s f.hclu f.hpage f.pk (16 * k) (readBytes f.data (16 * k) 16)).getD s) s
    freeFrame (setResidence s f.hclu f.hpage none) p

/-- PRESET (R408): writing 1 resets the partition. A peer goes on to acknowledge what it has performed, for the releases of other partitions that
cover it (R133, R152), and the sweeps that frames in quarantine wait for go on counting (R372). -/
def resetPart (s : State) (part : Nat) : State :=
  let gone := (s.teams.filter (fun p => p.2.part = part)).map (·.1) ++ (s.saved.filter (fun x => x.team.part = part)).map (fun x => x.team.id)
  let of (m : Msg) : Bool := match m with
    | .delivery d _ => gone.contains d.team
    | .rload t _ _ _ _ _ _ _ => gone.contains t
    | .gone t _ _ _ => gone.contains t
    | .peerAck _ _ _ _ _ _ => false
    | .zread t _ _ => gone.contains t
    | .close src _ _ _ => gone.contains src.team
    | .answer src _ _ => gone.contains src.team
    | .xclose g _ _ _ _ => g / 2 ^ 32 = part
    | .placeFar p _ _ => p = part
    | .recall core _ _ _ => inPartition s part (clusterOfCore core)
    | .lock _ core _ => inPartition s part (clusterOfCore core)
    | .lockAck _ core _ => inPartition s part (clusterOfCore core)
    | .update _ core _ => inPartition s part (clusterOfCore core)
    | .updateAck _ core _ => inPartition s part (clusterOfCore core)
    | x => x.req.any (fun r => r.part = part)
  -- steps 1 and 2
  let s := { s with
    teams := s.teams.filter (fun p => p.2.part ≠ part), saved := s.saved.filter (fun x => x.team.part ≠ part),
    grids := s.grids.filter (fun g => g.2.part ≠ part), colls := s.colls.filter (fun x => x.grid / 2 ^ 32 ≠ part),
    flight := s.flight.filter (fun m => !of m.2), counts := s.counts.filter (fun p => !gone.contains p.2.1.team) }
  -- step 3
  let s := (s.moves.filter (fun m => m.2.part = part)).foldl (fun s m => runMove s m.1) s
  let s := (partClusters s.layout part).foldl (fun s c =>
    (clusterOf s c).slices.foldl (fun s sl => sl.2.foldl (fun s f => writeBack s (.far c sl.1 f.1)) s) s) s
  let mine := s.cores.filter (fun p => inPartition s part (clusterOfCore p.1))
  let s := mine.foldl (fun s p => p.2.nears.foldl (fun s f => writeBack s (.near p.1 f.1)) s) s
  -- step 4
  let s := { s with
    cores := s.cores.map (fun p => if inPartition s part (clusterOfCore p.1) then (p.1, { Core.blank with nears := p.2.nears }) else p)
    clusters := s.clusters.map (fun p => if inPartition s part p.1 then
      (p.1, { Cluster.blank with sweeps := p.2.sweeps, slices := p.2.slices, residence := p.2.residence, overflow := p.2.overflow, safeClock := p.2.safeClock }) else p) }
  modPart s part (fun p => { Partition.blank with
    mbxBase := p.mbxBase, mbxSize := p.mbxSize, mbxHead := p.mbxHead, mbxTail := p.mbxTail, mbxSeq := p.mbxSeq, pinBase := p.pinBase,
    pinSize := p.pinSize, windows := p.windows, releasing := p.releasing })
def execPreset (part : Nat) (v : DWord) (s : State) : Host.Outcome State Fault Refusal :=
  .next (if hostIo s && part < 4 && v = 1 then resetPart s part else s)

end Sys2Proof.Machine
end

