-- ==== Sys2Proof/Machine/Crypto.lean ====
section
/-! DEFINITION. The algorithms that R419 names for firmware images: SHA-256, MGF1 with SHA-256, RSASSA-PSS (exponent 65,537, salt of
32 bytes). The spec names them and does not print them: they are FIPS 180-4's and RFC 8017's (log entry 18). -/

namespace Sys2Proof.Machine

/-! ## SHA-256

Its constants are not tabulated: each is the first 32 bits of the fraction of a root of a small prime. -/

/-- Bit by bit from bit k - 1 down, the largest x with x ^ n ≤ v that agrees with `x` above. -/
def rootFrom (n v : Nat) : Nat → Nat → Nat
  | 0, x => x
  | k + 1, x => rootFrom n v k (if (x + 2 ^ k) ^ n ≤ v then x + 2 ^ k else x)
/-- The first 32 bits of the fraction of the n-th root of p, for a root below 16. -/
def rootFraction (n p : Nat) : Word := BitVec.ofNat 32 (rootFrom n (p * 2 ^ (32 * n)) 36 0)
/-- The first n primes. -/
def primes (n : Nat) : List Nat :=
  ((List.range 320).filter (fun p => 2 ≤ p && (List.range p).all (fun d => d < 2 || p % d ≠ 0))).take n

def beNat (bs : List Byte) : Nat := bs.foldl (fun n b => 256 * n + b.toNat) 0
/-- The `n` low bytes of a value, highest first. -/
def beBytes (n v : Nat) : List Byte := (natBytes n v).reverse

/-- The exclusive or of a word turned right by each of some amounts. -/
def turns (x : Word) (by_ : List Nat) : Word := by_.foldl (fun acc n => acc ^^^ x.rotateRight n) 0

/-- The message schedule, newest word first, longer by `n` words. -/
def schedule (n : Nat) (first : List Word) : List Word :=
  (List.range n).foldl (fun w _ =>
    let at_ (back : Nat) : Word := w.getD (back - 1) 0
    ((turns (at_ 2) [17, 19] ^^^ (at_ 2 >>> 10)) + at_ 7 + (turns (at_ 15) [7, 18] ^^^ (at_ 15 >>> 3)) + at_ 16) :: w) first

/-- One round: the list holds the eight working words, `kw` is the round constant plus the schedule's word. -/
def hashRound (v : List Word) (kw : Word) : List Word :=
  let at_ (i : Nat) : Word := v.getD i 0
  let choice := at_ 6 ^^^ (at_ 4 &&& (at_ 5 ^^^ at_ 6))
  let major := (at_ 0 &&& (at_ 1 ||| at_ 2)) ||| (at_ 1 &&& at_ 2)
  let t := at_ 7 + kw + turns (at_ 4) [6, 11, 25] + choice
  match v.take 7 with
  | [a, b, c, d, e, f, g] => [major + turns a [2, 13, 22] + t, a, b, c, d + t, e, f, g]
  | _ => v

/-- A chaining value after a block of 64 bytes. -/
def hashBlock (consts v : List Word) (block : List Byte) : List Word :=
  let words := (List.range 16).map (fun i => BitVec.ofNat 32 (beNat ((block.drop (4 * i)).take 4)))
  let sums := List.zipWith (· + ·) consts (schedule 48 words.reverse).reverse
  List.zipWith (· + ·) v (sums.foldl hashRound v)

def hashBlocks (consts : List Word) : Nat → List Byte → List Word → List Word
  | 0, _, v => v
  | n + 1, bs, v => hashBlocks consts n (bs.drop 64) (hashBlock consts v (bs.take 64))

def sha256 (bs : List Byte) : List Byte :=
  let padded := bs ++ 0x80 :: List.replicate ((119 - bs.length % 64) % 64) 0 ++ beBytes 8 (8 * bs.length)
  let start := (primes 8).map (rootFraction 2)
  (hashBlocks ((primes 64).map (rootFraction 3)) (padded.length / 64) padded start).flatMap (fun w => beBytes 4 w.toNat)

/-! ## RSASSA-PSS -/

/-- Square `k` times modulo `n`. -/
def squares (n : Nat) : Nat → Nat → Nat
  | 0, x => x
  | k + 1, x => squares n k (x * x % n)
/-- x^65,537 modulo n. -/
def rsaPublic (n x : Nat) : Nat := squares n 16 x * x % n

/-- MGF1 with SHA-256. -/
def mgf1 (seed : List Byte) (len : Nat) : List Byte :=
  ((List.range ((len + 31) / 32)).flatMap (fun i => sha256 (seed ++ beBytes 4 i))).take len

/-- The signature is valid for the message under the modulus. -/
def pssValid (modulus sig msg : List Byte) : Bool :=
  let n := beNat modulus
  let s := beNat sig
  let emBits := Nat.log2 n
  let emLen := (emBits + 7) / 8
  if n = 0 || n ≤ s || emLen < 66 then false
  else
    let m := rsaPublic n s
    if 2 ^ emBits ≤ m then false
    else
      let em := beBytes emLen m
      let dbLen := emLen - 33
      let masked := em.take dbLen
      let h := (em.drop dbLen).take 32
      let db := beBytes dbLen (beNat (List.zipWith (· ^^^ ·) masked (mgf1 h dbLen)) % 2 ^ (emBits - 264))
      let salt := db.drop (dbLen - 32)
      em.drop (emLen - 1) = [0xBC] && db.take (dbLen - 32) = List.replicate (dbLen - 33) 0 ++ [1] &&
        sha256 (List.replicate 8 0 ++ sha256 msg ++ salt) = h

end Sys2Proof.Machine
end

