-- ==== Sys2Proof/Machine/Peer.lean ====
section
/-! DEFINITION. The Gemar ports (R413 to R416): inbound peer requests, retries, links that go down and come up, lost lanes. -/

namespace Sys2Proof.Machine

def gemarOf (s : State) (port : Nat) : Gemar := nmGetD s.gemar port ⟨false, 0, 0, 0⟩
def modGemar (s : State) (port : Nat) (f : Gemar → Gemar) : State := { s with gemar := nmModify port f s.gemar }
/-- `events` bit 5 (R407, R415). -/
def linkChanged (s : State) : State := { s with mgmt := { s.mgmt with events := s.mgmt.events ||| 32 } }

/-- What a peer request does at its place, and how many bytes it touches (R414). -/
def peerAcc (op : PeerOp) : Acc × Nat :=
  match op with
  | .read n => (.read, n)
  | .write bs => (.write bs, bs.length)
  | .plst m b => (.plst m b, 8)
  | .atom o w x y => (.atom o w x y, if w then 8 else 4)

/-- The request lies in the inbound range of the partition that owns its cluster, and the port's bit is set (R416). -/
def inbound (s : State) (port addr n : Nat) : Bool :=
  let p := partOf s (partOfCluster s.layout (poolCluster addr))
  addr < 2 ^ 39 && poolColumn addr < 192 && p.pinBase ≤ addr && addr + n ≤ p.pinBase + p.pinSize / 4096 * 4096 && p.pinSize.testBit port

/-- Bytes of pool addresses, cut at sectors: reads, or writes of the given bytes. -/
def peerRun (acc : Acc) : List (Nat × Nat) → List Byte → State → Option (List Byte × State)
  | [], _, s => some ([], s)
  | (a, n) :: l, bs, s =>
    let here : Acc := match acc with
      | .write _ => .write (bs.take n)
      | x => x
    (homeAccess (poolCluster a) (poolHome a) (a % 4096) n here 5 s).bind (fun x =>
      (peerRun acc l (bs.drop n) x.2).map (fun y => (x.1 ++ y.1, y.2)))

/-- PEER_REQUEST (R414, R416): performed as a host's access and answered, or refused with an error. -/
def execPeerRequest (port addr : Nat) (op : PeerOp) (s : State) : Host.Outcome State Fault Refusal :=
  let (acc, n) := peerAcc op
  let bytes := match op with
    | .write bs => bs
    | _ => []
  .next (if !(gemarOf s port).up then s
    else if !inbound s port addr n then { s with peerAnswer := none }
    else match peerRun acc (cuts addr n) bytes s with
      | some (bs, s) => { s with peerAnswer := some bs }
      | none => s)

/-- FLIT_CRC_RETRY (R413): the flit is sent again; only timing changes. -/
def execFlitCrcRetry (port : Nat) (s : State) : Host.Outcome State Fault Refusal :=
  .next (modGemar s port (fun g => { g with retries := g.retries + 1 }))

/-- The port that a request goes through (R409, R410). -/
def portOf (r : MemReq) : Option Nat :=
  match r.place with
  | .peer port _ => some port
  | _ => none

/-- The groups, beside one, whose releases wait for the acknowledgement of a peer write (R152). -/
def releasersOf (s : State) (tid gid name : Nat) : List (Nat × Nat) :=
  s.teams.flatMap (fun t => (t.2.groups.filter (fun g => (t.1, g.1) ≠ (tid, gid) && g.2.releases.any (·.peers.contains name))).map (fun g => (t.1, g.1)))
/-- Target gone reaches a group at its next boundary (R415). -/
def goneFault (s : State) (tid gid va : Nat) (lanes : Mask) : State :=
  match groupOf s tid gid with
  | some g => takeFault s tid gid ⟨0x0D, g.index, g.restart, va, lanes, 0, 0, false, 0, none, s.nextId, true⟩
  | none => modTeam s tid (fun t => t.meet ⟨0x0D, gid % 32, 0, va, lanes, 0, 0, false, 0, none, s.nextId, false⟩)
/-- A write that its peer will not acknowledge raises target gone with the window address at its source, and in every group whose release
waits for it (R415); when a group has ended, in its team. No release waits for it any more. -/
def peerGone (s : State) (tid gid name va : Nat) (lanes : Mask) : State :=
  let others := releasersOf s tid gid name
  others.foldl (fun s p => goneFault s p.1 p.2 va 0) (goneFault (ackPeer s tid gid name) tid gid va lanes)

/-- LINK_DOWN (R415): accesses through the port that are not yet acknowledged or answered raise 0x0D at their source. -/
def execLinkDown (port : Nat) (s : State) : Host.Outcome State Fault Refusal :=
  .next (if !(gemarOf s port).up then s
    else s.flight.foldl (fun s m => match m.2 with
      | .peerAck t g name p va lanes => if p = port then peerGone (dropMsg s m.1) t g name va lanes else s
      | .result _ _ => s
      | x => (match x.req with
        | some r => if portOf r = some port && !r.foreign then
            let others := if r.acc.writes then releasersOf s r.team r.group m.1 else []
            let s := fillAfter (lateFault (dropMsg s m.1) m.1 r 0x0D) r
            others.foldl (fun s p => goneFault s p.1 p.2 r.va 0) s
          else s
        | none => s)) (linkChanged (modGemar s port (fun g => { g with up := false }))))
/-- LINK_UP (R413, R415): the port has trained again; the ends exchanged serial numbers. -/
def execLinkUp (port : Nat) (serial : DWord) (s : State) : Host.Outcome State Fault Refusal :=
  let s' := modGemar s port (fun g => { g with up := true, lanes := 8, serial := serial })
  .next (if (gemarOf s port).up then s' else linkChanged s')
/-- GEMAR_LANE_LOSS (R413): the port retrains to 4 lanes at half bandwidth. -/
def execGemarLaneLoss (port : Nat) (s : State) : Host.Outcome State Fault Refusal :=
  .next (modGemar s port (fun g => { g with lanes := 4 }))

end Sys2Proof.Machine
end

