-- ==== Sys2Proof/Machine/Management.lean ====
section
/-! DEFINITION. The management block (R407, R418 to R428): bring-up, firmware images, attestation, the limits in hardware, the
column sensors, the lifetime record, and the vertical bus test. -/

namespace Sys2Proof.Machine

def modMgmt (s : State) (f : Mgmt → Mgmt) : State := { s with mgmt := f s.mgmt }
/-- Set bits of `events` (R407). -/
def setEvents (s : State) (bits : Nat) : State := modMgmt s (fun m => { m with events := m.events ||| bits })

/-! ## The lifetime record (R425, R426) -/

/-- A count of the lifetime record. -/
def lrGet (m : Mgmt) (code elem field : Nat) : Nat :=
  (m.lifetime.findSome? (fun x => if x.1 = code ∧ x.2.1 = elem ∧ x.2.2.1 = field then some x.2.2.2 else none)).getD 0
/-- Power-on hours: six flushes of 600 s to the hour. -/
def powerHours (m : Mgmt) : Nat := min (2 ^ 32 - 1) (lrGet m 8 0 4 / 6)
/-- The repairs of a bus. -/
def busRepairs (m : Mgmt) (bus : Nat) : List (Nat × Nat) := (nmGetD m.buses bus []).flatMap (fun g => g.2.repaired)
/-- What `lr_data` returns (R426): fields of codes 5, 6 and 8 are numbered in the table's order; the field 2 i of code 7 is the lane of
repair i, 2 i + 1 its hour (log entry 19). Residencies are counted in samples of a microsecond. -/
def lrData (s : State) : Nat :=
  let m := s.mgmt
  let v := m.lrCmd.toNat
  let code := v % 256
  let elem := v / 256 % 2 ^ 20
  let field := v / 2 ^ 28 % 256
  if code = 1 ∨ code = 2 then lrGet m code elem field / 1000000
  else if code = 7 then
    match (busRepairs m elem)[field / 2]? with
    | some r => if field % 2 = 0 then r.1 else r.2
    | none => 0
  else if code = 8 then (if elem ≠ 0 then 0 else if field = 3 then powerHours m else if field < 3 then lrGet m 8 0 field else 0)
  else if code = 9 then (if field = 0 then (match nmGet elem s.gemar with
    | some g => g.serial.toNat
    | none => 0) else 0)
  else if 3 ≤ code && code ≤ 6 then lrGet m code elem field
  else 0
/-- LR_CMD (R426). -/
def execLrCmd (v : DWord) (s : State) : Host.Outcome State Fault Refusal :=
  .next (if hostIo s then modMgmt s (fun m => { m with lrCmd := v }) else s)
/-- The counts go to the store. -/
def flushLifetime (s : State) : State := modMgmt s (fun m => { m with flushed := m.lifetime })
/-- LIFETIME_FLUSH (R426): 600 s more of power-on time have passed. -/
def execLifetimeFlush (s : State) : Host.Outcome State Fault Refusal := .next (flushLifetime (lrBump s 8 0 4 (6 * 2 ^ 32)))

/-! ## Power (R422, R426) -/

/-- Every regulator enable is removed. -/
def powerOff (s : State) : State := { s with power := false }
/-- ORDERLY_SHUTDOWN (R426). -/
def execOrderlyShutdown (s : State) : Host.Outcome State Fault Refusal := .next (powerOff (flushLifetime s))
/-- POWER_LOSS (R426). -/
def execPowerLoss (s : State) : Host.Outcome State Fault Refusal := .next (powerOff s)
/-- THERMAL_TRIP (R422): logged, and in `events` after the next boot. -/
def execThermalTrip (stack : Nat) (s : State) : Host.Outcome State Fault Refusal :=
  .next (if stack < 4 then
    powerOff (flushLifetime (modMgmt (lrBump s 8 0 1 (2 ^ 32 - 1)) (fun m => { m with tripped := true })))
  else s)
/-- OVERCURRENT (R422): the regulator enable goes; the device is without power (log entry 20). -/
def execOvercurrent (_rail : Nat) (s : State) : Host.Outcome State Fault Refusal := .next (powerOff s)

/-! ## Firmware images (R419, R420) -/

/-- The fields of an image's header. -/
def fwField (img : List Byte) (off n : Nat) : Nat := leNat ((img.drop off).take n)
/-- The length of the whole image. -/
def fwSize (img : List Byte) : Nat := 1024 + fwField img 12 4
def allZero (bs : List Byte) : Bool := bs.all (· = 0)
/-- The result of a check (R407, R419): 0 accepted, 1 bad signature (or header), 2 version below the minimum. -/
def fwCheck (minSvn : Nat) (img : List Byte) : Nat :=
  let kind := fwField img 4 1
  let keyix := fwField img 5 1
  let modulus := (img.drop 0x10).take 384
  let sig := (img.drop 0x190).take 384
  let signed := img.take 0x190 ++ (img.drop 0x310).take 240 ++ (img.drop 0x400).take (fwField img 12 4)
  if img.length < fwSize img || fwField img 0 4 ≠ 0x4D495746 || kind < 1 || 3 < kind || 3 < keyix then 1
  else if !allZero ((img.drop 6).take 2) || !allZero ((img.drop 0x310).take 240) then 1
  else if sha256 modulus ≠ Config.keyHash keyix || Config.revoked keyix then 1
  else if fwField img 8 4 < minSvn then 2
  else if pssValid modulus sig signed then 0 else 1
/-- The measurement of an image: the hash of its header and payload (R419). -/
def fwMeasure (img : List Byte) : List Byte := sha256 (img.take (fwSize img))

/-- The copy of a kind in a slot. -/
def fwSlot (m : Mgmt) (kind slot : Nat) : List Byte :=
  (m.slots.findSome? (fun x => if x.1 = kind ∧ x.2.1 = slot then some x.2.2 else none)).getD []
/-- The copy that runs: the one stored last, which is to run at the next power-on (R420), if it passes; else slot A, then slot B (R418). -/
def fwPick (m : Mgmt) (kind : Nat) : Option (Nat × List Byte) :=
  (((nmGet kind m.latest).toList ++ [0, 1]).find? (fun sl =>
    let img := fwSlot m kind sl
    fwCheck m.minSvn img = 0 && fwField img 4 1 = kind)).map (fun sl => (sl, fwSlot m kind sl))

/-- FW_STORE_STAGED_IMAGE (R420): into the slot that is not running, or slot A in recovery. It stays busy while held. -/
def execFwStoreStagedImage (s : State) : Host.Outcome State Fault Refusal :=
  .next (if !hostIo s || s.mgmt.fwBusy then s
    else
      let head := readBytes s.mgmt.staging 0 1024
      let size := fwSize head
      let img := if size ≤ 0x800000 then readBytes s.mgmt.staging 0 size else head
      let res := fwCheck s.mgmt.minSvn img
      let kind := fwField img 4 1
      let running := (s.mgmt.runningSlots.findSome? (fun x => if x.1 = kind then some x.2 else none)).getD 1
      let slot := if s.mgmt.recovery then 0 else 1 - running
      let (h, s) := popHold s
      modMgmt s (fun m => { m with
        fwCmd := 1, fwBusy := h, fwPending := res, fwResult := if h then m.fwResult else res
        slots := if res = 0 then (kind, slot, img) :: m.slots.filter (fun x => ¬(x.1 = kind ∧ x.2.1 = slot)) else m.slots
        latest := if res = 0 then nmPut kind slot m.latest else m.latest }))
/-- FW_RAISE_MINIMUM_SVN (R420): nothing lowers it. -/
def execFwRaiseMinimumSvn (s : State) : Host.Outcome State Fault Refusal :=
  .next (if !hostIo s || s.mgmt.fwBusy then s
    else
      let (h, s) := popHold s
      modMgmt s (fun m => { m with
        fwCmd := 2, fwBusy := h, fwPending := 0, fwResult := if h then m.fwResult else 0, minSvn := max m.minSvn m.runningSvn }))
/-- FW_COMMAND_DONE (R420). -/
def execFwCommandDone (s : State) : Host.Outcome State Fault Refusal :=
  .next (if s.mgmt.fwBusy then modMgmt s (fun m => { m with fwBusy := false, fwResult := m.fwPending }) else s)

/-! ## Bring-up (R418) -/

/-- What survives the power: the non-volatile store with the peers' serial numbers, the fuses, the firmware slots, worn lanes, the host's and
the peers' memory. -/
def freshen (s : State) : State :=
  { State.reset with
    hostMem := s.hostMem, peerMem := s.peerMem, peerIn := s.peerIn, agenda := s.agenda, holds := s.holds, free := s.free, nextId := s.nextId
    gemar := State.reset.gemar.map (fun p => (p.1, { p.2 with serial := (gemarOf s p.1).serial }))
    mgmt := { Mgmt.blank with
      slots := s.mgmt.slots, latest := s.mgmt.latest, minSvn := s.mgmt.minSvn, lifetime := s.mgmt.flushed, flushed := s.mgmt.flushed, tripped := s.mgmt.tripped
      buses := s.mgmt.buses.map (fun b => (b.1, b.2.map (fun g => (g.1, { g.2 with lastBad := [], failing := [] })))) } }
/-- The controller enters recovery (R418, R420). -/
def enterRecovery (s : State) (code : Nat) : State := modMgmt s (fun m => { m with recovery := true, failCode := code })
/-- A boot stage begins (R418). -/
def beginStage (s : State) (stage : Nat) : State := modMgmt s (fun m => { m with stage := stage })
/-- A boot stage fails for good: nothing follows, and there is no link (R418). -/
def stopBoot (s : State) : State := modMgmt s (fun m => { m with stuck := true })
/-- An image runs: its slot and its measurement. -/
def runImage (s : State) (kind : Nat) (p : Nat × List Byte) : State :=
  modMgmt s (fun m => { m with
    runningSlots := m.runningSlots ++ [(kind, p.1)], measurements := m.measurements ++ [(kind, fwMeasure p.2)]
    runningSvn := if m.runningSlots.isEmpty then fwField p.2 8 4 else min m.runningSvn (fwField p.2 8 4) })
/-- Verify and run the image of a kind (R418, R419). -/
def verifyImage (s : State) (kind : Nat) : Option State := (fwPick s.mgmt kind).map (runImage s kind)
/-- The boot begins: a count of the lifetime record, and the event of a trip before it (R422, R425). -/
def startBoot (s : State) : State :=
  beginStage (modMgmt (lrBump s 8 0 2 (2 ^ 32 - 1)) (fun m => { m with
    events := if m.tripped then m.events ||| 2 else m.events, tripped := false, runningSlots := [], measurements := [], runningSvn := 0 })) 1
/-- Stage 0x06: each Gemar port trains, and the ends exchange serial numbers; one that fails stays down and sets the event of its link
(R413, R418; log entry 48). -/
def trainPorts (s : State) : State :=
  (List.range 12).foldl (fun s n =>
    let s' : State := { s with free := s.free + 1 }
    if Config.trains (8 + n) s.free then modGemar s' n (fun g => { g with up := true, lanes := 8, serial := Config.peerSerial n s.free })
    else linkChanged s') s
/-- The action of the present boot stage, and the beginning of the next (R418); whether a part trains is free (log entry 48). -/
def bootStep (s : State) : State :=
  let s' : State := { s with free := s.free + 4 }
  match s.mgmt.stage with
  | 0 => startBoot s
  | 1 => if Config.trains 0 s.free then beginStage s' 2 else stopBoot s'
  | 2 => (match verifyImage s 1 with
    | some s => beginStage s 3
    | none => enterRecovery s 1)
  | 3 => (match [0, 1, 2, 3].find? (fun k => !Config.trains (1 + k) (s.free + k)) with
    | some k => enterRecovery s' (0x10 + k)
    | none => beginStage s' 4)
  | 4 => (match verifyImage s 2 with
    | none => enterRecovery s 2
    | some s => (match verifyImage s 3 with
      | none => enterRecovery s 3
      | some s => beginStage s 5))
  | 5 => if Config.trains 5 s.free then beginStage s' 6 else stopBoot s'
  | 6 => modMgmt (beginStage (trainPorts s) 7) (fun m => { m with ready := true })
  | _ => s
/-- The boot goes on by itself: power is there, the last stage has not begun, and none has failed (R418). -/
def booting (s : State) : Bool := s.power && s.mgmt.stage < 7 && !s.mgmt.recovery && !s.mgmt.stuck
/-- POWER_ON (R418): power returns and the boot begins, or goes on by one stage; nothing on a device that has booted. -/
def execPowerOn (s : State) : Host.Outcome State Fault Refusal :=
  .next (if !s.power then bootStep (freshen s) else if booting s then bootStep s else s)

/-! ## Attestation (R421) -/

def answer (s : State) (a : Spdm) : State := if hostIo s then modMgmt s (fun m => { m with spdm := a }) else s
/-- GET_VERSION: SPDM 1.2. -/
def execGetVersion (s : State) : Host.Outcome State Fault Refusal := .next (answer s (.version 1 2))
/-- GET_CAPABILITIES. -/
def execGetCapabilities (s : State) : Host.Outcome State Fault Refusal := .next (answer s .capabilities)
/-- NEGOTIATE_ALGORITHMS: one set. -/
def execNegotiateAlgorithms (s : State) : Host.Outcome State Fault Refusal := .next (answer s (.algorithms true true))
/-- GET_DIGESTS: of certificate slot 0. -/
def execGetDigests (s : State) : Host.Outcome State Fault Refusal := .next (answer s (.digests (sha256 Config.certificate)))
/-- GET_CERTIFICATE: only slot 0 holds one. -/
def execGetCertificate (slot off len : Nat) (s : State) : Host.Outcome State Fault Refusal :=
  .next (answer s (if slot = 0 then .certificate ((Config.certificate.drop off).take len) else .error))
/-- A measurement block (R421). -/
def measurement (s : State) (i : Nat) : Option (List Byte) :=
  if i = 4 then some ((List.range 4).flatMap Config.keyHash ++
    (List.range 4).map (fun k => if Config.revoked k then 1 else 0) ++ natBytes 4 s.mgmt.minSvn)
  else if i = 5 then some (natBytes 8 s.mgmt.layout ++ (List.range 4).flatMap (fun p => readBytes (partOf s p).windows 0 8192))
  else s.mgmt.measurements.findSome? (fun x => if x.1 = i then some x.2 else none)
/-- The blocks of some indices that exist. -/
def measurements (s : State) (idx : List Nat) : List (Nat × List Byte) := idx.filterMap (fun i => (measurement s i).map (fun b => (i, b)))
/-- CHALLENGE: signed with the identity key, over the nonce and the hash of the measurements (log entry 18). -/
def execChallenge (slot : Nat) (nonce : List Byte) (s : State) : Host.Outcome State Fault Refusal :=
  .next (answer s (if slot = 0 then
    .challengeAuth (Config.deviceSign (nonce ++ sha256 ((measurements s [1, 2, 3, 4, 5]).flatMap (·.2)))) else .error))
/-- GET_MEASUREMENTS: one block, or all of them for index 255, signed with the nonce (log entry 18). -/
def execGetMeasurements (index : Nat) (nonce : List Byte) (s : State) : Host.Outcome State Fault Refusal :=
  let idx := if index = 255 then [1, 2, 3, 4, 5] else [index]
  let blocks := measurements s idx
  .next (answer s (if blocks.isEmpty then .error else .measurements blocks (Config.deviceSign (nonce ++ blocks.flatMap (·.2)))))

/-! ## Column sensors (R423, R424) -/

/-- The neighbours of a column (R423). -/
def columnNeighbours (col : Nat) : List Nat :=
  (if col % 16 = 0 then [] else [col - 1]) ++ (if col % 16 = 15 then [] else [col + 1]) ++
  (if col < 16 then [] else [col - 16]) ++ (if col < 176 then [col + 16] else [])
/-- The readings of the neighbours with a working sensor. -/
def neighbourReadings (s : State) (cluster col : Nat) : List Int :=
  (columnNeighbours col).filterMap (fun n => match nmGet (192 * cluster + n) s.mgmt.sensors with
    | some x => if x.f0 && x.f1 then none else some x.reading
    | none => none)
def outOfRange (v : Int) : Bool := v < -40 || 150 < v
/-- |Q - N| is at most 15, for the mean N of the readings. -/
def nearMean (q : Int) (ns : List Int) : Bool :=
  !ns.isEmpty && (q * ns.length - ns.foldl (· + ·) 0).natAbs ≤ 15 * ns.length
/-- The sensor `v` with partner `q` differs too far from it (R423). -/
def deviates (v q : Int) (qWorks : Bool) (ns : List Int) : Bool := qWorks && 15 < (v - q).natAbs && nearMean q ns
/-- One sample of a column's sensors: the failure rules, then the reading (R423, R424). -/
def sampleColumn (old : Option Sensor) (ns : List Int) (v0 v1 : Int) (moved : Bool) : Sensor :=
  let o := old.getD Sensor.blank
  let n0 := if old.isSome && o.s0 = v0 then o.n0 + 1 else 1
  let n1 := if old.isSome && o.s1 = v1 then o.n1 + 1 else 1
  let a0 := o.f0 || outOfRange v0 || (moved && 2 ^ 20 ≤ n0)
  let a1 := o.f1 || outOfRange v1 || (moved && 2 ^ 20 ≤ n1)
  let f0 := a0 || deviates v0 v1 (!a1) ns
  let f1 := a1 || deviates v1 v0 (!a0) ns
  let reading : Int :=
    if f0 && f1 then 150
    else if f0 then ns.foldl max v1 + 5
    else if f1 then ns.foldl max v0 + 5
    else max v0 v1
  ⟨v0, v1, f0, f1, n0, n1, reading⟩
/-- The residency bin of a reading (R425). -/
def residencyBin (r : Int) : Nat := if r < 0 then 0 else min 15 (r.toNat / 10 + 1)
/-- SENSOR_SAMPLE (R423 to R425): the spec gives no input for the voltage, whose bin is free (log entry 19). -/
def execSensorSample (cluster col : Nat) (s0 s1 : Int) (moved : Bool) (s : State) : Host.Outcome State Fault Refusal :=
  .next (if 4 ≤ cluster || 192 ≤ col then s
    else
      let key := 192 * cluster + col
      let old := nmGet key s.mgmt.sensors
      let x := sampleColumn old (neighbourReadings s cluster col) s0 s1 moved
      let was := old.getD Sensor.blank
      let fails := (if x.f0 && !was.f0 then 1 else 0) + (if x.f1 && !was.f1 then 1 else 0)
      let s := modMgmt s (fun m => { m with sensors := nmPut key x m.sensors })
      let s := (List.range fails).foldl (fun s _ => lrBump (setEvents s 1) 8 0 0 (2 ^ 32 - 1)) s
      let s := lrBump s 1 key (residencyBin x.reading) ((2 ^ 32 - 1) * 1000000)
      let s := lrBump { s with free := s.free + 1 } 2 key (Config.voltageBin s.free).val ((2 ^ 32 - 1) * 1000000)
      if x.f0 && x.f1 then
        { s with clusters := nmModify cluster (fun c => { c with safeClock := if c.safeClock.contains col then c.safeClock else c.safeClock ++ [col] }) s.clusters }
      else s)

/-! ## The vertical bus test (R427, R428) -/

/-- What one test makes of a lane group: traffic of failed lanes moves to spares, then lanes with errors in two consecutive tests
fail. A lane that fails without a free spare stays in use. Also the repairs made, and whether there is such a lane. -/
def testGroup (hour : Nat) (bad : List Nat) (g : LaneGroup) : LaneGroup × Nat × Bool :=
  let repaired := g.repaired ++ g.failing.map (fun l => (l, hour))
  let seen := (bad.filter (fun l => !repaired.any (fun r => r.1 = l) && !g.worn.contains l)).eraseDups
  let failed := seen.filter (fun l => g.lastBad.contains l)
  let room := 4 - repaired.length
  (⟨seen, failed.take room, repaired, g.worn ++ failed.drop room⟩, g.failing.length, room < failed.length)
/-- BUS_TEST (R427, R428): only beneath a core without a resident team. -/
def execBusTest (core : Nat) (bad : List Nat) (s : State) : Host.Outcome State Fault Refusal :=
  .next (if s.teams.any (fun t => t.2.resident && t.2.core = core) then s
    else
      let bus : NMap LaneGroup := nmGetD s.mgmt.buses core []
      let keys := (bus.map (fun (p : Nat × LaneGroup) => p.1) ++ bad.map (· / 128)).eraseDups
      keys.foldl (fun s k =>
        let (g, n, full) := testGroup (powerHours s.mgmt) (bad.filter (fun l => l / 128 = k)) (nmGetD (nmGetD s.mgmt.buses core []) k ⟨[], [], [], []⟩)
        let s := modMgmt s (fun m => { m with buses := nmPut core (nmPut k g (nmGetD m.buses core [])) m.buses })
        setEvents s ((if n = 0 then 0 else 4) + (if full then 8 else 0))) s)

/-! ## What the host reads of BAR0 (R407, R408) -/

def bit (b : Bool) (n : Nat) : Nat := if b then 2 ^ n else 0
/-- A read of a cluster's counter: its value at a moment of the read that nothing ties to that of another read (R429; log entry 69). -/
def ccount (s : State) (n : Nat) : Nat := ((clusterOf s n).cycle + Config.readMoment (4 * s.free + n)) % 2 ^ 64
/-- The registers of the management block. -/
def mgmtRead (s : State) (reg : Nat) : Nat :=
  let m := s.mgmt
  match reg with
  | 0x00 => Config.serial.toNat
  | 0x08 => m.stage + bit m.ready 8 + bit m.recovery 9 + m.failCode * 2 ^ 16
  | 0x10 => m.layout + bit m.layoutRefused 8
  | 0x18 => m.events
  | 0x20 => ccount s 0
  | 0x28 => ccount s 1
  | 0x30 => ccount s 2
  | 0x38 => ccount s 3
  | 0x48 => lrData s
  | 0x58 => bit m.fwBusy 0 + m.fwResult * 2 ^ 8
  | _ => 0
/-- The registers of a partition's block; the submission port reads zero. -/
def blockRead (s : State) (p reg : Nat) : Nat :=
  let x := partOf s p
  match reg with
  | 0x100 => pstat s p
  | 0x110 => x.mbxBase
  | 0x118 => x.mbxSize
  | 0x120 => x.mbxHead
  | 0x128 => x.mbxTail
  | 0x200 => x.pinBase
  | 0x208 => x.pinSize
  | _ => if 0x4000 ≤ reg && reg < 0x6000 then readLE x.windows (reg - 0x4000) 8 else 0
/-- The 8 bytes that a host read of an aligned offset of BAR0 returns, and the state after it, in which the next read of a counter has a moment of
its own; an offset that names nothing reads zero. -/
def bar0Read (s : State) (off : Nat) : Nat × State :=
  if !hostIo s then (0, s)
  else if 0x800000 ≤ off && off < 0x1000000 then (readLE s.mgmt.staging (off - 0x800000) 8, s)
  else if 0x100000 ≤ off && off < 0x140000 then (blockRead s ((off - 0x100000) / 0x10000) (off % 0x10000), s)
  else (mgmtRead s off, { s with free := s.free + 1 })

end Sys2Proof.Machine
end

