-- ==== Sys2Proof/Machine/Ordering.lean ====
section
/-! DEFINITION. Fences, synchronisation objects and timelines (R133 to R135, R251 to R256). -/

namespace Sys2Proof.Machine

def execFence (scope : BitVec 3) (kind : BitVec 2) (s : State) : Host.Outcome State Fault Refusal :=
  issue (.fence scope kind) (fun c s => fence c (kind.getLsbD 0) (kind.getLsbD 1) scope.toNat s) s

/-- ACQ reads the object at its place, refreshes the loose replicas of the binding it names, and writes sD (R133, R252, R253). -/
def execAcq (a d : BitVec 6) (scope : BitVec 3) (s : State) : Host.Outcome State Fault Refusal :=
  issue (.acq a d scope) (fun c s =>
    let addr := (c.s a).toNat
    match checkMem c [⟨0, addr, 8, 8, .read, .none⟩] s with
    | .fault code addr s' => .refused s' code addr c.g.m0
    | .wait => .hold (.acquire false) s
    | .ok [] s => .done s
    | .ok ((acc, x) :: _) s =>
      let r := c.plainRequest acc x
      if placeBusy s c addr || !entryFree s r then .hold .issue s
      else
        match readAtOnce c [r] s with
        | .done s bs =>
          let w := leNat bs
          let s := if w % 256 = 0 then s else refreshReplicas s c.core (w % 256)
          .done (modGroup s c.tid c.gid (fun g => g.setS d.toNat (BitVec.ofNat 64 w)))
        | .held s => .hold (.acquire false) s
        | .bad code _ s' => .refused s' code addr c.g.m0) s

/-- REL closes the phase, waits until its release has completed, and then performs the release write (R133, R141, R252,
R253), also to a host window (log entry 57). -/
def execRel (a : BitVec 6) (scope : BitVec 3) (s : State) : Host.Outcome State Fault Refusal :=
  issue (.rel a scope) (fun c s =>
    let addr := (c.s a).toNat
    match checkMem c [⟨0, addr, 8, 8, .relBump, .none⟩] s with
    | .fault code addr s' => .refused s' code addr c.g.m0
    | .wait => .hold (match c.g.wait with
        | some (.release id) => .release id
        | _ => .issue) s
    | .ok [] s => .done s
    | .ok ((acc, x) :: _) s =>
      if !canSend s c [(acc, x)] true then .hold (match c.g.wait with
        | some (.release id) => .release id
        | _ => .issue) s
      else
      let finish (s : State) : Eff :=
        let c := match groupOf s c.tid c.gid with
          | some g => { c with g := { c.g with phase := g.phase } }
          | none => c
        let s := sendAll c c.g.m0 [(acc, x)] true [] s
        .done (if readsOut s c.tid c.gid false && !takenBack s c.tid c.gid s.nextId then modGroup s c.tid c.gid (fun g => { g with wait := some (.performed false) }) else s)
      match c.g.wait with
      | some (.release id) =>
        if id ≠ 0 then (if (c.g.release id).isSome then .hold (.release id) s else finish s)
        else
          (match openRelease s c.tid c.gid (scope = 4) with
          | none => .hold (.release 0) s
          | some (id, s) => if (groupOf s c.tid c.gid).any (fun g => (g.release id).isSome) then .hold (.release id) s else finish s)
      | _ =>
        match openRelease s c.tid c.gid (scope = 4) with
        | none => .hold (.release 0) s
        | some (id, s) => if (groupOf s c.tid c.gid).any (fun g => (g.release id).isSome) then .hold (.release id) s else finish s) s

/-- TLWAIT: the count is h or a scalar; a count of 0 completes at once (R255). A count that is reached already is taken as a yield point
too (log entry 59). -/
def execTlwait (a : BitVec 6) (tl : BitVec 3) (s : State) : Host.Outcome State Fault Refusal :=
  issue (.tlwait a tl) (fun c s =>
    let n := if c.h.count ≠ 0 then c.h.imm.toNat else (c.s a).toNat
    if n = 0 then .done s
    else if n ≤ (c.t.tl tl.toNat).value then .done (passYield s c.tid c.gid)
    else .hold (.timeline tl.toNat n) s) s
/-- TLGET (R256). -/
def execTlget (d : BitVec 6) (tl : BitVec 3) (s : State) : Host.Outcome State Fault Refusal :=
  issue (.tlget d tl) (toScalar d (fun c => BitVec.ofNat 64 (c.t.tl tl.toNat).handed)) s

end Sys2Proof.Machine
end

