-- ==== Sys2Proof/Machine/Dispatch.lean ====
section
/-! DEFINITION. The dispatch of an instruction to its meaning: one arm per constructor of Instr. -/

namespace Sys2Proof.Machine

def exec (i : Instr) (s : State) : Host.Outcome State Fault Refusal :=
  match i with
  | .sadd d a b u w => Sys2Proof.Machine.execSadd d a b u w s
  | .ssub d a b u w => Sys2Proof.Machine.execSsub d a b u w s
  | .smul d a b u w => Sys2Proof.Machine.execSmul d a b u w s
  | .smulh d a b u w => Sys2Proof.Machine.execSmulh d a b u w s
  | .sdiv d a b u w => Sys2Proof.Machine.execSdiv d a b u w s
  | .srem d a b u w => Sys2Proof.Machine.execSrem d a b u w s
  | .sand d a b u w => Sys2Proof.Machine.execSand d a b u w s
  | .sor d a b u w => Sys2Proof.Machine.execSor d a b u w s
  | .sxor d a b u w => Sys2Proof.Machine.execSxor d a b u w s
  | .sshl d a b u w => Sys2Proof.Machine.execSshl d a b u w s
  | .sshr d a b u w => Sys2Proof.Machine.execSshr d a b u w s
  | .smin d a b u w => Sys2Proof.Machine.execSmin d a b u w s
  | .smax d a b u w => Sys2Proof.Machine.execSmax d a b u w s
  | .scmp d a b cond u w => Sys2Proof.Machine.execScmp d a b cond u w s
  | .ssel d a b c => Sys2Proof.Machine.execSsel d a b c s
  | .sbit d a op w => Sys2Proof.Machine.execSbit d a op w s
  | .sget d i1 => Sys2Proof.Machine.execSget d i1 s
  | .sset a i1 => Sys2Proof.Machine.execSset a i1 s
  | .mget d mask => Sys2Proof.Machine.execMget d mask s
  | .mput a mask => Sys2Proof.Machine.execMput a mask s
  | .sext d a u size => Sys2Proof.Machine.execSext d a u size s
  | .saddi d a imm => Sys2Proof.Machine.execSaddi d a imm s
  | .sandi d a imm => Sys2Proof.Machine.execSandi d a imm s
  | .sori d a imm => Sys2Proof.Machine.execSori d a imm s
  | .sxori d a imm => Sys2Proof.Machine.execSxori d a imm s
  | .sshli d a c => Sys2Proof.Machine.execSshli d a c s
  | .sshri d a arith c => Sys2Proof.Machine.execSshri d a arith c s
  | .slti d a imm => Sys2Proof.Machine.execSlti d a imm s
  | .sltni d a imm => Sys2Proof.Machine.execSltni d a imm s
  | .sli d imm => Sys2Proof.Machine.execSli d imm s
  | .bra off => Sys2Proof.Machine.execBra off s
  | .call off => Sys2Proof.Machine.execCall off s
  | .bz a off => Sys2Proof.Machine.execBz a off s
  | .bnz a off => Sys2Proof.Machine.execBnz a off s
  | .jr a kind => Sys2Proof.Machine.execJr a kind s
  | .rept a len => Sys2Proof.Machine.execRept a len s
  | .bany mask off => Sys2Proof.Machine.execBany mask off s
  | .bnone mask off => Sys2Proof.Machine.execBnone mask off s
  | .ifv mask neg off => Sys2Proof.Machine.execIfv mask neg off s
  | .elsev off => Sys2Proof.Machine.execElsev off s
  | .endv => Sys2Proof.Machine.execEndv s
  | .setfmt d a sel => Sys2Proof.Machine.execSetfmt d a sel s
  | .vadd guard nw d a b mod => Sys2Proof.Machine.execVadd guard nw d a b mod s
  | .vsub guard nw d a b mod => Sys2Proof.Machine.execVsub guard nw d a b mod s
  | .vmul guard nw d a b => Sys2Proof.Machine.execVmul guard nw d a b s
  | .vmulh guard nw d a b mod => Sys2Proof.Machine.execVmulh guard nw d a b mod s
  | .vmad guard d a b => Sys2Proof.Machine.execVmad guard d a b s
  | .vand guard nw d a b => Sys2Proof.Machine.execVand guard nw d a b s
  | .vor guard nw d a b => Sys2Proof.Machine.execVor guard nw d a b s
  | .vxor guard nw d a b => Sys2Proof.Machine.execVxor guard nw d a b s
  | .vshl guard nw d a b => Sys2Proof.Machine.execVshl guard nw d a b s
  | .vshr guard nw d a b mod => Sys2Proof.Machine.execVshr guard nw d a b mod s
  | .vmin guard nw d a b mod => Sys2Proof.Machine.execVmin guard nw d a b mod s
  | .vmax guard nw d a b mod => Sys2Proof.Machine.execVmax guard nw d a b mod s
  | .vabsd guard nw d a b mod => Sys2Proof.Machine.execVabsd guard nw d a b mod s
  | .vsel guard d a b mod => Sys2Proof.Machine.execVsel guard d a b mod s
  | .vcmp guard cond mask a b mod => Sys2Proof.Machine.execVcmp guard cond mask a b mod s
  | .vbit guard nw d a mod => Sys2Proof.Machine.execVbit guard nw d a mod s
  | .vlane guard nw d mod => Sys2Proof.Machine.execVlane guard nw d mod s
  | .vmov guard nw d a b mod => Sys2Proof.Machine.execVmov guard nw d a b mod s
  | .vshuf guard nw d a b mod => Sys2Proof.Machine.execVshuf guard nw d a b mod s
  | .vrot guard nw d a b mod => Sys2Proof.Machine.execVrot guard nw d a b mod s
  | .vslide guard nw d a b mod => Sys2Proof.Machine.execVslide guard nw d a b mod s
  | .vscan guard nw d a b mod => Sys2Proof.Machine.execVscan guard nw d a b mod s
  | .vred guard d a b => Sys2Proof.Machine.execVred guard d a b s
  | .bperm guard nw d a b mod => Sys2Proof.Machine.execBperm guard nw d a b mod s
  | .mop op mask mX mY => Sys2Proof.Machine.execMop op mask mX mY s
  | .mcnt guard d mX mod => Sys2Proof.Machine.execMcnt guard d mX mod s
  | .vext guard nw d a b mod => Sys2Proof.Machine.execVext guard nw d a b mod s
  | .fadd guard nw d a b => Sys2Proof.Machine.execFadd guard nw d a b s
  | .fsub guard nw d a b => Sys2Proof.Machine.execFsub guard nw d a b s
  | .fmul guard nw d a b => Sys2Proof.Machine.execFmul guard nw d a b s
  | .ffma guard d a b => Sys2Proof.Machine.execFfma guard d a b s
  | .fnma guard d a b => Sys2Proof.Machine.execFnma guard d a b s
  | .fmin guard nw d a b => Sys2Proof.Machine.execFmin guard nw d a b s
  | .fmax guard nw d a b => Sys2Proof.Machine.execFmax guard nw d a b s
  | .fcmp guard cond mask a b => Sys2Proof.Machine.execFcmp guard cond mask a b s
  | .frcp guard nw d a => Sys2Proof.Machine.execFrcp guard nw d a s
  | .frsq guard nw d a => Sys2Proof.Machine.execFrsq guard nw d a s
  | .fex2 guard nw d a => Sys2Proof.Machine.execFex2 guard nw d a s
  | .flg2 guard nw d a => Sys2Proof.Machine.execFlg2 guard nw d a s
  | .fclass guard nw d a => Sys2Proof.Machine.execFclass guard nw d a s
  | .cvt guard nw d a dst src rnd => Sys2Proof.Machine.execCvt guard nw d a dst src rnd s
  | .hfma2 guard d a b mod => Sys2Proof.Machine.execHfma2 guard d a b mod s
  | .dadd guard nw d a b => Sys2Proof.Machine.execDadd guard nw d a b s
  | .dmul guard nw d a b => Sys2Proof.Machine.execDmul guard nw d a b s
  | .dfma guard d a b => Sys2Proof.Machine.execDfma guard d a b s
  | .dcmpF64 guard cond mask a b => Sys2Proof.Machine.execDcmpF64 guard cond mask a b s
  | .dcvt guard nw d a code rnd => Sys2Proof.Machine.execDcvt guard nw d a code rnd s
  | .fscale guard nw d a b mod => Sys2Proof.Machine.execFscale guard nw d a b mod s
  | .ld guard data ofs base size => Sys2Proof.Machine.execLd guard data ofs base size s
  | .st guard data ofs base size => Sys2Proof.Machine.execSt guard data ofs base size s
  | .lds guard data ofs base size => Sys2Proof.Machine.execLds guard data ofs base size s
  | .sts guard data ofs base size => Sys2Proof.Machine.execSts guard data ofs base size s
  | .sld data base size => Sys2Proof.Machine.execSld data base size s
  | .sst data base size => Sys2Proof.Machine.execSst data base size s
  | .plld guard data ofs base planes => Sys2Proof.Machine.execPlld guard data ofs base planes s
  | .plst guard data ofs base planes => Sys2Proof.Machine.execPlst guard data ofs base planes s
  | .atom guard data ofs base op => Sys2Proof.Machine.execAtom guard data ofs base op s
  | .atomx guard data ofs base op => Sys2Proof.Machine.execAtomx guard data ofs base op s
  | .red guard data ofs base op => Sys2Proof.Machine.execRed guard data ofs base op s
  | .satom data base op => Sys2Proof.Machine.execSatom data base op s
  | .place len base wh => Sys2Proof.Machine.execPlace len base wh s
  | .waita data uns wide base cond => Sys2Proof.Machine.execWaita data uns wide base cond s
  | .fence scope kind => Sys2Proof.Machine.execFence scope kind s
  | .acq a d scope => Sys2Proof.Machine.execAcq a d scope s
  | .rel a scope => Sys2Proof.Machine.execRel a scope s
  | .tlwait a tl => Sys2Proof.Machine.execTlwait a tl s
  | .tlget d tl => Sys2Proof.Machine.execTlget d tl s
  | .baralloc d p => Sys2Proof.Machine.execBaralloc d p s
  | .barfree d b => Sys2Proof.Machine.execBarfree d b s
  | .bararr b => Sys2Proof.Machine.execBararr b s
  | .barwait b => Sys2Proof.Machine.execBarwait b s
  | .barsync b => Sys2Proof.Machine.execBarsync b s
  | .xarr m => Sys2Proof.Machine.execXarr m s
  | .xwait m => Sys2Proof.Machine.execXwait m s
  | .qalloc d a c => Sys2Proof.Machine.execQalloc d a c s
  | .qfree d q => Sys2Proof.Machine.execQfree d q s
  | .qpush q h => Sys2Proof.Machine.execQpush q h s
  | .qpop d q => Sys2Proof.Machine.execQpop d q s
  | .qtry d q h p => Sys2Proof.Machine.execQtry d q h p s
  | .qgrant q n => Sys2Proof.Machine.execQgrant q n s
  | .copy d a tl => Sys2Proof.Machine.execCopy d a tl s
  | .halo d a tl => Sys2Proof.Machine.execHalo d a tl s
  | .mcast d a tl => Sys2Proof.Machine.execMcast d a tl s
  | .dcmpStream d a tl => Sys2Proof.Machine.execDcmpStream d a tl s
  | .coll d a tl => Sys2Proof.Machine.execColl d a tl s
  | .spawn e p guard => Sys2Proof.Machine.execSpawn e p guard s
  | .rebin key e p guard => Sys2Proof.Machine.execRebin key e p guard s
  | .launch d r => Sys2Proof.Machine.execLaunch d r s
  | .waitch d g => Sys2Proof.Machine.execWaitch d g s
  | .tclaim d k => Sys2Proof.Machine.execTclaim d k s
  | .trel n k => Sys2Proof.Machine.execTrel n k s
  | .mmq a b p qmask metric => Sys2Proof.Machine.execMmq a b p qmask metric s
  | .mzero t => Sys2Proof.Machine.execMzero t s
  | .mdrain t a o dst mode => Sys2Proof.Machine.execMdrain t a o dst mode s
  | .mfill t a => Sys2Proof.Machine.execMfill t a s
  | .cupd a t p c => Sys2Proof.Machine.execCupd a t p c s
  | .menc d s1 k => Sys2Proof.Machine.execMenc d s1 k s
  | .cbld k a p => Sys2Proof.Machine.execCbld k a p s
  | .mstat d s1 => Sys2Proof.Machine.execMstat d s1 s
  | .gor2 guard d p q ty => Sys2Proof.Machine.execGor2 guard d p q ty s
  | .gor3 guard d p q ty => Sys2Proof.Machine.execGor3 guard d p q ty s
  | .ginc guard d p q ty => Sys2Proof.Machine.execGinc guard d p q ty s
  | .gins guard d p q ty => Sys2Proof.Machine.execGins guard d p q ty s
  | .gseg guard d p q ty => Sys2Proof.Machine.execGseg guard d p q ty s
  | .himm value => Sys2Proof.Machine.execHimm value s
  | .hsched delay reuseB reuseA keep => Sys2Proof.Machine.execHsched delay reuseB reuseA keep s
  | .hmod xd xe sos peek far w64 sp ord scope sat rme rnd tie => Sys2Proof.Machine.execHmod xd xe sos peek far w64 sp ord scope sat rme rnd tie s
  | .nop => Sys2Proof.Machine.execNop s
  | .yield => Sys2Proof.Machine.execYield s
  | .exit => Sys2Proof.Machine.execExit s
  | .trap code => Sys2Proof.Machine.execTrap code s
  | .csrr d a csr => Sys2Proof.Machine.execCsrr d a csr s
  | .csrw b a csr => Sys2Proof.Machine.execCsrw b a csr s
  | .tresume d a fin => Sys2Proof.Machine.execTresume d a fin s
  | .tflush a b all => Sys2Proof.Machine.execTflush a b all s
  | .split d a => Sys2Proof.Machine.execSplit d a s
  | .halt code => Sys2Proof.Machine.execHalt code s
  | .sleep n => Sys2Proof.Machine.execSleep n s
  | .brk code => Sys2Proof.Machine.execBrk code s
  | .binTimerExpiry core bin => Sys2Proof.Machine.execBinTimerExpiry core bin s
  | .binGroupStart core => Sys2Proof.Machine.execBinGroupStart core s
  | .watchdogExpiry team => Sys2Proof.Machine.execWatchdogExpiry team s
  | .activeSetSwap core => Sys2Proof.Machine.execActiveSetSwap core s
  | .forcedSwap core => Sys2Proof.Machine.execForcedSwap core s
  | .sleepExpiry team group => Sys2Proof.Machine.execSleepExpiry team group s
  | .waitaReread team group => Sys2Proof.Machine.execWaitaReread team group s
  | .loadDataReturn id => Sys2Proof.Machine.execLoadDataReturn id s
  | .sectorArrival id => Sys2Proof.Machine.execSectorArrival id s
  | .frameAccess id => Sys2Proof.Machine.execFrameAccess id s
  | .replicaLock id => Sys2Proof.Machine.execReplicaLock id s
  | .replicaUpdate id => Sys2Proof.Machine.execReplicaUpdate id s
  | .sideboardAccess id => Sys2Proof.Machine.execSideboardAccess id s
  | .bounce id => Sys2Proof.Machine.execBounce id s
  | .moveDone mv => Sys2Proof.Machine.execMoveDone mv s
  | .pageRecall id => Sys2Proof.Machine.execRecall id s
  | .pageWalk core aspace vpage => Sys2Proof.Machine.execPageWalk core aspace vpage s
  | .closeMessage id => Sys2Proof.Machine.execCloseMessage id s
  | .closeAnswer id => Sys2Proof.Machine.execCloseAnswer id s
  | .engineCommandCompletion team tl num => Sys2Proof.Machine.execEngineCommandCompletion team tl num s
  | .dcmpStreamEnd team tl num => Sys2Proof.Machine.execDcmpStreamEnd team tl num s
  | .collArrival grid k => Sys2Proof.Machine.execCollArrival grid k s
  | .copyDataLanding team tl num => Sys2Proof.Machine.execCopyDataLanding team tl num s
  | .drawerDelivery id => Sys2Proof.Machine.execDrawerDelivery id s
  | .deliveryRetry id => Sys2Proof.Machine.execDeliveryRetry id s
  | .remoteLoad id => Sys2Proof.Machine.execRemoteLoad id s
  | .targetGoneAnswer id => Sys2Proof.Machine.execTargetGoneAnswer id s
  | .exchangeClose id => Sys2Proof.Machine.execExchangeClose id s
  | .xwaitMerge team group => Sys2Proof.Machine.execXwaitMerge team group s
  | .arrayPass core => Sys2Proof.Machine.execArrayPass core s
  | .passTimeout core => Sys2Proof.Machine.execPassTimeout core s
  | .subarrayGate core sub => Sys2Proof.Machine.execSubarrayGate core sub s
  | .subarrayWake core sub => Sys2Proof.Machine.execSubarrayWake core sub s
  | .predicateCompletion id => Sys2Proof.Machine.execPredicateCompletion id s
  | .pageMove part aspace vpage dst => Sys2Proof.Machine.execPageMove part aspace vpage dst s
  | .frameSeal mv => Sys2Proof.Machine.execFrameSeal mv s
  | .sealNotice mv => Sys2Proof.Machine.execSealNotice mv s
  | .sectorLanding mv sector => Sys2Proof.Machine.execSectorLanding mv sector s
  | .touchPromotion core aspace vpage => Sys2Proof.Machine.execTouchPromotion core aspace vpage s
  | .placeFarRequest id => Sys2Proof.Machine.execPlaceFarRequest id s
  | .stashSweep cluster => Sys2Proof.Machine.execStashSweep cluster s
  | .swapOut team => Sys2Proof.Machine.execSwapOut team s
  | .dispatchStarvation part => Sys2Proof.Machine.execDispatchStarvation part s
  | .timeSliceExpiry team => Sys2Proof.Machine.execTimeSliceExpiry team s
  | .gridCompletion grid => Sys2Proof.Machine.execGridCompletion grid s
  | .submissionPortWrite part off bytes => Sys2Proof.Machine.execSubmissionPortWrite part off bytes s
  | .cxlMemRead off n => Sys2Proof.Machine.execCxlMemRead off n s
  | .cxlMemWrite off bytes => Sys2Proof.Machine.execCxlMemWrite off bytes s
  | .getVersion => Sys2Proof.Machine.execGetVersion s
  | .getCapabilities => Sys2Proof.Machine.execGetCapabilities s
  | .negotiateAlgorithms => Sys2Proof.Machine.execNegotiateAlgorithms s
  | .getDigests => Sys2Proof.Machine.execGetDigests s
  | .getCertificate slot off len => Sys2Proof.Machine.execGetCertificate slot off len s
  | .challenge slot nonce => Sys2Proof.Machine.execChallenge slot nonce s
  | .getMeasurements index nonce => Sys2Proof.Machine.execGetMeasurements index nonce s
  | .layoutWrite v => Sys2Proof.Machine.execLayoutWrite v s
  | .eventsClear v => Sys2Proof.Machine.execEventsClear v s
  | .lrCmd v => Sys2Proof.Machine.execLrCmd v s
  | .fwStoreStagedImage => Sys2Proof.Machine.execFwStoreStagedImage s
  | .fwRaiseMinimumSvn => Sys2Proof.Machine.execFwRaiseMinimumSvn s
  | .fwCommandDone => Sys2Proof.Machine.execFwCommandDone s
  | .preset part v => Sys2Proof.Machine.execPreset part v s
  | .mbxHeadWrite part v => Sys2Proof.Machine.execMbxHeadWrite part v s
  | .windowTableWrite part off bytes => Sys2Proof.Machine.execWindowTableWrite part off bytes s
  | .ownedReleaseDone part idx => Sys2Proof.Machine.execOwnedReleaseDone part idx s
  | .bar0RegisterWrite off v => Sys2Proof.Machine.execBar0RegisterWrite off v s
  | .peerRequest port addr op => Sys2Proof.Machine.execPeerRequest port addr op s
  | .peerWriteAck id => Sys2Proof.Machine.execPeerWriteAck id s
  | .flitCrcRetry port => Sys2Proof.Machine.execFlitCrcRetry port s
  | .linkDown port => Sys2Proof.Machine.execLinkDown port s
  | .linkUp port serial => Sys2Proof.Machine.execLinkUp port serial s
  | .powerOn => Sys2Proof.Machine.execPowerOn s
  | .thermalTrip stack => Sys2Proof.Machine.execThermalTrip stack s
  | .overcurrent rail => Sys2Proof.Machine.execOvercurrent rail s
  | .sensorSample cluster col s0 s1 moved => Sys2Proof.Machine.execSensorSample cluster col s0 s1 moved s
  | .lifetimeFlush => Sys2Proof.Machine.execLifetimeFlush s
  | .orderlyShutdown => Sys2Proof.Machine.execOrderlyShutdown s
  | .powerLoss => Sys2Proof.Machine.execPowerLoss s
  | .busTest core bad => Sys2Proof.Machine.execBusTest core bad s
  | .mdrainCompletion id => Sys2Proof.Machine.execMdrainCompletion id s
  | .replicaAcknowledgement id => Sys2Proof.Machine.execReplicaAcknowledgement id s
  | .zeroLengthReadCompletion id => Sys2Proof.Machine.execZeroLengthReadCompletion id s
  | .mbxBaseWrite part v => Sys2Proof.Machine.execMbxBaseWrite part v s
  | .gemarLaneLoss port => Sys2Proof.Machine.execGemarLaneLoss port s
  | .hschedDelayExpiry team group => Sys2Proof.Machine.execHschedDelayExpiry team group s

end Sys2Proof.Machine
end

