-- ==== Sys2Proof/Machine/Agenda.lean ====
section
/-! DEFINITION. What a step does (log entry 1): the issue of a group's next instruction, and what the machine does by itself when the
agenda names nothing: its boot, a message or an agent's event that is due, or one cycle of every core. -/

namespace Sys2Proof.Machine

/-- Issue a group's next instruction: fetch, decode, execute (R26, R171). A group that is no candidate issues nothing. -/
def runGroup (tid gid : Nat) (s : State) : Host.Outcome State Fault Refusal :=
  if !canIssue s tid gid then .next s
  else
    match teamOf s tid, groupOf s tid gid with
    | some t, some g =>
      match fetchInstr s t g with
      | (.ok i, s') => exec i { s' with cur := (tid, gid) }
      | (.fault code addr, s') => .next (raiseFault s' tid gid g code addr g.m0 0 0 g.restart)
      | (.wait, s') => .next s'
    | _, _ => .next s

/-- What the reads that a group performs at once have come to: their bounces, what it has registered for, the sectors it asks for (R117, R369). -/
def Group.reading (g : Group) : Nat × Nat × Option (Nat × Place) × List (Place × Nat × Nat) := (g.fetchTries, g.readTries, g.registered, g.sectors)
/-- Where a held group stands: its place, what it waits for, and the faults that it and its team have met. -/
def standing (s : State) (tid gid : Nat) : Option (Nat × Option Rep × Option Wait × Bool × Bool) :=
  match teamOf s tid, groupOf s tid gid with
  | some t, some g => if g.wait.isSome then some (g.pc, g.rep, g.wait, g.fault.isSome, t.stopping) else none
  | _, _ => none
/-- Issue a group's next instruction, if that brings the group on: a group that only stays held as it was does not move, nor one whose
fetch waits, unless the fetch has bounced. -/
def tryGroup (tid gid : Nat) (s : State) : Option (Host.Outcome State Fault Refusal) :=
  match teamOf s tid, groupOf s tid gid with
  | some t, some g =>
    if !canIssue s tid gid then none
    else
      match runGroup tid gid s with
      | .next s' =>
        let stays := (fetchInstr s t g).1 = .wait || (g.wait.isSome && standing s' tid gid = standing s tid gid)
        if stays && (groupOf s' tid gid).any (fun x => x.reading = g.reading) then none else some (.next s')
      | o => some o
  | _, _ => none

/-! ## Which groups are ready (R385, R386) -/

/-- An instruction that meets this hold has not issued: a result it uses is outstanding, R47 makes it wait, or its resource has no room (R40,
R385). At any other hold it has issued, and is held in its place. -/
def Wait.unissued (w : Wait) : Bool :=
  match w with
  | .longLat => true
  | .shared _ => true
  | .issue => true
  | .unit => true
  | _ => false
/-- A group's next instruction is ready: if the group were active it would issue, and not stay in the hold that it is in (R385). One that issues and
is then held, such as the arrival of a BARSYNC, a QPOP or a WAITCH, is ready. -/
def isReady (s : State) (core tid gid : Nat) : Bool :=
  let s := modCore s core (fun c => { c with active := (tid, gid) :: c.active })
  match teamOf s tid, groupOf s tid gid with
  | some t, some g =>
    canIssue s tid gid && (fetchInstr s t g).1 ≠ .wait && (match runGroup tid gid s with
      | .next s' => !(groupOf s' tid gid).any (fun x =>
          x.pc = g.pc && x.rep = g.rep && x.fault.isNone && x.wait.any (fun w => w.unissued || g.wait = some w))
      | _ => true)
  | _, _ => false
/-- The hold of a group at a yield point is over. A group that has issued its YIELD stays at it. -/
def holdOver (s : State) (core tid gid : Nat) : Bool :=
  (groupOf s tid gid).any (fun g => g.wait.any (fun w => w.yp && w ≠ .yielded)) && isReady s core tid gid
/-- Note since when each pending group is ready, and which active groups are held no more. -/
def stampReady (s : State) : State :=
  s.cores.foldl (fun s c =>
    if c.2.pend.isEmpty then s
    else setCore s c.1 { coreOf s c.1 with
      pend := c.2.pend.map (fun p =>
        (p.1, p.2.1, if isReady s c.1 p.1 p.2.1 then (if p.2.2 = 0 then cycleAt s c.1 + 1 else p.2.2) else 0))
      heldPast := c.2.active.filter (fun p => holdOver s c.1 p.1 p.2) }) s
/-- Cycles pass; the pending groups that are ready by then count from here. -/
def pass (s : State) (n : Nat) : State := tick (stampReady s) n

/-- A state if it differs from the present one. -/
def changed (s s' : State) : Option State := if s' = s then none else some s'
/-- The first event of a list that changes something. -/
def firstEvent (s : State) (l : List Instr) : Option State :=
  l.findSome? (fun e => match exec e s with
    | .next s' => changed s s'
    | _ => none)

/-- The messages and moves that can go on. -/
def dueMessage (s : State) : Option State :=
  (s.flight.findSome? (fun m => changed s (runMsg s m.1 m.2))).orElse (fun _ =>
    s.moves.findSome? (fun m => changed s (runMove s m.1)))

/-- Events of a core's units, of its groups' timers and of what its teams have in flight. -/
def coreEvents (s : State) (core : Nat) (c : Core) : List Instr :=
  (if c.closedPasses.isEmpty then [] else (c.gated.map (fun k => Instr.subarrayWake core k)) ++ [.arrayPass core]) ++
  (if c.openPasses.isEmpty then [] else [.passTimeout core]) ++
  c.drains.map (fun d => Instr.mdrainCompletion d.id) ++ c.preds.map (fun d => Instr.predicateCompletion d.id) ++
  c.bins.map (fun b => Instr.binTimerExpiry core b.1) ++ (if c.launchedBins.isEmpty then [] else [.binGroupStart core]) ++
  (List.range 4).map (fun k => Instr.subarrayGate core k) ++
  (teamsOn s core).flatMap (fun t =>
    t.cmds.flatMap (fun k =>
      match k.kind with
      | .coll => [Instr.collArrival t.grid k.collK]
      | .dcmp => [.dcmpStreamEnd t.id k.tl k.num]
      | _ => [.copyDataLanding t.id k.tl k.num, .engineCommandCompletion t.id k.tl k.num]) ++
    t.groups.flatMap (fun g =>
      match g.2.wait with
      | some (.sleep _) => [Instr.sleepExpiry t.id g.1]
      | _ => []) ++
    [.watchdogExpiry t.id, .timeSliceExpiry t.id] ++ (if t.stopping then [.swapOut t.id] else []))
/-- Events of the whole device. -/
def deviceEvents (s : State) : List Instr :=
  s.grids.map (fun g => Instr.gridCompletion g.1) ++ s.clusters.map (fun c => Instr.stashSweep c.1) ++
  s.parts.flatMap (fun p => p.2.releasing.map (fun k => Instr.ownedReleaseDone p.1 k)) ++ (if s.mgmt.fwBusy then [.fwCommandDone] else [])
/-- What is due: messages, then the cores' events, then the device's, then the dispatchers' decisions. -/
def dueNow (s : State) : Option State :=
  (dueMessage s).orElse (fun _ =>
    (firstEvent s (s.cores.flatMap (fun c => coreEvents s c.1 c.2) ++ deviceEvents s)).orElse (fun _ =>
      s.parts.findSome? (fun p => changed s (servePart s p.1))))

/-- Issue the oldest group of a core that can (R27, R39). -/
def issueOldest : List (Nat × Nat) → State → Option (Host.Outcome State Fault Refusal)
  | [], _ => none
  | p :: l, s => (tryGroup p.1 p.2 s).orElse (fun _ => issueOldest l s)
/-- One issue on every core that has one. -/
def issueCores : List Nat → State → Option (Host.Outcome State Fault Refusal)
  | [], _ => none
  | c :: l, s =>
    match issueOldest ((coreOf s c).active ++ (coreOf s c).pend.map (fun p => (p.1, p.2.1))) s with
    | none => issueCores l s
    | some (.next s') => some ((issueCores l s').getD (.next s'))
    | some o => some o
/-- The exchanges of the active sets that are due (R386). -/
def swapAll (s : State) : State :=
  s.cores.foldl (fun s c => [Instr.activeSetSwap c.1, .forcedSwap c.1].foldl (fun s e => match exec e s with
    | .next s' => s'
    | _ => s) s) s

/-- What the machine does when the agenda names nothing (log entry 1): its boot, what is due, or one cycle of every core. -/
def autoStep (s : State) : Host.Outcome State Fault Refusal :=
  if booting s && s.teams.isEmpty then exec .powerOn s
  else
    match dueNow s with
    | some s' => .next s'
    | none =>
      match issueCores (s.cores.map (·.1)) s with
      | some (.next s') => .next (pass (swapAll (stampReady s')) Config.issueCycles)
      | some o => o
      | none => .next (pass (swapAll (stampReady s)) 1)

/-- The state in which an event acts: an exchange of an active set goes by what is ready now (R386). -/
def beforeEvent (e : Instr) (s : State) : State :=
  match e with
  | .activeSetSwap _ => stampReady s
  | .forcedSwap _ => stampReady s
  | _ => s

/-! ## Errors in storage (R425, R428) -/

/-- A storage unit serves the accesses of an instruction of a team: its core's unified store every instruction, its core's tray those of the matrix
port, a slice of its partition any. Units are numbered as the lifetime record's elements of codes 3 and 4 are (log entry 19). -/
def unitServes (s : State) (t : Team) (i : Instr) (unit : Nat) : Bool :=
  unit = 1536 + t.core || (unit = 2304 + t.core && (encode i).any (fun w => 0xC0 ≤ w.toNat / 2 ^ 24 && w.toNat / 2 ^ 24 ≤ 0xC9)) ||
    (3072 ≤ unit && unit < 3456 && inPartition s t.part ((unit - 3072) / 96))
/-- A storage unit meets an error: a corrected one is counted (code 3); one that ECC cannot correct is counted (code 4) and raises 0x15 at the next
instruction of the group whose access meets it, if the unit serves that instruction. The port die's store serves none, and an error there is only
counted (R425, R428; log entry 54). -/
def upset (s : State) (unit : Nat) (victim : Option (Nat × Nat)) : State :=
  if 3457 ≤ unit then s
  else
    match victim with
    | none => lrBump s 3 unit 0 (2 ^ 32 - 1)
    | some (tid, gid) =>
      if unit = 3456 then lrBump s 4 unit 0 (2 ^ 32 - 1)
      else
      match teamOf s tid, groupOf s tid gid with
      | some t, some g =>
        if !canIssue s tid gid then s
        else
          (match fetchInstr s t g with
          | (.ok i, s') =>
            if unitServes s t i unit then raiseFault (lrBump s' 4 unit 0 (2 ^ 32 - 1)) tid gid g 0x15 0 (g.lanesOf i) 0 0 g.restart
            else s
          | _ => s)
      | _, _ => s

/-- What the agenda's next entry does (log entry 1): an entry that names an encoded instruction does nothing, since groups fetch theirs. -/
def agendaStep (a : Agenda) (s : State) : Host.Outcome State Fault Refusal :=
  match a with
  | .event e => if e.encodable then .next s else exec e (beforeEvent e s)
  | .issue t g => runGroup t g s
  | .tick n => .next (pass s n)
  | .dispatch p => .next (servePart s p)
  | .upset unit victim => .next (upset s unit victim)

end Sys2Proof.Machine
end

