-- ==== Sys2Proof/Machine/Step.lean ====
section
/-! DEFINITION. One step of the machine: what the agenda names next, else what is due (log entry 1); nothing runs without power but
POWER_ON (R422). Also where the next instruction is placed for the host (log entry 12). -/

namespace Sys2Proof.Machine

/-- One step. -/
def step (s : State) : Host.Outcome State Fault Refusal :=
  match s.agenda with
  | [] => if s.power then autoStep s else .fault .poweredOff
  | a :: rest => if s.power || a = .event .powerOn then agendaStep a { s with agenda := rest } else .fault .poweredOff

/-- The state with an instruction where `step` fetches next: its word is loaded for a team on core 0 whose issue is next on the
agenda. Bits above `nbits` are zero. -/
def State.withFetchWord (s : State) (nbits w : Nat) : State := loadWord s (natBytes 4 (w % 2 ^ nbits))

end Sys2Proof.Machine
end

