-- ==== Sys2Proof/Safety.lean ====
section
/-! DEFINITION. The words that statements are written in: when an instruction of the current group starts, when it retires, which
storage two states share, the canonical form of the device's memory, and what counts as a safe run. -/

namespace Sys2Proof

open Machine

/-- The step answers a next state. -/
def StepsOn (s : State) : Prop := ∃ s', step s = .next s'

/-- The first `n` steps from a state all answer a next state. -/
def SafeFor : Nat → State → Prop
  | 0, _ => True
  | n + 1, s => ∃ s', step s = .next s' ∧ SafeFor n s'

/-- The instruction `i` of the current group starts in `s`: none of the checks of R182 fails and nothing holds it (R40, R47). `c` is
its team and group with its operands, and `s₁` the state with the group moved past it. -/
def Starts (i : Instr) (s : State) (c : Ctx) (s₁ : State) : Prop := ∃ s₀, start i s = .go c s₀ s₁

/-- The instruction completes: it answers the next state `s₂`, in which its group has also retired it (R39, R53). -/
def Completes (i : Instr) (s : State) (c : Ctx) (s₂ : State) : Prop := exec i s = .next (retire s₂ c.t.core c.tid c.gid)

/-- The instruction faults: its team stops with this fault at the instruction's restart point, and nothing else happens (R179). -/
def Faults (i : Instr) (s : State) (c : Ctx) (code addr : Nat) (lanes : Mask) (aux scode : Nat) : Prop :=
  ∃ s₀ s₁, start i s = .go c s₀ s₁ ∧
    exec i s = .next (takeFault s₀ c.tid c.gid 
      ⟨code, c.g.index, c.g.restart, addr, lanes, scode, aux, false, 0, some c.g.restart, s₀.nextId, true⟩)

/-- The instruction faults in the same way, and what the failed check has met stays in the management block, as in `s'`: a refusal of the port
die in `events` (R411), a count of the lifetime record (R425), and the draws of free values behind them. -/
def FaultsLeaving (i : Instr) (s : State) (c : Ctx) (s' : State) (code addr : Nat) (lanes : Mask) : Prop :=
  ∃ s₀ s₁, start i s = .go c s₀ s₁ ∧
    exec i s = .next (takeFault { s₀ with mgmt := s'.mgmt, free := s'.free } c.tid c.gid
      ⟨code, c.g.index, c.g.restart, addr, lanes, 0, 0, false, 0, some c.g.restart, s₀.nextId, true⟩)

/-- The instruction is held at `w` (R40): its group keeps its place, its hints and its REPEAT, and waits; `s₂` is what its first half
has done. -/
def HeldAt (i : Instr) (s : State) (c : Ctx) (w : Wait) (s₂ : State) : Prop := exec i s = .next (conclude c s (.hold w s₂))

/-- The group with its number in the team changes as `f` says, and nothing else does. -/
abbrev changeGroup (c : Ctx) (s : State) (f : Group → Group) : State := modGroup s c.tid c.gid f

/-- Every byte that a program, the host or a peer can read is the same: the DRAM, the frames and replicas, the host's and the peers'
memory, and the desks. -/
def SameBytes (s t : State) : Prop :=
  (∀ a, readByte t.dram a = readByte s.dram a) ∧
  (∀ core n a, readByte (nearFrame t core n).data a = readByte (nearFrame s core n).data a) ∧
  (∀ c sl n a, readByte (farFrame t c sl n).data a = readByte (farFrame s c sl n).data a) ∧
  (∀ a, readByte t.hostMem a = readByte s.hostMem a) ∧
  (∀ p a, readByte (nmGetD t.peerMem p []) a = readByte (nmGetD s.peerMem p []) a) ∧
  (∀ tid a, (teamOf t tid).map (fun x => readByte x.desk a) = (teamOf s tid).map (fun x => readByte x.desk a))

/-- The memory of the device lies in the canonical form. -/
def MemoryCanonical (s : State) : Prop := Memory.wf s.dram = true ∧ Memory.wf s.hostMem = true

end Sys2Proof
end

