-- ==== Sys2Proof/Certificates/Slice0/Obligations.lean ====
section
/-! DEFINITION. The statements about the model: encodings, the start of an instruction, exceptions, and for every instruction and
every event of the device where it completes and with what effect. -/

open Sys2Proof Sys2Proof.Machine

/-! ## Class 0 and the immediates: one scalar register -/

namespace Sys2Proof.Spec

/-- The result of R192 by u and w: 64 bits, or the low 32 bits extended. -/
def narrow (u w : BitVec 1) (r : DWord) : DWord :=
  if w = 0 then r else if u = 0 then (r.truncate 32 : Word).signExtend 64 else (r.truncate 32 : Word).zeroExtend 64

/-- The shift count y mod n (R192). -/
def shiftCount (w : BitVec 1) (y : DWord) : Nat := y.toNat % (if w = 0 then 64 else 32)

/-- The destination and value of an instruction of class 0 with a scalar result (R192, R193, R195). -/
def scalarResult (c : Ctx) (s : State) (i : Instr) : Option (BitVec 6 × DWord) :=
  match i with
  | .sadd d a b u w => some (d, narrow u w (c.s a + c.s b))
  | .ssub d a b u w => some (d, narrow u w (c.s a - c.s b))
  | .smul d a b u w => some (d, narrow u w (c.s a * c.s b))
  | .smulh d a b u w => some (d, sResult ((sOperand (c.s a) u w * sOperand (c.s b) u w).fdiv (2 ^ sWidth w)) u w)
  | .sdiv d a b u w => some (d, sResult (if sOperand (c.s b) u w = 0 then 2 ^ sWidth w - 1
      else (sOperand (c.s a) u w).tdiv (sOperand (c.s b) u w)) u w)
  | .srem d a b u w => some (d, sResult (if sOperand (c.s b) u w = 0 then sOperand (c.s a) u w
      else (sOperand (c.s a) u w).tmod (sOperand (c.s b) u w)) u w)
  | .sand d a b u w => some (d, narrow u w (c.s a &&& c.s b))
  | .sor d a b u w => some (d, narrow u w (c.s a ||| c.s b))
  | .sxor d a b u w => some (d, narrow u w (c.s a ^^^ c.s b))
  | .sshl d a b u w => some (d, narrow u w (c.s a <<< shiftCount w (c.s b)))
  | .sshr d a b u w => some (d,
      if w = 0 then (if u = 0 then (c.s a).sshiftRight (shiftCount w (c.s b)) else c.s a >>> shiftCount w (c.s b))
      else if u = 0 then (((c.s a).truncate 32 : Word).sshiftRight (shiftCount w (c.s b))).signExtend 64
      else (((c.s a).truncate 32 : Word) >>> shiftCount w (c.s b)).zeroExtend 64)
  | .smin d a b u w => some (d, sResult (min (sOperand (c.s a) u w) (sOperand (c.s b) u w)) u w)
  | .smax d a b u w => some (d, sResult (max (sOperand (c.s a) u w) (sOperand (c.s b) u w)) u w)
  | .scmp d a b cond u w => some (d, if intCond cond.toNat (sOperand (c.s a) u w) (sOperand (c.s b) u w) then 1 else 0)
  | .ssel d a b cc => some (d, if c.s cc = 0 then c.s b else c.s a)
  | .sbit d a op w => some (d, BitVec.ofNat 64 (bitOp op.toNat (sWidth w) ((c.s a).toNat % 2 ^ sWidth w)))
  | .sget d n => some (d, special c s n.toNat)
  | .mget d m => some (d, (c.g.mask m.toNat).zeroExtend 64)
  | .sext d a u size => some (d,
      let n := if size = 0 then 8 else if size = 1 then 16 else 32
      if u = 0 then ((c.s a).truncate n).signExtend 64 else ((c.s a).truncate n).zeroExtend 64)
  | _ => none

/-- The destination and value of an immediate (R196, R197): the value of an attached HIMM takes the place of the field. -/
def immediateResult (c : Ctx) (i : Instr) : Option (BitVec 6 × DWord) :=
  let imm (x : BitVec 12) : DWord := if c.h.count = 0 then x.signExtend 64 else c.h.imm
  let cnt (x : BitVec 6) : Nat := if c.h.count = 0 then x.toNat else c.h.imm.toNat % 64
  match i with
  | .saddi d a x => some (d, c.s a + imm x)
  | .sandi d a x => some (d, c.s a &&& imm x)
  | .sori d a x => some (d, c.s a ||| imm x)
  | .sxori d a x => some (d, c.s a ^^^ imm x)
  | .sshli d a n => some (d, c.s a <<< cnt n)
  | .sshri d a ar n => some (d,
      if (if c.h.count = 0 then ar = 1 else c.h.imm.getLsbD 6 = true) then (c.s a).sshiftRight (cnt n) else c.s a >>> cnt n)
  | .slti d a x => some (d, if (c.s a).slt (imm x) then 1 else 0)
  | .sltni d a x => some (d, if (c.s a).ult (imm x) then 1 else 0)
  | .sli d x => some (d, if c.h.count = 0 then x.signExtend 64 else c.h.imm)
  | _ => none

/-- What the instructions on masks and on fmt and fflags make of their group (R194, R195, R203, R214, R215). -/
def statusEffect (c : Ctx) (i : Instr) : Option (Group → Group) :=
  match i with
  | .sset a n => some (fun g => if n = 9 then { g with fflags := (c.s a).truncate 32 &&& 0xF }
      else { g with fmt := (c.s a).truncate 32 &&& 0x1FFFFFF })
  | .mput a m => some (fun g => g.setMask m.toNat ((c.s a).truncate 32))
  | .setfmt d a sel => some (fun g =>
      let v : Word := if c.h.count = 0 then (c.s a).truncate 32 else c.h.imm.truncate 32
      { g with fmt := setfmtValue c.g.fmt v.toNat sel }.setS d.toNat (c.g.fmt.zeroExtend 64))
  | .mop op m x y => some (fun g =>
      let mx := c.g.mask x.toNat
      let my := c.g.mask y.toNat
      g.setMask m.toNat (match op.toNat with
        | 0 => mx &&& my
        | 1 => mx ||| my
        | 2 => mx ^^^ my
        | 3 => mx &&& ~~~my
        | 4 => ~~~mx
        | 5 => mx &&& (-mx)
        | _ => mx))
  | .mcnt guard d x mod => some (fun g =>
      let m := c.g.mask x.toNat &&& c.lanes guard
      g.setS d.toNat (BitVec.ofNat 64 (if mod = 0 then popcount m.toNat 32 else if mod = 1 then ctz m.toNat 32
        else if m = 0 then 32 else m.toNat.log2)))
  | _ => none

/-- The instruction raises the fault with this code, and has no other effect (R179), whatever its record shows beside the code. -/
def Raises (i : Instr) (s : State) (c : Ctx) (code : Nat) : Prop := ∃ addr lanes aux scode, Faults i s c code addr lanes aux scode

/-- The pc that an offset of n bits leads to (R198): the word after the branch plus four times the signed offset, in 48 bits. -/
def target (pc : Nat) (off : BitVec n) : Nat := (((pc : Int) + 4 + 4 * off.toInt) % 2 ^ 48).toNat

/-- Where a branch that is taken goes (R198), and what it saves; none when it is not taken. -/
def branchTaken (c : Ctx) (i : Instr) : Option (Option Nat) :=
  match i with
  | .bra off => some (some (target c.g.pc off))
  | .bz a off => some (if c.s a = 0 then some (target c.g.pc off) else none)
  | .bnz a off => some (if c.s a = 0 then none else some (target c.g.pc off))
  | .bany m off => some (if c.g.mask m.toNat &&& c.g.m0 = 0 then none else some (target c.g.pc off))
  | .bnone m off => some (if c.g.mask m.toNat &&& c.g.m0 = 0 then some (target c.g.pc off) else none)
  | _ => none

end Sys2Proof.Spec

/-- R190 to R193, R195 to R197: an instruction of class 0 or an immediate of class 1 that starts completes, and its only effect on its group beside moving on
is its result in d, computed from the operands as they stood. -/
def Obligations.ScalarResults : Prop :=
  (∀ (i : Instr) (s : State) (c : Ctx) (s₁ : State) (d : BitVec 6) (v : DWord), Starts i s c s₁ →
    Spec.scalarResult c s₁ i = some (d, v) → Completes i s c (changeGroup c s₁ (fun g => g.setS d.toNat v))) ∧
  (∀ (i : Instr) (s : State) (c : Ctx) (s₁ : State) (d : BitVec 6) (v : DWord), Starts i s c s₁ →
    Spec.immediateResult c i = some (d, v) → Completes i s c (changeGroup c s₁ (fun g => g.setS d.toNat v)))

/-- R194, R195, R203, R214, R215: SSET, MPUT, SETFMT, MOP and MCNT complete with their effect on fflags, fmt, a mask or a scalar. -/
def Obligations.StatusAndMaskResults : Prop :=
  ∀ (i : Instr) (s : State) (c : Ctx) (s₁ : State) (f : Group → Group), i.wf c.t.header.ever = true → Starts i s c s₁ →
    Spec.statusEffect c i = some f → Completes i s c (changeGroup c s₁ f)

/-- R198, R199: a branch completes; taken, its group's pc is the target, else the word after it; CALL also saves the return address. JR takes
its pc from the register, and kind 1 saves the return address; an address that is not a word's gives 0x03, one beyond 48 bits 0x05.
The model's readings in it: log entries 7, 13. -/
def Obligations.Branches : Prop :=
  (∀ (i : Instr) (s : State) (c : Ctx) (s₁ : State) (t : Option Nat), Starts i s c s₁ → Spec.branchTaken c i = some t →
    Completes i s c (changeGroup c s₁ (fun g => match t with
      | some pc => { g with pc := pc }
      | none => g))) ∧
  (∀ (off : BitVec 24) (s : State) (c : Ctx) (s₁ : State), Starts (.call off) s c s₁ →
    Completes (.call off) s c (changeGroup c s₁ (fun g =>
      { g.setS 62 (BitVec.ofNat 64 ((c.g.pc + 4) % 2 ^ 48)) with pc := Spec.target c.g.pc off }))) ∧
  (∀ (a : BitVec 6) (kind : BitVec 2) (s : State) (c : Ctx) (s₁ : State), Starts (.jr a kind) s c s₁ →
    ((c.s a).toNat % 4 = 0 → (c.s a).toNat < 2 ^ 48 →
      Completes (.jr a kind) s c (changeGroup c s₁ (fun g =>
        { (if kind = 1 then g.setS 62 (BitVec.ofNat 64 ((c.g.pc + 4) % 2 ^ 48)) else g) with pc := (c.s a).toNat }))) ∧
    ((c.s a).toNat % 4 ≠ 0 → Faults (.jr a kind) s c 0x03 0 c.g.m0 0 0) ∧
    ((c.s a).toNat % 4 = 0 → 2 ^ 48 ≤ (c.s a).toNat → Faults (.jr a kind) s c 0x05 0 c.g.m0 0 0))

/-- R183, R200: REPEAT with a count of 0 goes on after its body, at the word behind the next L words that are no hints, or is held while one
of those words is not ready; otherwise the body begins at the next word, with one execution of it fewer than the count still to follow.
The model's readings in it: log entries 7, 53. -/
def Obligations.Repeat : Prop :=
  ∀ (a len : BitVec 6) (s : State) (c : Ctx) (s₁ : State), Starts (.rept a len) s c s₁ →
    ((c.s a) = 0 →
      (∀ pc s₂, skipBody c.t c.g (2 ^ 46) len.toNat ((c.g.pc + 4) % 2 ^ 48) s₁ = (.ok pc, s₂) →
        Completes (.rept a len) s c (changeGroup c s₂ (fun g => { g with pc := pc }))) ∧
      (∀ s₂, skipBody c.t c.g (2 ^ 46) len.toNat ((c.g.pc + 4) % 2 ^ 48) s₁ = (.wait, s₂) → HeldAt (.rept a len) s c .issue s₂)) ∧
    ((c.s a) ≠ 0 → Completes (.rept a len) s c (changeGroup c s₁ (fun g =>
      { g with rep := some ⟨(c.s a).toNat - 1, (c.g.pc + 4) % 2 ^ 48, len.toNat, 0⟩ })))

/-- R42, R202: IFV pushes m0, its condition and fmt and narrows m0; ELSEV takes the other side and the pushed fmt; ENDV pops. A
branch is taken when no lane is left.
The model's readings in it: log entry 7. -/
def Obligations.MaskStack : Prop :=
  (∀ (m : BitVec 3) (neg : BitVec 1) (off : BitVec 20) (s : State) (c : Ctx) (s₁ : State), Starts (.ifv m neg off) s c s₁ →
    c.g.stack.length < 16 →
    let cond := if neg = 0 then c.g.mask m.toNat else ~~~(c.g.mask m.toNat)
    Completes (.ifv m neg off) s c (changeGroup c s₁ (fun g =>
      let g' := { g with stack := ⟨c.g.m0, cond, c.g.fmt⟩ :: g.stack }.setMask 0 (c.g.m0 &&& cond)
      if c.g.m0 &&& cond = 0 then { g' with pc := Spec.target c.g.pc off } else g'))) ∧
  (∀ (off : BitVec 20) (s : State) (c : Ctx) (s₁ : State), Starts (.elsev off) s c s₁ →
    ∀ e rest, c.g.stack = e :: rest → Completes (.elsev off) s c (changeGroup c s₁ (fun g =>
      let g' := { g with fmt := e.sfmt }.setMask 0 (e.sm0 &&& ~~~e.cond)
      if e.sm0 &&& ~~~e.cond = 0 then { g' with pc := Spec.target c.g.pc off } else g'))) ∧
  (∀ (s : State) (c : Ctx) (s₁ : State), Starts .endv s c s₁ →
    ∀ e rest, c.g.stack = e :: rest → Completes .endv s c (changeGroup c s₁ (fun g =>
      { g with fmt := e.sfmt, stack := rest }.setMask 0 e.sm0)))

/-- R43: a push when the stack holds 16 entries, and an ELSEV or ENDV when it is empty, raise the mask-stack fault 0x09, and the instruction
has no effect: the team stops with this fault in the state in which the instruction began. -/
def Obligations.MaskStackFaults : Prop :=
  (∀ (m : BitVec 3) (neg : BitVec 1) (off : BitVec 20) (s : State) (c : Ctx) (s₁ : State), Starts (.ifv m neg off) s c s₁ →
    16 ≤ c.g.stack.length → Spec.Raises (.ifv m neg off) s c 0x09) ∧
  (∀ (i : Instr) (s : State) (c : Ctx) (s₁ : State), i = .endv ∨ (∃ off, i = .elsev off) → Starts i s c s₁ →
    c.g.stack = [] → Spec.Raises i s c 0x09)

/-! ## Classes 2 and 3: lanes of a vector register, masks and flags -/

namespace Sys2Proof.Spec

/-- What R208 makes of a vector result: the lanes of the instruction take it unless nw is 1, every other lane keeps its value, and
latch() pushes it with zeros in the other lanes (R59). -/
def vectorDone (c : Ctx) (s : State) (guard : BitVec 3) (nw : BitVec 1) (d : Nat) (r : Nat → Word) : State :=
  let m := c.lanes guard
  let s := if nw = 1 then s else modTeam s c.tid (fun t => t.setVLanes c.g d m (ofLanes r))
  changeGroup c s (fun g => g.latch (ofLanes (fun i => if m.getLsbD i then r i else 0)))

/-- The same of a pair: both registers, the even one pushed first (R59, R208, R233). -/
def pairDone (c : Ctx) (s : State) (guard : BitVec 3) (nw : BitVec 1) (d : Nat) (r : Nat → Nat) : State :=
  let m := c.lanes guard
  let lo : Lanes := ofLanes (fun i => BitVec.ofNat 32 (r i))
  let hi : Lanes := ofLanes (fun i => BitVec.ofNat 32 (r i / 2 ^ 32))
  let s := if nw = 1 then s else
    modTeam s c.tid (fun t => (t.setVLanes c.g d m lo).setVLanes c.g (d + 1) m hi)
  changeGroup c s (fun g => (g.latch (only m lo)).latch (only m hi))

/-- The flags that the lanes of an instruction raise are set, and none is cleared (R66). -/
def flagsRaised (c : Ctx) (s : State) (guard : BitVec 3) (f : Nat → FFlags) : State :=
  let fl := (lanesOf (c.lanes guard)).foldl (fun acc i => acc.or (f i)) FFlags.none
  changeGroup c s (fun g => { g with fflags := g.fflags ||| BitVec.ofNat 32 fl.bits })

/-- Signed when the condition holds, else unsigned. -/
def asInt (signed : Bool) (x : Word) : Int := if signed then x.toInt else x.toNat

/-- The lane function of an integer instruction with two operand codes and the destination's old value z (R211, R212). -/
def intLane (i : Instr) : Option (BitVec 3 × BitVec 1 × BitVec 6 × BitVec 6 × BitVec 6 × (Word → Word → Word → Word)) :=
  match i with
  | .vadd g nw d a b mod => some (g, nw, d, a, b, fun x y _ =>
      if mod = 0 then x + y
      else if mod = 1 then BitVec.ofInt 32 (max (-2 ^ 31) (min (2 ^ 31 - 1) (x.toInt + y.toInt)))
      else BitVec.ofNat 32 (min (2 ^ 32 - 1) (x.toNat + y.toNat)))
  | .vsub g nw d a b mod => some (g, nw, d, a, b, fun x y _ =>
      if mod = 0 then x - y
      else if mod = 1 then BitVec.ofInt 32 (max (-2 ^ 31) (min (2 ^ 31 - 1) (x.toInt - y.toInt)))
      else BitVec.ofNat 32 (x.toNat - y.toNat))
  | .vmul g nw d a b => some (g, nw, d, a, b, fun x y _ => x * y)
  | .vmulh g nw d a b mod => some (g, nw, d, a, b, fun x y _ =>
      BitVec.ofInt 32 ((asInt (mod = 0) x * asInt (mod = 0) y).fdiv (2 ^ 32)))
  | .vmad g d a b => some (g, 0, d, a, b, fun x y z => x * y + z)
  | .vand g nw d a b => some (g, nw, d, a, b, fun x y _ => x &&& y)
  | .vor g nw d a b => some (g, nw, d, a, b, fun x y _ => x ||| y)
  | .vxor g nw d a b => some (g, nw, d, a, b, fun x y _ => x ^^^ y)
  | .vshl g nw d a b => some (g, nw, d, a, b, fun x y _ => x <<< (y.toNat % 32))
  | .vshr g nw d a b mod => some (g, nw, d, a, b, fun x y _ =>
      if mod = 0 then x >>> (y.toNat % 32) else x.sshiftRight (y.toNat % 32))
  | .vmin g nw d a b mod => some (g, nw, d, a, b, fun x y _ => if asInt (mod = 0) x ≤ asInt (mod = 0) y then x else y)
  | .vmax g nw d a b mod => some (g, nw, d, a, b, fun x y _ => if asInt (mod = 0) x ≤ asInt (mod = 0) y then y else x)
  | .vabsd g nw d a b mod => some (g, nw, d, a, b, fun x y _ =>
      BitVec.ofNat 32 (asInt (mod = 0) x - asInt (mod = 0) y).natAbs)
  | .vsel g d a b mod => some (g, 0, d, a, b, fun x y z => if mod = 0 then (if z = 0 then y else x) else if z.msb then x else y)
  | .vbit g nw d a mod => some (g, nw, d, a, 62, fun x _ _ => BitVec.ofNat 32 (bitOp mod.toNat 32 x.toNat))
  | .vext g nw d a b mod => some (g, nw, d, a, b, fun x y _ =>
      let p := y.toNat % 32
      let w := y.toNat / 2 ^ 8 % 2 ^ 6
      if w = 0 ∨ 32 < w then 0
      else if mod = 1 then sext32 (x.toNat / 2 ^ p) w else BitVec.ofNat 32 (x.toNat / 2 ^ p % 2 ^ w))
  | _ => none

/-- The lane function of an instruction that moves data between lanes or writes a value of its own to them (R216 to R221). -/
def moveLane (c : Ctx) (i : Instr) : Option (BitVec 3 × BitVec 1 × BitVec 6 × (Nat → Word)) :=
  match i with
  | .vlane g nw d mod => some (g, nw, d, fun k =>
      BitVec.ofNat 32 (if mod = 0 then k else popcount ((c.lanes g).toNat % 2 ^ k) 32))
  | .vmov g nw d a b mod =>
      if mod = 0 then some (g, nw, d, fun k => lane (c.code a) k)
      else if mod = 1 then some (g, nw, d, fun _ => (c.s a).truncate 32)
      else if mod = 2 then some (g, nw, d, fun _ => lane (c.code a) b.toNat)
      else none
  | .vshuf g nw d a b mod => some (g, nw, d, fun k =>
      let n := (lane (c.across g b) k).toNat
      if mod = 0 then lane (c.across g a) (n % 32) else if n < 32 then lane (c.across g a) n else 0)
  | .vrot g nw d a b mod => some (g, nw, d, fun k =>
      lane (c.across g a) (if mod = 0 then (k + b.toNat) % 32 else (k + 32 - b.toNat) % 32))
  | .vslide g nw d a b mod => some (g, nw, d, fun k => lane (lanesOfBytes (fun j =>
      if mod.toNat + 1 ≤ j then regByte (c.across g a) (j - (mod.toNat + 1)) else regByte (c.across g b) (128 - (mod.toNat + 1) + j))) k)
  | .bperm g nw d a b mod => some (g, nw, d, fun k => lane (lanesOfBytes (fun j =>
      regByte (c.across g b) (if mod = 0 then (regByte (c.across g a) j).toNat % 16 else (regByte (c.across g a) j).toNat / 16))) k)
  | _ => none

/-- The 32-bit result of a floating instruction in a lane, with its flags (R222 to R232). -/
def floatLane (c : Ctx) (i : Instr) : Option (BitVec 3 × BitVec 1 × BitVec 6 × (Nat → FRes)) :=
  let v (x : VCode) (k : Nat) : FVal := decodeF fp32 (lane (c.code x) k).toNat
  let bits (x : VCode) (k : Nat) : Nat := (lane (c.code x) k).toNat
  let rm : RMode := c.h.round .rne
  match i with
  | .fadd g nw d a b => some (g, nw, d, fun k => fpAdd fp32 rm (v a k) (v b k))
  | .fsub g nw d a b => some (g, nw, d, fun k => fpAdd fp32 rm (v a k) (v b k).negate)
  | .fmul g nw d a b => some (g, nw, d, fun k => fpMul fp32 rm (v a k) (v b k))
  | .ffma g d a b => some (g, 0, d, fun k => fpFma fp32 rm (v a k) (v b k) (decodeF fp32 (lane (c.v d.toNat) k).toNat))
  | .fnma g d a b => some (g, 0, d, fun k => fpFma fp32 rm (v a k).negate (v b k) (decodeF fp32 (lane (c.v d.toNat) k).toNat))
  | .fmin g nw d a b => some (g, nw, d, fun k => fpMinMax fp32 false (bits a k) (bits b k))
  | .fmax g nw d a b => some (g, nw, d, fun k => fpMinMax fp32 true (bits a k) (bits b k))
  | .frcp g nw d a => some (g, nw, d, fun k => fpRcp (lane (c.code a) k))
  | .frsq g nw d a => some (g, nw, d, fun k => fpRsq (lane (c.code a) k))
  | .fex2 g nw d a => some (g, nw, d, fun k => fpEx2 (lane (c.code a) k))
  | .flg2 g nw d a => some (g, nw, d, fun k => fpLg2 (lane (c.code a) k))
  | .cvt g nw d a dst src rnd => some (g, nw, d, fun k =>
      cvtElem dst.toNat src.toNat (c.h.round (.ofCode rnd.toNat)) c.h.sat (bits a k))
  | .hfma2 g d a b mod => some (g, 0, d, fun k =>
      let f := if mod = 0 then bf16 else fp16
      let half (x : Lanes) (h : Nat) := decodeF f ((lane x k).toNat / 2 ^ (16 * h) % 2 ^ 16)
      let one (h : Nat) := satRes f c.h.sat (fpFma f rm (half (c.code a) h) (half (c.code b) h) (half (c.v d.toNat) h))
      ⟨(one 0).bits + 2 ^ 16 * (one 1).bits, (one 0).fl.or (one 1).fl⟩)
  | .fscale g nw d a b mod => if mod = 1 then none else
      some (g, nw, d, fun k => fpScale fp32 rm (bits a k) (lane (c.code b) k).toInt)
  | .dcvt g nw d a code rnd => (match code.toNat with
      | 1 => some (g, nw, d, fun k => convertTo fp32 (c.h.round (.ofCode rnd.toNat)) c.h.sat (decodeF fp64 (c.pair a.toNat k)))
      | 4 => some (g, nw, d, fun k => fpToInt (c.h.round (.ofCode rnd.toNat)) true 32 (decodeF fp64 (c.pair a.toNat k)))
      | 5 => some (g, nw, d, fun k => fpToInt (c.h.round (.ofCode rnd.toNat)) false 32 (decodeF fp64 (c.pair a.toNat k)))
      | _ => none)
  | _ => none

/-- The 64-bit result of a floating instruction in a lane, with its flags (R222, R233). -/
def doubleLane (c : Ctx) (i : Instr) : Option (BitVec 3 × BitVec 1 × BitVec 6 × (Nat → FRes)) :=
  let v (x : VCode) (k : Nat) : FVal := decodeF fp64 (c.pair x.toNat k)
  let bits (x : VCode) (k : Nat) : Nat := (lane (c.code x) k).toNat
  let rm : RMode := c.h.round .rne
  match i with
  | .dadd g nw d a b => some (g, nw, d, fun k => fpAdd fp64 rm (v a k) (v b k))
  | .dmul g nw d a b => some (g, nw, d, fun k => fpMul fp64 rm (v a k) (v b k))
  | .dfma g d a b => some (g, 0, d, fun k => fpFma fp64 rm (v a k) (v b k) (v d k))
  | .fscale g nw d a b mod => if mod = 1 then
      some (g, nw, d, fun k => fpScale fp64 rm (c.pair a.toNat k) (lane (c.code b) k).toInt) else none
  | .dcvt g nw d a code rnd =>
      let m := c.h.round (.ofCode rnd.toNat)
      (match code.toNat with
      | 0 => some (g, nw, d, fun k => convertTo fp64 m c.h.sat (decodeF fp32 (bits a k)))
      | 2 => some (g, nw, d, fun k => convertTo fp64 m c.h.sat (intVal (sextInt (bits a k) 32)))
      | 3 => some (g, nw, d, fun k => convertTo fp64 m c.h.sat (intVal (bits a k)))
      | 6 => some (g, nw, d, fun k => convertTo fp64 m c.h.sat (intVal (sextInt (c.pair a.toNat k) 64)))
      | 7 => some (g, nw, d, fun k => fpToInt m true 64 (v a k))
      | _ => none)
  | _ => none

/-- The mask and the lanes of a compare, and whether a lane raises nv (R210, R213, R223, R233). -/
def compareLane (c : Ctx) (i : Instr) : Option (BitVec 3 × BitVec 3 × (Nat → Bool) × (Nat → Bool)) :=
  match i with
  | .vcmp g cond m a b mod => some (g, m, fun k =>
      intCond cond.toNat (asInt (mod = 0) (lane (c.code a) k)) (asInt (mod = 0) (lane (c.code b) k)), fun _ => false)
  | .fcmp g cond m a b =>
      let r (k : Nat) := fpCmp cond.toNat (decodeF fp32 (lane (c.code a) k).toNat) (decodeF fp32 (lane (c.code b) k).toNat)
      some (g, m, fun k => (r k).1, fun k => (r k).2)
  | .dcmpF64 g cond m a b =>
      let r (k : Nat) := fpCmp cond.toNat (decodeF fp64 (c.pair a.toNat k)) (decodeF fp64 (c.pair b.toNat k))
      some (g, m, fun k => (r k).1, fun k => (r k).2)
  | _ => none

end Sys2Proof.Spec

/-- R55, R208: s0 reads 0 and a write to it is discarded; a write to another scalar register is read back, and changes no other. A write of lanes of a
vector register is read back in those lanes and keeps the others, and registers of other rows keep their values. -/
def Obligations.RegisterReadsBack : Prop :=
  (∀ (g : Group) (n m : BitVec 6) (v : DWord),
    (g.setS 0 v = g) ∧ g.sreg 0 = 0 ∧ (n ≠ 0 → (g.setS n.toNat v).sreg n.toNat = v) ∧
      (m ≠ n → (g.setS n.toNat v).sreg m.toNat = g.sreg m.toNat)) ∧
  (∀ (t : Team) (g g' : Group) (n n' : Nat) (m : Mask) (v : Lanes) (r : Nat), t.row g n = some r →
    (∀ i, i < 32 → lane ((t.setVLanes g n m v).vreg g n) i = if m.getLsbD i then lane v i else lane (t.vreg g n) i) ∧
    (t.row g' n' ≠ some r → (t.setVLanes g n m v).vreg g' n' = t.vreg g' n'))

/-- R208, R211, R212: the lane-wise integer instructions complete with their results in the lanes of m0 and the guard. -/
def Obligations.VectorIntegerResults : Prop :=
  ∀ (i : Instr) (s : State) (c : Ctx) (s₁ : State) (g : BitVec 3) (nw : BitVec 1) (d a b : BitVec 6)
    (f : Word → Word → Word → Word), i.wf c.t.header.ever = true → Starts i s c s₁ →
    Spec.intLane i = some (g, nw, d, a, b, f) →
    Completes i s c (Spec.vectorDone c s₁ g nw d.toNat
      (fun k => f (lane (c.code a) k) (lane (c.code b) k) (lane (c.v d.toNat) k)))

/-- R216 to R221: the instructions that move data between lanes complete with their results; VMOV's mode 3 writes a pair. A scan gives each lane of the
instruction the combination of the lanes before it, with or without its own value, in ascending order from the identity; a reduction
gives the combination of all of them. Both raise the flags of the FP32 sums. -/
def Obligations.VectorMoveResults : Prop :=
  ((∀ (i : Instr) (s : State) (c : Ctx) (s₁ : State) (g : BitVec 3) (nw : BitVec 1) (d : BitVec 6) (f : Nat → Word),
    Starts i s c s₁ → Spec.moveLane c i = some (g, nw, d, f) → Completes i s c (Spec.vectorDone c s₁ g nw d.toNat f)) ∧
  (∀ (g : BitVec 3) (nw : BitVec 1) (d a b : BitVec 6) (s : State) (c : Ctx) (s₁ : State),
    Starts (.vmov g nw d a b 3) s c s₁ →
    Completes (.vmov g nw d a b 3) s c (Spec.pairDone c s₁ g nw d.toNat (fun _ => (c.s a).toNat)))) ∧
  ((∀ (g : BitVec 3) (nw : BitVec 1) (d a b : BitVec 6) (mod : BitVec 1) (s : State) (c : Ctx) (s₁ : State),
    Starts (.vscan g nw d a b mod) s c s₁ →
    let run := scanLanes b.toNat (c.code a) (lanesOf (c.lanes g)) (redIdentity b.toNat) .none
    Completes (.vscan g nw d a b mod) s c (changeGroup c (Spec.vectorDone c s₁ g nw d.toNat (fun k =>
      match run.1.find? (fun p => p.1 = k) with
      | some p => if mod = 1 then p.2.1 else p.2.2
      | none => 0)) (fun x => x.raise run.2.2))) ∧
  (∀ (g : BitVec 3) (d a b : BitVec 6) (s : State) (c : Ctx) (s₁ : State), Starts (.vred g d a b) s c s₁ →
    let run := scanLanes b.toNat (c.code a) (lanesOf (c.lanes g)) (redIdentity b.toNat) .none
    Completes (.vred g d a b) s c (changeGroup c s₁ (fun x => (x.raise run.2.2).setS d.toNat
      (if b = 4 ∨ b = 5 then run.2.1.signExtend 64 else run.2.1.zeroExtend 64)))))

/-- R222 to R232: the FP32, packed 16-bit and converting instructions complete with the rounded results in their lanes and the
lanes' flags added to fflags. -/
def Obligations.FloatResults : Prop :=
  ∀ (i : Instr) (s : State) (c : Ctx) (s₁ : State) (g : BitVec 3) (nw : BitVec 1) (d : BitVec 6) (f : Nat → FRes),
    Starts i s c s₁ → Spec.floatLane c i = some (g, nw, d, f) →
    Completes i s c (Spec.flagsRaised c (Spec.vectorDone c s₁ g nw d.toNat (fun k => BitVec.ofNat 32 (f k).bits)) g
      (fun k => (f k).fl))

/-- R222, R233: the FP64 instructions complete with their results in a pair and the lanes' flags added to fflags; FCLASS writes the
class of each lane and raises no flag. -/
def Obligations.DoubleAndClassResults : Prop :=
  (∀ (i : Instr) (s : State) (c : Ctx) (s₁ : State) (g : BitVec 3) (nw : BitVec 1) (d : BitVec 6) (f : Nat → FRes),
    i.wf c.t.header.ever = true → Starts i s c s₁ → Spec.doubleLane c i = some (g, nw, d, f) →
    Completes i s c (Spec.flagsRaised c (Spec.pairDone c s₁ g nw d.toNat (fun k => (f k).bits)) g (fun k => (f k).fl))) ∧
  (∀ (g : BitVec 3) (nw : BitVec 1) (d a : BitVec 6) (s : State) (c : Ctx) (s₁ : State), Starts (.fclass g nw d a) s c s₁ →
    Completes (.fclass g nw d a) s c
      (Spec.vectorDone c s₁ g nw d.toNat (fun k => BitVec.ofNat 32 (fpClass fp32 (lane (c.code a) k).toNat))))

/-- R210, R213, R223: a compare completes with its condition in the mask's bits of its lanes and 0 in every other bit; an
invalid floating compare sets nv. -/
def Obligations.CompareResults : Prop :=
  ∀ (i : Instr) (s : State) (c : Ctx) (s₁ : State) (g m : BitVec 3) (f nv : Nat → Bool), Starts i s c s₁ →
    Spec.compareLane c i = some (g, m, f, nv) →
    Completes i s c (changeGroup c s₁ (fun x =>
      (x.setMask m.toNat (maskOf f &&& c.lanes g)).raise
        (if (lanesOf (c.lanes g)).any nv then FFlags.invalid else FFlags.none)))

/-! ## Frames of the register instructions -/

namespace Sys2Proof.Spec

/-- The three hint words (R183). -/
def isHint (i : Instr) : Bool :=
  match i with
  | .himm _ => true
  | .hsched _ _ _ _ => true
  | .hmod _ _ _ _ _ _ _ _ _ _ _ _ _ => true
  | _ => false

/-- The instructions of classes 0 to 3, with the hints and NOP: they work on registers, masks, flags and the pc alone. -/
def registerOnly (i : Instr) : Bool :=
  match i with
  | .nop => true
  | _ => isHint i || (match encode i with
    | some w => w.toNat / 2 ^ 29 < 4
    | none => false)

end Sys2Proof.Spec

/-- R8, R190, R208: an instruction of classes 0 to 3, a hint or NOP changes no byte of memory, sends nothing, and leaves every other
team and every other group as it was. (A group whose atomic's acquire completes at this instruction first refreshes replicas, as
R137 and R253 say: that is the atomic's effect.) -/
def Obligations.RegisterInstructionsTouchNoMemory : Prop :=
  ∀ (i : Instr) (s t : State), Spec.registerOnly i = true → exec i s = .next t →
    (∀ g, groupOf s s.cur.1 s.cur.2 = some g → g.wait ≠ some (.performed true)) →
    SameBytes s t ∧ t.flight = s.flight ∧ t.moves = s.moves ∧ t.counts = s.counts ∧ t.parts = s.parts ∧ t.grids = s.grids ∧
    t.saved = s.saved ∧ t.clusters = s.clusters ∧ t.mgmt = s.mgmt ∧
    (∀ tid, tid ≠ s.cur.1 → teamOf t tid = teamOf s tid) ∧
    (∀ gid, gid ≠ s.cur.2 → groupOf t s.cur.1 gid = groupOf s s.cur.1 gid)

/-- R190, R196: an instruction with a scalar result keeps every scalar register but its destination, every mask, latch and vector
register, fmt, fflags and the mask stack, and moves its group on as every instruction does. -/
def Obligations.ScalarFrame : Prop :=
  ∀ (i : Instr) (s : State) (c : Ctx) (s₁ : State) (d : BitVec 6) (v : DWord) (u : Team) (g : Group), Starts i s c s₁ →
    (Spec.scalarResult c s₁ i = some (d, v) ∨ Spec.immediateResult c i = some (d, v)) →
    teamOf s₁ c.tid = some u → nmGet c.gid u.groups = some g →
    ∃ t u' g', exec i s = .next t ∧ teamOf t c.tid = some u' ∧ nmGet c.gid u'.groups = some g' ∧
      (d ≠ 0 → g'.sreg d.toNat = v) ∧ (∀ n : BitVec 6, n ≠ d → g'.sreg n.toNat = g.sreg n.toNat) ∧
      g'.masks = g.masks ∧ g'.latches = g.latches ∧ g'.fmt = g.fmt ∧ g'.fflags = g.fflags ∧ g'.stack = g.stack ∧
      g'.pc = g.pc ∧ g'.rep = g.rep ∧ u'.regs = u.regs ∧ u'.desk = u.desk ∧ u'.mstat = u.mstat

/-! ## Starting an instruction, decode-time faults and exceptions -/

namespace Sys2Proof.Spec

/-- An instruction of the current group is ready: its team is resident and runs, the group does not wait, neither at its place nor for the end
of a move (R369), no check of R182 fails, and no register that it names is outstanding, fresh or shared (R40, R47). -/
def Ready (i : Instr) (s : State) (t : Team) (g : Group) : Prop :=
  teamOf s s.cur.1 = some t ∧ nmGet s.cur.2 t.groups = some g ∧
  t.stopping = false ∧ t.resident = true ∧ g.fault = none ∧ g.registered = none ∧ g.wait = none ∧ decodeFault t g i = none ∧
  (∀ n ∈ (usesWith g.hints i).names, n ∉ outstanding s s.cur.1 s.cur.2 t.core ∧ n ∉ g.fresh) ∧
  (∀ n ∈ (usesWith g.hints i).vregs, t.shared g n = none)

end Sys2Proof.Spec

/-- R182, R40, R47, R200: when an instruction of a resident, running team is well formed, has the hints it accepts, may execute in the
team's mode, names registers inside the budget, and names no register that is outstanding, fresh or shared, then it starts at
once: its group has moved to the next word outside a REPEAT, and holds no hints.
The model's readings in it: log entry 7. -/
def Obligations.ReadyInstructionStarts : Prop :=
  ∀ (i : Instr) (s : State) (t : Team) (g : Group), Spec.Ready i s t g →
    ∃ s₁ g₁, Starts i s ⟨s.cur.1, s.cur.2, t, g⟩ s₁ ∧ groupOf s₁ s.cur.1 s.cur.2 = some g₁ ∧
      g₁.hints = Hints.none ∧ g₁.wait = none ∧ (g.rep = none → g₁.pc = (g.pc + 4) % 2 ^ 48) ∧
      g₁.sregs = g.sregs ∧ g₁.masks = g.masks ∧ g₁.latches = g.latches ∧ g₁.fmt = g.fmt ∧ g₁.fflags = g.fflags ∧
      g₁.stack = g.stack

/-- R57, R179, R182, R184, R186, R189, R201, R335: the decode-time faults in their order. 0x01: a reserved value, hints that the instruction does
not accept, or an instruction that a REPEAT body may not hold. Then 0x12: a privileged instruction in user mode (a TFLUSH whose field all is
0 is none). Then 0x02: a vector register outside the group's budget. The team stops with the fault at the restart point, and nothing else happens.
The model's readings in it: log entry 13. -/
def Obligations.DecodeFaultOrder : Prop :=
  ∀ (i : Instr) (s : State) (t : Team) (g : Group) (code : Nat),
    teamOf s s.cur.1 = some t → nmGet s.cur.2 t.groups = some g →
    t.stopping = false → t.resident = true → g.fault = none → g.registered = none → g.wait = none →
    (code =
      if i.wf t.header.ever = false ∨ hintsAccepted g.hints i = false ∨ (g.rep.isSome = true ∧ bannedInRepeat i = true) then 0x01
      else if supervisorOnly i = true ∧ t.supervisor = false ∧ (∀ a b, i ≠ .tflush a b 0) then 0x12
      else if budgetOk t g (usesWith g.hints i) = false then 0x02
      else 0) → code ≠ 0 → i.encodable = true → Spec.isHint i = false →
    exec i s = .next (takeFault s s.cur.1 s.cur.2
      ⟨code, g.index, g.restart, 0, if code = 0x01 then g.m0 else g.lanesOf i, 0, 0, false, 0, some g.restart, s.nextId, true⟩)

/-- R8, R179, R185, R254, R266, R267, R393, R396: taking a fault stops the whole team from issuing; the group's pc is its restart point and its hints are
dropped, and it is held on no queue any more (R266, R267); its registers, masks, flags and latches stay, and an arrival at a barrier that is
counted stays counted; the report is of the lowest
group index, and of two faults that one group's instructions raise again, of the older instruction's; no other team and no memory changes. A
group that has stopped at a fault stays there, unless an older instruction of it faults. No instruction of a stopped team has any effect, but
the end of a release or an acquire that has begun.
The model's readings in it: log entries 11, 21, 49. -/
def Obligations.FaultEntry : Prop :=
  (∀ (s : State) (tid gid : Nat) (t : Team) (g : Group) (f : FaultInfo), teamOf s tid = some t → nmGet gid t.groups = some g →
    g.fault = none →
    ∃ t' g', teamOf (takeFault s tid gid f) tid = some t' ∧ nmGet gid t'.groups = some g' ∧
      t'.stopping = true ∧ t'.regs = t.regs ∧ t'.desk = t.desk ∧ t'.tls = t.tls ∧
      (t.pending = none → t'.pending = some f) ∧
      (∀ o, t.pending = some o → o.group ≠ f.group → t'.pending = some (if f.group < o.group then f else o)) ∧
      (∀ o, t.pending = some o → o.group = f.group → o.engine = false → f.engine = false → o.again.isSome = true → f.again.isSome = true →
        t'.pending = some (if f.order < o.order then f else o)) ∧
      g'.pc = f.restart ∧ g'.hints = Hints.none ∧ g'.fault = some f ∧ g'.sregs = g.sregs ∧ g'.masks = g.masks ∧
      g'.latches = g.latches ∧ g'.fmt = g.fmt ∧ g'.fflags = g.fflags ∧ g'.stack = g.stack ∧ g'.rep = g.rep ∧
      (∀ q ∈ t'.queues, gid ∉ q.2.pushers ∧ gid ∉ q.2.poppers) ∧ g'.registered = none ∧
      g'.arrived = g.arrived ∧ (∀ n ph, g.wait = some (.barrier n ph) → g'.wait = g.wait) ∧
      SameBytes s (takeFault s tid gid f) ∧ (∀ k, k ≠ tid → teamOf (takeFault s tid gid f) k = teamOf s k)) ∧
  (∀ (s : State) (tid gid : Nat) (g : Group) (o f : FaultInfo), groupOf s tid gid = some g → g.fault = some o →
    groupOf (takeFault s tid gid f) tid gid = some (if f.again.isSome = true ∧ f.order < o.order
      then { g with pc := f.restart, hints := Hints.none, fault := some f, wait := keepArrival g.wait, fetchTries := 0, readTries := 0,
                    registered := none, sectors := [] } else g)) ∧
  (∀ (i : Instr) (s : State) (t : Team) (g : Group), teamOf s s.cur.1 = some t → nmGet s.cur.2 t.groups = some g →
    t.stopping = true → g.wait = none → i.encodable = true → exec i s = .next s)

/-! ## One step -/

/-- R26, R171, R198, R364, R422: the step that issues a group's next instruction fetches the word at its pc and runs exec of the instruction that it decodes to, for that group;
a word that is no instruction gives 0x01, a fetch that fails its fault, and a fetch at a frame that does not take it yet waits. A device whose regulators are off takes no step but POWER_ON.
The model's readings in it: log entries 1, 13. -/
def Obligations.StepRunsDecoded : Prop :=
  (∀ (s : State) (tid gid : Nat) (rest : List Agenda) (t : Team) (g : Group), s.power = true →
    s.agenda = .issue tid gid :: rest → teamOf s tid = some t → nmGet gid t.groups = some g →
    canIssue { s with agenda := rest } tid gid = true →
    (∀ w i s', fetch { s with agenda := rest } t g = (.ok w, s') → decodeWord t.header.ever w = .ok i →
      step s = exec i { s' with cur := (tid, gid) }) ∧
    (∀ w e s', fetch { s with agenda := rest } t g = (.ok w, s') → decodeWord t.header.ever w = .error e →
      step s = .next (takeFault s' tid gid ⟨0x01, g.index, g.restart, 0, g.m0, 0, 0, false, 0, some g.restart, s'.nextId, true⟩)) ∧
    (∀ code addr s', fetch { s with agenda := rest } t g = (.fault code addr, s') →
      step s = .next (takeFault s' tid gid ⟨code, g.index, g.restart, addr, g.m0, 0, 0, false, 0, some g.restart, s'.nextId, true⟩)) ∧
    (∀ s', fetch { s with agenda := rest } t g = (.wait, s') → step s = .next s')) ∧
  (∀ (s : State), s.power = false → (∀ rest, s.agenda ≠ .event .powerOn :: rest) → step s = .fault .poweredOff)

/-! ## Memory and the scratchpad -/

namespace Sys2Proof.Spec

/-- Lanes, registers loaded, accesses, and whether replicas are passed by, for an instruction on mem without a fence around it (R236, R240 to
R245). -/
def memAccesses (c : Ctx) (i : Instr) : Option (Mask × List RegName × List Access × Bool) :=
  match i with
  | .ld g data ofs base size => some (c.lanes g, loadNames data size.toNat, c.vecAccesses (c.lanes g) data ofs base size.toNat true, c.h.far)
  | .st g data ofs base size => some (c.lanes g, [], c.vecAccesses (c.lanes g) data ofs base size.toNat false, false)
  | .sld data base size =>
      let n := sizeBytes size.toNat
      some (c.g.m0, [], [⟨0, (c.s base).toNat, n, n, .read, .scalar data.toNat size.toNat⟩], c.h.far)
  | .sst data base size =>
      let n := sizeBytes size.toNat
      some (c.g.m0, [], [⟨0, (c.s base).toNat, n, n, .write (natBytes n (c.s data).toNat), .none⟩], false)
  | .atom g data ofs base op => if c.h.ord = 0 ∧ c.h.sp = false then
      some (c.lanes g, loadNames data (if c.h.w64 then 5 else 4), c.atomAccesses (c.lanes g) data ofs base (atomOp op) false true, true) else none
  | .atomx g data ofs base op => if c.h.ord = 0 ∧ c.h.sp = false then
      some (c.lanes g, loadNames data (if c.h.w64 then 5 else 4),
        c.atomAccesses (c.lanes g) data ofs base (atomxOp op) (op = 0 || op = 2) true, true) else none
  | .red g data ofs base op => if c.h.ord = 0 then
      some (c.lanes g, [], c.atomAccesses (c.lanes g) data ofs base (atomOp op) false false, true) else none
  | .plst g data ofs base n => if c.lanes g = 0 ∨ (c.s base).toNat % 32 = 0 then
      some (c.lanes g, [], c.planeUpdates (c.lanes g) data ofs base n.toNat, false) else none
  | _ => none

/-- Lanes, registers loaded, accesses and whether they are atomics, for an instruction on the scratchpad without a fence around it (R240,
R244). -/
def spadAccesses (c : Ctx) (i : Instr) : Option (Mask × List RegName × List Access × Bool) :=
  match i with
  | .lds g data ofs base size => some (c.lanes g, loadNames data size.toNat, c.vecAccesses (c.lanes g) data ofs base size.toNat true, false)
  | .sts g data ofs base size => some (c.lanes g, [], c.vecAccesses (c.lanes g) data ofs base size.toNat false, false)
  | .atom g data ofs base op => if c.h.ord = 0 ∧ c.h.sp = true then
      some (c.lanes g, loadNames data (if c.h.w64 then 5 else 4), c.atomAccesses (c.lanes g) data ofs base (atomOp op) false true, true) else none
  | .atomx g data ofs base op => if c.h.ord = 0 ∧ c.h.sp = true then
      some (c.lanes g, loadNames data (if c.h.w64 then 5 else 4),
        c.atomAccesses (c.lanes g) data ofs base (atomxOp op) (op = 0 || op = 2) true, true) else none
  | .satom data base op => if c.h.ord = 0 then
      let n := if c.h.w64 then 8 else 4
      some (c.g.m0, [], [⟨0, (c.s base).toNat, n, n, .atom (atomOp op) c.h.w64 (c.s data) 0,
        .scalar data.toNat (if c.h.w64 then 5 else 4)⟩], true) else none
  | _ => none

/-- The state in which the translated accesses of an instruction have been sent, in ascending lane order (R44, R116). The team remembers
the point before the instruction, to which a fault that meets one of them brings the group back (R179): its registers and state, and the
shared registers that the instruction has emptied. -/
def sentUpTo (c : Ctx) (m : Mask) (l : List (Access × Xlat)) (far : Bool) (s : State) : State :=
  let emptied := c.t.full.filter (fun k => !(teamOf s c.tid).any (fun t => t.full.contains k))
  l.foldl (fun u p => submit u (c.request s.nextId m p.1 p.2 far)) (modTeam { s with nextId := s.nextId + 1 } c.tid (fun t => { t with
    marks := t.marks ++ [⟨c.gid, s.nextId, m, c.g, c.t.regs.filter (fun p => c.t.ownRow c.g p.1), emptied⟩] }))

end Sys2Proof.Spec

/-- R44, R117, R237, R240 to R248, R399, R411: an instruction on mem whose accesses pass every check completes, each lane's access having been
sent to its place in ascending lane order, up to one that a fault meets at once. It is held, with nothing done, while a PLACE `.near` of the
team is filling one of its pages, while the core has too few miss-status entries for it, or while a walk must wait. When a check
fails it takes that fault, with the lanes and the faulting address in its record, and no access is performed. An access outside its host or
peer window, or one that the window's entry does not permit, is refused with 0x05 and shows in `events`.
The model's readings in it: log entries 6, 11, 13. -/
def Obligations.MemoryInstructions : Prop :=
  (∀ (i : Instr) (s : State) (c : Ctx) (s₁ : State) (m : Mask) (names : List RegName) (l : List Access) (far : Bool), Starts i s c s₁ →
    Spec.memAccesses c i = some (m, names, l, far) →
    (∀ l' s', checkMem c l s₁ = .ok l' s' →
      ((∀ p ∈ l', placeBusy s' c p.1.addr = false) → (missEntries s' c.core).length + (missNeed s' c l' far).length ≤ 256 →
        Completes i s c (sendAll c m l' far names s')) ∧
      ((∃ p ∈ l', placeBusy s' c p.1.addr = true) ∨ 256 < (missEntries s' c.core).length + (missNeed s' c l' far).length →
        HeldAt i s c .issue s₁)) ∧
    (checkMem c l s₁ = .wait → HeldAt i s c .issue s₁) ∧
    (∀ code addr s', checkMem c l s₁ = .fault code addr s' → FaultsLeaving i s c s' code addr m)) ∧
  (∀ (c : Ctx) (m : Mask) (l : List (Access × Xlat)) (far : Bool) (names : List RegName) (s : State),
    sendAll c m [] far names s = fillResult s c.tid c.gid c.core names ∧
    (l ≠ [] → (∀ k ≤ l.length, takenBack (Spec.sentUpTo c m (l.take k) far s) c.tid c.gid s.nextId = false) →
      sendAll c m l far names s = pruneMarks (fillResult (Spec.sentUpTo c m l far s) c.tid c.gid c.core names) c.tid) ∧
    (∀ k, k < l.length → (∀ j < k, takenBack (Spec.sentUpTo c m (l.take j) far s) c.tid c.gid s.nextId = false) →
      takenBack (Spec.sentUpTo c m (l.take k) far s) c.tid c.gid s.nextId = true →
      sendAll c m l far names s = pruneMarks (Spec.sentUpTo c m (l.take k) far s) c.tid)) ∧
  (∀ (s : State) (part idx va : Nat) (need : Need) (acc : Acc), let w := windowOf s part idx
    w.kind = 1 ∨ w.kind = 2 →
    va < w.vbase ∨ w.vbase + w.size ≤ va ∨ (need = .write ∧ bitOf w.perm 1 = false) ∨ (acc = .read ∧ bitOf w.perm 0 = false) →
    windowCheck s part idx va need acc = (some 0x05, { s with mgmt := { s.mgmt with events := s.mgmt.events ||| 16 } }))

/-- R44, R47, R237, R242, R243: PLLD clears the lanes of a destination that no pairing shares, then brings in one bit of each plane word; the base of PLLD and of PLST
is aligned to 32. A plane word that fails a check afterwards gives its fault, and the destination keeps its value.
The model's reading of the address in a misaligned base's record: log entry 58. -/
def Obligations.PlaneAccess : Prop :=
  (∀ (g : BitVec 3) (data ofs base : BitVec 6) (n : BitVec 3) (s : State) (c : Ctx) (s₁ : State), Starts (.plst g data ofs base n) s c s₁ →
    c.lanes g ≠ 0 → (c.s base).toNat % 32 ≠ 0 → Faults (.plst g data ofs base n) s c 0x03 (c.s base).toNat (c.lanes g) 0 0) ∧
  ∀ (g : BitVec 3) (data ofs base : BitVec 6) (n : BitVec 3) (s : State) (c : Ctx) (s₁ : State), Starts (.plld g data ofs base n) s c s₁ →
    let l := (lanesOf (c.lanes g)).flatMap (fun k => (planesOf n.toNat).map (fun p =>
      (⟨k, c.planeAddr base ofs k p, 8, 8, .read, .plane data.toNat k p (c.planeBit ofs k)⟩ : Access)))
    let cleared := modTeam s₁ c.tid (fun t =>
      if (t.shared c.g data.toNat).isSome then t else t.setVLanes c.g data.toNat (c.lanes g) zeroLanes)
    (c.lanes g ≠ 0 → (c.s base).toNat % 32 ≠ 0 → Faults (.plld g data ofs base n) s c 0x03 (c.s base).toNat (c.lanes g) 0 0) ∧
    (c.lanes g = 0 ∨ (c.s base).toNat % 32 = 0 →
      (∀ l' s', checkMem c l cleared = .ok l' s' →
        (canSend s' c l' c.h.far = true →
          Completes (.plld g data ofs base n) s c (sendAll c (c.lanes g) l' c.h.far [.v data.toNat] s')) ∧
        (canSend s' c l' c.h.far = false → HeldAt (.plld g data ofs base n) s c .issue s₁)) ∧
      (checkMem c l cleared = .wait → HeldAt (.plld g data ofs base n) s c .issue s₁) ∧
      (∀ code addr s', checkMem c l cleared = .fault code addr s' → FaultsLeaving (.plld g data ofs base n) s c s' code addr (c.lanes g)))

/-- R44, R99, R103 to R106, R134, R237, R240, R244: an instruction on the scratchpad whose accesses pass every check, and whose lines are present,
completes with its accesses performed, those to the own scratchpad in ascending lane order and before any result reaches a register (R8), once no earlier release fence of the group holds its writes back; while
a line is absent or such a fence holds, it is held with nothing done; a check that fails gives its fault.
The model's readings in it: log entries 6, 13, 71. -/
def Obligations.ScratchpadInstructions : Prop :=
  ∀ (i : Instr) (s : State) (c : Ctx) (s₁ : State) (m : Mask) (names : List RegName) (l : List Access) (at_ : Bool), Starts i s c s₁ →
    Spec.spadAccesses c i = some (m, names, l, at_) →
    (∀ r, checkSpad s₁ c l at_ = .ok r →
      ((∀ p ∈ r, spadWait s₁ c p = none ∧ fenceWait s₁ c p = false) →
        Completes i s c (fillResult (spadLanes c m s₁.nextId r s₁) c.tid c.gid c.core names)) ∧
      (∀ w, r.findSome? (spadWait s₁ c) = some w → HeldAt i s c w s₁) ∧
      ((∀ p ∈ r, spadWait s₁ c p = none) → (∃ p ∈ r, fenceWait s₁ c p = true) → HeldAt i s c .issue s₁)) ∧
    (∀ code addr, checkSpad s₁ c l at_ = .error (code, addr) → Faults i s c code addr m 0 0)

/-- R236, R237: the first checks of an access to mem. A misaligned address of any active lane gives 0x03, whatever else is wrong, and the
record names the lowest such lane's address; then an address of more than 48 bits gives 0x05. With no active lane there is no fault. -/
def Obligations.AlignmentThenForm : Prop :=
  ∀ (c : Ctx) (l : List Access) (s : State),
    (∀ a l₁ l₂, l = l₁ ++ a :: l₂ → a.addr % a.al ≠ 0 → (∀ b ∈ l₁, b.addr % b.al = 0) → checkMem c l s = .fault 0x03 a.addr s) ∧
    (∀ a l₁ l₂, l = l₁ ++ a :: l₂ → (∀ b ∈ l, b.addr % b.al = 0) → 2 ^ 48 ≤ a.addr → (∀ b ∈ l₁, b.addr < 2 ^ 48) →
      checkMem c l s = .fault 0x05 a.addr s) ∧
    checkMem c [] s = .ok [] s

/-- R104, R111, R112, R240: a store to the own desk changes the bytes it stores to and no other byte of the desk: the bytes from the offset in the
lane's address, as many as its data has. A store to a plain home page changes the bytes of the DRAM that it stores to and no other, and reads
back. -/
def Obligations.StoreFrames : Prop :=
  (∀ (c : Ctx) (m : Mask) (instr : Nat) (s : State) (a : Access) (off : Nat) (bs : List Byte) (t : Team), teamOf s c.tid = some t →
    a.acc = .write bs → a.dest = .none →
    ∃ t', teamOf (spadLanes c m instr [(a, .desk off)] s) c.tid = some t' ∧
      (∀ x, x < off ∨ off + bs.length ≤ x → readByte t'.desk x = readByte t.desk x) ∧
      (∀ k, k < bs.length → readByte t'.desk (off + k) = bs.getD k 0) ∧
      t'.regs = t.regs ∧ t'.drawer = t.drawer ∧ t'.queues = t.queues ∧
      (spadLanes c m instr [(a, .desk off)] s).dram = s.dram) ∧
  (∀ (s s' : State) (c h off : Nat) (bs : List Byte), homeWrite s c h false off bs = some s' →
    (∀ a, a < homeAddr c h off ∨ homeAddr c h off + bs.length ≤ a → readByte s'.dram a = readByte s.dram a) ∧
    homeRead s' c h false off bs.length = some bs ∧ s'.teams = s.teams ∧ s'.cores = s.cores ∧ s'.flight = s.flight)

/-- R245, R246, R247: what an atomic on an n-bit word leaves there, `.fadd` its FP32 sum rounded to nearest; it always gives the old
value back. -/
def Obligations.AtomicOperations : Prop :=
  (∀ (op : AtomOp) (wide : Bool) (x y : DWord) (old : List Byte), old.length = (if wide then 8 else 4) →
    op ≠ .fadd →
    let n := if wide then 64 else 32
    let o : BitVec n := BitVec.ofNat n (leNat old)
    let a : BitVec n := BitVec.ofNat n x.toNat
    let b : BitVec n := BitVec.ofNat n y.toNat
    let new : Option (BitVec n) := match op with
      | .add => some (o + a)
      | .band => some (o &&& a)
      | .bor => some (o ||| a)
      | .bxor => some (o ^^^ a)
      | .smin => some (if o.sle a then o else a)
      | .smax => some (if o.sle a then a else o)
      | .xchg => some a
      | .fadd => none
      | .cas => if o = a then some b else none
      | .incw => some (if o.toNat ≥ a.toNat then 0 else o + 1)
      | .bfadd => if o.toNat + a.toNat ≤ b.toNat then some (o + a) else none
      | .minu => some (if o.toNat ≤ a.toNat then o else a)
      | .maxu => some (if o.toNat ≤ a.toNat then a else o)
    applyAcc (.atom op wide x y) old = (old, new.map (fun v => natBytes old.length v.toNat))) ∧
  (∀ (x y : DWord) (old : List Byte), old.length = 4 →
    let sum := fpAdd fp32 .rne (decodeF fp32 (leNat old)) (decodeF fp32 (x.toNat % 2 ^ 32))
    applyAcc (.atom .fadd false x y) old = (old, some (natBytes 4 sum.bits)))

namespace Sys2Proof.Spec

/-- Lanes, registers loaded and accesses of an atomic, and whether it is on the scratchpad (R244 to R247). -/
def atomicOf (c : Ctx) (i : Instr) : Option (Mask × List RegName × List Access × Bool) :=
  match i with
  | .red g data ofs base op => some (c.lanes g, [], c.atomAccesses (c.lanes g) data ofs base (atomOp op) false false, false)
  | .atom g data ofs base op => some (c.lanes g, loadNames data (if c.h.w64 then 5 else 4),
      c.atomAccesses (c.lanes g) data ofs base (atomOp op) false true, c.h.sp)
  | .atomx g data ofs base op => some (c.lanes g, loadNames data (if c.h.w64 then 5 else 4),
      c.atomAccesses (c.lanes g) data ofs base (atomxOp op) (op = 0 || op = 2) true, c.h.sp)
  | .satom data base op =>
      let n := if c.h.w64 then 8 else 4
      some (c.g.m0, [], [⟨0, (c.s base).toNat, n, n, .atom (atomOp op) c.h.w64 (c.s data) 0,
        .scalar data.toNat (if c.h.w64 then 5 else 4)⟩], true)
  | _ => none

/-- The atomic's accesses pass every check in `s` and wait for nothing; performed or sent, they leave `t`. -/
def AtomGoes (c : Ctx) (m : Mask) (names : List RegName) (l : List Access) (sp : Bool) (s t : State) : Prop :=
  if sp then ∃ r, checkSpad s c l true = .ok r ∧ (∀ p ∈ r, spadWait s c p = none ∧ fenceWait s c p = false) ∧
    t = fillResult (spadLanes c m s.nextId r s) c.tid c.gid c.core names
  else ∃ l' s', checkMem c l s = .ok l' s' ∧ canSend s' c l' true = true ∧ t = sendAll c m l' true names s'

/-- When a check of the atomic's accesses fails in `s₁`, for its group as it is in `c'`, the atomic faults with its active lanes. -/
def AtomFaults (i : Instr) (s : State) (c c' : Ctx) (m : Mask) (l : List Access) (sp : Bool) (s₁ : State) : Prop :=
  ∀ code addr, (sp = true → checkSpad s₁ c' l true = .error (code, addr) → Faults i s c code addr m 0 0) ∧
    (∀ t, sp = false → checkMem c' l s₁ = .fault code addr t → FaultsLeaving i s c t code addr m)

end Sys2Proof.Spec

/-- R188, R244, R248: an atomic with an order, on mem or on the scratchpad, waits for nothing else than its fences: a release fence goes before
it, once it is known that it can go on, and an acquire after it holds the group's next instruction until its reads are performed. One whose
accesses fail a check closes no phase. RED takes no acquire: with one it gives 0x01. A scope above `.sys` is reserved in the HMOD that names it.
The model's readings in it: log entries 6, 13. -/
def Obligations.OrderedAtomics : Prop :=
  (∀ (i : Instr) (s : State) (c : Ctx) (s₁ : State) (m : Mask) (names : List RegName) (l : List Access) (sp : Bool), Starts i s c s₁ →
    Spec.atomicOf c i = some (m, names, l, sp) → (2 ≤ c.h.scope → placedHome s₁ c = true) →
    (c.h.ord = 1 →
      (∀ t, Spec.AtomGoes c m names l sp s₁ t → Completes i s c (ordAfter c t)) ∧
      Spec.AtomFaults i s c c m l sp s₁) ∧
    (2 ≤ c.h.ord →
      let c₁ : Ctx := { c with g := { c.g with fences := ⟨c.g.fences.any + 1, if 2 ≤ c.h.scope then c.g.fences.wide + 1 else c.g.fences.wide,
        if c.h.scope = 4 then s₁.nextId else c.g.fences.sys⟩ } }
      Spec.AtomFaults i s c c₁ m l sp s₁ ∧
      (∀ s₂ g₂ u t, Spec.AtomGoes c₁ m names l sp s₁ u → fence c false true c.h.scope s₁ = .done s₂ → groupOf s₂ c.tid c.gid = some g₂ →
        let c₂ : Ctx := { c with g := { c.g with phase := g₂.phase, fences := g₂.fences } }
        Spec.AtomGoes c₂ m names l sp s₂ t → Completes i s c (ordAfter c₂ t)))) ∧
  (∀ (i : Instr) (s : State) (c : Ctx) (s₁ : State) (m : Mask) (names : List RegName) (l : List Access) (sp : Bool), Starts i s c s₁ →
    Spec.atomicOf c i = some (m, names, l, sp) → c.h.ord ≠ 0 → 2 ≤ c.h.scope → placedHome s₁ c = false → HeldAt i s c .issue s₁) ∧
  (∀ (gd op : BitVec 3) (data ofs base : BitVec 6) (s : State) (t : Team) (g : Group), teamOf s s.cur.1 = some t →
    nmGet s.cur.2 t.groups = some g → t.stopping = false → t.resident = true → g.fault = none → g.registered = none → g.wait = none → g.hints.ord % 2 = 1 →
    exec (.red gd data ofs base op) s = .next (takeFault s s.cur.1 s.cur.2
      ⟨0x01, g.index, g.restart, 0, g.m0, 0, 0, false, 0, some g.restart, s.nextId, true⟩)) ∧
  (∀ (ever : Nat) (xd : BitVec 6) (xe sos peek far w64 sp : BitVec 1) (ord : BitVec 2) (scope : BitVec 3) (sat rme : BitVec 1)
    (rnd tie : BitVec 2), 5 ≤ scope.toNat → (Instr.hmod xd xe sos peek far w64 sp ord scope sat rme rnd tie).wf ever = false)

/-- R249, R399, R402: PLACE names the pages that hold its bytes, up to the first 512 of them, in ascending order and leaving out the pool window and what
lies outside mem; it completes having asked for each page's move in that order. PLACE `.near` is held while one of its pages is a replicated
page of a frame with a commit in progress (R374), or, by the model's choice, with a load of the core on its way to that frame (log entry 97); with
no commit and no load of the core in flight, or with another place, a PLACE that is ready completes.
The model's readings in it: log entries 5, 50, 97. -/
def Obligations.PlaceInstruction : Prop :=
  (∀ a n v : Nat, v ∈ placePages a n ↔
    (∃ b, a ≤ b ∧ b < a + n ∧ b / 4096 = v) ∧ v < a / 4096 + 512 ∧ v < 2 ^ 36 ∧ inPool (v * 4096) = false) ∧
  (∀ a n : Nat, (placePages a n).Pairwise (· < ·)) ∧
  (∀ (len base : BitVec 6) (wh : BitVec 3) (s : State) (c : Ctx) (s₁ : State), Starts (.place len base wh) s c s₁ →
    (wh = 0 → ∀ v ∈ placePages (c.s base).toNat (c.s len).toNat, replicaWaits s₁ c v = false) →
    Completes (.place len base wh) s c ((placePages (c.s base).toNat (c.s len).toNat).foldl (placeOne c wh.toNat) s₁)) ∧
  (∀ (len base : BitVec 6) (s : State) (c : Ctx) (s₁ : State), Starts (.place len base 0) s c s₁ →
    (∃ v ∈ placePages (c.s base).toNat (c.s len).toNat, replicaWaits s₁ c v = true) → HeldAt (.place len base 0) s c .issue s₁) ∧
  (∀ (s : State) (c : Ctx) (v : Nat), replicaWaits s c v = true ↔ ∃ l, leafNow s c.t.part c.t.aspace (v * 4096) = some l ∧ l.rep ≠ 0 ∧
    isFrame l.place = true ∧ ((∃ m ∈ s.flight, ∃ r off w b, m.2 = .commit r off w b ∧ r.place = l.place) ∨
      (∃ m ∈ s.flight, ∃ r, (m.2 = .mem r ∨ ∃ k, m.2 = .sector r k) ∧ r.core = c.core ∧ r.acc = .read ∧ r.place = l.place ∧
        (r.far = false ∨ l.rep ≠ 2)))) ∧
  (∀ (len base : BitVec 6) (wh : BitVec 3) (s : State) (t : Team) (g : Group), Spec.Ready (.place len base wh) s t g →
    (wh = 0 → ∀ m ∈ s.flight, ∀ r, (∀ off w b, m.2 ≠ .commit r off w b) ∧
      (m.2 = .mem r ∨ (∃ k, m.2 = .sector r k) → r.core ≠ t.core ∨ r.acc ≠ .read)) →
    let c : Ctx := ⟨s.cur.1, s.cur.2, t, g⟩
    ∃ s₁, Starts (.place len base wh) s c s₁ ∧
      exec (.place len base wh) s = .next (retire ((placePages (g.sreg base.toNat).toNat (g.sreg len.toNat).toNat).foldl
        (placeOne c wh.toNat) s₁) t.core s.cur.1 s.cur.2))

namespace Sys2Proof.Spec

/-- The state after the reads that an instruction performs at once: their bounces count anew from here (R369). -/
def readDone (c : Ctx) (s : State) : State := changeGroup c s (fun g => { g with readTries := 0 })

end Sys2Proof.Spec

/-- R117, R130, R250, R369: WAITA reads its word at the place the entry names, once there is a miss-status entry for it and after the group's own
accesses to it; when the condition holds it completes with the word in its register,
having passed a yield point; otherwise its group waits, and WAITA_REREAD tries again. A read that waits for a sector keeps a miss-status entry
for it; one that bounces is counted, and at the eighth the group registers at the place and waits for the end of the move there.
The model's reading of the yield point: log entry 59. -/
def Obligations.WaitOnAddress : Prop :=
  ∀ (data base : BitVec 6) (uns wide : BitVec 1) (cond : BitVec 3) (s : State) (c : Ctx) (s₁ : State) (acc : Access) (x : Xlat)
    (s₂ s₃ : State) (bs : List Byte), Starts (.waita data uns wide base cond) s c s₁ →
    checkMem c [⟨0, (c.s base).toNat, if wide = 1 then 8 else 4, if wide = 1 then 8 else 4, .read, .none⟩] s₁ = .ok [(acc, x)] s₂ →
    (placeBusy s₂ c (c.s base).toNat = true ∨ entryFree s₂ (c.plainRequest acc x) = false → HeldAt (.waita data uns wide base cond) s c .issue s₂) ∧
    (placeBusy s₂ c (c.s base).toNat = false → entryFree s₂ (c.plainRequest acc x) = true →
    heldBack s₂ (c.plainRequest acc x) s₂.nextId = false →
    (perform s₂ (c.plainRequest acc x) = .done s₃ bs →
      let w : BitVec 1 := if wide = 1 then 0 else 1
      let v : Int := sOperand (BitVec.ofNat 64 (leNat bs)) uns w
      if intCond cond.toNat v (sOperand (c.s data) uns w) then
        Completes (.waita data uns wide base cond) s c
          (passYield (changeGroup c (Spec.readDone c s₃) (fun g => g.setS data.toNat (sResult v uns w))) c.tid c.gid)
      else HeldAt (.waita data uns wide base cond) s c (.waita (c.s base).toNat) (Spec.readDone c s₃)) ∧
    (perform s₂ (c.plainRequest acc x) = .waits →
      let sec := (c.s base).toNat % 4096 / 16
      let l := if lacks s₂ x.place x.ten sec then [(x.place, x.ten, sec)] else []
      HeldAt (.waita data uns wide base cond) s c (.waita (c.s base).toNat) (changeGroup c s₂ (fun g => { g with sectors := l }))) ∧
    (perform s₂ (c.plainRequest acc x) = .bounced →
      let at_ := (c.plainRequest acc x).at_
      let u := bounceBack s₂ c.core c.t.aspace (c.s base).toNat
      let reg (g : Group) := if 8 ≤ g.readTries + 1 then some ((moveAt s₂ at_).getD 0, at_) else g.registered
      HeldAt (.waita data uns wide base cond) s c (.waita (c.s base).toNat)
        (changeGroup c u (fun g => { g with readTries := g.readTries + 1, registered := reg g }))))

/-! ## Ordering, timelines, barriers, queues and exchanges -/

/-- R114, R134, R141, R152, R249, R251, R253: FENCE waits for the pages of earlier PLACE `.home` to be at home (scopes `.clu` and wider). A release
kind closes the write phase and begins a new epoch of the group's writes (for pool accesses at the same scopes; at `.sys` peers must have
acknowledged what it covers), and waits while three phases are open. An acquire kind waits while a read is outstanding (those of the pool
window count at these scopes); an acquire of these scopes refreshes the core's loose replicas.
The model's readings in it: log entries 50, 77. -/
def Obligations.FenceInstruction : Prop :=
  (∀ (scope : BitVec 3) (kind : BitVec 2) (s : State) (c : Ctx) (s₁ s₂ : State), Starts (.fence scope kind) s c s₁ →
    c.g.wait = none → (2 ≤ scope.toNat → placedHome s₁ c = true) →
    let cleared := if 2 ≤ scope.toNat then changeGroup c s₁ (fun g => { g with placeHome := [] }) else s₁
    (if kind.getLsbD 1 then (∃ id s', openRelease cleared c.tid c.gid (scope = 4) = some (id, s') ∧
      s₂ = changeGroup c s' (fun g => { g with fences := ⟨g.fences.any + 1, if 2 ≤ scope.toNat then g.fences.wide + 1 else g.fences.wide,
        if scope = 4 then s'.nextId else g.fences.sys⟩ }))
      else s₂ = cleared) →
    if kind.getLsbD 0 then
      if readsOut s₂ c.tid c.gid (2 ≤ scope.toNat) then HeldAt (.fence scope kind) s c (.acquire (2 ≤ scope.toNat)) s₂
      else Completes (.fence scope kind) s c (if 2 ≤ scope.toNat then refreshReplicas s₂ c.core 0 else s₂)
    else Completes (.fence scope kind) s c s₂) ∧
  (∀ (scope : BitVec 3) (kind : BitVec 2) (s : State) (c : Ctx) (s₁ : State), Starts (.fence scope kind) s c s₁ → c.g.wait = none →
    let cleared := if 2 ≤ scope.toNat then changeGroup c s₁ (fun g => { g with placeHome := [] }) else s₁
    (2 ≤ scope.toNat → placedHome s₁ c = false → HeldAt (.fence scope kind) s c .placeHome s₁) ∧
    ((2 ≤ scope.toNat → placedHome s₁ c = true) → kind.getLsbD 1 = true → openRelease cleared c.tid c.gid (scope = 4) = none →
      HeldAt (.fence scope kind) s c (.release 0) cleared))

/-- R117, R133, R237, R252, R253: ACQ reads its object at its place, refreshes the loose replicas of the binding in bits 7:0 unless it is 0, and
writes the object to its register. REL closes the write phase; when that release has completed it adds 1 to the object's sequence
and completes, and while it has not its group waits for it. Both wait before issue while no miss-status entry is free. A check of the object's address that fails gives its fault.
The model's readings in it: log entries 11, 57, 77. -/
def Obligations.AcquireAndRelease : Prop :=
  (∀ (a d : BitVec 6) (scope : BitVec 3) (s : State) (c : Ctx) (s₁ : State) (acc : Access) (x : Xlat) (s₂ s₃ : State) (bs : List Byte),
    Starts (.acq a d scope) s c s₁ →
    checkMem c [⟨0, (c.s a).toNat, 8, 8, .read, .none⟩] s₁ = .ok [(acc, x)] s₂ →
    placeBusy s₂ c (c.s a).toNat = false → entryFree s₂ (c.plainRequest acc x) = true →
    heldBack s₂ (c.plainRequest acc x) s₂.nextId = false → perform s₂ (c.plainRequest acc x) = .done s₃ bs →
    Completes (.acq a d scope) s c
      (changeGroup c (if leNat bs % 256 = 0 then Spec.readDone c s₃ else refreshReplicas (Spec.readDone c s₃) c.core (leNat bs % 256))
        (fun g => g.setS d.toNat (BitVec.ofNat 64 (leNat bs))))) ∧
  (∀ (a : BitVec 6) (scope : BitVec 3) (s : State) (c : Ctx) (s₁ : State) (acc : Access) (x : Xlat) (s₂ s₃ : State) (id : Nat) (g : Group),
    Starts (.rel a scope) s c s₁ → c.g.wait = none →
    checkMem c [⟨0, (c.s a).toNat, 8, 8, .relBump, .none⟩] s₁ = .ok [(acc, x)] s₂ → canSend s₂ c [(acc, x)] true = true →
    openRelease s₂ c.tid c.gid (scope = 4) = some (id, s₃) → groupOf s₃ c.tid c.gid = some g →
    if (g.release id).isSome then HeldAt (.rel a scope) s c (.release id) s₃
    else
      let s₄ := sendAll { c with g := { c.g with phase := g.phase } } c.g.m0 [(acc, x)] true [] s₃
      Completes (.rel a scope) s c (if readsOut s₄ c.tid c.gid false = true ∧ takenBack s₄ c.tid c.gid s₄.nextId = false then
        changeGroup c s₄ (fun g => { g with wait := some (.performed false) }) else s₄)) ∧
  (∀ (i : Instr) (a d : BitVec 6) (scope : BitVec 3) (s : State) (c : Ctx) (s₁ s₂ : State) (acc : Access) (x : Xlat), Starts i s c s₁ →
    (i = .acq a d scope ∧ checkMem c [⟨0, (c.s a).toNat, 8, 8, .read, .none⟩] s₁ = .ok [(acc, x)] s₂ ∧
        (placeBusy s₂ c (c.s a).toNat = true ∨ entryFree s₂ (c.plainRequest acc x) = false) ∨
      i = .rel a scope ∧ c.g.wait = none ∧ checkMem c [⟨0, (c.s a).toNat, 8, 8, .relBump, .none⟩] s₁ = .ok [(acc, x)] s₂ ∧
        canSend s₂ c [(acc, x)] true = false) →
    HeldAt i s c .issue s₂) ∧
  (∀ (i : Instr) (a d : BitVec 6) (scope : BitVec 3) (s : State) (c : Ctx) (s₁ s' : State) (code addr : Nat),
    (i = .acq a d scope ∧ checkMem c [⟨0, (c.s a).toNat, 8, 8, .read, .none⟩] s₁ = .fault code addr s' ∨
      i = .rel a scope ∧ checkMem c [⟨0, (c.s a).toNat, 8, 8, .relBump, .none⟩] s₁ = .fault code addr s') →
    Starts i s c s₁ → FaultsLeaving i s c s' code addr c.g.m0) ∧
  (∀ old : List Byte, applyAcc .relBump old = (old, some (natBytes 8 (leNat old + 256))))

/-- R48, R49, R255, R256: TLWAIT with a count of 0 completes at once; with a count that the timeline has reached it completes and passes a
yield point; otherwise its group waits. TLGET gives the last number handed out. When a number completes on a timeline whose value is
the number before it, the value moves on over it; a number ahead of its turn leaves the value; and the value never falls.
The model's reading of the yield point of a count that is reached already: log entry 59. -/
def Obligations.TimelineInstructions : Prop :=
  ((∀ (a : BitVec 6) (tl : BitVec 3) (s : State) (c : Ctx) (s₁ : State), Starts (.tlwait a tl) s c s₁ →
    let n := if c.h.count = 0 then (c.s a).toNat else c.h.imm.toNat
    if n = 0 then Completes (.tlwait a tl) s c s₁
    else if n ≤ (c.t.tl tl.toNat).value then Completes (.tlwait a tl) s c (passYield s₁ c.tid c.gid)
    else HeldAt (.tlwait a tl) s c (.timeline tl.toNat n) s₁) ∧
  (∀ (d : BitVec 6) (tl : BitVec 3) (s : State) (c : Ctx) (s₁ : State), Starts (.tlget d tl) s c s₁ →
    Completes (.tlget d tl) s c (changeGroup c s₁ (fun g => g.setS d.toNat (BitVec.ofNat 64 (c.t.tl tl.toNat).handed))))) ∧
  (∀ (x : Timeline) (k : Nat), x.early.contains (x.value + 1) = false →
    x.value ≤ (x.complete k).value ∧ (k = x.value + 1 → x.value < (x.complete k).value) ∧
    (k ≠ x.value + 1 → (x.complete k).value = x.value) ∧ (x.complete k).handed = x.handed)

/-- R261, R262: BARALLOC takes the lowest free number for a participant mask, or gives status 1 when none is free; a mask of no group or of an
index beyond the header's gives 0x0C.
The model's reading of the fault's record: log entry 13. -/
def Obligations.BarrierAllocation : Prop :=
  ∀ (d p : BitVec 6) (s : State) (c : Ctx) (s₁ : State), Starts (.baralloc d p) s c s₁ →
    let m : Word := (c.s p).truncate 32
    (m = 0 ∨ 2 ^ c.t.header.gmax ≤ m.toNat → Faults (.baralloc d p) s c 0x0C 0 c.g.m0 0 0) ∧
    (m ≠ 0 → m.toNat < 2 ^ c.t.header.gmax → nmFree c.t.bars c.t.header.nbar = none →
      Completes (.baralloc d p) s c (changeGroup c s₁ (fun g => g.setS d.toNat 1))) ∧
    (∀ n, m ≠ 0 → m.toNat < 2 ^ c.t.header.gmax → nmFree c.t.bars c.t.header.nbar = some n →
      Completes (.baralloc d p) s c
        (changeGroup c (modTeam s₁ c.tid (fun t => { t with bars := nmPut n ⟨m, 0, [], [], 0⟩ t.bars }))
          (fun g => g.setS d.toNat (BitVec.ofNat 64 (n * 256)))))

namespace Sys2Proof.Spec

/-- A group of the team other than the issuing one is held on barrier `n`. -/
def HeldOnBarrier (c : Ctx) (n : Nat) : Prop :=
  ∃ p ∈ c.t.groups, p.1 ≠ c.gid ∧ ∃ ph, p.2.wait = some (.barrier n ph) ∨ p.2.wait = some (.bararr n ph)

end Sys2Proof.Spec

/-- R264, R267: BARARR, BARWAIT and BARSYNC raise 0x0C when their operand names no allocated barrier of the team, or one whose mask leaves out the
group's index. BARFREE gives 3 while a live member has an uncompleted arrival or any group is held on the barrier; otherwise it frees the
barrier and gives 0; of a number that is not allocated it raises 0x0C. QFREE gives 3 while the queue has an entry or any group is held on it;
otherwise it frees the queue and gives 0. A queue instruction whose operand names no allocated queue of the team raises 0x0C. -/
def Obligations.BarrierAndQueueMisuse : Prop :=
  (∀ (i : Instr) (b : BitVec 6) (s : State) (c : Ctx) (s₁ : State), i = .bararr b ∨ i = .barwait b ∨ i = .barsync b → Starts i s c s₁ →
    (c.barrier b = none ∨ (∃ n x, c.barrier b = some (n, x) ∧ x.mask.getLsbD c.g.index = false)) → Spec.Raises i s c 0x0C) ∧
  (∀ (d b : BitVec 6) (s : State) (c : Ctx) (s₁ : State), Starts (.barfree d b) s c s₁ →
    (c.barrier b = none → Spec.Raises (.barfree d b) s c 0x0C) ∧
    (∀ n x, c.barrier b = some (n, x) →
      ((∃ k ∈ c.t.live x, k ∈ x.arrived) ∨ Spec.HeldOnBarrier c n →
        Completes (.barfree d b) s c (changeGroup c s₁ (fun g => g.setS d.toNat 3))) ∧
      (¬ ((∃ k ∈ c.t.live x, k ∈ x.arrived) ∨ Spec.HeldOnBarrier c n) →
        Completes (.barfree d b) s c (changeGroup c (modTeam s₁ c.tid (fun t => { t with
          bars := nmDel n t.bars, groups := t.groups.map (fun p => (p.1, { p.2 with arrived := nmDel n p.2.arrived })) }))
          (fun g => g.setS d.toNat 0))))) ∧
  (∀ (d q : BitVec 6) (s : State) (c : Ctx) (s₁ : State) (n : Nat) (x : Queue), Starts (.qfree d q) s c s₁ → c.queue q = some (n, x) →
    if 0 < x.e ∨ x.pushers ≠ [] ∨ x.poppers ≠ [] then Completes (.qfree d q) s c (changeGroup c s₁ (fun g => g.setS d.toNat 3))
    else Completes (.qfree d q) s c (changeGroup c (modTeam s₁ c.tid (fun t => { t with queues := nmDel n t.queues }))
      (fun g => g.setS d.toNat 0))) ∧
  (∀ (i : Instr) (q : BitVec 6) (s : State) (c : Ctx) (s₁ : State),
    (∃ x, i = .qfree x q ∨ i = .qgrant q x ∨ i = .qpush q x ∨ i = .qpop x q ∨ ∃ y z, i = .qtry x q y z) →
    Starts i s c s₁ → c.queue q = none → Spec.Raises i s c 0x0C)

namespace Sys2Proof.Spec

/-- The instruction is held at a barrier: its group keeps its place and waits at `w`, and the barrier unit then checks the team (R398). -/
def HeldAtBarrier (i : Instr) (s : State) (c : Ctx) (w : Wait) (s₂ : State) : Prop :=
  exec i s = .next (checkDeadlock (conclude c s (.hold w s₂)) c.tid)

end Sys2Proof.Spec

/-- R262, R263, R398: BARARR records the group's arrival in the present phase, and is held while an earlier arrival of its own has not
completed; BARWAIT and BARSYNC complete when the phase of the arrival has completed and the accesses before it are performed
(R135), and are held while it has not; BARSYNC too is held first while an earlier arrival has not completed, and its own arrival stands while
it is held. A phase completes exactly when someone has
arrived and every member of its live set has; its number then goes up by one and its arrivals are cleared.
The model's readings in it: log entries 21, 59. -/
def Obligations.BarrierWaits : Prop :=
  ((∀ (b : BitVec 6) (s : State) (c : Ctx) (s₁ : State) (n : Nat) (x : Barrier), Starts (.bararr b) s c s₁ →
    c.barrier b = some (n, x) → x.mask.getLsbD c.g.index = true →
    ((∀ ph, nmGet n c.g.arrived = some ph → ph < x.phase) → Completes (.bararr b) s c (arrive c n x s₁)) ∧
    (∀ ph, nmGet n c.g.arrived = some ph → x.phase ≤ ph → Spec.HeldAtBarrier (.bararr b) s c (.bararr n ph) s₁)) ∧
  (∀ (b : BitVec 6) (s : State) (c : Ctx) (s₁ : State) (n : Nat) (x : Barrier), Starts (.barwait b) s c s₁ →
    c.barrier b = some (n, x) → x.mask.getLsbD c.g.index = true →
    (nmGet n c.g.arrived = none → Completes (.barwait b) s c (passYield s₁ c.tid c.gid)) ∧
    (∀ ph t y, nmGet n c.g.arrived = some ph → teamOf s₁ c.tid = some t → nmGet n t.bars = some y →
      (ph < y.phase → settledBefore s₁ c.tid y.mark = true → Completes (.barwait b) s c (passYield s₁ c.tid c.gid)) ∧
      (y.phase ≤ ph ∨ settledBefore s₁ c.tid y.mark = false → Spec.HeldAtBarrier (.barwait b) s c (.barrier n ph) s₁))) ∧
  (∀ (b : BitVec 6) (s : State) (c : Ctx) (s₁ : State) (n : Nat) (x y : Barrier) (t : Team), Starts (.barsync b) s c s₁ →
    c.barrier b = some (n, x) → x.mask.getLsbD c.g.index = true → c.g.wait = none →
    ((∀ ph, nmGet n c.g.arrived = some ph → ph < x.phase) →
      teamOf (arrive c n x s₁) c.tid = some t → nmGet n t.bars = some y →
      (x.phase < y.phase → settledBefore (arrive c n x s₁) c.tid y.mark = true →
        Completes (.barsync b) s c (passYield (arrive c n x s₁) c.tid c.gid)) ∧
      (y.phase ≤ x.phase ∨ settledBefore (arrive c n x s₁) c.tid y.mark = false →
        Spec.HeldAtBarrier (.barsync b) s c (.barrier n x.phase) (arrive c n x s₁))) ∧
    (∀ ph, nmGet n c.g.arrived = some ph → x.phase ≤ ph → Spec.HeldAtBarrier (.barsync b) s c (.bararr n ph) s₁))) ∧
  (∀ (i : Instr) (b : BitVec 6) (s : State) (t : Team) (g : Group) (n : Nat) (x : Barrier), Spec.Ready i s t g →
    let c : Ctx := ⟨s.cur.1, s.cur.2, t, g⟩
    c.barrier b = some (n, x) → x.mask.getLsbD g.index = true →
    (i = .bararr b → (∀ ph, nmGet n g.arrived = some ph → ph < x.phase) →
      ∃ s₁, Starts i s c s₁ ∧ exec i s = .next (retire (arrive c n x s₁) t.core s.cur.1 s.cur.2)) ∧
    (i = .barwait b → (nmGet n g.arrived = none ∨ ∃ ph, nmGet n g.arrived = some ph ∧ ph < x.phase ∧ s.flight = []) →
      ∃ s₁, Starts i s c s₁ ∧ exec i s = .next (retire (passYield s₁ s.cur.1 s.cur.2) t.core s.cur.1 s.cur.2)) ∧
    (i = .barsync b → (∀ ph, nmGet n g.arrived = some ph → ph < x.phase) → (∀ k ∈ t.live x, k = g.index ∨ k ∈ x.arrived) → s.flight = [] →
      ∃ s₁, Starts i s c s₁ ∧ exec i s = .next (retire (passYield (arrive c n x s₁) s.cur.1 s.cur.2) t.core s.cur.1 s.cur.2))) ∧
  (∀ (t : Team) (mark : Nat) (b : Barrier),
    (b.arrived ≠ [] → (∀ k ∈ t.live b, k ∈ b.arrived) →
      (t.completeBarrier mark b).phase = b.phase + 1 ∧ (t.completeBarrier mark b).arrived = []) ∧
    (b.arrived = [] ∨ (∃ k ∈ t.live b, k ∉ b.arrived) → t.completeBarrier mark b = b))

/-- R265, R266: QALLOC takes the lowest free number for a ring in the desk, or gives status 1; a ring that is misaligned, outside the
desk, of no or of more than 4,096 entries, or an allowance above the capacity gives 0x0C. QGRANT adds to the
allowance within the capacity, else 0x0C.
The model's reading of the fault's record: log entry 13. -/
def Obligations.QueueAllocation : Prop :=
  (∀ (d a cc : BitVec 6) (s : State) (c : Ctx) (s₁ : State), Starts (.qalloc d a cc) s c s₁ →
    let off := (c.s a).toNat
    let cap := (c.s cc).toNat % 2 ^ 16
    let al := (c.s cc).toNat / 2 ^ 16
    let ok := off % 4 = 0 ∧ off < 2 ^ 18 ∧ off + 4 * cap ≤ c.t.header.desk ∧ 1 ≤ cap ∧ cap ≤ 4096 ∧ al ≤ cap
    (¬ok → Faults (.qalloc d a cc) s c 0x0C 0 c.g.m0 0 0) ∧
    (ok → nmFree c.t.queues c.t.header.nque = none →
      Completes (.qalloc d a cc) s c (changeGroup c s₁ (fun g => g.setS d.toNat 1))) ∧
    (∀ n, ok → nmFree c.t.queues c.t.header.nque = some n →
      Completes (.qalloc d a cc) s c (changeGroup c (setQueue s₁ c.tid n ⟨off, cap, 0, 0, al, [], [], []⟩)
        (fun g => g.setS d.toNat (BitVec.ofNat 64 (n * 256)))))) ∧
  (∀ (q k : BitVec 6) (s : State) (c : Ctx) (s₁ : State), Starts (.qgrant q k) s c s₁ →
    (∀ n x, c.queue q = some (n, x) →
      if (c.s k).toNat < 2 ^ 16 ∧ x.a + x.e + (c.s k).toNat ≤ x.cap then
        Completes (.qgrant q k) s c (setQueue s₁ c.tid n { x with a := x.a + (c.s k).toNat })
      else Faults (.qgrant q k) s c 0x0C 0 c.g.m0 0 0))

namespace Sys2Proof.Spec

/-- The oldest entry of a queue can be taken: it is there, the accesses before its push are performed (R135), and the line of its ring
word is present (R106). -/
def Poppable (s : State) (tid : Nat) (x : Queue) : Prop :=
  0 < x.e ∧ settledBefore s tid (x.marks.headD 0) = true ∧ (∀ t, teamOf s tid = some t → t.present (x.off + 4 * x.head) 4 = true)

end Sys2Proof.Spec

/-- R106, R135, R265, R266: a push with an allowance whose group stands first appends its handle and takes one of the allowance; a pop with an entry
whose group stands first takes the oldest handle and passes a yield point; otherwise the group waits in order. QTRY never overtakes a waiting
group: status 0 when it did its work, 2 for no allowance, 1 for no entry; with an entry that cannot be taken yet it is held before issue.
The model's readings in it: log entries 21, 59, 60, 61. -/
def Obligations.QueueTransfers : Prop :=
  (∀ (q h : BitVec 6) (s : State) (c : Ctx) (s₁ : State) (n : Nat) (x : Queue), Starts (.qpush q h) s c s₁ → c.queue q = some (n, x) →
    if 0 < x.a ∧ (x.pushers = [] ∨ x.pushers.head? = some c.gid) then
      Completes (.qpush q h) s c (pushQueue s₁ c.tid n { x with pushers := x.pushers.filter (· ≠ c.gid) } (c.s h))
    else HeldAt (.qpush q h) s c (.qpush n) (setQueue s₁ c.tid n { x with pushers := waitIn x.pushers c.gid })) ∧
  (∀ (d q : BitVec 6) (s : State) (c : Ctx) (s₁ : State) (n : Nat) (x : Queue), Starts (.qpop d q) s c s₁ → c.queue q = some (n, x) →
    (Spec.Poppable s₁ c.tid x ∧ (x.poppers = [] ∨ x.poppers.head? = some c.gid) →
      let r := popQueue s₁ c.tid n { x with poppers := x.poppers.filter (· ≠ c.gid) }
      Completes (.qpop d q) s c (passYield (changeGroup c r.2 (fun g => g.setS d.toNat (BitVec.ofNat 64 r.1))) c.tid c.gid)) ∧
    (¬ (Spec.Poppable s₁ c.tid x ∧ (x.poppers = [] ∨ x.poppers.head? = some c.gid)) → HeldAt (.qpop d q) s c (.qpop n) (setQueue s₁ c.tid n { x with poppers := waitIn x.poppers c.gid }))) ∧
  (∀ (d q h : BitVec 6) (s : State) (c : Ctx) (s₁ : State) (n : Nat) (x : Queue), c.queue q = some (n, x) →
    (Starts (.qtry d q h 1) s c s₁ → Completes (.qtry d q h 1) s c (if 0 < x.a ∧ x.pushers = [] then
      changeGroup c (pushQueue s₁ c.tid n x (c.s h)) (fun g => g.setS d.toNat 0)
      else changeGroup c s₁ (fun g => g.setS d.toNat 2))) ∧
    (Starts (.qtry d q h 0) s c s₁ →
      (Spec.Poppable s₁ c.tid x ∧ x.poppers = [] → Completes (.qtry d q h 0) s c (changeGroup c (popQueue s₁ c.tid n x).2
        (fun g => (g.setS h.toNat (BitVec.ofNat 64 (popQueue s₁ c.tid n x).1)).setS d.toNat 0))) ∧
      (0 < x.e → x.poppers = [] → ¬ Spec.Poppable s₁ c.tid x → HeldAt (.qtry d q h 0) s c .issue s₁) ∧
      (x.e = 0 ∨ x.poppers ≠ [] → Completes (.qtry d q h 0) s c (changeGroup c s₁ (fun g => g.setS d.toNat 1)))))

namespace Sys2Proof.Spec

/-- What XWAIT waits for (R270): every other core that it names has sent its close and as many deliveries as the close says, nothing that the core sent to
itself is missing, no other core's close is there, and the lines of the phase's drawer bytes are present. -/
def XwaitMet (c : Ctx) (all : List Nat) : Prop :=
  c.t.gang = true ∧ c.t.exch.arrived = true ∧
  (∀ y ∈ c.t.exch.closes, y.2.1 = c.t.exch.phase → y.1 ∈ all.filter (· ≠ c.core)) ∧
  (∀ k ∈ all.filter (· ≠ c.core), (∃ n, (k, c.t.exch.phase, n) ∈ c.t.exch.closes) ∧
    phaseCount c.t.exch.arrivals k c.t.exch.phase = phaseCount c.t.exch.closes k c.t.exch.phase) ∧
  phaseCount c.t.exch.arrivals c.core c.t.exch.phase = phaseCount c.t.exch.sends c.core c.t.exch.phase ∧
  (∀ b ∈ c.t.drawer, b.phase = c.t.exch.phase → c.t.lineAbsent (b.off / 128) = false)

/-- What XWAIT does then (R270, R271): the drawer's bytes of the phase go into the desk and the phase goes up by one. -/
def xwaitDone (c : Ctx) (s : State) : State :=
  passYield (modTeam s c.tid (fun t =>
    let t := t.merge c.t.exch.phase
    { t with exch := { t.exch with phase := (c.t.exch.phase + 1) % 4, arrived := false,
                                   sends := dropPhase t.exch.sends c.t.exch.phase,
                                   arrivals := dropPhase t.exch.arrivals c.t.exch.phase,
                                   closes := dropPhase t.exch.closes c.t.exch.phase } })) c.tid c.gid

end Sys2Proof.Spec

/-- R268, R269, R332: XARR of a gang's team sends a close to every other core that it names, with the number of deliveries it sent there in the
phase, and later sends carry the next phase. XWAIT, when the named cores' closes and counts are met and the lines are present, merges the drawer's bytes of the phase into the
desk, and the phase goes up by one; it is held while they are not. Both give 0x14 outside a gang and for a mask that names an empty entry or
has a bit above 7; a second XARR of a phase, an XWAIT before any, and an XWAIT that finds a close of a core that it does not name give it too,
and so does an XARR that leaves out a core to which the team has sent in the phase.
The model's readings in it: log entries 13, 21, 51, 59. -/
def Obligations.ExchangeInstructions : Prop :=
  (∀ (m : BitVec 6) (s : State) (c : Ctx) (s₁ : State) (all : List Nat), Starts (.xarr m) s c s₁ → c.t.named (c.s m) = some all →
    c.t.gang = true → c.t.exch.arrived = false →
    (∀ y ∈ c.t.exch.sends, y.2.1 = c.t.exch.phase → y.2.2 ≠ 0 → y.1 = c.core ∨ y.1 ∈ all) →
    Completes (.xarr m) s c ((all.filter (· ≠ c.core)).foldl (fun s k =>
      let n := phaseCount c.t.exch.sends k c.t.exch.phase
      if (popHold s).1 || !settledBefore (popHold s).2 c.tid (popHold s).2.nextId then
        post (popHold s).2 (.xclose c.t.grid c.core k c.t.exch.phase n)
      else takeXclose (popHold s).2 c.t.grid c.core k c.t.exch.phase n)
      (modTeam s₁ c.tid (fun t => { t with exch := { t.exch with arrived := true } })))) ∧
  (∀ (m : BitVec 6) (s : State) (c : Ctx) (s₁ : State) (all : List Nat), Starts (.xwait m) s c s₁ → c.t.named (c.s m) = some all →
    Spec.XwaitMet c all → Completes (.xwait m) s c (Spec.xwaitDone c s₁)) ∧
  (∀ (i : Instr) (m : BitVec 6) (s : State) (c : Ctx) (s₁ : State), i = .xarr m ∨ i = .xwait m → Starts i s c s₁ →
    c.t.named (c.s m) = none ∨ c.t.gang = false ∨ c.t.exch.arrived = (match i with | .xarr _ => true | _ => false) →
    Faults i s c 0x14 0 c.g.m0 0 0) ∧
  (∀ (m : BitVec 6) (s : State) (c : Ctx) (s₁ : State) (all : List Nat), Starts (.xwait m) s c s₁ → c.t.named (c.s m) = some all →
    c.t.gang = true → c.t.exch.arrived = true →
    ((∃ y ∈ c.t.exch.closes, y.2.1 = c.t.exch.phase ∧ (y.1 = c.core ∨ y.1 ∉ all)) → Faults (.xwait m) s c 0x14 0 c.g.m0 0 0) ∧
    ((∀ y ∈ c.t.exch.closes, y.2.1 = c.t.exch.phase → y.1 ≠ c.core ∧ y.1 ∈ all) → ¬ Spec.XwaitMet c all →
      HeldAt (.xwait m) s c .xwait s₁)) ∧
  (∀ (m : BitVec 6) (s : State) (c : Ctx) (s₁ : State) (all : List Nat), Starts (.xarr m) s c s₁ → c.t.named (c.s m) = some all →
    (∃ y ∈ c.t.exch.sends, y.2.1 = c.t.exch.phase ∧ y.2.2 ≠ 0 ∧ y.1 ≠ c.core ∧ y.1 ∉ all) → Faults (.xarr m) s c 0x14 0 c.g.m0 0 0)

/-! ## Engine commands and the creation of work -/

namespace Sys2Proof.Spec

/-- The kind, destination, card operand and timeline of an engine command (R272). -/
def engineOf (i : Instr) : Option (EngineKind × BitVec 6 × BitVec 6 × BitVec 3) :=
  match i with
  | .copy d a tl => some (.copy, d, a, tl)
  | .halo d a tl => some (.halo, d, a, tl)
  | .mcast d a tl => some (.mcast, d, a, tl)
  | .dcmpStream d a tl => some (.dcmp, d, a, tl)
  | .coll d a tl => some (.coll, d, a, tl)
  | _ => none

/-- The checks of R273 on a card, by its command: a code, an address and the state that the check leaves; code 0 where a walk must wait. -/
def cardFault (s : State) (t : Team) (kind : EngineKind) (card : List Byte) : Option (Nat × Nat × State) :=
  match kind with
  | .dcmp => (checkDcmp s t card).map (fun e => (e.1, e.2, s))
  | .coll => checkColl s t card
  | k => (checkCopy s t k (copyCard card)).map (fun e => (e.1, e.2, s))

/-- The command that an issue puts in flight under the timeline's next number (R48, R272). -/
def newCmd (c : Ctx) (kind : EngineKind) (tl off mark collK rel : Nat) (landed : Bool) (card : List Byte) : Cmd :=
  { kind := kind, tl := tl, num := (c.t.tl tl).handed + 1, group := c.gid, card := card, cardOff := off,
    phase := if c.t.exch.arrived then (c.t.exch.phase + 1) % 4 else c.t.exch.phase, mark := mark, landed := landed,
    stopped := false, failed := none, sent := [], stat := 0, collK := collK, relId := rel, rowsDone := 0, spoilt := false,
    issuer := c.gid, decoded := none }

/-- The state in which a command is in flight: its number is handed out and lies in sD, its sends are counted (R269) and its own
desk lines are absent (R106). -/
def issued (c : Ctx) (s : State) (kind : EngineKind) (d : BitVec 6) (tl : Nat) (cmd : Cmd) (more : Nat) : State :=
  let s := modTeam s c.tid (fun t => { (t.tlnext tl).2 with cmds := t.cmds ++ [cmd], colls := t.colls + more })
  let s := changeGroup c s (fun g => g.setS d.toNat (BitVec.ofNat 64 cmd.num))
  hideLines (countSends s c.t kind cmd.card) c.t kind cmd.card tl cmd.num

/-- A COLL of clusters `clm` takes part in a collective of its grid with the same place among its team's COLLs, when that names its cluster or has
a participant on a cluster of `clm` (R282, R284). -/
def matched (c : Ctx) (x : Coll) (clm : Nat) : Bool :=
  x.grid = c.t.grid && x.k = c.t.colls && (x.named.testBit (clusterOfCore c.core) || x.clusters.any (fun q => clm.testBit q))

/-- A command runs as far as it can at once unless the agenda holds it; the destination of one that does more than copy bytes is undefined
until it completes (R147). -/
def runNow (s : State) (tid tl num : Nat) : State :=
  spoilCmd (if (popHold s).1 then (popHold s).2 else runCmd (popHold s).2 tid tl num) tid tl num

end Sys2Proof.Spec

/-- R147, R272, R273, R281, R282, R284, R331, R411: an engine command whose card lies present and aligned in the own desk, and passes the checks of its table, completes at
once, with the timeline's next number in sD and the command in flight; it runs on by itself, its destination undefined until it completes
if it does more than copy bytes (R147). The command waits at issue while the team has 64 in flight, and at an absent card line. A COLL over clusters takes its place among the grid's collectives: the unit of its cluster
must be free or already hold it, else the COLL is held. Kind 4 also opens a release of the group, and is held while three are open. A refusal
of the port die shows in `events`.
The model's readings in it: log entries 1, 4, 13, 23, 24, 25, 76. -/
def Obligations.EngineIssue : Prop :=
  (∀ (i : Instr) (kind : EngineKind) (d a : BitVec 6) (tl : BitVec 3) (s : State) (c : Ctx) (s₁ : State), Starts i s c s₁ →
    Spec.engineOf i = some (kind, d, a, tl) →
    (64 ≤ c.t.cmds.length → HeldAt i s c .issue s₁) ∧
    (c.t.cmds.length < 64 →
      (ownDesk s₁ c.t (c.s a).toNat 64 = none → Faults i s c 0x05 (c.s a).toNat c.g.m0 0 0) ∧
      (∀ off, ownDesk s₁ c.t (c.s a).toNat 64 = some off →
        ((c.s a).toNat % 64 ≠ 0 → Faults i s c 0x03 (c.s a).toNat c.g.m0 0 0) ∧
        ((c.s a).toNat % 64 = 0 → c.t.present off 64 = false → HeldAt i s c (.line off) s₁) ∧
        ((c.s a).toNat % 64 = 0 → c.t.present off 64 = true →
          let card := readBytes c.t.desk off 64
          (∀ addr s', Spec.cardFault s₁ c.t kind card = some (0, addr, s') → HeldAt i s c .issue s₁) ∧
          (∀ code addr s', Spec.cardFault s₁ c.t kind card = some (code, addr, s') → code ≠ 0 → FaultsLeaving i s c s' code addr c.g.m0) ∧
          (Spec.cardFault s₁ c.t kind card = none → (kind = .coll → (collCard card).clm = 0) →
            let run := Spec.runNow (Spec.issued c s₁ kind d tl.toNat
              (Spec.newCmd c kind tl.toNat off s₁.nextId (2 ^ 64) 0 (kind = .coll || (kind = .mcast && (copyCard card).tgt = 0)) card) 0)
              c.tid tl.toNat ((c.t.tl tl.toNat).handed + 1)
            Completes i s c (if kind = .coll then endIdle run else run)))))) ∧
  (∀ (d a : BitVec 6) (tl : BitVec 3) (s : State) (c : Ctx) (s₁ s₂ : State) (off rel : Nat),
    Starts (.coll d a tl) s c s₁ → c.t.cmds.length < 64 → ownDesk s₁ c.t (c.s a).toNat 64 = some off → (c.s a).toNat % 64 = 0 →
    let card := readBytes c.t.desk off 64
    c.t.present off 64 = true → checkColl s₁ c.t card = none → (collCard card).clm ≠ 0 →
    let cl := clusterOfCore c.core
    let mine (x : Coll) : Bool := Spec.matched c x (collCard card).clm
    (s₁.colls.any (fun x => mine x && x.clusters.contains cl) = true ∨ (s₁.colls.filter (fun x => x.clusters.contains cl)).length < 256) →
    (if (collCard card).kind = 4 then openRelease s₁ c.tid c.gid ((collCard card).peers ≠ 0) = some (rel, s₂) else rel = 0 ∧ s₂ = s₁) →
    let num := (c.t.tl tl.toNat).handed + 1
    let s₃ := Spec.issued c s₂ .coll d tl.toNat (Spec.newCmd c .coll tl.toNat off s₂.nextId c.t.colls rel false card) 1
    let met := s₃.colls.filter mine
    let s₄ : State := { s₃ with
      grids := nmModify c.t.grid (fun g => { g with colls := nmPut c.t.index (c.t.colls + 1) g.colls }) s₃.grids
      colls := s₃.colls.filter (fun x => !mine x) ++ [{
        grid := c.t.grid, k := c.t.colls, clusters := (met.flatMap (·.clusters) ++ [cl]).eraseDups,
        issued := met.flatMap (·.issued) ++ [(c.tid, tl.toNat, num)], named := met.foldl (fun m x => m ||| x.named) (collCard card).clm }] }
    Completes (.coll d a tl) s c (endIdle (Spec.runNow s₄ c.tid tl.toNat num))) ∧
  (∀ (d a : BitVec 6) (tl : BitVec 3) (s : State) (c : Ctx) (s₁ : State) (off : Nat),
    Starts (.coll d a tl) s c s₁ → c.t.cmds.length < 64 → ownDesk s₁ c.t (c.s a).toNat 64 = some off → (c.s a).toNat % 64 = 0 →
    let card := readBytes c.t.desk off 64
    c.t.present off 64 = true → checkColl s₁ c.t card = none → (collCard card).clm ≠ 0 →
    let cl := clusterOfCore c.core
    let full := s₁.colls.any (fun x => Spec.matched c x (collCard card).clm && x.clusters.contains cl) = false ∧
      256 ≤ (s₁.colls.filter (fun x => x.clusters.contains cl)).length
    (full → HeldAt (.coll d a tl) s c .unit s₁) ∧
    (¬ full → (collCard card).kind = 4 → openRelease s₁ c.tid c.gid ((collCard card).peers ≠ 0) = none →
      HeldAt (.coll d a tl) s c .issue s₁))

/-- R32, R34 to R36, R285: SPAWN and REBIN put each active lane's word and payload into the bin of its key, in ascending lane order; the lanes of a REBIN leave
their group for good. An entry that is misaligned or not executable gives 0x13.
The model's readings in it: log entries 21, 33. -/
def Obligations.SpawnAndRebin : Prop :=
  (∀ (e p : BitVec 6) (g : BitVec 3) (s : State) (c : Ctx) (s₁ : State), Starts (.spawn e p g) s c s₁ →
    if entryBad s₁ c (c.s e) true then Faults (.spawn e p g) s c 0x13 0 (c.lanes g) 0 0
    else Completes (.spawn e p g) s c ((lanesOf (c.lanes g)).foldl (fun s k =>
      deposit s c.core ⟨c.tid, false, (c.s e).toNat % 2 ^ 32, 0, 0, 0, 0, 0, []⟩
        ⟨BitVec.ofNat 32 (32 * c.g.index + k), (List.range 4).map (fun j => lane (c.v (p.toNat + j)) k)⟩) s₁)) ∧
  (∀ (key e p : BitVec 6) (g : BitVec 3) (s : State) (c : Ctx) (s₁ : State), Starts (.rebin key e p g) s c s₁ →
    let km : Word := BitVec.ofNat 32 ((c.s e).toNat / 2 ^ 32)
    if entryBad s₁ c (c.s e) false then Faults (.rebin key e p g) s c 0x13 0 (c.lanes g) 0 0
    else Completes (.rebin key e p g) s c (changeGroup c ((lanesOf (c.lanes g)).foldl (fun s k =>
      deposit s c.core ⟨c.tid, true, (c.s e).toNat % 2 ^ 32, km, lane (c.v key.toNat) k &&& km, 0, 0, 0, []⟩
        ⟨lane (c.v key.toNat) k, (List.range 4).map (fun j => lane (c.v (p.toNat + j)) k)⟩) s₁)
      (fun x => { x.setMask 0 (x.m0 &&& ~~~(c.lanes g)) with
        stack := x.stack.map (fun y => { y with sm0 := y.sm0 &&& ~~~(c.lanes g), cond := y.cond &&& ~~~(c.lanes g) }) })))

/-- R286, R287, R379, R390: LAUNCH of an acceptable record creates a child grid and gives its name with status 0; beyond depth 8 the status
is 1, with a full queue 2, and no child is created; a refused record gives 0x13 with its reason, and a record or a kernel header that cannot
be read the fault of its read with the record's or the header's address. WAITCH gives status 1 for a grid that is no child of
the team, the child's end status once it has ended and its writes are performed, and waits before.
The model's readings in it: log entries 13, 21, 32, 59. -/
def Obligations.LaunchInstruction : Prop :=
  (∀ (d r : BitVec 6) (s : State) (c : Ctx) (s₁ : State), Starts (.launch d r) s c s₁ →
    ((c.s r).toNat % 64 ≠ 0 → Faults (.launch d r) s c 0x13 0 c.g.m0 2 0) ∧
    (∀ s', (c.s r).toNat % 64 = 0 → readRecord c s₁ (c.s r).toNat 64 = .held s' → HeldAt (.launch d r) s c .issue s') ∧
    (∀ code addr s', (c.s r).toNat % 64 = 0 → readRecord c s₁ (c.s r).toNat 64 = .bad code addr s' →
      FaultsLeaving (.launch d r) s c s' code (c.s r).toNat c.g.m0) ∧
    (∀ b s₂ desc s₃, (c.s r).toNat % 64 = 0 → readRecord c s₁ (c.s r).toNat 64 = .done s₂ b →
      descriptor s₂ c.t.part (parseRecord b).aspace = (desc, s₃) →
      (bitOf desc 0 = false → Faults (.launch d r) s c 0x13 0 c.g.m0 3 0) ∧
      (∀ code addr s', bitOf desc 0 = true →
        devRead s₃ c.t.part (parseRecord b).aspace (clusterOfCore c.core) (!c.t.supervisor) (parseRecord b).kern 64 = .fault code addr s' →
        FaultsLeaving (.launch d r) s c s' code (parseRecord b).kern c.g.m0) ∧
      (∀ hb s₄, bitOf desc 0 = true →
        devRead s₃ c.t.part (parseRecord b).aspace (clusterOfCore c.core) (!c.t.supervisor) (parseRecord b).kern 64 = .ok hb s₄ →
        let why := refusal s₄ c.t.part (parseRecord b) (parseHeader hb)
        (why ≠ 0 → Faults (.launch d r) s c 0x13 0 c.g.m0 why 0) ∧
        (why = 0 → (parseRecord b).supervisor = true → Faults (.launch d r) s c 0x13 0 c.g.m0 8 0) ∧
        (why = 0 → (parseRecord b).supervisor = false →
          (8 < gridDepth s₄ c.t.grid + 1 → Completes (.launch d r) s c (changeGroup c s₄ (fun g => g.setS d.toNat 1))) ∧
          (gridDepth s₄ c.t.grid + 1 ≤ 8 → 1024 ≤ queued s₄ c.t.part false →
            Completes (.launch d r) s c (changeGroup c s₄ (fun g => g.setS d.toNat 2))) ∧
          (gridDepth s₄ c.t.grid + 1 ≤ 8 → queued s₄ c.t.part false < 1024 →
            let id := (nextGridId s₄ c.t.part).1
            let s₅ := (nextGridId s₄ c.t.part).2
            let s₆ := changeGroup c (modTeam (addGrid s₅ c.t.part id (parseRecord b) (parseHeader hb) false
                (gridDepth s₄ c.t.grid + 1) c.tid s₅.nextId) c.tid (fun t => { t with children := t.children ++ [⟨id, none⟩] }))
              (fun g => g.setS d.toNat (BitVec.ofNat 64 (id * 2 ^ 32)))
            Completes (.launch d r) s c
              (dispatchPart (if (parseRecord b).cls = 0 then preemptReserve s₆ c.t.part else s₆) c.t.part)))))) ∧
  (∀ (d g : BitVec 6) (s : State) (c : Ctx) (s₁ : State), Starts (.waitch d g) s c s₁ →
    let id := (c.s g).toNat % 2 ^ 32
    let give (v : Nat) : Prop := Completes (.waitch d g) s c
      (passYield (changeGroup c s₁ (fun x => x.setS d.toNat (BitVec.ofNat 64 v))) c.tid c.gid)
    (c.t.children.find? (fun x => x.grid = id) = none → give 1) ∧
    (∀ x, c.t.children.find? (fun x => x.grid = id) = some x →
      (x.status = none → HeldAt (.waitch d g) s c (.waitch id) s₁) ∧
      (∀ v, x.status = some v → (∀ gr, nmGet (gridKey c.t.part id) s₁.grids = some gr → gridSettled s₁ gr = true) → give v)))

/-! ## Classes 10 and 12: the tray, the tiles, the array and the predicates -/

namespace Sys2Proof.Spec

/-- What an instruction on the matrix port other than MMQ finds (R291, R299): every earlier quarter has reached the array. -/
def atPort (c : Ctx) (s : State) (t : Team) (s' : State) : Prop := s' = flushArray s c.core ∧ teamOf s' c.tid = some t

/-- The slot or the tile of a team that an operand names (R293). -/
def slotNamed (c : Ctx) (t : Team) (r : BitVec 6) : Option Slot := if (c.s r).toNat < 64 then t.slotAt (c.s r).toNat else none
def tileNamed (c : Ctx) (t : Team) (r : BitVec 6) : Option Tile := if (c.s r).toNat < 256 then t.tileAt (c.s r).toNat else none

/-- The kind of element that `fmt` selects (R90, R313). -/
def accKind (f : Word) : Nat := if fmtAccf f = 1 then 2 else 1

/-- The operand by which element (r, j) of a slot takes part in CUPD (R308): 1 in the count column. -/
def cupdTerm (c : Ctx) (t : Team) (sl : Slot) (r j : Nat) (cc : BitVec 6) : FVal :=
  if j = cc.toNat then .fin false 1 0 else slotElem sl.data (fmtAf c.g.fmt) (t.codebook (fmtCba c.g.fmt)) r j

end Sys2Proof.Spec

/-- R294, R295: TCLAIM gives a new empty slot or tile with the lowest free number of its core, or status 1 beyond the header's count or when
none is free; TREL gives one back once nothing writes it. A number that the team does not hold gives 0x08.
The model's readings in it: log entries 30, 31. -/
def Obligations.TrayClaims : Prop :=
  (∀ (d : BitVec 6) (s : State) (c : Ctx) (s₁ s₂ : State) (t : Team), Starts (.tclaim d 0) s c s₁ → Spec.atPort c s₁ t s₂ →
    let free := lowestFree 64 ((teamsOn s₂ c.core).flatMap (fun u => u.slots.map (·.phys)))
    (t.header.tslot ≤ t.slots.length ∨ free = none →
      Completes (.tclaim d 0) s c (changeGroup c s₂ (fun g => g.setS d.toNat 1))) ∧
    (∀ ph, t.slots.length < t.header.tslot → free = some ph → (∀ x ∈ t.slots, x.num ≠ ph) →
      Completes (.tclaim d 0) s c (changeGroup c (modTeam s₂ c.tid (fun u => { u with slots := u.slots ++ [⟨ph, ph, []⟩] }))
        (fun g => g.setS d.toNat (BitVec.ofNat 64 (ph * 256)))))) ∧
  (∀ (d : BitVec 6) (s : State) (c : Ctx) (s₁ s₂ : State) (t : Team), Starts (.tclaim d 1) s c s₁ → Spec.atPort c s₁ t s₂ →
    let free := lowestFree Config.accTiles ((teamsOn s₂ c.core).flatMap (fun u => u.tiles.map (·.phys)))
    (t.header.atile ≤ t.tiles.length ∨ free = none →
      Completes (.tclaim d 1) s c (changeGroup c s₂ (fun g => g.setS d.toNat 1))) ∧
    (∀ ph, t.tiles.length < t.header.atile → free = some ph → (∀ x ∈ t.tiles, x.num ≠ ph) →
      Completes (.tclaim d 1) s c (changeGroup c (modTeam s₂ c.tid (fun u =>
          { u with tiles := u.tiles ++ [⟨ph, ph, [], [], 0, 0, [], 0, []⟩] }))
        (fun g => g.setS d.toNat (BitVec.ofNat 64 (ph * 256)))))) ∧
  (∀ (n : BitVec 6) (s : State) (c : Ctx) (s₁ s₂ : State) (t : Team), Starts (.trel n 0) s c s₁ → Spec.atPort c s₁ t s₂ →
    (Spec.slotNamed c t n = none → Faults (.trel n 0) s c 0x08 0 c.g.m0 0 0) ∧
    (∀ x, Spec.slotNamed c t n = some x →
      if t.cmds.any (fun y => y.fillsSlot x.num) = true then HeldAt (.trel n 0) s c .mat s₂
      else Completes (.trel n 0) s c (modTeam s₂ c.tid (fun u => { u with slots := u.slots.filter (fun y => y.num ≠ x.num) })))) ∧
  (∀ (n : BitVec 6) (s : State) (c : Ctx) (s₁ s₂ : State) (t : Team), Starts (.trel n 1) s c s₁ → Spec.atPort c s₁ t s₂ →
    (Spec.tileNamed c t n = none → Faults (.trel n 1) s c 0x08 0 c.g.m0 0 0) ∧
    (∀ x, Spec.tileNamed c t n = some x →
      if (coreOf s₂ c.core).drains.any (fun d => d.team = c.tid && d.tile = x.num) = true then HeldAt (.trel n 1) s c .mat s₂
      else Completes (.trel n 1) s c (modTeam s₂ c.tid (fun u => { u with tiles := u.tiles.filter (fun y => y.num ≠ x.num) }))))

/-- R296, R297, R301, R309, R312, R313: MZERO empties a tile; MFILL loads one from the desk, an FP32 word exactly, with a row flag for a NaN or
an infinity; CBLD loads a codebook and drops the products built from it; MENC writes each value's code; MSTAT reads the
status, or reads and clears it, or reads the wake latency; MMQ hands its quarters to the passes. An instruction that reaches a tile over a worn
Shelf bond may meet an error there (R427, R428), 0x15.
The model's readings in it: log entries 4, 26, 31, 54. -/
def Obligations.MatrixPortInstructions : Prop :=
  (∀ (tr : BitVec 6) (s : State) (c : Ctx) (s₁ s₂ : State) (t : Team), Starts (.mzero tr) s c s₁ → Spec.atPort c s₁ t s₂ →
    (Spec.tileNamed c t tr = none → Faults (.mzero tr) s c 0x08 0 c.g.m0 0 0) ∧
    (∀ x u, Spec.tileNamed c t tr = some x → meetEcc s₂ c.core true = (false, u) →
      Completes (.mzero tr) s c (modTeam u c.tid (fun u => u.setTile x.num
        ⟨x.num, x.phys, [], [], 0, 0, [], BitVec.allOnes 64, x.recs⟩))) ∧
    (∀ x u, Spec.tileNamed c t tr = some x → meetEcc s₂ c.core true = (true, u) → FaultsLeaving (.mzero tr) s c u 0x15 0 c.g.m0)) ∧
  (∀ (tr a : BitVec 6) (s : State) (c : Ctx) (s₁ s₂ u : State) (t : Team) (x : Tile) (off : Nat),
    Starts (.mfill tr a) s c s₁ → Spec.atPort c s₁ t s₂ → Spec.tileNamed c t tr = some x → fmtAccf c.g.fmt ≤ 1 →
    (c.s a).toNat % 128 = 0 → ownDesk s₂ t (c.s a).toNat 16384 = some off → t.present off 16384 = true →
    meetEcc s₂ c.core true = (false, u) →
    let bs := readBytes t.desk off 16384
    let word (i : Nat) : Nat := leNat ((bs.drop (4 * i)).take 4)
    ∃ (tile : Tile) (f : Nat), Completes (.mfill tr a) s c (modTeam { u with free := f } c.tid (fun u => u.setTile x.num tile)) ∧
      tile.num = x.num ∧ tile.phys = x.phys ∧ (∀ r, r < 64 → nmGet r tile.kinds = some (Spec.accKind c.g.fmt)) ∧ tile.colFlags = 0 ∧ tile.valid = BitVec.allOnes 64 ∧
      tile.shadow = tile.elems ∧
      (∀ r j, r < 64 → j < 64 →
        (fmtAccf c.g.fmt = 1 → tile.elem r j = BitVec.ofNat 34 (word (64 * r + j))) ∧
        (fmtAccf c.g.fmt = 0 → (decodeF fp32 (word (64 * r + j))).finite = true →
          tile.elem r j = BitVec.ofNat 34 (roundVal extFmt .rne (decodeF fp32 (word (64 * r + j)))).bits)) ∧
      (∀ r, r < 64 → tile.rowFlags.getLsbD r =
        (fmtAccf c.g.fmt = 0 && (List.range 64).any (fun j => !(decodeF fp32 (word (64 * r + j))).finite)))) ∧
  (∀ (k a : BitVec 6) (s : State) (c : Ctx) (s₁ s₂ : State) (t : Team) (off : Nat), Starts (.cbld k a 1) s c s₁ → Spec.atPort c s₁ t s₂ →
    (c.s a).toNat % 32 = 0 → ownDesk s₂ t (c.s a).toNat 32 = some off → (c.s k).toNat < 16 → t.present off 32 = true →
    Completes (.cbld k a 1) s c (loadCodebook s₂ c (c.s k).toNat (readBytes t.desk off 32))) ∧
  (∀ (k a : BitVec 6) (s : State) (c : Ctx) (s₁ s₂ s₃ s₄ : State) (t : Team) (l : List (Access × Xlat)) (bs : List Byte),
    Starts (.cbld k a 0) s c s₁ → Spec.atPort c s₁ t s₂ → (c.s a).toNat % 32 = 0 → (c.s k).toNat < 16 →
    checkMem { c with t := t } ((List.range 16).map (fun i => ⟨i, (c.s a).toNat + 2 * i, 2, 2, .read, .none⟩)) s₂ = .ok l s₃ →
    canSend s₃ { c with t := t } l false = true →
    readAtOnce { c with t := t } (l.map (fun p => ({ c with t := t } : Ctx).request 0 c.g.m0 p.1 p.2 false)) s₃ = .done s₄ bs →
    Completes (.cbld k a 0) s c (loadCodebook s₄ c (c.s k).toNat bs)) ∧
  (∀ (d sl k : BitVec 6) (s : State) (c : Ctx) (s₁ s₂ : State) (t : Team) (x y : Slot), Starts (.menc d sl k) s c s₁ → Spec.atPort c s₁ t s₂ →
    Spec.slotNamed c t d = some x → Spec.slotNamed c t sl = some y → (c.s k).toNat < 16 →
    ∃ data : Memory, Completes (.menc d sl k) s c (modTeam s₂ c.tid (fun u => u.setSlot x.num data)) ∧
      (∀ r j, r < 64 → j < 64 → c4Code data r j = mencCode
        ((List.range 16).map (fun n => decodeF bf16 (((t.codebook (c.s k).toNat).getD n 0)).toNat)) (slotElem y.data 0 [] r j)) ∧
      (∀ b, 2048 ≤ b → readByte data b = readByte x.data b)) ∧
  (∀ (d : BitVec 6) (sel : BitVec 2) (s : State) (c : Ctx) (s₁ s₂ : State) (t : Team), Starts (.mstat d sel) s c s₁ → Spec.atPort c s₁ t s₂ →
    ((coreOf s₂ c.core).drains.any (fun x => x.team = c.tid) = true → HeldAt (.mstat d sel) s c .mat s₂) ∧
    ((coreOf s₂ c.core).drains.any (fun x => x.team = c.tid) = false →
      Completes (.mstat d sel) s c (changeGroup c (if sel = 1 then modTeam s₂ c.tid (fun u => { u with mstat := 0 }) else s₂)
        (fun g => g.setS d.toNat (if sel = 2 then BitVec.ofNat 64 Config.wakeLatency else BitVec.ofNat 64 t.mstat.toNat))))) ∧
  (∀ (a b : BitVec 6) (p : BitVec 6) (qmask : BitVec 4) (metric : BitVec 2) (s : State) (c : Ctx) (s₁ : State),
    Starts (.mmq a b p qmask metric) s c s₁ →
    (mmqQuarters c a b p qmask metric = none → Faults (.mmq a b p qmask metric) s c 0x08 0 c.g.m0 0 0) ∧
    (∀ qs u, mmqQuarters c a b p qmask metric = some qs → (if qs = [] then u = s₁ else meetEcc s₁ c.core true = (false, u)) →
      Completes (.mmq a b p qmask metric) s c (modCore u c.core (fun x =>
        qs.foldl (fun x q => joinPass x (cycleAt s₁ c.core) q) (closeDue x (cycleAt s₁ c.core))))) ∧
    (∀ qs u, mmqQuarters c a b p qmask metric = some qs → qs ≠ [] → meetEcc s₁ c.core true = (true, u) →
      FaultsLeaving (.mmq a b p qmask metric) s c u 0x15 0 c.g.m0))

namespace Sys2Proof.Spec

/-- An element of the tile as modes 1 to 4 of MDRAIN convert it (R304). -/
def offered (x : Tile) (int : Bool) (fmt : Word) (i j : Nat) : Nat := (convElem x int fp32 fmt i j).1
/-- The element is a candidate of its row (R305). -/
def Candidate (x : Tile) (int : Bool) (fmt : Word) (i j : Nat) : Prop :=
  x.flagged i j = false ∧ (int = true ∨ (decodeF fp32 (offered x int fmt i j)).isNaN = false)
/-- The pair is the best candidate of row i (R305): no other candidate has a better value, nor an equal one with an index that the tie-break
prefers. `hi`: the higher index. -/
def BestOfRow (x : Tile) (int max hi : Bool) (fmt : Word) (ofs i : Nat) (b : Best) : Prop :=
  ∃ j, j < 64 ∧ Candidate x int fmt i j ∧ b = ⟨(j + ofs) % 2 ^ 32, offered x int fmt i j⟩ ∧
    ∀ j', j' < 64 → j' ≠ j → Candidate x int fmt i j' →
      betterVal int max (offered x int fmt i j') b.val = false ∧
      (betterVal int max b.val (offered x int fmt i j') = false →
        if hi then (j' + ofs) % 2 ^ 32 < b.idx else b.idx < (j' + ofs) % 2 ^ 32)
/-- The pair of row i in a best list as a drain writes it (R303). -/
def bestAt (d : DrainOp) (i : Nat) : Best :=
  if d.dst = 6 then ⟨(lane (d.regs.getD (i / 32) zeroLanes) (i % 32)).toNat, (lane (d.regs.getD (2 + i / 32) zeroLanes) (i % 32)).toNat⟩
  else ⟨leNat ((d.out.drop (4 * i)).take 4), leNat ((d.out.drop (256 + 4 * i)).take 4)⟩
/-- The running best of row i that stands in the destination before MDRAIN (R305). -/
def standing (c : Ctx) (t : Team) (a : BitVec 6) (reg : Bool) (off i : Nat) : Best :=
  if reg then ⟨(lane (t.vreg c.g (a.toNat + i / 32)) (i % 32)).toNat, (lane (t.vreg c.g (a.toNat + 2 + i / 32)) (i % 32)).toNat⟩
  else ⟨readLE t.desk (off + 4 * i) 4, readLE t.desk (off + 256 + 4 * i) 4⟩
/-- The mean of element (i, j) of a tile over the count in column cc (R306), in a target format. -/
def meanAt (x : Tile) (f : Fmt) (fmt : Word) (cc i j : Nat) : Nat :=
  let n := decodeF extFmt (x.elem i cc).toNat
  let e := decodeF extFmt (x.elem i j).toNat
  if x.flagged i j = true ∨ x.flagged i cc = true ∨ n.finite = false then canonNaN f
  else if j = cc then (roundVal f (fmtDrnd fmt) n).bits
  else if n.isZero then zeroBits f false
  else
    let q := fpDiv f (fmtDrnd fmt) e n
    if fmtSat fmt = true ∧ (q.fl.ovf = true ∨ e.isNaN = false ∧ e.finite = false) then maxBits f (e.neg != n.neg) else q.bits
/-- The copies of a row with a valid shadow differ outside the flagged columns (R95, R313). -/
def Differs (x : Tile) (i : Nat) : Prop :=
  x.valid.getLsbD i = true ∧ ∃ j, j < 64 ∧ x.flagged i j = false ∧ nmGetD x.elems (64 * i + j) 0 ≠ nmGetD x.shadow (64 * i + j) 0

end Sys2Proof.Spec

/-- R91, R93, R95, R298, R303 to R308, R313: what a quarter adds to its eight rows, and that it leaves the others; what CUPD adds to the rows that
it names, and that it leaves the others; what a drain converts and where it writes: the elements, the best candidate of each row over the
running best that stands in the destination, or the mean. A drain to the desk is held while an earlier release fence of its group or the lines of
a running best hold it back; a row whose copies differ gives 0x07, the first such row in the record. A row that holds the other kind of
element has values that the spec does not state.
The model's readings in it: log entries 4, 27, 31, 54, 55. -/
def Obligations.MatrixArithmetic : Prop :=
  (∀ (t : Team) (q : Quarter) (seed : Nat) (sa sb : Slot) (x : Tile), t.slotAt q.a = some sa → t.slotAt q.b = some sb →
    t.tileAt q.tile = some x → q.row + 8 ≤ 64 →
    let av (r k : Nat) : FVal := slotElem sa.data (fmtAf q.fmt) (t.codebook (fmtCba q.fmt)) r k
    let bv (k j : Nat) : FVal := slotElem sb.data (fmtBf q.fmt) (t.codebook (fmtCbb q.fmt)) k j
    ∃ y : Tile, (applyQuarter t q seed).tileAt q.tile = some y ∧
      (∀ r j, r < 64 → j < 64 → (r < q.row ∨ q.row + 8 ≤ r) → y.elem r j = x.elem r j ∧ y.rowFlags.getLsbD r = x.rowFlags.getLsbD r) ∧
      (∀ r j, q.row ≤ r → r < q.row + 8 → j < 64 → nmGetD x.kinds r (Spec.accKind q.fmt) = Spec.accKind q.fmt →
        (∀ k, k < 64 → q.ks ≤ k → (av r k).finite = true ∧ (bv k j).finite = true) →
        y.elem r j = addTerms (fmtAccf q.fmt = 1) (x.elem r j)
          ((List.range 64).map (fun k => if k < q.ks then .fin false 0 0 else arrayTerm q.metric (av r k) (bv k j))))) ∧
  (∀ (a tr p cc : BitVec 6) (s : State) (c : Ctx) (s₁ s₂ u : State) (t : Team) (sa : Slot) (x : Tile), Starts (.cupd a tr p cc) s c s₁ →
    Spec.atPort c s₁ t s₂ → Spec.slotNamed c t a = some sa → Spec.tileNamed c t tr = some x → fmtOk c.g.fmt false = true →
    meetEcc s₂ c.core true = (false, u) →
    let dst (r : Nat) : Nat := (if r < 32 then lane (t.vreg c.g p.toNat) r else lane (t.vreg c.g (p.toNat + 1)) (r - 32)).toNat
    ∃ (y : Tile) (f : Nat), Completes (.cupd a tr p cc) s c (modTeam { u with free := f } c.tid (fun u => u.setTile x.num y)) ∧
      (∀ i j, i < 64 → j < 64 →
        ((∀ r, r < 64 → dst r ≠ i) → y.elem i j = x.elem i j ∧ y.rowFlags.getLsbD i = x.rowFlags.getLsbD i) ∧
        (nmGetD x.kinds i (Spec.accKind c.g.fmt) = Spec.accKind c.g.fmt →
          ∀ r, r < 64 → dst r = i → (∀ r', r' < 64 → r' ≠ r → dst r' ≠ i) → (Spec.cupdTerm c t sa r j cc).finite = true →
          y.elem i j = (if fmtAccf c.g.fmt = 1 then addInt (x.elem i j) [Spec.cupdTerm c t sa r j cc]
            else addRun (x.elem i j) [Spec.cupdTerm c t sa r j cc])))) ∧
  (∀ (tr a o : BitVec 6) (dst mode : BitVec 3) (s : State) (c : Ctx) (s₁ s₂ : State) (t : Team) (x : Tile) (off : Nat),
    Starts (.mdrain tr a o dst mode) s c s₁ → Spec.atPort c s₁ t s₂ → Spec.tileNamed c t tr = some x →
    drainOk c dst.toNat mode.toNat (c.s o) = true →
    let merging := 3 ≤ mode.toNat ∧ mode.toNat ≤ 4
    let size := if 1 ≤ mode.toNat ∧ mode.toNat ≤ 4 then 512 else 4096 * drainBytes dst.toNat
    (dst = 6 ∧ off = 0 ∨ dst ≠ 6 ∧ (c.s a).toNat % 128 = 0 ∧ ownDesk s₂ t (c.s a).toNat size = some off) →
    (dst ≠ 6 → (merging ∧ t.present off 512 = false) ∨ fenceHolds s₂ c.tid c.gid c.g.fences = true →
      HeldAt (.mdrain tr a o dst mode) s c .issue s₂) ∧
    ((dst ≠ 6 → (merging → t.present off 512 = true) ∧ fenceHolds s₂ c.tid c.gid c.g.fences = false) → ∀ u, meetEcc s₂ c.core true = (false, u) →
      (∀ r, mismatchRow x = some r → Faults (.mdrain tr a o dst mode) s c 0x07 0 c.g.m0
        (x.num + 2 ^ 8 * r + 2 ^ 16 * (nmGetD x.recs r (0, 0)).1 + 2 ^ 24 * (nmGetD x.recs r (0, 0)).2) 0) ∧
      (mismatchRow x = none → (∀ r, r < 64 → nmGetD x.kinds r (Spec.accKind c.g.fmt) = Spec.accKind c.g.fmt) →
        let int : Bool := fmtAccf c.g.fmt = 1
        let hi : Bool := if c.h.tie ≠ 0 then c.h.tie = 2 else fmtTieb c.g.fmt = 1
        let best := Spec.BestOfRow x int (mode = 2 || mode = 4) hi c.g.fmt (c.s o).toNat
        let old := Spec.standing c t a (dst = 6) off
        ∃ d : DrainOp, d.team = c.tid ∧ d.group = c.gid ∧ d.tile = x.num ∧ d.dst = dst.toNat ∧ d.desk = off ∧ d.vd = a.toNat ∧
          (∀ r j, r < 64 → j < 64 → mode = 0 ∨ mode = 5 →
            (d.out.drop (drainBytes dst.toNat * (64 * r + j))).take (drainBytes dst.toNat) = natBytes (drainBytes dst.toNat)
              (if mode = 0 then (convElem x int (drainFmt dst.toNat) c.g.fmt r j).1
                else Spec.meanAt x (drainFmt dst.toNat) c.g.fmt (c.s o).toNat r j)) ∧
          (∀ i b, i < 64 → mode = 1 ∨ mode = 2 → best i b → Spec.bestAt d i = ⟨b.idx, b.val % 2 ^ 32⟩) ∧
          (∀ i, i < 64 → mode = 1 ∨ mode = 2 → (∀ j, j < 64 → ¬ Spec.Candidate x int c.g.fmt i j) →
            Spec.bestAt d i = ⟨0xFFFFFFFF, if int then 0x80000000 else 0x7FC00000⟩) ∧
          (∀ i b, i < 64 → merging → best i b → Spec.bestAt d i =
            if (old i).valid int = false ∨ betterVal int (mode = 4) b.val (old i).val = true ∨ (betterVal int (mode = 4) (old i).val b.val = false ∧
                (if hi then (old i).idx < b.idx else b.idx < (old i).idx)) then ⟨b.idx, b.val % 2 ^ 32⟩ else old i) ∧
          (∀ i, i < 64 → merging → (∀ j, j < 64 → ¬ Spec.Candidate x int c.g.fmt i j) → Spec.bestAt d i = old i) ∧
          (let s₃ := modCore { u with free := u.free + 8192, nextId := u.nextId + 1 } c.core
              (fun y => { y with drains := y.drains ++ [d] });
            let s₄ := if dst = 6 then s₃ else modTeam s₃ c.tid (fun v => v.markAbsent off size drainMark d.id);
            Completes (.mdrain tr a o dst mode) s c (if (popHold s₄).1 then (popHold s₄).2 else landDrain (popHold s₄).2 c.core d))))) ∧
  (∀ (x : Tile) (r : Nat), mismatchRow x = some r ↔ r < 64 ∧ Spec.Differs x r ∧ ∀ r', r' < r → ¬ Spec.Differs x r')

namespace Sys2Proof.Spec

/-- The lanes of a predicate that stands first in the queue of stage 2 run there (R334). -/
def stage2 (s : State) (core : Nat) (o : PredOp) : State :=
  if (coreOf s core).predQueue.head? = some o.id then modCore s core (fun c => { c with
    predQueue := c.predQueue.drop 1, predStarted := max c.predStarted o.id
    preds := c.preds.map (fun x => if x.id = o.id then { x with ran := true } else x) }) else s

/-- The rational number that a dyadic one is. -/
def rat (x : Dya) : ℚ := (x.m : ℚ) * 2 ^ x.e
def rats (pts : List (List Dya)) : List (List ℚ) := pts.map (fun p => p.map rat)
/-- The sign of a rational number. -/
def sgn (x : ℚ) : Int := if 0 < x then 1 else if x < 0 then -1 else 0
/-- The determinant of R319 of translated vectors: coordinate j of vector i is `t i j`, and the last column of GINC and GINS holds the lifts. -/
def detT (k : PredKind) (t : Nat → Nat → ℚ) : ℚ :=
  Matrix.det (Matrix.of (fun (i j : Fin (k.points - 1)) => if j.val < k.dim then t i.val j.val else Finset.sum (Finset.range k.dim) (fun c => t i.val c ^ 2)))
/-- D of a predicate (R319): its determinant of the points, each less the last. -/
def exactD (k : PredKind) (pts : List (List ℚ)) : ℚ :=
  detT k (fun i j => (pts.getD i []).getD j 0 - (pts.getD (k.points - 1) []).getD j 0)
/-- What the bounds of R321 and R322 promise of a lane's D̃, P̃ and D1: where |D̃| exceeds B0 × P̃, or |D1| exceeds B1 × P̃, it has the sign of D. -/
def BoundsHold (k : PredKind) (pts : List (List Dya)) : Prop :=
  let st := stage0 k pts
  let sgnD := sgn (exactD k (rats pts))
  let D1 := detT k (fun i j => rat ((st.1.getD i []).getD j ⟨.zero, false⟩).v)
  (rat (bound0 k) * rat st.2.2.1.v < |rat st.2.1.v| → sgn (rat st.2.1.v) = sgnD) ∧
  (rat (bound1 k) * rat st.2.2.1.v < |D1| → sgn D1 = sgnD)

/-- A coordinate between two others, or at one of them. -/
def Between (x a b : ℚ) : Prop := min a b ≤ x ∧ x ≤ max a b
/-- The class of the segments ab and cd by the rule of R320. -/
def IsClass (a b c d : ℚ × ℚ) (cls : Nat) : Prop :=
  let o (p q r : ℚ × ℚ) : ℚ := exactD .gor2 [[p.1, p.2], [q.1, q.2], [r.1, r.2]]
  let on (x p q : ℚ × ℚ) : Prop := Between x.1 p.1 q.1 ∧ Between x.2 p.2 q.2
  let collinear := o a b c = 0 ∧ o a b d = 0 ∧ o c d a = 0 ∧ o c d b = 0
  let crossing := o a b c * o a b d < 0 ∧ o c d a * o c d b < 0
  let touching := (o a b c = 0 ∧ on c a b) ∨ (o a b d = 0 ∧ on d a b) ∨ (o c d a = 0 ∧ on a c d) ∨ (o c d b = 0 ∧ on b c d)
  let shared := a.1 = b.1 ∧ a.1 = c.1 ∧ a.1 = d.1
  let along (f : ℚ × ℚ → ℚ) (n : Nat) : Prop :=
    let lo := max (min (f a) (f b)) (min (f c) (f d))
    let hi := min (max (f a) (f b)) (max (f c) (f d))
    (lo < hi ∧ n = 3) ∨ (lo = hi ∧ n = 2) ∨ (hi < lo ∧ n = 0)
  (collinear → (shared → along Prod.snd cls) ∧ (¬ shared → along Prod.fst cls)) ∧
  (¬ collinear → crossing → cls = 1) ∧
  (¬ collinear → ¬ crossing → (touching → cls = 2) ∧ (¬ touching → cls = 0))

end Sys2Proof.Spec

/-- R317 to R320, R324 to R327, R334: a predicate reads its points, decides each active lane and writes all results at once, behind older
predicates that stage 2 still serves; a lane with a NaN
or an infinity gets 2 (4 for GSEG) with stage 3 if `pnf` allows it and faults with 0x06 otherwise; without a lane nothing
happens; a ninth predicate in flight waits. A lane of finite coordinates has the sign of the exact determinant D over the rational numbers, and a GSEG
lane the class of R320 by the exact signs of its four orientations, wherever the bounds of R321 and R322 keep what they promise, or
where stage 2 decides or an fl step has left the range; the symbolic tie-break is used only where D is 0.
The model's readings in it: log entries 29, 75. -/
def Obligations.GeometricPredicates : Prop :=
  (∀ (k : PredKind) (bad : Bool) (pts : List (List Dya)) (ranks : Option (List Nat)), k ≠ .gseg → pts.length = k.points →
    (∀ p ∈ pts, p.length = k.dim) →
    let D := Spec.exactD k (Spec.rats pts)
    let r := solvedSign k bad pts ranks
    (ranks = none ∨ D ≠ 0) → ((stagedSign k bad pts).2 = 2 ∨ bad = true ∨ Spec.BoundsHold k pts) → r.1 = Spec.sgn D) ∧
  (∀ (a b c d : Dya × Dya) (ranks : Option (List Nat)),
    let pt (x : Dya × Dya) : List Dya := [x.1, x.2]
    let q (x : Dya × Dya) : ℚ × ℚ := (Spec.rat x.1, Spec.rat x.2)
    let orients : List (List (List Dya)) := [[pt a, pt b, pt c], [pt a, pt b, pt d], [pt c, pt d, pt a], [pt c, pt d, pt b]]
    (ranks = none ∨ ∀ x ∈ orients, Spec.exactD .gor2 (Spec.rats x) ≠ 0) →
    ((∃ x ∈ orients, (stage0 .gor2 x).2.2.2 = true) ∨ ∀ x ∈ orients, Spec.BoundsHold .gor2 x) →
    Spec.IsClass (q a) (q b) (q c) (q d) (segClass [pt a, pt b, pt c, pt d] ranks).1) ∧
  ∀ (i : Instr) (k : PredKind) (guard : BitVec 3) (d p q : BitVec 6) (ty : BitVec 1) (s : State) (c : Ctx) (s₁ : State), Starts i s c s₁ →
    (i = .gor2 guard d p q ty ∧ k = .gor2 ∨ i = .gor3 guard d p q ty ∧ k = .gor3 ∨ i = .ginc guard d p q ty ∧ k = .ginc ∨
      i = .gins guard d p q ty ∧ k = .gins ∨ i = .gseg guard d p q ty ∧ k = .gseg) →
    let m := c.lanes guard
    let pts (n : Nat) : List (List FVal) := predPoints c k p (ty = 1) n
    let bad (n : Nat) : Bool := (pts n).any (fun x => x.any (fun y => !y.finite))
    let sos (n : Nat) : Option (List Nat) := if c.h.sos then some ((List.range k.points).map (rankOf
      ((List.range k.points).map (fun j => (lane (c.v (q.toNat + j)) n).toNat)))) else none
    (m = 0 → Completes i s c (fillResult s₁ c.tid c.gid c.core (.v d.toNat :: (c.h.xd.map RegName.v)))) ∧
    (m ≠ 0 → 8 ≤ (coreOf s₁ c.core).preds.length → HeldAt i s c .issue s₁) ∧
    (m ≠ 0 → (coreOf s₁ c.core).preds.length < 8 → fmtPnf c.g.fmt = false → (∃ n, n < 32 ∧ m.getLsbD n = true ∧ bad n = true) →
      Faults i s c 0x06 0 (maskOf (fun n => inMask m n && bad n)) 0 0) ∧
    (m ≠ 0 → (coreOf s₁ c.core).preds.length < 8 → (fmtPnf c.g.fmt = true ∨ ∀ n, n < 32 → m.getLsbD n = true → bad n = false) →
      ∃ o : PredOp, o.kind = k.num (ty = 1) ∧ o.team = c.tid ∧ o.group = c.gid ∧ o.d = d.toNat ∧ o.xd = c.h.xd.head? ∧ o.mask = m ∧
        (∀ n, n < 32 → m.getLsbD n = true → bad n = true →
          lane o.result n = (if k = .gseg then 4 else 2) ∧ lane o.stage n = 3) ∧
        (∀ n, n < 32 → m.getLsbD n = true → bad n = false → k ≠ .gseg →
            let xs := (pts n).map (fun x => x.map FVal.toDya)
            lane o.result n = BitVec.ofInt 32 (solvedSign k (stage0 k xs).2.2.2 xs (sos n)).1) ∧
        (∀ n, n < 32 → m.getLsbD n = true → bad n = false → k = .gseg →
          lane o.result n = BitVec.ofNat 32 (segClass ((pts n).map (fun x => x.map FVal.toDya)) (sos n)).1) ∧
        (let s₂ := modCore { s₁ with nextId := s₁.nextId + 1 } c.core (fun x => { x with preds := x.preds ++ [o] });
          let s₃ := Spec.stage2 (enterStage2 (popHold s₂).2 c.core o) c.core o;
          Completes i s c (if (popHold s₂).1 then (popHold s₂).2 else if predReady s₃ c.core o then landPred s₃ c.core o else s₃)))

/-! ## Class 7 -/

namespace Sys2Proof.Spec

/-- A hint word, what it adds to its run, whether its run takes it, and the cycles for which it holds its group back. -/
def hintOf (i : Instr) : Option ((Hints → Hints) × (Hints → Bool) × Nat) :=
  match i with
  | .himm v => some (fun h => { h with himms := h.himms ++ [v], lastHimm := true },
      fun h => h.himms.isEmpty || (h.himms.length = 1 && h.lastHimm), 0)
  | .hsched delay b a keep => some (fun h => { h with hsched := some (((encode (.hsched delay b a keep)).getD 0).truncate 24), lastHimm := false },
      fun h => h.hsched.isNone, delay.toNat)
  | .hmod xd xe sos peek far w64 sp ord scope sat rme rnd tie => some (fun h => { h with
      hmod := some (((encode (.hmod xd xe sos peek far w64 sp ord scope sat rme rnd tie)).getD 0).truncate 24), lastHimm := false },
      fun h => h.hmod.isNone, 0)
  | _ => none

/-- The group's team runs, and the group waits for no outstanding read and for the end of no move (R369): it is there to issue. -/
def Present (s : State) (t : Team) (g : Group) : Prop :=
  teamOf s s.cur.1 = some t ∧ groupOf s s.cur.1 s.cur.2 = some g ∧ t.stopping = false ∧ t.resident = true ∧ g.fault = none ∧
    g.registered = none ∧ unperformed s s.cur.1 s.cur.2 g.wait = false

/-- The state in which the group's next instruction begins: an acquire that an earlier atomic has left to end refreshes the core's loose
replicas first (R248, R253). -/
def acquired (s : State) (t : Team) (g : Group) : State := if g.wait = some (.performed true) then refreshReplicas s t.core 0 else s

/-- The privileged instructions (R335): all of them but TFLUSH of the own core. -/
def supervisorInstr (i : Instr) : Bool :=
  match i with
  | .csrr _ _ _ => true
  | .csrw _ _ _ => true
  | .tresume _ _ _ => true
  | .tflush _ _ al => al = 1
  | .split _ _ => true
  | .halt _ => true
  | _ => false

end Sys2Proof.Spec

/-- R183 to R188: a hint word is kept for the instruction that its run stands before; the run remembers its first word and the group goes to the
next word. A fourth hint, a second of a kind (of HIMM a third, or one apart) and an ill-formed one give 0x01 at the run's
first word. HSCHED also keeps its group from issuing for its delay. A wait at a barrier whose arrival is counted outlives the hint (R187).
The model's readings in it: log entries 7, 13. -/
def Obligations.HintWords : Prop :=
  ∀ (i : Instr) (s : State) (t : Team) (g : Group) (add : Hints → Hints) (fits : Hints → Bool) (delay : Nat), Spec.Present s t g →
    Spec.hintOf i = some (add, fits, delay) →
    let s' := Spec.acquired s t g
    let total := g.hints.himms.length + (if g.hints.hsched.isSome then 1 else 0) + (if g.hints.hmod.isSome then 1 else 0)
    (i.wf t.header.ever = true → total < 3 → fits g.hints = true →
      exec i s = .next (retire (modGroup s' s.cur.1 s.cur.2 (fun x => { x with
        pc := (g.pc + 4) % 2 ^ 48, wait := keepArrival g.wait, notBefore := if delay = 0 then 0 else cycleAt s' t.core + delay,
        hints := add { g.hints with first := some (g.hints.first.getD g.pc) } })) t.core s.cur.1 s.cur.2)) ∧
    (i.wf t.header.ever = false ∨ 3 ≤ total ∨ fits g.hints = false →
      exec i s = .next (takeFault s' s.cur.1 s.cur.2 ⟨0x01, g.index, g.hints.first.getD g.pc, 0, g.m0, 0, 0, false, 0,
        some (g.hints.first.getD g.pc), s'.nextId, true⟩))

/-- R204 to R207, R50: NOP only moves on; YIELD and SLEEP 0 stand at a yield point, where a ready pending group can take their group's place,
and their group is a candidate as one that waits for nothing; SLEEP passes one and waits for its count; EXIT ends its group; TRAP takes 0x10 and
restarts at the word behind it, BRK 0x11 at itself.
The model's readings in it: log entries 4, 7, 13. -/
def Obligations.SystemInstructions : Prop :=
  (∀ (s : State) (c : Ctx) (s₁ : State), Starts .nop s c s₁ → Completes .nop s c s₁) ∧
  (∀ (s : State) (c : Ctx) (s₁ : State), Starts .yield s c s₁ → Completes .yield s c (changeGroup c (passYield s₁ c.tid c.gid)
    (fun g => { g with wait := some .yielded, since := cycleAt s₁ c.core }))) ∧
  (∀ (s : State) (tid gid : Nat), canIssue (modGroup s tid gid (fun g => { g with wait := some .yielded })) tid gid =
    canIssue (modGroup s tid gid (fun g => { g with wait := none })) tid gid) ∧
  (∀ (n : BitVec 20) (s : State) (c : Ctx) (s₁ : State), Starts (.sleep n) s c s₁ →
    let k := if c.h.count ≠ 0 then c.h.imm.toNat % 2 ^ 32 else n.toNat
    Completes (.sleep n) s c (if k = 0 then changeGroup c (passYield s₁ c.tid c.gid) (fun g => { g with wait := some .yielded, since := cycleAt s₁ c.core })
      else changeGroup c (passYield s₁ c.tid c.gid) (fun g => { g with
        notBefore := cycleAt s₁ c.core + k, wait := some (.sleep (cycleAt s₁ c.core + k)), since := cycleAt s₁ c.core }))) ∧
  (∀ (s : State) (c : Ctx) (s₁ : State), Starts .exit s c s₁ → Completes .exit s c (endGroup c s₁)) ∧
  (∀ (code : BitVec 16) (s : State) (c : Ctx) (s₁ : State), Starts (.trap code) s c s₁ →
    Completes (.trap code) s c (takeFault s₁ c.tid c.gid
      ⟨0x10, c.g.index, (c.g.pc + 4) % 2 ^ 48, 0, c.g.m0, code.toNat, 0, false, 0, some c.g.restart, s₁.nextId, true⟩)) ∧
  (∀ (code : BitVec 16) (s : State) (c : Ctx) (s₁ : State), Starts (.brk code) s c s₁ →
    Faults (.brk code) s c 0x11 0 c.g.m0 0 code.toNat)

/-- R178: a supervisor-only instruction executed in user mode raises 0x12 and has no effect: its team stops with that fault in the state in which
the instruction began. In supervisor mode no such fault arises, and it starts as any instruction does. -/
def Obligations.UserModePrivilege : Prop :=
  (∀ (i : Instr) (s : State) (t : Team) (g : Group), Spec.Present s t g → t.supervisor = false →
    Spec.supervisorInstr i = true → i.wf t.header.ever = true → hintsAccepted g.hints i = true →
    (g.rep = none ∨ bannedInRepeat i = false) →
    ∃ f : FaultInfo, f.code = 0x12 ∧ f.restart = g.hints.first.getD g.pc ∧ exec i s = .next (takeFault (Spec.acquired s t g) s.cur.1 s.cur.2 f)) ∧
  (∀ (i : Instr) (s : State) (t : Team) (g : Group), t.supervisor = true → Spec.supervisorInstr i = true →
    decodeFault t g i ≠ some 0x12 ∧
    (Spec.Ready i s t g → ∃ s₁, Starts i s ⟨s.cur.1, s.cur.2, t, g⟩ s₁))

/-- R338, R342, R346, R348 to R352, R401, R411: the privileged instructions in supervisor mode: CSRR and CSRW of a register, of this core or the one the operand names;
TRESUME's statuses, its wait for the group's earlier accesses, and its fault where an image cannot be read and marked; TFLUSH drops stash entries, of its core or of the partition's, where it also makes the address space's descriptor
current; SPLIT's statuses, the eviction of the near frames that a new split removes, during which the group is held in the SPLIT, and the new split
of a core that no team is on; HALT stops the partition.
The model's readings in it: log entries 10, 13, 14, 35, 38. -/
def Obligations.PrivilegedInstructions : Prop :=
  (∀ (d a : BitVec 6) (csr : BitVec 12) (s : State) (c : Ctx) (s₁ : State), Starts (.csrr d a csr) s c s₁ →
    (csr.toNat < 0x200 → ∀ code, csrTarget s₁ c (c.s a) = .error code → Faults (.csrr d a csr) s c code 0 c.g.m0 0 0) ∧
    (∀ core, (if csr.toNat < 0x200 then csrTarget s₁ c (c.s a) else .ok c.core) = .ok core →
      Completes (.csrr d a csr) s c (changeGroup c s₁ (fun g => g.setS d.toNat (BitVec.ofNat 64 (csrRead s₁ c.t.part core csr)))))) ∧
  (∀ (b a : BitVec 6) (csr : BitVec 12) (s : State) (c : Ctx) (s₁ : State), Starts (.csrw b a csr) s c s₁ →
    (csr.toNat < 0x200 → ∀ code, csrTarget s₁ c (c.s a) = .error code → Faults (.csrw b a csr) s c code 0 c.g.m0 0 0) ∧
    (∀ core, (if csr.toNat < 0x200 then csrTarget s₁ c (c.s a) else .ok c.core) = .ok core →
      Completes (.csrw b a csr) s c (csrWrite s₁ c.t.part core c.t.aspace csr (c.s b).toNat))) ∧
  (∀ (d a : BitVec 6) (fin : BitVec 1) (s : State) (c : Ctx) (s₁ : State), Starts (.tresume d a fin) s c s₁ →
    ((c.s a).toNat % 4096 ≠ 0 → Faults (.tresume d a fin) s c 0x03 (c.s a).toNat c.g.m0 0 0) ∧
    ((c.s a).toNat % 4096 = 0 → groupSettled s₁ c = false → HeldAt (.tresume d a fin) s c .issue s₁) ∧
    ((c.s a).toNat % 4096 = 0 → groupSettled s₁ c = true → findImages c s₁ (c.s a).toNat = .nothing →
      Completes (.tresume d a fin) s c (changeGroup c s₁ (fun g => g.setS d.toNat 1))) ∧
    (∀ code addr s', (c.s a).toNat % 4096 = 0 → groupSettled s₁ c = true → findImages c s₁ (c.s a).toNat = .fault code addr s' →
      FaultsLeaving (.tresume d a fin) s c s' code addr c.g.m0) ∧
    (∀ l s₂, (c.s a).toNat % 4096 = 0 → groupSettled s₁ c = true → findImages c s₁ (c.s a).toNat = .images l s₂ → fin = 0 →
      Config.resumeDepth ≤ (partOf s₁ c.t.part).resumeQ.length →
      Completes (.tresume d a fin) s c (changeGroup c s₁ (fun g => g.setS d.toNat 2))) ∧
    (∀ l s₂ u, (c.s a).toNat % 4096 = 0 → groupSettled s₁ c = true → findImages c s₁ (c.s a).toNat = .images l s₂ → fin = 0 →
      (partOf s₁ c.t.part).resumeQ.length < Config.resumeDepth → markImages c 2 l s₂ = some u →
      let ids := l.map (fun x => x.team.id)
      let s₃ := changeGroup c u (fun g => g.setS d.toNat 0)
      let s₄ : State := { s₃ with nextId := s₃.nextId + 1, saved := s₃.saved.map (fun y =>
        if ids.contains y.team.id && !y.resumed then { y with resumed := true, readyAt := s₃.nextId } else y) }
      Completes (.tresume d a fin) s c (dispatchPart (modPart s₄ c.t.part (fun p => { p with resumeQ := p.resumeQ ++ ids })) c.t.part)) ∧
    (∀ l s₂ u, (c.s a).toNat % 4096 = 0 → groupSettled s₁ c = true → findImages c s₁ (c.s a).toNat = .images l s₂ → fin = 1 →
      markImages c 3 l s₂ = some u →
      let ids := l.map (fun x => x.team.id)
      let s₃ := changeGroup c u (fun g => g.setS d.toNat 0)
      Completes (.tresume d a fin) s c (dispatchPart (l.foldl (fun s x => teamOver s x.team.grid true)
        { s₃ with saved := s₃.saved.filter (fun y => !ids.contains y.team.id) }) c.t.part))) ∧
  (∀ (a b : BitVec 6) (al : BitVec 1) (s : State) (c : Ctx) (s₁ : State), Starts (.tflush a b al) s c s₁ →
    let v := (c.s a).toNat
    let space := if c.t.supervisor then v / 2 ^ 48 else c.t.aspace
    let drop (x : Core) : Core := { x with stash := x.stash.filter (fun e => !flushes space (v % 2 ^ 48 / 4096) (c.s b).toNat e) }
    (2 ^ (if c.t.supervisor then 56 else 48) ≤ v → Faults (.tflush a b al) s c 0x05 0 c.g.m0 0 0) ∧
    (v < 2 ^ (if c.t.supervisor then 56 else 48) → al = 0 → Completes (.tflush a b al) s c (modCore s₁ c.core drop)) ∧
    (v < 2 ^ (if c.t.supervisor then 56 else 48) → al = 1 →
      let s₂ := reloadDescriptor s₁ c.t.part space
      Completes (.tflush a b al) s c (releaseTables { s₂ with
        cores := s₂.cores.map (fun p => if inPartition s₂ c.t.part (clusterOfCore p.1) then (p.1, drop p.2) else p) } c.t.part))) ∧
  (∀ (d a : BitVec 6) (s : State) (c : Ctx) (s₁ : State), Starts (.split d a) s c s₁ →
    let v := (c.s a).toNat
    let core := bitsOf v 9 8 * 192 + v % 256
    let regs := bitsOf v 19 16
    let desk := bitsOf v 23 20
    let near := bitsOf v 27 24
    let legal := bitsOf v 15 10 = 0 ∧ v < 2 ^ 28 ∧ regs ≠ 0 ∧ desk ≠ 0 ∧ near ≤ 12 ∧ regs + 2 * desk + near = 16 ∧ v % 256 ≤ 191 ∧
      inPartition s₁ c.t.part (bitsOf v 9 8) = true
    (¬ legal → Completes (.split d a) s c (changeGroup c s₁ (fun g => g.setS d.toNat 1))) ∧
    (legal → c.g.wait ≠ some (.split core) → (teamsOn s₁ core ≠ [] ∨ (coreOf s₁ core).ingress ≠ 0) →
      Completes (.split d a) s c (changeGroup c s₁ (fun g => g.setS d.toNat 3))) ∧
    (legal → (c.g.wait = some (.split core) ∨ teamsOn s₁ core = [] ∧ (coreOf s₁ core).ingress = 0) →
      let s₂ := ((coreOf s₁ core).nears.filter (fun p => 16 * near ≤ p.1)).foldl (fun s p => evictForSplit s c.t.part core p.1) s₁
      let used := ∃ p ∈ (coreOf s₂ core).nears, 16 * near ≤ p.1 ∧ p.2.state ≠ .free ∧ p.2.state ≠ .quarantined
      (used → HeldAt (.split d a) s c (.split core) (modCore s₂ core (fun x => { x with closed := true }))) ∧
      (¬ used → Completes (.split d a) s c (dispatchPart (changeGroup c (modCore s₂ core (fun x => { x with
        closed := splitsBeside s₂ c core, split := BitVec.ofNat 32 (near * 256 + desk * 16 + regs) })) (fun g => g.setS d.toNat 0)) c.t.part)))) ∧
  (∀ (code : BitVec 16) (s : State) (c : Ctx) (s₁ : State), Starts (.halt code) s c s₁ →
    ∃ s₂, Completes (.halt code) s c s₂ ∧ (partOf s₂ c.t.part).halted = true ∧ (partOf s₂ c.t.part).haltCode = code.toNat ∧
      s₂.msix = s₁.msix ++ [2 * c.t.part + 1] ∧ (∀ p ∈ s₂.teams, p.2.part = c.t.part → p.2.stopping = true ∧ p.2.cmds = []) ∧
      s₂.saved = s₁.saved)

/-! ## Events: what happens by itself -/

namespace Sys2Proof.Spec

/-- The event happens: from `s` the machine goes to `s'`. -/
def Happens (e : Instr) (s s' : State) : Prop := exec e s = .next s'

/-- What follows the memory access of message `id` that has been performed in `s` with outcome `s'` and `bs`. -/
def performed (s s' : State) (id : Nat) (r : MemReq) (bs : List Byte) : State :=
  fillAfter (noteTouch (afterPerform s s' id r bs) r) r

/-- The message named `id` in flight. -/
def InFlight (s : State) (id : Nat) (m : Msg) : Prop := nmGet id s.flight = some m

end Sys2Proof.Spec

/-- R33, R35, R53, R187, R205, R386, R389, R398: a bin whose timer has run out launches; a launched bin's group starts in the lowest free index; a team that has
retired nothing for its watchdog interval faults with 0x0B; the active set exchanges its longest-held group for the pending one that has been
ready longest, or its oldest after 2^16 cycles, at an instruction boundary of it; a sleep and a scheduled delay end; a team beyond its time slice stops for one that waits and could take its core.
The model's readings in it: log entries 1, 13, 40, 41. -/
def Obligations.TimerEvents : Prop :=
  (∀ (core bin : Nat) (b : Bin) (s : State), nmGet bin (coreOf s core).bins = some b →
    (b.start + (coreOf s core).binTimeout ≤ cycleAt s core →
      let s₁ := modCore s core (fun c => { c with bins := nmDel bin c.bins, launchedBins := c.launchedBins ++ [(bin, b)] })
      Spec.Happens (.binTimerExpiry core bin) s (if (popHold s₁).1 then (popHold s₁).2
        else startBins core (coreOf (popHold s₁).2 core).launchedBins (popHold s₁).2)) ∧
    (cycleAt s core < b.start + (coreOf s core).binTimeout → Spec.Happens (.binTimerExpiry core bin) s s)) ∧
  (∀ (core n idx : Nat) (b : Bin) (t : Team) (s : State), (coreOf s core).launchedBins = [(n, b)] → binCanStart s core b = true →
    teamOf s b.team = some t → nmFree t.groups t.header.gmax = some idx →
    Spec.Happens (.binGroupStart core) s (enterCore (modCore (modTeam s b.team (fun u => binGroup u n b idx)) core
      (fun c => { c with launchedBins := c.launchedBins.erase (n, b) })) core b.team idx)) ∧
  (∀ (team gid : Nat) (g : Group) (rest : NMap Group) (t : Team) (s : State), teamOf s team = some t → t.groups = (gid, g) :: rest →
    (t.resident = true → t.stopping = false → t.lastRetire + t.interval ≤ cycleAt s t.core →
      Spec.Happens (.watchdogExpiry team) s (takeFault (lrBump s 6 (clusterOfCore t.core) 0 (2 ^ 32 - 1)) team gid
        ⟨0x0B, g.index, g.restart, 0, g.m0, 0, 0, false, 0, some g.restart, s.nextId, true⟩)) ∧
    (cycleAt s t.core < t.lastRetire + t.interval → Spec.Happens (.watchdogExpiry team) s s)) ∧
  (∀ (core : Nat) (p : Nat × Nat × Nat) (x : (Nat × Nat) × Nat) (s : State), readyPending s core = some p → heldActive s core = [x] →
    Spec.Happens (.activeSetSwap core) s (modCore s core (fun c => { c with
      active := c.active.filter (· ≠ x.1) ++ [(p.1, p.2.1)],
      pend := c.pend.filter (· ≠ p) ++ [(x.1.1, x.1.2, 0)] }))) ∧
  (∀ (core : Nat) (p : Nat × Nat × Nat) (x : Nat × Nat) (rest : List (Nat × Nat)) (g : Group) (s : State), readyPending s core = some p →
    heldActive s core = [] → (coreOf s core).active = x :: rest → groupOf s x.1 x.2 = some g →
    (g.hints.first = none → g.wait = none → p.2.2 + 2 ^ 16 ≤ cycleAt s core + 1 →
      Spec.Happens (.forcedSwap core) s (exchange s core x p)) ∧
    (g.hints.first ≠ none ∨ (∃ id, g.wait = some (.release id)) ∨ g.wait = some .placeHome ∨
        (∃ k, g.wait = some (.split k)) ∨ cycleAt s core + 1 < p.2.2 + 2 ^ 16 →
      Spec.Happens (.forcedSwap core) s s)) ∧
  (∀ (team gid u : Nat) (t : Team) (g : Group) (s : State), teamOf s team = some t → groupOf s team gid = some g → g.wait = some (.sleep u) →
    u ≤ cycleAt s t.core → Spec.Happens (.sleepExpiry team gid) s (modGroup s team gid (fun g => { g with wait := none, notBefore := 0 }))) ∧
  (∀ (team gid : Nat) (t : Team) (g : Group) (s : State), teamOf s team = some t → groupOf s team gid = some g → g.wait = none →
    g.notBefore ≤ cycleAt s t.core → Spec.Happens (.hschedDelayExpiry team gid) s (modGroup s team gid (fun g => { g with notBefore := 0 }))) ∧
  (∀ (team : Nat) (t : Team) (g w : Grid) (s : State), teamOf s team = some t → nmGet t.grid s.grids = some g →
    (partOf s t.part).tslice ≠ 0 → g.rec_.cls ≠ 0 → together g.rec_ g.header = false →
    t.placedAt + 1024 * (partOf s t.part).tslice ≤ cycleAt s t.core →
    (∃ k, (k, w) ∈ s.grids) → w.part = t.part → 1 ≤ w.rec_.cls → w.rec_.cls ≤ g.rec_.cls → couldPlace s t w = true →
    Spec.Happens (.timeSliceExpiry team) s (modTeam s team (fun u => if u.stopping || !u.resident then u
      else { u with stopping := true, saveWhy := 3 })))

/-- R47, R130, R141, R152, R153, R239, R271, R350, R364, R365, R369, R371, R374, R402, R430: a message in flight arrives and has its effect, unless an older access of
its group holds it back: a result, an access at a frame or at a home place, a bounced access that walks again under its own name, the
locks and updates of a strict commit, closes and their answers, deliveries (one with the tag of a team instance that is gone is dropped), remote loads, a target that is gone, recalls, far requests
and acknowledgements.
The model's readings in it: log entries 1, 11, 77. -/
def Obligations.MessageEvents : Prop :=
  (∀ (id : Nat) (r : MemReq) (bs : List Byte) (s : State), Spec.InFlight s id (.result r bs) →
    (sharedNames s r.team r.group (destRegs r.dest) = [] →
      Spec.Happens (.loadDataReturn id) s (fillAfter (deliver (dropMsg s id) r bs) r)) ∧
    (sharedNames s r.team r.group (destRegs r.dest) ≠ [] → Spec.Happens (.loadDataReturn id) s (fillAfter s r))) ∧
  (∀ (r : MemReq) (bs : List Byte) (s : State) (t : Team), teamOf s r.team = some t → t.marks = [] →
    deliver s r bs = modTeam s r.team (fun t => t.putResult r.group r.dest bs)) ∧
  (∀ (r : MemReq) (s : State), takenBack s r.team r.group r.instr = false →
    fillAfter s r = fillResult s r.team r.group r.core (destRegs r.dest)) ∧
  (∀ (id sec : Nat) (r : MemReq) (s : State), Spec.InFlight s id (.sector r sec) →
    (heldBack s r id = true → Spec.Happens (.sectorArrival id) s s) ∧
    (heldBack s r id = false → Spec.Happens (.sectorArrival id) s (if (missing s r).isSome = true
      then performMsg { s with holds := false :: s.holds } id r else performMsg s id r))) ∧
  (∀ (e : Instr) (id : Nat) (r : MemReq) (s : State), e = .frameAccess id ∧ isFrame r.place = true ∨
    e = .sideboardAccess id ∧ isFrame r.place = false → Spec.InFlight s id (.mem r) →
    (heldBack s r id = true → Spec.Happens e s s) ∧
    (heldBack s r id = false → missing (dropMsg s id) r = none → isStrictCommit (dropMsg s id) r.place r = false →
      (∀ s' bs, perform (dropMsg s id) r = .done s' bs → Spec.Happens e s (Spec.performed (dropMsg s id) s' id r bs)) ∧
      (∀ code s', perform (dropMsg s id) r = .bad code s' → Spec.Happens e s (fillAfter (lateFault s' id r code) r)) ∧
      (perform (dropMsg s id) r = .waits → Spec.Happens e s (fillAfter (putMsg (dropMsg s id) id (.mem r)) r)))) ∧
  (∀ (id : Nat) (r : MemReq) (s s₁ : State), Spec.InFlight s id (.bounced r) →
    (heldBack s r id = true → Spec.Happens (.bounce id) s s) ∧
    (heldBack s r id = false →
      (∀ r', retranslate (dropMsg s id) r = (.ok r', s₁) → entryFree s₁ r' = true →
        Spec.Happens (.bounce id) s (fillAfter (settle 9 s₁ id r') r)) ∧
      (∀ r', retranslate (dropMsg s id) r = (.ok r', s₁) → entryFree s₁ r' = false →
        Spec.Happens (.bounce id) s (putMsg s id (.bounced r))) ∧
      (retranslate (dropMsg s id) r = (.error 0, s₁) → Spec.Happens (.bounce id) s (putMsg s₁ id (.bounced r))) ∧
      (∀ code, code ≠ 0 → retranslate (dropMsg s id) r = (.error code, s₁) → Spec.Happens (.bounce id) s (lateFault s₁ id r code)))) ∧
  (∀ (id cm core n : Nat) (s : State), Spec.InFlight s id (.lock cm core n) →
    Spec.Happens (.replicaLock id) s (post (modFrame (dropMsg s id) (.near core n) (fun f => { f with locked := true })) (.lockAck cm core n))) ∧
  (∀ (id cm core n off : Nat) (r : MemReq) (w : List (Nat × Nat)) (l : Bool) (s : State), Spec.InFlight s id (.update cm core n) →
    Spec.InFlight s cm (.commit r off w l) →
    Spec.Happens (.replicaUpdate id) s (post (updateReplica (dropMsg s id) r.place off r.size core n) (.updateAck cm core n))) ∧
  (∀ (id cm core n off : Nat) (r : MemReq) (w : List (Nat × Nat)) (l : Bool) (s : State),
    Spec.InFlight s id (.lockAck cm core n) ∨ Spec.InFlight s id (.updateAck cm core n) →
    nmGet cm (dropMsg s id).flight = some (.commit r off w l) →
    let rest := w.filter (fun q => q ≠ (core, n))
    let s₁ := putMsg (dropMsg s id) cm (.commit r off rest l)
    (rest ≠ [] → Spec.Happens (.replicaAcknowledgement id) s s₁) ∧
    (rest = [] → l = false → Spec.Happens (.replicaAcknowledgement id) s (fillAfter (commitWrite s₁ cm r off) r)) ∧
    (rest = [] → l = true →
      let s₂ := fillAfter (noteTouch (countPerformed (dropMsg s₁ cm) r r.place) r) r
      Spec.Happens (.replicaAcknowledgement id) s
        (if wantedHome s₂ r.part r.aspace (r.va / 4096) then moveHome s₂ r.part r.aspace (r.va / 4096) false else s₂))) ∧
  (∀ (id n rel : Nat) (src : Source) (pt : CountPoint) (s : State), Spec.InFlight s id (.close src pt n rel) →
    (countAt s pt src ≠ n → Spec.Happens (.closeMessage id) s s) ∧
    (countAt s pt src = n →
      let s₁ := clearCount (dropMsg s id) pt src
      Spec.Happens (.closeMessage id) s (if (popHold s₁).1 then post (popHold s₁).2 (.answer src pt rel)
        else takeAnswer (popHold s₁).2 src pt rel))) ∧
  (∀ (id rel t g ph : Nat) (pt : CountPoint) (s : State), Spec.InFlight s id (.answer (.group t g ph) pt rel) →
    Spec.Happens (.closeAnswer id) s (modGroup (dropMsg s id) t g (fun x => Group.settleReleases { x with
      releases := x.releases.map (fun r => if r.id = rel then { r with waiting := r.waiting.filter (· ≠ pt) } else r) }))) ∧
  (∀ (id : Nat) (d : Delivery) (s : State), Spec.InFlight s id (.delivery d false) →
    (deliveryHeld s id d = true → Spec.Happens (.drawerDelivery id) s s) ∧
    (deliveryHeld s id d = false → Spec.Happens (.drawerDelivery id) s
      (takeDelivery (modCore (dropMsg s id) d.dst (fun c => { c with ingress := c.ingress - 1 })) id d))) ∧
  (∀ (id tid : Nat) (d : Delivery) (t : Team) (s : State), Spec.InFlight s id (.delivery d true) → d.gang = true →
    teamOn s d.grid d.dst = some tid → teamOf s tid = some t →
    (t.drawerBlocks d = true ∨ behindRefused s id d = true → Spec.Happens (.deliveryRetry id) s s) ∧
    (t.drawerBlocks d = false → behindRefused s id d = false → deliveryHeld s id d = false → (d.tag = none ∨ d.tag = some t.tag) →
      Spec.Happens (.deliveryRetry id) s (countWrite (modTeam (dropMsg s id) tid (fun u =>
      let u := u.drawerWrite d.src d.phase d.off d.bytes
      { u with exch := { u.exch with arrivals := bumpArrival u.exch.arrivals d.src d.phase } })) (.core d.dst) d.from_))) ∧
  (∀ (id tid : Nat) (tag : Word) (d : Delivery) (t : Team) (s : State), Spec.InFlight s id (.delivery d false) → deliveryHeld s id d = false →
    teamOn s d.grid d.dst = some tid → teamOf s tid = some t → d.gang = false → d.tag = some tag →
    let s₁ := modCore (dropMsg s id) d.dst (fun c => { c with ingress := c.ingress - 1 })
    (tag = t.tag → Spec.Happens (.drawerDelivery id) s (countWrite (modTeam s₁ tid (fun u => u.writeDesk d.off d.bytes)) (.core d.dst) d.from_)) ∧
    (tag ≠ t.tag → d.cmd = none → Spec.Happens (.drawerDelivery id) s (post (moveSend s₁ d.from_ (some (.core d.dst)) none)
      (.gone d.team d.group (coreInCluster d.dst * 2 ^ 18 + d.off) d.lanes)))) ∧
  (∀ (id tid gid core addr size : Nat) (dest : Dest) (lanes : Mask) (f : Fences) (t : Team) (s : State),
    Spec.InFlight s id (.rload tid gid core addr size dest lanes f) → teamOf s tid = some t →
    (heldBackBy s (remoteRead tid gid core addr size f) id = true → Spec.Happens (.remoteLoad id) s s) ∧
    (heldBackBy s (remoteRead tid gid core addr size f) id = false → Spec.Happens (.remoteLoad id) s
      (fillResult (takeRemoteLoad (dropMsg s id) id tid gid core addr size dest lanes f) tid gid t.core (destRegs dest)))) ∧
  (∀ (id tid gid addr : Nat) (lanes : Mask) (s : State), Spec.InFlight s id (.gone tid gid addr lanes) →
    (∀ g, groupOf s tid gid = some g → Spec.Happens (.targetGoneAnswer id) s
      (takeFault (dropMsg s id) tid gid ⟨0x0D, g.index, g.restart, addr, lanes, 0, 0, false, 0, none, s.nextId, true⟩)) ∧
    (groupOf s tid gid = none → Spec.Happens (.targetGoneAnswer id) s
      (modTeam (dropMsg s id) tid (fun t => t.meet ⟨0x0D, gid % 32, 0, addr, lanes, 0, 0, false, 0, none, s.nextId, false⟩)))) ∧
  (∀ (id grid src dst ph n tid : Nat) (s : State), Spec.InFlight s id (.xclose grid src dst ph n) → teamOn s grid src = none →
    teamOn s grid dst = some tid →
    Spec.Happens (.exchangeClose id) s (modTeam (dropMsg s id) tid (fun t => { t with exch := { t.exch with closes := (src, ph, n) :: t.exch.closes } }))) ∧
  (∀ (id core aspace vpage : Nat) (loc : Place) (s : State), Spec.InFlight s id (.recall core aspace vpage loc) →
    ∃ s', Spec.Happens (.pageRecall id) s s' ∧
      (coreOf s' core).stash = (coreOf s core).stash.filter (fun e => !(e.hits aspace (vpage * 4096) && e.leafOf.place = loc))) ∧
  (∀ (id part aspace vpage : Nat) (s : State), Spec.InFlight s id (.placeFar part aspace vpage) →
    Spec.Happens (.placeFarRequest id) s (placeFar (dropMsg s id) part aspace vpage none)) ∧
  (∀ (id t g name port va : Nat) (lanes : Mask) (s : State), Spec.InFlight s id (.peerAck t g name port va lanes) →
    let s₁ := modGroup (dropMsg s id) t g (fun x => { x with peerSent := x.peerSent.filter (· ≠ name) })
    Spec.Happens (.peerWriteAck id) s { s₁ with teams := s₁.teams.map (fun u => (u.1, { u.2 with groups := u.2.groups.map (fun x =>
      (x.1, Group.settleReleases { x.2 with releases := x.2.releases.map (fun r => { r with peers := r.peers.filter (· ≠ name) }) })) })) }) ∧
  (∀ (id t g rel : Nat) (s : State), Spec.InFlight s id (.zread t g rel) →
    (hostPending s id = true → Spec.Happens (.zeroLengthReadCompletion id) s s) ∧
    (hostPending s id = false → Spec.Happens (.zeroLengthReadCompletion id) s (modGroup (dropMsg s id) t g (fun x => Group.settleReleases { x with
      releases := x.releases.map (fun r => if r.id = rel then { r with zread := false } else r) }))))

/-- R47, R91, R250, R270, R272, R280, R282, R299, R303, R315, R326, R334: the units of a core: passes close and reach the array, sub-arrays sleep, each by its
own idle time, and wake after the wake latency, drains, predicates and
engine commands land and complete, WAITA reads again and XWAIT merges.
The model's readings in it: log entries 1, 28, 73. -/
def Obligations.UnitEvents : Prop :=
  (∀ (core : Nat) (p : Pass) (rest : List Pass) (s : State), (coreOf s core).closedPasses = p :: rest →
    (coreOf s core).gated = [] → Spec.Happens (.arrayPass core) s (runPass (modCore s core (fun c => { c with closedPasses := rest })) core p)) ∧
  (∀ (core : Nat) (p : Pass) (rest : List Pass) (s : State), (coreOf s core).openPasses = p :: rest →
    (p.opened + 16 ≤ cycleAt s core ∨ p.full = true) → (∀ q, rest.head? = some q → cycleAt s core < q.opened + 16 ∧ q.full = false) →
    Spec.Happens (.passTimeout core) s (modCore s core (fun c =>
      { c with closedPasses := c.closedPasses ++ [p], openPasses := rest }))) ∧
  (∀ (core sub : Nat) (s : State), sub < 4 → (coreOf s core).marrIdle ≠ 0 →
    nmGetD (coreOf s core).lastArray sub 0 + (coreOf s core).marrIdle ≤ cycleAt s core → (coreOf s core).openPasses = [] →
    (coreOf s core).closedPasses = [] → sub ∉ (coreOf s core).gated →
    Spec.Happens (.subarrayGate core sub) s (modCore s core (fun c => { c with gated := sub :: c.gated }))) ∧
  (∀ (core sub : Nat) (s : State), (coreOf s core).closedPasses ≠ [] → sub ∈ (coreOf s core).gated →
    (nmGet sub (coreOf s core).waking = none → Spec.Happens (.subarrayWake core sub) s
      (modCore s core (fun c => { c with waking := nmPut sub (cycleAt s core + Config.wakeLatency) c.waking }))) ∧
    (∀ w, nmGet sub (coreOf s core).waking = some w →
      (cycleAt s core < w → Spec.Happens (.subarrayWake core sub) s s) ∧
      (w ≤ cycleAt s core → Spec.Happens (.subarrayWake core sub) s
        (modCore s core (fun c => { c with gated := c.gated.filter (· ≠ sub), waking := nmDel sub c.waking }))))) ∧
  (∀ (core id : Nat) (o : PredOp) (s : State),
    s.cores.findSome? (fun p => (p.2.preds.find? (fun d => d.id = id)).map (fun d => (p.1, d))) = some (core, o) →
    let s₁ := Spec.stage2 (enterStage2 s core o) core o
    Spec.Happens (.predicateCompletion id) s (if predReady s₁ core o then landPred s₁ core o else s₁)) ∧
  (∀ (core id : Nat) (d : DrainOp) (s : State),
    s.cores.findSome? (fun p => (p.2.drains.find? (fun d => d.id = id)).map (fun d => (p.1, d))) = some (core, d) →
    (d.dst ≠ 6 ∨ resultBlocked s d.team d.group ((List.range 4).map (fun k => RegName.v (d.vd + k))) = false →
      Spec.Happens (.mdrainCompletion id) s (landDrain s core d)) ∧
    (d.dst = 6 → resultBlocked s d.team d.group ((List.range 4).map (fun k => RegName.v (d.vd + k))) = true →
      Spec.Happens (.mdrainCompletion id) s s)) ∧
  (∀ (team tl num : Nat) (t : Team) (k : Cmd) (s : State), teamOf s team = some t → t.cmd tl num = some k → t.resident = true →
    (k.kind ≠ .coll → Spec.Happens (.copyDataLanding team tl num) s (landCmd s t k)) ∧
    (k.kind = .dcmp → Spec.Happens (.dcmpStreamEnd team tl num) s (checkEnd (completeNow (landCmd s t k) team tl num) team)) ∧
    (k.landed = false → Spec.Happens (.engineCommandCompletion team tl num) s (checkEnd s team)) ∧
    (k.landed = true → k.sent = [] → k.failed = none → k.stat ≠ 1 →
      Spec.Happens (.engineCommandCompletion team tl num) s (checkEnd (modTeam s team (fun u =>
        (({ u with cmds := u.cmds.filter (fun d => !(d.tl = k.tl && d.num = k.num)) } : Team).tlComplete k.tl k.num).markLanded k.tl k.num)) team))) ∧
  (∀ (grid k : Nat) (s : State), (∀ x ∈ s.colls, x.grid = grid → x.k = k → collComplete s x = false) → Spec.Happens (.collArrival grid k) s s) ∧
  (∀ (grid k : Nat) (x : Coll) (s : State), s.colls.find? (fun x => x.grid = grid && x.k = k && collComplete s x) = some x →
    (Spec.Happens (.collArrival grid k) s
      (x.issued.foldl (fun s y => checkEnd (completeNow s y.1 y.2.1 y.2.2) y.1) (runColl s x)))) ∧
  (∀ (team gid va : Nat) (t : Team) (g : Group) (data : BitVec 6) (uns wide : BitVec 1) (base : BitVec 6) (cond : BitVec 3) (s s₁ : State)
    (c : Ctx) (s₂ s₃ s₄ : State) (acc : Access) (x : Xlat) (bs : List Byte), teamOf s team = some t → groupOf s team gid = some g →
    g.wait = some (.waita va) → fetchInstr s t g = (.ok (.waita data uns wide base cond), s₁) →
    Starts (.waita data uns wide base cond) { s₁ with cur := (team, gid) } c s₂ →
    checkMem c [⟨0, (c.s base).toNat, if wide = 1 then 8 else 4, if wide = 1 then 8 else 4, .read, .none⟩] s₂ = .ok [(acc, x)] s₃ →
    placeBusy s₃ c (c.s base).toNat = false → entryFree s₃ (c.plainRequest acc x) = true →
    heldBack s₃ (c.plainRequest acc x) s₃.nextId = false → perform s₃ (c.plainRequest acc x) = .done s₄ bs →
    let w : BitVec 1 := if wide = 1 then 0 else 1
    let v : Int := sOperand (BitVec.ofNat 64 (leNat bs)) uns w
    Spec.Happens (.waitaReread team gid) s (if intCond cond.toNat v (sOperand (c.s data) uns w) then
      retire (passYield (changeGroup c (Spec.readDone c s₄) (fun g => g.setS data.toNat (sResult v uns w))) c.tid c.gid) c.t.core c.tid c.gid
      else conclude c { s₁ with cur := (team, gid) } (.hold (.waita (c.s base).toNat) (Spec.readDone c s₄)))) ∧
  (∀ (team gid va : Nat) (t : Team) (g : Group) (s : State), teamOf s team = some t → groupOf s team gid = some g →
    g.wait = some (.waita va) → (∀ i, (fetchInstr s t g).1 ≠ .ok i) → Spec.Happens (.waitaReread team gid) s s) ∧
  (∀ (team gid : Nat) (t : Team) (g : Group) (m : BitVec 6) (s s₁ : State) (c : Ctx) (s₂ : State) (all : List Nat),
    teamOf s team = some t → groupOf s team gid = some g → g.wait = some .xwait → fetchInstr s t g = (.ok (.xwait m), s₁) →
    Starts (.xwait m) { s₁ with cur := (team, gid) } c s₂ → c.t.named (c.s m) = some all → Spec.XwaitMet c all →
    Spec.Happens (.xwaitMerge team gid) s (retire (Spec.xwaitDone c s₂) c.t.core c.tid c.gid)) ∧
  (∀ (team gid : Nat) (t : Team) (g : Group) (s : State), teamOf s team = some t → groupOf s team gid = some g → g.wait = none →
    Spec.Happens (.waitaReread team gid) s s ∧ Spec.Happens (.xwaitMerge team gid) s s)

/-- R249, R358, R360, R366, R369, R372, R375, R403, R412: pages: a walk installs its leaf; a move's source is sealed, its notice and its sectors land, and the
destination takes accesses once the notice and the resent sectors that it tells are there; once a move is
sealed and its sectors have landed it ends, the page is at its place, and requests parked on it go on; an agent moves a page home, and promotes
it once its touches have reached the threshold; a sweep, once the cluster's requests are performed or bounced, drops the old colour of its stash
entries.
The model's readings in it: log entries 1, 5, 17, 50, 70, 72. -/
def Obligations.PageEvents : Prop :=
  ((∀ (core aspace vpage ad : Nat) (l : Leaf) (lv : Nat) (s s₁ s₂ : State), stashFind s core aspace (vpage * 4096) = none →
    inPool (vpage * 4096) = false → walkDescriptor s (partOfCluster s.layout (clusterOfCore core)) aspace = (.ok ad, s₁) →
    walkRoot true s₁ (partOfCluster s.layout (clusterOfCore core)) aspace ad (vpage * 4096) = (.leaf l lv, s₂) →
    Spec.Happens (.pageWalk core aspace vpage) s (stashInstall s₂ core aspace (vpage * 4096) l)) ∧
  (∀ (mv : Nat) (m : Move) (s : State), nmGet mv s.moves = some m → m.sealed = false → m.rewritten = true →
    let f := frameAt s m.src
    let again := (sendSectors s m.src true (sectorsOf f.dirty)).1
    let s₁ := (sendSectors s m.src true (sectorsOf f.dirty)).2
    ((∀ b ∈ shelfBus m.src, busWorn s b.1 = false) → s₁ = s ∧
      again = (sectorsOf f.dirty).map (fun k => (k, f.dirty.getLsbD k, true, writeBytes [] 0 (readBytes f.data (16 * k) 16)))) ∧
    Spec.Happens (.frameSeal mv) s (freeFrame (sendRecalls { s₁ with moves := nmModify mv (fun m => { m with
      sealed := true, sectors := m.sectors ++ again, resent := again.length }) s₁.moves } m.part f.hold m.aspace m.vpage m.src) m.src)) ∧
  (∀ (mv : Nat) (m : Move) (s : State), nmGet mv s.moves = some m → m.sealed = true →
    let s₁ : State := { s with moves := nmModify mv (fun m => if m.sealed then { m with notice := true } else m) s.moves }
    Spec.Happens (.sealNotice mv) s (if isFrame m.dst = true ∧ m.resent = 0 then
      modFrame s₁ m.dst (fun f => { f with srcSealed := true }) else s₁)) ∧
  (∀ (mv sec : Nat) (m : Move) (x : Nat × Bool × Bool × Memory) (s : State), nmGet mv s.moves = some m →
    m.sectors.find? (·.1 = sec) = some x → isFrame m.dst = true →
    let left := if x.2.2.1 then m.resent - 1 else m.resent
    let r := carried { s with moves := nmModify mv (fun m => { m with
        sectors := m.sectors.erase x, resent := if x.2.2.1 then m.resent - 1 else m.resent }) s.moves } (shelfBus m.dst) (readBytes x.2.2.2 0 16)
    let s₁ := modFrame r.2 m.dst (fun f => { f with
      data := writeBytes f.data (16 * sec) r.1
      valid := f.valid ||| BitVec.ofNat 256 (2 ^ sec)
      dirty := if x.2.1 then f.dirty ||| BitVec.ofNat 256 (2 ^ sec) else f.dirty })
    Spec.Happens (.sectorLanding mv sec) s (if m.notice = true ∧ left = 0 then
      modFrame s₁ m.dst (fun f => { f with srcSealed := true }) else s₁)) ∧
  (∀ (s : State) (l : List (Nat × Bool)) (bs : List Byte), (∀ b ∈ l, busWorn s b.1 = false) → carried s l bs = (bs, s)) ∧
  (∀ (mv : Nat) (m : Move) (s : State), nmGet mv s.moves = some m →
    (m.sealed = false → Spec.Happens (.moveDone mv) s s) ∧
    (m.sealed = true → m.sectors ≠ [] → Spec.Happens (.moveDone mv) s s)) ∧
  (∀ (part aspace vpage : Nat) (l : Leaf) (s : State), leafNow s part aspace (vpage * 4096) = some l →
    Spec.Happens (.pageMove part aspace vpage .home) s (moveHome s part aspace vpage false)) ∧
  (∀ (part aspace vpage core team : Nat) (t : Team) (l : Leaf) (s : State), leafNow s part aspace (vpage * 4096) = some l →
    s.teams.find? (fun t => t.2.resident && t.2.core = core && t.2.part = part && t.2.aspace = aspace) = some (team, t) →
    let key := aspace * 2 ^ 36 + vpage
    let promoted := placeNear (modCore s core (fun x => { x with touches := nmDel key x.touches })) part core team aspace vpage false
    ((∀ idx, l.place ≠ .ext idx) → (clusterOf s (clusterOfCore core)).touchThresh ≤ nmGetD (coreOf s core).touches key 0 →
      Spec.Happens (.pageMove part aspace vpage (.near core)) s promoted) ∧
    ((∀ idx, l.place ≠ .ext idx) → nmGetD (coreOf s core).touches key 0 < (clusterOf s (clusterOfCore core)).touchThresh →
      Spec.Happens (.pageMove part aspace vpage (.near core)) s s) ∧
    (∀ idx, l.place = .ext idx → ownedPage s part idx (vpage * 4096) = none → Spec.Happens (.pageMove part aspace vpage (.near core)) s s) ∧
    (∀ idx w, l.place = .ext idx → ownedPage s part idx (vpage * 4096) = some w →
      Spec.Happens (.pageMove part aspace vpage (.near core)) s promoted)) ∧
  (∀ (core aspace vpage team c h : Nat) (t : Team) (l : Leaf) (s : State),
    s.teams.find? (fun t => t.2.resident && t.2.core = core && t.2.aspace = aspace) = some (team, t) →
    leafNow s t.part aspace (vpage * 4096) = some l → l.place = .home c h →
    let counted := modCluster s c (fun x => { x with touches := nmDel h x.touches, wanted := nmDel h x.wanted })
    (nmGet h (clusterOf s c).wanted = some (clusterOfCore core) →
      Spec.Happens (.touchPromotion core aspace vpage) s (placeFar counted t.part aspace vpage (some (clusterOfCore core)))) ∧
    (∀ cl, nmGet h (clusterOf s c).wanted = some cl → inPartition s t.part cl = true →
      Spec.Happens (.pageMove t.part aspace vpage (.far cl (h % 96))) s (placeFar counted t.part aspace vpage (some cl)))) ∧
  (∀ (cluster : Nat) (s : State), (clusterOf s cluster).lastSweep + 2 ^ 20 ≤ (clusterOf s cluster).cycle →
    (∀ m ∈ s.flight, (∃ r bs, m.2 = .result r bs) ∨ (∃ r, m.2 = .bounced r) ∨ (∃ r mv, m.2 = .parked r mv) ∨ m.2.req = none ∨
      (∃ r, m.2.req = some r ∧ (r.foreign = true ∨ clusterOfCore r.core ≠ cluster))) →
    ∃ s', Spec.Happens (.stashSweep cluster) s s' ∧ (clusterOf s' cluster).colour = !(clusterOf s cluster).colour ∧
      (clusterOf s' cluster).sweeps = (clusterOf s cluster).sweeps + 1 ∧
      (∀ core, clusterOfCore core = cluster →
        (coreOf s' core).stash = (coreOf s core).stash.filter (fun e => e.colour = (clusterOf s cluster).colour)) ∧
      (∀ core, clusterOfCore core ≠ cluster → (coreOf s' core).stash = (coreOf s core).stash))) ∧
  (∀ (mv : Nat) (m : Move) (s : State), nmGet mv s.moves = some m → m.sealed = true → m.sectors = [] →
    (m.notice = false → Spec.Happens (.moveDone mv) s s) ∧
    (m.notice = true →
    let s₁ : State := { s with moves := nmDel mv s.moves }
    let s₂ := wakeParked (if isFrame m.dst = true then modFrame (sealedAt s₁ m) m.dst (fun f => { f with state := .resident })
      else cameHome (setResidence s₁ m.hclu m.hpage none) m.part m.aspace m.vpage) mv [m.src, m.dst, .home m.hclu m.hpage]
    Spec.Happens (.moveDone mv) s (if (nmGet mv s₂.moves).isNone then followHome s₂ m else s₂)))

/-- R351, R381, R382, R393: a dispatcher decides nothing in a halted partition; a grid that has ended and whose writes are performed leaves its completion
word; a stopped team that is quiet is saved in its image and leaves its core, otherwise it has only finished what it could.
The model's readings in it: log entries 16, 38, 40, 79. -/
def Obligations.DispatcherEvents : Prop :=
  (∀ (part : Nat) (s : State), Spec.Happens (.dispatchStarvation part) s (dispatchPart s part) ∧
    ((partOf s part).halted = true ∨ s.mgmt.recovery = true → Spec.Happens (.dispatchStarvation part) s s)) ∧
  (∀ (grid : Nat) (g : Grid) (s : State), nmGet grid s.grids = some g →
    (g.finished = false ∨ gridSettled s g = false → Spec.Happens (.gridCompletion grid) s s) ∧
    (g.finished = true → gridSettled s g = true →
      let s₁ := if g.rec_.done = 0 ∨ (partOf s g.part).halted = true then s
        else devPut s g.part g.rec_.aspace ((partClusters s.layout g.part).headD 0) g.rec_.done
          (natBytes 8 ((grid % 2 ^ 32) * 2 ^ 32 + (if g.killed then 2 else 1)))
      Spec.Happens (.gridCompletion grid) s { s₁ with grids := nmDel grid s₁.grids })) ∧
  (∀ (team : Nat) (t : Team) (s : State), teamOf s team = some t →
    (t.stopping = false ∨ t.resident = false ∨ (partOf s t.part).halted = true → Spec.Happens (.swapOut team) s s) ∧
    (t.stopping = true → t.resident = true → (partOf s t.part).halted = false → t.gang = false →
      let s₁ := finishTeam (stopTeam s team 4) team
      ∀ t₁, teamOf s₁ team = some t₁ →
      (quiet s₁ t₁ = false → Spec.Happens (.swapOut team) s s₁) ∧
      (∀ s₂, quiet s₁ t₁ = true → t₁.cmds = [] → t₁.saveWhy ≠ 2 → swapTeams s₁ [t₁] false = some s₂ → Spec.Happens (.swapOut team) s s₂)))

/-! ## The host, the management block, the links and the power -/

namespace Sys2Proof.Spec

/-- The table of R407 lists a register, or a part of a block, at an aligned offset of BAR0. -/
def bar0Listed (off : Nat) : Bool :=
  let r := off % 0x10000
  off ≤ 0x58 || (0x100000 ≤ off && off < 0x140000 && (r < 0x40 ||
    [0x100, 0x108, 0x110, 0x118, 0x120, 0x128, 0x200, 0x208].contains r || (0x4000 ≤ r && r < 0x6000))) || (0x800000 ≤ off && off < 0x1000000)

end Sys2Proof.Spec

/-- R337, R379, R380, R405 to R408, R411, R412: the host's accesses: the submission port collects a record and withholds the last byte while
1,024 are in use, and completed records are accepted in their order; CXL.mem reads and writes home pages at their places; the registers of BAR0, of
which the port and every offset that R407 does not list read zero, and a write to such an offset is ignored; window tables; the release of an owned window, which ends once its framed pages have come home; the
reset of a partition.
The model's readings in it: log entries 5, 17, 42, 44. -/
def Obligations.HostEvents : Prop :=
  (∀ (part off : Nat) (bytes : List Byte) (s : State), hostIo s = true → bytes ≠ [] → partClusters s.layout part ≠ [] →
    (off + bytes.length < 64 → Spec.Happens (.submissionPortWrite part off bytes) s
      (modPart s part (fun p => { p with port := writeBytes p.port off bytes }))) ∧
    (off + bytes.length = 64 → 1024 ≤ queued s part true + (partOf s part).submitted.length →
      Spec.Happens (.submissionPortWrite part off bytes) s s) ∧
    (off + bytes.length = 64 → queued s part true + (partOf s part).submitted.length < 1024 →
      let rec_ := readBytes (writeBytes (partOf s part).port off bytes) 0 64
      let s₁ := modPart s part (fun p => { p with port := writeBytes p.port off bytes, submitted := p.submitted ++ [rec_] })
      Spec.Happens (.submissionPortWrite part off bytes) s (acceptAll part ((partOf s part).submitted ++ [rec_]) s₁))) ∧
  (∀ (part : Nat) (b : List Byte) (l : List (List Byte)) (s : State),
    acceptAll part [] s = modPart s part (fun p => { p with submitted := [] }) ∧
    (∀ s', acceptRecord s part b = some s' → acceptAll part (b :: l) s = acceptAll part l s') ∧
    (acceptRecord s part b = none → acceptAll part (b :: l) s = modPart s part (fun p => { p with submitted := b :: l }))) ∧
  (∀ (off n : Nat) (bs : List Byte) (s s' : State), hostMemUp s = true → off + n ≤ 4 * hdmSpan → hdmRead (cuts off n) s = some (bs, s') →
    Spec.Happens (.cxlMemRead off n) s { s' with hostRead := bs }) ∧
  (∀ (off : Nat) (bytes : List Byte) (s s' : State), hostMemUp s = true → off + bytes.length ≤ 4 * hdmSpan →
    hdmWrite (cuts off bytes.length) bytes s = some s' → Spec.Happens (.cxlMemWrite off bytes) s s') ∧
  (∀ (v : DWord) (s : State), hostIo s = true →
    (v.toNat % 4 = 3 ∨ (∃ p ∈ s.teams, p.2.resident = true) →
      Spec.Happens (.layoutWrite v) s { s with mgmt := { s.mgmt with layoutRefused := true } }) ∧
    (v.toNat % 4 ≠ 3 → (∀ p ∈ s.teams, p.2.resident = false) →
      Spec.Happens (.layoutWrite v) s { s with mgmt := { s.mgmt with layout := v.toNat % 4, layoutRefused := false } })) ∧
  (∀ (v : DWord) (s : State), hostIo s = true → ∃ s', Spec.Happens (.eventsClear v) s s' ∧
    ∀ i, s'.mgmt.events.testBit i = (s.mgmt.events.testBit i && decide (i < 6) && !v.getLsbD i)) ∧
  (∀ (part : Nat) (v : DWord) (s : State), hostIo s = true → part < 4 →
    let room := wrapInt (((partOf s part).mbxTail : Int) - v.toNat) 64 ≤ 2 ^ (partOf s part).mbxSize
    (room → Spec.Happens (.mbxHeadWrite part v) s (flushRecords (modPart s part (fun p => { p with mbxHead := v.toNat })) part)) ∧
    (¬ room → Spec.Happens (.mbxHeadWrite part v) s s)) ∧
  (∀ (part : Nat) (v : DWord) (s : State), hostIo s = true → part < 4 → Spec.Happens (.mbxBaseWrite part v) s
    (flushRecords (modPart s part (fun p => { p with mbxBase := v.toNat / 64 * 64 })) part)) ∧
  (∀ (part : Nat) (v : DWord) (s : State), hostIo s = true → part < 4 →
    Spec.Happens (.bar0RegisterWrite (0x100000 + 0x10000 * part + 0x118) v) s
      (flushRecords (modPart s part (fun p => { p with mbxSize := min 16 v.toNat })) part) ∧
    Spec.Happens (.bar0RegisterWrite (0x100000 + 0x10000 * part + 0x200) v) s
      (modPart s part (fun p => { p with pinBase := v.toNat / 4096 * 4096 })) ∧
    Spec.Happens (.bar0RegisterWrite (0x100000 + 0x10000 * part + 0x208) v) s (modPart s part (fun p => { p with pinSize := v.toNat })) ∧
    (∀ off, off < 0x40 → (bar0Read s (0x100000 + 0x10000 * part + off)).1 = 0) ∧
    (bar0Read s (0x100000 + 0x10000 * part + 0x100)).1 = pstat s part ∧
    (bar0Read s (0x100000 + 0x10000 * part + 0x128)).1 = (partOf s part).mbxTail ∧ (bar0Read s 0x18).1 = s.mgmt.events) ∧
  (∀ (off : Nat) (s : State), off % 8 = 0 → Spec.bar0Listed off = false → (bar0Read s off).1 = 0 ∧
    ∀ v, Spec.Happens (.bar0RegisterWrite off v) s s) ∧
  (∀ (part off : Nat) (bytes : List Byte) (s : State), hostIo s = true → part < 4 → off + bytes.length ≤ 8192 →
    (partOf s part).releasing = [] → (putWindowBytes off bytes (partOf s part)).releasing = [] →
    Spec.Happens (.windowTableWrite part off bytes) s (modPart s part (putWindowBytes off bytes))) ∧
  (∀ (part idx : Nat) (s : State), idx ∈ (partOf s part).releasing →
    let s₁ := (framedIn s part idx).foldl (fun s p => bringHome s part p) s
    (stillFramed s₁ part idx = true → Spec.Happens (.ownedReleaseDone part idx) s s₁) ∧
    (stillFramed s₁ part idx = false → Spec.Happens (.ownedReleaseDone part idx) s (modPart s₁ part (fun p => { p with
      releasing := p.releasing.filter (· ≠ idx),
      windows := writeByte p.windows (32 * idx + 0x1A) (readByte p.windows (32 * idx + 0x1A) &&& 3) })))) ∧
  (∀ (part : Nat) (s : State), hostIo s = true → part < 4 → ∃ s', Spec.Happens (.preset part 1) s s' ∧
    (partOf s' part).halted = false ∧ (partOf s' part).resumeQ = [] ∧ (partOf s' part).held = [] ∧ (partOf s' part).asBase = 0 ∧
    (partOf s' part).fqBase = 0 ∧ (partOf s' part).nextGrid = 1 ∧
    ((∀ m ∈ s.moves, m.2.part ≠ part) → (partOf s' part).windows = (partOf s part).windows ∧
      (partOf s' part).mbxTail = (partOf s part).mbxTail))

/-- R418 to R421, R423 to R428: the management block: the lifetime record's selector and flush, firmware commands (a good staged image is
written into the slot of its kind that is not running, in recovery into slot A, and is what the next power-on picks; one that fails its check is
written into none), the SPDM answers, a column's sample and
the vertical bus test.
The model's readings in it: log entries 8, 18, 19, 45, 47. -/
def Obligations.ManagementEvents : Prop :=
  (∀ (v : DWord) (s : State), hostIo s = true → Spec.Happens (.lrCmd v) s { s with mgmt := { s.mgmt with lrCmd := v } }) ∧
  (∀ (s : State), Spec.Happens .lifetimeFlush s (flushLifetime (lrBump s 8 0 4 (6 * 2 ^ 32)))) ∧
  (∀ (s : State), hostIo s = true → s.mgmt.fwBusy = false → popHold s = (false, s) →
    Spec.Happens .fwRaiseMinimumSvn s { s with mgmt := { s.mgmt with
      fwCmd := 2, fwBusy := false, fwPending := 0, fwResult := 0, minSvn := max s.mgmt.minSvn s.mgmt.runningSvn } }) ∧
  (∀ (s : State), hostIo s = true → s.mgmt.fwBusy = false → ∃ s', Spec.Happens .fwStoreStagedImage s s' ∧ s'.mgmt.fwCmd = 1 ∧
    (fwCheck s.mgmt.minSvn (readBytes s.mgmt.staging 0 (fwSize (readBytes s.mgmt.staging 0 1024))) ≠ 0 →
      fwSize (readBytes s.mgmt.staging 0 1024) ≤ 0x800000 → s'.mgmt.slots = s.mgmt.slots) ∧
    (∀ img, img = readBytes s.mgmt.staging 0 (fwSize (readBytes s.mgmt.staging 0 1024)) →
      fwSize (readBytes s.mgmt.staging 0 1024) ≤ 0x800000 → fwCheck s.mgmt.minSvn img = 0 →
      let kind := fwField img 4 1
      let into (slot : Nat) : Prop := fwSlot s'.mgmt kind slot = img ∧
        (∀ k sl, (k, sl) ≠ (kind, slot) → fwSlot s'.mgmt k sl = fwSlot s.mgmt k sl) ∧
        fwPick (freshen s').mgmt kind = some (slot, img)
      (s.mgmt.recovery = true → into 0) ∧
      (∀ running, s.mgmt.recovery = false → s.mgmt.runningSlots.findSome? (fun x => if x.1 = kind then some x.2 else none) = some running →
        into (1 - running)))) ∧
  (∀ (s : State), s.mgmt.fwBusy = true →
    Spec.Happens .fwCommandDone s { s with mgmt := { s.mgmt with fwBusy := false, fwResult := s.mgmt.fwPending } }) ∧
  (∀ (s : State), hostIo s = true →
    let gives (e : Instr) (a : Spdm) : Prop := Spec.Happens e s { s with mgmt := { s.mgmt with spdm := a } }
    gives .getVersion (.version 1 2) ∧ gives .getCapabilities .capabilities ∧ gives .negotiateAlgorithms (.algorithms true true) ∧
    gives .getDigests (.digests (sha256 Config.certificate)) ∧
    (∀ off len, gives (.getCertificate 0 off len) (.certificate ((Config.certificate.drop off).take len))) ∧
    (∀ nonce, gives (.challenge 0 nonce) (.challengeAuth (Config.deviceSign (nonce ++
      sha256 ((measurements s [1, 2, 3, 4, 5]).flatMap (·.2)))))) ∧
    (∀ i b nonce, i ≠ 255 → measurement s i = some b → gives (.getMeasurements i nonce) (.measurements [(i, b)] (Config.deviceSign (nonce ++ b)))) ∧
    (∀ nonce, gives (.getMeasurements 255 nonce) (.measurements (measurements s [1, 2, 3, 4, 5])
      (Config.deviceSign (nonce ++ (measurements s [1, 2, 3, 4, 5]).flatMap (·.2))))) ∧
    (∀ i nonce, i ≠ 255 → measurement s i = none → gives (.getMeasurements i nonce) .error)) ∧
  (∀ (cluster col : Nat) (v0 v1 : Int) (moved : Bool) (s : State), cluster < 4 → col < 192 →
    ∃ (s' : State) (x : Sensor), Spec.Happens (.sensorSample cluster col v0 v1 moved) s s' ∧
      nmGet (192 * cluster + col) s'.mgmt.sensors = some x ∧ x.s0 = v0 ∧ x.s1 = v1 ∧
      (v0 < -40 ∨ 150 < v0 → x.f0 = true) ∧ (v1 < -40 ∨ 150 < v1 → x.f1 = true) ∧
      (x.f0 = false → x.f1 = false → x.reading = max v0 v1) ∧ (x.f0 = true → x.f1 = true → x.reading = 150)) ∧
  (∀ (core : Nat) (bad : List Nat) (s : State),
    ((∃ p ∈ s.teams, p.2.resident = true ∧ p.2.core = core) → Spec.Happens (.busTest core bad) s s) ∧
    ((∀ p ∈ s.teams, p.2.resident = true → p.2.core ≠ core) → nmGetD s.mgmt.buses core [] = [] → bad = [] →
      Spec.Happens (.busTest core bad) s s) ∧
    (∀ k lanes, (∀ p ∈ s.teams, p.2.resident = true → p.2.core ≠ core) → nmGetD s.mgmt.buses core [] = [] → bad = lanes → lanes ≠ [] →
      (∀ l ∈ lanes, l / 128 = k) → ∃ s', Spec.Happens (.busTest core bad) s s' ∧
        nmGet k (nmGetD s'.mgmt.buses core []) = some ⟨lanes.eraseDups, [], [], []⟩))

/-- R413 to R416, R418, R422, R426: a peer's request outside the inbound range is refused; a link that goes down or comes up shows in `events`; the power goes at a
thermal trip, an overcurrent, a shutdown and a loss; POWER_ON begins the boot, and each stage ends in the next, in recovery with its
code, or with no link; a device that has booted is ready.
The model's readings in it: log entries 20, 46, 48. -/
def Obligations.LinkAndPowerEvents : Prop :=
  (∀ (port addr : Nat) (op : PeerOp) (s : State),
    ((gemarOf s port).up = false → Spec.Happens (.peerRequest port addr op) s s) ∧
    ((gemarOf s port).up = true → inbound s port addr (peerAcc op).2 = false →
      Spec.Happens (.peerRequest port addr op) s { s with peerAnswer := none }) ∧
    (∀ n bs s', op = .read n → (gemarOf s port).up = true → inbound s port addr n = true →
      peerRun .read (cuts addr n) [] s = some (bs, s') → Spec.Happens (.peerRequest port addr op) s { s' with peerAnswer := some bs }) ∧
    (∀ l bs s', op = .write l → (gemarOf s port).up = true → inbound s port addr l.length = true →
      peerRun (.write l) (cuts addr l.length) l s = some (bs, s') →
      Spec.Happens (.peerRequest port addr op) s { s' with peerAnswer := some bs })) ∧
  (∀ (port : Nat) (g : Gemar) (s : State), nmGet port s.gemar = some g →
    (∃ s', Spec.Happens (.flitCrcRetry port) s s' ∧ nmGet port s'.gemar = some { g with retries := g.retries + 1 }) ∧
    (∃ s', Spec.Happens (.gemarLaneLoss port) s s' ∧ nmGet port s'.gemar = some { g with lanes := 4 }) ∧
    (∀ serial, ∃ s', Spec.Happens (.linkUp port serial) s s' ∧
      s'.mgmt.events = (if g.up then s.mgmt.events else s.mgmt.events ||| 32) ∧
      nmGet port s'.gemar = some { g with up := true, lanes := 8, serial := serial }) ∧
    (g.up = false → Spec.Happens (.linkDown port) s s) ∧
    (g.up = true → s.flight = [] → ∃ s', Spec.Happens (.linkDown port) s s' ∧ s'.mgmt.events = s.mgmt.events ||| 32 ∧
      nmGet port s'.gemar = some { g with up := false })) ∧
  (∀ (s : State), Spec.Happens .powerLoss s { s with power := false } ∧
    (∀ rail, Spec.Happens (.overcurrent rail) s { s with power := false }) ∧
    Spec.Happens .orderlyShutdown s { s with power := false, mgmt := { s.mgmt with flushed := s.mgmt.lifetime } } ∧
    (∀ stack, stack < 4 → ∃ s', Spec.Happens (.thermalTrip stack) s s' ∧ s'.power = false ∧ s'.mgmt.tripped = true)) ∧
  (∀ (s : State), s.power = false → ∃ s', Spec.Happens .powerOn s s' ∧ s'.power = true ∧ s'.teams = [] ∧ s'.dram = [] ∧
    s'.mgmt.stage = 1 ∧ s'.mgmt.ready = false ∧ s'.mgmt.recovery = false ∧
    (s.mgmt.tripped = true → s'.mgmt.events.testBit 1 = true)) ∧
  (∀ (s : State), s.power = true →
    (7 ≤ s.mgmt.stage ∨ s.mgmt.recovery = true ∨ s.mgmt.stuck = true → Spec.Happens .powerOn s s) ∧
    (s.mgmt.recovery = false → s.mgmt.stuck = false →
      let goesOn (n : Nat) (s' : State) : Prop := s'.mgmt.stage = n ∧ s'.mgmt.recovery = false ∧ s'.mgmt.stuck = false
      let recovers (code : Nat) (s' : State) : Prop := s'.mgmt.recovery = true ∧ s'.mgmt.failCode = code
      let noLink (s' : State) : Prop := s'.mgmt.stuck = true ∧ s'.mgmt.stage = s.mgmt.stage
      ∃ s', Spec.Happens .powerOn s s' ∧
        (s.mgmt.stage = 1 → goesOn 2 s' ∨ noLink s') ∧
        (s.mgmt.stage = 2 → (fwPick s.mgmt 1 = none → recovers 1 s') ∧ (fwPick s.mgmt 1 ≠ none → goesOn 3 s')) ∧
        (s.mgmt.stage = 3 → goesOn 4 s' ∨ ∃ k, k < 4 ∧ recovers (0x10 + k) s') ∧
        (s.mgmt.stage = 4 → (fwPick s.mgmt 2 = none → recovers 2 s') ∧
          (fwPick s.mgmt 2 ≠ none → fwPick s.mgmt 3 = none → recovers 3 s') ∧
          (fwPick s.mgmt 2 ≠ none → fwPick s.mgmt 3 ≠ none → goesOn 5 s')) ∧
        (s.mgmt.stage = 5 → goesOn 6 s' ∨ noLink s') ∧
        (s.mgmt.stage = 6 → goesOn 7 s' ∧ s'.mgmt.ready = true)))

/-! ## Encodings -/

/-- R171, R172, R176: words written out from the encoding tables, at least one of each class, decode to the instructions that they stand for. -/
def Obligations.DecodeSanity : Prop :=
  decodeWord 3 0x000C4141 = .ok (.sadd 3 4 5 0 1) ∧ decodeWord 3 0x281400FF = .ok (.sli 5 0xFF) ∧
  decodeWord 3 0x406042E0 = .ok (.vadd 3 0 1 2 0x38 0) ∧ decodeWord 3 0x6300C108 = .ok (.ffma 0 3 1 2) ∧
  decodeWord 3 0xCC0011F0 = .ok (.ginc 0 0 8 62 0) ∧ decodeWord 3 0x8C02FC10 = .ok (.place 5 2 0) ∧
  decodeWord 3 0xA000000D = .ok (.fence 3 1) ∧ decodeWord 3 0xB9249000 = .ok (.launch 9 9) ∧
  decodeWord 3 0xE7100012 = .ok (.csrr 4 0 0x012) ∧ decodeWord 3 0xEC000007 = .ok (.halt 7) ∧ decodeWord 3 0xE6000042 = .ok (.trap 0x42) ∧
  decodeWord 3 0x1F000000 = .error .unassigned ∧ decodeWord 3 0x000C4145 = .error .reservedField

/-- R171 to R181: an encoded instruction that is well formed under a header version decodes to itself under it, with every operand at every value that its
encoding admits. -/
def Obligations.DecodeEncode : Prop :=
  ∀ (ever : Nat) (i : Instr) (w : Word), encode i = some w → i.wf ever = true → decodeWord ever w = .ok i

/-- R171, R179, R180: what decodes is well formed and encodes to the word it came from: no two words have one meaning and every reserved bit is checked. -/
def Obligations.DecodeSound : Prop :=
  ∀ (ever : Nat) (i : Instr) (w : Word), decodeWord ever w = .ok i → i.wf ever = true ∧ encode i = some w

/-! ## The reset and the invariant of the memory -/

/-- R339, R340, R363, R407, R429: after reset every core, cluster and partition has the values of the CSR table, every frame is free with tenure 0, nothing is
resident or in flight, the management block has not booted, and the memory has its canonical form (log entry 2).
The model's readings in it: log entry 3. -/
def Obligations.ResetValues : Prop :=
  ((∀ core, (coreOf State.reset core).nearQuota = 128 ∧ (coreOf State.reset core).binTimeout = 4096 ∧
    (coreOf State.reset core).marrIdle = 4096 ∧ (coreOf State.reset core).wdog = 2 ^ 32 ∧ (coreOf State.reset core).ingress = 0 ∧
    (coreOf State.reset core).split = 0x824) ∧
  (∀ c, (clusterOf State.reset c).cycle = 0 ∧ (clusterOf State.reset c).touchThresh = 16) ∧
  (∀ p, (partOf State.reset p).class0Reserve = 0 ∧ (partOf State.reset p).tslice = 0 ∧ (partOf State.reset p).asBase = 0 ∧
    (partOf State.reset p).fqBase = 0 ∧ (partOf State.reset p).fqHead = 0 ∧ (partOf State.reset p).fqTail = 0) ∧
  (∀ core n, (nearFrame State.reset core n).state = .free ∧ (nearFrame State.reset core n).ten = 0) ∧
  (∀ c sl n, (farFrame State.reset c sl n).state = .free ∧ (farFrame State.reset c sl n).ten = 0) ∧
  State.reset.layout = 0 ∧ State.reset.mgmt.stage = 0 ∧ State.reset.mgmt.events = 0 ∧ State.reset.mgmt.ready = false ∧
  State.reset.teams = [] ∧ State.reset.flight = [] ∧ (∀ p ∈ State.reset.gemar, p.2.up = false)) ∧
  (MemoryCanonical State.reset)

/-- The canonical form of memory is kept by every step, of every agent: equal memories stay equal data (log entry 2). -/
def Obligations.StepKeepsMemoryCanonical : Prop :=
  ∀ (s t : State), MemoryCanonical s → step s = .next t → MemoryCanonical t
end

