-- ==== Sys2Proof/Laws/State.lean ====
section
/-! SUPPORT. Each named update of the state, field by field: the fields that it leaves alone, and the fields of a group, a team and a
core that the register operations leave alone. All hold by unfolding one definition. -/

namespace Sys2Proof.Machine

/-! ### setCore -/

@[simp] theorem setCore_power (s : State) (c : Nat) (x : Core) : (setCore s c x).power = s.power := rfl
@[simp] theorem setCore_dram (s : State) (c : Nat) (x : Core) : (setCore s c x).dram = s.dram := rfl
@[simp] theorem setCore_clusters (s : State) (c : Nat) (x : Core) : (setCore s c x).clusters = s.clusters := rfl
@[simp] theorem setCore_parts (s : State) (c : Nat) (x : Core) : (setCore s c x).parts = s.parts := rfl
@[simp] theorem setCore_teams (s : State) (c : Nat) (x : Core) : (setCore s c x).teams = s.teams := rfl
@[simp] theorem setCore_grids (s : State) (c : Nat) (x : Core) : (setCore s c x).grids = s.grids := rfl
@[simp] theorem setCore_saved (s : State) (c : Nat) (x : Core) : (setCore s c x).saved = s.saved := rfl
@[simp] theorem setCore_flight (s : State) (c : Nat) (x : Core) : (setCore s c x).flight = s.flight := rfl
@[simp] theorem setCore_moves (s : State) (c : Nat) (x : Core) : (setCore s c x).moves = s.moves := rfl
@[simp] theorem setCore_counts (s : State) (c : Nat) (x : Core) : (setCore s c x).counts = s.counts := rfl
@[simp] theorem setCore_colls (s : State) (c : Nat) (x : Core) : (setCore s c x).colls = s.colls := rfl
@[simp] theorem setCore_mgmt (s : State) (c : Nat) (x : Core) : (setCore s c x).mgmt = s.mgmt := rfl
@[simp] theorem setCore_gemar (s : State) (c : Nat) (x : Core) : (setCore s c x).gemar = s.gemar := rfl
@[simp] theorem setCore_hostMem (s : State) (c : Nat) (x : Core) : (setCore s c x).hostMem = s.hostMem := rfl
@[simp] theorem setCore_peerMem (s : State) (c : Nat) (x : Core) : (setCore s c x).peerMem = s.peerMem := rfl
@[simp] theorem setCore_peerIn (s : State) (c : Nat) (x : Core) : (setCore s c x).peerIn = s.peerIn := rfl
@[simp] theorem setCore_hostRead (s : State) (c : Nat) (x : Core) : (setCore s c x).hostRead = s.hostRead := rfl
@[simp] theorem setCore_peerAnswer (s : State) (c : Nat) (x : Core) : (setCore s c x).peerAnswer = s.peerAnswer := rfl
@[simp] theorem setCore_msix (s : State) (c : Nat) (x : Core) : (setCore s c x).msix = s.msix := rfl
@[simp] theorem setCore_agenda (s : State) (c : Nat) (x : Core) : (setCore s c x).agenda = s.agenda := rfl
@[simp] theorem setCore_holds (s : State) (c : Nat) (x : Core) : (setCore s c x).holds = s.holds := rfl
@[simp] theorem setCore_cur (s : State) (c : Nat) (x : Core) : (setCore s c x).cur = s.cur := rfl
@[simp] theorem setCore_free (s : State) (c : Nat) (x : Core) : (setCore s c x).free = s.free := rfl
@[simp] theorem setCore_nextId (s : State) (c : Nat) (x : Core) : (setCore s c x).nextId = s.nextId := rfl

/-! ### modCore -/

@[simp] theorem modCore_power (s : State) (c : Nat) (f : Core → Core) : (modCore s c f).power = s.power := rfl
@[simp] theorem modCore_dram (s : State) (c : Nat) (f : Core → Core) : (modCore s c f).dram = s.dram := rfl
@[simp] theorem modCore_clusters (s : State) (c : Nat) (f : Core → Core) : (modCore s c f).clusters = s.clusters := rfl
@[simp] theorem modCore_parts (s : State) (c : Nat) (f : Core → Core) : (modCore s c f).parts = s.parts := rfl
@[simp] theorem modCore_teams (s : State) (c : Nat) (f : Core → Core) : (modCore s c f).teams = s.teams := rfl
@[simp] theorem modCore_grids (s : State) (c : Nat) (f : Core → Core) : (modCore s c f).grids = s.grids := rfl
@[simp] theorem modCore_saved (s : State) (c : Nat) (f : Core → Core) : (modCore s c f).saved = s.saved := rfl
@[simp] theorem modCore_flight (s : State) (c : Nat) (f : Core → Core) : (modCore s c f).flight = s.flight := rfl
@[simp] theorem modCore_moves (s : State) (c : Nat) (f : Core → Core) : (modCore s c f).moves = s.moves := rfl
@[simp] theorem modCore_counts (s : State) (c : Nat) (f : Core → Core) : (modCore s c f).counts = s.counts := rfl
@[simp] theorem modCore_colls (s : State) (c : Nat) (f : Core → Core) : (modCore s c f).colls = s.colls := rfl
@[simp] theorem modCore_mgmt (s : State) (c : Nat) (f : Core → Core) : (modCore s c f).mgmt = s.mgmt := rfl
@[simp] theorem modCore_gemar (s : State) (c : Nat) (f : Core → Core) : (modCore s c f).gemar = s.gemar := rfl
@[simp] theorem modCore_hostMem (s : State) (c : Nat) (f : Core → Core) : (modCore s c f).hostMem = s.hostMem := rfl
@[simp] theorem modCore_peerMem (s : State) (c : Nat) (f : Core → Core) : (modCore s c f).peerMem = s.peerMem := rfl
@[simp] theorem modCore_peerIn (s : State) (c : Nat) (f : Core → Core) : (modCore s c f).peerIn = s.peerIn := rfl
@[simp] theorem modCore_hostRead (s : State) (c : Nat) (f : Core → Core) : (modCore s c f).hostRead = s.hostRead := rfl
@[simp] theorem modCore_peerAnswer (s : State) (c : Nat) (f : Core → Core) : (modCore s c f).peerAnswer = s.peerAnswer := rfl
@[simp] theorem modCore_msix (s : State) (c : Nat) (f : Core → Core) : (modCore s c f).msix = s.msix := rfl
@[simp] theorem modCore_agenda (s : State) (c : Nat) (f : Core → Core) : (modCore s c f).agenda = s.agenda := rfl
@[simp] theorem modCore_holds (s : State) (c : Nat) (f : Core → Core) : (modCore s c f).holds = s.holds := rfl
@[simp] theorem modCore_cur (s : State) (c : Nat) (f : Core → Core) : (modCore s c f).cur = s.cur := rfl
@[simp] theorem modCore_free (s : State) (c : Nat) (f : Core → Core) : (modCore s c f).free = s.free := rfl
@[simp] theorem modCore_nextId (s : State) (c : Nat) (f : Core → Core) : (modCore s c f).nextId = s.nextId := rfl

/-! ### setCluster -/

@[simp] theorem setCluster_power (s : State) (c : Nat) (x : Cluster) : (setCluster s c x).power = s.power := rfl
@[simp] theorem setCluster_dram (s : State) (c : Nat) (x : Cluster) : (setCluster s c x).dram = s.dram := rfl
@[simp] theorem setCluster_cores (s : State) (c : Nat) (x : Cluster) : (setCluster s c x).cores = s.cores := rfl
@[simp] theorem setCluster_parts (s : State) (c : Nat) (x : Cluster) : (setCluster s c x).parts = s.parts := rfl
@[simp] theorem setCluster_teams (s : State) (c : Nat) (x : Cluster) : (setCluster s c x).teams = s.teams := rfl
@[simp] theorem setCluster_grids (s : State) (c : Nat) (x : Cluster) : (setCluster s c x).grids = s.grids := rfl
@[simp] theorem setCluster_saved (s : State) (c : Nat) (x : Cluster) : (setCluster s c x).saved = s.saved := rfl
@[simp] theorem setCluster_flight (s : State) (c : Nat) (x : Cluster) : (setCluster s c x).flight = s.flight := rfl
@[simp] theorem setCluster_moves (s : State) (c : Nat) (x : Cluster) : (setCluster s c x).moves = s.moves := rfl
@[simp] theorem setCluster_counts (s : State) (c : Nat) (x : Cluster) : (setCluster s c x).counts = s.counts := rfl
@[simp] theorem setCluster_colls (s : State) (c : Nat) (x : Cluster) : (setCluster s c x).colls = s.colls := rfl
@[simp] theorem setCluster_mgmt (s : State) (c : Nat) (x : Cluster) : (setCluster s c x).mgmt = s.mgmt := rfl
@[simp] theorem setCluster_gemar (s : State) (c : Nat) (x : Cluster) : (setCluster s c x).gemar = s.gemar := rfl
@[simp] theorem setCluster_hostMem (s : State) (c : Nat) (x : Cluster) : (setCluster s c x).hostMem = s.hostMem := rfl
@[simp] theorem setCluster_peerMem (s : State) (c : Nat) (x : Cluster) : (setCluster s c x).peerMem = s.peerMem := rfl
@[simp] theorem setCluster_peerIn (s : State) (c : Nat) (x : Cluster) : (setCluster s c x).peerIn = s.peerIn := rfl
@[simp] theorem setCluster_hostRead (s : State) (c : Nat) (x : Cluster) : (setCluster s c x).hostRead = s.hostRead := rfl
@[simp] theorem setCluster_peerAnswer (s : State) (c : Nat) (x : Cluster) : (setCluster s c x).peerAnswer = s.peerAnswer := rfl
@[simp] theorem setCluster_msix (s : State) (c : Nat) (x : Cluster) : (setCluster s c x).msix = s.msix := rfl
@[simp] theorem setCluster_agenda (s : State) (c : Nat) (x : Cluster) : (setCluster s c x).agenda = s.agenda := rfl
@[simp] theorem setCluster_holds (s : State) (c : Nat) (x : Cluster) : (setCluster s c x).holds = s.holds := rfl
@[simp] theorem setCluster_cur (s : State) (c : Nat) (x : Cluster) : (setCluster s c x).cur = s.cur := rfl
@[simp] theorem setCluster_free (s : State) (c : Nat) (x : Cluster) : (setCluster s c x).free = s.free := rfl
@[simp] theorem setCluster_nextId (s : State) (c : Nat) (x : Cluster) : (setCluster s c x).nextId = s.nextId := rfl

/-! ### modCluster -/

@[simp] theorem modCluster_power (s : State) (c : Nat) (f : Cluster → Cluster) : (modCluster s c f).power = s.power := rfl
@[simp] theorem modCluster_dram (s : State) (c : Nat) (f : Cluster → Cluster) : (modCluster s c f).dram = s.dram := rfl
@[simp] theorem modCluster_cores (s : State) (c : Nat) (f : Cluster → Cluster) : (modCluster s c f).cores = s.cores := rfl
@[simp] theorem modCluster_parts (s : State) (c : Nat) (f : Cluster → Cluster) : (modCluster s c f).parts = s.parts := rfl
@[simp] theorem modCluster_teams (s : State) (c : Nat) (f : Cluster → Cluster) : (modCluster s c f).teams = s.teams := rfl
@[simp] theorem modCluster_grids (s : State) (c : Nat) (f : Cluster → Cluster) : (modCluster s c f).grids = s.grids := rfl
@[simp] theorem modCluster_saved (s : State) (c : Nat) (f : Cluster → Cluster) : (modCluster s c f).saved = s.saved := rfl
@[simp] theorem modCluster_flight (s : State) (c : Nat) (f : Cluster → Cluster) : (modCluster s c f).flight = s.flight := rfl
@[simp] theorem modCluster_moves (s : State) (c : Nat) (f : Cluster → Cluster) : (modCluster s c f).moves = s.moves := rfl
@[simp] theorem modCluster_counts (s : State) (c : Nat) (f : Cluster → Cluster) : (modCluster s c f).counts = s.counts := rfl
@[simp] theorem modCluster_colls (s : State) (c : Nat) (f : Cluster → Cluster) : (modCluster s c f).colls = s.colls := rfl
@[simp] theorem modCluster_mgmt (s : State) (c : Nat) (f : Cluster → Cluster) : (modCluster s c f).mgmt = s.mgmt := rfl
@[simp] theorem modCluster_gemar (s : State) (c : Nat) (f : Cluster → Cluster) : (modCluster s c f).gemar = s.gemar := rfl
@[simp] theorem modCluster_hostMem (s : State) (c : Nat) (f : Cluster → Cluster) : (modCluster s c f).hostMem = s.hostMem := rfl
@[simp] theorem modCluster_peerMem (s : State) (c : Nat) (f : Cluster → Cluster) : (modCluster s c f).peerMem = s.peerMem := rfl
@[simp] theorem modCluster_peerIn (s : State) (c : Nat) (f : Cluster → Cluster) : (modCluster s c f).peerIn = s.peerIn := rfl
@[simp] theorem modCluster_hostRead (s : State) (c : Nat) (f : Cluster → Cluster) : (modCluster s c f).hostRead = s.hostRead := rfl
@[simp] theorem modCluster_peerAnswer (s : State) (c : Nat) (f : Cluster → Cluster) : (modCluster s c f).peerAnswer = s.peerAnswer := rfl
@[simp] theorem modCluster_msix (s : State) (c : Nat) (f : Cluster → Cluster) : (modCluster s c f).msix = s.msix := rfl
@[simp] theorem modCluster_agenda (s : State) (c : Nat) (f : Cluster → Cluster) : (modCluster s c f).agenda = s.agenda := rfl
@[simp] theorem modCluster_holds (s : State) (c : Nat) (f : Cluster → Cluster) : (modCluster s c f).holds = s.holds := rfl
@[simp] theorem modCluster_cur (s : State) (c : Nat) (f : Cluster → Cluster) : (modCluster s c f).cur = s.cur := rfl
@[simp] theorem modCluster_free (s : State) (c : Nat) (f : Cluster → Cluster) : (modCluster s c f).free = s.free := rfl
@[simp] theorem modCluster_nextId (s : State) (c : Nat) (f : Cluster → Cluster) : (modCluster s c f).nextId = s.nextId := rfl

/-! ### setPart -/

@[simp] theorem setPart_power (s : State) (p : Nat) (x : Partition) : (setPart s p x).power = s.power := rfl
@[simp] theorem setPart_dram (s : State) (p : Nat) (x : Partition) : (setPart s p x).dram = s.dram := rfl
@[simp] theorem setPart_clusters (s : State) (p : Nat) (x : Partition) : (setPart s p x).clusters = s.clusters := rfl
@[simp] theorem setPart_cores (s : State) (p : Nat) (x : Partition) : (setPart s p x).cores = s.cores := rfl
@[simp] theorem setPart_teams (s : State) (p : Nat) (x : Partition) : (setPart s p x).teams = s.teams := rfl
@[simp] theorem setPart_grids (s : State) (p : Nat) (x : Partition) : (setPart s p x).grids = s.grids := rfl
@[simp] theorem setPart_saved (s : State) (p : Nat) (x : Partition) : (setPart s p x).saved = s.saved := rfl
@[simp] theorem setPart_flight (s : State) (p : Nat) (x : Partition) : (setPart s p x).flight = s.flight := rfl
@[simp] theorem setPart_moves (s : State) (p : Nat) (x : Partition) : (setPart s p x).moves = s.moves := rfl
@[simp] theorem setPart_counts (s : State) (p : Nat) (x : Partition) : (setPart s p x).counts = s.counts := rfl
@[simp] theorem setPart_colls (s : State) (p : Nat) (x : Partition) : (setPart s p x).colls = s.colls := rfl
@[simp] theorem setPart_mgmt (s : State) (p : Nat) (x : Partition) : (setPart s p x).mgmt = s.mgmt := rfl
@[simp] theorem setPart_gemar (s : State) (p : Nat) (x : Partition) : (setPart s p x).gemar = s.gemar := rfl
@[simp] theorem setPart_hostMem (s : State) (p : Nat) (x : Partition) : (setPart s p x).hostMem = s.hostMem := rfl
@[simp] theorem setPart_peerMem (s : State) (p : Nat) (x : Partition) : (setPart s p x).peerMem = s.peerMem := rfl
@[simp] theorem setPart_peerIn (s : State) (p : Nat) (x : Partition) : (setPart s p x).peerIn = s.peerIn := rfl
@[simp] theorem setPart_hostRead (s : State) (p : Nat) (x : Partition) : (setPart s p x).hostRead = s.hostRead := rfl
@[simp] theorem setPart_peerAnswer (s : State) (p : Nat) (x : Partition) : (setPart s p x).peerAnswer = s.peerAnswer := rfl
@[simp] theorem setPart_msix (s : State) (p : Nat) (x : Partition) : (setPart s p x).msix = s.msix := rfl
@[simp] theorem setPart_agenda (s : State) (p : Nat) (x : Partition) : (setPart s p x).agenda = s.agenda := rfl
@[simp] theorem setPart_holds (s : State) (p : Nat) (x : Partition) : (setPart s p x).holds = s.holds := rfl
@[simp] theorem setPart_cur (s : State) (p : Nat) (x : Partition) : (setPart s p x).cur = s.cur := rfl
@[simp] theorem setPart_free (s : State) (p : Nat) (x : Partition) : (setPart s p x).free = s.free := rfl
@[simp] theorem setPart_nextId (s : State) (p : Nat) (x : Partition) : (setPart s p x).nextId = s.nextId := rfl

/-! ### modPart -/

@[simp] theorem modPart_power (s : State) (p : Nat) (f : Partition → Partition) : (modPart s p f).power = s.power := rfl
@[simp] theorem modPart_dram (s : State) (p : Nat) (f : Partition → Partition) : (modPart s p f).dram = s.dram := rfl
@[simp] theorem modPart_clusters (s : State) (p : Nat) (f : Partition → Partition) : (modPart s p f).clusters = s.clusters := rfl
@[simp] theorem modPart_cores (s : State) (p : Nat) (f : Partition → Partition) : (modPart s p f).cores = s.cores := rfl
@[simp] theorem modPart_teams (s : State) (p : Nat) (f : Partition → Partition) : (modPart s p f).teams = s.teams := rfl
@[simp] theorem modPart_grids (s : State) (p : Nat) (f : Partition → Partition) : (modPart s p f).grids = s.grids := rfl
@[simp] theorem modPart_saved (s : State) (p : Nat) (f : Partition → Partition) : (modPart s p f).saved = s.saved := rfl
@[simp] theorem modPart_flight (s : State) (p : Nat) (f : Partition → Partition) : (modPart s p f).flight = s.flight := rfl
@[simp] theorem modPart_moves (s : State) (p : Nat) (f : Partition → Partition) : (modPart s p f).moves = s.moves := rfl
@[simp] theorem modPart_counts (s : State) (p : Nat) (f : Partition → Partition) : (modPart s p f).counts = s.counts := rfl
@[simp] theorem modPart_colls (s : State) (p : Nat) (f : Partition → Partition) : (modPart s p f).colls = s.colls := rfl
@[simp] theorem modPart_mgmt (s : State) (p : Nat) (f : Partition → Partition) : (modPart s p f).mgmt = s.mgmt := rfl
@[simp] theorem modPart_gemar (s : State) (p : Nat) (f : Partition → Partition) : (modPart s p f).gemar = s.gemar := rfl
@[simp] theorem modPart_hostMem (s : State) (p : Nat) (f : Partition → Partition) : (modPart s p f).hostMem = s.hostMem := rfl
@[simp] theorem modPart_peerMem (s : State) (p : Nat) (f : Partition → Partition) : (modPart s p f).peerMem = s.peerMem := rfl
@[simp] theorem modPart_peerIn (s : State) (p : Nat) (f : Partition → Partition) : (modPart s p f).peerIn = s.peerIn := rfl
@[simp] theorem modPart_hostRead (s : State) (p : Nat) (f : Partition → Partition) : (modPart s p f).hostRead = s.hostRead := rfl
@[simp] theorem modPart_peerAnswer (s : State) (p : Nat) (f : Partition → Partition) : (modPart s p f).peerAnswer = s.peerAnswer := rfl
@[simp] theorem modPart_msix (s : State) (p : Nat) (f : Partition → Partition) : (modPart s p f).msix = s.msix := rfl
@[simp] theorem modPart_agenda (s : State) (p : Nat) (f : Partition → Partition) : (modPart s p f).agenda = s.agenda := rfl
@[simp] theorem modPart_holds (s : State) (p : Nat) (f : Partition → Partition) : (modPart s p f).holds = s.holds := rfl
@[simp] theorem modPart_cur (s : State) (p : Nat) (f : Partition → Partition) : (modPart s p f).cur = s.cur := rfl
@[simp] theorem modPart_free (s : State) (p : Nat) (f : Partition → Partition) : (modPart s p f).free = s.free := rfl
@[simp] theorem modPart_nextId (s : State) (p : Nat) (f : Partition → Partition) : (modPart s p f).nextId = s.nextId := rfl

/-! ### setTeam -/

@[simp] theorem setTeam_power (s : State) (t : Nat) (x : Team) : (setTeam s t x).power = s.power := rfl
@[simp] theorem setTeam_dram (s : State) (t : Nat) (x : Team) : (setTeam s t x).dram = s.dram := rfl
@[simp] theorem setTeam_clusters (s : State) (t : Nat) (x : Team) : (setTeam s t x).clusters = s.clusters := rfl
@[simp] theorem setTeam_cores (s : State) (t : Nat) (x : Team) : (setTeam s t x).cores = s.cores := rfl
@[simp] theorem setTeam_parts (s : State) (t : Nat) (x : Team) : (setTeam s t x).parts = s.parts := rfl
@[simp] theorem setTeam_grids (s : State) (t : Nat) (x : Team) : (setTeam s t x).grids = s.grids := rfl
@[simp] theorem setTeam_saved (s : State) (t : Nat) (x : Team) : (setTeam s t x).saved = s.saved := rfl
@[simp] theorem setTeam_flight (s : State) (t : Nat) (x : Team) : (setTeam s t x).flight = s.flight := rfl
@[simp] theorem setTeam_moves (s : State) (t : Nat) (x : Team) : (setTeam s t x).moves = s.moves := rfl
@[simp] theorem setTeam_counts (s : State) (t : Nat) (x : Team) : (setTeam s t x).counts = s.counts := rfl
@[simp] theorem setTeam_colls (s : State) (t : Nat) (x : Team) : (setTeam s t x).colls = s.colls := rfl
@[simp] theorem setTeam_mgmt (s : State) (t : Nat) (x : Team) : (setTeam s t x).mgmt = s.mgmt := rfl
@[simp] theorem setTeam_gemar (s : State) (t : Nat) (x : Team) : (setTeam s t x).gemar = s.gemar := rfl
@[simp] theorem setTeam_hostMem (s : State) (t : Nat) (x : Team) : (setTeam s t x).hostMem = s.hostMem := rfl
@[simp] theorem setTeam_peerMem (s : State) (t : Nat) (x : Team) : (setTeam s t x).peerMem = s.peerMem := rfl
@[simp] theorem setTeam_peerIn (s : State) (t : Nat) (x : Team) : (setTeam s t x).peerIn = s.peerIn := rfl
@[simp] theorem setTeam_hostRead (s : State) (t : Nat) (x : Team) : (setTeam s t x).hostRead = s.hostRead := rfl
@[simp] theorem setTeam_peerAnswer (s : State) (t : Nat) (x : Team) : (setTeam s t x).peerAnswer = s.peerAnswer := rfl
@[simp] theorem setTeam_msix (s : State) (t : Nat) (x : Team) : (setTeam s t x).msix = s.msix := rfl
@[simp] theorem setTeam_agenda (s : State) (t : Nat) (x : Team) : (setTeam s t x).agenda = s.agenda := rfl
@[simp] theorem setTeam_holds (s : State) (t : Nat) (x : Team) : (setTeam s t x).holds = s.holds := rfl
@[simp] theorem setTeam_cur (s : State) (t : Nat) (x : Team) : (setTeam s t x).cur = s.cur := rfl
@[simp] theorem setTeam_free (s : State) (t : Nat) (x : Team) : (setTeam s t x).free = s.free := rfl
@[simp] theorem setTeam_nextId (s : State) (t : Nat) (x : Team) : (setTeam s t x).nextId = s.nextId := rfl

/-! ### modTeam -/

@[simp] theorem modTeam_power (s : State) (t : Nat) (f : Team → Team) : (modTeam s t f).power = s.power := rfl
@[simp] theorem modTeam_dram (s : State) (t : Nat) (f : Team → Team) : (modTeam s t f).dram = s.dram := rfl
@[simp] theorem modTeam_clusters (s : State) (t : Nat) (f : Team → Team) : (modTeam s t f).clusters = s.clusters := rfl
@[simp] theorem modTeam_cores (s : State) (t : Nat) (f : Team → Team) : (modTeam s t f).cores = s.cores := rfl
@[simp] theorem modTeam_parts (s : State) (t : Nat) (f : Team → Team) : (modTeam s t f).parts = s.parts := rfl
@[simp] theorem modTeam_grids (s : State) (t : Nat) (f : Team → Team) : (modTeam s t f).grids = s.grids := rfl
@[simp] theorem modTeam_saved (s : State) (t : Nat) (f : Team → Team) : (modTeam s t f).saved = s.saved := rfl
@[simp] theorem modTeam_flight (s : State) (t : Nat) (f : Team → Team) : (modTeam s t f).flight = s.flight := rfl
@[simp] theorem modTeam_moves (s : State) (t : Nat) (f : Team → Team) : (modTeam s t f).moves = s.moves := rfl
@[simp] theorem modTeam_counts (s : State) (t : Nat) (f : Team → Team) : (modTeam s t f).counts = s.counts := rfl
@[simp] theorem modTeam_colls (s : State) (t : Nat) (f : Team → Team) : (modTeam s t f).colls = s.colls := rfl
@[simp] theorem modTeam_mgmt (s : State) (t : Nat) (f : Team → Team) : (modTeam s t f).mgmt = s.mgmt := rfl
@[simp] theorem modTeam_gemar (s : State) (t : Nat) (f : Team → Team) : (modTeam s t f).gemar = s.gemar := rfl
@[simp] theorem modTeam_hostMem (s : State) (t : Nat) (f : Team → Team) : (modTeam s t f).hostMem = s.hostMem := rfl
@[simp] theorem modTeam_peerMem (s : State) (t : Nat) (f : Team → Team) : (modTeam s t f).peerMem = s.peerMem := rfl
@[simp] theorem modTeam_peerIn (s : State) (t : Nat) (f : Team → Team) : (modTeam s t f).peerIn = s.peerIn := rfl
@[simp] theorem modTeam_hostRead (s : State) (t : Nat) (f : Team → Team) : (modTeam s t f).hostRead = s.hostRead := rfl
@[simp] theorem modTeam_peerAnswer (s : State) (t : Nat) (f : Team → Team) : (modTeam s t f).peerAnswer = s.peerAnswer := rfl
@[simp] theorem modTeam_msix (s : State) (t : Nat) (f : Team → Team) : (modTeam s t f).msix = s.msix := rfl
@[simp] theorem modTeam_agenda (s : State) (t : Nat) (f : Team → Team) : (modTeam s t f).agenda = s.agenda := rfl
@[simp] theorem modTeam_holds (s : State) (t : Nat) (f : Team → Team) : (modTeam s t f).holds = s.holds := rfl
@[simp] theorem modTeam_cur (s : State) (t : Nat) (f : Team → Team) : (modTeam s t f).cur = s.cur := rfl
@[simp] theorem modTeam_free (s : State) (t : Nat) (f : Team → Team) : (modTeam s t f).free = s.free := rfl
@[simp] theorem modTeam_nextId (s : State) (t : Nat) (f : Team → Team) : (modTeam s t f).nextId = s.nextId := rfl

/-! ### modGroup -/

@[simp] theorem modGroup_power (s : State) (t g : Nat) (f : Group → Group) : (modGroup s t g f).power = s.power := rfl
@[simp] theorem modGroup_dram (s : State) (t g : Nat) (f : Group → Group) : (modGroup s t g f).dram = s.dram := rfl
@[simp] theorem modGroup_clusters (s : State) (t g : Nat) (f : Group → Group) : (modGroup s t g f).clusters = s.clusters := rfl
@[simp] theorem modGroup_cores (s : State) (t g : Nat) (f : Group → Group) : (modGroup s t g f).cores = s.cores := rfl
@[simp] theorem modGroup_parts (s : State) (t g : Nat) (f : Group → Group) : (modGroup s t g f).parts = s.parts := rfl
@[simp] theorem modGroup_grids (s : State) (t g : Nat) (f : Group → Group) : (modGroup s t g f).grids = s.grids := rfl
@[simp] theorem modGroup_saved (s : State) (t g : Nat) (f : Group → Group) : (modGroup s t g f).saved = s.saved := rfl
@[simp] theorem modGroup_flight (s : State) (t g : Nat) (f : Group → Group) : (modGroup s t g f).flight = s.flight := rfl
@[simp] theorem modGroup_moves (s : State) (t g : Nat) (f : Group → Group) : (modGroup s t g f).moves = s.moves := rfl
@[simp] theorem modGroup_counts (s : State) (t g : Nat) (f : Group → Group) : (modGroup s t g f).counts = s.counts := rfl
@[simp] theorem modGroup_colls (s : State) (t g : Nat) (f : Group → Group) : (modGroup s t g f).colls = s.colls := rfl
@[simp] theorem modGroup_mgmt (s : State) (t g : Nat) (f : Group → Group) : (modGroup s t g f).mgmt = s.mgmt := rfl
@[simp] theorem modGroup_gemar (s : State) (t g : Nat) (f : Group → Group) : (modGroup s t g f).gemar = s.gemar := rfl
@[simp] theorem modGroup_hostMem (s : State) (t g : Nat) (f : Group → Group) : (modGroup s t g f).hostMem = s.hostMem := rfl
@[simp] theorem modGroup_peerMem (s : State) (t g : Nat) (f : Group → Group) : (modGroup s t g f).peerMem = s.peerMem := rfl
@[simp] theorem modGroup_peerIn (s : State) (t g : Nat) (f : Group → Group) : (modGroup s t g f).peerIn = s.peerIn := rfl
@[simp] theorem modGroup_hostRead (s : State) (t g : Nat) (f : Group → Group) : (modGroup s t g f).hostRead = s.hostRead := rfl
@[simp] theorem modGroup_peerAnswer (s : State) (t g : Nat) (f : Group → Group) : (modGroup s t g f).peerAnswer = s.peerAnswer := rfl
@[simp] theorem modGroup_msix (s : State) (t g : Nat) (f : Group → Group) : (modGroup s t g f).msix = s.msix := rfl
@[simp] theorem modGroup_agenda (s : State) (t g : Nat) (f : Group → Group) : (modGroup s t g f).agenda = s.agenda := rfl
@[simp] theorem modGroup_holds (s : State) (t g : Nat) (f : Group → Group) : (modGroup s t g f).holds = s.holds := rfl
@[simp] theorem modGroup_cur (s : State) (t g : Nat) (f : Group → Group) : (modGroup s t g f).cur = s.cur := rfl
@[simp] theorem modGroup_free (s : State) (t g : Nat) (f : Group → Group) : (modGroup s t g f).free = s.free := rfl
@[simp] theorem modGroup_nextId (s : State) (t g : Nat) (f : Group → Group) : (modGroup s t g f).nextId = s.nextId := rfl

/-! ### post -/

@[simp] theorem post_power (s : State) (m : Msg) : (post s m).power = s.power := rfl
@[simp] theorem post_dram (s : State) (m : Msg) : (post s m).dram = s.dram := rfl
@[simp] theorem post_clusters (s : State) (m : Msg) : (post s m).clusters = s.clusters := rfl
@[simp] theorem post_cores (s : State) (m : Msg) : (post s m).cores = s.cores := rfl
@[simp] theorem post_parts (s : State) (m : Msg) : (post s m).parts = s.parts := rfl
@[simp] theorem post_teams (s : State) (m : Msg) : (post s m).teams = s.teams := rfl
@[simp] theorem post_grids (s : State) (m : Msg) : (post s m).grids = s.grids := rfl
@[simp] theorem post_saved (s : State) (m : Msg) : (post s m).saved = s.saved := rfl
@[simp] theorem post_moves (s : State) (m : Msg) : (post s m).moves = s.moves := rfl
@[simp] theorem post_counts (s : State) (m : Msg) : (post s m).counts = s.counts := rfl
@[simp] theorem post_colls (s : State) (m : Msg) : (post s m).colls = s.colls := rfl
@[simp] theorem post_mgmt (s : State) (m : Msg) : (post s m).mgmt = s.mgmt := rfl
@[simp] theorem post_gemar (s : State) (m : Msg) : (post s m).gemar = s.gemar := rfl
@[simp] theorem post_hostMem (s : State) (m : Msg) : (post s m).hostMem = s.hostMem := rfl
@[simp] theorem post_peerMem (s : State) (m : Msg) : (post s m).peerMem = s.peerMem := rfl
@[simp] theorem post_peerIn (s : State) (m : Msg) : (post s m).peerIn = s.peerIn := rfl
@[simp] theorem post_hostRead (s : State) (m : Msg) : (post s m).hostRead = s.hostRead := rfl
@[simp] theorem post_peerAnswer (s : State) (m : Msg) : (post s m).peerAnswer = s.peerAnswer := rfl
@[simp] theorem post_msix (s : State) (m : Msg) : (post s m).msix = s.msix := rfl
@[simp] theorem post_agenda (s : State) (m : Msg) : (post s m).agenda = s.agenda := rfl
@[simp] theorem post_holds (s : State) (m : Msg) : (post s m).holds = s.holds := rfl
@[simp] theorem post_cur (s : State) (m : Msg) : (post s m).cur = s.cur := rfl
@[simp] theorem post_free (s : State) (m : Msg) : (post s m).free = s.free := rfl

/-! ### dropMsg -/

@[simp] theorem dropMsg_power (s : State) (id : Nat) : (dropMsg s id).power = s.power := rfl
@[simp] theorem dropMsg_dram (s : State) (id : Nat) : (dropMsg s id).dram = s.dram := rfl
@[simp] theorem dropMsg_clusters (s : State) (id : Nat) : (dropMsg s id).clusters = s.clusters := rfl
@[simp] theorem dropMsg_cores (s : State) (id : Nat) : (dropMsg s id).cores = s.cores := rfl
@[simp] theorem dropMsg_parts (s : State) (id : Nat) : (dropMsg s id).parts = s.parts := rfl
@[simp] theorem dropMsg_teams (s : State) (id : Nat) : (dropMsg s id).teams = s.teams := rfl
@[simp] theorem dropMsg_grids (s : State) (id : Nat) : (dropMsg s id).grids = s.grids := rfl
@[simp] theorem dropMsg_saved (s : State) (id : Nat) : (dropMsg s id).saved = s.saved := rfl
@[simp] theorem dropMsg_moves (s : State) (id : Nat) : (dropMsg s id).moves = s.moves := rfl
@[simp] theorem dropMsg_counts (s : State) (id : Nat) : (dropMsg s id).counts = s.counts := rfl
@[simp] theorem dropMsg_colls (s : State) (id : Nat) : (dropMsg s id).colls = s.colls := rfl
@[simp] theorem dropMsg_mgmt (s : State) (id : Nat) : (dropMsg s id).mgmt = s.mgmt := rfl
@[simp] theorem dropMsg_gemar (s : State) (id : Nat) : (dropMsg s id).gemar = s.gemar := rfl
@[simp] theorem dropMsg_hostMem (s : State) (id : Nat) : (dropMsg s id).hostMem = s.hostMem := rfl
@[simp] theorem dropMsg_peerMem (s : State) (id : Nat) : (dropMsg s id).peerMem = s.peerMem := rfl
@[simp] theorem dropMsg_peerIn (s : State) (id : Nat) : (dropMsg s id).peerIn = s.peerIn := rfl
@[simp] theorem dropMsg_hostRead (s : State) (id : Nat) : (dropMsg s id).hostRead = s.hostRead := rfl
@[simp] theorem dropMsg_peerAnswer (s : State) (id : Nat) : (dropMsg s id).peerAnswer = s.peerAnswer := rfl
@[simp] theorem dropMsg_msix (s : State) (id : Nat) : (dropMsg s id).msix = s.msix := rfl
@[simp] theorem dropMsg_agenda (s : State) (id : Nat) : (dropMsg s id).agenda = s.agenda := rfl
@[simp] theorem dropMsg_holds (s : State) (id : Nat) : (dropMsg s id).holds = s.holds := rfl
@[simp] theorem dropMsg_cur (s : State) (id : Nat) : (dropMsg s id).cur = s.cur := rfl
@[simp] theorem dropMsg_free (s : State) (id : Nat) : (dropMsg s id).free = s.free := rfl
@[simp] theorem dropMsg_nextId (s : State) (id : Nat) : (dropMsg s id).nextId = s.nextId := rfl

/-! ### putMsg -/

@[simp] theorem putMsg_power (s : State) (id : Nat) (m : Msg) : (putMsg s id m).power = s.power := rfl
@[simp] theorem putMsg_dram (s : State) (id : Nat) (m : Msg) : (putMsg s id m).dram = s.dram := rfl
@[simp] theorem putMsg_clusters (s : State) (id : Nat) (m : Msg) : (putMsg s id m).clusters = s.clusters := rfl
@[simp] theorem putMsg_cores (s : State) (id : Nat) (m : Msg) : (putMsg s id m).cores = s.cores := rfl
@[simp] theorem putMsg_parts (s : State) (id : Nat) (m : Msg) : (putMsg s id m).parts = s.parts := rfl
@[simp] theorem putMsg_teams (s : State) (id : Nat) (m : Msg) : (putMsg s id m).teams = s.teams := rfl
@[simp] theorem putMsg_grids (s : State) (id : Nat) (m : Msg) : (putMsg s id m).grids = s.grids := rfl
@[simp] theorem putMsg_saved (s : State) (id : Nat) (m : Msg) : (putMsg s id m).saved = s.saved := rfl
@[simp] theorem putMsg_moves (s : State) (id : Nat) (m : Msg) : (putMsg s id m).moves = s.moves := rfl
@[simp] theorem putMsg_counts (s : State) (id : Nat) (m : Msg) : (putMsg s id m).counts = s.counts := rfl
@[simp] theorem putMsg_colls (s : State) (id : Nat) (m : Msg) : (putMsg s id m).colls = s.colls := rfl
@[simp] theorem putMsg_mgmt (s : State) (id : Nat) (m : Msg) : (putMsg s id m).mgmt = s.mgmt := rfl
@[simp] theorem putMsg_gemar (s : State) (id : Nat) (m : Msg) : (putMsg s id m).gemar = s.gemar := rfl
@[simp] theorem putMsg_hostMem (s : State) (id : Nat) (m : Msg) : (putMsg s id m).hostMem = s.hostMem := rfl
@[simp] theorem putMsg_peerMem (s : State) (id : Nat) (m : Msg) : (putMsg s id m).peerMem = s.peerMem := rfl
@[simp] theorem putMsg_peerIn (s : State) (id : Nat) (m : Msg) : (putMsg s id m).peerIn = s.peerIn := rfl
@[simp] theorem putMsg_hostRead (s : State) (id : Nat) (m : Msg) : (putMsg s id m).hostRead = s.hostRead := rfl
@[simp] theorem putMsg_peerAnswer (s : State) (id : Nat) (m : Msg) : (putMsg s id m).peerAnswer = s.peerAnswer := rfl
@[simp] theorem putMsg_msix (s : State) (id : Nat) (m : Msg) : (putMsg s id m).msix = s.msix := rfl
@[simp] theorem putMsg_agenda (s : State) (id : Nat) (m : Msg) : (putMsg s id m).agenda = s.agenda := rfl
@[simp] theorem putMsg_holds (s : State) (id : Nat) (m : Msg) : (putMsg s id m).holds = s.holds := rfl
@[simp] theorem putMsg_cur (s : State) (id : Nat) (m : Msg) : (putMsg s id m).cur = s.cur := rfl
@[simp] theorem putMsg_free (s : State) (id : Nat) (m : Msg) : (putMsg s id m).free = s.free := rfl
@[simp] theorem putMsg_nextId (s : State) (id : Nat) (m : Msg) : (putMsg s id m).nextId = s.nextId := rfl

/-! ### lrBump -/

@[simp] theorem lrBump_power (s : State) (code elem field cap : Nat) : (lrBump s code elem field cap).power = s.power := rfl
@[simp] theorem lrBump_dram (s : State) (code elem field cap : Nat) : (lrBump s code elem field cap).dram = s.dram := rfl
@[simp] theorem lrBump_clusters (s : State) (code elem field cap : Nat) : (lrBump s code elem field cap).clusters = s.clusters := rfl
@[simp] theorem lrBump_cores (s : State) (code elem field cap : Nat) : (lrBump s code elem field cap).cores = s.cores := rfl
@[simp] theorem lrBump_parts (s : State) (code elem field cap : Nat) : (lrBump s code elem field cap).parts = s.parts := rfl
@[simp] theorem lrBump_teams (s : State) (code elem field cap : Nat) : (lrBump s code elem field cap).teams = s.teams := rfl
@[simp] theorem lrBump_grids (s : State) (code elem field cap : Nat) : (lrBump s code elem field cap).grids = s.grids := rfl
@[simp] theorem lrBump_saved (s : State) (code elem field cap : Nat) : (lrBump s code elem field cap).saved = s.saved := rfl
@[simp] theorem lrBump_flight (s : State) (code elem field cap : Nat) : (lrBump s code elem field cap).flight = s.flight := rfl
@[simp] theorem lrBump_moves (s : State) (code elem field cap : Nat) : (lrBump s code elem field cap).moves = s.moves := rfl
@[simp] theorem lrBump_counts (s : State) (code elem field cap : Nat) : (lrBump s code elem field cap).counts = s.counts := rfl
@[simp] theorem lrBump_colls (s : State) (code elem field cap : Nat) : (lrBump s code elem field cap).colls = s.colls := rfl
@[simp] theorem lrBump_gemar (s : State) (code elem field cap : Nat) : (lrBump s code elem field cap).gemar = s.gemar := rfl
@[simp] theorem lrBump_hostMem (s : State) (code elem field cap : Nat) : (lrBump s code elem field cap).hostMem = s.hostMem := rfl
@[simp] theorem lrBump_peerMem (s : State) (code elem field cap : Nat) : (lrBump s code elem field cap).peerMem = s.peerMem := rfl
@[simp] theorem lrBump_peerIn (s : State) (code elem field cap : Nat) : (lrBump s code elem field cap).peerIn = s.peerIn := rfl
@[simp] theorem lrBump_hostRead (s : State) (code elem field cap : Nat) : (lrBump s code elem field cap).hostRead = s.hostRead := rfl
@[simp] theorem lrBump_peerAnswer (s : State) (code elem field cap : Nat) : (lrBump s code elem field cap).peerAnswer = s.peerAnswer := rfl
@[simp] theorem lrBump_msix (s : State) (code elem field cap : Nat) : (lrBump s code elem field cap).msix = s.msix := rfl
@[simp] theorem lrBump_agenda (s : State) (code elem field cap : Nat) : (lrBump s code elem field cap).agenda = s.agenda := rfl
@[simp] theorem lrBump_holds (s : State) (code elem field cap : Nat) : (lrBump s code elem field cap).holds = s.holds := rfl
@[simp] theorem lrBump_cur (s : State) (code elem field cap : Nat) : (lrBump s code elem field cap).cur = s.cur := rfl
@[simp] theorem lrBump_free (s : State) (code elem field cap : Nat) : (lrBump s code elem field cap).free = s.free := rfl
@[simp] theorem lrBump_nextId (s : State) (code elem field cap : Nat) : (lrBump s code elem field cap).nextId = s.nextId := rfl

/-! ### takeFault -/

@[simp] theorem takeFault_power (s : State) (t g : Nat) (f : FaultInfo) : (takeFault s t g f).power = s.power := rfl
@[simp] theorem takeFault_dram (s : State) (t g : Nat) (f : FaultInfo) : (takeFault s t g f).dram = s.dram := rfl
@[simp] theorem takeFault_clusters (s : State) (t g : Nat) (f : FaultInfo) : (takeFault s t g f).clusters = s.clusters := rfl
@[simp] theorem takeFault_cores (s : State) (t g : Nat) (f : FaultInfo) : (takeFault s t g f).cores = s.cores := rfl
@[simp] theorem takeFault_parts (s : State) (t g : Nat) (f : FaultInfo) : (takeFault s t g f).parts = s.parts := rfl
@[simp] theorem takeFault_grids (s : State) (t g : Nat) (f : FaultInfo) : (takeFault s t g f).grids = s.grids := rfl
@[simp] theorem takeFault_saved (s : State) (t g : Nat) (f : FaultInfo) : (takeFault s t g f).saved = s.saved := rfl
@[simp] theorem takeFault_flight (s : State) (t g : Nat) (f : FaultInfo) : (takeFault s t g f).flight = s.flight := rfl
@[simp] theorem takeFault_moves (s : State) (t g : Nat) (f : FaultInfo) : (takeFault s t g f).moves = s.moves := rfl
@[simp] theorem takeFault_counts (s : State) (t g : Nat) (f : FaultInfo) : (takeFault s t g f).counts = s.counts := rfl
@[simp] theorem takeFault_colls (s : State) (t g : Nat) (f : FaultInfo) : (takeFault s t g f).colls = s.colls := rfl
@[simp] theorem takeFault_mgmt (s : State) (t g : Nat) (f : FaultInfo) : (takeFault s t g f).mgmt = s.mgmt := rfl
@[simp] theorem takeFault_gemar (s : State) (t g : Nat) (f : FaultInfo) : (takeFault s t g f).gemar = s.gemar := rfl
@[simp] theorem takeFault_hostMem (s : State) (t g : Nat) (f : FaultInfo) : (takeFault s t g f).hostMem = s.hostMem := rfl
@[simp] theorem takeFault_peerMem (s : State) (t g : Nat) (f : FaultInfo) : (takeFault s t g f).peerMem = s.peerMem := rfl
@[simp] theorem takeFault_peerIn (s : State) (t g : Nat) (f : FaultInfo) : (takeFault s t g f).peerIn = s.peerIn := rfl
@[simp] theorem takeFault_hostRead (s : State) (t g : Nat) (f : FaultInfo) : (takeFault s t g f).hostRead = s.hostRead := rfl
@[simp] theorem takeFault_peerAnswer (s : State) (t g : Nat) (f : FaultInfo) : (takeFault s t g f).peerAnswer = s.peerAnswer := rfl
@[simp] theorem takeFault_msix (s : State) (t g : Nat) (f : FaultInfo) : (takeFault s t g f).msix = s.msix := rfl
@[simp] theorem takeFault_agenda (s : State) (t g : Nat) (f : FaultInfo) : (takeFault s t g f).agenda = s.agenda := rfl
@[simp] theorem takeFault_holds (s : State) (t g : Nat) (f : FaultInfo) : (takeFault s t g f).holds = s.holds := rfl
@[simp] theorem takeFault_cur (s : State) (t g : Nat) (f : FaultInfo) : (takeFault s t g f).cur = s.cur := rfl
@[simp] theorem takeFault_free (s : State) (t g : Nat) (f : FaultInfo) : (takeFault s t g f).free = s.free := rfl
@[simp] theorem takeFault_nextId (s : State) (t g : Nat) (f : FaultInfo) : (takeFault s t g f).nextId = s.nextId := rfl

/-! ### passYield -/

@[simp] theorem passYield_power (s : State) (t g : Nat) : (passYield s t g).power = s.power := rfl
@[simp] theorem passYield_dram (s : State) (t g : Nat) : (passYield s t g).dram = s.dram := rfl
@[simp] theorem passYield_clusters (s : State) (t g : Nat) : (passYield s t g).clusters = s.clusters := rfl
@[simp] theorem passYield_cores (s : State) (t g : Nat) : (passYield s t g).cores = s.cores := rfl
@[simp] theorem passYield_parts (s : State) (t g : Nat) : (passYield s t g).parts = s.parts := rfl
@[simp] theorem passYield_grids (s : State) (t g : Nat) : (passYield s t g).grids = s.grids := rfl
@[simp] theorem passYield_saved (s : State) (t g : Nat) : (passYield s t g).saved = s.saved := rfl
@[simp] theorem passYield_flight (s : State) (t g : Nat) : (passYield s t g).flight = s.flight := rfl
@[simp] theorem passYield_moves (s : State) (t g : Nat) : (passYield s t g).moves = s.moves := rfl
@[simp] theorem passYield_counts (s : State) (t g : Nat) : (passYield s t g).counts = s.counts := rfl
@[simp] theorem passYield_colls (s : State) (t g : Nat) : (passYield s t g).colls = s.colls := rfl
@[simp] theorem passYield_mgmt (s : State) (t g : Nat) : (passYield s t g).mgmt = s.mgmt := rfl
@[simp] theorem passYield_gemar (s : State) (t g : Nat) : (passYield s t g).gemar = s.gemar := rfl
@[simp] theorem passYield_hostMem (s : State) (t g : Nat) : (passYield s t g).hostMem = s.hostMem := rfl
@[simp] theorem passYield_peerMem (s : State) (t g : Nat) : (passYield s t g).peerMem = s.peerMem := rfl
@[simp] theorem passYield_peerIn (s : State) (t g : Nat) : (passYield s t g).peerIn = s.peerIn := rfl
@[simp] theorem passYield_hostRead (s : State) (t g : Nat) : (passYield s t g).hostRead = s.hostRead := rfl
@[simp] theorem passYield_peerAnswer (s : State) (t g : Nat) : (passYield s t g).peerAnswer = s.peerAnswer := rfl
@[simp] theorem passYield_msix (s : State) (t g : Nat) : (passYield s t g).msix = s.msix := rfl
@[simp] theorem passYield_agenda (s : State) (t g : Nat) : (passYield s t g).agenda = s.agenda := rfl
@[simp] theorem passYield_holds (s : State) (t g : Nat) : (passYield s t g).holds = s.holds := rfl
@[simp] theorem passYield_cur (s : State) (t g : Nat) : (passYield s t g).cur = s.cur := rfl
@[simp] theorem passYield_nextId (s : State) (t g : Nat) : (passYield s t g).nextId = s.nextId := rfl

/-! ### countWrite -/

@[simp] theorem countWrite_power (s : State) (pt : CountPoint) (src : Source) : (countWrite s pt src).power = s.power := rfl
@[simp] theorem countWrite_dram (s : State) (pt : CountPoint) (src : Source) : (countWrite s pt src).dram = s.dram := rfl
@[simp] theorem countWrite_clusters (s : State) (pt : CountPoint) (src : Source) : (countWrite s pt src).clusters = s.clusters := rfl
@[simp] theorem countWrite_cores (s : State) (pt : CountPoint) (src : Source) : (countWrite s pt src).cores = s.cores := rfl
@[simp] theorem countWrite_parts (s : State) (pt : CountPoint) (src : Source) : (countWrite s pt src).parts = s.parts := rfl
@[simp] theorem countWrite_teams (s : State) (pt : CountPoint) (src : Source) : (countWrite s pt src).teams = s.teams := rfl
@[simp] theorem countWrite_grids (s : State) (pt : CountPoint) (src : Source) : (countWrite s pt src).grids = s.grids := rfl
@[simp] theorem countWrite_saved (s : State) (pt : CountPoint) (src : Source) : (countWrite s pt src).saved = s.saved := rfl
@[simp] theorem countWrite_flight (s : State) (pt : CountPoint) (src : Source) : (countWrite s pt src).flight = s.flight := rfl
@[simp] theorem countWrite_moves (s : State) (pt : CountPoint) (src : Source) : (countWrite s pt src).moves = s.moves := rfl
@[simp] theorem countWrite_colls (s : State) (pt : CountPoint) (src : Source) : (countWrite s pt src).colls = s.colls := rfl
@[simp] theorem countWrite_mgmt (s : State) (pt : CountPoint) (src : Source) : (countWrite s pt src).mgmt = s.mgmt := rfl
@[simp] theorem countWrite_gemar (s : State) (pt : CountPoint) (src : Source) : (countWrite s pt src).gemar = s.gemar := rfl
@[simp] theorem countWrite_hostMem (s : State) (pt : CountPoint) (src : Source) : (countWrite s pt src).hostMem = s.hostMem := rfl
@[simp] theorem countWrite_peerMem (s : State) (pt : CountPoint) (src : Source) : (countWrite s pt src).peerMem = s.peerMem := rfl
@[simp] theorem countWrite_peerIn (s : State) (pt : CountPoint) (src : Source) : (countWrite s pt src).peerIn = s.peerIn := rfl
@[simp] theorem countWrite_hostRead (s : State) (pt : CountPoint) (src : Source) : (countWrite s pt src).hostRead = s.hostRead := rfl
@[simp] theorem countWrite_peerAnswer (s : State) (pt : CountPoint) (src : Source) : (countWrite s pt src).peerAnswer = s.peerAnswer := rfl
@[simp] theorem countWrite_msix (s : State) (pt : CountPoint) (src : Source) : (countWrite s pt src).msix = s.msix := rfl
@[simp] theorem countWrite_agenda (s : State) (pt : CountPoint) (src : Source) : (countWrite s pt src).agenda = s.agenda := rfl
@[simp] theorem countWrite_holds (s : State) (pt : CountPoint) (src : Source) : (countWrite s pt src).holds = s.holds := rfl
@[simp] theorem countWrite_cur (s : State) (pt : CountPoint) (src : Source) : (countWrite s pt src).cur = s.cur := rfl
@[simp] theorem countWrite_free (s : State) (pt : CountPoint) (src : Source) : (countWrite s pt src).free = s.free := rfl
@[simp] theorem countWrite_nextId (s : State) (pt : CountPoint) (src : Source) : (countWrite s pt src).nextId = s.nextId := rfl

/-! ### clearCount -/

@[simp] theorem clearCount_power (s : State) (pt : CountPoint) (src : Source) : (clearCount s pt src).power = s.power := rfl
@[simp] theorem clearCount_dram (s : State) (pt : CountPoint) (src : Source) : (clearCount s pt src).dram = s.dram := rfl
@[simp] theorem clearCount_clusters (s : State) (pt : CountPoint) (src : Source) : (clearCount s pt src).clusters = s.clusters := rfl
@[simp] theorem clearCount_cores (s : State) (pt : CountPoint) (src : Source) : (clearCount s pt src).cores = s.cores := rfl
@[simp] theorem clearCount_parts (s : State) (pt : CountPoint) (src : Source) : (clearCount s pt src).parts = s.parts := rfl
@[simp] theorem clearCount_teams (s : State) (pt : CountPoint) (src : Source) : (clearCount s pt src).teams = s.teams := rfl
@[simp] theorem clearCount_grids (s : State) (pt : CountPoint) (src : Source) : (clearCount s pt src).grids = s.grids := rfl
@[simp] theorem clearCount_saved (s : State) (pt : CountPoint) (src : Source) : (clearCount s pt src).saved = s.saved := rfl
@[simp] theorem clearCount_flight (s : State) (pt : CountPoint) (src : Source) : (clearCount s pt src).flight = s.flight := rfl
@[simp] theorem clearCount_moves (s : State) (pt : CountPoint) (src : Source) : (clearCount s pt src).moves = s.moves := rfl
@[simp] theorem clearCount_colls (s : State) (pt : CountPoint) (src : Source) : (clearCount s pt src).colls = s.colls := rfl
@[simp] theorem clearCount_mgmt (s : State) (pt : CountPoint) (src : Source) : (clearCount s pt src).mgmt = s.mgmt := rfl
@[simp] theorem clearCount_gemar (s : State) (pt : CountPoint) (src : Source) : (clearCount s pt src).gemar = s.gemar := rfl
@[simp] theorem clearCount_hostMem (s : State) (pt : CountPoint) (src : Source) : (clearCount s pt src).hostMem = s.hostMem := rfl
@[simp] theorem clearCount_peerMem (s : State) (pt : CountPoint) (src : Source) : (clearCount s pt src).peerMem = s.peerMem := rfl
@[simp] theorem clearCount_peerIn (s : State) (pt : CountPoint) (src : Source) : (clearCount s pt src).peerIn = s.peerIn := rfl
@[simp] theorem clearCount_hostRead (s : State) (pt : CountPoint) (src : Source) : (clearCount s pt src).hostRead = s.hostRead := rfl
@[simp] theorem clearCount_peerAnswer (s : State) (pt : CountPoint) (src : Source) : (clearCount s pt src).peerAnswer = s.peerAnswer := rfl
@[simp] theorem clearCount_msix (s : State) (pt : CountPoint) (src : Source) : (clearCount s pt src).msix = s.msix := rfl
@[simp] theorem clearCount_agenda (s : State) (pt : CountPoint) (src : Source) : (clearCount s pt src).agenda = s.agenda := rfl
@[simp] theorem clearCount_holds (s : State) (pt : CountPoint) (src : Source) : (clearCount s pt src).holds = s.holds := rfl
@[simp] theorem clearCount_cur (s : State) (pt : CountPoint) (src : Source) : (clearCount s pt src).cur = s.cur := rfl
@[simp] theorem clearCount_free (s : State) (pt : CountPoint) (src : Source) : (clearCount s pt src).free = s.free := rfl
@[simp] theorem clearCount_nextId (s : State) (pt : CountPoint) (src : Source) : (clearCount s pt src).nextId = s.nextId := rfl

/-! ### The field that each changes -/

@[simp] theorem setCore_cores (s : State) (c : Nat) (x : Core) : (setCore s c x).cores = nmPut c x s.cores := rfl
@[simp] theorem modCore_cores (s : State) (c : Nat) (f : Core → Core) : (modCore s c f).cores = nmPut c (f (coreOf s c)) s.cores := rfl
@[simp] theorem setCluster_clusters (s : State) (c : Nat) (x : Cluster) : (setCluster s c x).clusters = nmPut c x s.clusters := rfl
@[simp] theorem modCluster_clusters (s : State) (c : Nat) (f : Cluster → Cluster) : (modCluster s c f).clusters = nmPut c (f (clusterOf s c)) s.clusters := rfl
@[simp] theorem setPart_parts (s : State) (p : Nat) (x : Partition) : (setPart s p x).parts = nmPut p x s.parts := rfl
@[simp] theorem modPart_parts (s : State) (p : Nat) (f : Partition → Partition) : (modPart s p f).parts = nmPut p (f (partOf s p)) s.parts := rfl
@[simp] theorem setTeam_teams (s : State) (t : Nat) (x : Team) : (setTeam s t x).teams = nmPut t x s.teams := rfl
@[simp] theorem modTeam_teams (s : State) (t : Nat) (f : Team → Team) : (modTeam s t f).teams = nmModify t f s.teams := rfl
@[simp] theorem modGroup_teams (s : State) (t g : Nat) (f : Group → Group) : (modGroup s t g f).teams = nmModify t (fun y => y.modGroup g f) s.teams := rfl
@[simp] theorem post_flight (s : State) (m : Msg) : (post s m).flight = nmPut s.nextId m s.flight := rfl
@[simp] theorem dropMsg_flight (s : State) (id : Nat) : (dropMsg s id).flight = nmDel id s.flight := rfl
@[simp] theorem putMsg_flight (s : State) (id : Nat) (m : Msg) : (putMsg s id m).flight = nmPut id m s.flight := rfl
@[simp] theorem post_nextId (s : State) (m : Msg) : (post s m).nextId = s.nextId + 1 := rfl
@[simp] theorem passYield_free (s : State) (t g : Nat) : (passYield s t g).free = s.free + 192 := rfl

/-! ### Groups -/

@[simp] theorem Group.setS_index (g : Group) (n : Nat) (v : DWord) : (g.setS n v).index = g.index := by
  unfold Group.setS; split <;> rfl
@[simp] theorem Group.setS_producer (g : Group) (n : Nat) (v : DWord) : (g.setS n v).producer = g.producer := by
  unfold Group.setS; split <;> rfl
@[simp] theorem Group.setS_launched (g : Group) (n : Nat) (v : DWord) : (g.setS n v).launched = g.launched := by
  unfold Group.setS; split <;> rfl
@[simp] theorem Group.setS_bin (g : Group) (n : Nat) (v : DWord) : (g.setS n v).bin = g.bin := by
  unfold Group.setS; split <;> rfl
@[simp] theorem Group.setS_masks (g : Group) (n : Nat) (v : DWord) : (g.setS n v).masks = g.masks := by
  unfold Group.setS; split <;> rfl
@[simp] theorem Group.setS_latches (g : Group) (n : Nat) (v : DWord) : (g.setS n v).latches = g.latches := by
  unfold Group.setS; split <;> rfl
@[simp] theorem Group.setS_fmt (g : Group) (n : Nat) (v : DWord) : (g.setS n v).fmt = g.fmt := by
  unfold Group.setS; split <;> rfl
@[simp] theorem Group.setS_fflags (g : Group) (n : Nat) (v : DWord) : (g.setS n v).fflags = g.fflags := by
  unfold Group.setS; split <;> rfl
@[simp] theorem Group.setS_stack (g : Group) (n : Nat) (v : DWord) : (g.setS n v).stack = g.stack := by
  unfold Group.setS; split <;> rfl
@[simp] theorem Group.setS_pc (g : Group) (n : Nat) (v : DWord) : (g.setS n v).pc = g.pc := by
  unfold Group.setS; split <;> rfl
@[simp] theorem Group.setS_rep (g : Group) (n : Nat) (v : DWord) : (g.setS n v).rep = g.rep := by
  unfold Group.setS; split <;> rfl
@[simp] theorem Group.setS_hints (g : Group) (n : Nat) (v : DWord) : (g.setS n v).hints = g.hints := by
  unfold Group.setS; split <;> rfl
@[simp] theorem Group.setS_wait (g : Group) (n : Nat) (v : DWord) : (g.setS n v).wait = g.wait := by
  unfold Group.setS; split <;> rfl
@[simp] theorem Group.setS_since (g : Group) (n : Nat) (v : DWord) : (g.setS n v).since = g.since := by
  unfold Group.setS; split <;> rfl
@[simp] theorem Group.setS_notBefore (g : Group) (n : Nat) (v : DWord) : (g.setS n v).notBefore = g.notBefore := by
  unfold Group.setS; split <;> rfl
@[simp] theorem Group.setS_fresh (g : Group) (n : Nat) (v : DWord) : (g.setS n v).fresh = g.fresh := by
  unfold Group.setS; split <;> rfl
@[simp] theorem Group.setS_phase (g : Group) (n : Nat) (v : DWord) : (g.setS n v).phase = g.phase := by
  unfold Group.setS; split <;> rfl
@[simp] theorem Group.setS_sent (g : Group) (n : Nat) (v : DWord) : (g.setS n v).sent = g.sent := by
  unfold Group.setS; split <;> rfl
@[simp] theorem Group.setS_peerSent (g : Group) (n : Nat) (v : DWord) : (g.setS n v).peerSent = g.peerSent := by
  unfold Group.setS; split <;> rfl
@[simp] theorem Group.setS_hostSent (g : Group) (n : Nat) (v : DWord) : (g.setS n v).hostSent = g.hostSent := by
  unfold Group.setS; split <;> rfl
@[simp] theorem Group.setS_releases (g : Group) (n : Nat) (v : DWord) : (g.setS n v).releases = g.releases := by
  unfold Group.setS; split <;> rfl
@[simp] theorem Group.setS_placeHome (g : Group) (n : Nat) (v : DWord) : (g.setS n v).placeHome = g.placeHome := by
  unfold Group.setS; split <;> rfl
@[simp] theorem Group.setS_arrived (g : Group) (n : Nat) (v : DWord) : (g.setS n v).arrived = g.arrived := by
  unfold Group.setS; split <;> rfl
@[simp] theorem Group.setS_fences (g : Group) (n : Nat) (v : DWord) : (g.setS n v).fences = g.fences := by
  unfold Group.setS; split <;> rfl
@[simp] theorem Group.setS_fault (g : Group) (n : Nat) (v : DWord) : (g.setS n v).fault = g.fault := by
  unfold Group.setS; split <;> rfl
@[simp] theorem Group.setS_fetchTries (g : Group) (n : Nat) (v : DWord) : (g.setS n v).fetchTries = g.fetchTries := by
  unfold Group.setS; split <;> rfl
@[simp] theorem Group.setS_readTries (g : Group) (n : Nat) (v : DWord) : (g.setS n v).readTries = g.readTries := by
  unfold Group.setS; split <;> rfl
@[simp] theorem Group.setS_registered (g : Group) (n : Nat) (v : DWord) : (g.setS n v).registered = g.registered := by
  unfold Group.setS; split <;> rfl
@[simp] theorem Group.setS_sectors (g : Group) (n : Nat) (v : DWord) : (g.setS n v).sectors = g.sectors := by
  unfold Group.setS; split <;> rfl
@[simp] theorem Group.setMask_index (g : Group) (n : Nat) (v : Mask) : (g.setMask n v).index = g.index := rfl
@[simp] theorem Group.setMask_producer (g : Group) (n : Nat) (v : Mask) : (g.setMask n v).producer = g.producer := rfl
@[simp] theorem Group.setMask_launched (g : Group) (n : Nat) (v : Mask) : (g.setMask n v).launched = g.launched := rfl
@[simp] theorem Group.setMask_bin (g : Group) (n : Nat) (v : Mask) : (g.setMask n v).bin = g.bin := rfl
@[simp] theorem Group.setMask_sregs (g : Group) (n : Nat) (v : Mask) : (g.setMask n v).sregs = g.sregs := rfl
@[simp] theorem Group.setMask_latches (g : Group) (n : Nat) (v : Mask) : (g.setMask n v).latches = g.latches := rfl
@[simp] theorem Group.setMask_fmt (g : Group) (n : Nat) (v : Mask) : (g.setMask n v).fmt = g.fmt := rfl
@[simp] theorem Group.setMask_fflags (g : Group) (n : Nat) (v : Mask) : (g.setMask n v).fflags = g.fflags := rfl
@[simp] theorem Group.setMask_stack (g : Group) (n : Nat) (v : Mask) : (g.setMask n v).stack = g.stack := rfl
@[simp] theorem Group.setMask_pc (g : Group) (n : Nat) (v : Mask) : (g.setMask n v).pc = g.pc := rfl
@[simp] theorem Group.setMask_rep (g : Group) (n : Nat) (v : Mask) : (g.setMask n v).rep = g.rep := rfl
@[simp] theorem Group.setMask_hints (g : Group) (n : Nat) (v : Mask) : (g.setMask n v).hints = g.hints := rfl
@[simp] theorem Group.setMask_wait (g : Group) (n : Nat) (v : Mask) : (g.setMask n v).wait = g.wait := rfl
@[simp] theorem Group.setMask_since (g : Group) (n : Nat) (v : Mask) : (g.setMask n v).since = g.since := rfl
@[simp] theorem Group.setMask_notBefore (g : Group) (n : Nat) (v : Mask) : (g.setMask n v).notBefore = g.notBefore := rfl
@[simp] theorem Group.setMask_fresh (g : Group) (n : Nat) (v : Mask) : (g.setMask n v).fresh = g.fresh := rfl
@[simp] theorem Group.setMask_phase (g : Group) (n : Nat) (v : Mask) : (g.setMask n v).phase = g.phase := rfl
@[simp] theorem Group.setMask_sent (g : Group) (n : Nat) (v : Mask) : (g.setMask n v).sent = g.sent := rfl
@[simp] theorem Group.setMask_peerSent (g : Group) (n : Nat) (v : Mask) : (g.setMask n v).peerSent = g.peerSent := rfl
@[simp] theorem Group.setMask_hostSent (g : Group) (n : Nat) (v : Mask) : (g.setMask n v).hostSent = g.hostSent := rfl
@[simp] theorem Group.setMask_releases (g : Group) (n : Nat) (v : Mask) : (g.setMask n v).releases = g.releases := rfl
@[simp] theorem Group.setMask_placeHome (g : Group) (n : Nat) (v : Mask) : (g.setMask n v).placeHome = g.placeHome := rfl
@[simp] theorem Group.setMask_arrived (g : Group) (n : Nat) (v : Mask) : (g.setMask n v).arrived = g.arrived := rfl
@[simp] theorem Group.setMask_fences (g : Group) (n : Nat) (v : Mask) : (g.setMask n v).fences = g.fences := rfl
@[simp] theorem Group.setMask_fault (g : Group) (n : Nat) (v : Mask) : (g.setMask n v).fault = g.fault := rfl
@[simp] theorem Group.setMask_fetchTries (g : Group) (n : Nat) (v : Mask) : (g.setMask n v).fetchTries = g.fetchTries := rfl
@[simp] theorem Group.setMask_readTries (g : Group) (n : Nat) (v : Mask) : (g.setMask n v).readTries = g.readTries := rfl
@[simp] theorem Group.setMask_registered (g : Group) (n : Nat) (v : Mask) : (g.setMask n v).registered = g.registered := rfl
@[simp] theorem Group.setMask_sectors (g : Group) (n : Nat) (v : Mask) : (g.setMask n v).sectors = g.sectors := rfl
@[simp] theorem Group.latch_index (g : Group) (x : Lanes) : (g.latch x).index = g.index := rfl
@[simp] theorem Group.latch_producer (g : Group) (x : Lanes) : (g.latch x).producer = g.producer := rfl
@[simp] theorem Group.latch_launched (g : Group) (x : Lanes) : (g.latch x).launched = g.launched := rfl
@[simp] theorem Group.latch_bin (g : Group) (x : Lanes) : (g.latch x).bin = g.bin := rfl
@[simp] theorem Group.latch_sregs (g : Group) (x : Lanes) : (g.latch x).sregs = g.sregs := rfl
@[simp] theorem Group.latch_masks (g : Group) (x : Lanes) : (g.latch x).masks = g.masks := rfl
@[simp] theorem Group.latch_fmt (g : Group) (x : Lanes) : (g.latch x).fmt = g.fmt := rfl
@[simp] theorem Group.latch_fflags (g : Group) (x : Lanes) : (g.latch x).fflags = g.fflags := rfl
@[simp] theorem Group.latch_stack (g : Group) (x : Lanes) : (g.latch x).stack = g.stack := rfl
@[simp] theorem Group.latch_pc (g : Group) (x : Lanes) : (g.latch x).pc = g.pc := rfl
@[simp] theorem Group.latch_rep (g : Group) (x : Lanes) : (g.latch x).rep = g.rep := rfl
@[simp] theorem Group.latch_hints (g : Group) (x : Lanes) : (g.latch x).hints = g.hints := rfl
@[simp] theorem Group.latch_wait (g : Group) (x : Lanes) : (g.latch x).wait = g.wait := rfl
@[simp] theorem Group.latch_since (g : Group) (x : Lanes) : (g.latch x).since = g.since := rfl
@[simp] theorem Group.latch_notBefore (g : Group) (x : Lanes) : (g.latch x).notBefore = g.notBefore := rfl
@[simp] theorem Group.latch_fresh (g : Group) (x : Lanes) : (g.latch x).fresh = g.fresh := rfl
@[simp] theorem Group.latch_phase (g : Group) (x : Lanes) : (g.latch x).phase = g.phase := rfl
@[simp] theorem Group.latch_sent (g : Group) (x : Lanes) : (g.latch x).sent = g.sent := rfl
@[simp] theorem Group.latch_peerSent (g : Group) (x : Lanes) : (g.latch x).peerSent = g.peerSent := rfl
@[simp] theorem Group.latch_hostSent (g : Group) (x : Lanes) : (g.latch x).hostSent = g.hostSent := rfl
@[simp] theorem Group.latch_releases (g : Group) (x : Lanes) : (g.latch x).releases = g.releases := rfl
@[simp] theorem Group.latch_placeHome (g : Group) (x : Lanes) : (g.latch x).placeHome = g.placeHome := rfl
@[simp] theorem Group.latch_arrived (g : Group) (x : Lanes) : (g.latch x).arrived = g.arrived := rfl
@[simp] theorem Group.latch_fences (g : Group) (x : Lanes) : (g.latch x).fences = g.fences := rfl
@[simp] theorem Group.latch_fault (g : Group) (x : Lanes) : (g.latch x).fault = g.fault := rfl
@[simp] theorem Group.latch_fetchTries (g : Group) (x : Lanes) : (g.latch x).fetchTries = g.fetchTries := rfl
@[simp] theorem Group.latch_readTries (g : Group) (x : Lanes) : (g.latch x).readTries = g.readTries := rfl
@[simp] theorem Group.latch_registered (g : Group) (x : Lanes) : (g.latch x).registered = g.registered := rfl
@[simp] theorem Group.latch_sectors (g : Group) (x : Lanes) : (g.latch x).sectors = g.sectors := rfl

/-! ### Teams -/

@[simp] theorem Team.modGroup_id (t : Team) (g : Nat) (f : Group → Group) : (t.modGroup g f).id = t.id := rfl
@[simp] theorem Team.modGroup_part (t : Team) (g : Nat) (f : Group → Group) : (t.modGroup g f).part = t.part := rfl
@[simp] theorem Team.modGroup_grid (t : Team) (g : Nat) (f : Group → Group) : (t.modGroup g f).grid = t.grid := rfl
@[simp] theorem Team.modGroup_index (t : Team) (g : Nat) (f : Group → Group) : (t.modGroup g f).index = t.index := rfl
@[simp] theorem Team.modGroup_core (t : Team) (g : Nat) (f : Group → Group) : (t.modGroup g f).core = t.core := rfl
@[simp] theorem Team.modGroup_firstCore (t : Team) (g : Nat) (f : Group → Group) : (t.modGroup g f).firstCore = t.firstCore := rfl
@[simp] theorem Team.modGroup_aspace (t : Team) (g : Nat) (f : Group → Group) : (t.modGroup g f).aspace = t.aspace := rfl
@[simp] theorem Team.modGroup_supervisor (t : Team) (g : Nat) (f : Group → Group) : (t.modGroup g f).supervisor = t.supervisor := rfl
@[simp] theorem Team.modGroup_tag (t : Team) (g : Nat) (f : Group → Group) : (t.modGroup g f).tag = t.tag := rfl
@[simp] theorem Team.modGroup_kern (t : Team) (g : Nat) (f : Group → Group) : (t.modGroup g f).kern = t.kern := rfl
@[simp] theorem Team.modGroup_args (t : Team) (g : Nat) (f : Group → Group) : (t.modGroup g f).args = t.args := rfl
@[simp] theorem Team.modGroup_header (t : Team) (g : Nat) (f : Group → Group) : (t.modGroup g f).header = t.header := rfl
@[simp] theorem Team.modGroup_regs (t : Team) (g : Nat) (f : Group → Group) : (t.modGroup g f).regs = t.regs := rfl
@[simp] theorem Team.modGroup_full (t : Team) (g : Nat) (f : Group → Group) : (t.modGroup g f).full = t.full := rfl
@[simp] theorem Team.modGroup_desk (t : Team) (g : Nat) (f : Group → Group) : (t.modGroup g f).desk = t.desk := rfl
@[simp] theorem Team.modGroup_drawer (t : Team) (g : Nat) (f : Group → Group) : (t.modGroup g f).drawer = t.drawer := rfl
@[simp] theorem Team.modGroup_absent (t : Team) (g : Nat) (f : Group → Group) : (t.modGroup g f).absent = t.absent := rfl
@[simp] theorem Team.modGroup_bankKey (t : Team) (g : Nat) (f : Group → Group) : (t.modGroup g f).bankKey = t.bankKey := rfl
@[simp] theorem Team.modGroup_tls (t : Team) (g : Nat) (f : Group → Group) : (t.modGroup g f).tls = t.tls := rfl
@[simp] theorem Team.modGroup_cmds (t : Team) (g : Nat) (f : Group → Group) : (t.modGroup g f).cmds = t.cmds := rfl
@[simp] theorem Team.modGroup_bars (t : Team) (g : Nat) (f : Group → Group) : (t.modGroup g f).bars = t.bars := rfl
@[simp] theorem Team.modGroup_queues (t : Team) (g : Nat) (f : Group → Group) : (t.modGroup g f).queues = t.queues := rfl
@[simp] theorem Team.modGroup_exch (t : Team) (g : Nat) (f : Group → Group) : (t.modGroup g f).exch = t.exch := rfl
@[simp] theorem Team.modGroup_slots (t : Team) (g : Nat) (f : Group → Group) : (t.modGroup g f).slots = t.slots := rfl
@[simp] theorem Team.modGroup_tiles (t : Team) (g : Nat) (f : Group → Group) : (t.modGroup g f).tiles = t.tiles := rfl
@[simp] theorem Team.modGroup_codebooks (t : Team) (g : Nat) (f : Group → Group) : (t.modGroup g f).codebooks = t.codebooks := rfl
@[simp] theorem Team.modGroup_mstat (t : Team) (g : Nat) (f : Group → Group) : (t.modGroup g f).mstat = t.mstat := rfl
@[simp] theorem Team.modGroup_children (t : Team) (g : Nat) (f : Group → Group) : (t.modGroup g f).children = t.children := rfl
@[simp] theorem Team.modGroup_colls (t : Team) (g : Nat) (f : Group → Group) : (t.modGroup g f).colls = t.colls := rfl
@[simp] theorem Team.modGroup_slot (t : Team) (g : Nat) (f : Group → Group) : (t.modGroup g f).slot = t.slot := rfl
@[simp] theorem Team.modGroup_resident (t : Team) (g : Nat) (f : Group → Group) : (t.modGroup g f).resident = t.resident := rfl
@[simp] theorem Team.modGroup_placedAt (t : Team) (g : Nat) (f : Group → Group) : (t.modGroup g f).placedAt = t.placedAt := rfl
@[simp] theorem Team.modGroup_lastRetire (t : Team) (g : Nat) (f : Group → Group) : (t.modGroup g f).lastRetire = t.lastRetire := rfl
@[simp] theorem Team.modGroup_interval (t : Team) (g : Nat) (f : Group → Group) : (t.modGroup g f).interval = t.interval := rfl
@[simp] theorem Team.modGroup_stopping (t : Team) (g : Nat) (f : Group → Group) : (t.modGroup g f).stopping = t.stopping := rfl
@[simp] theorem Team.modGroup_saveWhy (t : Team) (g : Nat) (f : Group → Group) : (t.modGroup g f).saveWhy = t.saveWhy := rfl
@[simp] theorem Team.modGroup_frec (t : Team) (g : Nat) (f : Group → Group) : (t.modGroup g f).frec = t.frec := rfl
@[simp] theorem Team.modGroup_pending (t : Team) (g : Nat) (f : Group → Group) : (t.modGroup g f).pending = t.pending := rfl
@[simp] theorem Team.modGroup_owed (t : Team) (g : Nat) (f : Group → Group) : (t.modGroup g f).owed = t.owed := rfl
@[simp] theorem Team.modGroup_marks (t : Team) (g : Nat) (f : Group → Group) : (t.modGroup g f).marks = t.marks := rfl
@[simp] theorem Team.setV_id (t : Team) (g : Group) (n : Nat) (v : Lanes) : (t.setV g n v).id = t.id := by
  unfold Team.setV; split <;> rfl
@[simp] theorem Team.setV_part (t : Team) (g : Group) (n : Nat) (v : Lanes) : (t.setV g n v).part = t.part := by
  unfold Team.setV; split <;> rfl
@[simp] theorem Team.setV_grid (t : Team) (g : Group) (n : Nat) (v : Lanes) : (t.setV g n v).grid = t.grid := by
  unfold Team.setV; split <;> rfl
@[simp] theorem Team.setV_index (t : Team) (g : Group) (n : Nat) (v : Lanes) : (t.setV g n v).index = t.index := by
  unfold Team.setV; split <;> rfl
@[simp] theorem Team.setV_core (t : Team) (g : Group) (n : Nat) (v : Lanes) : (t.setV g n v).core = t.core := by
  unfold Team.setV; split <;> rfl
@[simp] theorem Team.setV_firstCore (t : Team) (g : Group) (n : Nat) (v : Lanes) : (t.setV g n v).firstCore = t.firstCore := by
  unfold Team.setV; split <;> rfl
@[simp] theorem Team.setV_aspace (t : Team) (g : Group) (n : Nat) (v : Lanes) : (t.setV g n v).aspace = t.aspace := by
  unfold Team.setV; split <;> rfl
@[simp] theorem Team.setV_supervisor (t : Team) (g : Group) (n : Nat) (v : Lanes) : (t.setV g n v).supervisor = t.supervisor := by
  unfold Team.setV; split <;> rfl
@[simp] theorem Team.setV_tag (t : Team) (g : Group) (n : Nat) (v : Lanes) : (t.setV g n v).tag = t.tag := by
  unfold Team.setV; split <;> rfl
@[simp] theorem Team.setV_kern (t : Team) (g : Group) (n : Nat) (v : Lanes) : (t.setV g n v).kern = t.kern := by
  unfold Team.setV; split <;> rfl
@[simp] theorem Team.setV_args (t : Team) (g : Group) (n : Nat) (v : Lanes) : (t.setV g n v).args = t.args := by
  unfold Team.setV; split <;> rfl
@[simp] theorem Team.setV_header (t : Team) (g : Group) (n : Nat) (v : Lanes) : (t.setV g n v).header = t.header := by
  unfold Team.setV; split <;> rfl
@[simp] theorem Team.setV_groups (t : Team) (g : Group) (n : Nat) (v : Lanes) : (t.setV g n v).groups = t.groups := by
  unfold Team.setV; split <;> rfl
@[simp] theorem Team.setV_full (t : Team) (g : Group) (n : Nat) (v : Lanes) : (t.setV g n v).full = t.full := by
  unfold Team.setV; split <;> rfl
@[simp] theorem Team.setV_desk (t : Team) (g : Group) (n : Nat) (v : Lanes) : (t.setV g n v).desk = t.desk := by
  unfold Team.setV; split <;> rfl
@[simp] theorem Team.setV_drawer (t : Team) (g : Group) (n : Nat) (v : Lanes) : (t.setV g n v).drawer = t.drawer := by
  unfold Team.setV; split <;> rfl
@[simp] theorem Team.setV_absent (t : Team) (g : Group) (n : Nat) (v : Lanes) : (t.setV g n v).absent = t.absent := by
  unfold Team.setV; split <;> rfl
@[simp] theorem Team.setV_bankKey (t : Team) (g : Group) (n : Nat) (v : Lanes) : (t.setV g n v).bankKey = t.bankKey := by
  unfold Team.setV; split <;> rfl
@[simp] theorem Team.setV_tls (t : Team) (g : Group) (n : Nat) (v : Lanes) : (t.setV g n v).tls = t.tls := by
  unfold Team.setV; split <;> rfl
@[simp] theorem Team.setV_cmds (t : Team) (g : Group) (n : Nat) (v : Lanes) : (t.setV g n v).cmds = t.cmds := by
  unfold Team.setV; split <;> rfl
@[simp] theorem Team.setV_bars (t : Team) (g : Group) (n : Nat) (v : Lanes) : (t.setV g n v).bars = t.bars := by
  unfold Team.setV; split <;> rfl
@[simp] theorem Team.setV_queues (t : Team) (g : Group) (n : Nat) (v : Lanes) : (t.setV g n v).queues = t.queues := by
  unfold Team.setV; split <;> rfl
@[simp] theorem Team.setV_exch (t : Team) (g : Group) (n : Nat) (v : Lanes) : (t.setV g n v).exch = t.exch := by
  unfold Team.setV; split <;> rfl
@[simp] theorem Team.setV_slots (t : Team) (g : Group) (n : Nat) (v : Lanes) : (t.setV g n v).slots = t.slots := by
  unfold Team.setV; split <;> rfl
@[simp] theorem Team.setV_tiles (t : Team) (g : Group) (n : Nat) (v : Lanes) : (t.setV g n v).tiles = t.tiles := by
  unfold Team.setV; split <;> rfl
@[simp] theorem Team.setV_codebooks (t : Team) (g : Group) (n : Nat) (v : Lanes) : (t.setV g n v).codebooks = t.codebooks := by
  unfold Team.setV; split <;> rfl
@[simp] theorem Team.setV_mstat (t : Team) (g : Group) (n : Nat) (v : Lanes) : (t.setV g n v).mstat = t.mstat := by
  unfold Team.setV; split <;> rfl
@[simp] theorem Team.setV_children (t : Team) (g : Group) (n : Nat) (v : Lanes) : (t.setV g n v).children = t.children := by
  unfold Team.setV; split <;> rfl
@[simp] theorem Team.setV_colls (t : Team) (g : Group) (n : Nat) (v : Lanes) : (t.setV g n v).colls = t.colls := by
  unfold Team.setV; split <;> rfl
@[simp] theorem Team.setV_slot (t : Team) (g : Group) (n : Nat) (v : Lanes) : (t.setV g n v).slot = t.slot := by
  unfold Team.setV; split <;> rfl
@[simp] theorem Team.setV_resident (t : Team) (g : Group) (n : Nat) (v : Lanes) : (t.setV g n v).resident = t.resident := by
  unfold Team.setV; split <;> rfl
@[simp] theorem Team.setV_placedAt (t : Team) (g : Group) (n : Nat) (v : Lanes) : (t.setV g n v).placedAt = t.placedAt := by
  unfold Team.setV; split <;> rfl
@[simp] theorem Team.setV_lastRetire (t : Team) (g : Group) (n : Nat) (v : Lanes) : (t.setV g n v).lastRetire = t.lastRetire := by
  unfold Team.setV; split <;> rfl
@[simp] theorem Team.setV_interval (t : Team) (g : Group) (n : Nat) (v : Lanes) : (t.setV g n v).interval = t.interval := by
  unfold Team.setV; split <;> rfl
@[simp] theorem Team.setV_stopping (t : Team) (g : Group) (n : Nat) (v : Lanes) : (t.setV g n v).stopping = t.stopping := by
  unfold Team.setV; split <;> rfl
@[simp] theorem Team.setV_saveWhy (t : Team) (g : Group) (n : Nat) (v : Lanes) : (t.setV g n v).saveWhy = t.saveWhy := by
  unfold Team.setV; split <;> rfl
@[simp] theorem Team.setV_frec (t : Team) (g : Group) (n : Nat) (v : Lanes) : (t.setV g n v).frec = t.frec := by
  unfold Team.setV; split <;> rfl
@[simp] theorem Team.setV_pending (t : Team) (g : Group) (n : Nat) (v : Lanes) : (t.setV g n v).pending = t.pending := by
  unfold Team.setV; split <;> rfl
@[simp] theorem Team.setV_owed (t : Team) (g : Group) (n : Nat) (v : Lanes) : (t.setV g n v).owed = t.owed := by
  unfold Team.setV; split <;> rfl
@[simp] theorem Team.setV_marks (t : Team) (g : Group) (n : Nat) (v : Lanes) : (t.setV g n v).marks = t.marks := by
  unfold Team.setV; split <;> rfl
@[simp] theorem Team.setVLanes_id (t : Team) (g : Group) (n : Nat) (m : Mask) (v : Lanes) : (t.setVLanes g n m v).id = t.id := by
  simp [Team.setVLanes]
@[simp] theorem Team.setVLanes_part (t : Team) (g : Group) (n : Nat) (m : Mask) (v : Lanes) : (t.setVLanes g n m v).part = t.part := by
  simp [Team.setVLanes]
@[simp] theorem Team.setVLanes_grid (t : Team) (g : Group) (n : Nat) (m : Mask) (v : Lanes) : (t.setVLanes g n m v).grid = t.grid := by
  simp [Team.setVLanes]
@[simp] theorem Team.setVLanes_index (t : Team) (g : Group) (n : Nat) (m : Mask) (v : Lanes) : (t.setVLanes g n m v).index = t.index := by
  simp [Team.setVLanes]
@[simp] theorem Team.setVLanes_core (t : Team) (g : Group) (n : Nat) (m : Mask) (v : Lanes) : (t.setVLanes g n m v).core = t.core := by
  simp [Team.setVLanes]
@[simp] theorem Team.setVLanes_firstCore (t : Team) (g : Group) (n : Nat) (m : Mask) (v : Lanes) : (t.setVLanes g n m v).firstCore = t.firstCore := by
  simp [Team.setVLanes]
@[simp] theorem Team.setVLanes_aspace (t : Team) (g : Group) (n : Nat) (m : Mask) (v : Lanes) : (t.setVLanes g n m v).aspace = t.aspace := by
  simp [Team.setVLanes]
@[simp] theorem Team.setVLanes_supervisor (t : Team) (g : Group) (n : Nat) (m : Mask) (v : Lanes) : (t.setVLanes g n m v).supervisor = t.supervisor := by
  simp [Team.setVLanes]
@[simp] theorem Team.setVLanes_tag (t : Team) (g : Group) (n : Nat) (m : Mask) (v : Lanes) : (t.setVLanes g n m v).tag = t.tag := by
  simp [Team.setVLanes]
@[simp] theorem Team.setVLanes_kern (t : Team) (g : Group) (n : Nat) (m : Mask) (v : Lanes) : (t.setVLanes g n m v).kern = t.kern := by
  simp [Team.setVLanes]
@[simp] theorem Team.setVLanes_args (t : Team) (g : Group) (n : Nat) (m : Mask) (v : Lanes) : (t.setVLanes g n m v).args = t.args := by
  simp [Team.setVLanes]
@[simp] theorem Team.setVLanes_header (t : Team) (g : Group) (n : Nat) (m : Mask) (v : Lanes) : (t.setVLanes g n m v).header = t.header := by
  simp [Team.setVLanes]
@[simp] theorem Team.setVLanes_groups (t : Team) (g : Group) (n : Nat) (m : Mask) (v : Lanes) : (t.setVLanes g n m v).groups = t.groups := by
  simp [Team.setVLanes]
@[simp] theorem Team.setVLanes_full (t : Team) (g : Group) (n : Nat) (m : Mask) (v : Lanes) : (t.setVLanes g n m v).full = t.full := by
  simp [Team.setVLanes]
@[simp] theorem Team.setVLanes_desk (t : Team) (g : Group) (n : Nat) (m : Mask) (v : Lanes) : (t.setVLanes g n m v).desk = t.desk := by
  simp [Team.setVLanes]
@[simp] theorem Team.setVLanes_drawer (t : Team) (g : Group) (n : Nat) (m : Mask) (v : Lanes) : (t.setVLanes g n m v).drawer = t.drawer := by
  simp [Team.setVLanes]
@[simp] theorem Team.setVLanes_absent (t : Team) (g : Group) (n : Nat) (m : Mask) (v : Lanes) : (t.setVLanes g n m v).absent = t.absent := by
  simp [Team.setVLanes]
@[simp] theorem Team.setVLanes_bankKey (t : Team) (g : Group) (n : Nat) (m : Mask) (v : Lanes) : (t.setVLanes g n m v).bankKey = t.bankKey := by
  simp [Team.setVLanes]
@[simp] theorem Team.setVLanes_tls (t : Team) (g : Group) (n : Nat) (m : Mask) (v : Lanes) : (t.setVLanes g n m v).tls = t.tls := by
  simp [Team.setVLanes]
@[simp] theorem Team.setVLanes_cmds (t : Team) (g : Group) (n : Nat) (m : Mask) (v : Lanes) : (t.setVLanes g n m v).cmds = t.cmds := by
  simp [Team.setVLanes]
@[simp] theorem Team.setVLanes_bars (t : Team) (g : Group) (n : Nat) (m : Mask) (v : Lanes) : (t.setVLanes g n m v).bars = t.bars := by
  simp [Team.setVLanes]
@[simp] theorem Team.setVLanes_queues (t : Team) (g : Group) (n : Nat) (m : Mask) (v : Lanes) : (t.setVLanes g n m v).queues = t.queues := by
  simp [Team.setVLanes]
@[simp] theorem Team.setVLanes_exch (t : Team) (g : Group) (n : Nat) (m : Mask) (v : Lanes) : (t.setVLanes g n m v).exch = t.exch := by
  simp [Team.setVLanes]
@[simp] theorem Team.setVLanes_slots (t : Team) (g : Group) (n : Nat) (m : Mask) (v : Lanes) : (t.setVLanes g n m v).slots = t.slots := by
  simp [Team.setVLanes]
@[simp] theorem Team.setVLanes_tiles (t : Team) (g : Group) (n : Nat) (m : Mask) (v : Lanes) : (t.setVLanes g n m v).tiles = t.tiles := by
  simp [Team.setVLanes]
@[simp] theorem Team.setVLanes_codebooks (t : Team) (g : Group) (n : Nat) (m : Mask) (v : Lanes) : (t.setVLanes g n m v).codebooks = t.codebooks := by
  simp [Team.setVLanes]
@[simp] theorem Team.setVLanes_mstat (t : Team) (g : Group) (n : Nat) (m : Mask) (v : Lanes) : (t.setVLanes g n m v).mstat = t.mstat := by
  simp [Team.setVLanes]
@[simp] theorem Team.setVLanes_children (t : Team) (g : Group) (n : Nat) (m : Mask) (v : Lanes) : (t.setVLanes g n m v).children = t.children := by
  simp [Team.setVLanes]
@[simp] theorem Team.setVLanes_colls (t : Team) (g : Group) (n : Nat) (m : Mask) (v : Lanes) : (t.setVLanes g n m v).colls = t.colls := by
  simp [Team.setVLanes]
@[simp] theorem Team.setVLanes_slot (t : Team) (g : Group) (n : Nat) (m : Mask) (v : Lanes) : (t.setVLanes g n m v).slot = t.slot := by
  simp [Team.setVLanes]
@[simp] theorem Team.setVLanes_resident (t : Team) (g : Group) (n : Nat) (m : Mask) (v : Lanes) : (t.setVLanes g n m v).resident = t.resident := by
  simp [Team.setVLanes]
@[simp] theorem Team.setVLanes_placedAt (t : Team) (g : Group) (n : Nat) (m : Mask) (v : Lanes) : (t.setVLanes g n m v).placedAt = t.placedAt := by
  simp [Team.setVLanes]
@[simp] theorem Team.setVLanes_lastRetire (t : Team) (g : Group) (n : Nat) (m : Mask) (v : Lanes) : (t.setVLanes g n m v).lastRetire = t.lastRetire := by
  simp [Team.setVLanes]
@[simp] theorem Team.setVLanes_interval (t : Team) (g : Group) (n : Nat) (m : Mask) (v : Lanes) : (t.setVLanes g n m v).interval = t.interval := by
  simp [Team.setVLanes]
@[simp] theorem Team.setVLanes_stopping (t : Team) (g : Group) (n : Nat) (m : Mask) (v : Lanes) : (t.setVLanes g n m v).stopping = t.stopping := by
  simp [Team.setVLanes]
@[simp] theorem Team.setVLanes_saveWhy (t : Team) (g : Group) (n : Nat) (m : Mask) (v : Lanes) : (t.setVLanes g n m v).saveWhy = t.saveWhy := by
  simp [Team.setVLanes]
@[simp] theorem Team.setVLanes_frec (t : Team) (g : Group) (n : Nat) (m : Mask) (v : Lanes) : (t.setVLanes g n m v).frec = t.frec := by
  simp [Team.setVLanes]
@[simp] theorem Team.setVLanes_pending (t : Team) (g : Group) (n : Nat) (m : Mask) (v : Lanes) : (t.setVLanes g n m v).pending = t.pending := by
  simp [Team.setVLanes]
@[simp] theorem Team.setVLanes_owed (t : Team) (g : Group) (n : Nat) (m : Mask) (v : Lanes) : (t.setVLanes g n m v).owed = t.owed := by
  simp [Team.setVLanes]
@[simp] theorem Team.setVLanes_marks (t : Team) (g : Group) (n : Nat) (m : Mask) (v : Lanes) : (t.setVLanes g n m v).marks = t.marks := by
  simp [Team.setVLanes]

end Sys2Proof.Machine
end

