-- ==== Sys2Proof/Laws/Store.lean ====
section
/-! SUPPORT. Numbered maps and byte memory: what a read finds after a write, and that every operation keeps the canonical form. -/

namespace Sys2Proof.Machine

/-! ## Maps by number -/

variable {α : Type}

@[simp] theorem nmGet_nmPut_self (k : Nat) (v : α) (m : NMap α) : nmGet k (nmPut k v m) = some v := by
  induction m with
  | nil => simp [nmPut, nmGet]
  | cons p m ih =>
    obtain ⟨k', v'⟩ := p
    simp only [nmPut]
    split
    · simp [nmGet]
    · split
      · simp [nmGet]
      · simp [nmGet, *]

theorem nmGet_nmPut_ne {j k : Nat} (h : j ≠ k) (v : α) (m : NMap α) : nmGet j (nmPut k v m) = nmGet j m := by
  induction m with
  | nil => simp [nmPut, nmGet, h]
  | cons p m ih =>
    obtain ⟨k', v'⟩ := p
    simp only [nmPut]
    split
    · simp [nmGet, h]
    · split
      · subst k'; simp [nmGet, h]
      · simp [nmGet, ih]

@[simp] theorem nmGet_nmDel_self (k : Nat) (m : NMap α) : nmGet k (nmDel k m) = none := by
  induction m with
  | nil => rfl
  | cons p m ih =>
    obtain ⟨k', v'⟩ := p
    by_cases h : k' = k
    · simpa [nmDel, h] using ih
    · simpa [nmDel, h, nmGet, Ne.symm h] using ih

theorem nmGet_nmDel_ne {j k : Nat} (h : j ≠ k) (m : NMap α) : nmGet j (nmDel k m) = nmGet j m := by
  induction m with
  | nil => rfl
  | cons p m ih =>
    obtain ⟨k', v'⟩ := p
    by_cases hk : k' = k
    · subst hk; simpa [nmDel, nmGet, h] using ih
    · by_cases hj : j = k'
      · simp [nmDel, nmGet, hk, hj]
      · simpa [nmDel, nmGet, hk, hj] using ih

@[simp] theorem nmGet_nmModify_self (k : Nat) (f : α → α) (m : NMap α) : nmGet k (nmModify k f m) = (nmGet k m).map f := by
  induction m with
  | nil => rfl
  | cons p m ih =>
    obtain ⟨k', v'⟩ := p
    by_cases h : k' = k
    · simp [nmModify, nmGet, h]
    · simpa [nmModify, nmGet, h, Ne.symm h] using ih

theorem nmGet_nmModify_ne {j k : Nat} (h : j ≠ k) (f : α → α) (m : NMap α) : nmGet j (nmModify k f m) = nmGet j m := by
  induction m with
  | nil => rfl
  | cons p m ih =>
    obtain ⟨k', v'⟩ := p
    by_cases hk : k' = k
    · subst hk; simpa [nmModify, nmGet, h] using ih
    · by_cases hj : j = k'
      · simp [nmModify, nmGet, hk, hj]
      · simpa [nmModify, nmGet, hk, hj] using ih

theorem nmModify_nmModify (k : Nat) (f g : α → α) (m : NMap α) : nmModify k f (nmModify k g m) = nmModify k (fun x => f (g x)) m := by
  simp only [nmModify, List.map_map]
  apply List.map_congr_left
  intro p _
  by_cases h : p.1 = k <;> simp [h]

@[simp] theorem nmModify_id (k : Nat) (m : NMap α) : nmModify k (fun x => x) m = m := by simp [nmModify]

@[simp] theorem nmGetD_nmPut_self (k : Nat) (v d : α) (m : NMap α) : nmGetD (nmPut k v m) k d = v := by simp [nmGetD]
theorem nmGetD_nmPut_ne {j k : Nat} (h : j ≠ k) (v d : α) (m : NMap α) : nmGetD (nmPut k v m) j d = nmGetD m j d := by
  simp [nmGetD, nmGet_nmPut_ne h]

/-! ## One byte -/

@[simp] theorem nmGet_eraseByte_self (a : Nat) (m : Memory) : nmGet a (eraseByte a m) = none := by
  induction m with
  | nil => rfl
  | cons p m ih =>
    obtain ⟨a', b⟩ := p
    by_cases h : a = a'
    · simpa [eraseByte, h] using h ▸ ih
    · simpa [eraseByte, h, nmGet] using ih

theorem nmGet_eraseByte_ne {x a : Nat} (h : x ≠ a) (m : Memory) : nmGet x (eraseByte a m) = nmGet x m := by
  induction m with
  | nil => rfl
  | cons p m ih =>
    obtain ⟨a', b⟩ := p
    by_cases ha : a = a'
    · subst ha; simpa [eraseByte, nmGet, h] using ih
    · by_cases hx : x = a'
      · simp [eraseByte, nmGet, ha, hx]
      · simpa [eraseByte, nmGet, ha, hx] using ih

@[simp] theorem readByte_writeByte_self (m : Memory) (a : Nat) (b : Byte) : readByte (writeByte m a b) a = b := by
  unfold writeByte readByte nmGetD
  split
  · simp [*]
  · simp

theorem readByte_writeByte_ne {x a : Nat} (h : x ≠ a) (m : Memory) (b : Byte) : readByte (writeByte m a b) x = readByte m x := by
  unfold writeByte readByte nmGetD
  split
  · rw [nmGet_eraseByte_ne h]
  · rw [nmGet_nmPut_ne h]

/-! ## Bytes and little-endian values (R4) -/

theorem readByte_writeBytes (m : Memory) (a : Nat) (bs : List Byte) (x : Nat) :
    readByte (writeBytes m a bs) x = if a ≤ x ∧ x < a + bs.length then bs.getD (x - a) 0 else readByte m x := by
  induction bs generalizing m a with
  | nil =>
    have : ¬ (a ≤ x ∧ x < a + 0) := by omega
    simp only [writeBytes, List.length_nil, if_neg this]
  | cons b bs ih =>
    rw [writeBytes, ih]
    by_cases h : x = a
    · subst h
      have : ¬ (x + 1 ≤ x ∧ x < x + 1 + bs.length) := by omega
      rw [if_neg this]
      simp
    · rw [readByte_writeByte_ne h]
      by_cases h1 : a + 1 ≤ x ∧ x < a + 1 + bs.length
      · have h2 : a ≤ x ∧ x < a + (b :: bs).length := by simp only [List.length_cons]; omega
        rw [if_pos h1, if_pos h2]
        have : x - a = (x - (a + 1)) + 1 := by omega
        rw [this, List.getD_cons_succ]
      · have h2 : ¬ (a ≤ x ∧ x < a + (b :: bs).length) := by simp only [List.length_cons]; omega
        rw [if_neg h1, if_neg h2]

/-- A write leaves every byte outside it. -/
theorem readByte_writeBytes_out {m : Memory} {a x : Nat} {bs : List Byte} (h : x < a ∨ a + bs.length ≤ x) :
    readByte (writeBytes m a bs) x = readByte m x := by
  rw [readByte_writeBytes, if_neg (by omega)]

@[simp] theorem readBytes_length (m : Memory) (a n : Nat) : (readBytes m a n).length = n := by
  induction n generalizing a with
  | zero => rfl
  | succ n ih => simp [readBytes, ih]

theorem readBytes_eq {m m' : Memory} {a n : Nat} (h : ∀ x, a ≤ x → x < a + n → readByte m x = readByte m' x) :
    readBytes m a n = readBytes m' a n := by
  induction n generalizing a with
  | zero => rfl
  | succ n ih =>
    rw [readBytes, readBytes, h a (Nat.le_refl a) (by omega), ih (fun x h1 h2 => h x (by omega) (by omega))]

/-- What has been written is read back. -/
theorem readBytes_writeBytes (m : Memory) (a : Nat) (bs : List Byte) : readBytes (writeBytes m a bs) a bs.length = bs := by
  induction bs generalizing m a with
  | nil => rfl
  | cons b bs ih =>
    rw [List.length_cons, readBytes, writeBytes, ih, readByte_writeBytes_out (Or.inl (Nat.lt_succ_self a))]
    simp

@[simp] theorem natBytes_length (n v : Nat) : (natBytes n v).length = n := by
  induction n generalizing v with
  | zero => rfl
  | succ n ih => simp [natBytes, ih]

theorem leNat_natBytes (n v : Nat) : leNat (natBytes n v) = v % 256 ^ n := by
  induction n generalizing v with
  | zero => simp [natBytes, leNat, Nat.mod_one]
  | succ n ih =>
    rw [natBytes, leNat, ih, Nat.pow_succ, Nat.mul_comm (256 ^ n), Nat.mod_mul]
    simp

/-- A little-endian value is read back (R4, R9). -/
theorem readLE_writeLE (m : Memory) (a n v : Nat) : readLE (writeLE m a n v) a n = v % 256 ^ n := by
  have h := readBytes_writeBytes m a (natBytes n v)
  rw [natBytes_length] at h
  rw [readLE, writeLE, h, leNat_natBytes]

/-! ## The canonical form -/

theorem memWfFrom_mono {lo lo' : Nat} (h : lo' ≤ lo) {m : Memory} (w : memWfFrom lo m = true) : memWfFrom lo' m = true := by
  cases m with
  | nil => rfl
  | cons p m =>
    obtain ⟨a, b⟩ := p
    simp only [memWfFrom, Bool.and_eq_true, decide_eq_true_eq] at w ⊢
    exact ⟨⟨by omega, w.1.2⟩, w.2⟩

theorem memWfFrom_filter (p : Host.Cell → Bool) {lo : Nat} {m : Memory} (w : memWfFrom lo m = true) : memWfFrom lo (m.filter p) = true := by
  induction m generalizing lo with
  | nil => rfl
  | cons c m ih =>
    obtain ⟨a, b⟩ := c
    simp only [memWfFrom, Bool.and_eq_true, decide_eq_true_eq] at w
    rw [List.filter_cons]
    split
    · simp only [memWfFrom, Bool.and_eq_true, decide_eq_true_eq]
      exact ⟨w.1, ih w.2⟩
    · exact memWfFrom_mono (by omega) (ih w.2)

theorem eraseByte_eq (a : Nat) (m : Memory) : eraseByte a m = m.filter (fun c => a ≠ c.1) := by
  induction m with
  | nil => rfl
  | cons c m ih =>
    obtain ⟨a', b⟩ := c
    by_cases h : a = a'
    · subst h; simpa [eraseByte] using ih
    · simpa [eraseByte, h] using ih

theorem memWfFrom_nmPut {lo a : Nat} {b : Byte} (ha : lo ≤ a) (hb : b ≠ blankByte) {m : Memory} (w : memWfFrom lo m = true) :
    memWfFrom lo (nmPut a b m) = true := by
  induction m generalizing lo with
  | nil => simp [nmPut, memWfFrom, ha, hb]
  | cons c m ih =>
    obtain ⟨a', b'⟩ := c
    simp only [memWfFrom, Bool.and_eq_true, decide_eq_true_eq] at w
    simp only [nmPut]
    split
    · simp only [memWfFrom, Bool.and_eq_true, decide_eq_true_eq]
      exact ⟨⟨ha, hb⟩, ⟨by omega, w.1.2⟩, w.2⟩
    · split
      · subst a'
        simp only [memWfFrom, Bool.and_eq_true, decide_eq_true_eq]
        exact ⟨⟨ha, hb⟩, w.2⟩
      · simp only [memWfFrom, Bool.and_eq_true, decide_eq_true_eq]
        exact ⟨w.1, ih (by omega) w.2⟩

theorem wf_nil : Memory.wf [] = true := rfl

theorem wf_writeByte {m : Memory} (w : Memory.wf m = true) (a : Nat) (b : Byte) : Memory.wf (writeByte m a b) = true := by
  unfold writeByte Memory.wf at *
  split
  · rw [eraseByte_eq]; exact memWfFrom_filter _ w
  · exact memWfFrom_nmPut (Nat.zero_le a) (by assumption) w

theorem wf_writeBytes {m : Memory} (w : Memory.wf m = true) (a : Nat) (bs : List Byte) : Memory.wf (writeBytes m a bs) = true := by
  induction bs generalizing m a with
  | nil => exact w
  | cons b bs ih => exact ih (wf_writeByte w a b) (a + 1)

theorem wf_writeLE {m : Memory} (w : Memory.wf m = true) (a n v : Nat) : Memory.wf (writeLE m a n v) = true := wf_writeBytes w a _

theorem wf_clearRange {m : Memory} (w : Memory.wf m = true) (a n : Nat) : Memory.wf (clearRange m a n) = true := memWfFrom_filter _ w

theorem wf_pasteRange {m : Memory} (w : Memory.wf m = true) (a n : Nat) (src : Memory) : Memory.wf (pasteRange m a n src) = true := by
  unfold pasteRange
  generalize src.filter (fun c => c.1 < n) = l
  have h0 := wf_clearRange w a n
  revert h0
  generalize clearRange m a n = acc
  intro h0
  induction l generalizing acc with
  | nil => exact h0
  | cons c l ih => exact ih _ (wf_writeByte h0 _ _)

theorem wf_sliceRange {m : Memory} (w : Memory.wf m = true) (a n : Nat) : Memory.wf (sliceRange m a n) = true := by
  have aux : ∀ (l : Memory) (lo : Nat), (∀ c ∈ l, a ≤ c.1) → memWfFrom (a + lo) l = true →
      memWfFrom lo (l.map (fun c => (c.1 - a, c.2))) = true := by
    intro l
    induction l with
    | nil => intros; rfl
    | cons c l ih =>
      obtain ⟨x, b⟩ := c
      intro lo hl hw
      simp only [memWfFrom, Bool.and_eq_true, decide_eq_true_eq] at hw
      have hx := hl (x, b) (List.mem_cons_self ..)
      simp only [List.map_cons, memWfFrom, Bool.and_eq_true, decide_eq_true_eq]
      refine ⟨⟨by omega, hw.1.2⟩, ih _ (fun c hc => hl c (List.mem_cons_of_mem _ hc)) ?_⟩
      have : a + (x - a + 1) = x + 1 := by omega
      rw [this]; exact hw.2
  unfold sliceRange Memory.wf
  have hf : ∀ c ∈ m.filter (fun c => a ≤ c.1 && c.1 < a + n), a ≤ c.1 := by
    intro c hc
    have := (List.mem_filter.mp hc).2
    simp at this
    exact this.1
  refine aux _ 0 hf ?_
  have raise : ∀ (l : Memory) (lo : Nat), memWfFrom lo l = true → (∀ c ∈ l, a ≤ c.1) → memWfFrom a l = true := by
    intro l lo hw hl
    cases l with
    | nil => rfl
    | cons c l =>
      obtain ⟨x, b⟩ := c
      simp only [memWfFrom, Bool.and_eq_true, decide_eq_true_eq] at hw ⊢
      exact ⟨⟨hl (x, b) (List.mem_cons_self ..), hw.1.2⟩, hw.2⟩
  simpa using raise _ 0 (memWfFrom_filter _ w) hf

end Sys2Proof.Machine
end

