-- ==== Sys2Proof/Laws/Ops.lean ====
section
/-! SUPPORT. What the named operations do: lookups after an update, registers read back, and the whole of what taking a fault, passing a
yield point and drawing a name change. -/

namespace Sys2Proof.Machine

/-! ## Lookups -/

@[simp] theorem coreOf_modCore_self (s : State) (c : Nat) (f : Core → Core) : coreOf (modCore s c f) c = f (coreOf s c) := by
  simp [coreOf]
theorem coreOf_modCore_ne {j c : Nat} (h : j ≠ c) (s : State) (f : Core → Core) : coreOf (modCore s c f) j = coreOf s j := by
  simp [coreOf, nmGetD_nmPut_ne h]
@[simp] theorem clusterOf_modCluster_self (s : State) (c : Nat) (f : Cluster → Cluster) :
    clusterOf (modCluster s c f) c = f (clusterOf s c) := by simp [clusterOf]
theorem clusterOf_modCluster_ne {j c : Nat} (h : j ≠ c) (s : State) (f : Cluster → Cluster) :
    clusterOf (modCluster s c f) j = clusterOf s j := by simp [clusterOf, nmGetD_nmPut_ne h]
@[simp] theorem partOf_modPart_self (s : State) (p : Nat) (f : Partition → Partition) : partOf (modPart s p f) p = f (partOf s p) := by
  simp [partOf]
theorem partOf_modPart_ne {j p : Nat} (h : j ≠ p) (s : State) (f : Partition → Partition) : partOf (modPart s p f) j = partOf s j := by
  simp [partOf, nmGetD_nmPut_ne h]
@[simp] theorem teamOf_modTeam_self (s : State) (t : Nat) (f : Team → Team) : teamOf (modTeam s t f) t = (teamOf s t).map f := by
  simp [teamOf]
theorem teamOf_modTeam_ne {j t : Nat} (h : j ≠ t) (s : State) (f : Team → Team) : teamOf (modTeam s t f) j = teamOf s j := by
  simp [teamOf, nmGet_nmModify_ne h]
@[simp] theorem teamOf_modGroup_self (s : State) (t g : Nat) (f : Group → Group) :
    teamOf (modGroup s t g f) t = (teamOf s t).map (fun x => x.modGroup g f) := by simp [teamOf]
theorem teamOf_modGroup_ne {j t : Nat} (h : j ≠ t) (s : State) (g : Nat) (f : Group → Group) :
    teamOf (modGroup s t g f) j = teamOf s j := by simp [teamOf, nmGet_nmModify_ne h]

@[simp] theorem Team.modGroup_groups (t : Team) (g : Nat) (f : Group → Group) : (t.modGroup g f).groups = nmModify g f t.groups := rfl

@[simp] theorem groupOf_modGroup_self (s : State) (t g : Nat) (f : Group → Group) :
    groupOf (modGroup s t g f) t g = (groupOf s t g).map f := by
  unfold groupOf
  cases h : teamOf s t <;> simp [h]
theorem groupOf_modGroup_ne {t g j k : Nat} (h : j ≠ t ∨ k ≠ g) (s : State) (f : Group → Group) :
    groupOf (modGroup s t g f) j k = groupOf s j k := by
  unfold groupOf
  by_cases hj : j = t
  · subst hj
    have hk : k ≠ g := h.resolve_left (fun n => n rfl)
    cases ht : teamOf s j <;> simp [ht, nmGet_nmModify_ne hk]
  · rw [teamOf_modGroup_ne hj]

/-- Two changes of one group are one. -/
theorem modGroup_modGroup (s : State) (t g : Nat) (f h : Group → Group) :
    modGroup (modGroup s t g f) t g h = modGroup s t g (fun x => h (f x)) := by
  simp only [modGroup, modTeam, nmModify_nmModify, Team.modGroup]

/-! ## Registers (R55, R59, R208) -/

@[simp] theorem Group.sreg_zero (g : Group) : g.sreg 0 = 0 := rfl
@[simp] theorem Group.setS_zero (g : Group) (v : DWord) : g.setS 0 v = g := rfl
theorem Group.sreg_setS_self (g : Group) {n : Nat} (h : n ≠ 0) (hn : n < 64) (v : DWord) : (g.setS n v).sreg n = v := by
  simp [Group.sreg, Group.setS, h, hn]
theorem Group.sreg_setS_ne (g : Group) {n m : Nat} (h : m ≠ n) (v : DWord) : (g.setS n v).sreg m = g.sreg m := by
  unfold Group.sreg Group.setS
  split
  · rfl
  · split
    · rfl
    · simp [Ne.symm h]
theorem Group.mask_setMask_self (g : Group) {n : Nat} (hn : n < 8) (v : Mask) : (g.setMask n v).mask n = v := by
  simp [Group.mask, Group.setMask, hn]
theorem Group.mask_setMask_ne (g : Group) {n m : Nat} (h : m ≠ n) (v : Mask) : (g.setMask n v).mask m = g.mask m := by
  simp [Group.mask, Group.setMask, Ne.symm h]

/-- A register's row, written, is read back; other rows keep their values. -/
theorem Team.vreg_setV_self {t : Team} {g : Group} {n r : Nat} (h : t.row g n = some r) (v : Lanes) : (t.setV g n v).vreg g n = v := by
  have e : (t.setV g n v).row g n = some r := by
    have : t.setV g n v = { t with regs := nmPut r v t.regs } := by simp [Team.setV, h]
    rw [this]; exact h
  unfold Team.vreg
  rw [e]
  simp [Team.setV, h]

/-! ## Names and holds -/

@[simp] theorem newId_fst (s : State) : (newId s).1 = s.nextId := rfl
/-- A message put in flight under a name is there under that name. -/
@[simp] theorem nmGet_putMsg_self (s : State) (id : Nat) (m : Msg) : nmGet id (putMsg s id m).flight = some m := by simp
@[simp] theorem popHold_nil {s : State} (h : s.holds = []) : popHold s = (false, s) := by simp [popHold, h]

/-- Everything that taking a fault does (R8, R179, R185, R266, R396): to its team and group, and to nothing else. -/
theorem teamOf_takeFault_self (s : State) (t g : Nat) (f : FaultInfo) :
    teamOf (takeFault s t g f) t = (teamOf s t).map (fun x =>
      ((if (nmGet g x.groups).any (fun y => y.fault.any (fun o => f.again.isNone || o.order ≤ f.order)) then x
          else x.leaveQueues g).modGroup g (fun y => if y.fault.any (fun o => f.again.isNone || o.order ≤ f.order) then y
        else { y.dropTries with pc := f.restart, hints := .none, fault := some f, wait := keepArrival y.wait })).meet f) := by
  simp [takeFault, teamOf]
/-- A group that leaves the queues of its team is held on none of them (R266, R267). -/
theorem Team.leaveQueues_free (t : Team) (gid : Nat) :
    ∀ q ∈ (t.leaveQueues gid).queues, gid ∉ q.2.pushers ∧ gid ∉ q.2.poppers := by
  simp only [Team.leaveQueues, List.mem_map]
  rintro q ⟨p, -, rfl⟩
  simp
@[simp] theorem Team.leaveQueues_groups (t : Team) (gid : Nat) : (t.leaveQueues gid).groups = t.groups := rfl
@[simp] theorem Team.leaveQueues_regs (t : Team) (gid : Nat) : (t.leaveQueues gid).regs = t.regs := rfl
@[simp] theorem Team.leaveQueues_desk (t : Team) (gid : Nat) : (t.leaveQueues gid).desk = t.desk := rfl
@[simp] theorem Team.leaveQueues_tls (t : Team) (gid : Nat) : (t.leaveQueues gid).tls = t.tls := rfl
@[simp] theorem Team.leaveQueues_pending (t : Team) (gid : Nat) : (t.leaveQueues gid).pending = t.pending := rfl
/-- A team that meets a fault stops, and has one to report; nothing else of it changes but the faults that are kept (R396). -/
theorem Team.meet_keeps (t : Team) (f : FaultInfo) : ∃ p o, t.meet f = { t with stopping := true, pending := some p, owed := o } := by
  unfold Team.meet
  split
  · exact ⟨f, t.owed, rfl⟩
  · rename_i o h
    dsimp only
    split
    · exact ⟨f, _, rfl⟩
    · split
      · exact ⟨o, _, by rw [← h]⟩
      · split
        · exact ⟨o, _, by rw [← h]⟩
        · split
          · exact ⟨_, t.owed, rfl⟩
          · exact ⟨_, t.owed, rfl⟩
theorem teamOf_takeFault_ne {j t : Nat} (h : j ≠ t) (s : State) (g : Nat) (f : FaultInfo) :
    teamOf (takeFault s t g f) j = teamOf s j := by simp [takeFault, teamOf, nmGet_nmModify_ne h]

/-- Passing a yield point changes the latches of the group and nothing else of it (R41). -/
theorem groupOf_passYield_self (s : State) (t g : Nat) :
    groupOf (passYield s t g) t g = (groupOf s t g).map (fun x => x.scramble s.free) := by
  exact groupOf_modGroup_self { s with free := s.free + 192 } t g (fun x => x.scramble s.free)
@[simp] theorem Group.scramble_sregs (g : Group) (n : Nat) : (g.scramble n).sregs = g.sregs := rfl
@[simp] theorem Group.scramble_masks (g : Group) (n : Nat) : (g.scramble n).masks = g.masks := rfl
@[simp] theorem Group.scramble_pc (g : Group) (n : Nat) : (g.scramble n).pc = g.pc := rfl

end Sys2Proof.Machine
end

