-- ==== Sys2Proof/Laws/Issue.lean ====
section
/-! SUPPORT. What the issue of an instruction comes to, by how it starts and what its own effect is; and what a start and a retirement
change. -/

namespace Sys2Proof.Machine

variable {i : Instr} {body : Ctx → State → Eff} {s s₀ s₁ s₂ : State} {c : Ctx} {g : Group} {w : Wait} {code core : Nat}

/-! ## The four ways to start -/

theorem issue_go (h : start i s = .go c s₀ s₁) : issue i body s = .next (conclude c s₀ (body c s₁)) := by simp [issue, h]
theorem issue_idle (h : start i s = .idle) : issue i body s = .next s := by simp [issue, h]
theorem issue_fault (h : start i s = .fault code g s₁) : issue i body s =
    .next (raiseFault s₁ s.cur.1 s.cur.2 g code 0 (if code = 0x01 then g.m0 else g.lanesOf i) 0 0 g.restart) := by simp [issue, h]
theorem issue_held (h : start i s = .held w core s₁) : issue i body s = .next (holdGroup s₁ s.cur.1 s.cur.2 core w) := by
  simp [issue, h]

/-- The issue of an instruction answers a next state, whatever its effect (R39, R40, R179). -/
theorem issue_next (i : Instr) (body : Ctx → State → Eff) (s : State) : ∃ t, issue i body s = .next t := by
  unfold issue
  split <;> exact ⟨_, rfl⟩

/-! ## The three ways to conclude -/

theorem conclude_done : conclude c s (.done s₂) = retire s₂ c.t.core c.tid c.gid := rfl
theorem conclude_fault {addr : Nat} {lanes : Mask} {aux scode : Nat} : conclude c s (.fault code addr lanes aux scode) =
    takeFault s c.tid c.gid ⟨code, c.g.index, c.g.restart, addr, lanes, scode, aux, false, 0, some c.g.restart, s.nextId, true⟩ := rfl
theorem conclude_bad {lanes : Mask} : conclude c s (.bad code lanes) =
    takeFault s c.tid c.gid ⟨code, c.g.index, c.g.restart, 0, lanes, 0, 0, false, 0, some c.g.restart, s.nextId, true⟩ := rfl

/-- An instruction that has started and whose effect is done completes. -/
theorem completes_of_done (h : start i s = .go c s₀ s₁) (he : exec i s = issue i body s) (hb : body c s₁ = .done s₂) :
    Completes i s c s₂ := by rw [Completes, he, issue_go h, hb, conclude_done]
/-- An instruction that has started and whose effect is a fault faults. -/
theorem faults_of_fault {addr : Nat} {lanes : Mask} {aux scode : Nat} (h : start i s = .go c s₀ s₁) (he : exec i s = issue i body s)
    (hb : body c s₁ = .fault code addr lanes aux scode) : Faults i s c code addr lanes aux scode :=
  ⟨s₀, s₁, h, by rw [he, issue_go h, hb, conclude_fault]⟩

/-! ## Retiring (R39, R53) -/

@[simp] theorem retire_dram (s : State) (core tid gid : Nat) : (retire s core tid gid).dram = s.dram := rfl
@[simp] theorem retire_flight (s : State) (core tid gid : Nat) : (retire s core tid gid).flight = s.flight := rfl
@[simp] theorem retire_moves (s : State) (core tid gid : Nat) : (retire s core tid gid).moves = s.moves := rfl
@[simp] theorem retire_counts (s : State) (core tid gid : Nat) : (retire s core tid gid).counts = s.counts := rfl
@[simp] theorem retire_parts (s : State) (core tid gid : Nat) : (retire s core tid gid).parts = s.parts := rfl
@[simp] theorem retire_grids (s : State) (core tid gid : Nat) : (retire s core tid gid).grids = s.grids := rfl
@[simp] theorem retire_saved (s : State) (core tid gid : Nat) : (retire s core tid gid).saved = s.saved := rfl
@[simp] theorem retire_clusters (s : State) (core tid gid : Nat) : (retire s core tid gid).clusters = s.clusters := rfl
@[simp] theorem retire_mgmt (s : State) (core tid gid : Nat) : (retire s core tid gid).mgmt = s.mgmt := rfl
@[simp] theorem retire_hostMem (s : State) (core tid gid : Nat) : (retire s core tid gid).hostMem = s.hostMem := rfl
@[simp] theorem retire_peerMem (s : State) (core tid gid : Nat) : (retire s core tid gid).peerMem = s.peerMem := rfl
@[simp] theorem retire_holds (s : State) (core tid gid : Nat) : (retire s core tid gid).holds = s.holds := rfl
@[simp] theorem retire_msix (s : State) (core tid gid : Nat) : (retire s core tid gid).msix = s.msix := rfl

/-- A group that retires keeps everything that it holds. -/
theorem groupOf_retire (s : State) (core tid gid j k : Nat) : groupOf (retire s core tid gid) j k = groupOf s j k := by
  have h : (youngest s core tid gid).teams = s.teams := rfl
  unfold retire groupOf
  by_cases hj : j = tid
  · subst hj
    cases ht : teamOf s j <;> simp [teamOf, h] at ht ⊢ <;> simp [ht]
  · rw [teamOf_modTeam_ne hj]; simp [teamOf, h]

/-! ## What has started -/

/-- An instruction goes ahead only for a group that is there, of a resident team, without a fault and waiting for no move, whose checks of R182
pass. -/
theorem start_go_team (h : start i s = .go c s₀ s₁) :
    c.tid = s.cur.1 ∧ c.gid = s.cur.2 ∧ ∃ t g, teamOf s s.cur.1 = some t ∧ groupOf s s.cur.1 s.cur.2 = some g ∧
      t.resident = true ∧ g.fault = none ∧ g.registered = none ∧ decodeFault t g i = none := by
  simp only [start] at h
  split at h
  · rename_i t g ht hg
    split at h
    · cases h
    · rename_i hc
      split at h
      · cases h
      · split at h
        · cases h
        · rename_i hd
          refine ⟨?_, ?_, t, g, ht, hg, ?_, ?_, ?_, hd⟩
          · repeat' split at h
            all_goals first | (cases h; rfl) | cases h
          · repeat' split at h
            all_goals first | (cases h; rfl) | cases h
          · simp only [Bool.or_eq_true, not_or, Bool.not_eq_true, Bool.not_eq_false'] at hc; exact hc.1.1.2
          · simp only [Bool.or_eq_true, not_or, Bool.not_eq_true, Bool.not_eq_false'] at hc; simpa using hc.1.2
          · simp only [Bool.or_eq_true, not_or, Bool.not_eq_true, Bool.not_eq_false'] at hc; simpa using hc.2
  · cases h

/-- Everything that a start does: the loose replicas are refreshed first where an atomic's acquire asks for it (R253), the latches become
undefined where the group comes from a yield point or first uses a long-latency result (R40, R41), and the group moves on. -/
theorem start_go_state (h : start i s = .go c s₀ s₁) : ∃ (t : Team) (g : Group) (y : Bool), teamOf s s.cur.1 = some t ∧
    groupOf s s.cur.1 s.cur.2 = some g ∧ s₀ = (if g.wait = some (.performed true) then refreshReplicas s t.core 0 else s) ∧
    s₁ = moveOn i c (afterYield s₀ s.cur.1 s.cur.2 y) := by
  simp only [start] at h
  split at h
  · rename_i t g ht hg
    refine ⟨t, g, (usesWith g.hints i).names.any (fun n => g.fresh.contains n) || (match g.wait with
      | some .yielded => false
      | some w => w.yp
      | none => false), ht, hg, ?_⟩
    repeat' split at h
    all_goals first
      | cases h; done
      | (cases h; constructor <;> simp_all)
  · cases h

/-- Memory, partitions, messages, clusters, grids and images are as they were. -/
def State.SameOutside (s t : State) : Prop := t.dram = s.dram ∧ t.parts = s.parts ∧ t.flight = s.flight ∧ t.clusters = s.clusters ∧
  t.grids = s.grids ∧ t.saved = s.saved ∧ t.hostMem = s.hostMem

theorem State.SameOutside.trans {s t u : State} (h : s.SameOutside t) (k : t.SameOutside u) : s.SameOutside u := by
  obtain ⟨h1, h2, h3, h4, h5, h6, h7⟩ := h
  obtain ⟨k1, k2, k3, k4, k5, k6, k7⟩ := k
  exact ⟨k1.trans h1, k2.trans h2, k3.trans h3, k4.trans h4, k5.trans h5, k6.trans h6, k7.trans h7⟩

theorem meetEcc_sameOutside (s : State) (bus : Nat) (shelf : Bool) : s.SameOutside (meetEcc s bus shelf).2 := by
  simp only [meetEcc]
  split <;> exact ⟨rfl, rfl, rfl, rfl, rfl, rfl, rfl⟩

theorem meetAll_sameOutside : ∀ (l : List (Nat × Bool)) (s : State), s.SameOutside (meetAll l s).2
  | [], _ => ⟨rfl, rfl, rfl, rfl, rfl, rfl, rfl⟩
  | b :: l, s => by
    have h := meetEcc_sameOutside s b.1 b.2
    simp only [meetAll]
    split
    · rename_i h'; rw [h'] at h; exact h
    · rename_i s' h'; rw [h'] at h; exact h.trans (meetAll_sameOutside l s')

theorem carriedPage_sameOutside (s : State) (home : Place) : s.SameOutside (carriedPage s home).2 := by
  have h := meetAll_sameOutside ((if (frameAt s home).valid.toNat = 2 ^ 256 - 1 then []
    else columnBus (frameAt s home).hclu (frameAt s home).hpage) ++ shelfBus home) s
  simp only [carriedPage, decide_eq_true_eq]
  split <;> (rename_i e; rw [e] at h; exact h)

theorem refreshFrame_sameOutside (s : State) (core n : Nat) (home : Place) : s.SameOutside (refreshFrame s core n home) :=
  carriedPage_sameOutside s home

/-- A refresh changes its core's replicas, and what the buses that it crosses have counted (R137, R425). -/
theorem refreshReplicas_sameOutside (s : State) (core bind : Nat) : s.SameOutside (refreshReplicas s core bind) := by
  simp only [refreshReplicas]
  suffices ∀ (l : NMap Frame) (u : State), s.SameOutside u →
      s.SameOutside (l.foldl (fun s p => (p.2.replicaOf.map (refreshFrame s core p.1)).getD s) u) from
    this _ s ⟨rfl, rfl, rfl, rfl, rfl, rfl, rfl⟩
  intro l
  induction l with
  | nil => exact fun _ h => h
  | cons p l ih =>
    intro u hu
    refine ih _ (hu.trans ?_)
    rcases e : p.2.replicaOf with _ | home <;> simp only [e, Option.map_none, Option.map_some, Option.getD_none, Option.getD_some]
    · exact ⟨rfl, rfl, rfl, rfl, rfl, rfl, rfl⟩
    · exact refreshFrame_sameOutside u core p.1 home

theorem afterYield_sameOutside (s : State) (tid gid : Nat) (y : Bool) : s.SameOutside (afterYield s tid gid y) := by
  cases y <;> exact ⟨rfl, rfl, rfl, rfl, rfl, rfl, rfl⟩

/-- A start changes nothing but its core's replicas, its team and its group, and what the buses that a refresh crosses have counted. -/
theorem start_go_keeps (h : start i s = .go c s₀ s₁) : s.SameOutside s₁ := by
  obtain ⟨t, g, y, -, -, h₀, rfl⟩ := start_go_state h
  have h₁ : s.SameOutside s₀ := by
    subst h₀
    split
    · exact refreshReplicas_sameOutside s t.core 0
    · exact ⟨rfl, rfl, rfl, rfl, rfl, rfl, rfl⟩
  exact h₁.trans (afterYield_sameOutside s₀ s.cur.1 s.cur.2 y)

end Sys2Proof.Machine
end

