-- ==== Sys2Proof/Laws/PerInstr.lean ====
section
/-! SUPPORT. One lemma per instruction: its fields do not carry out of their places, so its word is a 32-bit number (R171, R172). -/

namespace Sys2Proof.Laws.Encoding

/-- The number that the encoder packs for the instruction, where it has a word, is below 2^32 (R171). -/
def Statement (i : Instr) : Prop := ∀ n, encodeNat i = some n → n < 2 ^ 32

theorem sadd (d a b u w) : Statement (.sadd d a b u w) := by
  intro n h; cases h
  have := d.isLt; have := a.isLt; have := b.isLt; have := u.isLt; have := w.isLt
  simp only [pack]; omega
theorem ssub (d a b u w) : Statement (.ssub d a b u w) := by
  intro n h; cases h
  have := d.isLt; have := a.isLt; have := b.isLt; have := u.isLt; have := w.isLt
  simp only [pack]; omega
theorem smul (d a b u w) : Statement (.smul d a b u w) := by
  intro n h; cases h
  have := d.isLt; have := a.isLt; have := b.isLt; have := u.isLt; have := w.isLt
  simp only [pack]; omega
theorem smulh (d a b u w) : Statement (.smulh d a b u w) := by
  intro n h; cases h
  have := d.isLt; have := a.isLt; have := b.isLt; have := u.isLt; have := w.isLt
  simp only [pack]; omega
theorem sdiv (d a b u w) : Statement (.sdiv d a b u w) := by
  intro n h; cases h
  have := d.isLt; have := a.isLt; have := b.isLt; have := u.isLt; have := w.isLt
  simp only [pack]; omega
theorem srem (d a b u w) : Statement (.srem d a b u w) := by
  intro n h; cases h
  have := d.isLt; have := a.isLt; have := b.isLt; have := u.isLt; have := w.isLt
  simp only [pack]; omega
theorem sand (d a b u w) : Statement (.sand d a b u w) := by
  intro n h; cases h
  have := d.isLt; have := a.isLt; have := b.isLt; have := u.isLt; have := w.isLt
  simp only [pack]; omega
theorem sor (d a b u w) : Statement (.sor d a b u w) := by
  intro n h; cases h
  have := d.isLt; have := a.isLt; have := b.isLt; have := u.isLt; have := w.isLt
  simp only [pack]; omega
theorem sxor (d a b u w) : Statement (.sxor d a b u w) := by
  intro n h; cases h
  have := d.isLt; have := a.isLt; have := b.isLt; have := u.isLt; have := w.isLt
  simp only [pack]; omega
theorem sshl (d a b u w) : Statement (.sshl d a b u w) := by
  intro n h; cases h
  have := d.isLt; have := a.isLt; have := b.isLt; have := u.isLt; have := w.isLt
  simp only [pack]; omega
theorem sshr (d a b u w) : Statement (.sshr d a b u w) := by
  intro n h; cases h
  have := d.isLt; have := a.isLt; have := b.isLt; have := u.isLt; have := w.isLt
  simp only [pack]; omega
theorem smin (d a b u w) : Statement (.smin d a b u w) := by
  intro n h; cases h
  have := d.isLt; have := a.isLt; have := b.isLt; have := u.isLt; have := w.isLt
  simp only [pack]; omega
theorem smax (d a b u w) : Statement (.smax d a b u w) := by
  intro n h; cases h
  have := d.isLt; have := a.isLt; have := b.isLt; have := u.isLt; have := w.isLt
  simp only [pack]; omega
theorem scmp (d a b cond u w) : Statement (.scmp d a b cond u w) := by
  intro n h; cases h
  have := d.isLt; have := a.isLt; have := b.isLt; have := cond.isLt; have := u.isLt; have := w.isLt
  simp only [pack]; omega
theorem ssel (d a b c) : Statement (.ssel d a b c) := by
  intro n h; cases h
  have := d.isLt; have := a.isLt; have := b.isLt; have := c.isLt
  simp only [pack]; omega
theorem sbit (d a op w) : Statement (.sbit d a op w) := by
  intro n h; cases h
  have := d.isLt; have := a.isLt; have := op.isLt; have := w.isLt
  simp only [pack]; omega
theorem sget (d i) : Statement (.sget d i) := by
  intro n h; cases h
  have := d.isLt; have := i.isLt
  simp only [pack]; omega
theorem sset (a i) : Statement (.sset a i) := by
  intro n h; cases h
  have := a.isLt; have := i.isLt
  simp only [pack]; omega
theorem mget (d mask) : Statement (.mget d mask) := by
  intro n h; cases h
  have := d.isLt; have := mask.isLt
  simp only [pack]; omega
theorem mput (a mask) : Statement (.mput a mask) := by
  intro n h; cases h
  have := a.isLt; have := mask.isLt
  simp only [pack]; omega
theorem sext (d a u size) : Statement (.sext d a u size) := by
  intro n h; cases h
  have := d.isLt; have := a.isLt; have := u.isLt; have := size.isLt
  simp only [pack]; omega
theorem saddi (d a imm) : Statement (.saddi d a imm) := by
  intro n h; cases h
  have := d.isLt; have := a.isLt; have := imm.isLt
  simp only [pack]; omega
theorem sandi (d a imm) : Statement (.sandi d a imm) := by
  intro n h; cases h
  have := d.isLt; have := a.isLt; have := imm.isLt
  simp only [pack]; omega
theorem sori (d a imm) : Statement (.sori d a imm) := by
  intro n h; cases h
  have := d.isLt; have := a.isLt; have := imm.isLt
  simp only [pack]; omega
theorem sxori (d a imm) : Statement (.sxori d a imm) := by
  intro n h; cases h
  have := d.isLt; have := a.isLt; have := imm.isLt
  simp only [pack]; omega
theorem sshli (d a c) : Statement (.sshli d a c) := by
  intro n h; cases h
  have := d.isLt; have := a.isLt; have := c.isLt
  simp only [pack]; omega
theorem sshri (d a arith c) : Statement (.sshri d a arith c) := by
  intro n h; cases h
  have := d.isLt; have := a.isLt; have := arith.isLt; have := c.isLt
  simp only [pack]; omega
theorem slti (d a imm) : Statement (.slti d a imm) := by
  intro n h; cases h
  have := d.isLt; have := a.isLt; have := imm.isLt
  simp only [pack]; omega
theorem sltni (d a imm) : Statement (.sltni d a imm) := by
  intro n h; cases h
  have := d.isLt; have := a.isLt; have := imm.isLt
  simp only [pack]; omega
theorem sli (d imm) : Statement (.sli d imm) := by
  intro n h; cases h
  have := d.isLt; have := imm.isLt
  simp only [pack]; omega
theorem bra (off) : Statement (.bra off) := by
  intro n h; cases h
  have := off.isLt
  simp only [pack]; omega
theorem call (off) : Statement (.call off) := by
  intro n h; cases h
  have := off.isLt
  simp only [pack]; omega
theorem bz (a off) : Statement (.bz a off) := by
  intro n h; cases h
  have := a.isLt; have := off.isLt
  simp only [pack]; omega
theorem bnz (a off) : Statement (.bnz a off) := by
  intro n h; cases h
  have := a.isLt; have := off.isLt
  simp only [pack]; omega
theorem jr (a kind) : Statement (.jr a kind) := by
  intro n h; cases h
  have := a.isLt; have := kind.isLt
  simp only [pack]; omega
theorem rept (a len) : Statement (.rept a len) := by
  intro n h; cases h
  have := a.isLt; have := len.isLt
  simp only [pack]; omega
theorem bany (mask off) : Statement (.bany mask off) := by
  intro n h; cases h
  have := mask.isLt; have := off.isLt
  simp only [pack]; omega
theorem bnone (mask off) : Statement (.bnone mask off) := by
  intro n h; cases h
  have := mask.isLt; have := off.isLt
  simp only [pack]; omega
theorem ifv (mask neg off) : Statement (.ifv mask neg off) := by
  intro n h; cases h
  have := mask.isLt; have := neg.isLt; have := off.isLt
  simp only [pack]; omega
theorem elsev (off) : Statement (.elsev off) := by
  intro n h; cases h
  have := off.isLt
  simp only [pack]; omega
theorem endv : Statement .endv := by intro n h; cases h; decide
theorem setfmt (d a sel) : Statement (.setfmt d a sel) := by
  intro n h; cases h
  have := d.isLt; have := a.isLt; have := sel.isLt
  simp only [pack]; omega
theorem vadd (guard nw d a b mod) : Statement (.vadd guard nw d a b mod) := by
  intro n h; cases h
  have := guard.isLt; have := nw.isLt; have := d.isLt; have := a.isLt; have := b.isLt; have := mod.isLt
  simp only [pack]; omega
theorem vsub (guard nw d a b mod) : Statement (.vsub guard nw d a b mod) := by
  intro n h; cases h
  have := guard.isLt; have := nw.isLt; have := d.isLt; have := a.isLt; have := b.isLt; have := mod.isLt
  simp only [pack]; omega
theorem vmul (guard nw d a b) : Statement (.vmul guard nw d a b) := by
  intro n h; cases h
  have := guard.isLt; have := nw.isLt; have := d.isLt; have := a.isLt; have := b.isLt
  simp only [pack]; omega
theorem vmulh (guard nw d a b mod) : Statement (.vmulh guard nw d a b mod) := by
  intro n h; cases h
  have := guard.isLt; have := nw.isLt; have := d.isLt; have := a.isLt; have := b.isLt; have := mod.isLt
  simp only [pack]; omega
theorem vmad (guard d a b) : Statement (.vmad guard d a b) := by
  intro n h; cases h
  have := guard.isLt; have := d.isLt; have := a.isLt; have := b.isLt
  simp only [pack]; omega
theorem vand (guard nw d a b) : Statement (.vand guard nw d a b) := by
  intro n h; cases h
  have := guard.isLt; have := nw.isLt; have := d.isLt; have := a.isLt; have := b.isLt
  simp only [pack]; omega
theorem vor (guard nw d a b) : Statement (.vor guard nw d a b) := by
  intro n h; cases h
  have := guard.isLt; have := nw.isLt; have := d.isLt; have := a.isLt; have := b.isLt
  simp only [pack]; omega
theorem vxor (guard nw d a b) : Statement (.vxor guard nw d a b) := by
  intro n h; cases h
  have := guard.isLt; have := nw.isLt; have := d.isLt; have := a.isLt; have := b.isLt
  simp only [pack]; omega
theorem vshl (guard nw d a b) : Statement (.vshl guard nw d a b) := by
  intro n h; cases h
  have := guard.isLt; have := nw.isLt; have := d.isLt; have := a.isLt; have := b.isLt
  simp only [pack]; omega
theorem vshr (guard nw d a b mod) : Statement (.vshr guard nw d a b mod) := by
  intro n h; cases h
  have := guard.isLt; have := nw.isLt; have := d.isLt; have := a.isLt; have := b.isLt; have := mod.isLt
  simp only [pack]; omega
theorem vmin (guard nw d a b mod) : Statement (.vmin guard nw d a b mod) := by
  intro n h; cases h
  have := guard.isLt; have := nw.isLt; have := d.isLt; have := a.isLt; have := b.isLt; have := mod.isLt
  simp only [pack]; omega
theorem vmax (guard nw d a b mod) : Statement (.vmax guard nw d a b mod) := by
  intro n h; cases h
  have := guard.isLt; have := nw.isLt; have := d.isLt; have := a.isLt; have := b.isLt; have := mod.isLt
  simp only [pack]; omega
theorem vabsd (guard nw d a b mod) : Statement (.vabsd guard nw d a b mod) := by
  intro n h; cases h
  have := guard.isLt; have := nw.isLt; have := d.isLt; have := a.isLt; have := b.isLt; have := mod.isLt
  simp only [pack]; omega
theorem vsel (guard d a b mod) : Statement (.vsel guard d a b mod) := by
  intro n h; cases h
  have := guard.isLt; have := d.isLt; have := a.isLt; have := b.isLt; have := mod.isLt
  simp only [pack]; omega
theorem vcmp (guard cond mask a b mod) : Statement (.vcmp guard cond mask a b mod) := by
  intro n h; cases h
  have := guard.isLt; have := cond.isLt; have := mask.isLt; have := a.isLt; have := b.isLt; have := mod.isLt
  simp only [pack]; omega
theorem vbit (guard nw d a mod) : Statement (.vbit guard nw d a mod) := by
  intro n h; cases h
  have := guard.isLt; have := nw.isLt; have := d.isLt; have := a.isLt; have := mod.isLt
  simp only [pack]; omega
theorem vlane (guard nw d mod) : Statement (.vlane guard nw d mod) := by
  intro n h; cases h
  have := guard.isLt; have := nw.isLt; have := d.isLt; have := mod.isLt
  simp only [pack]; omega
theorem vmov (guard nw d a b mod) : Statement (.vmov guard nw d a b mod) := by
  intro n h; cases h
  have := guard.isLt; have := nw.isLt; have := d.isLt; have := a.isLt; have := b.isLt; have := mod.isLt
  simp only [pack]; omega
theorem vshuf (guard nw d a b mod) : Statement (.vshuf guard nw d a b mod) := by
  intro n h; cases h
  have := guard.isLt; have := nw.isLt; have := d.isLt; have := a.isLt; have := b.isLt; have := mod.isLt
  simp only [pack]; omega
theorem vrot (guard nw d a b mod) : Statement (.vrot guard nw d a b mod) := by
  intro n h; cases h
  have := guard.isLt; have := nw.isLt; have := d.isLt; have := a.isLt; have := b.isLt; have := mod.isLt
  simp only [pack]; omega
theorem vslide (guard nw d a b mod) : Statement (.vslide guard nw d a b mod) := by
  intro n h; cases h
  have := guard.isLt; have := nw.isLt; have := d.isLt; have := a.isLt; have := b.isLt; have := mod.isLt
  simp only [pack]; omega
theorem vscan (guard nw d a b mod) : Statement (.vscan guard nw d a b mod) := by
  intro n h; cases h
  have := guard.isLt; have := nw.isLt; have := d.isLt; have := a.isLt; have := b.isLt; have := mod.isLt
  simp only [pack]; omega
theorem vred (guard d a b) : Statement (.vred guard d a b) := by
  intro n h; cases h
  have := guard.isLt; have := d.isLt; have := a.isLt; have := b.isLt
  simp only [pack]; omega
theorem bperm (guard nw d a b mod) : Statement (.bperm guard nw d a b mod) := by
  intro n h; cases h
  have := guard.isLt; have := nw.isLt; have := d.isLt; have := a.isLt; have := b.isLt; have := mod.isLt
  simp only [pack]; omega
theorem mop (op mask mX mY) : Statement (.mop op mask mX mY) := by
  intro n h; cases h
  have := op.isLt; have := mask.isLt; have := mX.isLt; have := mY.isLt
  simp only [pack]; omega
theorem mcnt (guard d mX mod) : Statement (.mcnt guard d mX mod) := by
  intro n h; cases h
  have := guard.isLt; have := d.isLt; have := mX.isLt; have := mod.isLt
  simp only [pack]; omega
theorem vext (guard nw d a b mod) : Statement (.vext guard nw d a b mod) := by
  intro n h; cases h
  have := guard.isLt; have := nw.isLt; have := d.isLt; have := a.isLt; have := b.isLt; have := mod.isLt
  simp only [pack]; omega
theorem fadd (guard nw d a b) : Statement (.fadd guard nw d a b) := by
  intro n h; cases h
  have := guard.isLt; have := nw.isLt; have := d.isLt; have := a.isLt; have := b.isLt
  simp only [pack]; omega
theorem fsub (guard nw d a b) : Statement (.fsub guard nw d a b) := by
  intro n h; cases h
  have := guard.isLt; have := nw.isLt; have := d.isLt; have := a.isLt; have := b.isLt
  simp only [pack]; omega
theorem fmul (guard nw d a b) : Statement (.fmul guard nw d a b) := by
  intro n h; cases h
  have := guard.isLt; have := nw.isLt; have := d.isLt; have := a.isLt; have := b.isLt
  simp only [pack]; omega
theorem ffma (guard d a b) : Statement (.ffma guard d a b) := by
  intro n h; cases h
  have := guard.isLt; have := d.isLt; have := a.isLt; have := b.isLt
  simp only [pack]; omega
theorem fnma (guard d a b) : Statement (.fnma guard d a b) := by
  intro n h; cases h
  have := guard.isLt; have := d.isLt; have := a.isLt; have := b.isLt
  simp only [pack]; omega
theorem fmin (guard nw d a b) : Statement (.fmin guard nw d a b) := by
  intro n h; cases h
  have := guard.isLt; have := nw.isLt; have := d.isLt; have := a.isLt; have := b.isLt
  simp only [pack]; omega
theorem fmax (guard nw d a b) : Statement (.fmax guard nw d a b) := by
  intro n h; cases h
  have := guard.isLt; have := nw.isLt; have := d.isLt; have := a.isLt; have := b.isLt
  simp only [pack]; omega
theorem fcmp (guard cond mask a b) : Statement (.fcmp guard cond mask a b) := by
  intro n h; cases h
  have := guard.isLt; have := cond.isLt; have := mask.isLt; have := a.isLt; have := b.isLt
  simp only [pack]; omega
theorem frcp (guard nw d a) : Statement (.frcp guard nw d a) := by
  intro n h; cases h
  have := guard.isLt; have := nw.isLt; have := d.isLt; have := a.isLt
  simp only [pack]; omega
theorem frsq (guard nw d a) : Statement (.frsq guard nw d a) := by
  intro n h; cases h
  have := guard.isLt; have := nw.isLt; have := d.isLt; have := a.isLt
  simp only [pack]; omega
theorem fex2 (guard nw d a) : Statement (.fex2 guard nw d a) := by
  intro n h; cases h
  have := guard.isLt; have := nw.isLt; have := d.isLt; have := a.isLt
  simp only [pack]; omega
theorem flg2 (guard nw d a) : Statement (.flg2 guard nw d a) := by
  intro n h; cases h
  have := guard.isLt; have := nw.isLt; have := d.isLt; have := a.isLt
  simp only [pack]; omega
theorem fclass (guard nw d a) : Statement (.fclass guard nw d a) := by
  intro n h; cases h
  have := guard.isLt; have := nw.isLt; have := d.isLt; have := a.isLt
  simp only [pack]; omega
theorem cvt (guard nw d a dst src rnd) : Statement (.cvt guard nw d a dst src rnd) := by
  intro n h; cases h
  have := guard.isLt; have := nw.isLt; have := d.isLt; have := a.isLt; have := dst.isLt; have := src.isLt; have := rnd.isLt
  simp only [pack]; omega
theorem hfma2 (guard d a b mod) : Statement (.hfma2 guard d a b mod) := by
  intro n h; cases h
  have := guard.isLt; have := d.isLt; have := a.isLt; have := b.isLt; have := mod.isLt
  simp only [pack]; omega
theorem dadd (guard nw d a b) : Statement (.dadd guard nw d a b) := by
  intro n h; cases h
  have := guard.isLt; have := nw.isLt; have := d.isLt; have := a.isLt; have := b.isLt
  simp only [pack]; omega
theorem dmul (guard nw d a b) : Statement (.dmul guard nw d a b) := by
  intro n h; cases h
  have := guard.isLt; have := nw.isLt; have := d.isLt; have := a.isLt; have := b.isLt
  simp only [pack]; omega
theorem dfma (guard d a b) : Statement (.dfma guard d a b) := by
  intro n h; cases h
  have := guard.isLt; have := d.isLt; have := a.isLt; have := b.isLt
  simp only [pack]; omega
theorem dcmpF64 (guard cond mask a b) : Statement (.dcmpF64 guard cond mask a b) := by
  intro n h; cases h
  have := guard.isLt; have := cond.isLt; have := mask.isLt; have := a.isLt; have := b.isLt
  simp only [pack]; omega
theorem dcvt (guard nw d a code rnd) : Statement (.dcvt guard nw d a code rnd) := by
  intro n h; cases h
  have := guard.isLt; have := nw.isLt; have := d.isLt; have := a.isLt; have := code.isLt; have := rnd.isLt
  simp only [pack]; omega
theorem fscale (guard nw d a b mod) : Statement (.fscale guard nw d a b mod) := by
  intro n h; cases h
  have := guard.isLt; have := nw.isLt; have := d.isLt; have := a.isLt; have := b.isLt; have := mod.isLt
  simp only [pack]; omega
theorem ld (guard data ofs base size) : Statement (.ld guard data ofs base size) := by
  intro n h; cases h
  have := guard.isLt; have := data.isLt; have := ofs.isLt; have := base.isLt; have := size.isLt
  simp only [pack]; omega
theorem st (guard data ofs base size) : Statement (.st guard data ofs base size) := by
  intro n h; cases h
  have := guard.isLt; have := data.isLt; have := ofs.isLt; have := base.isLt; have := size.isLt
  simp only [pack]; omega
theorem lds (guard data ofs base size) : Statement (.lds guard data ofs base size) := by
  intro n h; cases h
  have := guard.isLt; have := data.isLt; have := ofs.isLt; have := base.isLt; have := size.isLt
  simp only [pack]; omega
theorem sts (guard data ofs base size) : Statement (.sts guard data ofs base size) := by
  intro n h; cases h
  have := guard.isLt; have := data.isLt; have := ofs.isLt; have := base.isLt; have := size.isLt
  simp only [pack]; omega
theorem sld (data base size) : Statement (.sld data base size) := by
  intro n h; cases h
  have := data.isLt; have := base.isLt; have := size.isLt
  simp only [pack]; omega
theorem sst (data base size) : Statement (.sst data base size) := by
  intro n h; cases h
  have := data.isLt; have := base.isLt; have := size.isLt
  simp only [pack]; omega
theorem plld (guard data ofs base planes) : Statement (.plld guard data ofs base planes) := by
  intro n h; cases h
  have := guard.isLt; have := data.isLt; have := ofs.isLt; have := base.isLt; have := planes.isLt
  simp only [pack]; omega
theorem plst (guard data ofs base planes) : Statement (.plst guard data ofs base planes) := by
  intro n h; cases h
  have := guard.isLt; have := data.isLt; have := ofs.isLt; have := base.isLt; have := planes.isLt
  simp only [pack]; omega
theorem atom (guard data ofs base op) : Statement (.atom guard data ofs base op) := by
  intro n h; cases h
  have := guard.isLt; have := data.isLt; have := ofs.isLt; have := base.isLt; have := op.isLt
  simp only [pack]; omega
theorem atomx (guard data ofs base op) : Statement (.atomx guard data ofs base op) := by
  intro n h; cases h
  have := guard.isLt; have := data.isLt; have := ofs.isLt; have := base.isLt; have := op.isLt
  simp only [pack]; omega
theorem red (guard data ofs base op) : Statement (.red guard data ofs base op) := by
  intro n h; cases h
  have := guard.isLt; have := data.isLt; have := ofs.isLt; have := base.isLt; have := op.isLt
  simp only [pack]; omega
theorem satom (data base op) : Statement (.satom data base op) := by
  intro n h; cases h
  have := data.isLt; have := base.isLt; have := op.isLt
  simp only [pack]; omega
theorem place (len base wh) : Statement (.place len base wh) := by
  intro n h; cases h
  have := len.isLt; have := base.isLt; have := wh.isLt
  simp only [pack]; omega
theorem waita (data uns wide base cond) : Statement (.waita data uns wide base cond) := by
  intro n h; cases h
  have := data.isLt; have := uns.isLt; have := wide.isLt; have := base.isLt; have := cond.isLt
  simp only [pack]; omega
theorem fence (scope kind) : Statement (.fence scope kind) := by
  intro n h; cases h
  have := scope.isLt; have := kind.isLt
  simp only [pack]; omega
theorem acq (a d scope) : Statement (.acq a d scope) := by
  intro n h; cases h
  have := a.isLt; have := d.isLt; have := scope.isLt
  simp only [pack]; omega
theorem rel (a scope) : Statement (.rel a scope) := by
  intro n h; cases h
  have := a.isLt; have := scope.isLt
  simp only [pack]; omega
theorem tlwait (a tl) : Statement (.tlwait a tl) := by
  intro n h; cases h
  have := a.isLt; have := tl.isLt
  simp only [pack]; omega
theorem tlget (d tl) : Statement (.tlget d tl) := by
  intro n h; cases h
  have := d.isLt; have := tl.isLt
  simp only [pack]; omega
theorem baralloc (d p) : Statement (.baralloc d p) := by
  intro n h; cases h
  have := d.isLt; have := p.isLt
  simp only [pack]; omega
theorem barfree (d b) : Statement (.barfree d b) := by
  intro n h; cases h
  have := d.isLt; have := b.isLt
  simp only [pack]; omega
theorem bararr (b) : Statement (.bararr b) := by
  intro n h; cases h
  have := b.isLt
  simp only [pack]; omega
theorem barwait (b) : Statement (.barwait b) := by
  intro n h; cases h
  have := b.isLt
  simp only [pack]; omega
theorem barsync (b) : Statement (.barsync b) := by
  intro n h; cases h
  have := b.isLt
  simp only [pack]; omega
theorem xarr (m) : Statement (.xarr m) := by
  intro n h; cases h
  have := m.isLt
  simp only [pack]; omega
theorem xwait (m) : Statement (.xwait m) := by
  intro n h; cases h
  have := m.isLt
  simp only [pack]; omega
theorem qalloc (d a c) : Statement (.qalloc d a c) := by
  intro n h; cases h
  have := d.isLt; have := a.isLt; have := c.isLt
  simp only [pack]; omega
theorem qfree (d q) : Statement (.qfree d q) := by
  intro n h; cases h
  have := d.isLt; have := q.isLt
  simp only [pack]; omega
theorem qpush (q h) : Statement (.qpush q h) := by
  intro n h; cases h
  have := q.isLt; have := h.isLt
  simp only [pack]; omega
theorem qpop (d q) : Statement (.qpop d q) := by
  intro n h; cases h
  have := d.isLt; have := q.isLt
  simp only [pack]; omega
theorem qtry (d q h p) : Statement (.qtry d q h p) := by
  intro n h; cases h
  have := d.isLt; have := q.isLt; have := h.isLt; have := p.isLt
  simp only [pack]; omega
theorem qgrant (q n) : Statement (.qgrant q n) := by
  intro n h; cases h
  have := q.isLt; have := n.isLt
  simp only [pack]; omega
theorem copy (d a tl) : Statement (.copy d a tl) := by
  intro n h; cases h
  have := d.isLt; have := a.isLt; have := tl.isLt
  simp only [pack]; omega
theorem halo (d a tl) : Statement (.halo d a tl) := by
  intro n h; cases h
  have := d.isLt; have := a.isLt; have := tl.isLt
  simp only [pack]; omega
theorem mcast (d a tl) : Statement (.mcast d a tl) := by
  intro n h; cases h
  have := d.isLt; have := a.isLt; have := tl.isLt
  simp only [pack]; omega
theorem dcmpStream (d a tl) : Statement (.dcmpStream d a tl) := by
  intro n h; cases h
  have := d.isLt; have := a.isLt; have := tl.isLt
  simp only [pack]; omega
theorem coll (d a tl) : Statement (.coll d a tl) := by
  intro n h; cases h
  have := d.isLt; have := a.isLt; have := tl.isLt
  simp only [pack]; omega
theorem spawn (e p guard) : Statement (.spawn e p guard) := by
  intro n h; cases h
  have := e.isLt; have := p.isLt; have := guard.isLt
  simp only [pack]; omega
theorem rebin (key e p guard) : Statement (.rebin key e p guard) := by
  intro n h; cases h
  have := key.isLt; have := e.isLt; have := p.isLt; have := guard.isLt
  simp only [pack]; omega
theorem launch (d r) : Statement (.launch d r) := by
  intro n h; cases h
  have := d.isLt; have := r.isLt
  simp only [pack]; omega
theorem waitch (d g) : Statement (.waitch d g) := by
  intro n h; cases h
  have := d.isLt; have := g.isLt
  simp only [pack]; omega
theorem tclaim (d k) : Statement (.tclaim d k) := by
  intro n h; cases h
  have := d.isLt; have := k.isLt
  simp only [pack]; omega
theorem trel (n k) : Statement (.trel n k) := by
  intro n h; cases h
  have := n.isLt; have := k.isLt
  simp only [pack]; omega
theorem mmq (a b p qmask metric) : Statement (.mmq a b p qmask metric) := by
  intro n h; cases h
  have := a.isLt; have := b.isLt; have := p.isLt; have := qmask.isLt; have := metric.isLt
  simp only [pack]; omega
theorem mzero (t) : Statement (.mzero t) := by
  intro n h; cases h
  have := t.isLt
  simp only [pack]; omega
theorem mdrain (t a o dst mode) : Statement (.mdrain t a o dst mode) := by
  intro n h; cases h
  have := t.isLt; have := a.isLt; have := o.isLt; have := dst.isLt; have := mode.isLt
  simp only [pack]; omega
theorem mfill (t a) : Statement (.mfill t a) := by
  intro n h; cases h
  have := t.isLt; have := a.isLt
  simp only [pack]; omega
theorem cupd (a t p c) : Statement (.cupd a t p c) := by
  intro n h; cases h
  have := a.isLt; have := t.isLt; have := p.isLt; have := c.isLt
  simp only [pack]; omega
theorem menc (d s k) : Statement (.menc d s k) := by
  intro n h; cases h
  have := d.isLt; have := s.isLt; have := k.isLt
  simp only [pack]; omega
theorem cbld (k a p) : Statement (.cbld k a p) := by
  intro n h; cases h
  have := k.isLt; have := a.isLt; have := p.isLt
  simp only [pack]; omega
theorem mstat (d s) : Statement (.mstat d s) := by
  intro n h; cases h
  have := d.isLt; have := s.isLt
  simp only [pack]; omega
theorem gor2 (guard d p q ty) : Statement (.gor2 guard d p q ty) := by
  intro n h; cases h
  have := guard.isLt; have := d.isLt; have := p.isLt; have := q.isLt; have := ty.isLt
  simp only [pack]; omega
theorem gor3 (guard d p q ty) : Statement (.gor3 guard d p q ty) := by
  intro n h; cases h
  have := guard.isLt; have := d.isLt; have := p.isLt; have := q.isLt; have := ty.isLt
  simp only [pack]; omega
theorem ginc (guard d p q ty) : Statement (.ginc guard d p q ty) := by
  intro n h; cases h
  have := guard.isLt; have := d.isLt; have := p.isLt; have := q.isLt; have := ty.isLt
  simp only [pack]; omega
theorem gins (guard d p q ty) : Statement (.gins guard d p q ty) := by
  intro n h; cases h
  have := guard.isLt; have := d.isLt; have := p.isLt; have := q.isLt; have := ty.isLt
  simp only [pack]; omega
theorem gseg (guard d p q ty) : Statement (.gseg guard d p q ty) := by
  intro n h; cases h
  have := guard.isLt; have := d.isLt; have := p.isLt; have := q.isLt; have := ty.isLt
  simp only [pack]; omega
theorem himm (value) : Statement (.himm value) := by
  intro n h; cases h
  have := value.isLt
  simp only [pack]; omega
theorem hsched (delay reuseB reuseA keep) : Statement (.hsched delay reuseB reuseA keep) := by
  intro n h; cases h
  have := delay.isLt; have := reuseB.isLt; have := reuseA.isLt; have := keep.isLt
  simp only [pack]; omega
theorem hmod (xd xe sos peek far w64 sp ord scope sat rme rnd tie) : Statement (.hmod xd xe sos peek far w64 sp ord scope sat rme rnd tie) := by
  intro n h; cases h
  have := xd.isLt; have := xe.isLt; have := sos.isLt; have := peek.isLt; have := far.isLt; have := w64.isLt; have := sp.isLt; have := ord.isLt; have := scope.isLt; have := sat.isLt; have := rme.isLt; have := rnd.isLt; have := tie.isLt
  simp only [pack]; omega
theorem nop : Statement .nop := by intro n h; cases h; decide
theorem yield : Statement .yield := by intro n h; cases h; decide
theorem exit : Statement .exit := by intro n h; cases h; decide
theorem trap (code) : Statement (.trap code) := by
  intro n h; cases h
  have := code.isLt
  simp only [pack]; omega
theorem csrr (d a csr) : Statement (.csrr d a csr) := by
  intro n h; cases h
  have := d.isLt; have := a.isLt; have := csr.isLt
  simp only [pack]; omega
theorem csrw (b a csr) : Statement (.csrw b a csr) := by
  intro n h; cases h
  have := b.isLt; have := a.isLt; have := csr.isLt
  simp only [pack]; omega
theorem tresume (d a fin) : Statement (.tresume d a fin) := by
  intro n h; cases h
  have := d.isLt; have := a.isLt; have := fin.isLt
  simp only [pack]; omega
theorem tflush (a b all) : Statement (.tflush a b all) := by
  intro n h; cases h
  have := a.isLt; have := b.isLt; have := all.isLt
  simp only [pack]; omega
theorem split (d a) : Statement (.split d a) := by
  intro n h; cases h
  have := d.isLt; have := a.isLt
  simp only [pack]; omega
theorem halt (code) : Statement (.halt code) := by
  intro n h; cases h
  have := code.isLt
  simp only [pack]; omega
theorem sleep (n) : Statement (.sleep n) := by
  intro n h; cases h
  have := n.isLt
  simp only [pack]; omega
theorem brk (code) : Statement (.brk code) := by
  intro n h; cases h
  have := code.isLt
  simp only [pack]; omega
theorem binTimerExpiry (core bin) : Statement (.binTimerExpiry core bin) := nofun
theorem binGroupStart (core) : Statement (.binGroupStart core) := nofun
theorem watchdogExpiry (team) : Statement (.watchdogExpiry team) := nofun
theorem activeSetSwap (core) : Statement (.activeSetSwap core) := nofun
theorem forcedSwap (core) : Statement (.forcedSwap core) := nofun
theorem sleepExpiry (team group) : Statement (.sleepExpiry team group) := nofun
theorem waitaReread (team group) : Statement (.waitaReread team group) := nofun
theorem loadDataReturn (id) : Statement (.loadDataReturn id) := nofun
theorem sectorArrival (id) : Statement (.sectorArrival id) := nofun
theorem frameAccess (id) : Statement (.frameAccess id) := nofun
theorem replicaLock (id) : Statement (.replicaLock id) := nofun
theorem replicaUpdate (id) : Statement (.replicaUpdate id) := nofun
theorem sideboardAccess (id) : Statement (.sideboardAccess id) := nofun
theorem bounce (id) : Statement (.bounce id) := nofun
theorem moveDone (mv) : Statement (.moveDone mv) := nofun
theorem pageRecall (id) : Statement (.pageRecall id) := nofun
theorem pageWalk (core aspace vpage) : Statement (.pageWalk core aspace vpage) := nofun
theorem closeMessage (id) : Statement (.closeMessage id) := nofun
theorem closeAnswer (id) : Statement (.closeAnswer id) := nofun
theorem engineCommandCompletion (team tl num) : Statement (.engineCommandCompletion team tl num) := nofun
theorem dcmpStreamEnd (team tl num) : Statement (.dcmpStreamEnd team tl num) := nofun
theorem collArrival (grid k) : Statement (.collArrival grid k) := nofun
theorem copyDataLanding (team tl num) : Statement (.copyDataLanding team tl num) := nofun
theorem drawerDelivery (id) : Statement (.drawerDelivery id) := nofun
theorem deliveryRetry (id) : Statement (.deliveryRetry id) := nofun
theorem remoteLoad (id) : Statement (.remoteLoad id) := nofun
theorem targetGoneAnswer (id) : Statement (.targetGoneAnswer id) := nofun
theorem exchangeClose (id) : Statement (.exchangeClose id) := nofun
theorem xwaitMerge (team group) : Statement (.xwaitMerge team group) := nofun
theorem arrayPass (core) : Statement (.arrayPass core) := nofun
theorem passTimeout (core) : Statement (.passTimeout core) := nofun
theorem subarrayGate (core sub) : Statement (.subarrayGate core sub) := nofun
theorem subarrayWake (core sub) : Statement (.subarrayWake core sub) := nofun
theorem predicateCompletion (id) : Statement (.predicateCompletion id) := nofun
theorem pageMove (part aspace vpage dst) : Statement (.pageMove part aspace vpage dst) := nofun
theorem frameSeal (mv) : Statement (.frameSeal mv) := nofun
theorem sealNotice (mv) : Statement (.sealNotice mv) := nofun
theorem sectorLanding (mv sector) : Statement (.sectorLanding mv sector) := nofun
theorem touchPromotion (core aspace vpage) : Statement (.touchPromotion core aspace vpage) := nofun
theorem placeFarRequest (id) : Statement (.placeFarRequest id) := nofun
theorem stashSweep (cluster) : Statement (.stashSweep cluster) := nofun
theorem swapOut (team) : Statement (.swapOut team) := nofun
theorem dispatchStarvation (part) : Statement (.dispatchStarvation part) := nofun
theorem timeSliceExpiry (team) : Statement (.timeSliceExpiry team) := nofun
theorem gridCompletion (grid) : Statement (.gridCompletion grid) := nofun
theorem submissionPortWrite (part off bytes) : Statement (.submissionPortWrite part off bytes) := nofun
theorem cxlMemRead (off n) : Statement (.cxlMemRead off n) := nofun
theorem cxlMemWrite (off bytes) : Statement (.cxlMemWrite off bytes) := nofun
theorem getVersion : Statement .getVersion := nofun
theorem getCapabilities : Statement .getCapabilities := nofun
theorem negotiateAlgorithms : Statement .negotiateAlgorithms := nofun
theorem getDigests : Statement .getDigests := nofun
theorem getCertificate (slot off len) : Statement (.getCertificate slot off len) := nofun
theorem challenge (slot nonce) : Statement (.challenge slot nonce) := nofun
theorem getMeasurements (index nonce) : Statement (.getMeasurements index nonce) := nofun
theorem layoutWrite (v) : Statement (.layoutWrite v) := nofun
theorem eventsClear (v) : Statement (.eventsClear v) := nofun
theorem lrCmd (v) : Statement (.lrCmd v) := nofun
theorem fwStoreStagedImage : Statement .fwStoreStagedImage := nofun
theorem fwRaiseMinimumSvn : Statement .fwRaiseMinimumSvn := nofun
theorem fwCommandDone : Statement .fwCommandDone := nofun
theorem preset (part v) : Statement (.preset part v) := nofun
theorem mbxHeadWrite (part v) : Statement (.mbxHeadWrite part v) := nofun
theorem windowTableWrite (part off bytes) : Statement (.windowTableWrite part off bytes) := nofun
theorem ownedReleaseDone (part idx) : Statement (.ownedReleaseDone part idx) := nofun
theorem bar0RegisterWrite (off v) : Statement (.bar0RegisterWrite off v) := nofun
theorem peerRequest (port addr op) : Statement (.peerRequest port addr op) := nofun
theorem peerWriteAck (id) : Statement (.peerWriteAck id) := nofun
theorem flitCrcRetry (port) : Statement (.flitCrcRetry port) := nofun
theorem linkDown (port) : Statement (.linkDown port) := nofun
theorem linkUp (port serial) : Statement (.linkUp port serial) := nofun
theorem powerOn : Statement .powerOn := nofun
theorem thermalTrip (stack) : Statement (.thermalTrip stack) := nofun
theorem overcurrent (rail) : Statement (.overcurrent rail) := nofun
theorem sensorSample (cluster col s0 s1 moved) : Statement (.sensorSample cluster col s0 s1 moved) := nofun
theorem lifetimeFlush : Statement .lifetimeFlush := nofun
theorem orderlyShutdown : Statement .orderlyShutdown := nofun
theorem powerLoss : Statement .powerLoss := nofun
theorem busTest (core bad) : Statement (.busTest core bad) := nofun
theorem mdrainCompletion (id) : Statement (.mdrainCompletion id) := nofun
theorem replicaAcknowledgement (id) : Statement (.replicaAcknowledgement id) := nofun
theorem zeroLengthReadCompletion (id) : Statement (.zeroLengthReadCompletion id) := nofun
theorem mbxBaseWrite (part v) : Statement (.mbxBaseWrite part v) := nofun
theorem gemarLaneLoss (port) : Statement (.gemarLaneLoss port) := nofun
theorem hschedDelayExpiry (team group) : Statement (.hschedDelayExpiry team group) := nofun

end Sys2Proof.Laws.Encoding
end

