-- ==== Sys2Proof/Tests/Slice0.lean ====
section
/-! SUPPORT. The model's own tests: ill-formed instructions, words written out from the encoding tables, the first step of a placed word,
states that meet the hypotheses of the statements, and results computed by hand from the spec. -/

namespace Sys2Proof.Tests

open Sys2Proof.Machine

set_option Elab.async false

/-! ## Small states -/

/-- The loaded team of core 0 (log entry 12), its group about to issue, with the team and the group as `f` and `g` make them. -/
def small (f : Team → Team) (g : Group → Group) : State :=
  let s := loadWord State.reset [0, 0, 0, 0]
  { modTeam s 1 (fun t => { (f t) with groups := t.groups.map (fun p => (p.1, g p.2)) }) with cur := (1, 0), agenda := [] }
/-- The group as it starts, with two scalar registers set. -/
def regs (a : Nat) (x : DWord) (b : Nat) (y : DWord) (g : Group) : Group := (g.setS a x).setS b y

/-- The instruction starts in `s`, and `p` holds of its context and of the state in which it has started. -/
def goes (i : Instr) (s : State) (p : Ctx → State → Bool) : Bool :=
  match start i s with
  | .go c _ s₁ => p c s₁
  | _ => false

theorem starts_of_goes {i : Instr} {s : State} {p : Ctx → State → Bool} (h : goes i s p = true) : ∃ c s₁, Starts i s c s₁ ∧ p c s₁ = true := by
  unfold goes at h
  split at h
  · rename_i c s₀ s₁ hs
    exact ⟨c, s₁, ⟨s₀, hs⟩, h⟩
  · cases h
theorem meets {i : Instr} {s : State} {P : Ctx → State → Prop} [∀ c s₁, Decidable (P c s₁)]
    (h : goes i s (fun c s₁ => decide (P c s₁)) = true) : ∃ c s₁, Starts i s c s₁ ∧ P c s₁ :=
  (starts_of_goes h).imp (fun _ h => h.imp (fun _ h => ⟨h.1, of_decide_eq_true h.2⟩))

/-! ## Ill-formed instructions: one for each check of WellFormed -/

theorem test_ill_formed_scalar : ([.sget 3 15, .sget 3 25, .sset 4 8, .mput 4 0, .sext 3 4 0 3, .jr 4 3, .rept 4 0] : List Instr).all
    (fun i => !i.wf 3) = true := by decide
theorem test_ill_formed_vector : ([.vadd 0 0 56 1 2 0, .vadd 0 1 1 1 2 0, .vadd 0 0 1 1 2 3, .vsub 0 0 1 1 2 3, .vmul 0 0 63 1 2, .vmulh 0 0 1 1 2 2,
    .vmad 0 56 1 2, .vsel 0 1 1 2 2, .vcmp 0 0 0 1 2 0, .vcmp 0 0 1 1 2 2, .vlane 0 0 1 2, .vmov 0 0 1 1 0 0, .vmov 0 0 1 1 32 2, .vmov 0 0 1 1 62 3,
    .vshuf 0 0 1 1 2 2, .vrot 0 0 1 1 32 0, .vscan 0 0 1 1 9 0, .vred 0 1 1 9, .bperm 0 0 1 1 2 2, .mop 0 0 1 2, .mop 7 1 2 0, .mop 4 1 2 1,
    .mcnt 0 1 1 3, .vext 0 0 1 1 2 2] : List Instr).all (fun i => !i.wf 3) = true := by decide
theorem test_ill_formed_float : ([.ffma 0 56 1 2, .fcmp 0 0 0 1 2, .cvt 0 0 1 1 7 0 0, .cvt 0 0 1 1 0 7 0, .cvt 0 0 1 1 1 2 0, .hfma2 0 1 1 2 2,
    .dadd 0 0 1 2 4, .dadd 0 0 2 1 4, .dadd 0 0 2 4 56, .dadd 0 1 2 4 6, .dfma 0 1 2 4, .dcmpF64 0 0 0 2 4, .dcvt 0 0 2 2 8 0, .dcvt 0 0 1 1 1 0,
    .dcvt 0 0 1 1 0 0, .fscale 0 0 1 1 2 2, .fscale 0 0 2 1 2 1] : List Instr).all (fun i => !i.wf 3) = true := by decide
theorem test_ill_formed_memory : ([.ld 0 1 62 6 7, .ld 0 1 62 6 5, .ld 0 2 62 6 6, .ld 0 62 62 6 4, .ld 0 1 63 6 4, .st 0 1 62 6 5, .st 0 1 63 6 4,
    .lds 0 1 63 6 4, .sts 0 1 62 6 7, .sld 4 6 6, .sst 4 6 6, .plld 0 1 62 6 0, .plld 0 1 62 6 5, .plld 0 56 62 6 1, .plst 0 1 63 6 1, .atom 0 56 62 6 0,
    .atomx 0 2 62 6 5, .atomx 0 1 62 6 0, .red 0 1 62 6 6, .place 4 6 3, .waita 4 0 0 6 6] : List Instr).all (fun i => !i.wf 3) = true := by decide
theorem test_ill_formed_order_and_matrix : ([.fence 3 0, .fence 5 1, .acq 4 5 5, .rel 4 5, .spawn 4 1 0, .rebin 56 4 0 0, .rebin 1 4 2 0, .mmq 4 5 62 1 0,
    .mmq 4 5 0 1 3, .mdrain 4 5 0 6 0, .mdrain 4 2 0 6 1, .mdrain 4 56 0 6 1, .mdrain 4 5 0 5 5, .mdrain 4 5 0 0 6, .cupd 4 5 1 0, .cupd 4 5 54 0,
    .mstat 4 3] : List Instr).all (fun i => !i.wf 3) = true ∧ Instr.wf 1 (.mmq 4 5 0 1 1) = false := by decide
theorem test_ill_formed_predicates_and_system : ([.gor2 0 56 0 62 1, .gor2 0 9 51 62 1, .gor2 0 9 1 62 0, .gor2 0 9 0 54 1, .gor3 0 9 45 62 1,
    .hmod 1 0 0 0 0 0 0 0 0 0 0 0 0, .hmod 56 1 0 0 0 0 0 0 0 0 0 0 0, .hmod 0 0 0 0 0 0 0 1 5 0 0 0 0, .hmod 0 0 0 0 0 0 0 0 1 0 0 0 0,
    .hmod 0 0 0 0 0 0 0 0 0 0 0 1 0, .hmod 0 0 0 0 0 0 0 0 0 0 0 0 3, .csrr 4 0 0x003, .csrw 4 0 0x200] : List Instr).all (fun i => !i.wf 3) = true ∧
    Instr.wf 2 (.gseg 0 9 0 62 1) = false ∧ Instr.wf 2 (.hmod 0 0 1 0 0 0 0 0 0 0 0 0 0) = false := by decide

/-! ## Words written out from the encoding tables (R171, R172 and the table of each class) -/

theorem test_decode_scalar : decodeWord 3 0x000C4141 = .ok (.sadd 3 4 5 0 1) ∧ decodeWord 3 0x281400FF = .ok (.sli 5 0xFF) ∧
    decodeWord 3 0x13005001 = .ok (.mput 5 1) := ⟨rfl, rfl, rfl⟩
theorem test_decode_control : decodeWord 3 0x33100015 = .ok (.bnz 4 21) ∧ decodeWord 3 0x35004002 = .ok (.rept 4 2) := ⟨rfl, rfl⟩
theorem test_decode_vector : decodeWord 3 0x406042E0 = .ok (.vadd 3 0 1 2 0x38 0) ∧ decodeWord 3 0x54018510 = .ok (.vslide 0 0 6 5 4 0) ∧
    decodeWord 3 0x4E048108 = .ok (.vcmp 0 2 2 1 2 0) := ⟨rfl, rfl, rfl⟩
theorem test_decode_memory : decodeWord 3 0x81020214 = .ok (.st 0 4 1 2 4) ∧ decodeWord 3 0x80029234 = .ok (.ld 0 5 9 6 4) ∧
    decodeWord 3 0x8C02FC10 = .ok (.place 5 2 0) := ⟨rfl, rfl, rfl⟩
theorem test_decode_order_and_sync : decodeWord 3 0xA000000D = .ok (.fence 3 1) ∧ decodeWord 3 0xA10C4002 = .ok (.acq 3 4 2) ∧
    decodeWord 3 0xA20C0002 = .ok (.rel 3 2) := ⟨rfl, rfl, rfl⟩
theorem test_decode_work : decodeWord 3 0xB9249000 = .ok (.launch 9 9) ∧ decodeWord 3 0xBA449000 = .ok (.waitch 17 9) := ⟨rfl, rfl⟩
theorem test_decode_system : decodeWord 3 0xE6000042 = .ok (.trap 0x42) ∧ decodeWord 3 0xED001388 = .ok (.sleep 5000) ∧
    decodeWord 3 0xE7100012 = .ok (.csrr 4 0 0x012) ∧ decodeWord 3 0xEB0C9000 = .ok (.split 3 9) ∧ decodeWord 3 0xEC000007 = .ok (.halt 7) :=
  ⟨rfl, rfl, rfl, rfl, rfl⟩
theorem test_decode_refuses : decodeWord 3 0x1F000000 = .error .unassigned ∧ decodeWord 3 0x000C4145 = .error .reservedField ∧
    decodeWord 3 0x404E0000 = .error .reservedValue ∧ decode 3 [0x41, 0x41, 0x0C] = .error .truncated := ⟨rfl, rfl, rfl, rfl⟩

/-! ## States that meet the hypotheses of the statements, clause by clause -/

theorem witness_ScalarResults :
    (∃ c s₁, Starts (.sadd 3 4 5 0 1) (small id (regs 4 0x7FFFFFFF 5 1)) c s₁ ∧
      Spec.scalarResult c s₁ (.sadd 3 4 5 0 1) = some (3, 0xFFFFFFFF80000000)) ∧
    (∃ c s₁, Starts (.sdiv 3 4 0 1 0) (small id (regs 4 9 5 1)) c s₁ ∧
      Spec.scalarResult c s₁ (.sdiv 3 4 0 1 0) = some (3, 0xFFFFFFFFFFFFFFFF)) ∧
    (∃ c s₁, Starts (.saddi 63 4 0x800) (small id (regs 4 0 5 0)) c s₁ ∧
      Spec.immediateResult c (.saddi 63 4 0x800) = some (63, 0xFFFFFFFFFFFFF800)) :=
  ⟨meets (by decide +kernel), meets (by decide +kernel), meets (by decide +kernel)⟩

theorem witness_StatusAndMaskResults :
    (∃ c s₁, Starts (.mput 5 1) (small id (regs 5 0x1FFFFFFFF 6 0)) c s₁ ∧ Instr.wf c.t.header.ever (.mput 5 1) = true ∧
      (Spec.statusEffect c (.mput 5 1)).isSome = true) ∧
    (∃ c s₁, Starts (.sset 5 9) (small id (regs 5 0xFF 6 0)) c s₁ ∧ Instr.wf c.t.header.ever (.sset 5 9) = true ∧
      (Spec.statusEffect c (.sset 5 9)).isSome = true) :=
  ⟨meets (by decide +kernel), meets (by decide +kernel)⟩

theorem witness_Branches :
    (∃ c s₁, Starts (.bz 4 0x3FFFF) (small id (regs 4 0 5 0)) c s₁ ∧ Spec.branchTaken c (.bz 4 0x3FFFF) = some (some 0x10000)) ∧
    (∃ c s₁, Starts (.bz 4 7) (small id (regs 4 1 5 0)) c s₁ ∧ Spec.branchTaken c (.bz 4 7) = some none) ∧
    (∃ c s₁, Starts (.call 7) (small id id) c s₁) ∧
    (∃ c s₁, Starts (.jr 4 1) (small id (regs 4 0xFFFFFFFFFFFC 5 0)) c s₁ ∧ (c.s 4).toNat % 4 = 0 ∧ (c.s 4).toNat < 2 ^ 48) ∧
    (∃ c s₁, Starts (.jr 4 0) (small id (regs 4 0x1000000000001 5 0)) c s₁ ∧ (c.s 4).toNat % 4 ≠ 0) ∧
    (∃ c s₁, Starts (.jr 4 2) (small id (regs 4 0x1000000000000 5 0)) c s₁ ∧ (c.s 4).toNat % 4 = 0 ∧ 2 ^ 48 ≤ (c.s 4).toNat) :=
  ⟨meets (by decide +kernel), meets (by decide +kernel), (meets (P := fun _ _ => True) (by decide +kernel)).imp
    (fun _ h => h.imp (fun _ h => h.1)), meets (by decide +kernel), meets (by decide +kernel), meets (by decide +kernel)⟩

/-- Frame 1 of core 0 is filling from a source that is not sealed. -/
def fillingFrame (s : State) : State := modCore s 0 (fun c => { c with nears := [(1, { Frame.blank with state := .filling })] })
/-- The group's page lies in that frame (R364). -/
def fetchingFrame (s : State) : State :=
  modCore (fillingFrame s) 0 (fun c => { c with stash := [⟨0, 0x10, 2 ^ 46 + 31, false, none, false⟩] })

theorem witness_Repeat :
    (∃ c s₁, Starts (.rept 4 2) (small id (regs 4 0 5 0)) c s₁ ∧ c.s 4 = 0 ∧
      ((skipBody c.t c.g (2 ^ 46) 2 ((c.g.pc + 4) % 2 ^ 48) s₁).1 matches .ok 0x1000C) = true) ∧
    (∃ c s₁, Starts (.rept 4 1) (fetchingFrame (small id (regs 4 0 5 0))) c s₁ ∧ c.s 4 = 0 ∧
      ((skipBody c.t c.g (2 ^ 46) 1 ((c.g.pc + 4) % 2 ^ 48) s₁).1 matches .wait) = true) ∧
    (∃ c s₁, Starts (.rept 4 63) (small id (regs 4 1 5 0)) c s₁ ∧ c.s 4 ≠ 0) :=
  ⟨meets (by decide +kernel), meets (by decide +kernel), meets (by decide +kernel)⟩

/-- A mask stack of `n` entries whose top has the upper half pushed. -/
def stacked (n : Nat) (g : Group) : Group := { g with stack := List.replicate n ⟨0xFFFF0000, 0xFF000000, 0⟩ }

theorem witness_MaskStack :
    (∃ c s₁, Starts (.ifv 1 1 4) (small id (stacked 15)) c s₁ ∧ c.g.stack.length < 16) ∧
    (∃ c s₁, Starts (.elsev 4) (small id (stacked 1)) c s₁ ∧ c.g.stack = ⟨0xFFFF0000, 0xFF000000, 0⟩ :: []) ∧
    (∃ c s₁, Starts .endv (small id (stacked 1)) c s₁ ∧ c.g.stack = ⟨0xFFFF0000, 0xFF000000, 0⟩ :: []) :=
  ⟨meets (by decide +kernel), meets (by decide +kernel), meets (by decide +kernel)⟩

theorem witness_MaskStackFaults :
    (∃ c s₁, Starts (.ifv 1 0 4) (small id (stacked 16)) c s₁ ∧ 16 ≤ c.g.stack.length) ∧
    (∃ c s₁, Starts (.elsev 4) (small id id) c s₁ ∧ c.g.stack = []) ∧
    (∃ c s₁, Starts .endv (small id id) c s₁ ∧ c.g.stack = []) :=
  ⟨meets (by decide +kernel), meets (by decide +kernel), meets (by decide +kernel)⟩

theorem witness_RegisterReadsBack : (63 : BitVec 6) ≠ 0 ∧ (0 : BitVec 6) ≠ 63 ∧
    (loadTeam 1).row (Group.start 0 false true 0 0 0 0) 55 = some 55 ∧ (loadTeam 1).row (Group.start 31 false true 0 0 0 0) 0 ≠ some 55 := by
  decide +kernel

theorem witness_VectorIntegerResults :
    (∃ c s₁, Starts (.vadd 0 0 55 62 56 1) (small id id) c s₁ ∧ Instr.wf c.t.header.ever (.vadd 0 0 55 62 56 1) = true ∧
      (Spec.intLane (.vadd 0 0 55 62 56 1)).isSome = true) ∧
    (∃ c s₁, Starts (.vbit 1 1 0 62 3) (small id id) c s₁ ∧ Instr.wf c.t.header.ever (.vbit 1 1 0 62 3) = true ∧
      (Spec.intLane (.vbit 1 1 0 62 3)).isSome = true) :=
  ⟨meets (by decide +kernel), meets (by decide +kernel)⟩

theorem witness_VectorMoveResults :
    (∃ c s₁, Starts (.vslide 0 0 6 5 4 3) (small id id) c s₁ ∧ (Spec.moveLane c (.vslide 0 0 6 5 4 3)).isSome = true) ∧
    (∃ c s₁, Starts (.vmov 0 0 54 9 62 3) (small id id) c s₁ ∧ c.t.resident = true) ∧
    (∃ c s₁, Starts (.vscan 0 0 2 1 7 1) (small id id) c s₁ ∧ c.t.resident = true) ∧
    (∃ c s₁, Starts (.vred 0 3 1 4) (small id id) c s₁ ∧ c.t.resident = true) :=
  ⟨meets (by decide +kernel), meets (by decide +kernel), meets (by decide +kernel), meets (by decide +kernel)⟩

theorem witness_FloatResults :
    (∃ c s₁, Starts (.ffma 0 3 62 56) (small id id) c s₁ ∧ (Spec.floatLane c (.ffma 0 3 62 56)).isSome = true) ∧
    (∃ c s₁, Starts (.dcvt 0 0 55 0 1 0) (small id id) c s₁ ∧ (Spec.floatLane c (.dcvt 0 0 55 0 1 0)).isSome = true) :=
  ⟨meets (by decide +kernel), meets (by decide +kernel)⟩

theorem witness_DoubleAndClassResults :
    (∃ c s₁, Starts (.dfma 0 54 0 2) (small id id) c s₁ ∧ Instr.wf c.t.header.ever (.dfma 0 54 0 2) = true ∧
      (Spec.doubleLane c (.dfma 0 54 0 2)).isSome = true) ∧
    (∃ c s₁, Starts (.fclass 0 0 55 62) (small id id) c s₁ ∧ c.t.resident = true) :=
  ⟨meets (by decide +kernel), meets (by decide +kernel)⟩

theorem witness_CompareResults :
    (∃ c s₁, Starts (.vcmp 0 5 7 62 56 1) (small id id) c s₁ ∧ (Spec.compareLane c (.vcmp 0 5 7 62 56 1)).isSome = true) ∧
    (∃ c s₁, Starts (.dcmpF64 0 0 1 54 0) (small id id) c s₁ ∧ (Spec.compareLane c (.dcmpF64 0 0 1 54 0)).isSome = true) :=
  ⟨meets (by decide +kernel), meets (by decide +kernel)⟩

theorem witness_RegisterInstructionsTouchNoMemory : Spec.registerOnly (.vadd 0 0 55 62 56 1) = true ∧ Spec.registerOnly .nop = true ∧
    ((exec (.vadd 0 0 55 62 56 1) (small id id) matches .next _) = true) ∧
    (groupOf (small id id) 1 0).bind (·.wait) ≠ some (.performed true) := by decide +kernel

theorem witness_ScalarFrame :
    ∃ c s₁, Starts (.sadd 3 4 5 0 1) (small id (regs 4 7 5 1)) c s₁ ∧ Spec.scalarResult c s₁ (.sadd 3 4 5 0 1) = some (3, 8) ∧
      (groupOf s₁ c.tid c.gid).isSome = true := meets (by decide +kernel)

/-- An instruction of the group of a small state is ready. -/
def ready (i : Instr) (s : State) : Bool :=
  (teamOf s 1).any (fun t => (nmGet 0 t.groups).any (fun g => decide (s.cur = (1, 0)) && !t.stopping && t.resident && decide (g.fault = none) &&
    decide (g.registered = none) && decide (g.wait = none) && decide (decodeFault t g i = none) &&
    (usesWith g.hints i).names.all (fun n => !(outstanding s 1 0 t.core).contains n && !g.fresh.contains n) &&
    (usesWith g.hints i).vregs.all (fun n => decide (t.shared g n = none))))
theorem ready_spec {i : Instr} {s : State} (h : ready i s = true) : ∃ t g, Spec.Ready i s t g := by
  unfold ready at h
  obtain ⟨t, ht, h⟩ := (Option.any_eq_true _ _).1 h
  obtain ⟨g, hg, h⟩ := (Option.any_eq_true _ _).1 h
  simp only [Bool.and_eq_true, decide_eq_true_eq, Bool.not_eq_true', List.all_eq_true, List.contains_eq_mem, decide_eq_false_iff_not] at h
  obtain ⟨⟨⟨⟨⟨⟨⟨⟨hc, h1⟩, h2⟩, h3⟩, hr⟩, h4⟩, h5⟩, h6⟩, h7⟩ := h
  refine ⟨t, g, ?_, ?_, h1, h2, h3, hr, h4, h5, ?_, h7⟩
  · rw [hc]; exact ht
  · rw [hc]; exact hg
  · rw [hc]; exact h6

theorem ready_and {i : Instr} {s : State} {P : Team → Group → Prop} [∀ t g, Decidable (P t g)] (h : ready i s = true)
    (hp : (teamOf s 1).any (fun t => (nmGet 0 t.groups).any (fun g => decide (P t g))) = true) : ∃ t g, Spec.Ready i s t g ∧ P t g := by
  obtain ⟨t, g, hr⟩ := ready_spec h
  refine ⟨t, g, hr, ?_⟩
  have hc : s.cur = (1, 0) := by
    obtain ⟨_, _, h⟩ := (Option.any_eq_true _ _).1 h
    obtain ⟨_, _, h⟩ := (Option.any_eq_true _ _).1 h
    simp only [Bool.and_eq_true, decide_eq_true_eq] at h
    exact h.1.1.1.1.1.1.1.1
  obtain ⟨ht, hg, -⟩ := hr
  rw [hc] at ht hg
  simpa [ht, hg] using hp

theorem witness_ReadyInstructionStarts : ∃ t g, Spec.Ready (.vadd 0 0 55 1 2 0) (small id id) t g := ready_spec (by decide +kernel)

/-- The team and the group of a state, and what holds of them. -/
theorem witness_DecodeFaultOrder :
    (∃ t g, teamOf (small id id) 1 = some t ∧ nmGet 0 t.groups = some g ∧ t.stopping = false ∧ t.resident = true ∧ g.fault = none ∧ g.registered = none ∧
      g.wait = none ∧ Instr.wf t.header.ever (.vadd 0 0 56 0 0 0) = false ∧
      Spec.isHint (.vadd 0 0 56 0 0 0) = false) ∧
    (∃ t g, teamOf (small (fun t => { t with supervisor := false }) id) 1 = some t ∧ nmGet 0 t.groups = some g ∧ t.stopping = false ∧
      t.resident = true ∧ g.fault = none ∧ g.registered = none ∧ g.wait = none ∧ Instr.wf t.header.ever (.halt 0) = true ∧ hintsAccepted g.hints (.halt 0) = true ∧
      g.rep = none ∧ supervisorOnly (.halt 0) = true ∧ t.supervisor = false ∧ Spec.isHint (.halt 0) = false) ∧
    (∃ t g, teamOf (small (fun t => { t with header := { t.header with bcon := 8 } }) id) 1 = some t ∧ nmGet 0 t.groups = some g ∧
      t.stopping = false ∧ t.resident = true ∧ g.fault = none ∧ g.registered = none ∧ g.wait = none ∧ Instr.wf t.header.ever (.vadd 0 0 8 0 0 0) = true ∧
      hintsAccepted g.hints (.vadd 0 0 8 0 0 0) = true ∧ budgetOk t g (usesWith g.hints (.vadd 0 0 8 0 0 0)) = false ∧
      (Instr.vadd 0 0 8 0 0 0).encodable = true ∧ Spec.isHint (.vadd 0 0 8 0 0 0) = false) :=
  ⟨⟨_, _, rfl, rfl, by decide +kernel⟩, ⟨_, _, rfl, rfl, by decide +kernel⟩, ⟨_, _, rfl, rfl, by decide +kernel⟩⟩

theorem witness_FaultEntry :
    (∃ t g, teamOf (small id id) 1 = some t ∧ nmGet 0 t.groups = some g ∧ g.fault = none) ∧
    (∃ t g, teamOf (small (fun t => { t with stopping := true }) id) 1 = some t ∧ nmGet 0 t.groups = some g ∧ t.stopping = true ∧
      g.wait = none ∧ Instr.nop.encodable = true) :=
  ⟨⟨_, _, rfl, rfl, rfl⟩, ⟨_, _, rfl, rfl, by decide +kernel⟩⟩

/-- The state in which the agenda names the issue of the group, with `w` at its pc. -/
def placed (w : Nat) : State := State.reset.withFetchWord 32 w

theorem witness_StepRunsDecoded :
    ((placed 0xE3000000).power = true ∧ (placed 0xE3000000).agenda = .issue 1 0 :: [] ∧
      canIssue { placed 0xE3000000 with agenda := [] } 1 0 = true) ∧
    (∃ t g, teamOf (placed 0xE3000000) 1 = some t ∧ nmGet 0 t.groups = some g ∧
      ((fetch { placed 0xE3000000 with agenda := [] } t g).1 = .ok 0xE3000000) ∧ decodeWord t.header.ever 0xE3000000 = .ok .nop) ∧
    (∃ t g, teamOf (placed 0x1F000000) 1 = some t ∧ nmGet 0 t.groups = some g ∧
      ((fetch { placed 0x1F000000 with agenda := [] } t g).1 = .ok 0x1F000000) ∧
      decodeWord t.header.ever 0x1F000000 = .error .unassigned) ∧
    (∃ t g, teamOf (small id (fun g => { g with pc := 2 ^ 46 })) 1 = some t ∧ nmGet 0 t.groups = some g ∧
      ∃ code addr, (fetch (small id (fun g => { g with pc := 2 ^ 46 })) t g).1 = .fault code addr) ∧
    ({ State.reset with power := false } : State).power = false ∧
    (∃ t g, teamOf (fetchingFrame (small id id)) 1 = some t ∧ nmGet 0 t.groups = some g ∧ (fetch (fetchingFrame (small id id)) t g).1 = .wait) :=
  ⟨by decide +kernel, ⟨_, _, rfl, rfl, rfl, rfl⟩, ⟨_, _, rfl, rfl, rfl, rfl⟩, ⟨_, _, rfl, rfl, _, _, rfl⟩, rfl, ⟨_, _, rfl, rfl, by decide +kernel⟩⟩

/-- The accesses pass every check and nothing keeps them from being sent. -/
def sends (c : Ctx) (l : List Access) (direct : Bool) (s : State) : Bool :=
  match checkMem c l s with
  | .ok l' s' => canSend s' c l' direct
  | _ => false
/-- They pass every check, and wait for a page that a PLACE fills (`b`) or for a miss-status entry. -/
def staysBack (c : Ctx) (l : List Access) (s : State) (b : Bool) : Bool :=
  match checkMem c l s with
  | .ok l' s' => if b then l'.any (fun p => placeBusy s' c p.1.addr)
    else 256 < (missEntries s' c.core).length + (missNeed s' c l' false).length
  | _ => false
/-- The checks refuse the accesses with the code, at the port die or not. -/
def refuses (c : Ctx) (l : List Access) (s : State) (k : Nat) (b : Bool) : Bool :=
  match checkMem c l s with
  | .fault code _ s' => code = k && decide (s'.mgmt.events ≠ s.mgmt.events) = b
  | _ => false

/-- The device's memory holds, beside the word at 0x10000, page tables of address space 0 that map the pages from 0x10 to 0x13 for
everything to the home pages from 512 of cluster 0, and `bs` at 0x11000. -/
def mapped (bs : List Byte) (s : State) : State :=
  let e (h n : Nat) (v : Nat) (m : Memory) : Memory := writeBytes m (homeAddr 0 h (8 * n)) (natBytes 8 v)
  { s with dram := e 0 0 1 (e 0 1 (homeAddr 0 1 0) (e 1 0 (2 * 2 ^ 32 + 1) (e 2 0 (3 * 2 ^ 32 + 1) (e 3 0 (4 * 2 ^ 32 + 1)
      (e 4 16 (512 * 2 ^ 32 + 15) (e 4 17 (513 * 2 ^ 32 + 15) (e 4 18 (514 * 2 ^ 32 + 15) (e 4 19 (515 * 2 ^ 32 + 15)
        (writeBytes s.dram (homeAddr 0 513 0) bs)))))))))}
/-- Page 0x11 leads to window 0 of its partition, which is a host window without a byte (R409). -/
def external (s : State) : State :=
  let s := mapped [] s
  { s with
    dram := writeBytes s.dram (homeAddr 0 4 (8 * 17)) (natBytes 8 63)
    parts := [(0, { Partition.blank with windows := writeBytes [] 24 [1] })] }

/-- Window 0 serves page 0x11 from host page 0, and the host has marked it device-owned (R412). -/
def owned (s : State) : State :=
  { external s with parts := [(0, { Partition.blank with windows := writeBytes [] 0 (natBytes 8 0x11000 ++ natBytes 8 0 ++ natBytes 8 4096 ++ [1, 0, 7]) })] }

/-- The table page that names page 0x11 lies in a frame that is filling (R364). -/
def walkHeld (s : State) : State := setResidence (fillingFrame (mapped [] s)) 0 4 (some (.near 0 1))
/-- A move of page 0x10 from home page 512 to frame 1 of core 0. -/
def someMove (sealed_ notice : Bool) (sectors : List (Nat × Bool × Bool × Memory)) : Move :=
  ⟨0, 0, 0x10, .home 0 512, .near 0 1, 0, 1, 0, 512, false, 1, true, sealed_, sectors, 0, notice, false⟩
/-- A PLACE `.near` of the team is filling the page 0x10. -/
def placing (s : State) : State := { s with moves := [(7, { someMove false false [] with rewritten := false })] }
/-- Other cores' requests under way from core 0: 256 sectors of home page 600. -/
def crowded (s : State) : State :=
  { s with flight := (List.range 256).map (fun k => (k + 1, .mem ⟨9, 0, 0, 0, 0, false, 0x20000 + 16 * k, 4, .read, .none, .group 9 0 0, .home 0 600, 0, 0,
      false, false, 0, 0x10000, 0, 0, Fences.none⟩)) }
/-- A bounced request of the group beside them. -/
def bouncedInCrowd (r : MemReq) : State :=
  let s := mapped [] (crowded (small id id))
  { s with flight := s.flight ++ [(300, .bounced r)] }
/-- Port 11 is linked, to a peer that takes no request. -/
def closedPeer (s : State) : State := { s with peerIn := [(11, 1, 0)] }
/-- Two accesses of the team that reached the port die on their way to the peer. -/
def toPeer : List (Access × Xlat) :=
  let x : Xlat := { place := .peer 11 0, ten := 0, bind := 0, rep := 0, pk := false, replica := none, pin := false, ext := true }
  [(⟨0, 0x11000, 4, 4, .read, .scalar 3 4⟩, x), (⟨0, 0x11004, 4, 4, .read, .scalar 3 4⟩, x)]
def fromPage : List (Access × Xlat) :=
  [(⟨0, 0x10FFC, 4, 4, .read, .scalar 3 4⟩, { place := .home 0 512, ten := 0, bind := 0, rep := 0, pk := false, replica := none, pin := false, ext := false })]

theorem witness_MemoryInstructions :
    (∃ c s₁, Starts (.ld 0 3 62 6 4) (small id (regs 6 0x10FFC 7 0)) c s₁ ∧
      (Spec.memAccesses c (.ld 0 3 62 6 4)).any (fun x => sends c x.2.2.1 x.2.2.2 s₁) = true) ∧
    (∃ c s₁, Starts (.atom 0 3 62 6 7) (small id (regs 6 0x10000 7 0)) c s₁ ∧
      (Spec.memAccesses c (.atom 0 3 62 6 7)).any (fun x => sends c x.2.2.1 x.2.2.2 s₁) = true) ∧
    (∃ c s₁, Starts (.plst 0 3 62 6 4) (small id (regs 6 0x10FE0 7 0)) c s₁ ∧
      (Spec.memAccesses c (.plst 0 3 62 6 4)).any (fun x => sends c x.2.2.1 x.2.2.2 s₁) = true) ∧
    (∃ c s₁, Starts (.st 0 3 62 6 4) (placing (small id (regs 6 0x10FFC 7 0))) c s₁ ∧
      (Spec.memAccesses c (.st 0 3 62 6 4)).any (fun x => staysBack c x.2.2.1 s₁ true) = true) ∧
    (∃ c s₁, Starts (.sld 3 6 4) (crowded (small id (regs 6 0x10FFC 7 0))) c s₁ ∧
      (Spec.memAccesses c (.sld 3 6 4)).any (fun x => staysBack c x.2.2.1 s₁ false) = true) ∧
    (∃ c s₁, Starts (.sld 3 6 4) (walkHeld (small id (regs 6 0x11000 7 0))) c s₁ ∧
      (Spec.memAccesses c (.sld 3 6 4)).any (fun x => checkMem c x.2.2.1 s₁ matches .wait) = true) ∧
    (∃ c s₁, Starts (.st 0 3 62 6 4) (small id (regs 6 0x10FFD 7 0)) c s₁ ∧
      (Spec.memAccesses c (.st 0 3 62 6 4)).any (fun x => refuses c x.2.2.1 s₁ 0x03 false) = true) ∧
    (∃ c s₁, Starts (.sld 3 6 4) (external (small id (regs 6 0x11000 7 0))) c s₁ ∧
      (Spec.memAccesses c (.sld 3 6 4)).any (fun x => refuses c x.2.2.1 s₁ 0x05 true) = true) ∧
    (∃ c s₁, Starts (.sld 3 6 4) (small id id) c s₁ ∧
      (∀ k ∈ List.range 2, takenBack (Spec.sentUpTo c 0 (fromPage.take k) false s₁) c.tid c.gid s₁.nextId = false)) ∧
    (∃ c s₁, Starts (.sld 3 6 4) (closedPeer (small id id)) c s₁ ∧
      takenBack (Spec.sentUpTo c 0 (toPeer.take 0) false s₁) c.tid c.gid s₁.nextId = false ∧
      takenBack (Spec.sentUpTo c 0 (toPeer.take 1) false s₁) c.tid c.gid s₁.nextId = true) ∧
    ((windowOf (external (small id id)) 0 0).kind = 1 ∧ (windowOf (external (small id id)) 0 0).vbase + (windowOf (external (small id id)) 0 0).size ≤ 0x11000) :=
  ⟨meets (by decide +kernel), meets (by decide +kernel), meets (by decide +kernel), meets (by decide +kernel), meets (by decide +kernel),
    meets (by decide +kernel), meets (by decide +kernel), meets (by decide +kernel), meets (by decide +kernel), meets (by decide +kernel),
    by decide +kernel⟩

/-- The plane words that PLLD reads, and the state in which its lanes are cleared. -/
def planeReads (c : Ctx) : List Access := (lanesOf (c.lanes 0)).flatMap (fun k => (planesOf 1).map (fun p =>
  (⟨k, c.planeAddr 6 62 k p, 8, 8, .read, .plane 3 k p (c.planeBit 62 k)⟩ : Access)))
def planeCleared (c : Ctx) (s : State) : State := modTeam s c.tid (fun t => t.setVLanes c.g 3 (c.lanes 0) zeroLanes)

theorem witness_PlaneAccess :
    (∃ c s₁, Starts (.plst 0 3 62 6 4) (small id (regs 6 0x10010 7 0)) c s₁ ∧ c.lanes 0 ≠ 0 ∧ (c.s 6).toNat % 32 ≠ 0) ∧
    (∃ c s₁, Starts (.plld 0 3 62 6 1) (small id (regs 6 0x1001F 7 0)) c s₁ ∧ c.lanes 0 ≠ 0 ∧ (c.s 6).toNat % 32 ≠ 0) ∧
    (∃ c s₁, Starts (.plld 0 3 62 6 1) (small id (regs 6 0x10FE0 7 0)) c s₁ ∧ (c.s 6).toNat % 32 = 0 ∧
      sends c (planeReads c) c.h.far (planeCleared c s₁) = true) ∧
    (∃ c s₁, Starts (.plld 0 3 62 6 1) (placing (small id (regs 6 0x10FE0 7 0))) c s₁ ∧ (c.s 6).toNat % 32 = 0 ∧
      staysBack c (planeReads c) (planeCleared c s₁) true = true) ∧
    (∃ c s₁, Starts (.plld 0 3 62 6 1) (walkHeld (small id (regs 6 0x11000 7 0))) c s₁ ∧ (c.s 6).toNat % 32 = 0 ∧
      (checkMem c (planeReads c) (planeCleared c s₁) matches .wait) = true) ∧
    (∃ c s₁, Starts (.plld 0 3 62 6 1) (external (small id (regs 6 0x11000 7 0))) c s₁ ∧ (c.s 6).toNat % 32 = 0 ∧
      refuses c (planeReads c) (planeCleared c s₁) 0x05 true = true) :=
  ⟨meets (by decide +kernel), meets (by decide +kernel), meets (by decide +kernel), meets (by decide +kernel), meets (by decide +kernel),
    meets (by decide +kernel)⟩

/-- The scratchpad accesses pass every check and their lines are present. -/
def reaches (s : State) (c : Ctx) (l : List Access) (atomic : Bool) : Bool :=
  match checkSpad s c l atomic with
  | .ok r => r.all (fun p => decide (spadWait s c p = none) && !fenceWait s c p)
  | .error _ => false

/-- The scratchpad accesses pass every check, and wait for a line or a register (`b`), or for a fence. -/
def spadHeld (s : State) (c : Ctx) (l : List Access) (b : Bool) : Bool :=
  match checkSpad s c l false with
  | .ok r => if b then (r.findSome? (spadWait s c)).isSome
    else r.all (fun p => decide (spadWait s c p = none)) && r.any (fenceWait s c)
  | .error _ => false
/-- A store of the group is on its way, before the release fence that its group has executed since. -/
def fencedStore (s : State) : State :=
  { s with flight := [(1, .mem ⟨1, 0, 0, 0, 0, false, 0x10FF0, 4, .write [1, 2, 3, 4], .none, .group 1 0 0, .home 0 512, 0, 0, false, false, 0, 0x10000, 0, 0,
      Fences.none⟩)] }
def fencedGroup (g : Group) : Group := { g with fences := ⟨1, 1, 0⟩ }

theorem witness_ScratchpadInstructions :
    (∃ c s₁, Starts (.lds 0 3 62 6 4) (small id (regs 6 0xFFFC 7 0)) c s₁ ∧
      (Spec.spadAccesses c (.lds 0 3 62 6 4)).any (fun x => reaches s₁ c x.2.2.1 x.2.2.2) = true) ∧
    (∃ c s₁, Starts (.satom 3 6 0) (small id (regs 6 0xFFFC 7 0)) c s₁ ∧
      (Spec.spadAccesses c (.satom 3 6 0)).any (fun x => reaches s₁ c x.2.2.1 x.2.2.2) = true) ∧
    (∃ c s₁, Starts (.sts 0 3 62 6 4) (small id (regs 6 0x10000 7 0)) c s₁ ∧
      (Spec.spadAccesses c (.sts 0 3 62 6 4)).any (fun x => (match checkSpad s₁ c x.2.2.1 x.2.2.2 with
        | .error (code, addr) => code = 0x05 && addr = 0x10000
        | .ok _ => false)) = true) ∧
    (∃ c s₁, Starts (.lds 0 3 62 6 4) (small (fun t => { t with absent := [(511, 0, 1)] }) (regs 6 0xFFFC 7 0)) c s₁ ∧
      (Spec.spadAccesses c (.lds 0 3 62 6 4)).any (fun x => spadHeld s₁ c x.2.2.1 true) = true) ∧
    (∃ c s₁, Starts (.sts 0 62 62 6 4) (fencedStore (small id (fun g => fencedGroup (regs 6 0xFFFC 7 0 g)))) c s₁ ∧
      (Spec.spadAccesses c (.sts 0 62 62 6 4)).any (fun x => spadHeld s₁ c x.2.2.1 false) = true) :=
  ⟨meets (by decide +kernel), meets (by decide +kernel), meets (by decide +kernel), meets (by decide +kernel), meets (by decide +kernel)⟩

theorem witness_AlignmentThenForm :
    (let a : Access := ⟨0, 3, 4, 4, .read, .none⟩; [a] = [] ++ a :: [] ∧ a.addr % a.al ≠ 0) ∧
    (let a : Access := ⟨0, 2 ^ 48, 4, 4, .read, .none⟩; [a] = [] ++ a :: [] ∧ (∀ b ∈ [a], b.addr % b.al = 0) ∧ 2 ^ 48 ≤ a.addr) := by
  decide +kernel

theorem witness_StoreFrames : ((teamOf (small id id) 1).isSome = true ∧
    (⟨0, 0xFFFC, 4, 4, .write [1, 2, 3, 4], .none⟩ : Access).acc = .write [1, 2, 3, 4] ∧
    (⟨0, 0xFFFC, 4, 4, .write [1, 2, 3, 4], .none⟩ : Access).dest = .none) ∧
    ∃ s', homeWrite State.reset 3 25165823 false 4092 [1, 2, 3, 4] = some s' := ⟨by decide +kernel, _, rfl⟩

theorem witness_AtomicOperations : ([0, 0, 0, 0x80] : List Byte).length = (if false then 8 else 4) ∧ AtomOp.smin ≠ .fadd ∧
    (List.replicate 8 0xFF : List Byte).length = (if true then 8 else 4) ∧ AtomOp.cas ≠ .fadd := by decide +kernel

/-- The group's hints ask for an order and a scope (R188). -/
def ordered (ord scope : Nat) (g : Group) : Group :=
  { regs 6 0x10000 7 0 g with hints := { Hints.none with first := some g.pc, hmod := some (BitVec.ofNat 24 (ord * 1024 + scope * 128)) } }

/-- The atomic's accesses go on, or fail with a code. -/
def atomGoes (c : Ctx) (l : List Access) (sp : Bool) (s : State) : Bool :=
  if sp then (match checkSpad s c l true with
    | .ok r => r.all (fun p => decide (spadWait s c p = none) && !fenceWait s c p)
    | .error _ => false)
  else sends c l true s
theorem atomGoes_spec {c : Ctx} {m : Mask} {names : List RegName} {l : List Access} {sp : Bool} {s : State} (h : atomGoes c l sp s = true) :
    ∃ t, Spec.AtomGoes c m names l sp s t := by
  unfold atomGoes at h
  unfold Spec.AtomGoes
  split at h
  · rename_i hs
    split at h
    · rename_i r hr
      simp only [if_pos hs]
      refine ⟨_, r, hr, fun p hp => ?_, rfl⟩
      have := List.all_eq_true.1 h p hp
      simpa using this
    · cases h
  · rename_i hs
    unfold sends at h
    split at h
    · rename_i l' s' hr
      simp only [if_neg hs]
      exact ⟨_, l', s', hr, h, rfl⟩
    · cases h
def atomFails (c : Ctx) (l : List Access) (sp : Bool) (s : State) (k : Nat) : Bool :=
  if sp then (match checkSpad s c l true with
    | .ok _ => false
    | .error (code, _) => code = k)
  else refuses c l s k false
/-- The context with one more release fence of the hints' scope behind it. -/
def fenced (c : Ctx) (s : State) : Ctx := { c with g := { c.g with fences := ⟨c.g.fences.any + 1, if 2 ≤ c.h.scope then c.g.fences.wide + 1 else c.g.fences.wide,
  if c.h.scope = 4 then s.nextId else c.g.fences.sys⟩ } }
/-- An atomic with an order of the release kind goes on before its fence and after it. -/
def goesFenced (c : Ctx) (l : List Access) (sp : Bool) (s : State) : Bool :=
  atomGoes (fenced c s) l sp s && (match fence c false true c.h.scope s with
    | .done s₂ => (groupOf s₂ c.tid c.gid).any (fun g => atomGoes { c with g := { c.g with phase := g.phase, fences := g.fences } } l sp s₂)
    | _ => false)
/-- The same atomic on the scratchpad, at the desk's word 0x40. -/
def onDesk (ord scope : Nat) (g : Group) : Group :=
  { regs 6 0x40 7 0 g with hints := { Hints.none with first := some g.pc, hmod := some (BitVec.ofNat 24 (4096 + ord * 1024 + scope * 128)) } }

theorem witness_OrderedAtomics :
    (∃ c s₁, Starts (.atom 0 3 62 6 0) (small id (ordered 1 2)) c s₁ ∧ c.h.ord = 1 ∧ placedHome s₁ c = true ∧
      (Spec.atomicOf c (.atom 0 3 62 6 0)).any (fun x => !x.2.2.2 && atomGoes c x.2.2.1 false s₁) = true) ∧
    (∃ c s₁, Starts (.atom 0 3 62 6 0) (small id (onDesk 1 0)) c s₁ ∧ c.h.ord = 1 ∧
      (Spec.atomicOf c (.atom 0 3 62 6 0)).any (fun x => x.2.2.2 && atomGoes c x.2.2.1 true s₁) = true) ∧
    (∃ c s₁, Starts (.satom 3 6 0) (small id (fun g => (ordered 1 0 g).setS 6 0x10000)) c s₁ ∧ c.h.ord = 1 ∧
      (Spec.atomicOf c (.satom 3 6 0)).any (fun x => x.2.2.2 && atomFails c x.2.2.1 true s₁ 0x05) = true) ∧
    (∃ c s₁, Starts (.red 0 3 62 6 0) (small id (ordered 2 1)) c s₁ ∧ c.h.ord = 2 ∧
      (Spec.atomicOf c (.red 0 3 62 6 0)).any (fun x => !x.2.2.2 && goesFenced c x.2.2.1 false s₁) = true) ∧
    (∃ c s₁, Starts (.atomx 0 4 62 6 1) (small id (onDesk 3 4)) c s₁ ∧ c.h.ord = 3 ∧ placedHome s₁ c = true ∧
      (Spec.atomicOf c (.atomx 0 4 62 6 1)).any (fun x => x.2.2.2 && goesFenced c x.2.2.1 true s₁) = true) ∧
    (∃ c s₁, Starts (.atom 0 3 62 6 0) (small id (fun g => (ordered 3 3 g).setS 6 0x10001)) c s₁ ∧ c.h.ord = 3 ∧ placedHome s₁ c = true ∧
      (Spec.atomicOf c (.atom 0 3 62 6 0)).any (fun x => atomFails (fenced c s₁) x.2.2.1 false s₁ 0x03) = true) ∧
    (∃ c s₁, Starts (.atom 0 3 62 6 0) (setResidence (mapped [] (small id (fun g => { ordered 1 2 g with placeHome := [0x11] }))) 0 513 (some (.near 0 1))) c s₁ ∧
      c.h.ord ≠ 0 ∧ 2 ≤ c.h.scope ∧ placedHome s₁ c = false) ∧
    (∃ t g, teamOf (small id (ordered 3 0)) 1 = some t ∧ nmGet 0 t.groups = some g ∧ t.stopping = false ∧ t.resident = true ∧ g.fault = none ∧
      g.wait = none ∧ g.hints.ord % 2 = 1) ∧ 5 ≤ (5 : BitVec 3).toNat :=
  ⟨meets (by decide +kernel), meets (by decide +kernel), meets (by decide +kernel), meets (by decide +kernel), meets (by decide +kernel),
    meets (by decide +kernel), meets (by decide +kernel), ⟨_, _, rfl, rfl, by decide +kernel⟩, by decide⟩

/-- The leaf of page 0x11 names frame 1 of core 0 as the home frame of a replicated page. -/
def replicated (s : State) : State :=
  let s := modCore (mapped [] s) 0 (fun c => { c with nears := [(1, { Frame.blank with state := .resident, valid := BitVec.allOnes 256, hpage := 513 })] })
  { s with dram := writeBytes s.dram (homeAddr 0 4 (8 * 17)) (natBytes 8 (2 ^ 46 + 95)) }
/-- A request of the group for its last word. -/
def frameReq (acc : Acc) : MemReq :=
  ⟨1, 0, 0, 0, 0, false, 0x11FFC, 4, acc, .none, .group 1 0 0, .near 0 1, 0, 1, false, false, 0, 0x10000, 0, 0, Fences.none⟩
def onTheWay (m : Msg) (s : State) : State := { s with flight := [(1, m)] }

theorem witness_PlaceInstruction :
    (∃ c s₁, Starts (.place 5 6 0) (onTheWay (.commit (frameReq (.write [1, 2, 3, 4])) 0xFFC [] true) (replicated (small id (regs 5 0x2000 6 0x10FFF)))) c s₁ ∧
      (∃ v ∈ placePages (c.s 6).toNat (c.s 5).toNat, replicaWaits s₁ c v = true)) ∧
    (∃ c s₁, Starts (.place 5 6 0) (onTheWay (.mem (frameReq .read)) (replicated (small id (regs 5 1 6 0x11FFF)))) c s₁ ∧
      (∃ v ∈ placePages (c.s 6).toNat (c.s 5).toNat, replicaWaits s₁ c v = true)) ∧
    (0x11 ∈ placePages 0x10FFF 2 ∧ 511 ∈ placePages 0 0x400000 ∧ 512 ∉ placePages 0 0x400000 ∧ 2 ^ 46 / 4096 ∈ placePages (2 ^ 46 - 1) 2 ∧ poolBase / 4096 ∉ placePages poolBase 1) ∧
    (∃ c s₁, Starts (.place 5 6 0) (small id (regs 5 0x2000 6 0x10FFF)) c s₁ ∧
      placePages (c.s 6).toNat (c.s 5).toNat = [0x10, 0x11, 0x12] ∧
      (∀ v ∈ placePages (c.s 6).toNat (c.s 5).toNat, replicaWaits s₁ c v = false)) ∧
    (∃ c s₁, Starts (.place 5 6 2) (small id (regs 5 0 6 0x10000)) c s₁ ∧ c.s 5 = 0) ∧
    (∃ t g, Spec.Ready (.place 5 6 0) (small id (regs 5 0x2000 6 0x10FFF)) t g) ∧ (small id (regs 5 0x2000 6 0x10FFF)).flight = [] :=
  ⟨meets (by decide +kernel), meets (by decide +kernel), by decide +kernel, meets (by decide +kernel), meets (by decide +kernel), ready_spec (by decide +kernel), rfl⟩

/-- No PLACE `.near` is filling the page of an access, and there is a miss-status entry for it. -/
def free (c : Ctx) (s : State) (acc : Access) (x : Xlat) : Bool := !placeBusy s c acc.addr && entryFree s (c.plainRequest acc x)
/-- An access passes its checks and finds no miss-status entry. -/
def crowdedOut (c : Ctx) (s : State) (a : Access) : Bool :=
  match checkMem c [a] s with
  | .ok [(acc, x)] s₂ => !free c s₂ acc x && !canSend s₂ c [(acc, x)] true
  | _ => false
/-- The word of WAITA lies at its place, and its condition says `b`. -/
def waitaSays (c : Ctx) (s : State) (i : BitVec 6 × BitVec 1 × BitVec 1 × BitVec 6 × BitVec 3) (b : Bool) : Bool :=
  let n := if i.2.2.1 = 1 then 8 else 4
  match checkMem c [⟨0, (c.s i.2.2.2.1).toNat, n, n, .read, .none⟩] s with
  | .ok [(acc, x)] s₂ => free c s₂ acc x && !heldBack s₂ (c.plainRequest acc x) s₂.nextId && match perform s₂ (c.plainRequest acc x) with
    | .done _ bs =>
      let w : BitVec 1 := if i.2.2.1 = 1 then 0 else 1
      intCond i.2.2.2.2.toNat (sOperand (BitVec.ofNat 64 (leNat bs)) i.2.1 w) (sOperand (c.s i.1) i.2.1 w) = b
    | _ => false
  | _ => false

/-- The read of the word of WAITA waits for a sector, or bounces from the frame that its stash entry names. -/
def waitaReads (c : Ctx) (s : State) (a : BitVec 6) (p : Perf → Bool) : Bool :=
  match checkMem c [⟨0, (c.s a).toNat, 4, 4, .read, .none⟩] s with
  | .ok [(acc, x)] s₂ => free c s₂ acc x && !heldBack s₂ (c.plainRequest acc x) s₂.nextId && p (perform s₂ (c.plainRequest acc x))
  | _ => false
/-- Page 0x11 has no frame any more, and the stash of core 0 still names one. -/
def stale (s : State) : State :=
  modCore (mapped [] s) 0 (fun c => { c with stash := [⟨0, 0x11, 2 ^ 46 + 31, false, none, false⟩] })

theorem witness_WaitOnAddress :
    (∃ c s₁, Starts (.waita 4 0 0 6 0) (modCore (replicated (small id (regs 4 0 6 0x11FFC))) 0 (fun c => { c with
        nears := [(1, { Frame.blank with state := .filling, hpage := 513 })] })) c s₁ ∧ waitaReads c s₁ 6 (fun r => r matches .waits) = true) ∧
    (∃ c s₁, Starts (.waita 4 0 0 6 0) (stale (small id (fun g => { regs 4 0 6 0x11000 g with readTries := 7 }))) c s₁ ∧
      waitaReads c s₁ 6 (fun r => r matches .bounced) = true) ∧
    (∃ c s₁, Starts (.waita 4 0 1 6 0) (small id (regs 4 0 6 0x10FF8)) c s₁ ∧ waitaSays c s₁ (4, 0, 1, 6, 0) true = true) ∧
    (∃ c s₁, Starts (.waita 4 0 0 6 1) (small id (regs 4 0 6 0x10FFC)) c s₁ ∧ waitaSays c s₁ (4, 0, 0, 6, 1) false = true) ∧
    (∃ c s₁, Starts (.waita 4 0 1 6 0) (crowded (small id (regs 4 0 6 0x10FF8))) c s₁ ∧ crowdedOut c s₁ ⟨0, (c.s 6).toNat, 8, 8, .read, .none⟩ = true) :=
  ⟨meets (by decide +kernel), meets (by decide +kernel), meets (by decide +kernel), meets (by decide +kernel), meets (by decide +kernel)⟩

/-- ACQ's object lies at its place. -/
def acqReads (c : Ctx) (s : State) (a : BitVec 6) : Bool :=
  match checkMem c [⟨0, (c.s a).toNat, 8, 8, .read, .none⟩] s with
  | .ok [(acc, x)] s₂ => free c s₂ acc x && !heldBack s₂ (c.plainRequest acc x) s₂.nextId && (perform s₂ (c.plainRequest acc x) matches .done _ _)
  | _ => false
/-- REL's release opens, and is complete (`b` false) or waits for a counting point. -/
def relOpens (c : Ctx) (s : State) (a : BitVec 6) (sys b : Bool) : Bool :=
  match checkMem c [⟨0, (c.s a).toNat, 8, 8, .relBump, .none⟩] s with
  | .ok [p] s₂ => canSend s₂ c [p] true && (match openRelease s₂ c.tid c.gid sys with
    | some (id, s₃) => (groupOf s₃ c.tid c.gid).any (fun g => (g.release id).isSome = b)
    | none => false)
  | _ => false
/-- The group has sent writes to a counting point in its phase, and its closes stay in flight. -/
def sending (s : State) : State :=
  { modGroup s 1 0 (fun g => { g with sent := [(.slice 0 0, 0, 1)] }) with holds := [true] }

/-- A load of the group is in flight. -/
def reading (s : State) : State :=
  { s with flight := [(1, .mem ⟨1, 0, 0, 0, 0, false, 0x10FFC, 4, .read, .scalar 3 4, .group 1 0 0, .home 0 512, 0, 0, false, true, 0, 0x10000, 0, 0,
      Fences.none⟩)] }
/-- Three releases of the group are open, so that no phase is free. -/
def threeOpen (g : Group) : Group := { g with releases := List.replicate 3 { id := 9, phase := 0, waiting := [.slice 0 0], peers := [], zread := false } }

theorem witness_FenceInstruction :
    (∃ c s₁, Starts (.fence 3 1) (small id id) c s₁ ∧ c.g.wait = none ∧ placedHome s₁ c = true ∧ readsOut s₁ c.tid c.gid true = false) ∧
    (∃ c s₁, Starts (.fence 4 3) (small id id) c s₁ ∧ c.g.wait = none ∧ placedHome s₁ c = true ∧
      (openRelease (changeGroup c s₁ (fun g => { g with placeHome := [] })) c.tid c.gid true).isSome = true) ∧
    (∃ c s₁, Starts (.fence 1 1) (reading (small id id)) c s₁ ∧ c.g.wait = none ∧ readsOut s₁ c.tid c.gid false = true) ∧
    (∃ c s₁, Starts (.fence 2 1) (setResidence (mapped [] (small id (fun g => { g with placeHome := [0x11] }))) 0 513 (some (.near 0 1))) c s₁ ∧
      c.g.wait = none ∧ placedHome s₁ c = false) ∧
    (∃ c s₁, Starts (.fence 1 2) (small id threeOpen) c s₁ ∧ c.g.wait = none ∧ (openRelease s₁ c.tid c.gid false).isNone = true) :=
  ⟨meets (by decide +kernel), meets (by decide +kernel), meets (by decide +kernel), meets (by decide +kernel), meets (by decide +kernel)⟩

theorem witness_AcquireAndRelease :
    (∃ c s₁, Starts (.acq 4 5 2) (small id (regs 4 0x10FF8 5 0)) c s₁ ∧ acqReads c s₁ 4 = true) ∧
    (∃ c s₁, Starts (.rel 4 2) (small id (regs 4 0x10FF8 5 0)) c s₁ ∧ c.g.wait = none ∧ relOpens c s₁ 4 false false = true) ∧
    (∃ c s₁, Starts (.rel 4 4) (sending (small id (regs 4 0x10000 5 0))) c s₁ ∧ c.g.wait = none ∧ relOpens c s₁ 4 true true = true) ∧
    (∃ c s₁, Starts (.acq 4 5 2) (small id (regs 4 0x10004 5 0)) c s₁ ∧ refuses c [⟨0, (c.s 4).toNat, 8, 8, .read, .none⟩] s₁ 0x03 false = true) ∧
    (∃ c s₁, Starts (.rel 4 2) (external (small id (regs 4 0x11000 5 0))) c s₁ ∧
      refuses c [⟨0, (c.s 4).toNat, 8, 8, .relBump, .none⟩] s₁ 0x05 true = true) ∧
    (∃ c s₁, Starts (.acq 4 5 2) (crowded (small id (regs 4 0x10FF8 5 0))) c s₁ ∧ crowdedOut c s₁ ⟨0, (c.s 4).toNat, 8, 8, .read, .none⟩ = true) ∧
    (∃ c s₁, Starts (.rel 4 2) (crowded (small id (regs 4 0x10FF8 5 0))) c s₁ ∧ c.g.wait = none ∧
      crowdedOut c s₁ ⟨0, (c.s 4).toNat, 8, 8, .relBump, .none⟩ = true) :=
  ⟨meets (by decide +kernel), meets (by decide +kernel), meets (by decide +kernel), meets (by decide +kernel), meets (by decide +kernel), meets (by decide +kernel), meets (by decide +kernel)⟩

/-- The team with a timeline 7 of the value `v`. -/
def timeline (v : Nat) (t : Team) : Team := { t with tls := t.tls.setIfInBounds 7 ⟨v + 1, [], v⟩ }

theorem witness_TimelineInstructions :
    (∃ c s₁, Starts (.tlwait 4 7) (small (timeline 3) (regs 4 3 5 0)) c s₁ ∧ (c.s 4).toNat = (c.t.tl 7).value) ∧
    (∃ c s₁, Starts (.tlwait 4 7) (small (timeline 3) (regs 4 4 5 0)) c s₁ ∧ (c.s 4).toNat = (c.t.tl 7).value + 1) ∧
    (∃ c s₁, Starts (.tlget 63 7) (small (timeline 3) id) c s₁ ∧ (c.t.tl 7).handed = 4) ∧
    ((⟨4, [], 3⟩ : Timeline).early.contains (3 + 1) = false ∧ (4 : Nat) = (⟨4, [], 3⟩ : Timeline).value + 1) :=
  ⟨meets (by decide +kernel), meets (by decide +kernel), meets (by decide +kernel), by decide +kernel⟩

/-- The team holds barrier 0 for the groups of `m`, in a phase with these arrivals. -/
def barrier (m : Mask) (phase : Nat) (arrived : List Nat) (t : Team) : Team := { t with bars := [(0, ⟨m, phase, arrived, [], 0⟩)] }

theorem witness_BarrierAllocation :
    (∃ c s₁, Starts (.baralloc 3 4) (small (fun t => { t with header := { t.header with gmax := 4 } }) (regs 4 16 5 0)) c s₁ ∧
      2 ^ c.t.header.gmax ≤ ((c.s 4).truncate 32 : Word).toNat) ∧
    (∃ c s₁, Starts (.baralloc 3 4) (small (fun t => { t with header := { t.header with gmax := 4, nbar := 0 } }) (regs 4 15 5 0)) c s₁ ∧
      (((c.s 4).truncate 32 : Word) ≠ 0 ∧ ((c.s 4).truncate 32 : Word).toNat < 2 ^ c.t.header.gmax ∧
      nmFree c.t.bars c.t.header.nbar = none)) ∧
    (∃ c s₁, Starts (.baralloc 3 4) (small id (regs 4 0xFFFFFFFF 5 0)) c s₁ ∧
      (((c.s 4).truncate 32 : Word) ≠ 0 ∧ ((c.s 4).truncate 32 : Word).toNat < 2 ^ c.t.header.gmax ∧
      nmFree c.t.bars c.t.header.nbar = some 0)) ∧
    (∃ c s₁, Starts (.baralloc 3 4) (small id (regs 4 0 5 0)) c s₁ ∧ ((c.s 4).truncate 32 : Word) = 0) :=
  ⟨meets (by decide +kernel), meets (by decide +kernel), meets (by decide +kernel), meets (by decide +kernel)⟩

/-- The team holds queue 0 of four entries with `e` entries and the allowance `a`. -/
def queue (e a : Nat) (t : Team) : Team := { t with queues := [(0, ⟨0, 4, 0, e, a, List.replicate e 0, [], []⟩)] }
def isQueue (c : Ctx) (q : BitVec 6) (e a : Nat) : Bool := (c.queue q).any (fun x => x.2.e = e && x.2.a = a && x.2.pushers.isEmpty && x.2.poppers.isEmpty)
/-- Another group of the team, index 3, which waits at barrier 0. -/
def beside (s : State) : State :=
  modTeam s 1 (fun t => { t with groups := t.groups ++ [(3, { Group.start 3 false true 0 0 0 0 with wait := some (.barrier 0 2) })] })

theorem witness_BarrierAndQueueMisuse :
    (∃ c s₁, Starts (.barwait 4) (small id (regs 4 0 5 0)) c s₁ ∧ c.barrier 4 = none) ∧
    (∃ c s₁, Starts (.bararr 4) (small (barrier 2 0 []) (regs 4 0 5 0)) c s₁ ∧ c.barrier 4 = some (0, ⟨2, 0, [], [], 0⟩) ∧
      (2 : Mask).getLsbD c.g.index = false) ∧
    (∃ c s₁, Starts (.barfree 3 4) (small id (regs 4 0x800 5 0)) c s₁ ∧ c.barrier 4 = none) ∧
    (∃ c s₁, Starts (.barfree 3 4) (small (barrier 1 2 [0]) (regs 4 0 5 0)) c s₁ ∧ c.barrier 4 = some (0, ⟨1, 2, [0], [], 0⟩) ∧
      (c.t.live ⟨1, 2, [0], [], 0⟩).any ([0] : List Nat).contains = true) ∧
    (∃ c s₁, Starts (.barfree 3 4) (beside (small (barrier 1 2 []) (regs 4 0 5 0))) c s₁ ∧ c.barrier 4 = some (0, ⟨1, 2, [], [], 0⟩) ∧
      c.t.groups.length = 2) ∧
    (∃ c s₁, Starts (.barfree 3 4) (small (barrier 1 2 []) (regs 4 0 5 0)) c s₁ ∧ c.barrier 4 = some (0, ⟨1, 2, [], [], 0⟩) ∧
      (∀ p ∈ c.t.groups, ¬p.1 ≠ c.gid) ∧ (∀ k ∈ c.t.live ⟨1, 2, [], [], 0⟩, k ∉ ([] : List Nat))) ∧
    (∃ c s₁, Starts (.qfree 3 4) (small (queue 0 1) (regs 4 0 5 0)) c s₁ ∧ isQueue c 4 0 1 = true) ∧
    (∃ c s₁, Starts (.qfree 3 4) (small (queue 1 0) (regs 4 0 5 0)) c s₁ ∧ isQueue c 4 1 0 = true) ∧
    (∃ c s₁, Starts (.qfree 3 4) (small id (regs 4 0 5 0)) c s₁ ∧ c.queue 4 = none) ∧
    (∃ c s₁, Starts (.qgrant 4 5) (small id (regs 4 0x800 5 3)) c s₁ ∧ c.queue 4 = none) ∧
    (∃ c s₁, Starts (.qpush 4 5) (small id (regs 4 0 5 9)) c s₁ ∧ c.queue 4 = none) ∧
    (∃ c s₁, Starts (.qtry 3 4 5 1) (small id (regs 4 0 5 9)) c s₁ ∧ c.queue 4 = none) :=
  ⟨meets (by decide +kernel), meets (by decide +kernel), meets (by decide +kernel), meets (by decide +kernel), meets (by decide +kernel),
    meets (by decide +kernel), meets (by decide +kernel), meets (by decide +kernel), meets (by decide +kernel), meets (by decide +kernel),
    meets (by decide +kernel), meets (by decide +kernel)⟩

/-- Operand `b` names the barrier of these values, and the group is of it. -/
def hasBarrier (t : Team) (g : Group) (b : BitVec 6) (m : Mask) (phase : Nat) (arrived : List Nat) : Bool :=
  decide ((⟨1, 0, t, g⟩ : Ctx).barrier b = some (0, ⟨m, phase, arrived, [], 0⟩)) && m.getLsbD g.index

theorem witness_BarrierWaits :
    (∃ c s₁, Starts (.bararr 4) (small (barrier 3 1 []) (fun g => { regs 4 0 5 0 g with arrived := [(0, 0)] })) c s₁ ∧
      c.barrier 4 = some (0, ⟨3, 1, [], [], 0⟩) ∧ (3 : Mask).getLsbD c.g.index = true ∧ nmGet 0 c.g.arrived = some 0) ∧
    (∃ c s₁, Starts (.bararr 4) (small (barrier 3 1 [0]) (fun g => { regs 4 0 5 0 g with arrived := [(0, 1)] })) c s₁ ∧
      c.barrier 4 = some (0, ⟨3, 1, [0], [], 0⟩) ∧ (3 : Mask).getLsbD c.g.index = true ∧ nmGet 0 c.g.arrived = some 1) ∧
    (∃ c s₁, Starts (.barwait 4) (small (barrier 3 1 [0]) (fun g => { regs 4 0 5 0 g with arrived := [(0, 1)] })) c s₁ ∧
      c.barrier 4 = some (0, ⟨3, 1, [0], [], 0⟩) ∧ (3 : Mask).getLsbD c.g.index = true ∧ nmGet 0 c.g.arrived = some 1 ∧
      ((teamOf s₁ c.tid).bind (fun t => nmGet 0 t.bars)).any (fun y => y.phase ≤ 1) = true) ∧
    (∃ c s₁, Starts (.barsync 4) (small (barrier 3 1 [0]) (fun g => { regs 4 0 5 0 g with arrived := [(0, 1)] })) c s₁ ∧
      c.barrier 4 = some (0, ⟨3, 1, [0], [], 0⟩) ∧ (3 : Mask).getLsbD c.g.index = true ∧ c.g.wait = none ∧ nmGet 0 c.g.arrived = some 1) ∧
    (∃ c s₁, Starts (.barsync 4) (beside (small (barrier 9 0 []) (regs 4 0 5 0))) c s₁ ∧ c.barrier 4 = some (0, ⟨9, 0, [], [], 0⟩) ∧
      (9 : Mask).getLsbD c.g.index = true ∧ c.g.wait = none ∧ nmGet 0 c.g.arrived = none ∧
      ((teamOf (arrive c 0 ⟨9, 0, [], [], 0⟩ s₁) c.tid).bind (fun t => nmGet 0 t.bars)).any (fun y => y.phase ≤ 0) = true) ∧
    (∃ c s₁, Starts (.barwait 4) (small (barrier 1 1 []) (regs 4 0 5 0)) c s₁ ∧ c.barrier 4 = some (0, ⟨1, 1, [], [], 0⟩) ∧
      (1 : Mask).getLsbD c.g.index = true ∧ nmGet 0 c.g.arrived = none) ∧
    (∃ c s₁, Starts (.barwait 4) (small (barrier 1 1 []) (fun g => { regs 4 0 5 0 g with arrived := [(0, 0)] })) c s₁ ∧
      c.barrier 4 = some (0, ⟨1, 1, [], [], 0⟩) ∧ (1 : Mask).getLsbD c.g.index = true ∧ nmGet 0 c.g.arrived = some 0 ∧
      ((teamOf s₁ c.tid).bind (fun t => nmGet 0 t.bars)).any (fun y => 0 < y.phase && settledBefore s₁ c.tid y.mark) = true) ∧
    (∃ c s₁, Starts (.barsync 4) (small (barrier 1 0 []) (regs 4 0 5 0)) c s₁ ∧ c.barrier 4 = some (0, ⟨1, 0, [], [], 0⟩) ∧
      (1 : Mask).getLsbD c.g.index = true ∧ c.g.wait = none ∧ nmGet 0 c.g.arrived = none ∧
      ((teamOf (arrive c 0 ⟨1, 0, [], [], 0⟩ s₁) c.tid).bind (fun t => nmGet 0 t.bars)).any (fun y =>
        0 < y.phase && settledBefore (arrive c 0 ⟨1, 0, [], [], 0⟩ s₁) c.tid y.mark) = true) ∧
    (let b : Barrier := ⟨1, 0, [0], [], 0⟩; b.arrived ≠ [] ∧ ∀ k ∈ (loadTeam 1).live b, k ∈ b.arrived) ∧
    (let b : Barrier := ⟨1, 0, [], [], 0⟩; b.arrived = []) ∧
    (∃ t g, Spec.Ready (.bararr 4) (small (barrier 3 1 []) (regs 4 0 5 0)) t g ∧ hasBarrier t g 4 (3 : Mask) 1 [] = true ∧
      nmGet 0 g.arrived = none) ∧
    (∃ t g, Spec.Ready (.barwait 4) (small (barrier 1 1 []) (fun g => { regs 4 0 5 0 g with arrived := [(0, 0)] })) t g ∧
      hasBarrier t g 4 (1 : Mask) 1 [] = true ∧ nmGet 0 g.arrived = some 0) ∧
    (∃ t g, Spec.Ready (.barsync 4) (small (barrier 3 0 [1]) (regs 4 0 5 0)) t g ∧ hasBarrier t g 4 (3 : Mask) 0 [1] = true ∧
      nmGet 0 g.arrived = none ∧ (∀ k ∈ t.live ⟨3, 0, [1], [], 0⟩, k = g.index ∨ k ∈ ([1] : List Nat))) ∧
    (small (barrier 3 0 [1]) (regs 4 0 5 0)).flight = [] :=
  ⟨meets (by decide +kernel), meets (by decide +kernel), meets (by decide +kernel), meets (by decide +kernel), meets (by decide +kernel),
    meets (by decide +kernel), meets (by decide +kernel), meets (by decide +kernel), by decide +kernel, rfl, ready_and (by decide +kernel) (by decide +kernel),
    ready_and (by decide +kernel) (by decide +kernel), ready_and (by decide +kernel) (by decide +kernel), rfl⟩

theorem witness_QueueAllocation :
    (∃ c s₁, Starts (.qalloc 3 4 5) (small id (regs 4 0x8000 5 4097)) c s₁ ∧ (c.s 5).toNat % 2 ^ 16 = 4097) ∧
    (∃ c s₁, Starts (.qalloc 3 4 5) (small id (regs 4 0xC000 5 0x10001000)) c s₁ ∧ (c.s 4).toNat % 4 = 0 ∧
      (c.s 4).toNat + 4 * ((c.s 5).toNat % 2 ^ 16) = c.t.header.desk ∧ (c.s 5).toNat / 2 ^ 16 = (c.s 5).toNat % 2 ^ 16 ∧
      (c.s 5).toNat % 2 ^ 16 = 4096 ∧ nmFree c.t.queues c.t.header.nque = some 0) ∧
    (∃ c s₁, Starts (.qalloc 3 4 5) (small (fun t => { t with header := { t.header with nque := 0 } }) (regs 4 0 5 1)) c s₁ ∧
      nmFree c.t.queues c.t.header.nque = none ∧ (c.s 4).toNat + 4 * 1 ≤ c.t.header.desk ∧ (c.s 5).toNat = 1) ∧
    (∃ c s₁, Starts (.qgrant 4 5) (small (queue 1 0) (regs 4 0 5 3)) c s₁ ∧ isQueue c 4 1 0 = true ∧ 0 + 1 + (c.s 5).toNat = 4) ∧
    (∃ c s₁, Starts (.qgrant 4 5) (small (queue 1 0) (regs 4 0 5 4)) c s₁ ∧ isQueue c 4 1 0 = true ∧ 4 < 0 + 1 + (c.s 5).toNat) :=
  ⟨meets (by decide +kernel), meets (by decide +kernel), meets (by decide +kernel), meets (by decide +kernel), meets (by decide +kernel)⟩

/-- The oldest entry can be taken, or not. -/
def poppable (c : Ctx) (s : State) (q : BitVec 6) : Bool :=
  (c.queue q).any (fun x => 0 < x.2.e && settledBefore s c.tid (x.2.marks.headD 0) &&
    (teamOf s c.tid).any (fun t => t.present (x.2.off + 4 * x.2.head) 4))

theorem witness_QueueTransfers :
    (∃ c s₁, Starts (.qpush 4 5) (small (queue 3 1) (regs 4 0 5 9)) c s₁ ∧ isQueue c 4 3 1 = true) ∧
    (∃ c s₁, Starts (.qpush 4 5) (small (queue 3 0) (regs 4 0 5 9)) c s₁ ∧ isQueue c 4 3 0 = true) ∧
    (∃ c s₁, Starts (.qpop 3 4) (small (queue 1 0) (regs 4 0 5 9)) c s₁ ∧ isQueue c 4 1 0 = true ∧ poppable c s₁ 4 = true) ∧
    (∃ c s₁, Starts (.qpop 3 4) (small (queue 0 0) (regs 4 0 5 9)) c s₁ ∧ isQueue c 4 0 0 = true) ∧
    (∃ c s₁, Starts (.qtry 3 4 5 1) (small (queue 0 1) (regs 4 0 5 9)) c s₁ ∧ isQueue c 4 0 1 = true) ∧
    (∃ c s₁, Starts (.qtry 3 4 5 0) (small (queue 1 0) (regs 4 0 5 9)) c s₁ ∧ isQueue c 4 1 0 = true ∧ poppable c s₁ 4 = true) ∧
    (∃ c s₁, Starts (.qtry 3 4 5 0) (small (fun t => { queue 1 0 t with absent := [(0, 0, 1)] }) (regs 4 0 5 9)) c s₁ ∧ isQueue c 4 1 0 = true ∧
      poppable c s₁ 4 = false) ∧
    (∃ c s₁, Starts (.qtry 3 4 5 0) (small (queue 0 1) (regs 4 0 5 9)) c s₁ ∧ isQueue c 4 0 1 = true) :=
  ⟨meets (by decide +kernel), meets (by decide +kernel), meets (by decide +kernel), meets (by decide +kernel), meets (by decide +kernel),
    meets (by decide +kernel), meets (by decide +kernel), meets (by decide +kernel)⟩

/-- The team belongs to a gang; its neighbour table names core `n`, and it has the exchange state that `f` makes. -/
def ganged (n : Nat) (f : Exchange → Exchange) (t : Team) : Team :=
  { t with header := { t.header with flags := 1 }, exch := f { t.exch with nbrs := some n :: t.exch.nbrs.drop 1 } }

theorem witness_ExchangeInstructions :
    (∃ c s₁, Starts (.xarr 4) (small (ganged 1 (fun x => { x with sends := [(1, 0, 2)] })) (regs 4 1 5 0)) c s₁ ∧
      c.t.named (c.s 4) = some [1] ∧ c.t.gang = true ∧ c.t.exch.arrived = false ∧
      c.t.exch.sends = [(1, 0, 2)] ∧ c.core = 0) ∧
    (∃ c s₁, Starts (.xwait 4) (small (ganged 1 (fun x => { x with arrived := true, phase := 3, closes := [(1, 3, 2)], arrivals := [(1, 3, 2)] }))
        (regs 4 1 5 0)) c s₁ ∧ c.t.named (c.s 4) = some [1] ∧ c.t.gang = true ∧ c.t.exch.arrived = true ∧
      c.t.exch.closes = [(1, 3, 2)] ∧ ([1] : List Nat).filter (· ≠ c.core) = [1] ∧ c.t.exch.phase = 3 ∧
      phaseCount c.t.exch.arrivals 1 3 = 2 ∧ phaseCount c.t.exch.closes 1 3 = 2 ∧
      phaseCount c.t.exch.arrivals c.core 3 = phaseCount c.t.exch.sends c.core 3 ∧ c.t.drawer = []) ∧
    (∃ c s₁, Starts (.xarr 4) (small (ganged 1 id) (regs 4 2 5 0)) c s₁ ∧ c.t.named (c.s 4) = none) ∧
    (∃ c s₁, Starts (.xwait 4) (small id (regs 4 0 5 0)) c s₁ ∧ c.t.gang = false) ∧
    (∃ c s₁, Starts (.xwait 4) (small (ganged 1 id) (regs 4 1 5 0)) c s₁ ∧ c.t.exch.arrived = false) ∧
    (∃ c s₁, Starts (.xwait 4) (small (ganged 1 (fun x => { x with arrived := true, closes := [(2, 0, 0)] })) (regs 4 1 5 0)) c s₁ ∧
      c.t.named (c.s 4) = some [1] ∧ c.t.gang = true ∧ c.t.exch.arrived = true ∧ c.t.exch.closes = [(2, 0, 0)] ∧ c.t.exch.phase = 0) ∧
    (∃ c s₁, Starts (.xwait 4) (small (ganged 1 (fun x => { x with arrived := true })) (regs 4 1 5 0)) c s₁ ∧
      c.t.named (c.s 4) = some [1] ∧ c.t.gang = true ∧ c.t.exch.arrived = true ∧ c.t.exch.closes = [] ∧ ([1] : List Nat).filter (· ≠ c.core) = [1]) ∧
    (∃ c s₁, Starts (.xarr 4) (small (ganged 1 (fun x => { x with sends := [(2, 0, 1)] })) (regs 4 1 5 0)) c s₁ ∧
      c.t.named (c.s 4) = some [1] ∧ c.t.exch.sends = [(2, 0, 1)] ∧ c.t.exch.phase = 0 ∧ 2 ≠ c.core) :=
  ⟨meets (by decide +kernel), meets (by decide +kernel), meets (by decide +kernel), meets (by decide +kernel), meets (by decide +kernel),
    meets (by decide +kernel), meets (by decide +kernel), meets (by decide +kernel)⟩

/-- The team's desk holds the bytes at the offset, and its header has these flags (1 gang, 2 cooperative). -/
def desk (off : Nat) (bs : List Byte) (flags : Nat) (t : Team) : Team :=
  { t with desk := writeBytes t.desk off bs, header := { t.header with flags := flags } }
/-- A COPY card: 16 bytes of mem from 0x10FF0 to the end of the own desk. -/
def copyBytes (spaces : Nat) : List Byte :=
  natBytes 8 0x10FF0 ++ natBytes 8 0xFFF0 ++ natBytes 4 16 ++ natBytes 4 1 ++ natBytes 16 0 ++ [BitVec.ofNat 8 spaces] ++ List.replicate 23 0
/-- A COLL card of kind 4 over the clusters of `clm`. -/
def collBytes (clm : Nat) : List Byte := List.replicate 20 0 ++ [4, 0, BitVec.ofNat 8 clm] ++ List.replicate 41 0
/-- A COLL card of cluster 0 that takes `cnt` words from `src` and leaves them there. -/
def collFrom (src cnt : Nat) : List Byte := natBytes 8 src ++ natBytes 8 src ++ natBytes 4 cnt ++ [0, 0, 1] ++ List.replicate 41 0
/-- A card in the own desk passes the checks of its command, or fails one with the code. -/
def cardSays (c : Ctx) (s : State) (kind : EngineKind) (a : BitVec 6) (r : Option Nat) : Bool :=
  (ownDesk s c.t (c.s a).toNat 64).any (fun off => c.t.present off 64 &&
    decide ((Spec.cardFault s c.t kind (readBytes c.t.desk off 64)).map (·.1) = r))
def someCmd : Cmd := ⟨.copy, 0, 1, 0, [], 0, 0, 0, false, false, none, [], 0, 0, 0, 0, false, 0, none⟩

theorem witness_EngineIssue :
    (∃ c s₁, Starts (.copy 3 4 7) (small (fun t => { t with cmds := List.replicate 64 someCmd }) (regs 4 0x40 5 0)) c s₁ ∧
      64 ≤ c.t.cmds.length) ∧
    (∃ c s₁, Starts (.copy 3 4 7) (small id (regs 4 0xFFC1 5 0)) c s₁ ∧ c.t.cmds.length < 64 ∧ ownDesk s₁ c.t (c.s 4).toNat 64 = none) ∧
    (∃ c s₁, Starts (.copy 3 4 7) (small id (regs 4 0x60 5 0)) c s₁ ∧ c.t.cmds.length < 64 ∧ ownDesk s₁ c.t (c.s 4).toNat 64 = some 0x60 ∧
      (c.s 4).toNat % 64 ≠ 0) ∧
    (∃ c s₁, Starts (.copy 3 4 7) (small (fun t => { t with absent := [(0, 0, 1)] }) (regs 4 0x40 5 0)) c s₁ ∧ c.t.cmds.length < 64 ∧
      ownDesk s₁ c.t (c.s 4).toNat 64 = some 0x40 ∧ (c.s 4).toNat % 64 = 0 ∧ c.t.present 0x40 64 = false) ∧
    (∃ c s₁, Starts (.copy 3 4 7) (small (desk 0xFFC0 (copyBytes 16) 0) (regs 4 0xFFC0 5 0)) c s₁ ∧ c.t.cmds.length < 64 ∧
      cardSays c s₁ .copy 4 (some 0x01) = true) ∧
    (∃ c s₁, Starts (.copy 3 4 7) (small (desk 0x40 (copyBytes 4) 0) (regs 4 0x40 5 0)) c s₁ ∧ c.t.cmds.length < 64 ∧
      cardSays c s₁ .copy 4 none = true) ∧
    (∃ c s₁, Starts (.dcmpStream 3 4 7) (small (desk 0x40 (List.replicate 64 0) 0) (regs 4 0x40 5 0)) c s₁ ∧ c.t.cmds.length < 64 ∧
      cardSays c s₁ .dcmp 4 none = true) ∧
    (∃ c s₁, Starts (.coll 3 4 7) (small (desk 0x40 (collBytes 0) 2) (regs 4 0x40 5 0)) c s₁ ∧ c.t.cmds.length < 64 ∧
      cardSays c s₁ .coll 4 none = true) ∧
    (∃ c s₁, Starts (.coll 3 4 7) (small (desk 0x40 (collBytes 1) 2) (regs 4 0x40 5 0)) c s₁ ∧ c.t.cmds.length < 64 ∧
      cardSays c s₁ .coll 4 none = true ∧ (openRelease s₁ c.tid c.gid false).isSome = true ∧
      (s₁.colls.filter (fun x => x.clusters.contains (clusterOfCore c.core))).length < 256) ∧
    (∃ c s₁, Starts (.coll 3 4 7) (walkHeld (small (desk 0x40 (collFrom 0x11000 1) 2) (regs 4 0x40 5 0))) c s₁ ∧ c.t.cmds.length < 64 ∧
      cardSays c s₁ .coll 4 (some 0) = true) ∧
    (∃ c s₁, Starts (.coll 3 4 7) (external (small (desk 0x40 (collFrom 0x11000 1) 2) (regs 4 0x40 5 0))) c s₁ ∧ c.t.cmds.length < 64 ∧
      cardSays c s₁ .coll 4 (some 0x05) = true) ∧
    (∃ c s₁, Starts (.coll 3 4 7) { small (desk 0x40 (collBytes 1) 2) (regs 4 0x40 5 0) with colls := List.replicate 256 ⟨7, 0, [0], [], 1⟩ } c s₁ ∧
      c.t.cmds.length < 64 ∧ cardSays c s₁ .coll 4 none = true ∧
      s₁.colls.any (fun x => Spec.matched c x 1 && x.clusters.contains 0) = false ∧
      256 ≤ (s₁.colls.filter (fun x => x.clusters.contains 0)).length) ∧
    (∃ c s₁, Starts (.coll 3 4 7) (small (desk 0x40 (collBytes 1) 2) (fun g => threeOpen (regs 4 0x40 5 0 g))) c s₁ ∧ c.t.cmds.length < 64 ∧
      cardSays c s₁ .coll 4 none = true ∧ (openRelease s₁ c.tid c.gid false).isNone = true) :=
  ⟨meets (by decide +kernel), meets (by decide +kernel), meets (by decide +kernel), meets (by decide +kernel), meets (by decide +kernel),
    meets (by decide +kernel), meets (by decide +kernel), meets (by decide +kernel), meets (by decide +kernel), meets (by decide +kernel),
    meets (by decide +kernel), meets (by decide +kernel), meets (by decide +kernel)⟩

/-- A kernel header of one consumer group with eight registers and a desk of 4 KiB, entered at its 64 bytes' end. -/
def headerBytes : List Byte :=
  natBytes 4 0x4B484450 ++ [3, 0, 0, 1, 1, 0, 8, 0] ++ natBytes 8 0 ++ natBytes 4 0x40 ++ natBytes 4 0x1000 ++ List.replicate 36 0
/-- A launch record of one team of the kernel at `kern`, with its flags, address space and reserved byte. -/
def recordAt (kern flags aspace rsv : Nat) : List Byte :=
  natBytes 8 kern ++ natBytes 20 0 ++ [BitVec.ofNat 8 flags, 0, BitVec.ofNat 8 aspace, BitVec.ofNat 8 rsv] ++ natBytes 4 0 ++ natBytes 4 1 ++
    List.replicate 24 0
def recordBytes (flags aspace rsv : Nat) : List Byte := recordAt 0x11000 flags aspace rsv
/-- A state with that header at 0x11000 and that record behind it, whose team's grid 1 has the depth `d`. -/
def launching (flags aspace rsv d : Nat) (queue : NMap Grid) : State :=
  let s := mapped (headerBytes ++ recordBytes flags aspace rsv) (small id (regs 4 0x11040 5 0))
  { s with grids := (1, ⟨1, 0, parseRecord (recordBytes 0 0 0), loadHeader, true, d, 0, 0, 0, 0, 1, [(0, 0)], [1], 0, false, false, []⟩) :: queue }
/-- What LAUNCH finds: whether its address space is valid, and if its record can be read, the reason of a refusal. -/
def launchSays (c : Ctx) (s : State) : Option (Bool × Nat) :=
  match readRecord c s (c.s 4).toNat 64 with
  | .done s₂ b =>
    let p := descriptor s₂ c.t.part (parseRecord b).aspace
    (match devRead p.2 c.t.part (parseRecord b).aspace (clusterOfCore c.core) (!c.t.supervisor) (parseRecord b).kern 64 with
      | .ok hb s₄ => some (bitOf p.1 0, refusal s₄ c.t.part (parseRecord b) (parseHeader hb))
      | _ => some (bitOf p.1 0, 0))
  | _ => none

theorem witness_SpawnAndRebin :
    (∃ c s₁, Starts (.spawn 4 0 0) (mapped [] (small id (regs 4 2 5 0))) c s₁ ∧ entryBad s₁ c (c.s 4) true = true) ∧
    (∃ c s₁, Starts (.spawn 4 0 0) (mapped [] (small id (regs 4 0x3FFC 5 0))) c s₁ ∧ entryBad s₁ c (c.s 4) true = false) ∧
    (∃ c s₁, Starts (.rebin 5 4 0 0) (mapped [] (small id (regs 4 0xFFFFFFFF00004000 5 0))) c s₁ ∧ entryBad s₁ c (c.s 4) false = true) ∧
    (∃ c s₁, Starts (.rebin 5 4 0 0) (mapped [] (small id (regs 4 0xFFFFFFFF00003FFC 5 0))) c s₁ ∧ entryBad s₁ c (c.s 4) false = false) :=
  ⟨meets (by decide +kernel), meets (by decide +kernel), meets (by decide +kernel), meets (by decide +kernel)⟩

def someGrid : Grid := ⟨2, 0, parseRecord (recordBytes 0 0 0), loadHeader, false, 1, 0, 0, 0, 0, 0, [], [], 0, false, false, []⟩

theorem witness_LaunchInstruction :
    (∃ c s₁, Starts (.launch 3 4) (small id (regs 4 0x11020 5 0)) c s₁ ∧ (c.s 4).toNat % 64 ≠ 0) ∧
    (∃ c s₁, Starts (.launch 3 4) (small id (regs 4 0x20000 5 0)) c s₁ ∧ (c.s 4).toNat % 64 = 0 ∧
      (readRecord c s₁ (c.s 4).toNat 64 matches .bad 4 0x20000 _) = true) ∧
    (∃ c s₁, Starts (.launch 3 4) (walkHeld (small id (regs 4 0x11000 5 0))) c s₁ ∧ (c.s 4).toNat % 64 = 0 ∧
      (readRecord c s₁ (c.s 4).toNat 64 matches .held _) = true) ∧
    (∃ c s₁, Starts (.launch 3 4) (mapped (recordAt 0x20000 0 0 0) (small id (regs 4 0x11000 5 0))) c s₁ ∧
      (readRecord c s₁ (c.s 4).toNat 64 matches .done _ _) = true ∧
      (devRead (descriptor s₁ 0 0).2 c.t.part 0 (clusterOfCore c.core) (!c.t.supervisor) 0x20000 64 matches .fault 4 0x20000 _) = true ∧
      bitOf (descriptor s₁ 0 0).1 0 = true) ∧
    (∃ c s₁, Starts (.launch 3 4) (launching 0 5 0 1 []) c s₁ ∧ launchSays c s₁ = some (false, 0)) ∧
    (∃ c s₁, Starts (.launch 3 4) (launching 0 0 1 1 []) c s₁ ∧ launchSays c s₁ = some (true, 2)) ∧
    (∃ c s₁, Starts (.launch 3 4) (launching 8 0 0 1 []) c s₁ ∧ launchSays c s₁ = some (true, 0)) ∧
    (∃ c s₁, Starts (.launch 3 4) (launching 0 0 0 8 []) c s₁ ∧ launchSays c s₁ = some (true, 0) ∧ 8 < gridDepth s₁ c.t.grid + 1) ∧
    (∃ c s₁, Starts (.launch 3 4) (launching 0 0 0 7 ((List.range 1024).map (fun k => (k + 2, someGrid)))) c s₁ ∧
      launchSays c s₁ = some (true, 0) ∧ gridDepth s₁ c.t.grid + 1 ≤ 8 ∧ 1024 ≤ queued s₁ c.t.part false) ∧
    (∃ c s₁, Starts (.launch 3 4) (launching 0 0 0 7 []) c s₁ ∧ launchSays c s₁ = some (true, 0) ∧ gridDepth s₁ c.t.grid + 1 ≤ 8 ∧
      queued s₁ c.t.part false < 1024) ∧
    (∃ c s₁, Starts (.waitch 3 4) (small (fun t => { t with children := [⟨2, none⟩] }) (regs 4 1 5 0)) c s₁ ∧
      c.t.children.find? (fun x => x.grid = (c.s 4).toNat % 2 ^ 32) = none) ∧
    (∃ c s₁, Starts (.waitch 3 4) (small (fun t => { t with children := [⟨2, none⟩] }) (regs 4 2 5 0)) c s₁ ∧
      c.t.children.find? (fun x => x.grid = (c.s 4).toNat % 2 ^ 32) = some ⟨2, none⟩) ∧
    (∃ c s₁, Starts (.waitch 3 4) (small (fun t => { t with children := [⟨2, some 2⟩] }) (regs 4 2 5 0)) c s₁ ∧
      c.t.children.find? (fun x => x.grid = (c.s 4).toNat % 2 ^ 32) = some ⟨2, some 2⟩ ∧ nmGet (gridKey c.t.part 2) s₁.grids = none) :=
  ⟨meets (by decide +kernel), meets (by decide +kernel), meets (by decide +kernel), meets (by decide +kernel), meets (by decide +kernel), meets (by decide +kernel), meets (by decide +kernel),
    meets (by decide +kernel), meets (by decide +kernel), meets (by decide +kernel), meets (by decide +kernel), meets (by decide +kernel), meets (by decide +kernel)⟩

/-- The team and the state that an instruction on the matrix port finds (R299), and what holds of them. -/
def atPort (c : Ctx) (s : State) (p : Team → State → Bool) : Bool :=
  (teamOf (flushArray s c.core) c.tid).any (fun t => p t (flushArray s c.core))
theorem atPort_spec {c : Ctx} {s : State} {p : Team → State → Bool} (h : atPort c s p = true) : ∃ t s', Spec.atPort c s t s' ∧ p t s' = true := by
  unfold atPort at h
  cases ht : teamOf (flushArray s c.core) c.tid with
  | none => simp [ht] at h
  | some t => exact ⟨t, _, ⟨rfl, ht⟩, by simpa [ht] using h⟩
/-- A team with slot 63 and 5, tile 191 and one drain or command when `busy`. -/
def trayed (kind : Nat) (t : Team) : Team :=
  { t with slots := [⟨63, 63, []⟩, ⟨5, 5, []⟩],
           tiles := [⟨191, 191, if kind = 0 then [] else (List.range 64).map (fun r => (r, kind)), [], 0, 0, [], BitVec.allOnes 64, []⟩] }
def draining (s : State) : State :=
  modCore s 0 (fun c => { c with drains := [⟨9, 1, 0, 191, 0, 0, 0, [], [], 0⟩] })

theorem witness_TrayClaims :
    (∃ c s₁, Starts (.tclaim 3 0) (small (fun t => { t with header := { t.header with tslot := 0 } }) id) c s₁ ∧
      atPort c s₁ (fun t _ => t.header.tslot ≤ t.slots.length) = true) ∧
    (∃ c s₁, Starts (.tclaim 3 0) (small (trayed 0) id) c s₁ ∧ atPort c s₁ (fun t s => t.slots.length < t.header.tslot &&
      decide (lowestFree 64 ((teamsOn s c.core).flatMap (fun u => u.slots.map (·.phys))) = some 0) && t.slots.all (fun x => x.num ≠ 0)) = true) ∧
    (∃ c s₁, Starts (.tclaim 3 1) (small (fun t => { t with header := { t.header with atile := 0 } }) id) c s₁ ∧
      atPort c s₁ (fun t _ => t.header.atile ≤ t.tiles.length) = true) ∧
    (∃ c s₁, Starts (.tclaim 3 1) (small (trayed 0) id) c s₁ ∧ atPort c s₁ (fun t s => t.tiles.length < t.header.atile &&
      decide (lowestFree Config.accTiles ((teamsOn s c.core).flatMap (fun u => u.tiles.map (·.phys))) = some 0) &&
      t.tiles.all (fun x => x.num ≠ 0)) = true) ∧
    (∃ c s₁, Starts (.trel 4 0) (small (trayed 0) (regs 4 0 5 0)) c s₁ ∧ atPort c s₁ (fun t _ => decide (Spec.slotNamed c t 4 = none)) = true) ∧
    (∃ c s₁, Starts (.trel 4 0) (small (trayed 0) (regs 4 63 5 0)) c s₁ ∧
      atPort c s₁ (fun t _ => (Spec.slotNamed c t 4).any (fun x => x.num = 63)) = true) ∧
    (∃ c s₁, Starts (.trel 4 1) (small (trayed 0) (regs 4 192 5 0)) c s₁ ∧ atPort c s₁ (fun t _ => decide (Spec.tileNamed c t 4 = none)) = true) ∧
    (∃ c s₁, Starts (.trel 4 1) (draining (small (trayed 0) (regs 4 191 5 0))) c s₁ ∧
      atPort c s₁ (fun t s => (Spec.tileNamed c t 4).any (fun x => (coreOf s c.core).drains.any (fun d => d.team = c.tid && d.tile = x.num))) = true) :=
  ⟨meets (by decide +kernel), meets (by decide +kernel), meets (by decide +kernel), meets (by decide +kernel), meets (by decide +kernel),
    meets (by decide +kernel), meets (by decide +kernel), meets (by decide +kernel)⟩

/-- A vertical bus beneath core 0 has a worn lane, and the next draw is `n`. -/
def worn (n : Nat) (s : State) : State := { s with free := n, mgmt := { s.mgmt with buses := [(0, [(0, ⟨[], [], [], [5]⟩)])] } }
/-- Whether an error is met there is free: where the draw says so, the access meets it. -/
theorem witness_meetEcc (n : Nat) (h : Config.eccFails n = true) (s : State) : (meetEcc (worn n s) 0 true).1 = true := by
  simp [meetEcc, busWorn, worn, nmGetD, nmGet, h]
theorem witness_MatrixPortInstructions_worn : ∃ c s₁, Starts (.mzero 4) (worn 9 (small (trayed 0) (regs 4 191 5 0))) c s₁ ∧
    busWorn (flushArray s₁ c.core) c.core = true ∧ atPort c s₁ (fun t _ => (Spec.tileNamed c t 4).isSome) = true := meets (by decide +kernel)

theorem witness_MatrixPortInstructions :
    (∃ c s₁, Starts (.mzero 4) (small (trayed 0) (regs 4 0 5 0)) c s₁ ∧ atPort c s₁ (fun t _ => decide (Spec.tileNamed c t 4 = none)) = true) ∧
    (∃ c s₁, Starts (.mzero 4) (small (trayed 0) (regs 4 191 5 0)) c s₁ ∧ atPort c s₁ (fun t _ => (Spec.tileNamed c t 4).isSome) = true) ∧
    (∃ c s₁, Starts (.mfill 4 5) (small (trayed 0) (regs 4 191 5 0xC000)) c s₁ ∧ fmtAccf c.g.fmt ≤ 1 ∧ (c.s 5).toNat % 128 = 0 ∧
      atPort c s₁ (fun t s => (Spec.tileNamed c t 4).isSome && decide (ownDesk s t (c.s 5).toNat 16384 = some 0xC000) && t.present 0xC000 16384) = true) ∧
    (∃ c s₁, Starts (.cbld 4 5 1) (small id (regs 4 15 5 0xFFE0)) c s₁ ∧ (c.s 5).toNat % 32 = 0 ∧ (c.s 4).toNat < 16 ∧
      atPort c s₁ (fun t s => decide (ownDesk s t (c.s 5).toNat 32 = some 0xFFE0) && t.present 0xFFE0 32) = true) ∧
    (∃ c s₁, Starts (.cbld 4 5 0) (small id (regs 4 0 5 0x10FE0)) c s₁ ∧ (c.s 5).toNat % 32 = 0 ∧ (c.s 4).toNat < 16 ∧
      atPort c s₁ (fun t s => (match checkMem { c with t := t }
          ((List.range 16).map (fun i => ⟨i, (c.s 5).toNat + 2 * i, 2, 2, .read, .none⟩)) s with
        | .ok l s₃ => canSend s₃ { c with t := t } l false && (readAtOnce { c with t := t } (l.map (fun p => ({ c with t := t } : Ctx).request 0 c.g.m0 p.1 p.2 false)) s₃ matches .done _ _)
        | _ => false)) = true) ∧
    (∃ c s₁, Starts (.menc 4 5 6) (small (trayed 0) (fun g => (regs 4 63 5 5 g).setS 6 15)) c s₁ ∧ (c.s 6).toNat < 16 ∧
      atPort c s₁ (fun t _ => (Spec.slotNamed c t 4).isSome && (Spec.slotNamed c t 5).isSome) = true) ∧
    (∃ c s₁, Starts (.mstat 3 1) (draining (small id id)) c s₁ ∧
      atPort c s₁ (fun _ s => (coreOf s c.core).drains.any (fun x => x.team = c.tid)) = true) ∧
    (∃ c s₁, Starts (.mstat 3 2) (small id id) c s₁ ∧ atPort c s₁ (fun _ s => !(coreOf s c.core).drains.any (fun x => x.team = c.tid)) = true) ∧
    (∃ c s₁, Starts (.mmq 4 5 61 15 0) (small id (regs 4 63 5 5)) c s₁ ∧ mmqQuarters c 4 5 61 15 0 = none) ∧
    (∃ c s₁, Starts (.mmq 4 5 0 8 2) (small (fun t => (trayed 0 t).setV (Group.start 0 false true 0 0 0 0) 0 (List.replicate 32 0x3F3800BF))
      (regs 4 63 5 5)) c s₁ ∧ (mmqQuarters c 4 5 0 8 2).isSome = true) :=
  ⟨meets (by decide +kernel), meets (by decide +kernel), meets (by decide +kernel), meets (by decide +kernel), meets (by decide +kernel),
    meets (by decide +kernel), meets (by decide +kernel), meets (by decide +kernel), meets (by decide +kernel), meets (by decide +kernel)⟩

/-- A tile of zeros in FP32 whose rows of the set are flagged. -/
def zeroTile (flags : Nat) : Tile := ⟨0, 0, (List.range 64).map (fun r => (r, 1)), [], BitVec.ofNat 64 flags, 0, [], BitVec.allOnes 64, []⟩

theorem witness_MatrixArithmetic :
    (let t := trayed 0 (loadTeam 1); let q : Quarter := ⟨1, 63, 5, 191, 56, 63, 0, 0⟩
      (t.slotAt q.a).isSome = true ∧ (t.slotAt q.b).isSome = true ∧ (t.tileAt q.tile).any (fun x => x.kinds = []) = true ∧ q.row + 8 ≤ 64 ∧
      (∀ k ∈ List.range 64, q.ks ≤ k → (slotElem [] (fmtAf q.fmt) [] 56 k).finite = true ∧ (slotElem [] (fmtBf q.fmt) [] k 63).finite = true)) ∧
    (∃ c s₁, Starts (.cupd 4 5 0 6) (small (fun t => (trayed 1 t).setV (Group.start 0 false true 0 0 0 0) 0 (ofLanes (fun i => BitVec.ofNat 32 i)))
        (fun g => (regs 4 63 5 191 g).setS 6 63)) c s₁ ∧ fmtOk c.g.fmt false = true ∧
      atPort c s₁ (fun t _ => (Spec.slotNamed c t 4).isSome && (Spec.tileNamed c t 5).any (fun x => (List.range 64).all (fun r => nmGetD x.kinds r 0 = Spec.accKind c.g.fmt)) &&
        (List.range 64).all (fun r => (if r < 32 then lane (t.vreg c.g 0) r else lane (t.vreg c.g 1) (r - 32)).toNat ≠ 31 || r = 31) &&
        (Spec.cupdTerm c t ⟨63, 63, []⟩ 31 63 6).finite) = true) ∧
    (∃ c s₁, Starts (.mdrain 4 5 0 0 0) (small (trayed 1) (regs 4 191 5 0xC000)) c s₁ ∧ drainOk c 0 0 (c.s 0) = true ∧
      atPort c s₁ (fun t s => (Spec.tileNamed c t 4).any (fun x => decide (mismatchRow x = none) && (List.range 64).all (fun r => nmGetD x.kinds r 0 = Spec.accKind c.g.fmt)) &&
        (c.s 5).toNat % 128 = 0 && decide (ownDesk s t (c.s 5).toNat 16384 = some 0xC000)) = true) ∧
    (∃ c s₁, Starts (.mdrain 4 52 0 6 4) (small (trayed 1) (regs 4 191 5 0)) c s₁ ∧ drainOk c 6 4 (c.s 0) = true ∧
      atPort c s₁ (fun t _ => (Spec.tileNamed c t 4).any (fun x => decide (mismatchRow x = none) && (List.range 64).all (fun r => nmGetD x.kinds r 0 = Spec.accKind c.g.fmt))) = true) ∧
    (∃ c s₁, Starts (.mdrain 4 5 0 0 5) (small (trayed 1) (regs 4 191 5 0)) c s₁ ∧ drainOk c 0 5 (c.s 0) = true ∧
      atPort c s₁ (fun t s => (Spec.tileNamed c t 4).any (fun x => decide (mismatchRow x = none)) && decide (ownDesk s t (c.s 5).toNat 16384 = some 0)) = true) ∧
    (∃ c s₁, Starts (.mdrain 4 5 0 0 3) (small (fun t => { trayed 1 t with absent := [(3, 0, 1)] }) (regs 4 191 5 0)) c s₁ ∧ drainOk c 0 3 (c.s 0) = true ∧
      atPort c s₁ (fun t s => (Spec.tileNamed c t 4).isSome && decide (ownDesk s t (c.s 5).toNat 512 = some 0) && !t.present 0 512) = true) ∧
    (∃ c s₁, Starts (.mdrain 4 5 0 0 0) (fencedStore (small (trayed 1) (fun g => fencedGroup (regs 4 191 5 0 g)))) c s₁ ∧ drainOk c 0 0 (c.s 0) = true ∧
      atPort c s₁ (fun t s => (Spec.tileNamed c t 4).isSome && fenceHolds s c.tid c.gid c.g.fences) = true) ∧
    (∃ c s₁, Starts (.mdrain 4 52 0 6 1) (small (fun t => { t with tiles := [⟨191, 191, (List.range 64).map (fun r => (r, 1)), [(65, 5)], 0, 0, [],
        BitVec.allOnes 64, []⟩] }) (regs 4 191 5 0)) c s₁ ∧ drainOk c 6 1 (c.s 0) = true ∧
      atPort c s₁ (fun t _ => (Spec.tileNamed c t 4).any (fun x => decide (mismatchRow x = some 1))) = true) ∧
    Spec.BestOfRow (zeroTile 0) false true false 0 7 63 ⟨7, 0⟩ ∧ Spec.BestOfRow (zeroTile 0) true false true 0 0 0 ⟨63, 0⟩ ∧
    (∀ j, j < 64 → ¬ Spec.Candidate (zeroTile (2 ^ 63)) false 0 63 j) ∧ ¬ Spec.Differs (zeroTile 0) 63 := by
  refine ⟨by decide +kernel, meets (by decide +kernel), meets (by decide +kernel), meets (by decide +kernel), meets (by decide +kernel),
    meets (by decide +kernel), meets (by decide +kernel), meets (by decide +kernel), ?_, ?_, ?_, ?_⟩
  · unfold Spec.BestOfRow Spec.Candidate; decide +kernel
  · unfold Spec.BestOfRow Spec.Candidate; decide +kernel
  · unfold Spec.Candidate; decide +kernel
  · unfold Spec.Differs; decide +kernel

/-- A predicate's points have a NaN in lane 31 (register 3), and `fmt` allows it or not. -/
def nanPoint (t : Team) : Team := t.setV (Group.start 0 false true 0 0 0 0) 3 (ofLanes (fun i => if i = 31 then 0x7FC00000 else 0))
def somePred : PredOp := { (default : PredOp) with team := 2 }

/-- Points of whole coordinates, and of these scaled by 2 ^ `e`. -/
def whole (e : Int) (l : List (List Int)) : List (List Dya) := l.map (fun p => p.map (fun x => ⟨x, e⟩))
theorem witness_PredicateSigns :
    (Spec.BoundsHold .gor2 (whole 0 [[0, 0], [1, 0], [0, 1]]) ∧ Spec.exactD .gor2 (Spec.rats (whole 0 [[0, 0], [1, 0], [0, 1]])) ≠ 0) ∧
    (stagedSign .gor2 false (whole (-52) [[2 ^ 52, 1], [3 * 2 ^ 52, 2 ^ 53 + 1], [-(2 ^ 105), -(2 ^ 105)]])).2 = 2 ∧
    (stage0 .gins (whole 1023 [[1, 0, 0], [0, 1, 0], [0, 0, 1], [1, 1, 1], [0, 0, 0]])).2.2.2 = true ∧
    (let a := whole 0 [[0, 0], [1, 0], [2, 0]]; let b := whole 0 [[0, 0], [1, 0], [3, 0]]
      let c := whole 0 [[2, 0], [3, 0], [0, 0]]; let d := whole 0 [[2, 0], [3, 0], [1, 0]]
      ∀ x ∈ [a, b, c, d], Spec.BoundsHold .gor2 x) ∧
    (stage0 .gor2 (whole 1023 [[1, 0], [0, 1], [0, 0]])).2.2.2 = true := by
  refine ⟨?_, by decide +kernel, by decide +kernel, ?_, by decide +kernel⟩ <;> unfold Spec.BoundsHold <;> decide +kernel

theorem witness_GeometricPredicates :
    (∃ c s₁, Starts (.gor2 1 9 0 62 1) (small id id) c s₁ ∧ c.lanes 1 = 0) ∧
    (∃ c s₁, Starts (.gor3 0 20 0 62 1) (modCore (small id id) 0 (fun x => { x with preds := List.replicate 8 somePred })) c s₁ ∧ c.lanes 0 ≠ 0 ∧
      8 ≤ (coreOf s₁ c.core).preds.length) ∧
    (∃ c s₁, Starts (.ginc 0 9 0 62 1) (small nanPoint id) c s₁ ∧ c.lanes 0 ≠ 0 ∧ (coreOf s₁ c.core).preds.length < 8 ∧
      fmtPnf c.g.fmt = false ∧ (predPoints c .ginc 0 true 31).any (fun x => x.any (fun y => !y.finite)) = true) ∧
    (∃ c s₁, Starts (.gseg 0 9 0 62 1) (small nanPoint (fun g => { g with fmt := 0x1000000 })) c s₁ ∧ c.lanes 0 ≠ 0 ∧
      (coreOf s₁ c.core).preds.length < 8 ∧ fmtPnf c.g.fmt = true) ∧
    (∃ c s₁, Starts (.gins 0 20 0 62 1) (small id id) c s₁ ∧ c.lanes 0 ≠ 0 ∧ (coreOf s₁ c.core).preds.length < 8 ∧
      (∀ n ∈ List.range 32, (predPoints c .gins 0 true n).any (fun x => x.any (fun y => !y.finite)) = false)) :=
  ⟨meets (by decide +kernel), meets (by decide +kernel), meets (by decide +kernel), meets (by decide +kernel), meets (by decide +kernel)⟩

theorem witness_HintWords :
    (∃ t g, Spec.Present (small id id) t g ∧ (Spec.hintOf (.himm 0xABCDEF)).isSome = true ∧ Instr.wf t.header.ever (.himm 0xABCDEF) = true ∧
      g.hints.himms.length + (if g.hints.hsched.isSome then 1 else 0) + (if g.hints.hmod.isSome then 1 else 0) < 3) ∧
    (∃ t g, Spec.Present (small id (fun g => { g with hints := ⟨some g.pc, [1, 2], true, some 0, none⟩ })) t g ∧
      (Spec.hintOf (.hmod 0 0 0 0 1 0 0 0 0 0 0 0 0)).isSome = true ∧
      3 ≤ g.hints.himms.length + (if g.hints.hsched.isSome then 1 else 0) + (if g.hints.hmod.isSome then 1 else 0)) ∧
    (∃ t g, Spec.Present (small id (fun g => { g with hints := ⟨some g.pc, [1], false, some 0, none⟩ })) t g ∧
      (Spec.hintOf (.himm 7)).any (fun x => !x.2.1 g.hints) = true ∧ Instr.wf t.header.ever (.himm 7) = true ∧
      g.hints.himms.length + (if g.hints.hsched.isSome then 1 else 0) + (if g.hints.hmod.isSome then 1 else 0) < 3) :=
  ⟨⟨_, _, ⟨rfl, rfl, rfl, rfl, rfl, rfl, rfl⟩, by decide +kernel⟩, ⟨_, _, ⟨rfl, rfl, rfl, rfl, rfl, rfl, rfl⟩, by decide +kernel⟩,
    ⟨_, _, ⟨rfl, rfl, rfl, rfl, rfl, rfl, rfl⟩, by decide +kernel⟩⟩

theorem witness_SystemInstructions :
    (∃ c s₁, Starts .nop (small id id) c s₁ ∧ c.t.resident = true) ∧ (∃ c s₁, Starts .yield (small id id) c s₁ ∧ c.t.resident = true) ∧
    (∃ c s₁, Starts (.sleep 0xFFFFF) (small id id) c s₁ ∧ c.h.count = 0) ∧ (∃ c s₁, Starts .exit (small id id) c s₁ ∧ c.t.resident = true) ∧
    (∃ c s₁, Starts (.trap 0xFFFF) (small id id) c s₁ ∧ c.t.resident = true) ∧
    (∃ c s₁, Starts (.brk 0) (small id id) c s₁ ∧ c.t.resident = true) :=
  ⟨meets (by decide +kernel), meets (by decide +kernel), meets (by decide +kernel), meets (by decide +kernel), meets (by decide +kernel),
    meets (by decide +kernel)⟩

theorem witness_UserModePrivilege :
    (∃ t g, Spec.Present (small (fun t => { t with supervisor := false }) id) t g ∧ t.supervisor = false ∧
      Spec.supervisorInstr (.tflush 4 5 1) = true ∧ Instr.wf t.header.ever (.tflush 4 5 1) = true ∧ hintsAccepted g.hints (.tflush 4 5 1) = true ∧
      g.rep = none) ∧
    (∃ t g, Spec.Ready (.halt 7) (small id id) t g ∧ t.supervisor = true ∧ Spec.supervisorInstr (.halt 7) = true) :=
  ⟨⟨_, _, ⟨rfl, rfl, rfl, rfl, rfl, rfl, rfl⟩, by decide +kernel⟩, ready_and (by decide +kernel) (by decide +kernel)⟩

/-- The image area: 2 MiB from 0x200000, mapped for supervisors to the home pages from 1024 of cluster 0. -/
def withImages (s : State) : State :=
  { s with dram := writeBytes (mapped [] s).dram (homeAddr 0 3 8) (natBytes 8 (1024 * 2 ^ 32 + 2 ^ 31 + 2 ^ 29 + 7)) }
/-- A saved team without groups, desk or registers, whose image lies at 0x200000; `q` waits in the resume queue. -/
def suspended (q : List Nat) : State :=
  let h := { loadHeader with gmax := 0, desk := 0, tslot := 0, atile := 0, nbar := 0, nque := 0 }
  let t : Team := { Team.start 2 0 2 0 1 0 true 1 0x11000 0 h with bankKey := 1 }
  let s := withImages (small id (regs 4 0x200000 5 0))
  { s with
    saved := [⟨0x200000, t, 0, [], false, 0, false, [], [], [], []⟩]
    dram := writeBytes s.dram (homeAddr 0 1024 0) (imageHeader t false 0 1)
    parts := [(0, { Partition.blank with resumeQ := q })] }
/-- TRESUME finds the image. -/
def finds (c : Ctx) (s : State) : Bool :=
  c.t.part = 0 && (c.s 4).toNat % 4096 = 0 && groupSettled s c && (match findImages c s (c.s 4).toNat with
    | .images l _ => l.length = 1
    | _ => false)

theorem suspended_finds : (goes (.tresume 3 4 0) (suspended []) finds && goes (.tresume 3 4 1) (suspended []) finds &&
    goes (.tresume 3 4 0) (suspended (List.replicate Config.resumeDepth 0)) finds) = true := by decide +kernel

/-- The group waits in a SPLIT of core 0 for its frames. -/
def splitting (g : Group) : Group := { g with wait := some (.split 0) }
/-- Frame 192 of core 767 has a page of a table that the device does not hold. -/
def committingFrame (s : State) : State :=
  modCore s 767 (fun c => { c with nears := [(192, { Frame.blank with state := .moving })] })

theorem witness_PrivilegedInstructions :
    (∃ c s₁, Starts (.csrr 3 4 0x013) (small id (regs 4 0x80C0 5 0)) c s₁ ∧ (csrTarget s₁ c (c.s 4) matches .error 5) = true) ∧
    (∃ c s₁, Starts (.csrr 3 4 0x013) (small id (regs 4 0x83BF 5 0)) c s₁ ∧ (csrTarget s₁ c (c.s 4) matches .ok 767) = true) ∧
    (∃ c s₁, Starts (.csrw 3 4 0x206) (small id id) c s₁ ∧ ¬(0x206 : BitVec 12).toNat < 0x200) ∧
    (∃ c s₁, Starts (.tresume 3 4 0) (small id (regs 4 0x800 5 0)) c s₁ ∧ (c.s 4).toNat % 4096 ≠ 0) ∧
    (∃ c s₁, Starts (.tresume 3 4 0) (withImages (small id (regs 4 0x201000 5 0))) c s₁ ∧ (c.s 4).toNat % 4096 = 0 ∧ groupSettled s₁ c = true ∧
      (findImages c s₁ (c.s 4).toNat matches .nothing) = true) ∧
    (∃ c s₁, Starts (.tresume 3 4 0) (suspended (List.replicate Config.resumeDepth 0)) c s₁ ∧ finds c s₁ = true ∧
      Config.resumeDepth ≤ (partOf s₁ 0).resumeQ.length) ∧
    (∃ c s₁, Starts (.tresume 3 4 0) (suspended []) c s₁ ∧ finds c s₁ = true ∧ (partOf s₁ 0).resumeQ.length < Config.resumeDepth) ∧
    (∃ c s₁, Starts (.tresume 3 4 1) (suspended []) c s₁ ∧ finds c s₁ = true) ∧
    (∃ c s₁, Starts (.tflush 4 5 0) (small id (regs 4 0x100000000000000 5 0)) c s₁ ∧ c.t.supervisor = true ∧ 2 ^ 56 ≤ (c.s 4).toNat) ∧
    (∃ c s₁, Starts (.tflush 4 5 0) (small (fun t => { t with supervisor := false }) (regs 4 0xFFFFFFFFFFFF 5 0)) c s₁ ∧
      c.t.supervisor = false ∧ (c.s 4).toNat < 2 ^ 48) ∧
    (∃ c s₁, Starts (.tflush 4 5 1) (small id (regs 4 0xFFFFFFFFFFFFFF 5 0)) c s₁ ∧ c.t.supervisor = true ∧ (c.s 4).toNat < 2 ^ 56) ∧
    (∃ c s₁, Starts (.split 3 4) (small id (regs 4 0xD0100BF 5 0)) c s₁ ∧ 12 < bitsOf (c.s 4).toNat 27 24) ∧
    (∃ c s₁, Starts (.split 3 4) (small id (regs 4 0xC120000 5 0)) c s₁ ∧ teamsOn s₁ 0 ≠ []) ∧
    (∃ c s₁, Starts (.split 3 4) (small id (regs 4 0xC1203BF 5 0)) c s₁ ∧ teamsOn s₁ 767 = [] ∧ (coreOf s₁ 767).ingress = 0 ∧
      inPartition s₁ c.t.part 3 = true ∧ (∀ p ∈ (coreOf s₁ 767).nears, p.1 < 16 * 12)) ∧
    (∃ c s₁, Starts (.split 3 4) (modCore (small id (fun g => regs 4 0xC120000 5 0 (splitting g))) 0 (fun x => { x with closed := true })) c s₁ ∧
      c.g.wait = some (.split 0) ∧ (coreOf s₁ 0).nears = []) ∧
    (∃ c s₁, Starts (.split 3 4) (committingFrame (small id (regs 4 0xC1203BF 5 0))) c s₁ ∧ teamsOn s₁ 767 = [] ∧ (coreOf s₁ 767).ingress = 0 ∧
      (∃ p ∈ (coreOf (((coreOf s₁ 767).nears.filter (fun p => 16 * 12 ≤ p.1)).foldl (fun s p => evictForSplit s c.t.part 767 p.1) s₁) 767).nears,
        16 * 12 ≤ p.1 ∧ p.2.state ≠ .free ∧ p.2.state ≠ .quarantined)) ∧
    (∃ c s₁, Starts (.halt 0xFFFF) (small id id) c s₁ ∧ c.t.resident = true) := by
  have h := suspended_finds
  simp only [Bool.and_eq_true] at h
  obtain ⟨⟨h1, h2⟩, h3⟩ := h
  have room : ∃ c s₁, Starts (.tresume 3 4 0) (suspended []) c s₁ ∧ finds c s₁ = true ∧ (partOf s₁ 0).resumeQ.length < Config.resumeDepth := by
    obtain ⟨c, s₁, ⟨s₀, hs⟩, hp⟩ := starts_of_goes h1
    refine ⟨c, s₁, ⟨s₀, hs⟩, hp, ?_⟩
    rw [partOf, (start_go_keeps hs).2.1]
    exact Nat.succ_pos _
  have full : ∃ c s₁, Starts (.tresume 3 4 0) (suspended (List.replicate Config.resumeDepth 0)) c s₁ ∧ finds c s₁ = true ∧
      Config.resumeDepth ≤ (partOf s₁ 0).resumeQ.length := by
    obtain ⟨c, s₁, ⟨s₀, hs⟩, hp⟩ := starts_of_goes h3
    refine ⟨c, s₁, ⟨s₀, hs⟩, hp, ?_⟩
    rw [partOf, (start_go_keeps hs).2.1]
    show Config.resumeDepth ≤ (List.replicate Config.resumeDepth 0).length
    simp
  exact ⟨meets (by decide +kernel), meets (by decide +kernel), meets (by decide +kernel), meets (by decide +kernel), meets (by decide +kernel),
    full, room, starts_of_goes h2, meets (by decide +kernel), meets (by decide +kernel), meets (by decide +kernel),
    meets (by decide +kernel), meets (by decide +kernel), meets (by decide +kernel), meets (by decide +kernel), meets (by decide +kernel),
    meets (by decide +kernel)⟩

def atCycle (n : Nat) (s : State) : State := { s with clusters := [(0, { Cluster.blank with cycle := n })] }
def someBin : Bin := ⟨1, false, 0x40, 0, 0, 0, 0, 0, [⟨7, [1, 2, 3, 4]⟩]⟩
def withCore (f : Core → Core) (s : State) : State := modCore s 0 f
/-- A second team on core 0, whose group 0 waits in the pending queue and is ready since the cycle before `n`. -/
def pending (n : Nat) (s : State) : State :=
  { withCore (fun c => { c with pend := [(2, 0, n)] }) s with teams := s.teams ++ [(2, loadTeam 2)] }
def waiting (w : Wait) (g : Group) : Group := { g with wait := some w }
/-- Grids 1 and 2 of one class that fit on one core, the second with a team to place, and a time slice of 1,024 cycles. -/
def sliced (s : State) : State :=
  { s with
    grids := [(1, { someGrid with id := 1, rec_ := parseRecord (recordBytes 1 0 0), placed := 1 }),
              (2, { someGrid with rec_ := parseRecord (recordBytes 1 0 0) })]
    parts := [(0, { Partition.blank with tslice := 1 })] }

theorem witness_TimerEvents :
    (let s := atCycle 4096 (withCore (fun c => { c with bins := [(63, someBin)] }) (small id id));
      (nmGet 63 (coreOf s 0).bins = some someBin ∧ someBin.start + (coreOf s 0).binTimeout = cycleAt s 0)) ∧
    (let s := atCycle 4095 (withCore (fun c => { c with bins := [(63, someBin)] }) (small id id));
      (nmGet 63 (coreOf s 0).bins = some someBin ∧ someBin.start + (coreOf s 0).binTimeout = cycleAt s 0 + 1)) ∧
    (let s := withCore (fun c => { c with launchedBins := [(63, someBin)] }) (small id id);
      (coreOf s 0).launchedBins = [(63, someBin)] ∧ binCanStart s 0 someBin = true ∧
        (teamOf s 1).bind (fun t => nmFree t.groups t.header.gmax) = some 1) ∧
    (∃ t g, teamOf (atCycle (2 ^ 32) (small id id)) 1 = some t ∧ t.groups = (0, g) :: [] ∧ t.resident = true ∧ t.stopping = false ∧
      t.lastRetire + t.interval = cycleAt (atCycle (2 ^ 32) (small id id)) t.core) ∧
    (let s := pending 1 (small id (waiting .xwait)); readyPending s 0 = some (2, 0, 1) ∧ heldActive s 0 = [((1, 0), 0)]) ∧
    (let s := atCycle (2 ^ 16) (pending 1 (small id id)); readyPending s 0 = some (2, 0, 1) ∧ heldActive s 0 = [] ∧
      (coreOf s 0).active = (1, 0) :: [] ∧ (groupOf s 1 0).any (fun g => decide (g.hints.first = none ∧ g.wait = none)) = true ∧
      1 + 2 ^ 16 = cycleAt s 0 + 1) ∧
    (let s := atCycle (2 ^ 16 - 1) (pending 1 (small id id)); readyPending s 0 = some (2, 0, 1) ∧ heldActive s 0 = [] ∧
      (coreOf s 0).active = (1, 0) :: [] ∧ (groupOf s 1 0).isSome = true ∧ cycleAt s 0 + 1 < 1 + 2 ^ 16) ∧
    (let s := pending 1 (small id (waiting (.release 3))); readyPending s 0 = some (2, 0, 1) ∧ heldActive s 0 = [] ∧
      (groupOf s 1 0).bind (·.wait) = some (.release 3)) ∧
    (let s := pending 1 (small id (waiting (.split 3))); readyPending s 0 = some (2, 0, 1) ∧ heldActive s 0 = [] ∧
      (groupOf s 1 0).bind (·.wait) = some (.split 3)) ∧
    (let s := atCycle 9 (small id (waiting (.sleep 9))); (groupOf s 1 0).bind (·.wait) = some (.sleep 9) ∧ 9 ≤ cycleAt s 0) ∧
    (let s := atCycle 15 (small id (fun g => { g with notBefore := 15 })); (groupOf s 1 0).any (fun g => decide (g.wait = none ∧ g.notBefore = cycleAt s 0)) = true) ∧
    (let s := atCycle 1024 (sliced (small id id)); ∃ t g w, teamOf s 1 = some t ∧ nmGet t.grid s.grids = some g ∧ (partOf s t.part).tslice ≠ 0 ∧
      g.rec_.cls ≠ 0 ∧ together g.rec_ g.header = false ∧ t.placedAt + 1024 * (partOf s t.part).tslice = cycleAt s t.core ∧ (2, w) ∈ s.grids ∧
      w.part = t.part ∧ 1 ≤ w.rec_.cls ∧ w.rec_.cls ≤ g.rec_.cls ∧ couldPlace s t w = true) :=
  ⟨by decide +kernel, by decide +kernel, by decide +kernel, ⟨_, _, rfl, rfl, by decide +kernel⟩, by decide +kernel, by decide +kernel,
    by decide +kernel, by decide +kernel, by decide +kernel, by decide +kernel, by decide +kernel, ⟨_, _, { someGrid with rec_ := parseRecord (recordBytes 1 0 0) }, rfl, rfl, by decide +kernel⟩⟩

/-- A request of the group for a word. -/
def someReq (acc : Acc) (dest : Dest) (pl : Place) : MemReq :=
  ⟨1, 0, 0, 0, 0, false, 0x10FFC, 4, acc, dest, .group 1 0 0, pl, 0, 0, false, true, 0, 0x10000, 0, 0, Fences.none⟩
def inFlight (l : List Msg) (s : State) : State := { s with flight := (List.range l.length).map (fun k => (k + 1, l.getD k (.gone 0 0 0 0))) }
/-- Frame 1 of core 0 is resident with every sector of home page 512. -/
def residentFrame (repl : List (Nat × Nat)) (s : State) : State :=
  withCore (fun c => { c with nears := [(1, { Frame.blank with state := .resident, valid := BitVec.allOnes 256, hpage := 512, repl := repl })] }) s
def someDelivery : Delivery := ⟨2, 0, 1, 1, 0, 0xFFFC, [1, 2, 3, 4], 0, true, none, .group 2 0 0, true, 0, Fences.none, none⟩
/-- Frame 1 of core 0 is filling from a source that is not sealed. -/
def filling : State := withCore (fun c => { c with nears := [(1, { Frame.blank with state := .filling })] }) (small id id)
/-- The messages behind an older store of the group to the last word of page 0x10. -/
def behind (l : List Msg) (s : State) : State := inFlight (.mem (someReq (.write [1, 2, 3, 4]) .none (.home 0 512)) :: l) s
/-- Groups 0 and 1 share register 48 (R46). -/
def paired (t : Team) : Team := { t with header := { t.header with npair := 1, pairs := [1 * 32 + 0] } }
def shares (s : State) : Bool := !(sharedNames s 1 0 [.v 48]).isEmpty
def performs (s : State) (r : MemReq) : Bool := perform s r matches .done _ _

theorem witness_MessageEvents :
    (let s := inFlight [.result (someReq .read (.scalar 3 4) (.home 0 512)) [1, 2, 3, 4]] (small id id);
      nmGet 1 s.flight = some (.result (someReq .read (.scalar 3 4) (.home 0 512)) [1, 2, 3, 4]) ∧
        sharedNames s 1 0 (destRegs (.scalar 3 4)) = []) ∧
    (let s := inFlight [.result (someReq .read (.lane 48 0 4) (.home 0 512)) [1, 2, 3, 4]] (small paired (fun g => { g with launched := true }));
      sharedNames s 1 0 (destRegs (.lane 48 0 4)) ≠ []) ∧
    (let r := someReq .read (.scalar 3 4) (.near 0 1); let s := residentFrame [] (inFlight [.sector r 255] (small id id));
      nmGet 1 s.flight = some (.sector r 255) ∧ heldBack s r 1 = false) ∧
    (let r := someReq .read (.scalar 3 4) (.near 0 1); heldBack (residentFrame [] (behind [.sector r 255] (small id id))) r 2 = true) ∧
    (let r := someReq (.write [1, 2, 3, 4]) .none (.near 0 1); let s := residentFrame [] (inFlight [.mem r] (small id id));
      isFrame r.place = true ∧ heldBack s r 1 = false ∧ missing (dropMsg s 1) r = none ∧ isStrictCommit (dropMsg s 1) r.place r = false ∧
        performs (dropMsg s 1) r = true) ∧
    (let r := someReq .read (.scalar 3 4) (.near 0 1); let s := inFlight [.mem r] filling;
      isFrame r.place = true ∧ heldBack s r 1 = false ∧ missing (dropMsg s 1) r = none ∧ isStrictCommit (dropMsg s 1) r.place r = false ∧
        (perform (dropMsg s 1) r matches .waits) = true) ∧
    (let r := someReq .read (.scalar 3 4) (.home 0 512); let s := inFlight [.mem r] (small id id);
      isFrame r.place = false ∧ heldBack s r 1 = false ∧ missing (dropMsg s 1) r = none ∧ isStrictCommit (dropMsg s 1) r.place r = false ∧
        performs (dropMsg s 1) r = true) ∧
    (let r := someReq .read (.scalar 3 4) (.home 0 512); isFrame r.place = false ∧ heldBack (behind [.mem r] (small id id)) r 2 = true) ∧
    (let r := someReq .read (.scalar 3 4) (.near 0 1); let s := mapped [] (inFlight [.bounced r] (small id id));
      heldBack s r 1 = false ∧ ((retranslate (dropMsg s 1) r).1 matches .ok _) = true) ∧
    (let r := someReq .read (.scalar 3 4) (.near 0 1); let s := inFlight [.bounced r] (small id id);
      heldBack s r 1 = false ∧ ((retranslate (dropMsg s 1) r).1 matches .error _) = true) ∧
    (let r := someReq (.write [1, 2, 3, 4]) .none (.near 0 1);
      let s := inFlight [.commit r 0xFFC [(5, 2)] true, .lock 1 5 2, .update 1 5 2, .lockAck 1 5 2] (residentFrame [(5, 2)] (small id id));
      nmGet 2 s.flight = some (.lock 1 5 2) ∧ nmGet 3 s.flight = some (.update 1 5 2) ∧ nmGet 4 s.flight = some (.lockAck 1 5 2) ∧
        nmGet 1 (dropMsg s 4).flight = some (.commit r 0xFFC [(5, 2)] true) ∧ [(5, 2)].filter (fun q => q ≠ (5, 2)) = []) ∧
    (let r := someReq (.write [1, 2, 3, 4]) .none (.near 0 1);
      let s := inFlight [.commit r 0xFFC [(5, 2)] false, .lockAck 1 5 2] (residentFrame [(5, 2)] (small id id));
      nmGet 1 (dropMsg s 2).flight = some (.commit r 0xFFC [(5, 2)] false)) ∧
    (let r := someReq (.write [1, 2, 3, 4]) .none (.near 0 1);
      let s := inFlight [.commit r 0xFFC [(5, 2), (6, 0)] true, .updateAck 1 5 2] (residentFrame [(5, 2), (6, 0)] (small id id));
      nmGet 1 (dropMsg s 2).flight = some (.commit r 0xFFC [(5, 2), (6, 0)] true) ∧ [(5, 2), (6, 0)].filter (fun q => q ≠ (5, 2)) ≠ []) ∧
    (let s := inFlight [.close (.group 1 0 0) (.core 0) 2 7, .answer (.group 1 0 0) (.core 0) 7] { small id id with counts := [(.core 0, .group 1 0 0, 2)] };
      nmGet 1 s.flight = some (.close (.group 1 0 0) (.core 0) 2 7) ∧ countAt s (.core 0) (.group 1 0 0) = 2 ∧
        nmGet 2 s.flight = some (.answer (.group 1 0 0) (.core 0) 7)) ∧
    (let s := inFlight [.close (.group 1 0 0) (.core 0) 3 7] { small id id with counts := [(.core 0, .group 1 0 0, 2)] };
      countAt s (.core 0) (.group 1 0 0) ≠ 3) ∧
    (let s := inFlight [.delivery someDelivery false, .delivery someDelivery true] (small (ganged 1 id) id);
      nmGet 1 s.flight = some (.delivery someDelivery false) ∧ nmGet 2 s.flight = some (.delivery someDelivery true) ∧
        deliveryHeld s 1 someDelivery = false ∧ deliveryHeld s 2 someDelivery = true ∧
        someDelivery.gang = true ∧ teamOn s someDelivery.grid someDelivery.dst = some 1) ∧
    (let s := inFlight [.delivery someDelivery true] (small (ganged 1 id) id);
      deliveryHeld s 1 someDelivery = false ∧ (teamOf s 1).any (fun t => t.drawerBlocks someDelivery = false) = true) ∧
    (let s := small (fun t => { t with drawer := [⟨0xFF80, 1, 3, 1⟩] }) id; (teamOf s 1).any (fun t => t.drawerBlocks someDelivery) = true) ∧
    (behindRefused (inFlight [.delivery someDelivery true, .delivery { someDelivery with off := 0xFFFF, bytes := [9] } true] (small (ganged 1 id) id)) 2
      { someDelivery with off := 0xFFFF, bytes := [9] } = true) ∧
    (let d (tag : Word) : Delivery := { someDelivery with gang := false, dst := 0, tag := some tag }
      let s (tag : Word) := inFlight [.delivery (d tag) false] (small (fun t => { t with tag := 3 }) id)
      deliveryHeld (s 3) 1 (d 3) = false ∧ deliveryHeld (s 2) 1 (d 2) = false ∧ teamOn (s 3) (d 3).grid (d 3).dst = some 1 ∧ (d 3).cmd = none ∧
        (teamOf (s 3) 1).any (fun t => t.tag = 3) = true) ∧
    (let s := inFlight [.rload 1 0 1 0x40000 4 (.scalar 3 4) 0 Fences.none, .gone 1 0 0x40000 1, .xclose 1 1 0 0 2, .recall 0 0 0x10 (.home 0 512),
        .placeFar 0 0 0x10, .peerAck 1 0 0 11 0x11000 1, .zread 1 0 7, .gone 1 9 0x40000 1] (small id id);
      (s.flight.map (·.1) = [1, 2, 3, 4, 5, 6, 7, 8] ∧ (teamOf s 1).isSome = true ∧ heldBackBy s (remoteRead 1 0 1 0x40000 4 Fences.none) 1 = false ∧
        (groupOf s 1 0).isSome = true ∧ groupOf s 1 9 = none ∧ teamOn s 1 1 = none ∧ teamOn s 1 0 = some 1 ∧ hostPending s 7 = false)) ∧
    (heldBackBy (inFlight [.delivery { someDelivery with team := 1, src := 0, dst := 1, gang := false } false,
      .rload 1 0 1 0x4FFFC 4 (.scalar 3 4) 0 Fences.none] (small id id)) (remoteRead 1 0 1 0x4FFFC 4 Fences.none) 2 = true) ∧
    (hostPending (inFlight [.mem (someReq (.write [1]) .none (.host 0)), .zread 1 0 7] (small id id)) 2 = true) ∧
    ((teamOf (small id id) 1).any (fun t => t.marks.isEmpty) = true ∧ takenBack (small id id) 1 0 5 = false) ∧
    (let r := someReq .read (.scalar 3 4) (.near 0 1); let s := walkHeld (inFlight [.bounced { r with va := 0x11000 }] (small id id));
      heldBack s { r with va := 0x11000 } 1 = false ∧ ((retranslate (dropMsg s 1) { r with va := 0x11000 }).1 matches .error 0) = true) ∧
    (let r := { someReq .read (.scalar 3 4) (.near 0 1) with instr := 77 }; let s := bouncedInCrowd r;
      nmGet 300 s.flight = some (.bounced r) ∧ heldBack s r 300 = false ∧
        (match retranslate (dropMsg s 300) r with
        | (.ok q, s₁) => !entryFree s₁ q
        | _ => false) = true) := by
  refine ⟨?_, ?_, ?_, ?_, ?_, ?_, ?_, ?_, ?_, ?_, ?_, ?_, ?_, ?_, ?_, ?_, ?_, ?_, ?_, ?_, ?_, ?_, ?_, ?_, ?_, ?_⟩ <;> decide +kernel

def somePass : Pass := ⟨0, []⟩
def someCopy (landed : Bool) : Cmd := { someCmd with landed := landed }
def commanded (k : Cmd) : State := small (fun t => { t with cmds := [k] }) id

/-- The team's word is `i`, and its group waits as `g` says. -/
def waitingAt (i : Instr) (f : Team → Team) (g : Group → Group) : State :=
  let s := loadWord State.reset (natBytes 4 ((encode i).getD 0).toNat)
  modTeam s 1 (fun t => { (f t) with groups := t.groups.map (fun p => (p.1, g p.2)) })
/-- The group's next word decodes to `i`, and `p` holds of the state after the fetch. -/
def fetches (s : State) (i : Instr) (p : State → Bool) : Bool :=
  (teamOf s 1).any (fun t => (nmGet 0 t.groups).any (fun g => match fetchInstr s t g with
    | (.ok j, s₁) => i = j && p s₁
    | _ => false))

theorem witness_UnitEvents :
    ((coreOf (withCore (fun c => { c with closedPasses := [somePass] }) (small id id)) 0).closedPasses = somePass :: [] ∧
      (coreOf (withCore (fun c => { c with closedPasses := [somePass] }) (small id id)) 0).gated = []) ∧
    (let s := atCycle 16 (withCore (fun c => { c with openPasses := [somePass, ⟨1, []⟩] }) (small id id));
      (coreOf s 0).openPasses = somePass :: [⟨1, []⟩] ∧ somePass.opened + 16 = cycleAt s 0 ∧ cycleAt s 0 < 1 + 16 ∧ (⟨1, []⟩ : Pass).full = false) ∧
    (let s := atCycle 4096 (small id id); (coreOf s 0).marrIdle ≠ 0 ∧ nmGetD (coreOf s 0).lastArray 3 0 + (coreOf s 0).marrIdle = cycleAt s 0 ∧
      (coreOf s 0).openPasses = [] ∧ (coreOf s 0).closedPasses = [] ∧ 3 ∉ (coreOf s 0).gated) ∧
    (let s (w : NMap Nat) : State := atCycle 300 (withCore (fun c => { c with closedPasses := [somePass], gated := [3], waking := w }) (small id id));
      (coreOf (s []) 0).closedPasses ≠ [] ∧ 3 ∈ (coreOf (s []) 0).gated ∧ nmGet 3 (coreOf (s []) 0).waking = none ∧
        nmGet 3 (coreOf (s [(3, 300)]) 0).waking = some 300 ∧ cycleAt (s [(3, 300)]) 0 = 300 ∧ nmGet 3 (coreOf (s [(3, 301)]) 0).waking = some 301) ∧
    (let o : PredOp := { somePred with id := 7 }; let s := withCore (fun c => { c with preds := [o] }) (small id id);
      s.cores.findSome? (fun p => (p.2.preds.find? (fun d => d.id = 7)).map (fun d => (p.1, d))) = some (0, o)) ∧
    (let s := draining (small id id); (s.cores.findSome? (fun p => (p.2.drains.find? (fun d => d.id = 9)).map (fun d => (p.1, d)))).any
      (fun x => x.2.dst ≠ 6) = true) ∧
    (let d : DrainOp := ⟨9, 1, 0, 191, 6, 0, 48, [], [], 0⟩;
      let s := withCore (fun c => { c with drains := [d] }) (small (fun t => { paired t with full := [(0, 0)] }) (fun g => { g with launched := true }));
      s.cores.findSome? (fun p => (p.2.drains.find? (fun d => d.id = 9)).map (fun d => (p.1, d))) = some (0, d) ∧
        resultBlocked s 1 0 ((List.range 4).map (fun k => RegName.v (48 + k))) = true) ∧
    (∃ t, teamOf (commanded (someCopy false)) 1 = some t ∧ t.cmd 0 1 = some (someCopy false) ∧ t.resident = true) ∧
    (∃ t, teamOf (commanded (someCopy true)) 1 = some t ∧ t.cmd 0 1 = some (someCopy true) ∧ t.resident = true ∧ (someCopy true).sent = [] ∧
      (someCopy true).failed = none ∧ (someCopy true).stat ≠ 1) ∧
    (∃ t, teamOf (commanded { someCmd with kind := .dcmp }) 1 = some t ∧ t.cmd 0 1 = some { someCmd with kind := .dcmp } ∧ t.resident = true) ∧
    (let x : Coll := ⟨1, 0, [0], [(1, 0, 1)], 1⟩; let s : State := { small id id with colls := [x] };
      x ∈ s.colls ∧ ∀ x ∈ s.colls, x.grid = 1 → x.k = 0 → collComplete s x = false) ∧
    (let x : Coll := ⟨1, 0, [0], [(1, 0, 1)], 1⟩;
      let s : State := { commanded { someCmd with kind := .coll, card := collBytes 1 } with colls := [x], grids := [(1, { someGrid with homes := [(0, 0)] })] };
      s.colls.find? (fun x => x.grid = 1 && x.k = 0 && collComplete s x) = some x) ∧
    (let s := mapped [] (waitingAt (.waita 4 0 0 6 1) id (fun g => regs 4 1 6 0x10FFC (waiting (.waita 0x10FFC) g)));
      fetches s (.waita 4 0 0 6 1) (fun s₁ => goes (.waita 4 0 0 6 1) { s₁ with cur := (1, 0) } (fun c s₂ => waitaSays c s₂ (4, 0, 0, 6, 1) true)) = true) ∧
    (let s := small id (fun g => { waiting (.waita 0) g with pc := 2 ^ 46 });
      (teamOf s 1).any (fun t => (nmGet 0 t.groups).any (fun g => decide ((fetchInstr s t g).1 = .fault 0x04 (2 ^ 46)))) = true) ∧
    (let s := waitingAt (.xwait 4) (ganged 1 (fun x => { x with arrived := true, closes := [(1, 0, 0)] })) (fun g => regs 4 1 6 0 (waiting .xwait g));
      fetches s (.xwait 4) (fun s₁ => goes (.xwait 4) { s₁ with cur := (1, 0) } (fun c _ => decide (c.t.named (c.s 4) = some [1]) && c.t.exch.arrived)) = true) ∧
    ((groupOf (small id id) 1 0).any (fun g => decide (g.wait = none)) = true) :=
  ⟨by decide +kernel, by decide +kernel, by decide +kernel, by decide +kernel, by decide +kernel, by decide +kernel, by decide +kernel,
    ⟨_, rfl, by decide +kernel⟩,
    ⟨_, rfl, by decide +kernel⟩, ⟨_, rfl, by decide +kernel⟩, by decide +kernel, by decide +kernel, by decide +kernel, by decide +kernel, by decide +kernel, by decide +kernel⟩

def moving (m : Move) : State := { residentFrame [] (small id id) with moves := [(7, m)] }

theorem witness_PageEvents :
    (let s := mapped [] (small id id); stashFind s 0 0 (0x11 * 4096) = none ∧ inPool (0x11 * 4096) = false ∧
      (match walkDescriptor s (partOfCluster s.layout 0) 0 with
        | (.ok d, s₁) => ((walkRoot true s₁ 0 0 d (0x11 * 4096)).1 matches .leaf _ _)
        | _ => false) = true) ∧
    ((someMove false false []).sealed = false ∧ (someMove false false []).rewritten = true ∧
      nmGet 7 (moving (someMove false false [])).moves = some (someMove false false [])) ∧
    (nmGet 7 (moving (someMove true false [])).moves = some (someMove true false []) ∧ (someMove true false []).sealed = true) ∧
    (let x : Nat × Bool × Bool × Memory := (255, true, false, []); (someMove true false [x]).sectors.find? (·.1 = 255) = some x ∧
      isFrame (someMove true false [x]).dst = true ∧ (someMove true false [x]).resent = 0 ∧ (someMove true false [x]).sectors ≠ []) ∧
    (let x : Nat × Bool × Bool × Memory := (255, true, true, []); let m := { someMove true true [x] with resent := 1 };
      m.sectors.find? (·.1 = 255) = some x ∧ isFrame m.dst = true ∧ m.notice = true ∧ m.resent - 1 = 0) ∧
    ((small id id).teams.find? (fun t => t.2.resident && t.2.core = 0 && t.2.part = 0 && t.2.aspace = 0)).isSome = true ∧
    (let s (n : Nat) : State := mapped [] (withCore (fun x => { x with touches := [(0x10, n)] }) (small id id));
      (leafNow (s 16) 0 0 (0x10 * 4096)).any (fun l => decide (l.place = .home 0 512)) = true ∧
      (clusterOf (s 16) (clusterOfCore 0)).touchThresh ≤ nmGetD (coreOf (s 16) 0).touches (0 * 2 ^ 36 + 0x10) 0 ∧
      nmGetD (coreOf (s 15) 0).touches (0 * 2 ^ 36 + 0x10) 0 < (clusterOf (s 15) (clusterOfCore 0)).touchThresh) ∧
    ((leafNow (external (small id id)) 0 0 (0x11 * 4096)).any (fun l => l.place = .ext 0 && ownedPage (external (small id id)) 0 0 (0x11 * 4096) = none) = true ∧
      (leafNow (owned (small id id)) 0 0 (0x11 * 4096)).any (fun l => l.place = .ext 0 && ownedPage (owned (small id id)) 0 0 (0x11 * 4096) = some 0) = true) ∧
    (let s (c : Nat) : State := mapped [] (modCluster (small id id) 0 (fun x => { x with wanted := [(512, c)] }));
      ((s 0).teams.find? (fun t => t.2.resident && t.2.core = 0 && t.2.aspace = 0)).isSome = true ∧
      (leafNow (s 0) 0 0 (0x10 * 4096)).any (fun l => decide (l.place = .home 0 512)) = true ∧
      nmGet 512 (clusterOf (s 0) 0).wanted = some (clusterOfCore 0) ∧ nmGet 512 (clusterOf (s 3) 0).wanted = some 3 ∧ inPartition (s 3) 0 3 = true) ∧
    (let r := someReq .read (.scalar 3 4) (.home 0 512);
      let s := atCycle (2 ^ 20) (inFlight [.bounced r, .parked r 7, .mem { r with core := 191 + 1 }, .mem { r with core := Config.outsideAgent }] (small id id));
      (clusterOf s 0).lastSweep + 2 ^ 20 = (clusterOf s 0).cycle ∧
      s.flight.all (fun m => (m.2 matches .bounced _) || (m.2 matches .parked _ _) || m.2.req.any (fun q => q.foreign || clusterOfCore q.core != 0)) = true) ∧
    ((someMove true false []).sealed = true ∧ (someMove true false []).notice = false ∧ (someMove true false []).sectors = []) ∧
    (isFrame (someMove true true []).dst = true ∧ (someMove true true []).notice = true ∧ (someMove true true []).sectors = []) := by
  refine ⟨?_, ?_, ?_, ?_, ?_, ?_, ?_, ?_, ?_, ?_, ?_, ?_⟩ <;> decide +kernel

theorem witness_DispatcherEvents :
    (partOf (modPart State.reset 3 (fun p => { p with halted := true })) 3).halted = true ∧
    (nmGet 2 ({ small id id with grids := [(2, { someGrid with finished := true })] } : State).grids = some { someGrid with finished := true } ∧
      gridSettled ({ small id id with grids := [(2, { someGrid with finished := true })] } : State) { someGrid with finished := true } = true) ∧
    (nmGet 2 ({ small id id with grids := [(2, someGrid)] } : State).grids = some someGrid ∧ someGrid.finished = false) ∧
    (∃ t, teamOf (small id id) 1 = some t ∧ t.stopping = false) ∧
    (let s := small (fun t => { t with stopping := true, bankKey := 1, saveWhy := 4 }) id;
      ∃ t, teamOf s 1 = some t ∧ t.stopping = true ∧ t.resident = true ∧ (partOf s t.part).halted = false ∧ t.gang = false ∧
        (teamOf (finishTeam (stopTeam s 1 4) 1) 1).any (fun t₁ => quiet (finishTeam (stopTeam s 1 4) 1) t₁ && t₁.cmds.isEmpty && t₁.saveWhy ≠ 2) = true) :=
  ⟨by decide +kernel, by decide +kernel, by decide +kernel, ⟨_, rfl, by decide +kernel⟩, ⟨_, rfl, by decide +kernel⟩⟩

/-- The host's link is up after the boot. -/
def hosted (s : State) : State := { s with mgmt := { s.mgmt with stage := 7, ready := true } }

theorem witness_HostEvents :
    (hostIo (hosted State.reset) = true ∧ partClusters (hosted State.reset).layout 0 ≠ [] ∧ 63 + ([1] : List Byte).length = 64 ∧
      queued (hosted State.reset) 0 true + (partOf (hosted State.reset) 0).submitted.length < 1024 ∧
      (acceptRecord (modPart (hosted State.reset) 0 (fun p => { p with port := writeBytes p.port 63 [1] })) 0
        (readBytes (writeBytes (partOf (hosted State.reset) 0).port 63 [1]) 0 64)).isSome = true) ∧
    (let s := hosted { small id id with grids := (List.range 1024).map (fun k => (k + 2, { someGrid with host := true })) };
      1024 ≤ queued s 0 true + (partOf s 0).submitted.length) ∧
    (let s := hosted (modPart State.reset 0 (fun p => { p with submitted := [[1]] }));
      63 + ([1] : List Byte).length = 64 ∧ queued s 0 true + (partOf s 0).submitted.length < 1024) ∧
    (acceptRecord (walkHeld (small id id)) 0 (recordBytes 0 0 0)).isNone = true ∧
    (hostMemUp (hosted State.reset) = true ∧ (4 * hdmSpan - 16) + 16 ≤ 4 * hdmSpan ∧
      (hdmRead (cuts (4 * hdmSpan - 16) 16) (hosted State.reset)).isSome = true ∧
      (hdmWrite (cuts (4 * hdmSpan - 16) 16) (List.replicate 16 1) (hosted State.reset)).isSome = true) ∧
    (hostIo (hosted (small id id)) = true ∧ ∃ p ∈ (hosted (small id id)).teams, p.2.resident = true) ∧
    ((2 : DWord).toNat % 4 ≠ 3 ∧ ∀ p ∈ (hosted State.reset).teams, p.2.resident = false) ∧
    (wrapInt (((partOf (hosted State.reset) 3).mbxTail : Int) - (0 : DWord).toNat) 64 ≤ 2 ^ (partOf (hosted State.reset) 3).mbxSize ∧
      ¬ wrapInt (((partOf (hosted State.reset) 3).mbxTail : Int) - (1 : DWord).toNat) 64 ≤ 2 ^ (partOf (hosted State.reset) 3).mbxSize) ∧
    (8184 + (List.replicate 8 (0 : Byte)).length ≤ 8192 ∧ (partOf (hosted State.reset) 3).releasing = [] ∧
      (putWindowBytes 8184 (List.replicate 8 0) (partOf (hosted State.reset) 3)).releasing = []) ∧
    255 ∈ (partOf (modPart State.reset 0 (fun p => { p with releasing := [255] })) 0).releasing ∧
    (let s (l : List (Nat × Place)) : State := modPart (owned (small id id)) 0 (fun p => { p with releasing := [0], framed := l });
      stillFramed (s []) 0 0 = false ∧
      (let s₁ := modCore (s [(0, .near 0 1)]) 0 (fun c => { c with nears := [(1, { Frame.blank with state := .filling, vpage := 0x11 })] });
        stillFramed ((framedIn s₁ 0 0).foldl (fun s p => bringHome s 0 p) s₁) 0 0 = true)) ∧
    (∀ m ∈ (hosted State.reset).moves, m.2.part ≠ 3) ∧
    ([0x60, 0x100040, 0x1000F8, 0x100130, 0x1001F8, 0x100210, 0x103FF8, 0x106000, 0x140000, 0x7FFFF8, 0x1000000].all (fun off =>
      off % 8 = 0 && !Spec.bar0Listed off)) = true := by
  refine ⟨?_, ?_, ?_, ?_, ?_, ?_, ?_, ?_, ?_, ?_, ?_, ?_, ?_⟩ <;> decide +kernel

/-- No image can be shown to pass its check, whose key hashes are free values (`Config.keyHash`); the state's side of that clause is met. -/
theorem witness_ManagementEvents :
    (hostIo (hosted State.reset) = true ∧ (hosted State.reset).mgmt.fwBusy = false ∧ popHold (hosted State.reset) = (false, hosted State.reset)) ∧
    (fwSize (readBytes (hosted State.reset).mgmt.staging 0 1024) ≤ 0x800000 ∧
      fwCheck 1 (readBytes (hosted State.reset).mgmt.staging 0 (fwSize (readBytes (hosted State.reset).mgmt.staging 0 1024))) ≠ 0) ∧
    (∀ m, m = ({ Mgmt.blank with recovery := true } : Mgmt) ∨ m = { Mgmt.blank with runningSlots := [(1, 1)] } → m.fwBusy = false ∧
      (m.recovery = true ∨ m.runningSlots.findSome? (fun x => if x.1 = 1 then some x.2 else none) = some 1)) ∧
    (({ State.reset with mgmt := { Mgmt.blank with fwBusy := true } } : State).mgmt.fwBusy = true) ∧
    ((254 : Nat) ≠ 255 ∧ (measurement (hosted State.reset) 254).isNone = true ∧
      (measurement ({ State.reset with mgmt := { Mgmt.blank with measurements := [(1, [7])] } } : State) 1).isSome = true) ∧
    ((3 : Nat) < 4 ∧ (191 : Nat) < 192) ∧
    (∃ p ∈ (small id id).teams, p.2.resident = true ∧ p.2.core = 0) ∧
    ((∀ p ∈ (small id id).teams, p.2.resident = true → p.2.core ≠ 767) ∧ nmGetD (small id id).mgmt.buses 767 [] = [] ∧
      ∀ l ∈ [127, 0], l / 128 = 0) := by
  refine ⟨⟨rfl, rfl, rfl⟩, ?_, (fun m h => by rcases h with rfl | rfl <;> decide +kernel), rfl, ?_, ?_, ?_, ?_⟩ <;> decide +kernel

/-- Gemar port 11 with its link up. -/
def linked (s : State) : State := { s with gemar := nmPut 11 ⟨true, 8, 0, 0⟩ s.gemar }
/-- The device in a stage of its boot. -/
def booting (n : Nat) : State := { State.reset with mgmt := { Mgmt.blank with stage := n } }

theorem witness_LinkAndPowerEvents :
    (gemarOf State.reset 11).up = false ∧
    ((gemarOf (linked State.reset) 11).up = true ∧ inbound (linked State.reset) 11 (2 ^ 47) 1 = false) ∧
    (let s := linked (modPart State.reset 0 (fun p => { p with pinSize := 0x1801 })); inbound s 11 0xFF0 16 = true ∧ (gemarOf s 11).up = true ∧
      (peerRun .read (cuts 0xFF0 16) [] s).isSome = true ∧ (peerRun (.write [1, 2]) (cuts 0xFFE 2) [1, 2] s).isSome = true) ∧
    (nmGet 11 State.reset.gemar = some ⟨false, 8, 0, 0⟩ ∧ nmGet 11 (linked State.reset).gemar = some ⟨true, 8, 0, 0⟩ ∧ (linked State.reset).flight = []) ∧
    (∀ n ∈ List.range 8, (booting n).power = true ∧ (booting n).mgmt.stage = n ∧ (booting n).mgmt.recovery = false ∧ (booting n).mgmt.stuck = false) ∧
    ({ State.reset with power := false } : State).power = false ∧
    ((∀ k, fwPick { Mgmt.blank with slots := [] } k = none)) := by
  refine ⟨?_, ?_, ?_, ?_, ?_, rfl, fun k => ?_⟩
  · decide +kernel
  · decide +kernel
  · decide +kernel
  · exact ⟨rfl, rfl, rfl⟩
  · decide +kernel
  · unfold fwPick; rfl

theorem witness_DecodeEncode : encode (.vadd 7 1 0 63 63 2) = some 0x40F03FFE ∧ Instr.wf 3 (.vadd 7 1 0 63 63 2) = true := by decide +kernel

theorem witness_DecodeSound : ∃ i, decodeWord 3 0x000C4141 = .ok i := ⟨_, rfl⟩

theorem witness_StepKeepsMemoryCanonical : MemoryCanonical State.reset ∧
    (∃ t, step ({ State.reset with agenda := [.tick 1] } : State) = .next t) := ⟨by unfold MemoryCanonical; decide +kernel, _, rfl⟩

/-! ## Results computed by hand from the rules -/

/-- The next state. -/
def after (i : Instr) (s : State) : State :=
  match exec i s with
  | .next t => t
  | _ => s
def scalarAfter (i : Instr) (s : State) (n : Nat) : DWord := ((groupOf (after i s) 1 0).map (fun g => g.sreg n)).getD 0
def laneAfter (i : Instr) (s : State) (n k : Nat) : Word :=
  ((teamOf (after i s) 1).bind (fun t => (nmGet 0 t.groups).map (fun g => lane (t.vreg g n) k))).getD 0
def pcAfter (i : Instr) (s : State) : Nat := ((groupOf (after i s) 1 0).map (·.pc)).getD 0
def faultAfter (i : Instr) (s : State) : Option (Nat × Nat) := (teamOf (after i s) 1).bind (fun t => t.pending.map (fun f => (f.code, f.restart)))
/-- The group with vector registers 1 and 2 of one value in every lane each. -/
def vecs (x y : Word) (t : Team) : Team :=
  (t.setV (Group.start 0 false true 0 0 0 0) 1 (List.replicate 32 x)).setV (Group.start 0 false true 0 0 0 0) 2 (List.replicate 32 y)

theorem test_sadd_narrows : scalarAfter (.sadd 3 4 5 0 1) (small id (regs 4 0x7FFFFFFF 5 1)) 3 = 0xFFFFFFFF80000000 ∧
    scalarAfter (.sadd 3 4 5 1 1) (small id (regs 4 0x7FFFFFFF 5 1)) 3 = 0x80000000 := by decide +kernel
theorem test_sadd_to_zero : scalarAfter (.sadd 0 4 5 0 0) (small id (regs 4 7 5 1)) 0 = 0 ∧
    pcAfter (.sadd 0 4 5 0 0) (small id (regs 4 7 5 1)) = 0x10004 := by decide +kernel
theorem test_sdiv_corners : scalarAfter (.sdiv 3 4 5 0 0) (small id (regs 4 (-7) 5 2)) 3 = -3 ∧
    scalarAfter (.sdiv 3 4 5 0 0) (small id (regs 4 0x8000000000000000 5 (-1))) 3 = 0x8000000000000000 ∧
    scalarAfter (.srem 3 4 5 0 0) (small id (regs 4 (-7) 5 2)) 3 = -1 := by decide +kernel
theorem test_smulh : scalarAfter (.smulh 3 4 5 0 0) (small id (regs 4 (-1) 5 1)) 3 = -1 ∧
    scalarAfter (.smulh 3 4 5 1 0) (small id (regs 4 (-1) 5 2)) 3 = 1 := by decide +kernel
theorem test_sext : scalarAfter (.sext 3 4 0 0) (small id (regs 4 0x180 5 0)) 3 = 0xFFFFFFFFFFFFFF80 := by decide +kernel
theorem test_sget_lane_count : scalarAfter (.mget 3 0) (small id id) 3 = 0xFFFFFFFF := by decide +kernel
theorem test_saddi_sign : scalarAfter (.saddi 3 4 0xFFF) (small id (regs 4 0 5 0)) 3 = 0xFFFFFFFFFFFFFFFF := by decide +kernel
theorem test_himm_replaces : (groupOf (after (.himm 0x123456) (small id id)) 1 0).any (fun g => g.hints.himms = [0x123456]) = true := by decide +kernel
theorem test_bra_back : pcAfter (.bra 0xFFFFFF) (small id id) = 0x10000 ∧ pcAfter (.bnz 4 21) (small id (regs 4 1 5 0)) = 0x10058 := by decide +kernel
theorem test_call_saves : scalarAfter (.call 1) (small id id) 62 = 0x10004 ∧ pcAfter (.call 1) (small id id) = 0x10008 := by decide +kernel
theorem test_jr_misaligned : faultAfter (.jr 4 0) (small id (regs 4 0x10002 5 0)) = some (0x03, 0x10000) := by decide +kernel
theorem test_repeat_body : (groupOf (after .nop (small id (fun g => { g with rep := some ⟨1, 0x10000, 1, 0⟩ }))) 1 0).map (fun g => (g.pc, g.rep)) =
    some (0x10000, some ⟨0, 0x10000, 1, 0⟩) ∧
    (groupOf (after .nop (small id (fun g => { g with rep := some ⟨0, 0x10000, 1, 0⟩ }))) 1 0).map (fun g => (g.pc, g.rep)) =
    some (0x10004, none) := by decide +kernel
theorem test_ifv_narrows : (groupOf (after (.ifv 1 0 4) (small id (fun g => g.setMask 1 0xFF))) 1 0).map (fun g => (g.m0, g.stack)) =
    some (0xFF, [⟨0xFFFFFFFF, 0xFF, 0⟩]) ∧ pcAfter (.ifv 1 0 4) (small id id) = 0x10014 := by decide +kernel
theorem test_endv_empty : faultAfter .endv (small id id) = some (0x09, 0x10000) := by decide +kernel
theorem test_vadd_saturates : laneAfter (.vadd 0 0 3 1 2 1) (small (vecs 0x7FFFFFFF 1) id) 3 31 = 0x7FFFFFFF ∧
    laneAfter (.vadd 0 0 3 1 2 2) (small (vecs 0xFFFFFFFF 1) id) 3 0 = 0xFFFFFFFF ∧
    laneAfter (.vadd 0 0 3 1 2 0) (small (vecs 0xFFFFFFFF 1) id) 3 0 = 0 := by decide +kernel
theorem test_guard_keeps_lanes : laneAfter (.vadd 1 0 1 1 2 0) (small (vecs 5 1) (fun g => g.setMask 1 1)) 1 0 = 6 ∧
    laneAfter (.vadd 1 0 1 1 2 0) (small (vecs 5 1) (fun g => g.setMask 1 1)) 1 1 = 5 := by decide +kernel
theorem test_vslide : laneAfter (.vslide 0 0 3 1 2 0) (small (vecs 0x44332211 0xDDCCBBAA) id) 3 0 = 0x332211DD ∧
    laneAfter (.vslide 0 0 3 1 2 0) (small (vecs 0x44332211 0xDDCCBBAA) id) 3 1 = 0x33221144 := by decide +kernel
/-- R216: lane 1, which is not active, supplies 0 when the operand is a latch, and what it holds when it is a register. -/
theorem test_vrot_inactive_lane :
    (let s := small (vecs 5 0) (fun g => { g.setMask 1 1 with latches := List.replicate 6 (List.replicate 32 7) })
     laneAfter (.vrot 1 0 3 56 1 0) s 3 0 = 0 ∧ laneAfter (.vrot 1 0 3 56 0 0) s 3 0 = 7 ∧ laneAfter (.vrot 1 0 3 1 1 0) s 3 0 = 5) := by
  decide +kernel
theorem test_vred : scalarAfter (.vred 0 3 1 0) (small (vecs 3 0) id) 3 = 96 := by decide +kernel
theorem test_fadd_rounds : laneAfter (.fadd 0 0 3 1 2) (small (vecs 0x3F800000 0x33800000) id) 3 0 = 0x3F800000 ∧
    laneAfter (.fadd 0 0 3 1 2) (small (vecs 0x3F800001 0x33800000) id) 3 0 = 0x3F800002 := by decide +kernel
theorem test_fmul : laneAfter (.fmul 0 0 3 1 2) (small (vecs 0x40400000 0xC0000000) id) 3 0 = 0xC0C00000 := by decide +kernel
theorem test_cvt_to_int : laneAfter (.cvt 0 0 3 1 1 0 1) (small (vecs 0xC0200000 0) id) 3 0 = 0xFFFFFFFE := by decide +kernel
theorem test_vcmp_signed : (groupOf (after (.vcmp 0 2 2 1 2 0) (small (vecs 0xFFFFFFFF 0) id)) 1 0).map (fun g => g.mask 2) = some 0xFFFFFFFF := by
  decide +kernel
theorem test_sst_byte_order : (readByte (after (.sst 4 6 4) (small id (regs 4 0x11223344 6 0x10FFC))).dram (homeAddr 0 512 0xFFC),
    readByte (after (.sst 4 6 4) (small id (regs 4 0x11223344 6 0x10FFC))).dram (homeAddr 0 512 0xFFF)) = (0x44, 0x11) := by decide +kernel
theorem test_sld_extends : scalarAfter (.sld 3 6 0) { small id (regs 4 0 6 0x10FFF) with dram := [(homeAddr 0 512 0xFFF, 0x80)] } 3 = 0x80 ∧
    scalarAfter (.sld 3 6 1) { small id (regs 4 0 6 0x10FFF) with dram := [(homeAddr 0 512 0xFFF, 0x80)] } 3 = 0xFFFFFFFFFFFFFF80 := by decide +kernel
theorem test_misaligned_store : faultAfter (.sst 4 6 4) (small id (regs 4 0 6 0x10FFE)) = some (0x03, 0x10000) := by decide +kernel
theorem test_sts_desk : (teamOf (after (.sts 0 62 62 6 4) (small (fun t => { t with desk := [(0xFFFC, 9)] }) (regs 6 0xFFFC 7 0))) 1).map (·.desk) =
    some [] := by decide +kernel
theorem test_atom_wraps : (applyAcc (.atom .incw false 5 0) [5, 0, 0, 0], applyAcc (.atom .smin false 0xFFFFFFFF 0) [1, 0, 0, 0]) =
    (([5, 0, 0, 0], some [0, 0, 0, 0]), ([1, 0, 0, 0], some [0xFF, 0xFF, 0xFF, 0xFF])) := by decide +kernel
theorem test_baralloc : scalarAfter (.baralloc 3 4) (small id (regs 4 1 5 0)) 3 = 0 ∧
    scalarAfter (.baralloc 3 4) (small (barrier 1 0 []) (regs 4 1 5 0)) 3 = 0x100 := by decide +kernel
theorem test_qgrant_over : faultAfter (.qgrant 4 5) (small (queue 1 0) (regs 4 0 5 4)) = some (0x0C, 0x10000) := by decide +kernel
theorem test_trap : faultAfter (.trap 0x42) (small id id) = some (0x10, 0x10004) ∧ faultAfter (.brk 1) (small id id) = some (0x11, 0x10000) := by
  decide +kernel
theorem test_user_mode : faultAfter (.halt 0) (small (fun t => { t with supervisor := false }) id) = some (0x12, 0x10000) := by decide +kernel
theorem test_csrr_quota : scalarAfter (.csrr 3 0 0x012) (small id id) 3 = 128 := by decide +kernel
theorem test_halt : (partOf (after (.halt 7) (small id id)) 0).haltCode = 7 ∧ (after (.halt 7) (small id id)).msix = [1] := by decide +kernel
theorem test_array_terms : addTerms false 0 (arrayTerm 0 (.fin false 3 (-1)) (.fin false 2 0) :: List.replicate 63 (.fin false 0 0)) = 0x100400000 ∧
    addTerms false 0 (List.replicate 64 (arrayTerm 2 (.fin false 1 0) (.fin true 1 0))) = 0x103800000 ∧
    addTerms true 5 (arrayTerm 0 (intVal (-3)) (intVal 4) :: List.replicate 63 (.fin false 0 0)) = 0xFFFFFFF9 := by decide +kernel
theorem test_orientation : (solvedSign .gor2 false (([[0, 0], [1, 0], [0, 1]] : List (List Int)).map (fun p => p.map (fun x => (intVal x).toDya))) none).1 = 1 ∧
    (solvedSign .gor2 false (([[0, 0], [2, 2], [1, 1]] : List (List Int)).map (fun p => p.map (fun x => (intVal x).toDya))) none).1 = 0 := by decide +kernel

/-! ## The step of a placed word (log entry 12) -/

theorem test_step_runs_nop : (match step (placed 0xE3000000) with
    | .next s => (groupOf s 1 0).map (·.pc)
    | _ => none) = some 0x10004 := by decide +kernel
theorem test_step_refuses_word : (match step (placed 0x1F000000) with
    | .next s => (teamOf s 1).bind (fun t => t.pending.map (·.code))
    | _ => none) = some 0x01 := by decide +kernel
theorem test_table_word : decodeTableWord 32 0xE3000000 = some .nop ∧ decodeTableWord 32 0x1F000000 = none := by decide +kernel

end Sys2Proof.Tests
end

