-- ==== Sys2Proof/Proofs/MaskStack.lean ====
section
/-! PROOFS. The mask stack at its two bounds (R43): a push onto 16 entries and an ELSEV or ENDV without an entry. -/

namespace Sys2Proof.Proofs

open Machine

variable {s s₁ : State} {c : Ctx}

/-- An instruction that has started and whose effect is a fault without address raises that fault (R179). -/
theorem raises_of_bad {i : Instr} {body : Ctx → State → Eff} {code : Nat} {lanes : Mask} (h : Starts i s c s₁)
    (he : exec i s = issue i body s) (hb : body c s₁ = .bad code lanes) : Spec.Raises i s c code :=
  let ⟨_, hgo⟩ := h
  ⟨0, lanes, 0, 0, faults_of_fault hgo he hb⟩

/-- The first check of IFV is for room on the stack (R43, R202). -/
theorem ifv_raises_of_full {m : BitVec 3} {neg : BitVec 1} {off : BitVec 20} (h : Starts (.ifv m neg off) s c s₁)
    (hfull : 16 ≤ c.g.stack.length) : Spec.Raises (.ifv m neg off) s c 0x09 :=
  raises_of_bad h rfl (if_pos hfull)

theorem elsev_raises_of_empty {off : BitVec 20} (h : Starts (.elsev off) s c s₁) (hempty : c.g.stack = []) :
    Spec.Raises (.elsev off) s c 0x09 :=
  raises_of_bad h rfl (lanes := c.g.m0) (by simp only [hempty])

theorem endv_raises_of_empty (h : Starts .endv s c s₁) (hempty : c.g.stack = []) : Spec.Raises .endv s c 0x09 :=
  raises_of_bad h rfl (lanes := c.g.m0) (by simp only [hempty])

/-- Settles O6: each of the three instructions tests the stack that it started with before it changes anything. -/
theorem maskStackFaults : Obligations.MaskStackFaults := by
  refine ⟨fun _ _ _ _ _ _ h hfull => ifv_raises_of_full h hfull, fun i s c s₁ hi h hempty => ?_⟩
  obtain rfl | ⟨off, rfl⟩ := hi
  · exact endv_raises_of_empty h hempty
  · exact elsev_raises_of_empty h hempty

end Sys2Proof.Proofs
end

