-- ==== Sys2Proof/Proofs/Privilege.lean ====
section
/-! PROOFS. The mode check of R178 among the decode-time conditions (R182): what the checks answer for a supervisor-only instruction, and how an
instruction starts when one of them fails and when all of them pass. -/

namespace Sys2Proof.Proofs

open Machine

variable {i : Instr} {s : State} {t : Team} {g : Group}

/-! ## The start of an instruction by the state of its group -/

/-- A group that is there to issue meets the first decode-time fault of its instruction in the state in which the instruction begins (R182). -/
theorem start_fault_of_present {code : Nat} (hp : Spec.Present s t g) (hd : decodeFault t g i = some code) :
    start i s = .fault code g (Spec.acquired s t g) := by
  obtain ⟨ht, hg, hstop, hres, hfault, hreg, hperf⟩ := hp
  simp [start, Spec.acquired, ht, hg, hstop, hres, hfault, hreg, hperf, hd]

theorem sharedOf_eq_nil {l : List Nat} (h : ∀ n ∈ l, t.shared g n = none) : sharedOf t g l = [] := by
  rw [sharedOf, List.filterMap_eq_nil_iff.2 h, List.eraseDups_nil]

/-- An instruction that names no shared register waits for none (R47). -/
theorem sharedWait_of_unshared {u : Uses} {peek seen : Bool} (h : ∀ n ∈ u.vregs, t.shared g n = none) :
    sharedWait t g u peek seen = none := by
  have hreads : sharedOf t g (u.codes.filter (· < 56) ++ u.reads) = [] := sharedOf_eq_nil fun n hn => h n (List.mem_append_left _ hn)
  have hwrites : sharedOf t g u.writes = [] := sharedOf_eq_nil fun n hn => h n (List.mem_append_right _ hn)
  simp [sharedWait, hreads, hwrites]

/-- A ready instruction goes ahead at once, and leaves no yield point behind it (R40, R41, R182, R200). -/
theorem start_go_of_ready (h : Spec.Ready i s t g) :
    start i s = .go ⟨s.cur.1, s.cur.2, t, g⟩ s (moveOn i ⟨s.cur.1, s.cur.2, t, g⟩ s) := by
  obtain ⟨ht, hg, hstop, hres, hfault, hreg, hwait, hd, hnames, hshared⟩ := h
  have hgroup : groupOf s s.cur.1 s.cur.2 = some g := by rw [groupOf, ht, Option.bind_some, hg]
  have hout : (usesWith g.hints i).names.any (fun n => (outstanding s s.cur.1 s.cur.2 t.core).contains n) = false := by
    simpa using fun n hn => (hnames n hn).1
  have hfresh : (usesWith g.hints i).names.any (fun n => g.fresh.contains n) = false := by
    simpa using fun n hn => (hnames n hn).2
  simp only [start, ht, hgroup, hstop, hres, hfault, hreg, hwait, hd, unperformed, reduceCtorEq, if_false, hout, hfresh,
    sharedWait_of_unshared hshared, afterYield]
  simp [ht, hgroup]

/-! ## Supervisor-only instructions -/

/-- The supervisor-only instructions by name: the six of R335, TFLUSH only with its field all set. -/
theorem supervisorInstr_cases (h : Spec.supervisorInstr i = true) :
    (∃ d a csr, i = .csrr d a csr) ∨ (∃ b a csr, i = .csrw b a csr) ∨ (∃ d a fin, i = .tresume d a fin) ∨ (∃ a b, i = .tflush a b 1) ∨
      (∃ d a, i = .split d a) ∨ ∃ code, i = .halt code := by
  unfold Spec.supervisorInstr at h
  split at h
  case h_4 a b al => exact .inr (.inr (.inr (.inl ⟨a, b, by rw [of_decide_eq_true h]⟩)))
  all_goals simp_all

/-- Each of them starts as every instruction does, and then has an effect of its own. -/
theorem exec_eq_issue_of_supervisorInstr (h : Spec.supervisorInstr i = true) : ∃ body, ∀ s, exec i s = issue i body s := by
  obtain ⟨_, _, _, rfl⟩ | ⟨_, _, _, rfl⟩ | ⟨_, _, _, rfl⟩ | ⟨_, _, rfl⟩ | ⟨_, _, rfl⟩ | ⟨_, rfl⟩ := supervisorInstr_cases h <;>
    exact ⟨_, fun _ => rfl⟩

/-- In user mode a supervisor-only instruction that gives no 0x01 gives 0x12, whatever registers it names (R178, R182). -/
theorem decodeFault_of_user (hu : t.supervisor = false) (hi : Spec.supervisorInstr i = true) (hwf : i.wf t.header.ever = true)
    (hhints : hintsAccepted g.hints i = true) (hrep : g.rep = none ∨ bannedInRepeat i = false) : decodeFault t g i = some 0x12 := by
  have hlegal : (!i.wf t.header.ever || !hintsAccepted g.hints i || (g.rep.isSome && bannedInRepeat i)) = false := by
    rcases hrep with hrep | hrep <;> simp [hwf, hhints, hrep]
  obtain ⟨_, _, _, rfl⟩ | ⟨_, _, _, rfl⟩ | ⟨_, _, _, rfl⟩ | ⟨_, _, rfl⟩ | ⟨_, _, rfl⟩ | ⟨_, rfl⟩ := supervisorInstr_cases hi <;>
    simp only [decodeFault, hlegal, supervisorOnly, hu] <;> rfl

/-- In supervisor mode no instruction gives 0x12 (R178). -/
theorem decodeFault_ne_of_supervisor (hs : t.supervisor = true) : decodeFault t g i ≠ some 0x12 := by
  simp only [decodeFault, hs, Bool.not_true, Bool.and_false, Bool.false_and, Bool.false_eq_true, if_false]
  split
  · simp
  · split <;> simp

/-- Settles O46: the mode check comes behind 0x01 alone, and a decode-time fault is taken in the state in which the instruction began. -/
theorem userModePrivilege : Obligations.UserModePrivilege := by
  refine ⟨fun i s t g hp hu hi hwf hhints hrep => ?_, fun i s t g hs _ => ⟨decodeFault_ne_of_supervisor hs, fun h => ?_⟩⟩
  · obtain ⟨body, hexec⟩ := exec_eq_issue_of_supervisorInstr hi
    have hstart := start_fault_of_present hp (decodeFault_of_user hu hi hwf hhints hrep)
    exact ⟨_, rfl, rfl, (hexec s).trans (issue_fault hstart)⟩
  · exact ⟨_, s, start_go_of_ready h⟩

end Sys2Proof.Proofs
end

