-- ==== Sys2Proof/Proofs/NamedObjects.lean ====
section
/-! PROOFS. Misuse and freeing of named barriers and queues (R264, R267): an operand that names no object of the team, a barrier whose mask leaves
the group out, and when BARFREE and QFREE find their object in use. -/

namespace Sys2Proof.Proofs

open Machine

variable {i : Instr} {s s₁ : State} {c : Ctx}

/-! ## The barrier unit's check behind a fault -/

/-- A team that has met a fault is stopping (R396). -/
@[simp] theorem meet_stopping (t : Team) (f : FaultInfo) : (t.meet f).stopping = true := by
  obtain ⟨_, _, h⟩ := t.meet_keeps f
  rw [h]

/-- The barrier unit checks no stopping team, so it adds nothing to a fault of the instruction itself (R179, R398). -/
theorem checkDeadlock_takeFault (s : State) (tid gid : Nat) (f : FaultInfo) :
    checkDeadlock (takeFault s tid gid f) tid = takeFault s tid gid f := by
  unfold checkDeadlock
  cases ht : teamOf s tid <;> simp [teamOf_takeFault_self, ht]

/-- A fault without address of a barrier instruction that has started stands as it is behind the unit's check. -/
theorem raises_of_checked_bad {body : Ctx → State → Eff} {code : Nat} {lanes : Mask} (h : Starts i s c s₁)
    (he : exec i s = thenCheck s.cur.1 (issue i body s)) (hb : body c s₁ = .bad code lanes) : Spec.Raises i s c code := by
  obtain ⟨s₀, hgo⟩ := h
  obtain ⟨htid, -⟩ := start_go_team hgo
  refine ⟨0, lanes, 0, 0, s₀, s₁, hgo, ?_⟩
  rw [he, issue_go hgo, hb, conclude_bad, thenCheck, ← htid, checkDeadlock_takeFault]

/-! ## Operands that name no barrier of the group, or no queue (R264, R267) -/

/-- The check that opens BARARR, BARWAIT and BARSYNC (R264); `rest` is what they do at a barrier of their group. -/
def atBarrier (c : Ctx) (b : BitVec 6) (rest : Nat → Barrier → Eff) : Eff :=
  match c.barrier b with
  | none => .bad 0x0C c.g.m0
  | some (n, x) => if !x.mask.getLsbD c.g.index then .bad 0x0C c.g.m0 else rest n x

theorem atBarrier_bad {b : BitVec 6} {rest : Nat → Barrier → Eff}
    (h : c.barrier b = none ∨ ∃ n x, c.barrier b = some (n, x) ∧ x.mask.getLsbD c.g.index = false) :
    atBarrier c b rest = .bad 0x0C c.g.m0 := by
  obtain hnone | ⟨n, x, hsome, hout⟩ := h
  · simp only [atBarrier, hnone]
  · simp only [atBarrier, hsome, hout, Bool.not_false, if_true]

theorem exec_eq_atBarrier {b : BitVec 6} (hi : i = .bararr b ∨ i = .barwait b ∨ i = .barsync b) :
    ∃ rest : Ctx → State → Nat → Barrier → Eff, ∀ s,
      exec i s = thenCheck s.cur.1 (issue i (fun c s => atBarrier c b (rest c s)) s) := by
  obtain rfl | rfl | rfl := hi <;> exact ⟨_, fun _ => rfl⟩

/-- The check that opens every instruction on an allocated queue (R267); `rest` is what it does there. -/
def atQueue (c : Ctx) (q : BitVec 6) (rest : Nat → Queue → Eff) : Eff :=
  match c.queue q with
  | none => .bad 0x0C c.g.m0
  | some (n, x) => rest n x

theorem atQueue_bad {q : BitVec 6} {rest : Nat → Queue → Eff} (h : c.queue q = none) : atQueue c q rest = .bad 0x0C c.g.m0 := by
  simp only [atQueue, h]

theorem exec_eq_atQueue {q : BitVec 6}
    (hi : ∃ x, i = .qfree x q ∨ i = .qgrant q x ∨ i = .qpush q x ∨ i = .qpop x q ∨ ∃ y z, i = .qtry x q y z) :
    ∃ rest : Ctx → State → Nat → Queue → Eff, ∀ s, exec i s = issue i (fun c s => atQueue c q (rest c s)) s := by
  obtain ⟨x, rfl | rfl | rfl | rfl | ⟨y, z, rfl⟩⟩ := hi <;> exact ⟨_, fun _ => rfl⟩

/-! ## Freeing -/

/-- An instruction whose effect tests one guard and is done either way completes by what the guard says. -/
theorem completes_of_guard {body : Ctx → State → Eff} {guard : Bool} {p : Prop} {u v : State} (h : Starts i s c s₁)
    (he : exec i s = issue i body s) (hb : body c s₁ = if guard then .done u else .done v) (hp : guard = true ↔ p) :
    (p → Completes i s c u) ∧ (¬ p → Completes i s c v) := by
  obtain ⟨s₀, hgo⟩ := h
  exact ⟨fun k => completes_of_done hgo he (hb.trans (if_pos (hp.2 k))),
    fun k => completes_of_done hgo he (hb.trans (if_neg (mt hp.1 k)))⟩

/-- A live member of the barrier has an arrival that has not completed, or another group is held on it (R264). -/
def BarrierBusy (c : Ctx) (n : Nat) (x : Barrier) : Prop := (∃ k ∈ c.t.live x, k ∈ x.arrived) ∨ Spec.HeldOnBarrier c n

/-- BARFREE's two tests, once its test of one group says that this is another group held on the barrier. -/
theorem busyTests_iff {n : Nat} {x : Barrier} {held : Nat × Group → Bool}
    (hheld : ∀ p, held p = true ↔ p.1 ≠ c.gid ∧ ∃ ph, p.2.wait = some (.barrier n ph) ∨ p.2.wait = some (.bararr n ph)) :
    (c.t.groups.any held || (c.t.live x).any x.arrived.contains) = true ↔ BarrierBusy c n x := by
  simp only [BarrierBusy, Spec.HeldOnBarrier, Bool.or_eq_true, List.any_eq_true, hheld, List.contains_iff_mem, or_comm]

theorem barfree_completes {d b : BitVec 6} {n : Nat} {x : Barrier} (h : Starts (.barfree d b) s c s₁) (hb : c.barrier b = some (n, x)) :
    (BarrierBusy c n x → Completes (.barfree d b) s c (changeGroup c s₁ (fun g => g.setS d.toNat 3))) ∧
    (¬ BarrierBusy c n x → Completes (.barfree d b) s c (changeGroup c (modTeam s₁ c.tid (fun t => { t with
      bars := nmDel n t.bars, groups := t.groups.map (fun p => (p.1, { p.2 with arrived := nmDel n p.2.arrived })) }))
      (fun g => g.setS d.toNat 0))) := by
  refine completes_of_guard h rfl (by simp only [hb]; rfl) (busyTests_iff fun p => ?_)
  rw [Bool.and_eq_true, decide_eq_true_iff]
  refine and_congr_right fun _ => ?_
  split
  case h_1 _ _ hwait => simp [hwait]
  case h_2 _ _ hwait => simp [hwait]
  case h_3 hbarrier hbararr => simpa using fun ph => ⟨hbarrier n ph, hbararr n ph⟩

theorem qfree_completes {d q : BitVec 6} {n : Nat} {x : Queue} (h : Starts (.qfree d q) s c s₁) (hq : c.queue q = some (n, x)) :
    (0 < x.e ∨ x.pushers ≠ [] ∨ x.poppers ≠ [] → Completes (.qfree d q) s c (changeGroup c s₁ (fun g => g.setS d.toNat 3))) ∧
    (¬ (0 < x.e ∨ x.pushers ≠ [] ∨ x.poppers ≠ []) → Completes (.qfree d q) s c
      (changeGroup c (modTeam s₁ c.tid (fun t => { t with queues := nmDel n t.queues })) (fun g => g.setS d.toNat 0))) :=
  completes_of_guard h rfl (by simp only [hq]; rfl) (by simp only [Bool.or_eq_true, decide_eq_true_iff, or_assoc])

/-- Settles O32: every instruction looks its operand up first, and BARFREE and QFREE then test whether their object is in use. -/
theorem barrierAndQueueMisuse : Obligations.BarrierAndQueueMisuse := by
  refine ⟨fun i b s c s₁ hi h hmisused => ?_, fun d b s c s₁ h => ⟨fun hnone => ?_, fun n x hsome => barfree_completes h hsome⟩,
    fun d q s c s₁ n x h hsome => ?_, fun i q s c s₁ hi h hnone => ?_⟩
  · obtain ⟨_, hexec⟩ := exec_eq_atBarrier hi
    exact raises_of_checked_bad h (hexec s) (atBarrier_bad hmisused)
  · exact raises_of_bad h rfl (lanes := c.g.m0) (by simp only [hnone])
  · obtain ⟨hbusy, hfree⟩ := qfree_completes h hsome
    split_ifs with huse
    · exact hbusy huse
    · exact hfree huse
  · obtain ⟨_, hexec⟩ := exec_eq_atQueue hi
    exact raises_of_bad h (hexec s) (atQueue_bad hnone)

end Sys2Proof.Proofs
end

