-- ==== Sys2Proof/Proofs/Encoding.lean ====
section
/-! PROOFS. The decoder and the encoder are inverse to each other (R171, R172, R179): a word is made of its fields, and a field is read back from
the word that it was packed into. Class by class, since the tables are written by class. -/

namespace Sys2Proof.Proofs

/-! ## Words and their fields (R171, R172) -/

theorem fixedBits_eq_ok {ok : Bool} {i j : Instr} : fixedBits ok i = .ok j ↔ ok = true ∧ i = j := by
  cases ok <;> simp [fixedBits]

/-- The number that the bits of `w` from `lo` on make. -/
def above (w : Word) (lo : Nat) : Int := w.toNat / 2 ^ lo

/-- A field is what its lowest bit begins, less what begins behind it: packed fields that follow each other cancel. -/
theorem natCast_fieldOf (w : Word) (lo n : Nat) : ((fieldOf w lo n).toNat : Int) = above w lo - 2 ^ n * above w (lo + n) := by
  simp only [fieldOf, above, BitVec.toNat_ofNat, pow_add]
  rw [← Int.ediv_ediv_of_nonneg (by positivity), Int.natCast_mod, Int.emod_def]
  push_cast
  rfl

theorem fixedOf_eq_iff {w : Word} {lo n k : Nat} : fixedOf w lo n = k ↔ above w lo - 2 ^ n * above w (lo + n) = k := by
  rw [← natCast_fieldOf, fieldOf, BitVec.toNat_ofNat, fixedOf, Int.natCast_inj]

/-- The class and the function together are the eight highest bits. -/
theorem above_opcode {w : Word} {cls fn : Nat} (hclass : fixedOf w 29 3 = cls) (hfn : fixedOf w 24 5 = fn) : above w 24 = cls * 32 + fn := by
  simp only [fixedOf, above] at *
  omega

theorem encode_eq_some {i : Instr} {w : Word} {n : Nat} (h : encodeNat i = some n) (hn : (n : Int) = above w 0) : encode i = some w := by
  have hw : n = w.toNat := by simpa [above] using hn
  simp [encode, h, hw]

theorem pack_eq_add (fixed : Nat) (fs : List (Nat × Nat)) : pack fixed fs = pack 0 fs + fixed := by
  induction fs with
  | nil => simp [pack]
  | cons f fs ih => simp only [pack, ih, Nat.add_assoc]

/-- Where the fields stay below bit 24, the word of an instruction is its packed number and shows the class and the function of its row. -/
theorem word_of_encode {i : Instr} {w : Word} {fixed : Nat} {fs : List (Nat × Nat)} (h : encode i = some w)
    (hn : encodeNat i = some (pack fixed fs)) (hlow : pack (fixed % 2 ^ 24) fs < 2 ^ 24) (hfixed : fixed < 2 ^ 32) :
    w.toNat = pack fixed fs ∧ fixedOf w 29 3 = fixed / 2 ^ 29 ∧ fixedOf w 24 5 = fixed / 2 ^ 24 % 32 := by
  simp only [encode, hn, Option.map_some, Option.some.injEq] at h
  rw [pack_eq_add] at hlow
  subst h
  simp only [fixedOf, BitVec.toNat_ofNat, pack_eq_add fixed]
  omega

/-! ## What a class decodes encodes to its word -/

theorem decodeClass0_sound {fn : Nat} {i : Instr} {w : Word} (hop : above w 24 = 0 * 32 + fn) (h : decodeClass0 fn w = .ok i) :
    encode i = some w := by
  unfold decodeClass0 at h
  split at h
  case h_22 => cases h
  all_goals
    obtain ⟨hfixed, rfl⟩ := fixedBits_eq_ok.1 h
    refine encode_eq_some rfl ?_
    simp only [Bool.and_eq_true, beq_iff_eq, fixedOf_eq_iff, Nat.reduceAdd] at hfixed
    simp only [pack, Nat.cast_add, Nat.cast_mul, natCast_fieldOf, Nat.reduceAdd]
    omega

theorem decodeClass1_sound {fn : Nat} {i : Instr} {w : Word} (hop : above w 24 = 1 * 32 + fn) (h : decodeClass1 fn w = .ok i) :
    encode i = some w := by
  unfold decodeClass1 at h
  split at h
  case h_22 => cases h
  all_goals
    obtain ⟨hfixed, rfl⟩ := fixedBits_eq_ok.1 h
    refine encode_eq_some rfl ?_
    simp only [Bool.and_eq_true, beq_iff_eq, fixedOf_eq_iff, Nat.reduceAdd] at hfixed
    simp only [pack, Nat.cast_add, Nat.cast_mul, natCast_fieldOf, Nat.reduceAdd]
    omega

theorem decodeClass2_sound {fn : Nat} {i : Instr} {w : Word} (hop : above w 24 = 2 * 32 + fn) (h : decodeClass2 fn w = .ok i) :
    encode i = some w := by
  unfold decodeClass2 at h
  split at h
  case h_28 => cases h
  all_goals
    obtain ⟨hfixed, rfl⟩ := fixedBits_eq_ok.1 h
    refine encode_eq_some rfl ?_
    simp only [Bool.and_eq_true, beq_iff_eq, fixedOf_eq_iff, Nat.reduceAdd] at hfixed
    simp only [pack, Nat.cast_add, Nat.cast_mul, natCast_fieldOf, Nat.reduceAdd]
    omega

theorem decodeClass3_sound {fn : Nat} {i : Instr} {w : Word} (hop : above w 24 = 3 * 32 + fn) (h : decodeClass3 fn w = .ok i) :
    encode i = some w := by
  unfold decodeClass3 at h
  split at h
  case h_22 => cases h
  all_goals
    obtain ⟨hfixed, rfl⟩ := fixedBits_eq_ok.1 h
    refine encode_eq_some rfl ?_
    simp only [Bool.and_eq_true, beq_iff_eq, fixedOf_eq_iff, Nat.reduceAdd] at hfixed
    simp only [pack, Nat.cast_add, Nat.cast_mul, natCast_fieldOf, Nat.reduceAdd]
    omega

theorem decodeClass4_sound {fn : Nat} {i : Instr} {w : Word} (hop : above w 24 = 4 * 32 + fn) (h : decodeClass4 fn w = .ok i) :
    encode i = some w := by
  unfold decodeClass4 at h
  split at h
  case h_15 => cases h
  all_goals
    obtain ⟨hfixed, rfl⟩ := fixedBits_eq_ok.1 h
    refine encode_eq_some rfl ?_
    simp only [Bool.and_eq_true, beq_iff_eq, fixedOf_eq_iff, Nat.reduceAdd] at hfixed
    simp only [pack, Nat.cast_add, Nat.cast_mul, natCast_fieldOf, Nat.reduceAdd]
    omega

theorem decodeClass5_sound {fn : Nat} {i : Instr} {w : Word} (hop : above w 24 = 5 * 32 + fn) (h : decodeClass5 fn w = .ok i) :
    encode i = some w := by
  unfold decodeClass5 at h
  split at h
  case h_28 => cases h
  all_goals
    obtain ⟨hfixed, rfl⟩ := fixedBits_eq_ok.1 h
    refine encode_eq_some rfl ?_
    simp only [Bool.and_eq_true, beq_iff_eq, fixedOf_eq_iff, Nat.reduceAdd] at hfixed
    simp only [pack, Nat.cast_add, Nat.cast_mul, natCast_fieldOf, Nat.reduceAdd]
    omega

theorem decodeClass6_sound {fn : Nat} {i : Instr} {w : Word} (hop : above w 24 = 6 * 32 + fn) (h : decodeClass6 fn w = .ok i) :
    encode i = some w := by
  unfold decodeClass6 at h
  split at h
  case h_16 => cases h
  all_goals
    obtain ⟨hfixed, rfl⟩ := fixedBits_eq_ok.1 h
    refine encode_eq_some rfl ?_
    simp only [beq_iff_eq, fixedOf_eq_iff, Nat.reduceAdd] at hfixed
    simp only [pack, Nat.cast_add, Nat.cast_mul, natCast_fieldOf, Nat.reduceAdd]
    omega

theorem decodeClass7_sound {fn : Nat} {i : Instr} {w : Word} (hop : above w 24 = 7 * 32 + fn) (h : decodeClass7 fn w = .ok i) :
    encode i = some w := by
  unfold decodeClass7 at h
  split at h
  case h_16 => cases h
  all_goals
    obtain ⟨hfixed, rfl⟩ := fixedBits_eq_ok.1 h
    refine encode_eq_some rfl ?_
    simp only [Bool.and_eq_true, beq_iff_eq, fixedOf_eq_iff, Nat.reduceAdd] at hfixed
    simp only [pack, Nat.cast_add, Nat.cast_mul, natCast_fieldOf, Nat.reduceAdd]
    omega

/-- What parses encodes to the word that it came from. -/
theorem encode_of_parseWord {i : Instr} {w : Word} (h : parseWord w = .ok i) : encode i = some w := by
  have hlt : fixedOf w 29 3 < 8 := Nat.mod_lt _ (by decide)
  unfold parseWord at h
  generalize hclass : fixedOf w 29 3 = cls at h hlt
  match cls with
  | 0 => exact decodeClass0_sound (above_opcode hclass rfl) h
  | 1 => exact decodeClass1_sound (above_opcode hclass rfl) h
  | 2 => exact decodeClass2_sound (above_opcode hclass rfl) h
  | 3 => exact decodeClass3_sound (above_opcode hclass rfl) h
  | 4 => exact decodeClass4_sound (above_opcode hclass rfl) h
  | 5 => exact decodeClass5_sound (above_opcode hclass rfl) h
  | 6 => exact decodeClass6_sound (above_opcode hclass rfl) h
  | 7 => exact decodeClass7_sound (above_opcode hclass rfl) h

/-! ## What a class encodes parses back -/

/-- The class of an instruction's row; the constructors stand in the order of the rows (R172, R176), the events behind them. -/
def rowClass (i : Instr) : Option Nat :=
  if i.ctorIdx < 21 then some 0
  else if i.ctorIdx < 42 then some 1
  else if i.ctorIdx < 69 then some 2
  else if i.ctorIdx < 90 then some 3
  else if i.ctorIdx < 104 then some 4
  else if i.ctorIdx < 131 then some 5
  else if i.ctorIdx < 146 then some 6
  else if i.ctorIdx < 161 then some 7
  else none

theorem parseWord_of_encode_class0 {i : Instr} {w : Word} (hi : rowClass i = some 0) (h : encode i = some w) : parseWord w = .ok i := by
  cases i
  all_goals cases hi
  all_goals
    obtain ⟨hw, hclass, hfn⟩ := word_of_encode h rfl (by simp only [pack]; omega) (by decide)
    simp only [Nat.reduceDiv, Nat.reducePow, Nat.reduceMod] at hclass hfn
    simp only [parseWord, hclass, hfn]
    simp only [pack] at hw
    simp [decodeClass0, fixedBits_eq_ok, fixedOf, ← BitVec.toNat_inj, fieldOf]
    omega

theorem parseWord_of_encode_class1 {i : Instr} {w : Word} (hi : rowClass i = some 1) (h : encode i = some w) : parseWord w = .ok i := by
  cases i
  all_goals cases hi
  all_goals
    obtain ⟨hw, hclass, hfn⟩ := word_of_encode h rfl (by simp only [pack]; omega) (by decide)
    simp only [Nat.reduceDiv, Nat.reducePow, Nat.reduceMod] at hclass hfn
    simp only [parseWord, hclass, hfn]
    simp only [pack] at hw
    simp [decodeClass1, fixedBits_eq_ok, fixedOf, ← BitVec.toNat_inj, fieldOf]
    omega

theorem parseWord_of_encode_class2 {i : Instr} {w : Word} (hi : rowClass i = some 2) (h : encode i = some w) : parseWord w = .ok i := by
  cases i
  all_goals cases hi
  all_goals
    obtain ⟨hw, hclass, hfn⟩ := word_of_encode h rfl (by simp only [pack]; omega) (by decide)
    simp only [Nat.reduceDiv, Nat.reducePow, Nat.reduceMod] at hclass hfn
    simp only [parseWord, hclass, hfn]
    simp only [pack] at hw
    simp [decodeClass2, fixedBits_eq_ok, fixedOf, ← BitVec.toNat_inj, fieldOf]
    omega

theorem parseWord_of_encode_class3 {i : Instr} {w : Word} (hi : rowClass i = some 3) (h : encode i = some w) : parseWord w = .ok i := by
  cases i
  all_goals cases hi
  all_goals
    obtain ⟨hw, hclass, hfn⟩ := word_of_encode h rfl (by simp only [pack]; omega) (by decide)
    simp only [Nat.reduceDiv, Nat.reducePow, Nat.reduceMod] at hclass hfn
    simp only [parseWord, hclass, hfn]
    simp only [pack] at hw
    simp [decodeClass3, fixedBits_eq_ok, fixedOf, ← BitVec.toNat_inj, fieldOf]
    omega

theorem parseWord_of_encode_class4 {i : Instr} {w : Word} (hi : rowClass i = some 4) (h : encode i = some w) : parseWord w = .ok i := by
  cases i
  all_goals cases hi
  all_goals
    obtain ⟨hw, hclass, hfn⟩ := word_of_encode h rfl (by simp only [pack]; omega) (by decide)
    simp only [Nat.reduceDiv, Nat.reducePow, Nat.reduceMod] at hclass hfn
    simp only [parseWord, hclass, hfn]
    simp only [pack] at hw
    simp [decodeClass4, fixedBits_eq_ok, fixedOf, ← BitVec.toNat_inj, fieldOf]
    omega

theorem parseWord_of_encode_class5 {i : Instr} {w : Word} (hi : rowClass i = some 5) (h : encode i = some w) : parseWord w = .ok i := by
  cases i
  all_goals cases hi
  all_goals
    obtain ⟨hw, hclass, hfn⟩ := word_of_encode h rfl (by simp only [pack]; omega) (by decide)
    simp only [Nat.reduceDiv, Nat.reducePow, Nat.reduceMod] at hclass hfn
    simp only [parseWord, hclass, hfn]
    simp only [pack] at hw
    simp [decodeClass5, fixedBits_eq_ok, fixedOf, ← BitVec.toNat_inj, fieldOf]
    omega

theorem parseWord_of_encode_class6 {i : Instr} {w : Word} (hi : rowClass i = some 6) (h : encode i = some w) : parseWord w = .ok i := by
  cases i
  all_goals cases hi
  all_goals
    obtain ⟨hw, hclass, hfn⟩ := word_of_encode h rfl (by simp only [pack]; omega) (by decide)
    simp only [Nat.reduceDiv, Nat.reducePow, Nat.reduceMod] at hclass hfn
    simp only [parseWord, hclass, hfn]
    simp only [pack] at hw
    simp [decodeClass6, fixedBits_eq_ok, fixedOf, ← BitVec.toNat_inj, fieldOf]
    omega

theorem parseWord_of_encode_class7 {i : Instr} {w : Word} (hi : rowClass i = some 7) (h : encode i = some w) : parseWord w = .ok i := by
  cases i
  all_goals cases hi
  all_goals
    obtain ⟨hw, hclass, hfn⟩ := word_of_encode h rfl (by simp only [pack]; omega) (by decide)
    simp only [Nat.reduceDiv, Nat.reducePow, Nat.reduceMod] at hclass hfn
    simp only [parseWord, hclass, hfn]
    simp only [pack] at hw
    simp [decodeClass7, fixedBits_eq_ok, fixedOf, ← BitVec.toNat_inj, fieldOf]
    omega

theorem encode_eq_none {i : Instr} (hi : rowClass i = none) : encode i = none := by
  cases i
  all_goals cases hi
  all_goals rfl

theorem parseWord_of_encode {i : Instr} {w : Word} (h : encode i = some w) : parseWord w = .ok i := by
  match hi : rowClass i with
  | some 0 => exact parseWord_of_encode_class0 hi h
  | some 1 => exact parseWord_of_encode_class1 hi h
  | some 2 => exact parseWord_of_encode_class2 hi h
  | some 3 => exact parseWord_of_encode_class3 hi h
  | some 4 => exact parseWord_of_encode_class4 hi h
  | some 5 => exact parseWord_of_encode_class5 hi h
  | some 6 => exact parseWord_of_encode_class6 hi h
  | some 7 => exact parseWord_of_encode_class7 hi h
  | some (_ + 8) => exact absurd hi (by unfold rowClass; split_ifs <;> simp)
  | none => rw [encode_eq_none hi] at h; cases h

/-- Settles O57: the word parses back, and the check of reserved values passes by the premise. -/
theorem decodeEncode : Obligations.DecodeEncode := by
  intro ever i w h hwf
  simp [decodeWord, parseWord_of_encode h, hwf]

/-- Settles O58: a word that decodes has parsed, and its instruction has passed the check of reserved values. -/
theorem decodeSound : Obligations.DecodeSound := by
  intro ever i w h
  cases hp : parseWord w with
  | error e => simp [decodeWord, hp] at h
  | ok j =>
    obtain ⟨hwf, rfl⟩ : j.wf ever = true ∧ j = i := by simpa [decodeWord, hp, ite_eq_iff] using h
    exact ⟨hwf, encode_of_parseWord hp⟩

end Sys2Proof.Proofs
end

