-- ==== Sys2Proof/Proofs/Patterns.lean ====
section
/-! PROOFS. The helpers of R9 on numbers as operations on bit patterns, and the operands and results of R192 by the pattern of their width. -/

namespace Sys2Proof.Proofs

open Machine

/-! ## Extension and wrapping (R9) -/

theorem wrapInt_emod (r : Int) (n : Nat) : ((wrapInt r n : Nat) : Int) = r % 2 ^ n := by
  rw [wrapInt, Int.toNat_of_nonneg (Int.emod_nonneg _ (by positivity))]
  push_cast
  rfl

theorem ofNat_wrapInt (n : Nat) (r : Int) : BitVec.ofNat n (wrapInt r n) = BitVec.ofInt n r := by
  apply BitVec.eq_of_toNat_eq
  rw [BitVec.toNat_ofNat, BitVec.toNat_ofInt, wrapInt, Nat.mod_eq_of_lt]
  have hpos : (0 : Int) < (2 ^ n : Nat) := by positivity
  have := Int.emod_lt_of_pos r hpos
  have := Int.emod_nonneg r hpos.ne'
  omega

theorem sextInt_ofNat (x n : Nat) : sextInt x n = (BitVec.ofNat n x).toInt := by
  simp only [sextInt, BitVec.toInt_eq_toNat_cond, BitVec.toNat_ofNat]
  push_cast
  rfl

theorem sextInt_toNat (x : BitVec n) : sextInt x.toNat n = x.toInt := by rw [sextInt_ofNat, BitVec.ofNat_toNat, BitVec.setWidth_eq]

theorem sext64_ofNat (x n : Nat) : sext64 x n = (BitVec.ofNat n x).signExtend 64 := by
  rw [sext64, ofNat_wrapInt, sextInt_ofNat, BitVec.signExtend]

theorem sext64_toNat (x : BitVec n) : sext64 x.toNat n = x.signExtend 64 := by
  rw [sext64_ofNat, BitVec.ofNat_toNat, BitVec.setWidth_eq]

/-! ## Operands and results of R192 -/

theorem bit_cases (b : BitVec 1) : b = 0 ∨ b = 1 := BitVec.eq_zero_or_eq_one b
theorem bit_one_ne_zero : (1 : BitVec 1) ≠ 0 := by decide

@[simp] theorem isSet_zero : isSet 0 = false := rfl
@[simp] theorem isSet_one : isSet 1 = true := rfl

theorem isSet_eq_decide (b : BitVec 1) : isSet b = decide (b ≠ 0) := by
  obtain rfl | rfl := bit_cases b <;> rfl

theorem sWidth_eq (w : BitVec 1) : sWidth w = if w = 0 then 64 else 32 := by
  obtain rfl | rfl := bit_cases w <;> rfl

/-- An operand is its register's pattern of the width, read as signed or unsigned. -/
theorem sOperand_eq (v : DWord) (u w : BitVec 1) : sOperand v u w =
    if w = 0 then (if u = 0 then v.toInt else v.toNat) else (if u = 0 then (v.truncate 32 : Word).toInt else (v.truncate 32 : Word).toNat) := by
  obtain rfl | rfl := bit_cases u <;> obtain rfl | rfl := bit_cases w
  · exact sextInt_toNat v
  · exact (sextInt_ofNat _ _).trans (congrArg BitVec.toInt (BitVec.ofNat_toNat ..))
  · exact congrArg Int.ofNat (Nat.mod_eq_of_lt v.isLt)
  · rfl

/-- The width that `w` selects divides the register's, so a pattern of 64 bits stands for its value in every width. -/
theorem modEq_width {r r' : Int} (w : BitVec 1) (h : r ≡ r' [ZMOD 2 ^ 64]) : r ≡ r' [ZMOD 2 ^ sWidth w] := by
  refine h.of_dvd (pow_dvd_pow 2 ?_)
  rw [sWidth_eq]
  split <;> decide

theorem toInt_modEq (x : BitVec n) : x.toInt ≡ x.toNat [ZMOD 2 ^ n] := by
  rw [BitVec.toInt_eq_toNat_bmod]
  exact_mod_cast Int.bmod_emod

/-- Whatever `u` is, an operand has its register's pattern of the width. -/
theorem sOperand_modEq (v : DWord) (u w : BitVec 1) : sOperand v u w ≡ v.toNat [ZMOD 2 ^ sWidth w] := by
  have hlow : (((v.truncate 32 : Word).toNat : Int)) ≡ v.toNat [ZMOD 2 ^ 32] := by
    simp [Int.ModEq]
  rw [sOperand_eq, sWidth_eq]
  split_ifs
  · exact toInt_modEq v
  · rfl
  · exact (toInt_modEq _).trans hlow
  · exact hlow

theorem ofInt_eq_of_modEq {n : Nat} {r r' : Int} (h : r ≡ r' [ZMOD 2 ^ n]) : BitVec.ofInt n r = BitVec.ofInt n r' := by
  apply BitVec.eq_of_toNat_eq
  rw [BitVec.toNat_ofInt, BitVec.toNat_ofInt]
  exact congrArg Int.toNat (by exact_mod_cast h)

theorem sResult_full (r : Int) (u : BitVec 1) : sResult r u 0 = BitVec.ofInt 64 r := ofNat_wrapInt 64 r

theorem sResult_half (r : Int) (u : BitVec 1) :
    sResult r u 1 = if u = 0 then (BitVec.ofInt 32 r).signExtend 64 else (BitVec.ofInt 32 r).zeroExtend 64 := by
  rw [← ofNat_wrapInt 32 r]
  obtain rfl | rfl := bit_cases u
  · exact sext64_ofNat _ _
  · have hlt : wrapInt r 32 < 2 ^ 32 := by
      have := wrapInt_emod r 32
      omega
    apply BitVec.eq_of_toNat_eq
    rw [if_neg bit_one_ne_zero]
    simp only [sResult, isSet_one, if_true, BitVec.toNat_ofNat, BitVec.toNat_setWidth, BitVec.zeroExtend]
    omega

/-- The result of R192 depends on its value's pattern of the width alone, and is the 64-bit pattern of it, narrowed. -/
theorem sResult_of_modEq {r r' : Int} {w : BitVec 1} (h : r ≡ r' [ZMOD 2 ^ sWidth w]) (u : BitVec 1) :
    sResult r u w = Spec.narrow u w (BitVec.ofInt 64 r') := by
  obtain rfl | rfl := bit_cases w
  · exact (sResult_full r u).trans (ofInt_eq_of_modEq h)
  · have htrunc : ((BitVec.ofInt 64 r').truncate 32 : Word) = BitVec.ofInt 32 r := by
      refine Eq.trans ?_ (ofInt_eq_of_modEq (n := 32) h).symm
      apply BitVec.eq_of_toNat_eq
      simp only [BitVec.truncate_eq_setWidth, BitVec.toNat_setWidth, BitVec.toNat_ofInt]
      omega
    simp only [Spec.narrow, htrunc]
    exact sResult_half r u

section
variable (x y : DWord) (u w : BitVec 1)

theorem sResult_add : sResult (sOperand x u w + sOperand y u w) u w = Spec.narrow u w (x + y) := by
  rw [sResult_of_modEq ((sOperand_modEq x u w).add (sOperand_modEq y u w))]
  simp [BitVec.ofInt_add]

theorem sResult_sub : sResult (sOperand x u w - sOperand y u w) u w = Spec.narrow u w (x - y) := by
  rw [sResult_of_modEq ((sOperand_modEq x u w).sub (sOperand_modEq y u w))]
  simp [sub_eq_add_neg, BitVec.ofInt_add, BitVec.ofInt_neg]

theorem sResult_mul : sResult (sOperand x u w * sOperand y u w) u w = Spec.narrow u w (x * y) := by
  rw [sResult_of_modEq ((sOperand_modEq x u w).mul (sOperand_modEq y u w))]
  simp [BitVec.ofInt_mul]

/-- The pattern that a bitwise operation of R192 works on is its register's, of the width. -/
theorem wrapInt_sOperand : wrapInt (sOperand x u w) (sWidth w) = x.toNat % 2 ^ sWidth w := by
  have h := (wrapInt_emod (sOperand x u w) (sWidth w)).trans (sOperand_modEq x u w)
  exact_mod_cast h

/-- A bitwise operation that keeps the low bits apart gives the pattern of the width. -/
theorem sResult_bits {f : Nat → Nat → Nat} {z : DWord} (hf : ∀ a b n, f (a % 2 ^ n) (b % 2 ^ n) = f a b % 2 ^ n)
    (hz : z = BitVec.ofNat 64 (f x.toNat y.toNat)) :
    sResult (sBits f (sWidth w) (sOperand x u w) (sOperand y u w)) u w = Spec.narrow u w z := by
  rw [sBits, wrapInt_sOperand, wrapInt_sOperand, hf, hz, ← BitVec.ofInt_natCast]
  refine sResult_of_modEq ?_ u
  rw [Int.ModEq, Int.natCast_mod]
  push_cast
  exact Int.emod_emod_of_dvd _ (dvd_refl _)

theorem sResult_and : sResult (sBits (· &&& ·) (sWidth w) (sOperand x u w) (sOperand y u w)) u w = Spec.narrow u w (x &&& y) :=
  sResult_bits x y u w (fun a b n => (Nat.and_mod_two_pow (a := a) (b := b) (n := n)).symm) (by simp [BitVec.ofNat_and])

theorem sResult_or : sResult (sBits (· ||| ·) (sWidth w) (sOperand x u w) (sOperand y u w)) u w = Spec.narrow u w (x ||| y) :=
  sResult_bits x y u w (fun a b n => (Nat.or_mod_two_pow (a := a) (b := b) (n := n)).symm) (by simp [BitVec.ofNat_or])

theorem sResult_xor : sResult (sBits (· ^^^ ·) (sWidth w) (sOperand x u w) (sOperand y u w)) u w = Spec.narrow u w (x ^^^ y) :=
  sResult_bits x y u w (fun a b n => (Nat.xor_mod_two_pow (a := a) (b := b) (n := n)).symm) (by simp [BitVec.ofNat_xor])

/-- The shift count of R192 takes the low bits of its register, whatever `u` is. -/
theorem sCount_sOperand : sCount (sWidth w) (sOperand y u w) = Spec.shiftCount w y := by
  have hdvd : ((sWidth w : Nat) : Int) ∣ 2 ^ sWidth w := by
    rw [sWidth_eq]
    split <;> decide
  have h := (sOperand_modEq y u w).of_dvd hdvd
  rw [sCount, h, Spec.shiftCount, sWidth_eq, ← Int.natCast_mod, Int.toNat_natCast]

theorem sResult_shl : sResult (sOperand x u w * 2 ^ sCount (sWidth w) (sOperand y u w)) u w =
    Spec.narrow u w (x <<< Spec.shiftCount w y) := by
  rw [sCount_sOperand, sResult_of_modEq ((sOperand_modEq x u w).mul_right _)]
  congr 1
  apply BitVec.eq_of_toNat_eq
  rw [BitVec.toNat_ofInt, BitVec.toNat_shiftLeft, Nat.shiftLeft_eq]
  exact_mod_cast Int.toNat_natCast _

theorem ofInt_fdiv_toInt (z : BitVec n) (k : Nat) : BitVec.ofInt n (z.toInt.fdiv (2 ^ k)) = z.sshiftRight k := by
  rw [Int.fdiv_eq_ediv_of_nonneg _ (by positivity), BitVec.sshiftRight, Int.shiftRight_eq_div_pow]
  norm_cast

theorem ofInt_fdiv_toNat (z : BitVec n) (k : Nat) : BitVec.ofInt n ((z.toNat : Int).fdiv (2 ^ k)) = z >>> k := by
  rw [Int.fdiv_eq_ediv_of_nonneg _ (by positivity)]
  have h : ((z.toNat : Int) / 2 ^ k) = ((z >>> k).toNat : Int) := by
    rw [BitVec.toNat_ushiftRight, Nat.shiftRight_eq_div_pow]
    push_cast
    rfl
  rw [h, BitVec.ofInt_natCast, BitVec.ofNat_toNat, BitVec.setWidth_eq]

theorem sResult_shr : sResult ((sOperand x u w).fdiv (2 ^ sCount (sWidth w) (sOperand y u w))) u w =
    if w = 0 then (if u = 0 then x.sshiftRight (Spec.shiftCount w y) else x >>> Spec.shiftCount w y)
    else if u = 0 then ((x.truncate 32 : Word).sshiftRight (Spec.shiftCount w y)).signExtend 64
    else ((x.truncate 32 : Word) >>> Spec.shiftCount w y).zeroExtend 64 := by
  rw [sCount_sOperand, sOperand_eq]
  generalize Spec.shiftCount w y = k
  obtain rfl | rfl := bit_cases w
  · rw [sResult_full]
    simp only [if_true]
    split_ifs
    · exact ofInt_fdiv_toInt x k
    · exact ofInt_fdiv_toNat x k
  · rw [sResult_half]
    rw [if_neg bit_one_ne_zero, if_neg bit_one_ne_zero]
    split_ifs
    · rw [ofInt_fdiv_toInt]
    · rw [ofInt_fdiv_toNat]

end

end Sys2Proof.Proofs
end

