-- ==== Sys2Proof/Proofs/ScalarControl.lean ====
section
/-! PROOFS. Classes 0 and 1: what an instruction that has started does with its scalar, mask and status results (R190 to R203, R214, R215), where a
branch leads (R198, R199), and the effects of REPEAT and of the mask stack (R42, R200, R202). -/

namespace Sys2Proof.Proofs

open Machine

variable {i : Instr} {s s₁ s₂ : State} {c : Ctx}

/-! ## From the effect of an instruction to its outcome -/

/-- An instruction that has started and whose effect is done completes in it (R39, R53). -/
theorem completes_of_starts {body : Ctx → State → Eff} (h : Starts i s c s₁) (he : exec i s = issue i body s) (hb : body c s₁ = .done s₂) :
    Completes i s c s₂ :=
  let ⟨_, hgo⟩ := h
  completes_of_done hgo he hb

/-- An instruction that has started and whose effect is a hold is held, whatever the state it went ahead from. -/
theorem heldAt_of_starts {body : Ctx → State → Eff} {w : Wait} (h : Starts i s c s₁) (he : exec i s = issue i body s)
    (hb : body c s₁ = .hold w s₂) : HeldAt i s c w s₂ := by
  obtain ⟨s₀, hgo⟩ := h
  rw [HeldAt, he, issue_go hgo, hb]
  rfl

theorem faults_of_starts {body : Ctx → State → Eff} {code addr aux scode : Nat} {lanes : Mask} (h : Starts i s c s₁)
    (he : exec i s = issue i body s) (hb : body c s₁ = .fault code addr lanes aux scode) : Faults i s c code addr lanes aux scode :=
  let ⟨_, hgo⟩ := h
  faults_of_fault hgo he hb

/-- The instruction's effect changes its group alone. -/
theorem completes_onGroup {f : Ctx → Group → Group} {f' : Group → Group} (h : Starts i s c s₁) (he : exec i s = issue i (onGroup f) s)
    (hf : f c = f') : Completes i s c (changeGroup c s₁ f') :=
  completes_of_starts h he (by rw [← hf]; rfl)

theorem completes_toScalar {d : BitVec 6} {f : Ctx → DWord} {v : DWord} (h : Starts i s c s₁)
    (he : exec i s = issue i (toScalar d f) s) (hv : f c = v) : Completes i s c (changeGroup c s₁ (fun g => g.setS d.toNat v)) :=
  completes_onGroup h he (by rw [← hv])

/-! ## Scalar results (R190 to R197) -/

theorem sext_value (x : DWord) (u : BitVec 1) (n : Nat) :
    (if isSet u then BitVec.ofNat 64 (x.toNat % 2 ^ n) else sext64 x.toNat n) =
    if u = 0 then ((x.truncate n).signExtend 64 : DWord) else (x.truncate n).zeroExtend 64 := by
  obtain rfl | rfl := bit_cases u
  · exact (sext64_ofNat _ _).trans (by rw [BitVec.ofNat_toNat]; rfl)
  · rw [if_neg bit_one_ne_zero, isSet_one, if_pos rfl]
    exact BitVec.eq_of_toNat_eq (by simp)

/-- An instruction of class 0 with a scalar result completes with it. -/
theorem scalarResult_completes {d : BitVec 6} {v : DWord} (h : Starts i s c s₁) (hr : Spec.scalarResult c s₁ i = some (d, v)) :
    Completes i s c (changeGroup c s₁ (fun g => g.setS d.toNat v)) := by
  cases i with
  | sadd d a b u w => cases hr; exact completes_toScalar h rfl (sResult_add ..)
  | ssub d a b u w => cases hr; exact completes_toScalar h rfl (sResult_sub ..)
  | smul d a b u w => cases hr; exact completes_toScalar h rfl (sResult_mul ..)
  | smulh d a b u w => cases hr; exact completes_toScalar h rfl rfl
  | sdiv d a b u w => cases hr; exact completes_toScalar h rfl rfl
  | srem d a b u w => cases hr; exact completes_toScalar h rfl rfl
  | sand d a b u w => cases hr; exact completes_toScalar h rfl (sResult_and ..)
  | sor d a b u w => cases hr; exact completes_toScalar h rfl (sResult_or ..)
  | sxor d a b u w => cases hr; exact completes_toScalar h rfl (sResult_xor ..)
  | sshl d a b u w => cases hr; exact completes_toScalar h rfl (sResult_shl ..)
  | sshr d a b u w => cases hr; exact completes_toScalar h rfl (sResult_shr ..)
  | smin d a b u w => cases hr; exact completes_toScalar h rfl rfl
  | smax d a b u w => cases hr; exact completes_toScalar h rfl rfl
  | scmp d a b cond u w => cases hr; exact completes_toScalar h rfl rfl
  | ssel d a b cc => cases hr; exact completes_toScalar h rfl (ite_not ..)
  | sbit d a op w => cases hr; exact completes_toScalar h rfl rfl
  | sget d n => cases hr; exact completes_of_starts h rfl rfl
  | mget d m => cases hr; exact completes_toScalar h rfl (BitVec.ofNat_toNat ..)
  | sext d a u size => cases hr; exact completes_toScalar h rfl (sext_value ..)
  | _ => cases hr

theorem imm12_eq (c : Ctx) (x : BitVec 12) : c.imm12 x = if c.h.count = 0 then x.signExtend 64 else c.h.imm := by
  rw [Ctx.imm12, ite_not, sext64_toNat]

theorem count6_eq (c : Ctx) (x : BitVec 6) : c.count6 x = if c.h.count = 0 then x.toNat else c.h.imm.toNat % 64 := ite_not ..

/-- An immediate completes with its result; an attached HIMM gives the immediate's value (R186, R196, R197). -/
theorem immediateResult_completes {d : BitVec 6} {v : DWord} (h : Starts i s c s₁) (hr : Spec.immediateResult c i = some (d, v)) :
    Completes i s c (changeGroup c s₁ (fun g => g.setS d.toNat v)) := by
  cases i with
  | saddi d a x => cases hr; exact completes_toScalar h rfl (by rw [imm12_eq])
  | sandi d a x => cases hr; exact completes_toScalar h rfl (by rw [imm12_eq])
  | sori d a x => cases hr; exact completes_toScalar h rfl (by rw [imm12_eq])
  | sxori d a x => cases hr; exact completes_toScalar h rfl (by rw [imm12_eq])
  | sshli d a n => cases hr; exact completes_toScalar h rfl (by rw [count6_eq])
  | sshri d a ar n =>
    cases hr
    refine completes_toScalar h rfl ?_
    simp only [count6_eq, ite_not]
    by_cases hc : c.h.count = 0 <;> simp [hc, isSet]
  | slti d a x => cases hr; exact completes_toScalar h rfl (by rw [imm12_eq]; rfl)
  | sltni d a x => cases hr; exact completes_toScalar h rfl (by rw [imm12_eq]; rfl)
  | sli d x => cases hr; exact completes_toScalar h rfl (by rw [ite_not, sext64_toNat])
  | _ => cases hr

/-- Settles O1: class 0 and the immediates write one scalar register, by the value of their case. -/
theorem scalarResults : Obligations.ScalarResults :=
  ⟨fun _ _ _ _ _ _ h hr => scalarResult_completes h hr, fun _ _ _ _ _ _ h hr => immediateResult_completes h hr⟩

/-! ## Status and masks (R194, R195, R203, R214, R215) -/

/-- The low bits of a register in a 32-bit status register. -/
theorem ofNat_mod_two_pow (x : DWord) {n : Nat} (hn : n ≤ 32) :
    (BitVec.ofNat 32 (x.toNat % 2 ^ n) : Word) = (x.truncate 32 : Word) &&& BitVec.ofNat 32 (2 ^ n - 1) := by
  have hle : 2 ^ n ≤ 2 ^ 32 := Nat.pow_le_pow_right (by decide) hn
  have hpos : 0 < 2 ^ n := Nat.two_pow_pos n
  apply BitVec.eq_of_toNat_eq
  rw [BitVec.toNat_and, BitVec.toNat_ofNat, BitVec.toNat_ofNat, Nat.mod_eq_of_lt (a := 2 ^ n - 1) (by omega), Nat.and_two_pow_sub_one_eq_mod,
    BitVec.truncate_eq_setWidth, BitVec.toNat_setWidth, Nat.mod_mod_of_dvd _ (pow_dvd_pow 2 hn), Nat.mod_eq_of_lt]
  exact lt_of_lt_of_le (Nat.mod_lt _ hpos) hle

theorem setFflags_eq (g : Group) (x : DWord) : g.setFflags x = { g with fflags := (x.truncate 32 : Word) &&& 0xF } :=
  congrArg (fun f => { g with fflags := f }) (ofNat_mod_two_pow x (n := 4) (by decide))

theorem fmtOf_eq (x : DWord) : fmtOf x.toNat = (x.truncate 32 : Word) &&& 0x1FFFFFF := ofNat_mod_two_pow x (n := 25) (by decide)

theorem toNat_truncate (x : DWord) : (x.truncate 32 : Word).toNat = x.toNat % 2 ^ 32 := by simp

theorem statusEffect_completes {f : Group → Group} (h : Starts i s c s₁) (hr : Spec.statusEffect c i = some f) :
    Completes i s c (changeGroup c s₁ f) := by
  cases i with
  | sset a n =>
    cases hr
    refine completes_onGroup h rfl (funext fun g => ?_)
    rw [setFflags_eq, fmtOf_eq]
  | mput a m => cases hr; exact completes_onGroup h rfl (by rw [BitVec.ofNat_toNat])
  | setfmt d a sel =>
    cases hr
    refine completes_onGroup h rfl (funext fun g => ?_)
    by_cases hc : c.h.count = 0 <;> simp only [hc, ne_eq, not_true_eq_false, not_false_eq_true, if_true, if_false, toNat_truncate,
      BitVec.ofNat_toNat]
  | mop op m x y => cases hr; exact completes_onGroup h rfl rfl
  | mcnt guard d x mod =>
    cases hr
    have hzero : ∀ m : Mask, m.toNat = 0 ↔ m = 0 := fun m => BitVec.toNat_inj (y := 0)
    exact completes_toScalar h rfl (by simp only [hzero])
  | _ => cases hr

/-- Settles O2: each of the five changes its own group, and needs no operand to be in range for it. -/
theorem statusAndMaskResults : Obligations.StatusAndMaskResults :=
  fun _ _ _ _ _ _ h hr => statusEffect_completes h hr

/-! ## Branches (R198, R199) -/

theorem branchTarget_eq (pc : Nat) (off : BitVec n) : branchTarget pc off.toNat n = Spec.target pc off := by
  rw [branchTarget, sextInt_toNat]
  rfl

/-- The group at the pc that a branch leads to, if it is taken. -/
def branchTo (t : Option Nat) (g : Group) : Group :=
  match t with
  | some pc => { g with pc := pc }
  | none => g

theorem completes_branch {n : Nat} {off : BitVec n} {taken : Ctx → Bool} {t : Option Nat} (h : Starts i s c s₁)
    (he : exec i s = issue i (branch off.toNat n taken (fun _ g => g)) s)
    (ht : t = if taken c then some (Spec.target c.g.pc off) else none) : Completes i s c (changeGroup c s₁ (branchTo t)) := by
  refine completes_onGroup h he (funext fun g => ?_)
  rw [ht]
  simp only [branchTarget_eq]
  split <;> rfl

/-- A branch completes, at its target when it is taken (R198). -/
theorem branchTaken_completes {t : Option Nat} (h : Starts i s c s₁) (ht : Spec.branchTaken c i = some t) :
    Completes i s c (changeGroup c s₁ (branchTo t)) := by
  cases i with
  | bra off => cases ht; exact completes_branch h rfl (if_pos rfl).symm
  | bz a off => cases ht; exact completes_branch h rfl (by simp)
  | bnz a off => cases ht; exact completes_branch h rfl (by simp)
  | bany m off => cases ht; exact completes_branch h rfl (by simp)
  | bnone m off => cases ht; exact completes_branch h rfl (by simp)
  | _ => cases ht

theorem jr_completes {a : BitVec 6} {kind : BitVec 2} (h : Starts (.jr a kind) s c s₁) (hword : (c.s a).toNat % 4 = 0)
    (hlt : (c.s a).toNat < 2 ^ 48) : Completes (.jr a kind) s c (changeGroup c s₁ (fun g =>
      { (if kind = 1 then g.setS 62 (BitVec.ofNat 64 ((c.g.pc + 4) % 2 ^ 48)) else g) with pc := (c.s a).toNat })) :=
  completes_of_starts h rfl (by
    simp only [hword, Nat.div_eq_of_lt hlt]
    rfl)

/-- Settles O3: a branch changes its group's pc where it is taken; JR checks its register's address first. -/
theorem branches : Obligations.Branches := by
  refine ⟨fun _ _ _ _ _ h ht => branchTaken_completes h ht, fun off s c s₁ h => ?_, fun a kind s c s₁ h => ⟨fun hword hlt =>
    jr_completes h hword hlt, fun hword => ?_, fun hword hlong => ?_⟩⟩
  · exact completes_onGroup h rfl (funext fun g => by rw [branchTarget_eq]; rfl)
  · exact faults_of_starts h rfl (if_pos hword)
  · have hhigh : (c.s a).toNat / 2 ^ 48 ≠ 0 := by omega
    exact faults_of_starts h rfl ((if_neg (not_not_intro hword)).trans (if_pos hhigh))

/-! ## REPEAT (R200) -/

/-- Settles O4: REPEAT decides by its count whether it skips its body or begins it. -/
theorem repeatInstruction : Obligations.Repeat := by
  refine fun a len s c s₁ h => ⟨fun hzero => ⟨fun pc s₂ hskip => ?_, fun s₂ hskip => ?_⟩, fun hcount => ?_⟩
  · exact completes_of_starts h rfl (by simp only [hzero, hskip]; rfl)
  · exact heldAt_of_starts h rfl (by simp only [hzero, hskip]; rfl)
  · have hnat : (c.s a).toNat ≠ 0 := fun h0 => hcount (BitVec.eq_of_toNat_eq h0)
    exact completes_of_starts h rfl (if_neg hnat)

/-! ## The mask stack (R42, R202) -/

/-- Settles O5: each instruction works on the entry and the masks that it found when it started. -/
theorem maskStack : Obligations.MaskStack := by
  refine ⟨fun m neg off s c s₁ h hroom => ?_, fun off s c s₁ h e rest hstack => ?_, fun s c s₁ h e rest hstack => ?_⟩
  · refine completes_of_starts h rfl ((if_neg (by omega)).trans ?_)
    obtain rfl | rfl := bit_cases neg
    · simp only [branchTarget_eq, isSet_zero, if_true, Bool.false_eq_true, if_false]
      rfl
    · simp only [branchTarget_eq, isSet_one, if_true, bit_one_ne_zero, if_false]
      rfl
  · exact completes_of_starts h rfl (by simp only [hstack, branchTarget_eq]; rfl)
  · exact completes_of_starts h rfl (by simp only [hstack]; rfl)

end Sys2Proof.Proofs
end

