-- ==== Sys2Proof/Proofs/Vector.lean ====
section
/-! PROOFS. Registers read back (R55, R208), and classes 2 and 3: the results of the lane-wise instructions, of those that move data between lanes,
of floating-point arithmetic and of compares (R208 to R233). -/

namespace Sys2Proof.Proofs

open Machine

variable {i : Instr} {s s₁ s₂ : State} {c : Ctx} {g : BitVec 3} {nw : BitVec 1} {d : BitVec 6} {body : Ctx → State → Eff}

/-! ## Lanes (R56, R208) -/

theorem lane_ofLanes {f : Nat → Word} {k : Nat} (hk : k < 32) : lane (ofLanes f) k = f k := by
  simp [lane, ofLanes, lanes, hk]

theorem ofLanes_congr {f f' : Nat → Word} (h : ∀ k < 32, f k = f' k) : ofLanes f = ofLanes f' :=
  List.map_congr_left fun k hk => h k (by simpa [lanes] using hk)

/-- The row of a name depends on the team's header alone. -/
theorem row_setV (t : Team) (g g' : Group) (n n' : Nat) (v : Lanes) : (t.setV g n v).row g' n' = t.row g' n' := by
  simp only [Team.setV]
  split <;> rfl

theorem vreg_setV_ne {t : Team} {g g' : Group} {n n' : Nat} {r : Nat} (h : t.row g n = some r) (h' : t.row g' n' ≠ some r) (v : Lanes) :
    (t.setV g n v).vreg g' n' = t.vreg g' n' := by
  unfold Team.vreg
  rw [row_setV]
  cases hrow : t.row g' n' with
  | none => rfl
  | some r' =>
    have hne : r' ≠ r := fun e => h' (hrow.trans (congrArg some e))
    simp only [Team.setV, h, nmGetD_nmPut_ne hne]

theorem lane_blend {m : Mask} {new old : Lanes} {k : Nat} (hk : k < 32) :
    lane (blend m new old) k = if m.getLsbD k then lane new k else lane old k := lane_ofLanes hk

/-- Settles O7: a scalar register and a row of vector registers each read back what was written and leave the others. -/
theorem registerReadsBack : Obligations.RegisterReadsBack := by
  refine ⟨fun g n m v => ⟨Group.setS_zero g v, Group.sreg_zero g, fun hn => ?_, fun hmn => ?_⟩, fun t g g' n n' m v r hrow =>
    ⟨fun i hi => ?_, fun hne => vreg_setV_ne hrow hne _⟩⟩
  · exact Group.sreg_setS_self g (fun h0 => hn (BitVec.eq_of_toNat_eq h0)) n.isLt v
  · exact Group.sreg_setS_ne g (fun e => hmn (BitVec.eq_of_toNat_eq e)) v
  · rw [Team.setVLanes, Team.vreg_setV_self hrow]
    exact lane_blend hi

/-! ## Vector results (R208) -/

/-- Writing a vector value is the statement's vector result, lane by lane. -/
theorem writeVec_eq (c : Ctx) (g : BitVec 3) (nw : BitVec 1) (d : VCode) {v : Lanes} {r : Nat → Word} (hr : ∀ k < 32, lane v k = r k)
    (s : State) : writeVec c g nw d v s = Spec.vectorDone c s g nw d.toNat r := by
  have hblend (old : Lanes) : blend (c.lanes g) v old = blend (c.lanes g) (ofLanes r) old :=
    ofLanes_congr fun k hk => by rw [hr k hk, lane_ofLanes hk]
  have honly : only (c.lanes g) v = ofLanes (fun k => if (c.lanes g).getLsbD k then r k else 0) :=
    ofLanes_congr fun k hk => by rw [hr k hk]; rfl
  simp only [writeVec, Spec.vectorDone, Team.setVLanes, hblend, honly, isSet, beq_iff_eq]

theorem writePair_eq (c : Ctx) (g : BitVec 3) (nw : BitVec 1) (d : VCode) (r : Nat → Nat) (s : State) :
    writePair c g nw d r s = Spec.pairDone c s g nw d.toNat r := by
  simp only [writePair, Spec.pairDone, isSet, beq_iff_eq]
  rfl

/-- An instruction that writes a value to the lanes of `d` completes with it. -/
theorem completes_writeVec {v : Lanes} {r : Nat → Word} (h : Starts i s c s₁) (he : exec i s = issue i body s)
    (hb : body c s₁ = .done (writeVec c g nw d v s₁)) (hr : ∀ k < 32, lane v k = r k) :
    Completes i s c (Spec.vectorDone c s₁ g nw d.toNat r) :=
  completes_of_starts h he (by rw [hb, writeVec_eq c g nw d hr])

theorem completes_ofLanes {f r : Nat → Word} (h : Starts i s c s₁) (he : exec i s = issue i body s)
    (hb : body c s₁ = .done (writeVec c g nw d (ofLanes f) s₁)) (hr : ∀ k, f k = r k) :
    Completes i s c (Spec.vectorDone c s₁ g nw d.toNat r) :=
  completes_writeVec h he hb fun k hk => (lane_ofLanes hk).trans (hr k)

/-! ## Integer arithmetic and bits of a lane (R211, R212) -/

theorem word32_eq (x : Int) : word32 x = BitVec.ofInt 32 x := ofNat_wrapInt 32 x

theorem clampInt_eq {lo hi : Int} (h : lo ≤ hi) (x : Int) : clampInt lo hi x = max lo (min hi x) := by
  unfold clampInt
  split_ifs <;> omega

/-- VADD and VSUB by their modes: wrapping, signed saturation, unsigned saturation. -/
theorem addSat_eq (mod : BitVec 2) (f : Int → Int → Int) (x y : Word) : addSat mod.toNat f x y =
    if mod = 0 then BitVec.ofInt 32 (f x.toNat y.toNat)
    else if mod = 1 then BitVec.ofInt 32 (max (-2 ^ 31) (min (2 ^ 31 - 1) (f x.toInt y.toInt)))
    else BitVec.ofInt 32 (max 0 (min (2 ^ 32 - 1) (f x.toNat y.toNat))) := by
  unfold addSat
  split
  case h_1 h0 => rw [if_pos (BitVec.eq_of_toNat_eq h0), word32_eq]; rfl
  case h_2 h1 =>
    obtain rfl : mod = 1 := BitVec.eq_of_toNat_eq h1
    rw [if_neg (by decide), if_pos rfl, word32_eq, clampInt_eq (by decide)]
    rfl
  case h_3 h0 h1 =>
    rw [if_neg fun e => h0 (by rw [e]; rfl), if_neg fun e => h1 (by rw [e]; rfl), word32_eq, clampInt_eq (by decide)]
    rfl

theorem vadd_value (mod : BitVec 2) (x y : Word) : addSat mod.toNat (· + ·) x y =
    if mod = 0 then x + y
    else if mod = 1 then BitVec.ofInt 32 (max (-2 ^ 31) (min (2 ^ 31 - 1) (x.toInt + y.toInt)))
    else BitVec.ofNat 32 (min (2 ^ 32 - 1) (x.toNat + y.toNat)) := by
  have hwrap : BitVec.ofInt 32 ((x.toNat : Int) + y.toNat) = x + y := by simp [BitVec.ofInt_add]
  have hsat : (max 0 (min (2 ^ 32 - 1) ((x.toNat : Int) + y.toNat))) = (min (2 ^ 32 - 1) (x.toNat + y.toNat) : Nat) := by omega
  rw [addSat_eq, hwrap, hsat, BitVec.ofInt_natCast]

theorem vsub_value (mod : BitVec 2) (x y : Word) : addSat mod.toNat (· - ·) x y =
    if mod = 0 then x - y
    else if mod = 1 then BitVec.ofInt 32 (max (-2 ^ 31) (min (2 ^ 31 - 1) (x.toInt - y.toInt)))
    else BitVec.ofNat 32 (x.toNat - y.toNat) := by
  have hwrap : BitVec.ofInt 32 ((x.toNat : Int) - y.toNat) = x - y := by simp [sub_eq_add_neg, BitVec.ofInt_add, BitVec.ofInt_neg]
  have hsat : (max 0 (min (2 ^ 32 - 1) ((x.toNat : Int) - y.toNat))) = (x.toNat - y.toNat : Nat) := by omega
  rw [addSat_eq, hwrap, hsat, BitVec.ofInt_natCast]

theorem sext32_mod (x n : Nat) : sext32 (x % 2 ^ n) n = sext32 x n := by simp only [sext32, sextInt, Nat.mod_mod]

theorem vsel_value (mod : BitVec 2) (x y z : Word) : (if (if mod = 0 then z ≠ 0 else z.msb) then x else y) =
    if mod = 0 then (if z = 0 then y else x) else if z.msb then x else y := by
  by_cases hm : mod = 0
  · simp only [hm, if_true, ite_not]
  · simp only [hm, if_false]

/-- VEXT's position and width are bits 4:0 and 13:8 of its second operand (R212). -/
theorem vext_value (signed : Bool) (x y : Word) : extField signed x y =
    if y.toNat / 2 ^ 8 % 2 ^ 6 = 0 ∨ 32 < y.toNat / 2 ^ 8 % 2 ^ 6 then 0
    else if signed then sext32 (x.toNat / 2 ^ (y.toNat % 32)) (y.toNat / 2 ^ 8 % 2 ^ 6)
    else BitVec.ofNat 32 (x.toNat / 2 ^ (y.toNat % 32) % 2 ^ (y.toNat / 2 ^ 8 % 2 ^ 6)) := by
  have hp : bitsOf y.toNat 4 0 = y.toNat % 32 := by simp [bitsOf]
  have hw : bitsOf y.toNat 13 8 = y.toNat / 2 ^ 8 % 2 ^ 6 := rfl
  simp only [extField, hp, hw, sext32_mod]

/-- A lane-wise integer instruction completes with its function of the lanes. -/
theorem intLane_completes {a b : BitVec 6} {f : Word → Word → Word → Word} (h : Starts i s c s₁)
    (hf : Spec.intLane i = some (g, nw, d, a, b, f)) :
    Completes i s c (Spec.vectorDone c s₁ g nw d.toNat (fun k => f (lane (c.code a) k) (lane (c.code b) k) (lane (c.v d.toNat) k))) := by
  cases i with
  | vadd g nw d a b mod => cases hf; exact completes_ofLanes h rfl rfl fun k => vadd_value ..
  | vsub g nw d a b mod => cases hf; exact completes_ofLanes h rfl rfl fun k => vsub_value ..
  | vmul g nw d a b => cases hf; exact completes_ofLanes h rfl rfl fun k => rfl
  | vmulh g nw d a b mod => cases hf; exact completes_ofLanes h rfl rfl fun k => word32_eq _
  | vmad g d a b => cases hf; exact completes_ofLanes h rfl rfl fun k => rfl
  | vand g nw d a b => cases hf; exact completes_ofLanes h rfl rfl fun k => rfl
  | vor g nw d a b => cases hf; exact completes_ofLanes h rfl rfl fun k => rfl
  | vxor g nw d a b => cases hf; exact completes_ofLanes h rfl rfl fun k => rfl
  | vshl g nw d a b => cases hf; exact completes_ofLanes h rfl rfl fun k => rfl
  | vshr g nw d a b mod => cases hf; exact completes_ofLanes h rfl rfl fun k => rfl
  | vmin g nw d a b mod => cases hf; exact completes_ofLanes h rfl rfl fun k => rfl
  | vmax g nw d a b mod => cases hf; exact completes_ofLanes h rfl rfl fun k => rfl
  | vabsd g nw d a b mod => cases hf; exact completes_ofLanes h rfl rfl fun k => rfl
  | vsel g d a b mod =>
    cases hf
    exact completes_ofLanes h rfl rfl fun k => vsel_value ..
  | vbit g nw d a mod => cases hf; exact completes_ofLanes h rfl rfl fun k => rfl
  | vext g nw d a b mod => cases hf; exact completes_ofLanes h rfl rfl fun k => by simp only [vext_value, decide_eq_true_eq]
  | _ => cases hf

/-- Settles O8: each integer instruction writes its function of the lanes of its operands. -/
theorem vectorIntegerResults : Obligations.VectorIntegerResults := fun _ _ _ _ _ _ _ _ _ _ _ h hf => intLane_completes h hf

/-! ## Moving data between lanes (R216 to R221) -/

/-- An instruction that moves data between lanes completes with what each lane takes. -/
theorem moveLane_completes {f : Nat → Word} (h : Starts i s c s₁) (hf : Spec.moveLane c i = some (g, nw, d, f)) :
    Completes i s c (Spec.vectorDone c s₁ g nw d.toNat f) := by
  cases i with
  | vlane g nw d mod => cases hf; exact completes_ofLanes h rfl rfl fun k => rfl
  | vmov g nw d a b mod =>
    simp only [Spec.moveLane] at hf
    split_ifs at hf with h0 h1 h2
    · cases hf; exact completes_writeVec h rfl (congrArg Eff.done (if_pos h0)) fun k _ => rfl
    · cases hf; exact completes_ofLanes h rfl (congrArg Eff.done ((if_neg h0).trans (if_pos h1))) fun k => BitVec.ofNat_toNat ..
    · cases hf; exact completes_ofLanes h rfl (congrArg Eff.done ((if_neg h0).trans ((if_neg h1).trans (if_pos h2)))) fun k => rfl
  | vshuf g nw d a b mod => cases hf; exact completes_ofLanes h rfl rfl fun k => rfl
  | vrot g nw d a b mod => cases hf; exact completes_ofLanes h rfl rfl fun k => rfl
  | vslide g nw d a b mod => cases hf; exact completes_writeVec h rfl rfl fun k _ => rfl
  | bperm g nw d a b mod => cases hf; exact completes_writeVec h rfl rfl fun k _ => rfl
  | _ => cases hf

theorem vmov_pair_completes {a b : BitVec 6} (h : Starts (.vmov g nw d a b 3) s c s₁) :
    Completes (.vmov g nw d a b 3) s c (Spec.pairDone c s₁ g nw d.toNat (fun _ => (c.s a).toNat)) :=
  completes_of_starts h rfl (congrArg Eff.done (writePair_eq c g nw d (fun _ => (c.s a).toNat) s₁))

theorem vscan_completes {a b : BitVec 6} {mod : BitVec 1} (h : Starts (.vscan g nw d a b mod) s c s₁) :
    let run := scanLanes b.toNat (c.code a) (lanesOf (c.lanes g)) (redIdentity b.toNat) .none
    Completes (.vscan g nw d a b mod) s c (changeGroup c (Spec.vectorDone c s₁ g nw d.toNat (fun k =>
      match run.1.find? (fun p => p.1 = k) with
      | some p => if mod = 1 then p.2.1 else p.2.2
      | none => 0)) (fun x => x.raise run.2.2)) := by
  refine completes_of_starts h rfl ?_
  rw [← writeVec_eq c g nw d fun k hk => lane_ofLanes hk]
  simp only [isSet, beq_iff_eq] <;> rfl

theorem vred_completes {a b : BitVec 6} (h : Starts (.vred g d a b) s c s₁) :
    let run := scanLanes b.toNat (c.code a) (lanesOf (c.lanes g)) (redIdentity b.toNat) .none
    Completes (.vred g d a b) s c (changeGroup c s₁ (fun x => (x.raise run.2.2).setS d.toNat
      (if b = 4 ∨ b = 5 then run.2.1.signExtend 64 else run.2.1.zeroExtend 64))) := by
  refine completes_onGroup h rfl (funext fun x => ?_)
  simp only [sext64_toNat, BitVec.ofNat_toNat]

/-- Settles O9: each lane's value for the moves; the scan's run over the active lanes for VSCAN and VRED. -/
theorem vectorMoveResults : Obligations.VectorMoveResults :=
  ⟨⟨fun _ _ _ _ _ _ _ _ h hf => moveLane_completes h hf, fun _ _ _ _ _ _ _ _ h => vmov_pair_completes h⟩,
    fun _ _ _ _ _ _ _ _ _ h => vscan_completes h, fun _ _ _ _ _ _ _ h => vred_completes h⟩

/-! ## Floating point (R222 to R233) -/

theorem writeFloat_eq (c : Ctx) (g : BitVec 3) (nw : BitVec 1) (d : VCode) (r : Nat → FRes) (s : State) : writeFloat c g nw d r s =
    Spec.flagsRaised c (Spec.vectorDone c s g nw d.toNat (fun k => BitVec.ofNat 32 (r k).bits)) g (fun k => (r k).fl) := by
  simp only [writeFloat, writeVec_eq c g nw d fun k hk => lane_ofLanes hk, Spec.flagsRaised, FFlags.all, List.foldl_map]
  rfl

theorem writeFloatPair_eq (c : Ctx) (g : BitVec 3) (nw : BitVec 1) (d : VCode) (r : Nat → FRes) (s : State) : writeFloatPair c g nw d r s =
    Spec.flagsRaised c (Spec.pairDone c s g nw d.toNat (fun k => (r k).bits)) g (fun k => (r k).fl) := by
  simp only [writeFloatPair, writePair_eq, Spec.flagsRaised, FFlags.all, List.foldl_map]
  rfl

theorem completes_writeFloat {r : Nat → FRes} (h : Starts i s c s₁) (he : exec i s = issue i body s)
    (hb : body c s₁ = .done (writeFloat c g nw d r s₁)) : Completes i s c
      (Spec.flagsRaised c (Spec.vectorDone c s₁ g nw d.toNat (fun k => BitVec.ofNat 32 (r k).bits)) g (fun k => (r k).fl)) :=
  completes_of_starts h he (by rw [hb, writeFloat_eq])

theorem completes_writeFloatPair {r : Nat → FRes} (h : Starts i s c s₁) (he : exec i s = issue i body s)
    (hb : body c s₁ = .done (writeFloatPair c g nw d r s₁)) : Completes i s c
      (Spec.flagsRaised c (Spec.pairDone c s₁ g nw d.toNat (fun k => (r k).bits)) g (fun k => (r k).fl)) :=
  completes_of_starts h he (by rw [hb, writeFloatPair_eq])

/-- Settles O10: each instruction writes its rounded function of the lanes of its operands. -/
theorem floatResults : Obligations.FloatResults := by
  intro i s c s₁ g nw d f h hf
  cases i with
  | fadd g nw d a b => cases hf; exact completes_writeFloat h rfl rfl
  | fsub g nw d a b => cases hf; exact completes_writeFloat h rfl rfl
  | fmul g nw d a b => cases hf; exact completes_writeFloat h rfl rfl
  | ffma g d a b => cases hf; exact completes_writeFloat h rfl rfl
  | fnma g d a b => cases hf; exact completes_writeFloat h rfl rfl
  | fmin g nw d a b => cases hf; exact completes_writeFloat h rfl rfl
  | fmax g nw d a b => cases hf; exact completes_writeFloat h rfl rfl
  | frcp g nw d a => cases hf; exact completes_writeFloat h rfl rfl
  | frsq g nw d a => cases hf; exact completes_writeFloat h rfl rfl
  | fex2 g nw d a => cases hf; exact completes_writeFloat h rfl rfl
  | flg2 g nw d a => cases hf; exact completes_writeFloat h rfl rfl
  | cvt g nw d a dst src rnd => cases hf; exact completes_writeFloat h rfl rfl
  | hfma2 g d a b mod => cases hf; exact completes_writeFloat h rfl rfl
  | fscale g nw d a b mod =>
    simp only [Spec.floatLane] at hf
    split_ifs at hf with hm
    cases hf
    exact completes_writeFloat h rfl (congrArg Eff.done (if_neg hm))
  | dcvt g nw d a code rnd =>
    simp only [Spec.floatLane] at hf
    split at hf
    case h_4 => cases hf
    all_goals
      rename_i hcode
      cases hf
      exact completes_writeFloat h rfl (by simp only [hcode] <;> rfl)
  | _ => cases hf

/-- An FP64 instruction completes with its results in a pair. -/
theorem doubleLane_completes {f : Nat → FRes} (h : Starts i s c s₁) (hf : Spec.doubleLane c i = some (g, nw, d, f)) :
    Completes i s c (Spec.flagsRaised c (Spec.pairDone c s₁ g nw d.toNat (fun k => (f k).bits)) g (fun k => (f k).fl)) := by
  cases i with
  | dadd g nw d a b => cases hf; exact completes_writeFloatPair h rfl rfl
  | dmul g nw d a b => cases hf; exact completes_writeFloatPair h rfl rfl
  | dfma g d a b => cases hf; exact completes_writeFloatPair h rfl rfl
  | fscale g nw d a b mod =>
    simp only [Spec.doubleLane] at hf
    split_ifs at hf with hm
    cases hf
    exact completes_writeFloatPair h rfl (congrArg Eff.done (if_pos hm))
  | dcvt g nw d a code rnd =>
    simp only [Spec.doubleLane] at hf
    split at hf
    case h_6 => cases hf
    all_goals
      rename_i hcode
      cases hf
      exact completes_writeFloatPair h rfl (by simp only [hcode] <;> rfl)
  | _ => cases hf

/-- Settles O11: FP64 writes pairs; FCLASS writes one register and raises no flag. -/
theorem doubleAndClassResults : Obligations.DoubleAndClassResults :=
  ⟨fun _ _ _ _ _ _ _ _ _ h hf => doubleLane_completes h hf, fun _ _ _ _ _ _ _ h => completes_ofLanes h rfl rfl fun _ => rfl⟩

/-! ## Compares (R210, R213, R223) -/

theorem raise_none (x : Group) : x.raise FFlags.none = x := by
  simp [Group.raise, FFlags.none, FFlags.bits]

/-- Settles O12: the condition goes to the mask's bits of the lanes, and a floating compare raises nv where a lane is invalid. -/
theorem compareResults : Obligations.CompareResults := by
  intro i s c s₁ g m f nv h hf
  cases i with
  | vcmp g cond m a b mod =>
    cases hf
    refine completes_of_starts h rfl (congrArg Eff.done ?_)
    simp [writeMask, raise_none]
    rfl
  | fcmp g cond m a b =>
    cases hf
    refine completes_of_starts h rfl (congrArg Eff.done ?_)
    simp only [fltCompare, writeMask, modGroup_modGroup]
    rfl
  | dcmpF64 g cond m a b =>
    cases hf
    refine completes_of_starts h rfl (congrArg Eff.done ?_)
    simp only [fltCompare, writeMask, modGroup_modGroup]
    rfl
  | _ => cases hf

end Sys2Proof.Proofs
end

