-- ==== Sys2Proof/Proofs/Issuing.lean ====
section
/-! PROOFS. How every instruction is issued: what a start leaves of its group (R40, R182, R200), the decode-time faults in their order (R182), and
what taking a fault changes (R179, R396). -/

namespace Sys2Proof.Proofs

open Machine

variable {i : Instr} {s s₁ : State} {c : Ctx} {t : Team} {g : Group}

/-! ## The issue of an instruction and its start -/

/-- Every instruction but a hint issues through the one start, and the barrier unit looks at the team behind three of them. -/
theorem exec_eq_issue (henc : i.encodable = true) (hh : Spec.isHint i = false) : ∃ body, (∀ s, exec i s = issue i body s) ∨
    (∀ s, exec i s = thenCheck s.cur.1 (issue i body s)) := by
  cases i
  all_goals cases henc
  case himm | hsched | hmod => cases hh
  case bararr | barwait | barsync => exact ⟨_, .inr fun _ => rfl⟩
  all_goals exact ⟨_, .inl fun _ => rfl⟩

theorem groupOf_eq_some {tid gid : Nat} (ht : teamOf s tid = some t) (hg : nmGet gid t.groups = some g) : groupOf s tid gid = some g := by
  rw [groupOf, ht, Option.bind_some, hg]

/-- An instruction that meets a decode-time fault leaves nothing but the fault. -/
theorem exec_of_decodeFault {code : Nat} (hp : Spec.Present s t g) (hwait : g.wait = none) (hd : decodeFault t g i = some code)
    (henc : i.encodable = true) (hh : Spec.isHint i = false) :
    exec i s = .next (raiseFault s s.cur.1 s.cur.2 g code 0 (if code = 0x01 then g.m0 else g.lanesOf i) 0 0 g.restart) := by
  have hstart := start_fault_of_present hp hd
  rw [Spec.acquired, hwait, if_neg (by simp)] at hstart
  obtain ⟨body, hexec | hexec⟩ := exec_eq_issue henc hh
  · rw [hexec, issue_fault hstart]
  · rw [hexec, issue_fault hstart, thenCheck, raiseFault, checkDeadlock_takeFault]

/-! ## Moving on (R184, R200) -/

/-- Emptying and filling shared registers changes their bits alone (R47). -/
theorem foldl_setEmpty_eq (l : List (Nat × Nat)) (t : Team) : ∃ full, l.foldl Team.setEmpty t = { t with full := full } := by
  induction l generalizing t with
  | nil => exact ⟨t.full, rfl⟩
  | cons k l ih => exact ih (t.setEmpty k)

theorem foldl_setFull_eq (l : List (Nat × Nat)) (t : Team) : ∃ full, l.foldl Team.setFull t = { t with full := full } := by
  induction l generalizing t with
  | nil => exact ⟨t.full, rfl⟩
  | cons k l ih =>
    obtain ⟨full, h⟩ := ih (t.setFull k)
    refine ⟨full, h.trans ?_⟩
    unfold Team.setFull
    split <;> rfl

theorem sharedStep_eq (t : Team) (g : Group) (u : Uses) (peek : Bool) : ∃ full, sharedStep t g u peek = { t with full := full } := by
  obtain ⟨read, hread⟩ : ∃ full, (if peek then t else (sharedOf t g (u.codes.filter (· < 56) ++ u.reads)).foldl Team.setEmpty t) =
      { t with full := full } := by
    split
    · exact ⟨t.full, rfl⟩
    · exact foldl_setEmpty_eq _ t
  obtain ⟨written, hwritten⟩ := foldl_setFull_eq (sharedOf t g u.writes) { t with full := read }
  rw [sharedStep, hread]
  cases u.long
  · exact ⟨written, hwritten⟩
  · exact ⟨read, rfl⟩

/-- The bits of the shared registers are the team's: its groups keep their state. -/
theorem sharedStep_groups (t : Team) (g : Group) (u : Uses) (peek : Bool) : (sharedStep t g u peek).groups = t.groups := by
  obtain ⟨_, h⟩ := sharedStep_eq t g u peek
  rw [h]

/-- A change of a team that keeps its groups. -/
theorem groupOf_modTeam_self {f : Team → Team} (hf : ∀ t, (f t).groups = t.groups) (s : State) (tid gid : Nat) :
    groupOf (modTeam s tid f) tid gid = groupOf s tid gid := by
  unfold groupOf
  cases ht : teamOf s tid <;> simp [ht, hf]

/-- The group of an instruction that has started, moved past it. -/
def movedGroup (i : Instr) (c : Ctx) (g : Group) : Group :=
  { advance { g with hints := .none, wait := none, sectors := [] } with
    fresh := g.fresh.filter (fun n => !(usesWith c.g.hints i).names.contains n) ++
      (if bringsData i then (usesWith c.g.hints i).brought else []) }

theorem groupOf_moveOn (i : Instr) (c : Ctx) (s : State) :
    groupOf (moveOn i c s) c.tid c.gid = (groupOf s c.tid c.gid).map (movedGroup i c) :=
  (groupOf_modTeam_self (fun t => sharedStep_groups t _ _ _) _ _ _).trans (groupOf_modGroup_self ..)

/-- Moving on changes the pc and the REPEAT state and nothing else (R200). -/
theorem advance_eq (g : Group) : ∃ pc rep, advance g = { g with pc := pc, rep := rep } := by
  unfold advance
  split
  · next h => exact ⟨_, none, by rw [← h]⟩
  · split
    · exact ⟨_, _, rfl⟩
    · split <;> exact ⟨_, _, rfl⟩

theorem advance_pc_of_rep_none (h : g.rep = none) : (advance g).pc = (g.pc + 4) % 2 ^ 48 := by
  simp only [advance, h]

/-- Settles O15: a ready instruction goes ahead, and its start only moves its group on. -/
theorem readyInstructionStarts : Obligations.ReadyInstructionStarts := by
  intro i s t g h
  have hgo := start_go_of_ready h
  obtain ⟨ht, hg, -⟩ := h
  refine ⟨_, movedGroup i ⟨s.cur.1, s.cur.2, t, g⟩ g, ⟨s, hgo⟩, ?_, ?_⟩
  · exact (groupOf_moveOn i ⟨s.cur.1, s.cur.2, t, g⟩ s).trans (by rw [groupOf_eq_some ht hg]; rfl)
  · have hpc : g.rep = none → (movedGroup i ⟨s.cur.1, s.cur.2, t, g⟩ g).pc = (g.pc + 4) % 2 ^ 48 := fun hrep =>
      advance_pc_of_rep_none (g := { g with hints := .none, wait := none, sectors := [] }) hrep
    obtain ⟨pc, rep, hadv⟩ := advance_eq { g with hints := .none, wait := none, sectors := [] }
    refine ⟨?_, ?_, hpc, ?_, ?_, ?_, ?_, ?_, ?_⟩ <;> simp only [movedGroup, hadv]

/-! ## The order of the decode-time faults (R182) -/

/-- The decode-time conditions as propositions; the TFLUSH that takes its own core's entries needs no supervisor mode (R335). -/
theorem decodeFault_eq : decodeFault t g i =
    if i.wf t.header.ever = false ∨ hintsAccepted g.hints i = false ∨ (g.rep.isSome = true ∧ bannedInRepeat i = true) then some 0x01
    else if supervisorOnly i = true ∧ t.supervisor = false ∧ (∀ a b, i ≠ .tflush a b 0) then some 0x12
    else if budgetOk t g (usesWith g.hints i) = false then some 0x02
    else none := by
  unfold decodeFault
  refine ite_congr (by simp [or_assoc]) (fun _ => rfl) fun _ => ite_congr (propext ?_) (fun _ => rfl) fun _ => by simp
  split
  case h_1 => simp [and_assoc]
  case h_2 hother => simpa [and_assoc] using fun _ _ a b => hother a b 0

/-- Settles O16: the first decode-time condition that holds is the fault, taken in the state in which the instruction is met. -/
theorem decodeFaultOrder : Obligations.DecodeFaultOrder := by
  intro i s t g code ht hg hstop hres hfault hreg hwait hcode hne henc hh
  have hd : decodeFault t g i = some code := by
    rw [decodeFault_eq]
    split_ifs at hcode ⊢ <;> simp_all
  have hp : Spec.Present s t g := ⟨ht, groupOf_eq_some ht hg, hstop, hres, hfault, hreg, by rw [hwait]; rfl⟩
  exact exec_of_decodeFault hp hwait hd henc hh

/-! ## Taking a fault (R179, R185, R396) -/

/-- What a fault makes of a group that stops at it. -/
def stoppedAt (f : FaultInfo) (g : Group) : Group :=
  { g with pc := f.restart, hints := Hints.none, fault := some f, wait := keepArrival g.wait, fetchTries := 0, readTries := 0,
           registered := none, sectors := [] }

/-- A group that has stopped stays at its fault, but for one of an older instruction of its own (R179). -/
theorem stays_iff (o f : FaultInfo) : (f.again.isNone || decide (o.order ≤ f.order)) = !decide (f.again.isSome = true ∧ f.order < o.order) := by
  cases f.again <;> simp [← decide_not]

theorem meet_groups (t : Team) (f : FaultInfo) : (t.meet f).groups = t.groups := by
  obtain ⟨_, _, h⟩ := t.meet_keeps f
  rw [h]

theorem groupOf_takeFault (s : State) (tid gid : Nat) (f : FaultInfo) : groupOf (takeFault s tid gid f) tid gid =
    (groupOf s tid gid).map (fun y => if y.fault.any (fun o => f.again.isNone || decide (o.order ≤ f.order)) then y else stoppedAt f y) := by
  unfold groupOf
  rw [teamOf_takeFault_self]
  cases teamOf s tid with
  | none => rfl
  | some t =>
    simp only [Option.map_some, Option.bind_some, meet_groups, Team.modGroup_groups]
    split <;> exact nmGet_nmModify_self ..

theorem meet_pending_none {f : FaultInfo} (h : t.pending = none) : (t.meet f).pending = some f := by
  simp only [Team.meet, h]

/-- Of the faults of two groups that of the lower index is reported (R396). -/
theorem meet_pending_other {o f : FaultInfo} (h : t.pending = some o) (hne : o.group ≠ f.group) :
    (t.meet f).pending = some (if f.group < o.group then f else o) := by
  simp only [Team.meet, h]
  split_ifs <;> simp_all

/-- Of two faults that one group raises again the older instruction's is reported (R179). -/
theorem meet_pending_same {o f : FaultInfo} (h : t.pending = some o) (hg : o.group = f.group) (ho : o.engine = false) (hf : f.engine = false)
    (hoa : o.again.isSome = true) (hfa : f.again.isSome = true) : (t.meet f).pending = some (if f.order < o.order then f else o) := by
  have hoa' : o.again.isNone = false := by cases ha : o.again <;> simp_all
  have hfa' : f.again.isNone = false := by cases ha : f.again <;> simp_all
  simp [Team.meet, h, hg, ho, hf, hoa', hfa']

/-- A change of teams that keeps their desks is a change of no byte. -/
theorem sameBytes_of_teams {s s' : State} (hdesk : ∀ k, (teamOf s' k).map Team.desk = (teamOf s k).map Team.desk) (hd : s'.dram = s.dram)
    (hc : s'.cores = s.cores) (hcl : s'.clusters = s.clusters) (hh : s'.hostMem = s.hostMem) (hp : s'.peerMem = s.peerMem) :
    SameBytes s s' := by
  refine ⟨by simp [hd], by simp [nearFrame, coreOf, hc], by simp [farFrame, clusterOf, hcl], by simp [hh], by simp [hp], fun k a => ?_⟩
  have h := congrArg (Option.map (fun d => readByte d a)) (hdesk k)
  rwa [Option.map_map, Option.map_map] at h

theorem takeFault_desk (s : State) (tid gid : Nat) (f : FaultInfo) (k : Nat) :
    (teamOf (takeFault s tid gid f) k).map Team.desk = (teamOf s k).map Team.desk := by
  by_cases hk : k = tid
  · subst hk
    rw [teamOf_takeFault_self, Option.map_map]
    refine congrArg (Option.map · _) (funext fun x => ?_)
    obtain ⟨_, _, h⟩ := ((if (nmGet gid x.groups).any (fun y => y.fault.any (fun o => f.again.isNone || o.order ≤ f.order)) then x
      else x.leaveQueues gid).modGroup gid (fun y => if y.fault.any (fun o => f.again.isNone || o.order ≤ f.order) then y
        else { y.dropTries with pc := f.restart, hints := .none, fault := some f, wait := keepArrival y.wait })).meet_keeps f
    rw [Function.comp_apply, h]
    simp only [Team.modGroup]
    split <;> rfl
  · rw [teamOf_takeFault_ne hk]

theorem takeFault_sameBytes (s : State) (tid gid : Nat) (f : FaultInfo) : SameBytes s (takeFault s tid gid f) :=
  sameBytes_of_teams (takeFault_desk s tid gid f) rfl rfl rfl rfl rfl

/-- A group without a fault stops at the first one it takes, with its team. -/
theorem teamOf_takeFault_of_running {tid gid : Nat} (f : FaultInfo) (ht : teamOf s tid = some t) (hg : nmGet gid t.groups = some g)
    (hf : g.fault = none) : ∃ t' : Team, teamOf (takeFault s tid gid f) tid = some (t'.meet f) ∧
      t' = { t.leaveQueues gid with groups := t'.groups } ∧ nmGet gid t'.groups = some (stoppedAt f g) := by
  refine ⟨(t.leaveQueues gid).modGroup gid (fun y => if y.fault.any (fun o => f.again.isNone || o.order ≤ f.order) then y
        else { y.dropTries with pc := f.restart, hints := .none, fault := some f, wait := keepArrival y.wait }), ?_, rfl, ?_⟩
  · rw [teamOf_takeFault_self, ht, Option.map_some, if_neg (by simp [hg, hf])]
  · simp only [Team.modGroup_groups, nmGet_nmModify_self, Team.leaveQueues_groups, hg, Option.map_some, hf, Option.any_none,
      Bool.false_eq_true, if_false]
    rfl

theorem keepArrival_barrier {n ph : Nat} : keepArrival (some (.barrier n ph)) = some (.barrier n ph) := rfl

/-- A stopping team's instruction that waits for nothing does nothing. -/
theorem exec_of_stopping (ht : teamOf s s.cur.1 = some t) (hg : nmGet s.cur.2 t.groups = some g) (hstop : t.stopping = true)
    (hwait : g.wait = none) (henc : i.encodable = true) : exec i s = .next s := by
  have hgroup := groupOf_eq_some ht hg
  have hstart : start i s = .idle := by simp [start, ht, hgroup, hstop, hwait, finishing]
  have hidle : ∀ body, issue i body s = .next s := fun _ => issue_idle hstart
  have hcheck : checkDeadlock s s.cur.1 = s := by simp [checkDeadlock, ht, hstop]
  have hhint : ∀ fits add delay, issueHint i fits add delay s = .next s := fun _ _ _ => by simp [issueHint, ht, hgroup, hstop]
  cases hh : Spec.isHint i with
  | true => cases i <;> cases hh <;> simp only [exec, execHimm, execHsched, execHmod, hhint]
  | false =>
    obtain ⟨body, hexec | hexec⟩ := exec_eq_issue henc hh
    · rw [hexec, hidle]
    · rw [hexec, hidle, thenCheck, hcheck]

/-- Settles O17: a fault is one change of its team and its group, and a stopping team's instructions do nothing. -/
theorem faultEntry : Obligations.FaultEntry := by
  refine ⟨fun s tid gid t g f ht hg hf => ?_, fun s tid gid g o f hg ho => ?_, fun i s t g ht hg hstop hwait henc =>
    exec_of_stopping ht hg hstop hwait henc⟩
  · obtain ⟨t', hteam, ht', hgroup⟩ := teamOf_takeFault_of_running f ht hg hf
    obtain ⟨p, o, hmeet⟩ := t'.meet_keeps f
    have hpending : t'.pending = t.pending := by rw [ht']; rfl
    refine ⟨t'.meet f, stoppedAt f g, hteam, by rw [meet_groups, hgroup], meet_stopping .., ?_, ?_, ?_, fun h =>
      meet_pending_none (hpending.trans h), fun o h hne => meet_pending_other (hpending.trans h) hne, fun o h hsame ho hf hoa hfa =>
      meet_pending_same (hpending.trans h) hsame ho hf hoa hfa, rfl, rfl, rfl, rfl, rfl, rfl, rfl, rfl, rfl, rfl, ?_, rfl, rfl, ?_,
      takeFault_sameBytes .., fun k hk => teamOf_takeFault_ne hk ..⟩
    · rw [hmeet, ht']; rfl
    · rw [hmeet, ht']; rfl
    · rw [hmeet, ht']; rfl
    · rw [hmeet, ht']; exact t.leaveQueues_free gid
    · intro n ph h
      show keepArrival g.wait = g.wait
      rw [h, keepArrival_barrier]
  · rw [groupOf_takeFault, hg, Option.map_some, ho, Option.any_some, stays_iff]
    by_cases h : f.again.isSome = true ∧ f.order < o.order
    · simp only [h, and_self, decide_true, Bool.not_true, Bool.false_eq_true, if_false, if_true]; rfl
    · simp only [h, decide_false, Bool.not_false, if_true, if_false]

/-! ## The frame of a scalar result (R190, R196) -/

/-- A team whose group has changed and which has retired an instruction (R39, R53). -/
theorem teamOf_retire (s : State) (core tid gid : Nat) (h : teamOf s tid = some t) : ∃ a b,
    teamOf (retire s core tid gid) tid = some { t with lastRetire := a, interval := b } :=
  ⟨_, _, (teamOf_modTeam_self (youngest s core tid gid) tid _).trans (by rw [show teamOf (youngest s core tid gid) tid = some t from h]; rfl)⟩

/-- Settles O14: an instruction with a scalar result changes its group by one write of a scalar register. -/
theorem scalarFrame : Obligations.ScalarFrame := by
  intro i s c s₁ d v u g h hr ht hg
  have hcompletes : Completes i s c (changeGroup c s₁ (fun g => g.setS d.toNat v)) := by
    obtain hr | hr := hr
    · exact scalarResult_completes h hr
    · exact immediateResult_completes h hr
  have hteam : teamOf (changeGroup c s₁ (fun g => g.setS d.toNat v)) c.tid = some (u.modGroup c.gid (fun g => g.setS d.toNat v)) := by
    rw [teamOf_modGroup_self, ht, Option.map_some]
  obtain ⟨a, b, hretired⟩ := teamOf_retire _ c.t.core c.tid c.gid hteam
  refine ⟨_, _, g.setS d.toNat v, hcompletes, hretired, ?_, fun hd => ?_, fun n hn => ?_, by simp, by simp, by simp, by simp, by simp,
    by simp, by simp, rfl, rfl, rfl⟩
  · simp only [Team.modGroup_groups, nmGet_nmModify_self, hg, Option.map_some]
  · exact Group.sreg_setS_self g (fun h => hd (BitVec.eq_of_toNat_eq h)) d.isLt v
  · exact Group.sreg_setS_ne g (fun h => hn (BitVec.eq_of_toNat_eq h)) v

/-! ## Registers alone? (R200) -/

/-- The group of the test state stands before a REPEAT with a count of 0, and its core's stash is empty. -/
def unstashed : State := modCore (Tests.small id (Tests.regs 4 0 5 0)) 0 (fun c => { c with stash := [] })

/-- Refutes O13: a REPEAT with a count of 0 reads its body's words to step over them, and the walk for the first of them keeps the descriptor that it
has read in the partition (R200, R338). -/
theorem not_registerInstructionsTouchNoMemory : ¬ Obligations.RegisterInstructionsTouchNoMemory := by
  intro h
  have hkept : nmGet 0 (partOf (Tests.after (.rept 4 1) unstashed) 0).descs = some 0 := by decide +kernel
  have hnone : nmGet 0 (partOf unstashed 0).descs = none := by decide +kernel
  have hwait : ((groupOf unstashed unstashed.cur.1 unstashed.cur.2).all fun g => decide (g.wait ≠ some (.performed true))) = true := by
    decide +kernel
  unfold Tests.after at hkept
  split at hkept
  · next t ht =>
    obtain ⟨-, -, -, -, hparts, -⟩ := h (.rept 4 1) unstashed t (by decide +kernel) ht
      (fun g hg => by rw [hg] at hwait; exact of_decide_eq_true hwait)
    rw [partOf, hparts, ← partOf, hnone] at hkept
    cases hkept
  · rw [hnone] at hkept
    cases hkept

end Sys2Proof.Proofs
end

