-- ==== Sys2Proof/Proofs/MemoryAccess.lean ====
section
/-! PROOFS. The step that issues an instruction (R171), and class 4: what an instruction on mem or on the scratchpad comes to by its checks (R237),
its sends in lane order (R116), plane accesses (R242, R243), what a store leaves (R104, R112), atomics (R245, R246) and their fences (R248). -/

namespace Sys2Proof.Proofs

open Machine

variable {i : Instr} {s s' s₁ s₂ : State} {c : Ctx} {m : Mask} {names : List RegName} {l : List Access} {far sp : Bool}

/-! ## The step of an issue (R171, R422) -/

section RunGroup

variable {tid gid : Nat} {t : Team} {g : Group} (ht : teamOf s tid = some t) (hg : nmGet gid t.groups = some g)
  (hcan : canIssue s tid gid = true)

include ht hg hcan

/-- A candidate's issue runs what it has fetched and decoded. -/
theorem runGroup_of_fetched (h : fetchInstr s t g = (.ok i, s')) : runGroup tid gid s = exec i { s' with cur := (tid, gid) } := by
  simp only [runGroup, hcan, ht, groupOf_eq_some ht hg, h, Bool.not_true, Bool.false_eq_true, if_false]

theorem runGroup_of_fault {code addr : Nat} (h : fetchInstr s t g = (.fault code addr, s')) :
    runGroup tid gid s = .next (raiseFault s' tid gid g code addr g.m0 0 0 g.restart) := by
  simp only [runGroup, hcan, ht, groupOf_eq_some ht hg, h, Bool.not_true, Bool.false_eq_true, if_false]

theorem runGroup_of_wait (h : fetchInstr s t g = (.wait, s')) : runGroup tid gid s = .next s' := by
  simp only [runGroup, hcan, ht, groupOf_eq_some ht hg, h, Bool.not_true, Bool.false_eq_true, if_false]

end RunGroup

/-- Settles O18: the agenda's issue is one fetch and one exec; without power only POWER_ON is taken. -/
theorem stepRunsDecoded : Obligations.StepRunsDecoded := by
  refine ⟨fun s tid gid rest t g hpower hagenda ht hg hcan => ?_, fun s hpower hagenda => ?_⟩
  · have hstep : step s = runGroup tid gid { s with agenda := rest } := by
      simp only [step, hagenda, hpower, Bool.true_or, if_true, agendaStep]
    have ht' : teamOf { s with agenda := rest } tid = some t := ht
    rw [hstep]
    refine ⟨fun w i s' hf hd => ?_, fun w e s' hf hd => ?_, fun code addr s' hf => ?_, fun s' hf => ?_⟩
    · exact runGroup_of_fetched ht' hg hcan (by simp only [fetchInstr, hf, hd])
    · exact runGroup_of_fault ht' hg hcan (by simp only [fetchInstr, hf, hd])
    · exact runGroup_of_fault ht' hg hcan (by simp only [fetchInstr, hf])
    · exact runGroup_of_wait ht' hg hcan (by simp only [fetchInstr, hf])
  · unfold step
    split
    · simp [hpower]
    · next a rest ha =>
      have hne : a ≠ .event .powerOn := fun h => hagenda rest (by rw [ha, h])
      simp [hpower, hne]

/-! ## Accesses on mem (R237) -/

/-- A refused access faults, and leaves its mark in the management block (R411, R425). -/
theorem faultsLeaving_of_starts {body : Ctx → State → Eff} {code addr : Nat} {lanes : Mask} (h : Starts i s c s₁)
    (he : exec i s = issue i body s) (hb : body c s₁ = .refused s' code addr lanes) : FaultsLeaving i s c s' code addr lanes := by
  obtain ⟨s₀, hgo⟩ := h
  exact ⟨s₀, s₁, hgo, by rw [he, issue_go hgo, hb]; rfl⟩

theorem withOrder_of_ord_zero (f : Ctx → State → Eff) (h : c.h.ord = 0) : withOrder f c s = f c s := by
  simp only [withOrder, h]
  cases f c s <;> simp [ordAfter, h]

/-- The effect of an instruction on mem without a fence around it. -/
theorem exec_eq_memAccess (hr : Spec.memAccesses c i = some (m, names, l, far)) :
    ∃ body, (∀ s, exec i s = issue i body s) ∧ ∀ s, body c s = memAccess c m names l far s := by
  cases i with
  | ld g data ofs base size => cases hr; exact ⟨_, fun _ => rfl, fun _ => rfl⟩
  | st g data ofs base size => cases hr; exact ⟨_, fun _ => rfl, fun _ => rfl⟩
  | sld data base size => cases hr; exact ⟨_, fun _ => rfl, fun _ => rfl⟩
  | sst data base size => cases hr; exact ⟨_, fun _ => rfl, fun _ => rfl⟩
  | atom g data ofs base op =>
    obtain ⟨⟨hord, hsp⟩, hr⟩ := Option.ite_none_right_eq_some.1 hr
    cases hr
    exact ⟨_, fun _ => rfl, fun s => (withOrder_of_ord_zero _ hord).trans (by rw [hsp]; rfl)⟩
  | atomx g data ofs base op =>
    obtain ⟨⟨hord, hsp⟩, hr⟩ := Option.ite_none_right_eq_some.1 hr
    cases hr
    exact ⟨_, fun _ => rfl, fun s => (withOrder_of_ord_zero _ hord).trans (by rw [hsp]; rfl)⟩
  | red g data ofs base op =>
    obtain ⟨hord, hr⟩ := Option.ite_none_right_eq_some.1 hr
    cases hr
    exact ⟨_, fun _ => rfl, fun s => withOrder_of_ord_zero _ hord⟩
  | plst g data ofs base n =>
    obtain ⟨haligned, hr⟩ := Option.ite_none_right_eq_some.1 hr
    cases hr
    exact ⟨_, fun _ => rfl, fun s => if_neg fun ⟨hlanes, hbase⟩ => haligned.elim hlanes hbase⟩
  | _ => cases hr

theorem memAccess_ok {l' : List (Access × Xlat)} (h : checkMem c l s = .ok l' s') : memAccess c m names l far s =
    if canSend s' c l' far then .done (sendAll c m l' far names s') else .hold .issue s := by
  simp only [memAccess, h]

theorem memAccess_wait (h : checkMem c l s = .wait) : memAccess c m names l far s = .hold .issue s := by
  simp only [memAccess, h]

theorem memAccess_fault {code addr : Nat} (h : checkMem c l s = .fault code addr s') :
    memAccess c m names l far s = .refused s' code addr m := by
  simp only [memAccess, h]

theorem canSend_iff {l' : List (Access × Xlat)} : canSend s c l' far = true ↔
    (∀ p ∈ l', placeBusy s c p.1.addr = false) ∧ (missEntries s c.core).length + (missNeed s c l' far).length ≤ 256 := by
  simp [canSend]

theorem canSend_eq_false_iff {l' : List (Access × Xlat)} : canSend s c l' far = false ↔
    (∃ p ∈ l', placeBusy s c p.1.addr = true) ∨ 256 < (missEntries s c.core).length + (missNeed s c l' far).length := by
  rw [← Bool.not_eq_true, canSend_iff, not_and_or, not_le]
  simp

/-! ## Sends in lane order (R44, R116, R179) -/

/-- The state in which the first `k` accesses have been sent. -/
def sentFrom (c : Ctx) (instr : Nat) (m : Mask) (far : Bool) (l : List (Access × Xlat)) (s : State) : State :=
  l.foldl (fun u p => submit u (c.request instr m p.1 p.2 far)) s

/-- Unless a fault takes the instruction back, every access is sent. -/
theorem sendEach_eq (instr : Nat) (l : List (Access × Xlat)) (s : State)
    (h : ∀ k < l.length, takenBack (sentFrom c instr m far (l.take k) s) c.tid c.gid instr = false) :
    sendEach c instr m far l s = sentFrom c instr m far l s := by
  induction l generalizing s with
  | nil => rfl
  | cons p l ih =>
    have hfirst : takenBack s c.tid c.gid instr = false := h 0 (Nat.succ_pos _)
    rw [sendEach, hfirst, if_neg Bool.false_ne_true, ih _ fun k hk => h (k + 1) (Nat.succ_lt_succ hk)]
    rfl

/-- The sends end at the first access that a fault has met. -/
theorem sendEach_stops (instr : Nat) (l : List (Access × Xlat)) (s : State) (k : Nat) (hk : k < l.length)
    (hbefore : ∀ j < k, takenBack (sentFrom c instr m far (l.take j) s) c.tid c.gid instr = false)
    (hat : takenBack (sentFrom c instr m far (l.take k) s) c.tid c.gid instr = true) :
    sendEach c instr m far l s = sentFrom c instr m far (l.take k) s := by
  induction l generalizing s k with
  | nil => exact absurd hk (Nat.not_lt_zero k)
  | cons p l ih =>
    cases k with
    | zero => rw [sendEach, if_pos (show takenBack s c.tid c.gid instr = true from hat)]; rfl
    | succ k =>
      have hfirst : takenBack s c.tid c.gid instr = false := hbefore 0 (Nat.succ_pos _)
      rw [sendEach, hfirst, if_neg Bool.false_ne_true,
        ih _ k (Nat.lt_of_succ_lt_succ hk) (fun j hj => hbefore (j + 1) (Nat.succ_lt_succ hj)) hat]
      rfl

/-- The state in which an instruction's sends begin: it has its name, and its team remembers the point before it (R179). -/
def markedFor (c : Ctx) (m : Mask) (s : State) : State :=
  let emptied := c.t.full.filter (fun k => !(teamOf s c.tid).any (fun t => t.full.contains k))
  modTeam { s with nextId := s.nextId + 1 } c.tid (fun t => { t with
    marks := t.marks ++ [⟨c.gid, s.nextId, m, c.g, c.t.regs.filter (fun p => c.t.ownRow c.g p.1), emptied⟩] })

theorem sentUpTo_eq (l : List (Access × Xlat)) : Spec.sentUpTo c m l far s = sentFrom c s.nextId m far l (markedFor c m s) := rfl

theorem sendAll_cons {l : List (Access × Xlat)} (hl : l ≠ []) : sendAll c m l far names s =
    let u := sendEach c s.nextId m far l (markedFor c m s)
    pruneMarks (if takenBack u c.tid c.gid s.nextId then u else fillResult u c.tid c.gid c.core names) c.tid := by
  rw [sendAll, List.isEmpty_eq_false_iff.2 hl, if_neg Bool.false_ne_true]
  rfl

/-! ## The checks of the port die (R410, R411) -/

/-- A read or a write outside its window, or one that the entry does not permit, is refused and shows in `events`. -/
theorem windowCheck_refuses {part idx va : Nat} {need : Need} {acc : Acc}
    (hkind : (windowOf s part idx).kind = 1 ∨ (windowOf s part idx).kind = 2)
    (h : va < (windowOf s part idx).vbase ∨ (windowOf s part idx).vbase + (windowOf s part idx).size ≤ va ∨
      (need = .write ∧ bitOf (windowOf s part idx).perm 1 = false) ∨ (acc = .read ∧ bitOf (windowOf s part idx).perm 0 = false)) :
    windowCheck s part idx va need acc = (some 0x05, { s with mgmt := { s.mgmt with events := s.mgmt.events ||| 16 } }) := by
  unfold windowCheck
  generalize windowOf s part idx = w at *
  have hkind' : ¬ (w.kind ≠ 1 ∧ w.kind ≠ 2) := fun ⟨h1, h2⟩ => hkind.elim h1 h2
  dsimp only
  rw [if_neg hkind', if_pos hkind]
  by_cases hrange : ((va : Int) - w.vbase < 0 ∨ (w.size : Int) ≤ (va : Int) - w.vbase)
  · rw [if_pos hrange]
  · rw [if_neg hrange, if_pos]
    obtain h | h | h | ⟨hread, hperm⟩ := h
    · exact absurd (Or.inl (by omega)) hrange
    · exact absurd (Or.inr (by omega)) hrange
    · exact .inl (by simpa using h)
    · exact .inr (by simp [hread, hperm])

/-- Settles O19: the effect of an instruction on mem is one check of all its accesses, and then their sends or a hold. -/
theorem memoryInstructions : Obligations.MemoryInstructions := by
  refine ⟨fun i s c s₁ m names l far h hr => ?_, fun c m l far names s => ⟨rfl, fun hl hk => ?_, fun k hk hbefore hat => ?_⟩,
    fun s part idx va need acc hkind h => windowCheck_refuses hkind h⟩
  · obtain ⟨body, hexec, hbody⟩ := exec_eq_memAccess hr
    refine ⟨fun l' s' hcheck => ⟨fun hfree hentries => ?_, fun hbusy => ?_⟩, fun hcheck => ?_, fun code addr s' hcheck => ?_⟩
    · refine completes_of_starts h (hexec s) ?_
      rw [hbody, memAccess_ok hcheck, if_pos (canSend_iff.2 ⟨hfree, hentries⟩)]
    · refine heldAt_of_starts h (hexec s) ?_
      rw [hbody, memAccess_ok hcheck, if_neg (by rw [canSend_eq_false_iff.2 hbusy]; exact Bool.false_ne_true)]
    · exact heldAt_of_starts h (hexec s) ((hbody s₁).trans (memAccess_wait hcheck))
    · exact faultsLeaving_of_starts h (hexec s) ((hbody s₁).trans (memAccess_fault hcheck))
  · have hall := hk l.length le_rfl
    rw [List.take_length, sentUpTo_eq] at hall
    have hsend := sendEach_eq (c := c) (m := m) (far := far) s.nextId l (markedFor c m s) fun k hlt => hk k hlt.le
    rw [sendAll_cons hl, hsend]
    simp only [hall, Bool.false_eq_true, if_false, sentUpTo_eq]
  · have hl : l ≠ [] := List.ne_nil_of_length_pos (Nat.zero_lt_of_lt hk)
    rw [sentUpTo_eq] at hat
    rw [sendAll_cons hl, sendEach_stops s.nextId l (markedFor c m s) k hk hbefore hat]
    simp only [hat, if_true, sentUpTo_eq]

/-! ## The order of the first checks (R237) -/

/-- The first access of a list that meets a condition names the faulting address. -/
theorem faultAddr_eq {p : Access → Bool} {a : Access} {l₁ l₂ : List Access} (ha : p a = true) (h : ∀ b ∈ l₁, p b = false) :
    faultAddr (l₁ ++ a :: l₂) p = a.addr := by
  have hfind : (l₁ ++ a :: l₂).find? p = some a := by
    rw [List.find?_append, List.find?_eq_none.2 (by simpa using h), Option.none_or, List.find?_cons_of_pos ha]
  simp only [faultAddr, hfind]

/-- Settles O22: alignment is tested over every access before the form of any, each with its lowest lane. -/
theorem alignmentThenForm : Obligations.AlignmentThenForm := by
  refine fun c l s => ⟨fun a l₁ l₂ hl ha h => ?_, fun a l₁ l₂ hl halign ha h => ?_, rfl⟩
  · subst hl
    rw [checkMem, if_pos (by simp [ha]), faultAddr_eq (by simpa using ha) (by simpa using h)]
  · have hno : l.any (fun a => decide (a.addr % a.al ≠ 0)) = false := by simpa using halign
    subst hl
    rw [checkMem, hno, if_neg Bool.false_ne_true, if_pos (List.any_eq_true.2 ⟨a, by simp, decide_eq_true ha⟩),
      faultAddr_eq (decide_eq_true ha) (by simpa using h)]

/-! ## Plane access (R242, R243) -/

/-- Settles O20: the base is tested first; what follows is one access to mem, whose hold leaves the destination as it was. -/
theorem planeAccess : Obligations.PlaneAccess := by
  refine ⟨fun g data ofs base n s c s₁ h hlanes hbase => faults_of_starts h rfl (if_pos ⟨hlanes, hbase⟩), fun g data ofs base n s c s₁ h => ?_⟩
  refine ⟨fun hlanes hbase => faults_of_starts h rfl (if_pos ⟨hlanes, hbase⟩), fun haligned => ?_⟩
  have hgoes : ¬ (c.lanes g ≠ 0 ∧ (c.s base).toNat % 32 ≠ 0) := fun ⟨h1, h2⟩ => haligned.elim h1 h2
  refine ⟨fun l' s' hcheck => ⟨fun hsend => ?_, fun hsend => ?_⟩, fun hcheck => ?_, fun code addr s' hcheck => ?_⟩
  · refine completes_of_starts h rfl ((if_neg hgoes).trans ?_)
    simp only [clearPlane, memAccess_ok hcheck, hsend, if_true]
  · refine heldAt_of_starts h rfl ((if_neg hgoes).trans ?_)
    simp only [clearPlane, memAccess_ok hcheck, hsend, Bool.false_eq_true, if_false]
  · refine heldAt_of_starts h rfl ((if_neg hgoes).trans ?_)
    simp only [clearPlane, memAccess_wait hcheck]
  · refine faultsLeaving_of_starts h rfl ((if_neg hgoes).trans ?_)
    simp only [clearPlane, memAccess_fault hcheck]

/-! ## Accesses on the scratchpad (R99, R103 to R106, R134) -/

/-- The effect of an instruction on the scratchpad without a fence around it. -/
theorem exec_eq_spadAccess {at_ : Bool} (hr : Spec.spadAccesses c i = some (m, names, l, at_)) :
    ∃ body, (∀ s, exec i s = issue i body s) ∧ ∀ s, body c s = spadAccess c m names l at_ s := by
  cases i with
  | lds g data ofs base size => cases hr; exact ⟨_, fun _ => rfl, fun _ => rfl⟩
  | sts g data ofs base size => cases hr; exact ⟨_, fun _ => rfl, fun _ => rfl⟩
  | atom g data ofs base op =>
    obtain ⟨⟨hord, hsp⟩, hr⟩ := Option.ite_none_right_eq_some.1 hr
    cases hr
    exact ⟨_, fun _ => rfl, fun s => (withOrder_of_ord_zero _ hord).trans (by rw [hsp]; rfl)⟩
  | atomx g data ofs base op =>
    obtain ⟨⟨hord, hsp⟩, hr⟩ := Option.ite_none_right_eq_some.1 hr
    cases hr
    exact ⟨_, fun _ => rfl, fun s => (withOrder_of_ord_zero _ hord).trans (by rw [hsp]; rfl)⟩
  | satom data base op =>
    obtain ⟨hord, hr⟩ := Option.ite_none_right_eq_some.1 hr
    cases hr
    exact ⟨_, fun _ => rfl, fun s => withOrder_of_ord_zero _ hord⟩
  | _ => cases hr

variable {at_ : Bool} {r : List (Access × Spad)}

theorem spadAccess_error {code addr : Nat} (h : checkSpad s c l at_ = .error (code, addr)) :
    spadAccess c m names l at_ s = .fault code addr m 0 0 := by
  simp only [spadAccess, h]

theorem spadAccess_waits {w : Wait} (h : checkSpad s c l at_ = .ok r) (hw : r.findSome? (spadWait s c) = some w) :
    spadAccess c m names l at_ s = .hold w s := by
  simp only [spadAccess, h, hw]

theorem spadAccess_present (h : checkSpad s c l at_ = .ok r) (hw : ∀ p ∈ r, spadWait s c p = none) : spadAccess c m names l at_ s =
    if r.any (fenceWait s c) then .hold .issue s else .done (fillResult (spadLanes c m s.nextId r s) c.tid c.gid c.core names) := by
  simp only [spadAccess, h, List.findSome?_eq_none_iff.2 hw]

theorem spadAccess_goes (h : checkSpad s c l at_ = .ok r) (hw : ∀ p ∈ r, spadWait s c p = none ∧ fenceWait s c p = false) :
    spadAccess c m names l at_ s = .done (fillResult (spadLanes c m s.nextId r s) c.tid c.gid c.core names) := by
  rw [spadAccess_present h fun p hp => (hw p hp).1, if_neg (by simpa using fun a b hp => (hw (a, b) hp).2)]

/-- Settles O21: the effect of an instruction on the scratchpad is one check of all its accesses, then the waits, then the accesses. -/
theorem scratchpadInstructions : Obligations.ScratchpadInstructions := by
  intro i s c s₁ m names l at_ h hr
  obtain ⟨body, hexec, hbody⟩ := exec_eq_spadAccess hr
  refine ⟨fun r hcheck => ⟨fun hgo => ?_, fun w hw => ?_, fun hpresent hfence => ?_⟩, fun code addr hcheck => ?_⟩
  · exact completes_of_starts h (hexec s) ((hbody s₁).trans (spadAccess_goes hcheck hgo))
  · exact heldAt_of_starts h (hexec s) ((hbody s₁).trans (spadAccess_waits hcheck hw))
  · refine heldAt_of_starts h (hexec s) ((hbody s₁).trans ?_)
    rw [spadAccess_present hcheck hpresent, if_pos (List.any_eq_true.2 hfence)]
  · exact faults_of_starts h (hexec s) ((hbody s₁).trans (spadAccess_error hcheck))

/-! ## What a store leaves (R104, R111, R112) -/

/-- A store to the own desk brings nothing to a register and changes the desk alone. -/
theorem spadLanes_desk_write {instr : Nat} {a : Access} {off : Nat} {bs : List Byte} {t : Team} (ht : teamOf s c.tid = some t)
    (ha : a.acc = .write bs) (hd : a.dest = .none) :
    spadLanes c m instr [(a, .desk off)] s = modTeam s c.tid (fun t => t.writeDesk off bs) := by
  simp only [spadLanes, List.foldl_cons, List.foldl_nil, spadAct, ht, ha, hd, applyAcc, spadSend, if_true]

theorem homeWrite_plain {h off : Nat} {bs : List Byte} {k : Nat} (hw : homeWrite s k h false off bs = some s') :
    (hostHome k = true ∧ s' = { s with hostMem := writeBytes s.hostMem (4096 * h + off) bs }) ∨
    (hostHome k = false ∧ s' = { s with dram := writeBytes s.dram (homeAddr k h off) bs }) := by
  unfold homeWrite at hw
  cases hk : hostHome k <;> simp [hk] at hw <;> simp [← hw]

/-- Settles O23: either store is one write of consecutive bytes. -/
theorem storeFrames : Obligations.StoreFrames := by
  refine ⟨fun c m instr s a off bs t ht ha hd => ?_, fun s s' k h off bs hw => ?_⟩
  · have hlanes := spadLanes_desk_write (m := m) (instr := instr) (off := off) ht ha hd
    refine ⟨t.writeDesk off bs, by rw [hlanes, teamOf_modTeam_self, ht, Option.map_some], fun x hx => readByte_writeBytes_out hx,
      fun k hk => ?_, rfl, rfl, rfl, by rw [hlanes]; rfl⟩
    rw [Team.writeDesk, readByte_writeBytes, if_pos (by omega), Nat.add_sub_cancel_left]
  · obtain ⟨hk, rfl⟩ | ⟨hk, rfl⟩ := homeWrite_plain hw
    · exact ⟨fun _ _ => rfl, by simp [homeRead, hk, readBytes_writeBytes], rfl, rfl, rfl⟩
    · exact ⟨fun a ha => readByte_writeBytes_out ha, by simp [homeRead, hk, readBytes_writeBytes], rfl, rfl, rfl⟩

end Sys2Proof.Proofs
end

