-- ==== Sys2Proof/Proofs/Atomics.lean ====
section
/-! PROOFS. Atomics: the value that each leaves at its word (R245, R246), and their release and acquire fences (R248). -/

namespace Sys2Proof.Proofs

open Machine

variable {i : Instr} {s s' s₁ s₂ : State} {c c' : Ctx} {m : Mask} {names : List RegName} {l : List Access} {sp : Bool}

/-! ## The word that an atomic leaves (R245, R246) -/

/-- The word that an atomic on words of `w` bits leaves, where it writes. -/
def wordAfter {w : Nat} (op : AtomOp) (o a b : BitVec w) : Option (BitVec w) :=
  match op with
  | .add => some (o + a)
  | .band => some (o &&& a)
  | .bor => some (o ||| a)
  | .bxor => some (o ^^^ a)
  | .smin => some (if o.sle a then o else a)
  | .smax => some (if o.sle a then a else o)
  | .xchg => some a
  | .fadd => none
  | .cas => if o = a then some b else none
  | .incw => some (if o.toNat ≥ a.toNat then 0 else o + 1)
  | .bfadd => if o.toNat + a.toNat ≤ b.toNat then some (o + a) else none
  | .minu => some (if o.toNat ≤ a.toNat then o else a)
  | .maxu => some (if o.toNat ≤ a.toNat then a else o)

theorem sextInt_le_iff {w : Nat} (o a : BitVec w) : sextInt o.toNat w ≤ sextInt a.toNat w ↔ o.sle a = true := by
  rw [sextInt_toNat, sextInt_toNat, BitVec.sle_iff_toInt_le]

/-- The model's new value of an atomic is the word of `wordAfter`, and the old one where it writes nothing. -/
theorem atomNew_eq {w : Nat} {op : AtomOp} (hop : op ≠ .fadd) (o a b : BitVec w) {x y : Nat} (hx : x % 2 ^ w = a.toNat)
    (hy : y % 2 ^ w = b.toNat) :
    atomNew op w o.toNat x y = ((wordAfter op o a b).elim o.toNat BitVec.toNat, (wordAfter op o a b).isSome) := by
  have ho := o.isLt
  have ha := a.isLt
  have hb := b.isLt
  cases op <;> simp only [atomNew, wordAfter, hx, hy, sextInt_le_iff]
  case fadd => exact absurd rfl hop
  case add => simp
  case band => simp
  case bor => simp
  case bxor => simp
  case xchg => simp
  case smin => split <;> simp
  case smax => split <;> simp
  case minu => simp only [min_def]; split <;> simp
  case maxu => simp only [max_def]; split <;> simp
  case cas =>
    simp only [BitVec.toNat_inj]
    split <;> simp
  case incw =>
    split
    · simp
    · have hone : (1 : Nat) % 2 ^ w = 1 := Nat.mod_eq_of_lt (by omega)
      simp only [Option.elim_some, Option.isSome_some, BitVec.toNat_add, BitVec.ofNat_eq_ofNat, BitVec.toNat_ofNat, hone]
      rw [Nat.mod_eq_of_lt (by omega)]
  case bfadd =>
    by_cases hle : o.toNat + a.toNat ≤ b.toNat
    · rw [if_pos ⟨by omega, hle⟩, if_pos hle]
      simp [Nat.mod_eq_of_lt (show o.toNat + a.toNat < 2 ^ w by omega)]
    · rw [if_neg fun h => hle h.2, if_neg hle]
      rfl

theorem leNat_lt (bs : List Byte) : leNat bs < 2 ^ (8 * bs.length) := by
  induction bs with
  | nil => exact Nat.one_pos
  | cons b bs ih =>
    have hb := b.isLt
    rw [leNat, List.length_cons, show 8 * (bs.length + 1) = 8 * bs.length + 8 by omega, Nat.pow_add]
    omega

/-- Of an atomic's two results the first is the old bytes, the second what is stored (R247). -/
theorem applyAcc_atom {w : Nat} {wide : Bool} {op : AtomOp} (hop : op ≠ .fadd) (hw : (if wide then 64 else 32) = w) (x y : DWord) (old : List Byte)
    (hlen : 8 * old.length = w) : applyAcc (.atom op wide x y) old =
      (old, (wordAfter op (BitVec.ofNat w (leNat old)) (BitVec.ofNat w x.toNat) (BitVec.ofNat w y.toNat)).map
        (fun v => natBytes old.length v.toNat)) := by
  have ho : leNat old = (BitVec.ofNat w (leNat old)).toNat := by
    rw [BitVec.toNat_ofNat, Nat.mod_eq_of_lt (hlen ▸ leNat_lt old)]
  have hlen' : w / 8 = old.length := by omega
  have hnew := atomNew_eq hop (BitVec.ofNat w (leNat old)) (BitVec.ofNat w x.toNat) (BitVec.ofNat w y.toNat) (BitVec.toNat_ofNat ..).symm
    (BitVec.toNat_ofNat ..).symm
  rw [← ho] at hnew
  simp only [applyAcc, hw, hnew, hlen']
  cases wordAfter op (BitVec.ofNat w (leNat old)) (BitVec.ofNat w x.toNat) (BitVec.ofNat w y.toNat) <;> rfl

/-- Settles O24: each operation in turn, on the word as a bit vector. -/
theorem atomicOperations : Obligations.AtomicOperations := by
  refine ⟨fun op wide x y old hlen hop => ?_, fun x y old hlen => ?_⟩
  · have hlen' : 8 * old.length = if wide then 64 else 32 := by rw [hlen]; split <;> rfl
    have h := applyAcc_atom hop rfl x y old hlen'
    cases op <;> exact h
  · rfl

/-! ## The fences of an ordered atomic (R248) -/

/-- The accesses of an atomic, performed or sent, or their fault or hold, for its group as it stands in `c'`. -/
def atomEffect (c' : Ctx) (m : Mask) (names : List RegName) (l : List Access) (sp : Bool) (s : State) : Eff :=
  if sp then spadAccess c' m names l true s else memAccess c' m names l true s

/-- A context whose group differs in its write phase and its fences alone. -/
def reordered (c : Ctx) (ph : Nat) (f : Fences) : Ctx := { c with g := { c.g with phase := ph, fences := f } }

/-- Every atomic is its accesses between its fences; its lanes, registers and addresses do not depend on them. -/
theorem exec_eq_withOrder (hr : Spec.atomicOf c i = some (m, names, l, sp)) : ∃ f, (∀ s, exec i s = issue i (withOrder f) s) ∧
    ∀ ph fences s, f (reordered c ph fences) s = atomEffect (reordered c ph fences) m names l sp s := by
  cases i with
  | red g data ofs base op => cases hr; exact ⟨_, fun _ => rfl, fun _ _ _ => rfl⟩
  | atom g data ofs base op => cases hr; exact ⟨_, fun _ => rfl, fun _ _ _ => rfl⟩
  | atomx g data ofs base op => cases hr; exact ⟨_, fun _ => rfl, fun _ _ _ => rfl⟩
  | satom data base op => cases hr; exact ⟨_, fun _ => rfl, fun _ _ _ => rfl⟩
  | _ => cases hr

theorem atomEffect_goes (h : Spec.AtomGoes c' m names l sp s s') : atomEffect c' m names l sp s = .done s' := by
  cases sp with
  | true =>
    obtain ⟨r, hcheck, hgo, rfl⟩ := h
    exact spadAccess_goes hcheck hgo
  | false =>
    obtain ⟨l', u, hcheck, hsend, rfl⟩ := h
    exact (memAccess_ok hcheck).trans (if_pos hsend)

/-- An effect that comes to no next state of its own: a fault or a hold of the accesses. -/
theorem atomFaults_of {f : Ctx → State → Eff} (h : Starts i s c s₁) (hexec : exec i s = issue i (withOrder f) s)
    (hf : ∀ e, atomEffect c' m names l sp s₁ = e → (∀ u, e ≠ .done u) → withOrder f c s₁ = e) : Spec.AtomFaults i s c c' m l sp s₁ := by
  refine fun code addr => ⟨fun hsp hcheck => ?_, fun t hsp hcheck => ?_⟩
  · subst hsp
    exact faults_of_starts h hexec (hf _ (spadAccess_error hcheck) (by simp))
  · subst hsp
    exact faultsLeaving_of_starts h hexec (hf _ (memAccess_fault hcheck) (by simp))

section WithOrder

variable {f : Ctx → State → Eff} (hhome : 2 ≤ c.h.scope → placedHome s c = true)

include hhome

/-- With the pages of its PLACE at home the atomic waits for nothing before its fences. -/
theorem placedHome_guard : ¬ ((c.h.ord ≠ 0 && decide (2 ≤ c.h.scope) && !placedHome s c) = true) := by
  by_cases h2 : 2 ≤ c.h.scope
  · simp [hhome h2]
  · simp [h2]

theorem withOrder_acquire_done (hord : c.h.ord = 1) (h : f c s = .done s') : withOrder f c s = .done (ordAfter c s') := by
  simp only [withOrder]
  rw [if_neg (placedHome_guard hhome), if_pos (by omega), h]

theorem withOrder_acquire_else (hord : c.h.ord = 1) {e : Eff} (h : f c s = e) (he : ∀ u, e ≠ .done u) : withOrder f c s = e := by
  simp only [withOrder]
  rw [if_neg (placedHome_guard hhome), if_pos (by omega), h]
  cases e <;> simp at he ⊢

/-- The accesses are tried behind the fence before it closes the phase: a fault or a hold of theirs leaves the phase open (R8). -/
theorem withOrder_release_else (hord : 2 ≤ c.h.ord) {e : Eff} (h : f (reordered c c.g.phase (c.g.fences.next s c.h.scope)) s = e)
    (he : ∀ u, e ≠ .done u) : withOrder f c s = e := by
  change f { c with g := { c.g with fences := c.g.fences.next s c.h.scope } } s = e at h
  simp only [withOrder]
  rw [if_neg (placedHome_guard hhome), if_neg (by omega), h]
  cases e <;> simp at he ⊢

theorem withOrder_release_done (hord : 2 ≤ c.h.ord) {u t : State} {g : Group}
    (h : f (reordered c c.g.phase (c.g.fences.next s c.h.scope)) s = .done u) (hfence : fence c false true c.h.scope s = .done s₂)
    (hg : groupOf s₂ c.tid c.gid = some g) (hgo : f (reordered c g.phase g.fences) s₂ = .done t) :
    withOrder f c s = .done (ordAfter (reordered c g.phase g.fences) t) := by
  change f { c with g := { c.g with fences := c.g.fences.next s c.h.scope } } s = .done u at h
  change f { c with g := { c.g with phase := g.phase, fences := g.fences } } s₂ = .done t at hgo
  simp only [withOrder]
  rw [if_neg (placedHome_guard hhome), if_neg (by omega), h, hfence]
  simp only [hg, hgo]
  rfl

end WithOrder

theorem withOrder_held {f : Ctx → State → Eff} (hord : c.h.ord ≠ 0) (hscope : 2 ≤ c.h.scope) (h : placedHome s c = false) :
    withOrder f c s = .hold .issue s := by
  simp only [withOrder]
  rw [if_pos (by simp [hord, hscope, h])]

/-- RED accepts no acquire (R248): the HMOD's low order bit must be 0. -/
theorem red_hints_refused {gd op : BitVec 3} {data ofs base : BitVec 6} {h : Hints} (hord : h.ord % 2 = 1) :
    hintsAccepted h (.red gd data ofs base op) = false := by
  have hvalues : hintValuesOk h (.red gd data ofs base op) = false := by simp [hintValuesOk, hord]
  simp [hintsAccepted, hvalues]

/-- Settles O25: an ordered atomic tries its accesses, closes the phase, performs them and then waits for its acquire. -/
theorem orderedAtomics : Obligations.OrderedAtomics := by
  refine ⟨fun i s c s₁ m names l sp h hr hhome => ?_, fun i s c s₁ m names l sp h hr hord hscope hnot => ?_,
    fun gd op data ofs base s t g ht hg hstop hres hfault hreg hwait hord => ?_, fun ever _ _ _ _ _ _ _ ord scope _ _ _ _ hscope => ?_⟩
  · obtain ⟨f, hexec, hf⟩ := exec_eq_withOrder hr
    refine ⟨fun hord => ⟨fun t hgo => ?_, ?_⟩, fun hord => ⟨?_, fun s₂ g₂ u t hu hfence hg₂ hgo => ?_⟩⟩
    · exact completes_of_starts h (hexec s)
        (withOrder_acquire_done hhome hord ((hf c.g.phase c.g.fences s₁).trans (atomEffect_goes hgo)))
    · exact atomFaults_of h (hexec s) fun e he hne =>
        withOrder_acquire_else hhome hord ((hf c.g.phase c.g.fences s₁).trans he) hne
    · exact atomFaults_of h (hexec s) fun e he hne => withOrder_release_else hhome hord ((hf _ _ s₁).trans he) hne
    · exact completes_of_starts h (hexec s) (withOrder_release_done hhome hord ((hf _ _ s₁).trans (atomEffect_goes hu)) hfence hg₂
        ((hf _ _ s₂).trans (atomEffect_goes hgo)))
  · obtain ⟨f, hexec, -⟩ := exec_eq_withOrder hr
    exact heldAt_of_starts h (hexec s) (withOrder_held hord hscope hnot)
  · have hp : Spec.Present s t g := ⟨ht, groupOf_eq_some ht hg, hstop, hres, hfault, hreg, by rw [hwait]; rfl⟩
    have hd : decodeFault t g (.red gd data ofs base op) = some 0x01 := by
      rw [decodeFault_eq, if_pos (.inr (.inl (red_hints_refused hord)))]
    exact exec_of_decodeFault hp hwait hd rfl rfl
  · have hlt : ¬ scope < 5#3 := by simpa [BitVec.lt_def] using hscope
    simp [Instr.wf, hmodOk, hlt]

end Sys2Proof.Proofs
end

