-- ==== Sys2Proof/Proofs/OrderingInstructions.lean ====
section
/-! PROOFS. PLACE (R249), WAITA (R250), FENCE, ACQ and REL (R251 to R253) and the timelines (R48, R255, R256). -/

namespace Sys2Proof.Proofs

open Machine

variable {i : Instr} {s s' s₁ s₂ s₃ : State} {c : Ctx}

/-! ## The pages of a PLACE (R249) -/

theorem mem_placePages {a n v : Nat} : v ∈ placePages a n ↔
    (∃ b, a ≤ b ∧ b < a + n ∧ b / 4096 = v) ∧ v < a / 4096 + 512 ∧ v < 2 ^ 36 ∧ inPool (v * 4096) = false := by
  rcases Nat.eq_zero_or_pos n with rfl | hn
  · simpa [placePages] using fun b h1 h2 => absurd h2 (by omega)
  · have hrange : (∃ k < min 512 ((a + n - 1) / 4096 + 1 - a / 4096), a / 4096 + k = v) ↔
        (∃ b, a ≤ b ∧ b < a + n ∧ b / 4096 = v) ∧ v < a / 4096 + 512 := by
      constructor
      · rintro ⟨k, hk, rfl⟩
        refine ⟨⟨max a ((a / 4096 + k) * 4096), ?_, ?_, ?_⟩, ?_⟩ <;> omega
      · rintro ⟨⟨b, h1, h2, rfl⟩, h3⟩
        exact ⟨b / 4096 - a / 4096, by omega, by omega⟩
    simp only [placePages, if_neg hn.ne', List.mem_filter, List.mem_map, List.mem_range, Bool.and_eq_true, decide_eq_true_eq,
      Bool.not_eq_true', hrange, and_assoc]

theorem placePages_pairwise (a n : Nat) : (placePages a n).Pairwise (· < ·) := by
  unfold placePages
  split
  · exact List.Pairwise.nil
  · exact (List.pairwise_map.2 (List.pairwise_lt_range.imp fun h => Nat.add_lt_add_left h _)).filter _

/-- A replica creation waits for a commit on its frame, or for a load of its core that is on its way there. -/
theorem replicaWaits_iff {v : Nat} : replicaWaits s c v = true ↔ ∃ l, leafNow s c.t.part c.t.aspace (v * 4096) = some l ∧ l.rep ≠ 0 ∧
    isFrame l.place = true ∧ ((∃ m ∈ s.flight, ∃ r off w b, m.2 = .commit r off w b ∧ r.place = l.place) ∨
      (∃ m ∈ s.flight, ∃ r, (m.2 = .mem r ∨ ∃ k, m.2 = .sector r k) ∧ r.core = c.core ∧ r.acc = .read ∧ r.place = l.place ∧
        (r.far = false ∨ l.rep ≠ 2))) := by
  have hcommit : ∀ p, commitOn s p = true ↔ ∃ m ∈ s.flight, ∃ r off w b, m.2 = .commit r off w b ∧ r.place = p := fun p => by
    simp only [commitOn, List.any_eq_true]
    refine exists_congr fun m => and_congr_right fun _ => ?_
    cases m.2 <;> simp
  have hload : ∀ p rep, loadOn s c.core p rep = true ↔ ∃ m ∈ s.flight, ∃ r, (m.2 = .mem r ∨ ∃ k, m.2 = .sector r k) ∧ r.core = c.core ∧
      r.acc = .read ∧ r.place = p ∧ (r.far = false ∨ rep ≠ 2) := fun p rep => by
    simp only [loadOn, List.any_eq_true]
    refine exists_congr fun m => and_congr_right fun _ => ?_
    cases m.2 <;> simp [and_assoc]
  unfold replicaWaits
  cases leafNow s c.t.part c.t.aspace (v * 4096) with
  | none => simp
  | some l => simp [hcommit, hload, and_assoc]

theorem place_completes {len base : BitVec 6} {wh : BitVec 3} (h : Starts (.place len base wh) s c s₁)
    (hfree : wh = 0 → ∀ v ∈ placePages (c.s base).toNat (c.s len).toNat, replicaWaits s₁ c v = false) :
    Completes (.place len base wh) s c ((placePages (c.s base).toNat (c.s len).toNat).foldl (placeOne c wh.toNat) s₁) := by
  refine completes_of_starts h rfl (if_neg fun hwait => ?_)
  obtain ⟨hw, hany⟩ := Bool.and_eq_true_iff.1 hwait
  obtain ⟨v, hv, hv'⟩ := List.any_eq_true.1 hany
  rw [hfree (of_decide_eq_true hw) v hv] at hv'
  cases hv'

theorem moveOn_flight (i : Instr) (c : Ctx) (s : State) : (moveOn i c s).flight = s.flight := rfl

/-- Settles O26: the pages by arithmetic, the wait by the messages in flight. -/
theorem placeInstruction : Obligations.PlaceInstruction := by
  refine ⟨fun a n v => mem_placePages, placePages_pairwise, fun len base wh s c s₁ h hfree => place_completes h hfree,
    fun len base s c s₁ h ⟨v, hv, hwait⟩ => heldAt_of_starts h rfl (if_pos ?_), fun s c v => replicaWaits_iff, fun len base wh s t g h hfree => ?_⟩
  · exact Bool.and_eq_true_iff.2 ⟨rfl, List.any_eq_true.2 ⟨v, hv, hwait⟩⟩
  · have hstart : Starts (.place len base wh) s ⟨s.cur.1, s.cur.2, t, g⟩ (moveOn (.place len base wh) ⟨s.cur.1, s.cur.2, t, g⟩ s) :=
      ⟨s, start_go_of_ready h⟩
    refine ⟨_, hstart, place_completes hstart fun hw v _ => ?_⟩
    rw [← Bool.not_eq_true, replicaWaits_iff]
    rintro ⟨l, -, -, -, ⟨m, hm, r, off, w, b, hcommit, -⟩ | ⟨m, hm, r, hload, hcore, hread, -⟩⟩
    · exact (hfree hw m hm r).1 off w b hcommit
    · exact ((hfree hw m hm r).2 hload).elim (absurd hcore) (absurd hread)

/-! ## Reads that are performed at once (R117, R130, R369) -/

/-- Checked accesses are accesses of the instruction. -/
theorem mem_of_checkMem {l : List Access} {l' : List (Access × Xlat)} (h : checkMem c l s = .ok l' s') : ∀ p ∈ l', p.1 ∈ l := by
  unfold checkMem at h
  split_ifs at h
  split at h
  · cases h
  · cases h
  · dsimp only at h
    split at h
    · cases h
    · cases h
      intro p hp
      obtain ⟨a, ha, hmap⟩ := List.mem_filterMap.1 hp
      obtain ⟨q, -, rfl⟩ := Option.map_eq_some_iff.1 hmap
      exact ha

theorem checkMem_single {a a' : Access} {x : Xlat} (h : checkMem c [a] s = .ok [(a', x)] s') : a' = a :=
  List.mem_singleton.1 (mem_of_checkMem h _ (List.mem_singleton.2 rfl))

section AtOnce

variable {r : MemReq} (hback : heldBack s r s.nextId = false)

include hback

theorem readAtOnce_done {bs : List Byte} (h : perform s r = .done s' bs) : readAtOnce c [r] s = .done (Spec.readDone c s') bs := by
  simp [readAtOnce, hback, readRun, h, Spec.readDone]

theorem readAtOnce_waits (h : perform s r = .waits) :
    readAtOnce c [r] s = .held (modGroup s r.team r.group (fun g => { g with sectors := asked s [r] })) := by
  simp [readAtOnce, hback, readRun, h]

theorem readAtOnce_bounced (h : perform s r = .bounced) : readAtOnce c [r] s = .held (readBounced s r) := by
  simp [readAtOnce, hback, readRun, h]

end AtOnce

/-- The one sector that a single read asks for, if its frame lacks it. -/
theorem asked_single (s : State) (r : MemReq) :
    asked s [r] = if lacks s r.place r.ten (r.va % 4096 / 16) then [(r.place, r.ten, r.va % 4096 / 16)] else [] := by
  simp only [asked, List.map_cons, List.map_nil]
  split
  · next h => simp only [List.filter_cons, List.filter_nil, h, if_true]; rfl
  · next h => simp only [List.filter_cons, List.filter_nil, h]; rfl

/-! ## WAITA (R250) -/

/-- What WAITA does with its read, once its access has passed the checks. -/
def waitaRead (c : Ctx) (data : BitVec 6) (uns w : BitVec 1) (cond : BitVec 3) (a : Nat) : AtOnce → Eff
  | .done s bs =>
    let v : DWord := BitVec.ofNat 64 (leNat bs)
    if intCond cond.toNat (sOperand v uns w) (sOperand (c.s data) uns w) then
      .done (passYield (modGroup s c.tid c.gid (fun g => g.setS data.toNat (sResult (sOperand v uns w) uns w))) c.tid c.gid)
    else .hold (.waita a) s
  | .held s => .hold (.waita a) s
  | .bad code _ s' => .refused s' code a c.g.m0

/-- The effect of WAITA behind its checks. -/
theorem exec_waita {data base : BitVec 6} {uns wide : BitVec 1} {cond : BitVec 3} {acc : Access} {x : Xlat}
    (hcheck : checkMem c [⟨0, (c.s base).toNat, if wide = 1 then 8 else 4, if wide = 1 then 8 else 4, .read, .none⟩] s₁ = .ok [(acc, x)] s₂) :
    ∃ body, (∀ s, exec (.waita data uns wide base cond) s = issue (.waita data uns wide base cond) body s) ∧ body c s₁ =
      if placeBusy s₂ c (c.s base).toNat || !entryFree s₂ (c.plainRequest acc x) then .hold .issue s₂
      else waitaRead c data uns (if wide = 1 then 0 else 1) cond (c.s base).toNat (readAtOnce c [c.plainRequest acc x] s₂) := by
  refine ⟨_, fun _ => rfl, ?_⟩
  obtain rfl | rfl := bit_cases wide
  · rw [if_neg (by decide)] at hcheck
    simp only [isSet_zero, Bool.false_eq_true, if_false, hcheck]
    split
    · rfl
    · cases readAtOnce c [c.plainRequest acc x] s₂ <;> rfl
  · rw [if_pos rfl] at hcheck
    simp only [isSet_one, if_true, hcheck]
    split
    · rfl
    · cases readAtOnce c [c.plainRequest acc x] s₂ <;> rfl

/-- Settles O27: one read at the place that the entry names, by what comes of it. -/
theorem waitOnAddress : Obligations.WaitOnAddress := by
  intro data base uns wide cond s c s₁ acc x s₂ s₃ bs h hcheck
  obtain ⟨body, hexec, hbody⟩ := exec_waita (data := data) (uns := uns) (cond := cond) hcheck
  have hva : acc.addr = (c.s base).toNat := by rw [checkMem_single hcheck]
  refine ⟨fun hbusy => heldAt_of_starts h (hexec s) (hbody.trans (if_pos (by simpa using hbusy))), fun hfree hentry hback => ?_⟩
  rw [if_neg (by simp [hfree, hentry])] at hbody
  refine ⟨fun hp => ?_, fun hp => ?_, fun hp => ?_⟩
  · rw [readAtOnce_done hback hp, waitaRead] at hbody
    intro w v
    split
    · next hcond => exact completes_of_starts h (hexec s) (hbody.trans (if_pos hcond))
    · next hcond => exact heldAt_of_starts h (hexec s) (hbody.trans (if_neg hcond))
  · rw [readAtOnce_waits hback hp, asked_single, show (c.plainRequest acc x).va = (c.s base).toNat from hva] at hbody
    exact heldAt_of_starts h (hexec s) hbody
  · rw [readAtOnce_bounced hback hp, readBounced, show (c.plainRequest acc x).va = (c.s base).toNat from hva] at hbody
    refine heldAt_of_starts h (hexec s) (hbody.trans ?_)
    refine congrArg (fun f => Eff.hold (.waita (c.s base).toNat) (modGroup (bounceBack s₂ c.core c.t.aspace (c.s base).toNat) c.tid c.gid f))
      (funext fun g => ?_)
    simp only [Group.registerAt]
    split <;> rfl

/-! ## FENCE (R134, R249, R251, R253) -/

section Fence

variable {acq rel : Bool} {scope : Nat}

/-- The state behind a fence's wait for its pages: they are at home, and asked for no more. -/
def homeCleared (c : Ctx) (scope : Nat) (s : State) : State :=
  if 2 ≤ scope then changeGroup c s (fun g => { g with placeHome := [] }) else s

/-- The last part of a fence: an acquire waits for the group's reads and refreshes replicas. -/
def acquirePart (c : Ctx) (acq : Bool) (scope : Nat) (s : State) : Eff :=
  if acq then
    if readsOut s c.tid c.gid (2 ≤ scope) then .hold (.acquire (2 ≤ scope)) s
    else .done (if 2 ≤ scope then refreshReplicas s c.core 0 else s)
  else .done s

theorem fence_placeHome (hscope : 2 ≤ scope) (h : placedHome s c = false) : fence c acq rel scope s = .hold .placeHome s := by
  simp [fence, hscope, h]

variable (hhome : 2 ≤ scope → placedHome s c = true)

include hhome

theorem fence_acquire : fence c acq false scope s = acquirePart c acq scope (homeCleared c scope s) := by
  rw [fence, if_neg (by simpa using hhome)]
  rfl

theorem fence_release {id : Nat} (hwait : c.g.wait = none)
    (hopen : openRelease (homeCleared c scope s) c.tid c.gid (scope = 4) = some (id, s')) :
    fence c acq true scope s = acquirePart c acq scope (newEpoch s' c.tid c.gid scope) := by
  rw [fence, if_neg (by simpa using hhome)]
  simp only [hwait, Bool.not_false, Bool.and_self, if_true]
  unfold homeCleared changeGroup at hopen
  rw [hopen]
  rfl

theorem fence_full (hwait : c.g.wait = none) (hopen : openRelease (homeCleared c scope s) c.tid c.gid (scope = 4) = none) :
    fence c acq true scope s = .hold (.release 0) (homeCleared c scope s) := by
  rw [fence, if_neg (by simpa using hhome)]
  simp only [hwait, Bool.not_false, Bool.and_self, if_true]
  unfold homeCleared changeGroup at hopen
  rw [hopen]
  rfl

end Fence

theorem acquirePart_outcome {acq : Bool} {scope : Nat} {body : Ctx → State → Eff} (h : Starts i s c s₁) (he : exec i s = issue i body s)
    (hb : body c s₁ = acquirePart c acq scope s₂) :
    if acq then
      if readsOut s₂ c.tid c.gid (2 ≤ scope) then HeldAt i s c (.acquire (2 ≤ scope)) s₂
      else Completes i s c (if 2 ≤ scope then refreshReplicas s₂ c.core 0 else s₂)
    else Completes i s c s₂ := by
  unfold acquirePart at hb
  split_ifs with hacq hreads
  · exact heldAt_of_starts h he (by simpa [hacq, hreads] using hb)
  all_goals exact completes_of_starts h he (by simp_all)

theorem scope_eq_four (scope : BitVec 3) : (scope.toNat = 4) = (scope = 4) :=
  propext (BitVec.toNat_inj (y := 4#3))

/-- Settles O28: a fence is its wait for pages, its release and its acquire, one after the other. -/
theorem fenceInstruction : Obligations.FenceInstruction := by
  refine ⟨fun scope kind s c s₁ s₂ h hwait hhome => ?_, fun scope kind s c s₁ h hwait => ⟨fun hscope hnot => ?_, fun hhome hrel hopen => ?_⟩⟩
  · intro cleared hrel
    cases hk : kind.getLsbD 1 with
    | true =>
      rw [hk, if_pos rfl] at hrel
      obtain ⟨id, s', hopen, rfl⟩ := hrel
      simp only [← scope_eq_four] at hopen ⊢
      exact acquirePart_outcome h rfl (by rw [hk]; exact fence_release hhome hwait hopen)
    | false =>
      rw [hk, if_neg Bool.false_ne_true] at hrel
      subst hrel
      exact acquirePart_outcome h rfl (by rw [hk]; exact fence_acquire hhome)
  · exact heldAt_of_starts h rfl (fence_placeHome hscope hnot)
  · simp only [← scope_eq_four] at hopen
    exact heldAt_of_starts h rfl (by rw [hrel]; exact fence_full hhome hwait hopen)

/-! ## ACQ and REL (R133, R252, R253) -/

section Acq

variable {a d : BitVec 6} {scope : BitVec 3} {acc : Access} {x : Xlat}

theorem acq_completes {bs : List Byte} (h : Starts (.acq a d scope) s c s₁)
    (hcheck : checkMem c [⟨0, (c.s a).toNat, 8, 8, .read, .none⟩] s₁ = .ok [(acc, x)] s₂) (hfree : placeBusy s₂ c (c.s a).toNat = false)
    (hentry : entryFree s₂ (c.plainRequest acc x) = true) (hback : heldBack s₂ (c.plainRequest acc x) s₂.nextId = false)
    (hp : perform s₂ (c.plainRequest acc x) = .done s₃ bs) : Completes (.acq a d scope) s c
      (changeGroup c (if leNat bs % 256 = 0 then Spec.readDone c s₃ else refreshReplicas (Spec.readDone c s₃) c.core (leNat bs % 256))
        (fun g => g.setS d.toNat (BitVec.ofNat 64 (leNat bs)))) := by
  refine completes_of_starts h rfl ?_
  simp only [hcheck, hfree, hentry, Bool.not_true, Bool.or_self, Bool.false_eq_true, if_false]
  rw [readAtOnce_done hback hp]

theorem acq_held (h : Starts (.acq a d scope) s c s₁)
    (hcheck : checkMem c [⟨0, (c.s a).toNat, 8, 8, .read, .none⟩] s₁ = .ok [(acc, x)] s₂)
    (hbusy : placeBusy s₂ c (c.s a).toNat = true ∨ entryFree s₂ (c.plainRequest acc x) = false) :
    HeldAt (.acq a d scope) s c .issue s₂ := by
  refine heldAt_of_starts h rfl ?_
  simp only [hcheck]
  rw [if_pos (by simpa using hbusy)]

end Acq

/-- The release write that ends a REL, behind the phase that it has closed. -/
def relWrite (c : Ctx) (g : Group) (acc : Access) (x : Xlat) (s : State) : State :=
  let s := sendAll { c with g := { c.g with phase := g.phase } } c.g.m0 [(acc, x)] true [] s
  if readsOut s c.tid c.gid false && !takenBack s c.tid c.gid s.nextId then
    changeGroup c s (fun g => { g with wait := some (.performed false) }) else s

section Rel

variable {a : BitVec 6} {scope : BitVec 3} {acc : Access} {x : Xlat} {g : Group} {id : Nat} (h : Starts (.rel a scope) s c s₁)
  (hwait : c.g.wait = none) (hcheck : checkMem c [⟨0, (c.s a).toNat, 8, 8, .relBump, .none⟩] s₁ = .ok [(acc, x)] s₂)

include h hwait hcheck

theorem rel_held_unsent (hsend : canSend s₂ c [(acc, x)] true = false) : HeldAt (.rel a scope) s c .issue s₂ := by
  refine heldAt_of_starts h rfl ?_
  simp only [hcheck, hsend, hwait, Bool.not_false, if_true]

variable (hsend : canSend s₂ c [(acc, x)] true = true) (hopen : openRelease s₂ c.tid c.gid (scope = 4) = some (id, s₃))
  (hg : groupOf s₃ c.tid c.gid = some g)

include hsend hopen hg

theorem rel_held (hout : (g.release id).isSome = true) : HeldAt (.rel a scope) s c (.release id) s₃ := by
  refine heldAt_of_starts h rfl ?_
  simp only [hcheck, hsend, hwait, hopen, hg, Option.any_some, hout, Bool.not_true, Bool.false_eq_true, if_false, if_true]

theorem rel_completes (hout : (g.release id).isSome = false) : Completes (.rel a scope) s c (relWrite c g acc x s₃) := by
  refine completes_of_starts h rfl ?_
  simp only [hcheck, hsend, Bool.not_true, Bool.false_eq_true, if_false]
  split
  · next hw => rw [hwait] at hw; cases hw
  · simp only [hopen, hg, Option.any_some, hout, Bool.false_eq_true, if_false]
    rfl

end Rel

/-- Settles O29: ACQ by its one read; REL by the release that it opens. -/
theorem acquireAndRelease : Obligations.AcquireAndRelease := by
  refine ⟨fun a d scope s c s₁ acc x s₂ s₃ bs h hcheck hfree hentry hback hp => acq_completes h hcheck hfree hentry hback hp,
    fun a scope s c s₁ acc x s₂ s₃ id g h hwait hcheck hsend hopen hg => ?_, fun i a d scope s c s₁ s₂ acc x h hi => ?_,
    fun i a d scope s c s₁ s' code addr hi h => ?_, fun old => rfl⟩
  · split
    · next hout => exact rel_held h hwait hcheck hsend hopen hg hout
    · next hout =>
      have hdone := rel_completes h hwait hcheck hsend hopen hg (Bool.eq_false_iff.2 hout)
      simpa only [relWrite, Bool.and_eq_true, Bool.not_eq_true'] using hdone
  · obtain ⟨rfl, hcheck, hbusy⟩ | ⟨rfl, hwait, hcheck, hsend⟩ := hi
    · exact acq_held h hcheck hbusy
    · exact rel_held_unsent h hwait hcheck hsend
  · obtain ⟨rfl, hcheck⟩ | ⟨rfl, hcheck⟩ := hi
    · exact faultsLeaving_of_starts h rfl (by simp only [hcheck])
    · exact faultsLeaving_of_starts h rfl (by simp only [hcheck])

/-! ## Timelines (R48, R255, R256) -/

/-- A timeline's value moves on only over the number that follows it, and never back (R48). -/
theorem value_le_advance (x : Timeline) (n : Nat) : x.value ≤ (x.advance n).value := by
  induction n generalizing x with
  | zero => exact le_rfl
  | succ n ih =>
    rw [Timeline.advance]
    split
    · exact (Nat.le_succ _).trans (ih { x with value := x.value + 1, early := x.early.filter (· ≠ x.value + 1) })
    · exact le_rfl

theorem advance_handed (x : Timeline) (n : Nat) : (x.advance n).handed = x.handed := by
  induction n generalizing x with
  | zero => rfl
  | succ n ih =>
    rw [Timeline.advance]
    split
    · exact ih _
    · rfl

/-- Settles O30: the count against the timeline's value; the value's rise by its recursion. -/
theorem timelineInstructions : Obligations.TimelineInstructions := by
  refine ⟨⟨fun a tl s c s₁ h => ?_, fun d tl s c s₁ h => completes_toScalar h rfl rfl⟩, fun x k hearly => ⟨?_, fun hk => ?_, fun hk => ?_, ?_⟩⟩
  · intro n
    have hn : (if c.h.count ≠ 0 then c.h.imm.toNat else (c.s a).toNat) = n := ite_not ..
    split_ifs with h0 hle
    · exact completes_of_starts h rfl (by dsimp only; rw [hn, if_pos h0])
    · exact completes_of_starts h rfl (by dsimp only; rw [hn, if_neg h0, if_pos hle])
    · exact heldAt_of_starts h rfl (by dsimp only; rw [hn, if_neg h0, if_neg hle])
  · exact value_le_advance { x with early := k :: x.early } _
  · rw [Timeline.complete, Timeline.advance, if_pos (by simp [hk])]
    exact Nat.lt_of_lt_of_le (Nat.lt_succ_self _) (value_le_advance ⟨x.handed, _, x.value + 1⟩ _)
  · rw [Timeline.complete, Timeline.advance, if_neg]
    simpa [Ne.symm hk] using hearly
  · exact advance_handed { x with early := k :: x.early } _

end Sys2Proof.Proofs
end

