-- ==== Sys2Proof/Proofs/Synchronisation.lean ====
section
/-! PROOFS. Named barriers (R262, R263, R398), named queues (R265, R266) and exchange phases (R268 to R271). -/

namespace Sys2Proof.Proofs

open Machine

variable {i : Instr} {s s₀ s₁ s₂ : State} {c : Ctx} {t : Team} {g : Group}

/-! ## Allocation (R261, R262, R265) -/

/-- Settles O31: the mask is tested first, then the lowest free number is looked up. -/
theorem barrierAllocation : Obligations.BarrierAllocation := by
  intro d p s c s₁ h m
  have hm : (c.s p).toNat % 2 ^ 32 = m.toNat := (toNat_truncate (c.s p)).symm
  have hzero : m.toNat = 0 ↔ m = 0 := BitVec.toNat_inj (y := 0)
  refine ⟨fun hbad => ?_, fun hne hlt hfree => ?_, fun n hne hlt hfree => ?_⟩
  · exact faults_of_starts h rfl (by dsimp only; rw [hm, if_pos (by rwa [hzero])]; rfl)
  · refine completes_of_starts h rfl ?_
    dsimp only
    rw [hm, if_neg (by rw [hzero]; exact not_or.2 ⟨hne, Nat.not_le.2 hlt⟩), hfree]
    rfl
  · refine completes_of_starts h rfl ?_
    dsimp only
    rw [hm, if_neg (by rw [hzero]; exact not_or.2 ⟨hne, Nat.not_le.2 hlt⟩), hfree, BitVec.ofNat_toNat, BitVec.setWidth_eq]
    rfl

/-- Settles O34: QALLOC tests the ring before it looks for a free number; QGRANT tests its two bounds. -/
theorem queueAllocation : Obligations.QueueAllocation := by
  refine ⟨fun d a cc s c s₁ h => ?_, fun q k s c s₁ h n x hq => ?_⟩
  · intro off cap al ok
    have hok : (off % 4 ≠ 0 ∨ 2 ^ 18 ≤ off ∨ c.t.header.desk < off + 4 * cap ∨ cap = 0 ∨ 4096 < cap ∨ cap < al) ↔ ¬ ok := by
      simp only [ok]
      omega
    refine ⟨fun hbad => faults_of_starts h rfl (if_pos (hok.2 hbad)), fun hgood hfree => ?_, fun n hgood hfree => ?_⟩
    · exact completes_of_starts h rfl ((if_neg (hok.not.2 (not_not.2 hgood))).trans (by rw [hfree]; rfl))
    · exact completes_of_starts h rfl ((if_neg (hok.not.2 (not_not.2 hgood))).trans (by rw [hfree]; rfl))
  · split
    · next hle =>
      refine completes_of_starts h rfl ?_
      simp only [hq]
      rw [if_neg (by omega)]
    · next hgt =>
      refine faults_of_starts h rfl ?_
      simp only [hq]
      rw [if_pos (by omega)]
      rfl

/-! ## The group of an instruction that has started -/

/-- The context of an instruction that goes ahead is its team and group as they stand, and its own effect begins when the group has moved on. -/
theorem start_go_ctx (h : start i s = .go c s₀ s₁) :
    ∃ u, teamOf u c.tid = some c.t ∧ groupOf u c.tid c.gid = some c.g ∧ s₁ = moveOn i c u := by
  simp only [start] at h
  split at h
  · next t g _ _ =>
    generalize (if g.wait = some (.performed true) then refreshReplicas s t.core 0 else s) = u at h
    split at h
    · cases h
    split at h
    · cases h
    split at h
    · cases h
    split at h
    · cases h
    split at h
    · cases h
    generalize afterYield u s.cur.1 s.cur.2 _ = v at h
    split at h
    · next ht hg => cases h; exact ⟨v, ht, hg, rfl⟩
    · cases h
  · cases h

theorem movedGroup_wait (i : Instr) (c : Ctx) (g : Group) : (movedGroup i c g).wait = none := by
  obtain ⟨_, _, hadv⟩ := advance_eq { g with hints := .none, wait := none, sectors := [] }
  simp only [movedGroup, hadv]

/-- The group of a state is there and waits for nothing. -/
def Running (s : State) (tid gid : Nat) : Prop := ∃ g, groupOf s tid gid = some g ∧ g.wait = none

/-- An instruction that has started has left its group waiting for nothing. -/
theorem running_of_starts (h : Starts i s c s₁) : Running s₁ c.tid c.gid := by
  obtain ⟨s₀, hgo⟩ := h
  obtain ⟨u, -, hg, rfl⟩ := start_go_ctx hgo
  exact ⟨movedGroup i c c.g, by rw [groupOf_moveOn, hg, Option.map_some], movedGroup_wait i c c.g⟩

theorem running_passYield {tid gid : Nat} (h : Running s tid gid) : Running (passYield s tid gid) tid gid := by
  obtain ⟨g, hg, hw⟩ := h
  exact ⟨g.scramble s.free, by rw [groupOf_passYield_self, hg, Option.map_some], hw⟩

/-! ## The barrier unit behind an instruction (R398) -/

theorem mem_of_nmGet {α : Type} {k : Nat} {v : α} {m : NMap α} (h : nmGet k m = some v) : (k, v) ∈ m := by
  induction m with
  | nil => cases h
  | cons p m ih =>
    obtain ⟨k', v'⟩ := p
    rw [nmGet] at h
    split at h
    · next hk => cases h; rw [hk]; exact List.mem_cons_self
    · exact List.mem_cons_of_mem _ (ih h)

/-- While one group of the team waits for nothing, the barrier unit finds no deadlock. -/
theorem checkDeadlock_of_running {tid gid : Nat} (h : Running s tid gid) : checkDeadlock s tid = s := by
  obtain ⟨g, hg, hw⟩ := h
  unfold checkDeadlock
  cases ht : teamOf s tid with
  | none => rfl
  | some t =>
    rw [groupOf, ht, Option.bind_some] at hg
    have hstuck : t.groups.all (fun p => t.stuck p.2) = false :=
      List.all_eq_false.2 ⟨(gid, g), mem_of_nmGet hg, by simp [Team.stuck, hw]⟩
    simp only [hstuck, Bool.and_false, Bool.false_eq_true, if_false]

section Checked

variable {body : Ctx → State → Eff} (h : Starts i s c s₁) (he : exec i s = thenCheck s.cur.1 (issue i body s))

include h he

/-- A barrier instruction that is done completes: the unit's check behind it finds its group running. -/
theorem checked_completes (hb : body c s₁ = .done s₂) (hrun : Running s₂ c.tid c.gid) : Completes i s c s₂ := by
  obtain ⟨s₀, hgo⟩ := h
  obtain ⟨htid, -⟩ := start_go_team hgo
  have hrun' : Running (retire s₂ c.t.core c.tid c.gid) c.tid c.gid := by rwa [Running, groupOf_retire]
  rw [Completes, he, issue_go hgo, hb, conclude_done, thenCheck, ← htid, checkDeadlock_of_running hrun']

theorem checked_held {w : Wait} (hb : body c s₁ = .hold w s₂) : Spec.HeldAtBarrier i s c w s₂ := by
  obtain ⟨s₀, hgo⟩ := h
  obtain ⟨htid, -⟩ := start_go_team hgo
  rw [Spec.HeldAtBarrier, he, issue_go hgo, hb, thenCheck, ← htid]
  rfl

end Checked

/-! ## Arrivals and phases (R263) -/

theorem atBarrier_of_member {b : BitVec 6} {rest : Nat → Barrier → Eff} {n : Nat} {x : Barrier} (hb : c.barrier b = some (n, x))
    (hm : x.mask.getLsbD c.g.index = true) : atBarrier c b rest = rest n x := by
  simp only [atBarrier, hb, hm, Bool.not_true, Bool.false_eq_true, if_false]

theorem pendingPhase_none {n : Nat} {x : Barrier} (h : ∀ ph, nmGet n c.g.arrived = some ph → ph < x.phase) : pendingPhase c n x = none := by
  unfold pendingPhase
  cases ha : nmGet n c.g.arrived with
  | none => rfl
  | some ph => rw [Option.bind_some, if_neg (Nat.not_le.2 (h ph ha))]

theorem pendingPhase_some {n ph : Nat} {x : Barrier} (ha : nmGet n c.g.arrived = some ph) (h : x.phase ≤ ph) : pendingPhase c n x = some ph := by
  rw [pendingPhase, ha, Option.bind_some, if_pos h]

section AwaitPhase

variable {n ph : Nat} {y : Barrier} (ht : teamOf s c.tid = some t) (hy : nmGet n t.bars = some y)

include ht hy

theorem awaitPhase_done (hph : ph < y.phase) (hset : settledBefore s c.tid y.mark = true) :
    awaitPhase c n ph s = .done (passYield s c.tid c.gid) := by
  simp only [awaitPhase, ht, Option.bind_some, hy, hph, hset, decide_true, Bool.and_self, if_true]

theorem awaitPhase_held (hnot : y.phase ≤ ph ∨ settledBefore s c.tid y.mark = false) : awaitPhase c n ph s = .hold (.barrier n ph) s := by
  simp only [awaitPhase, ht, Option.bind_some, hy]
  refine if_neg fun hgo => ?_
  obtain ⟨hph, hset⟩ := Bool.and_eq_true_iff.1 hgo
  exact hnot.elim (Nat.not_le.2 (of_decide_eq_true hph)) (Bool.eq_false_iff.1 · hset)

end AwaitPhase

theorem completeBarrier_of_all {mark : Nat} {b : Barrier} (hne : b.arrived ≠ []) (h : ∀ k ∈ t.live b, k ∈ b.arrived) :
    t.completeBarrier mark b = { b with phase := b.phase + 1, arrived := [], joinNext := [], mark := mark } := by
  rw [Team.completeBarrier, if_pos]
  simpa [hne] using h

theorem completeBarrier_of_missing {mark : Nat} {b : Barrier} (h : b.arrived = [] ∨ ∃ k ∈ t.live b, k ∉ b.arrived) :
    t.completeBarrier mark b = b := by
  rw [Team.completeBarrier, if_neg]
  simpa [imp_iff_not_or] using h

/-- The group that has arrived notes its phase, and goes on as it was. -/
theorem running_arrive {n : Nat} {x : Barrier} (h : Running s c.tid c.gid) : Running (arrive c n x s) c.tid c.gid := by
  obtain ⟨g, hg, hw⟩ := h
  refine ⟨{ g with arrived := nmPut n x.phase g.arrived }, ?_, hw⟩
  unfold groupOf at hg ⊢
  cases ht : teamOf s c.tid with
  | none => rw [ht] at hg; cases hg
  | some t =>
    rw [ht, Option.bind_some] at hg
    simp [arrive, ht, Team.completeBarriers, hg]

theorem nmGet_map_snd {α : Type} (k : Nat) (f : α → α) (m : NMap α) : nmGet k (m.map (fun p => (p.1, f p.2))) = (nmGet k m).map f := by
  induction m with
  | nil => rfl
  | cons p m ih =>
    obtain ⟨k', v⟩ := p
    simp only [List.map_cons, nmGet, ih]
    split <;> rfl

theorem map_fst_nmModify {α : Type} (k : Nat) (f : α → α) (m : NMap α) : (nmModify k f m).map (·.1) = m.map (·.1) := by
  rw [nmModify, List.map_map]
  refine List.map_congr_left fun p _ => ?_
  simp only [Function.comp_apply]
  split <;> rfl

/-- The team with the group's arrival noted and counted, before the phase is looked at. -/
def arrivedTeam (c : Ctx) (n : Nat) (x : Barrier) (t : Team) : Team :=
  { t.modGroup c.gid (fun g => { g with arrived := nmPut n x.phase g.arrived }) with
    bars := nmModify n (fun b => { b with arrived := c.g.index :: b.arrived }) t.bars }

theorem teamOf_arrive {n : Nat} {x : Barrier} (ht : teamOf s c.tid = some t) :
    teamOf (arrive c n x s) c.tid = some ((arrivedTeam c n x t).completeBarriers s.nextId) := by
  rw [arrive, teamOf_modTeam_self, ht]
  rfl

/-- When the group is the last of the live set, its arrival completes the phase. -/
theorem arrive_completes {n : Nat} {x : Barrier} (ht : teamOf s c.tid = some t) (hx : nmGet n t.bars = some x)
    (hall : ∀ k ∈ t.live x, k = c.g.index ∨ k ∈ x.arrived) : ∃ t' y, teamOf (arrive c n x s) c.tid = some t' ∧ nmGet n t'.bars = some y ∧
      x.phase < y.phase := by
  have hlive : (arrivedTeam c n x t).live { x with arrived := c.g.index :: x.arrived } = t.live x := by
    simp only [Team.live, arrivedTeam, Team.modGroup_groups, map_fst_nmModify]
  refine ⟨_, (arrivedTeam c n x t).completeBarrier s.nextId { x with arrived := c.g.index :: x.arrived }, teamOf_arrive ht, ?_, ?_⟩
  · rw [Team.completeBarriers, nmGet_map_snd, arrivedTeam, nmGet_nmModify_self, hx]
    rfl
  · rw [completeBarrier_of_all (List.cons_ne_nil _ _) (by rw [hlive]; simpa using hall)]
    exact Nat.lt_succ_self _

theorem settledBefore_of_flight {tid mark : Nat} (h : s.flight = []) : settledBefore s tid mark = true := by
  simp [settledBefore, h]

/-- The team of an instruction that has moved on has the barriers and the groups' numbers that it had. -/
theorem teamOf_moveOn (i : Instr) (ht : teamOf s c.tid = some t) : ∃ u, teamOf (moveOn i c s) c.tid = some u ∧ u.bars = t.bars ∧
    ∀ b, u.live b = t.live b := by
  have hteam : teamOf (moveOn i c s) c.tid =
      some (sharedStep (t.modGroup c.gid (movedGroup i c)) c.g (usesWith c.g.hints i) c.g.hints.peek) := by
    rw [moveOn, teamOf_modTeam_self, teamOf_modGroup_self, ht]
    rfl
  obtain ⟨full, hshared⟩ := sharedStep_eq (t.modGroup c.gid (movedGroup i c)) c.g (usesWith c.g.hints i) c.g.hints.peek
  refine ⟨_, hteam, by rw [hshared]; rfl, fun b => ?_⟩
  rw [Team.live, sharedStep_groups, Team.modGroup_groups, map_fst_nmModify]
  rfl

/-! ## BARARR, BARWAIT and BARSYNC (R263) -/

section Barriers

variable {b : BitVec 6} {n : Nat} {x : Barrier} (hb : c.barrier b = some (n, x)) (hm : x.mask.getLsbD c.g.index = true)

include hb hm

theorem bararr_completes (h : Starts (.bararr b) s c s₁) (hfree : ∀ ph, nmGet n c.g.arrived = some ph → ph < x.phase) :
    Completes (.bararr b) s c (arrive c n x s₁) := by
  refine checked_completes h rfl ((atBarrier_of_member hb hm).trans ?_) (running_arrive (running_of_starts h))
  simp only [pendingPhase_none hfree]

theorem bararr_held {ph : Nat} (h : Starts (.bararr b) s c s₁) (ha : nmGet n c.g.arrived = some ph) (hph : x.phase ≤ ph) :
    Spec.HeldAtBarrier (.bararr b) s c (.bararr n ph) s₁ := by
  refine checked_held h rfl ((atBarrier_of_member hb hm).trans ?_)
  simp only [pendingPhase_some ha hph]

theorem barwait_completes_unarrived (h : Starts (.barwait b) s c s₁) (ha : nmGet n c.g.arrived = none) :
    Completes (.barwait b) s c (passYield s₁ c.tid c.gid) := by
  refine checked_completes h rfl ((atBarrier_of_member hb hm).trans ?_) (running_passYield (running_of_starts h))
  simp only [ha]

variable {ph : Nat} {y : Barrier}

theorem barwait_completes (h : Starts (.barwait b) s c s₁) (ha : nmGet n c.g.arrived = some ph) (ht : teamOf s₁ c.tid = some t)
    (hy : nmGet n t.bars = some y) (hph : ph < y.phase) (hset : settledBefore s₁ c.tid y.mark = true) :
    Completes (.barwait b) s c (passYield s₁ c.tid c.gid) := by
  refine checked_completes h rfl ((atBarrier_of_member hb hm).trans ?_) (running_passYield (running_of_starts h))
  simp only [ha, awaitPhase_done ht hy hph hset]

theorem barwait_held (h : Starts (.barwait b) s c s₁) (ha : nmGet n c.g.arrived = some ph) (ht : teamOf s₁ c.tid = some t)
    (hy : nmGet n t.bars = some y) (hnot : y.phase ≤ ph ∨ settledBefore s₁ c.tid y.mark = false) :
    Spec.HeldAtBarrier (.barwait b) s c (.barrier n ph) s₁ := by
  refine checked_held h rfl ((atBarrier_of_member hb hm).trans ?_)
  simp only [ha, awaitPhase_held ht hy hnot]

variable (h : Starts (.barsync b) s c s₁) (hwait : c.g.wait = none)

include h hwait

theorem barsync_completes (hfree : ∀ ph, nmGet n c.g.arrived = some ph → ph < x.phase) (ht : teamOf (arrive c n x s₁) c.tid = some t)
    (hy : nmGet n t.bars = some y) (hph : x.phase < y.phase) (hset : settledBefore (arrive c n x s₁) c.tid y.mark = true) :
    Completes (.barsync b) s c (passYield (arrive c n x s₁) c.tid c.gid) := by
  refine checked_completes h rfl ((atBarrier_of_member hb hm).trans ?_) (running_passYield (running_arrive (running_of_starts h)))
  simp only [hwait, pendingPhase_none hfree, awaitPhase_done ht hy hph hset]

theorem barsync_held (hfree : ∀ ph, nmGet n c.g.arrived = some ph → ph < x.phase) (ht : teamOf (arrive c n x s₁) c.tid = some t)
    (hy : nmGet n t.bars = some y) (hnot : y.phase ≤ x.phase ∨ settledBefore (arrive c n x s₁) c.tid y.mark = false) :
    Spec.HeldAtBarrier (.barsync b) s c (.barrier n x.phase) (arrive c n x s₁) := by
  refine checked_held h rfl ((atBarrier_of_member hb hm).trans ?_)
  simp only [hwait, pendingPhase_none hfree, awaitPhase_held ht hy hnot]

theorem barsync_held_first (ha : nmGet n c.g.arrived = some ph) (hph : x.phase ≤ ph) :
    Spec.HeldAtBarrier (.barsync b) s c (.bararr n ph) s₁ := by
  refine checked_held h rfl ((atBarrier_of_member hb hm).trans ?_)
  simp only [hwait, pendingPhase_some ha hph]

end Barriers

theorem barrier_of_ctx {b : BitVec 6} {n : Nat} {x : Barrier} (h : c.barrier b = some (n, x)) : nmGet n c.t.bars = some x := by
  obtain ⟨k, -, hk⟩ := Option.bind_eq_some_iff.1 h
  obtain ⟨x', hx, he⟩ := Option.map_eq_some_iff.1 hk
  cases he
  exact hx

/-- Settles O33: each of the three by what its group's arrival and the barrier's phase are; a phase completes with its last arrival. -/
theorem barrierWaits : Obligations.BarrierWaits := by
  refine ⟨⟨fun b s c s₁ n x h hb hm => ⟨fun hfree => bararr_completes hb hm h hfree, fun ph ha hph => bararr_held hb hm h ha hph⟩,
    fun b s c s₁ n x h hb hm => ⟨fun ha => barwait_completes_unarrived hb hm h ha, fun ph t y ha ht hy =>
      ⟨fun hph hset => barwait_completes hb hm h ha ht hy hph hset, fun hnot => barwait_held hb hm h ha ht hy hnot⟩⟩,
    fun b s c s₁ n x y t h hb hm hwait => ⟨fun hfree ht hy => ⟨fun hph hset => barsync_completes hb hm h hwait hfree ht hy hph hset,
      fun hnot => barsync_held hb hm h hwait hfree ht hy hnot⟩, fun ph ha hph => barsync_held_first hb hm h hwait ha hph⟩⟩,
    fun i b s t g n x hready => ?_, fun t mark b => ⟨fun hne hall => ?_, fun hmissing => completeBarrier_of_missing hmissing⟩⟩
  · intro c hb hm
    have hstart : Starts i s c (moveOn i c s) := ⟨s, start_go_of_ready hready⟩
    obtain ⟨ht, -, -, -, -, -, hwait, -⟩ := hready
    obtain ⟨u, hu, hbars, hlive⟩ := teamOf_moveOn (c := c) i ht
    have hx : nmGet n u.bars = some x := by rw [hbars]; exact barrier_of_ctx hb
    refine ⟨?_, ?_, ?_⟩
    · rintro rfl hfree
      exact ⟨_, hstart, bararr_completes hb hm hstart hfree⟩
    · rintro rfl (ha | ⟨ph, ha, hph, hflight⟩)
      · exact ⟨_, hstart, barwait_completes_unarrived hb hm hstart ha⟩
      · exact ⟨_, hstart, barwait_completes hb hm hstart ha hu hx hph (settledBefore_of_flight hflight)⟩
    · rintro rfl hfree hall hflight
      obtain ⟨t', y, ht', hy, hph⟩ := arrive_completes hu hx (by rw [hlive]; exact hall)
      exact ⟨_, hstart, barsync_completes hb hm hstart hwait hfree ht' hy hph (settledBefore_of_flight hflight)⟩
  · rw [completeBarrier_of_all hne hall]
    exact ⟨rfl, rfl⟩

/-! ## Pushes and pops (R135, R266) -/

theorem firstOf_iff {l : List Nat} {k : Nat} : firstOf l k = true ↔ l = [] ∨ l.head? = some k := by
  cases l <;> simp [firstOf]

theorem canPop_iff {tid : Nat} {x : Queue} : canPop s tid x = true ↔ Spec.Poppable s tid x := by
  simp [canPop, Spec.Poppable, Option.all_eq_true, and_assoc]

section Queues

variable {d q k : BitVec 6} {n : Nat} {x : Queue} (hq : c.queue q = some (n, x))

include hq

theorem qpush_outcome (h : Starts (.qpush q k) s c s₁) : if 0 < x.a ∧ (x.pushers = [] ∨ x.pushers.head? = some c.gid) then
      Completes (.qpush q k) s c (pushQueue s₁ c.tid n { x with pushers := x.pushers.filter (· ≠ c.gid) } (c.s k))
    else HeldAt (.qpush q k) s c (.qpush n) (setQueue s₁ c.tid n { x with pushers := waitIn x.pushers c.gid }) := by
  have hcan : (decide (0 < x.a) && firstOf x.pushers c.gid) = true ↔ 0 < x.a ∧ (x.pushers = [] ∨ x.pushers.head? = some c.gid) := by
    rw [Bool.and_eq_true, decide_eq_true_iff, firstOf_iff]
  split
  · next hgo => exact completes_of_starts h rfl (by simp only [hq]; exact if_pos (hcan.2 hgo))
  · next hno => exact heldAt_of_starts h rfl (by simp only [hq]; exact if_neg (mt hcan.1 hno))

theorem qpop_outcome (h : Starts (.qpop d q) s c s₁) :
    (Spec.Poppable s₁ c.tid x ∧ (x.poppers = [] ∨ x.poppers.head? = some c.gid) →
      let r := popQueue s₁ c.tid n { x with poppers := x.poppers.filter (· ≠ c.gid) }
      Completes (.qpop d q) s c (passYield (changeGroup c r.2 (fun g => g.setS d.toNat (BitVec.ofNat 64 r.1))) c.tid c.gid)) ∧
    (¬ (Spec.Poppable s₁ c.tid x ∧ (x.poppers = [] ∨ x.poppers.head? = some c.gid)) →
      HeldAt (.qpop d q) s c (.qpop n) (setQueue s₁ c.tid n { x with poppers := waitIn x.poppers c.gid })) := by
  have hcan : (canPop s₁ c.tid x && firstOf x.poppers c.gid) = true ↔
      Spec.Poppable s₁ c.tid x ∧ (x.poppers = [] ∨ x.poppers.head? = some c.gid) := by
    rw [Bool.and_eq_true, canPop_iff, firstOf_iff]
  exact ⟨fun hgo => completes_of_starts h rfl (by simp only [hq]; exact if_pos (hcan.2 hgo)),
    fun hno => heldAt_of_starts h rfl (by simp only [hq]; exact if_neg (mt hcan.1 hno))⟩

theorem qtry_push_completes (h : Starts (.qtry d q k 1) s c s₁) : Completes (.qtry d q k 1) s c (if 0 < x.a ∧ x.pushers = [] then
      changeGroup c (pushQueue s₁ c.tid n x (c.s k)) (fun g => g.setS d.toNat 0)
      else changeGroup c s₁ (fun g => g.setS d.toNat 2)) := by
  refine completes_of_starts h rfl ?_
  simp only [hq, isSet_one, if_true, Bool.and_eq_true, decide_eq_true_iff]
  split <;> rfl

theorem qtry_pop_outcome (h : Starts (.qtry d q k 0) s c s₁) :
    (Spec.Poppable s₁ c.tid x ∧ x.poppers = [] → Completes (.qtry d q k 0) s c (changeGroup c (popQueue s₁ c.tid n x).2
      (fun g => (g.setS k.toNat (BitVec.ofNat 64 (popQueue s₁ c.tid n x).1)).setS d.toNat 0))) ∧
    (0 < x.e → x.poppers = [] → ¬ Spec.Poppable s₁ c.tid x → HeldAt (.qtry d q k 0) s c .issue s₁) ∧
    (x.e = 0 ∨ x.poppers ≠ [] → Completes (.qtry d q k 0) s c (changeGroup c s₁ (fun g => g.setS d.toNat 1))) := by
  refine ⟨fun ⟨hpop, hnone⟩ => completes_of_starts h rfl ?_, fun he hnone hnot => heldAt_of_starts h rfl ?_,
    fun hno => completes_of_starts h rfl ?_⟩
  · simp only [hq, isSet_zero, Bool.false_eq_true, if_false, hpop.1, hnone, decide_true, Bool.and_self, if_true, canPop_iff.2 hpop]
    rfl
  · simp only [hq, isSet_zero, Bool.false_eq_true, if_false, he, hnone, decide_true, Bool.and_self, if_true,
      Bool.eq_false_iff.2 (mt canPop_iff.1 hnot)]
  · simp only [hq, isSet_zero, Bool.false_eq_true, if_false]
    rw [if_neg (by simpa [imp_iff_not_or] using hno)]
    rfl

end Queues

/-- Settles O35: each instruction by the guard that it tests at its queue. -/
theorem queueTransfers : Obligations.QueueTransfers :=
  ⟨fun _ _ _ _ _ _ _ h hq => qpush_outcome hq h, fun _ _ _ _ _ _ _ h hq => qpop_outcome hq h,
    fun _ _ _ _ _ _ _ _ hq => ⟨fun h => qtry_push_completes hq h, fun h => qtry_pop_outcome hq h⟩⟩

/-! ## XARR and XWAIT (R268 to R270) -/

variable {all : List Nat}

/-- XWAIT's first test finds a close of the phase from a core that it does not wait for. -/
theorem closedElsewhere_iff : ((c.t.exch.closes.filter (fun (y : Nat × Nat × Nat) => y.2.1 = c.t.exch.phase)).map (·.1)).any
      (fun k => !(all.filter (· ≠ c.core)).contains k) = true ↔
    ∃ y ∈ c.t.exch.closes, y.2.1 = c.t.exch.phase ∧ (y.1 = c.core ∨ y.1 ∉ all) := by
  simp only [List.any_eq_true, List.mem_map, List.mem_filter, Bool.not_eq_true', List.contains_eq_mem, decide_eq_false_iff_not,
    decide_eq_true_iff, not_and_or, not_not]
  constructor
  · rintro ⟨_, ⟨y, ⟨hy, hphase⟩, rfl⟩, hnot⟩
    exact ⟨y, hy, hphase, hnot.symm⟩
  · rintro ⟨y, hy, hphase, hnot⟩
    exact ⟨y.1, ⟨y, ⟨hy, hphase⟩, rfl⟩, hnot.symm⟩

/-- XWAIT's second test: a close from every core that it waits for, and the deliveries that these closes and its own sends tell of. -/
theorem countsMet_iff : ((all.filter (· ≠ c.core)).all (fun k =>
      ((c.t.exch.closes.filter (fun (y : Nat × Nat × Nat) => y.2.1 = c.t.exch.phase)).map (·.1)).contains k &&
        decide (phaseCount c.t.exch.arrivals k c.t.exch.phase = phaseCount c.t.exch.closes k c.t.exch.phase))) = true ↔
    ∀ k ∈ all.filter (· ≠ c.core), (∃ n, (k, c.t.exch.phase, n) ∈ c.t.exch.closes) ∧
      phaseCount c.t.exch.arrivals k c.t.exch.phase = phaseCount c.t.exch.closes k c.t.exch.phase := by
  rw [List.all_eq_true]
  refine forall₂_congr fun k _ => ?_
  rw [Bool.and_eq_true, decide_eq_true_iff, List.contains_iff_mem, List.mem_map]
  refine and_congr_left fun _ => ⟨?_, ?_⟩
  · rintro ⟨⟨_, ph, n⟩, hy, rfl⟩
    obtain ⟨hy, hph⟩ := List.mem_filter.1 hy
    exact ⟨n, (of_decide_eq_true hph : ph = _) ▸ hy⟩
  · rintro ⟨n, hy⟩
    exact ⟨_, List.mem_filter.2 ⟨hy, decide_eq_true rfl⟩, rfl⟩

/-- XWAIT's last test: a line of the phase's drawer bytes is absent. -/
theorem linesAbsent_iff (c : Ctx) : (c.t.drawer.filter (fun b => b.phase = c.t.exch.phase)).any (fun b => c.t.lineAbsent (b.off / 128)) = true ↔
    ∃ b ∈ c.t.drawer, b.phase = c.t.exch.phase ∧ c.t.lineAbsent (b.off / 128) = true := by
  simp only [List.any_eq_true, List.mem_filter, decide_eq_true_iff, and_assoc]

section Exchange

variable {m : BitVec 6} (hn : c.t.named (c.s m) = some all)

include hn

theorem xarr_completes (h : Starts (.xarr m) s c s₁) (hgang : c.t.gang = true) (hfirst : c.t.exch.arrived = false)
    (hsent : ∀ y ∈ c.t.exch.sends, y.2.1 = c.t.exch.phase → y.2.2 ≠ 0 → y.1 = c.core ∨ y.1 ∈ all) :
    Completes (.xarr m) s c ((all.filter (· ≠ c.core)).foldl (fun s k =>
      let n := phaseCount c.t.exch.sends k c.t.exch.phase
      if (popHold s).1 || !settledBefore (popHold s).2 c.tid (popHold s).2.nextId then
        post (popHold s).2 (.xclose c.t.grid c.core k c.t.exch.phase n)
      else takeXclose (popHold s).2 c.t.grid c.core k c.t.exch.phase n)
      (modTeam s₁ c.tid (fun t => { t with exch := { t.exch with arrived := true } }))) := by
  refine completes_of_starts h rfl ?_
  simp only [hn]
  rw [if_neg]
  simp only [hgang, hfirst, Bool.not_true, Bool.or_self, Bool.false_or, List.any_eq_true, List.mem_map, List.mem_filter, Bool.and_eq_true,
    decide_eq_true_iff, Bool.not_eq_true', List.contains_eq_mem, decide_eq_false_iff_not]
  rintro ⟨_, ⟨y, ⟨hy, hphase, hcount⟩, rfl⟩, hne, hnot⟩
  exact (hsent y hy hphase hcount).elim hne fun hin => hnot ⟨hin, hne⟩

theorem xarr_faults (h : Starts (.xarr m) s c s₁) (hbad : c.t.gang = false ∨ c.t.exch.arrived = true ∨
    ∃ y ∈ c.t.exch.sends, y.2.1 = c.t.exch.phase ∧ y.2.2 ≠ 0 ∧ y.1 ≠ c.core ∧ y.1 ∉ all) : Faults (.xarr m) s c 0x14 0 c.g.m0 0 0 := by
  refine faults_of_starts h rfl ?_
  simp only [hn]
  rw [if_pos]
  · rfl
  · obtain hgang | harrived | ⟨y, hy, hphase, hcount, hne, hnot⟩ := hbad
    · simp [hgang]
    · simp [harrived]
    · simp only [Bool.or_eq_true, List.any_eq_true, List.mem_map, List.mem_filter, Bool.and_eq_true, decide_eq_true_iff, Bool.not_eq_true',
        List.contains_eq_mem, decide_eq_false_iff_not]
      exact .inr ⟨y.1, ⟨y, ⟨hy, hphase, hcount⟩, rfl⟩, hne, fun hin => hnot hin.1⟩

theorem xwait_completes (h : Starts (.xwait m) s c s₁) (hmet : Spec.XwaitMet c all) :
    Completes (.xwait m) s c (Spec.xwaitDone c s₁) := by
  obtain ⟨hgang, harrived, hcloses, hcounts, hown, hlines⟩ := hmet
  refine completes_of_starts h rfl ?_
  simp only [hn]
  rw [if_neg, if_neg, if_neg]
  · rfl
  · rw [linesAbsent_iff]
    rintro ⟨b, hb, hphase, habsent⟩
    rw [hlines b hb hphase] at habsent
    cases habsent
  · rw [Bool.or_eq_true, Bool.not_eq_true', ← Bool.not_eq_true, countsMet_iff]
    simpa [hown] using hcounts
  · rw [Bool.or_eq_true, closedElsewhere_iff]
    simp only [hgang, harrived, Bool.not_true, Bool.or_self, Bool.false_eq_true, false_or, not_exists, not_and]
    intro y hy hphase
    have hin := List.mem_filter.1 (hcloses y hy hphase)
    simpa [hin.1] using hin.2

theorem xwait_faults (h : Starts (.xwait m) s c s₁) (hbad : c.t.gang = false ∨ c.t.exch.arrived = false ∨
    ∃ y ∈ c.t.exch.closes, y.2.1 = c.t.exch.phase ∧ (y.1 = c.core ∨ y.1 ∉ all)) : Faults (.xwait m) s c 0x14 0 c.g.m0 0 0 := by
  refine faults_of_starts h rfl ?_
  simp only [hn]
  rw [if_pos]
  · rfl
  · rw [Bool.or_eq_true, closedElsewhere_iff, Bool.or_eq_true, Bool.not_eq_true', Bool.not_eq_true', or_assoc]
    exact hbad

theorem xwait_held (h : Starts (.xwait m) s c s₁) (hgang : c.t.gang = true) (harrived : c.t.exch.arrived = true)
    (hcloses : ∀ y ∈ c.t.exch.closes, y.2.1 = c.t.exch.phase → y.1 ≠ c.core ∧ y.1 ∈ all) (hnot : ¬ Spec.XwaitMet c all) :
    HeldAt (.xwait m) s c .xwait s₁ := by
  refine heldAt_of_starts h rfl ?_
  simp only [hn]
  rw [if_neg]
  · split
    · rfl
    · next hcounts =>
      rw [if_pos]
      rw [linesAbsent_iff]
      by_contra hlines
      rw [Bool.or_eq_true, Bool.not_eq_true', ← Bool.not_eq_true, countsMet_iff, not_or, not_not, decide_eq_true_iff, not_not] at hcounts
      refine hnot ⟨hgang, harrived, fun y hy hphase => ?_, hcounts.1, hcounts.2, fun b hb hphase => ?_⟩
      · obtain ⟨hne, hin⟩ := hcloses y hy hphase
        exact List.mem_filter.2 ⟨hin, decide_eq_true hne⟩
      · exact Bool.eq_false_iff.2 fun habsent => hlines ⟨b, hb, hphase, habsent⟩
  · rw [Bool.or_eq_true, closedElsewhere_iff]
    simp only [hgang, harrived, Bool.not_true, Bool.or_self, Bool.false_eq_true, false_or, not_exists, not_and, not_or, not_not]
    exact hcloses

end Exchange

theorem exchange_faults_of_unnamed {m : BitVec 6} (hi : i = .xarr m ∨ i = .xwait m) (h : Starts i s c s₁) (hn : c.t.named (c.s m) = none) :
    Faults i s c 0x14 0 c.g.m0 0 0 := by
  obtain rfl | rfl := hi
  · exact faults_of_starts h rfl (by simp only [hn]; rfl)
  · exact faults_of_starts h rfl (by simp only [hn]; rfl)

/-- Settles O36: both instructions look the mask up first, and then test the phase's state. -/
theorem exchangeInstructions : Obligations.ExchangeInstructions := by
  refine ⟨fun m s c s₁ all h hn hgang hfirst hsent => xarr_completes hn h hgang hfirst hsent,
    fun m s c s₁ all h hn hmet => xwait_completes hn h hmet, fun i m s c s₁ hi h hbad => ?_,
    fun m s c s₁ all h hn hgang harrived => ⟨fun helsewhere => xwait_faults hn h (.inr (.inr helsewhere)),
      fun hcloses hnot => xwait_held hn h hgang harrived hcloses hnot⟩,
    fun m s c s₁ all h hn hleft => xarr_faults hn h (.inr (.inr hleft))⟩
  cases hn : c.t.named (c.s m) with
  | none => exact exchange_faults_of_unnamed hi h hn
  | some all =>
    rw [hn] at hbad
    obtain rfl | rfl := hi
    · exact xarr_faults hn h (hbad.elim (fun h => nomatch h) fun h => h.imp_right .inl)
    · exact xwait_faults hn h (hbad.elim (fun h => nomatch h) fun h => h.imp_right .inl)

end Sys2Proof.Proofs
end

