-- ==== Sys2Proof/Proofs/EngineCommands.lean ====
section
/-! PROOFS. The issue of engine commands (R272, R273, R282, R284) and the creation of work (R32 to R36, R285 to R287). -/

namespace Sys2Proof.Proofs

open Machine

variable {i : Instr} {s s₀ s₁ s₂ : State} {c : Ctx} {t : Team} {g : Group}

/-! ## The issue of an engine command (R272) -/

theorem checkCard_eq (s : State) (t : Team) (kind : EngineKind) (card : List Byte) : checkCard s t kind card = Spec.cardFault s t kind card := by
  cases kind <;> rfl

/-- The unit of the command's cluster holds a collective in which a COLL of clusters `clm` is matched already. -/
def holdsPlace (c : Ctx) (s : State) (clm : Nat) : Bool :=
  s.colls.any (fun x => Spec.matched c x clm && x.clusters.contains (clusterOfCore c.core))

/-- The number of collectives that the unit of the command's cluster holds. -/
def unitLoad (c : Ctx) (s : State) : Nat := (s.colls.filter (fun x => x.clusters.contains (clusterOfCore c.core))).length

/-- The state in which a COLL that has been issued has taken its place among the collectives of its grid. -/
def placed (c : Ctx) (s : State) (clm tl : Nat) : State :=
  { s with
    colls := joinColl s.colls c.t.grid c.t.colls (clusterOfCore c.core) clm (c.tid, tl, (c.t.tl tl).handed + 1)
    grids := nmModify c.t.grid (fun g => { g with colls := nmPut c.t.index (c.t.colls + 1) g.colls }) s.grids }

/-- The command takes its number and runs on. `big`: it is a COLL over clusters. -/
def engineRun (kind : EngineKind) (d : BitVec 6) (tl : Nat) (c : Ctx) (off : Nat) (card : List Byte) (big : Bool) (rel : Nat) (s : State) : State :=
  let idle := (kind = .coll && (collCard card).clm = 0) || (kind = .mcast && (copyCard card).tgt = 0)
  let cmd := Spec.newCmd c kind tl off s.nextId (if big then c.t.colls else 2 ^ 64) rel idle card
  let s := modTeam s c.tid (fun t =>
    let t := (t.tlnext tl).2
    { t with cmds := t.cmds ++ [cmd], colls := if big then t.colls + 1 else t.colls })
  let s := hideLines (countSends (changeGroup c s (fun g => g.setS d.toNat (BitVec.ofNat 64 cmd.num))) c.t kind card) c.t kind card tl cmd.num
  Spec.runNow (if big then placed c s (collCard card).clm tl else s) c.tid tl ((c.t.tl tl).handed + 1)

/-- The command's card has passed its checks: its place in the unit, its release. -/
def engineUnit (kind : EngineKind) (d : BitVec 6) (tl : Nat) (c : Ctx) (off : Nat) (card : List Byte) (s : State) : Eff :=
  let big := kind = .coll && (collCard card).clm ≠ 0
  if (big && !holdsPlace c s (collCard card).clm) && 256 ≤ unitLoad c s then .hold .unit s
  else match (if big && (collCard card).kind = 4 then openRelease s c.tid c.gid ((collCard card).peers ≠ 0) else some (0, s)) with
    | none => .hold .issue s
    | some (rel, s) => .done (engineRun kind d tl c off card big rel s)

/-- The checks of R273 have given `r`. -/
def engineChecked (kind : EngineKind) (d : BitVec 6) (tl : Nat) (c : Ctx) (off : Nat) (card : List Byte) (s : State) :
    Option (Nat × Nat × State) → Eff
  | some (0, _, _) => .hold .issue s
  | some (code, ad, s') => .refused s' code ad c.g.m0
  | none => engineUnit kind d tl c off card s

/-- The card's address lies in the own desk at `r`, or not. -/
def engineAt (kind : EngineKind) (d : BitVec 6) (tl : Nat) (c : Ctx) (addr : Nat) (s : State) : Option Nat → Eff
  | none => .fault 0x05 addr c.g.m0 0 0
  | some off =>
    if addr % 64 ≠ 0 then .fault 0x03 addr c.g.m0 0 0
    else if !c.t.present off 64 then .hold (.line off) s
    else engineChecked kind d tl c off (readBytes c.t.desk off 64) s (Spec.cardFault s c.t kind (readBytes c.t.desk off 64))

/-- The stages of an issue. -/
theorem engineIssue_eq (kind : EngineKind) (d a : BitVec 6) (tl : BitVec 3) (c : Ctx) (s : State) :
    engineIssue kind d a tl c s = if 64 ≤ c.t.cmds.length then .hold .issue s
      else engineAt kind d tl.toNat c (c.s a).toNat s (ownDesk s c.t (c.s a).toNat 64) := by
  simp only [← checkCard_eq, engineAt]
  rfl

section Engine

variable {kind : EngineKind} {d a : BitVec 6} {tl : BitVec 3} {off : Nat}

theorem engineIssue_full (h : 64 ≤ c.t.cmds.length) : engineIssue kind d a tl c s = .hold .issue s := by
  rw [engineIssue_eq, if_pos h]

variable (hlen : c.t.cmds.length < 64)

include hlen

theorem engineIssue_elsewhere (hdesk : ownDesk s c.t (c.s a).toNat 64 = none) :
    engineIssue kind d a tl c s = .fault 0x05 (c.s a).toNat c.g.m0 0 0 := by
  rw [engineIssue_eq, if_neg (Nat.not_le.2 hlen), hdesk, engineAt]

variable (hdesk : ownDesk s c.t (c.s a).toNat 64 = some off)

include hdesk

theorem engineIssue_misaligned (hal : (c.s a).toNat % 64 ≠ 0) : engineIssue kind d a tl c s = .fault 0x03 (c.s a).toNat c.g.m0 0 0 := by
  rw [engineIssue_eq, if_neg (Nat.not_le.2 hlen), hdesk, engineAt, if_pos hal]

variable (hal : (c.s a).toNat % 64 = 0)

include hal

theorem engineIssue_absent (hp : c.t.present off 64 = false) : engineIssue kind d a tl c s = .hold (.line off) s := by
  rw [engineIssue_eq, if_neg (Nat.not_le.2 hlen), hdesk, engineAt, if_neg (not_not.2 hal), hp]
  rfl

theorem engineIssue_present (hp : c.t.present off 64 = true) {card : List Byte} (hcard : readBytes c.t.desk off 64 = card) :
    engineIssue kind d a tl c s = engineChecked kind d tl.toNat c off card s (Spec.cardFault s c.t kind card) := by
  rw [engineIssue_eq, if_neg (Nat.not_le.2 hlen), hdesk, engineAt, if_neg (not_not.2 hal), hp, hcard]
  rfl

end Engine

theorem engineChecked_fails {kind : EngineKind} {d : BitVec 6} {tl off code ad : Nat} {card : List Byte} {s' : State} (h : code ≠ 0) :
    engineChecked kind d tl c off card s (some (code, ad, s')) = .refused s' code ad c.g.m0 := by
  simp only [engineChecked]

section Unit

variable {kind : EngineKind} {d : BitVec 6} {tl off rel : Nat} {card : List Byte}

/-- A command that is no COLL over clusters takes its number and runs on. -/
theorem engineUnit_single (h : kind = .coll → (collCard card).clm = 0) : engineUnit kind d tl c off card s =
    .done (Spec.runNow (Spec.issued c s kind d tl (Spec.newCmd c kind tl off s.nextId (2 ^ 64) 0
      (kind = .coll || (kind = .mcast && (copyCard card).tgt = 0)) card) 0) c.tid tl ((c.t.tl tl).handed + 1)) := by
  have hbig : (decide (kind = .coll) && decide ((collCard card).clm ≠ 0)) = false := by
    rw [Bool.and_eq_false_iff]
    exact (em (kind = .coll)).symm.imp decide_eq_false fun hk => decide_eq_false (not_not.2 (h hk))
  have hidle : (decide (kind = .coll) && decide ((collCard card).clm = 0)) = decide (kind = .coll) := by
    by_cases hk : kind = .coll
    · rw [decide_eq_true (h hk), Bool.and_true]
    · rw [decide_eq_false hk, Bool.false_and]
  simp only [engineUnit, hbig, Bool.false_and, Bool.false_eq_true, if_false, engineRun, hidle]
  rfl

theorem engineUnit_place (hplace : holdsPlace c s (collCard card).clm = true ∨ unitLoad c s < 256) :
    (!holdsPlace c s (collCard card).clm && decide (256 ≤ unitLoad c s)) = false := by
  rcases hplace with h | h
  · rw [h, Bool.not_true, Bool.false_and]
  · rw [decide_eq_false (Nat.not_le.2 h), Bool.and_false]

variable (hclm : (collCard card).clm ≠ 0)

include hclm

theorem engineUnit_full (hno : holdsPlace c s (collCard card).clm = false) (hfull : 256 ≤ unitLoad c s) :
    engineUnit .coll d tl c off card s = .hold .unit s := by
  simp only [engineUnit, hclm, hno, hfull, ne_eq, not_false_eq_true, decide_true, Bool.not_false, Bool.and_self, if_true]

variable (hplace : holdsPlace c s (collCard card).clm = true ∨ unitLoad c s < 256)

include hplace

theorem engineUnit_release_waits (hkind : (collCard card).kind = 4) (hrel : openRelease s c.tid c.gid ((collCard card).peers ≠ 0) = none) :
    engineUnit .coll d tl c off card s = .hold .issue s := by
  simp only [ne_eq] at hrel
  simp only [engineUnit, hclm, ne_eq, not_false_eq_true, decide_true, Bool.true_and, engineUnit_place hplace, Bool.false_eq_true, if_false,
    hkind, if_true, hrel]

/-- A COLL over clusters, with its release open, takes its place among its grid's collectives. -/
theorem engineUnit_coll (hrel : if (collCard card).kind = 4 then openRelease s c.tid c.gid ((collCard card).peers ≠ 0) = some (rel, s₂)
      else rel = 0 ∧ s₂ = s) :
    engineUnit .coll d tl c off card s = .done (Spec.runNow (placed c (Spec.issued c s₂ .coll d tl
      (Spec.newCmd c .coll tl off s₂.nextId c.t.colls rel false card) 1) (collCard card).clm tl) c.tid tl ((c.t.tl tl).handed + 1)) := by
  have hopen : (if (collCard card).kind = 4 then openRelease s c.tid c.gid ((collCard card).peers ≠ 0) else some (0, s)) = some (rel, s₂) := by
    split
    · next hk => rwa [if_pos hk] at hrel
    · next hk =>
      rw [if_neg hk] at hrel
      rw [hrel.1, hrel.2]
  have hrun : engineRun .coll d tl c off card true rel s₂ = Spec.runNow (placed c (Spec.issued c s₂ .coll d tl
      (Spec.newCmd c .coll tl off s₂.nextId c.t.colls rel false card) 1) (collCard card).clm tl) c.tid tl ((c.t.tl tl).handed + 1) := by
    simp only [engineRun, hclm, decide_false, Bool.and_false, Bool.false_or, if_true]
    rfl
  simp only [ne_eq] at hopen
  simp only [engineUnit, hclm, ne_eq, not_false_eq_true, decide_true, Bool.true_and, engineUnit_place hplace, Bool.false_eq_true, if_false,
    decide_eq_true_eq, hopen, hrun]

end Unit

/-! ## The five commands -/

/-- What an instruction does behind its effect, when that is done. -/
def effThen (f : State → State) : Eff → Eff
  | .done s => .done (f s)
  | .refused s code addr lanes => .refused s code addr lanes
  | .fault code addr lanes aux scode => .fault code addr lanes aux scode
  | .hold w s => .hold w s

/-- What the issue of an engine command does: a COLL may also end teams whose groups have all ended. -/
def engineBody (kind : EngineKind) (d a : BitVec 6) (tl : BitVec 3) (c : Ctx) (s : State) : Eff :=
  effThen (if kind = .coll then endIdle else id) (engineIssue kind d a tl c s)

theorem effThen_id (e : Eff) : effThen id e = e := by
  cases e <;> rfl

theorem exec_engine {kind : EngineKind} {d a : BitVec 6} {tl : BitVec 3} (h : Spec.engineOf i = some (kind, d, a, tl)) :
    exec i s = issue i (engineBody kind d a tl) s := by
  have hplain (k : EngineKind) (hk : k ≠ .coll) : engineBody k d a tl = engineIssue k d a tl := by
    funext c s
    rw [engineBody, if_neg hk, effThen_id]
  cases i <;> simp only [Spec.engineOf, Option.some.injEq, Prod.mk.injEq, reduceCtorEq] at h <;>
    obtain ⟨rfl, rfl, rfl, rfl⟩ := h
  case coll =>
    refine congrArg (fun body => issue _ body s) (funext fun c => funext fun s => ?_)
    rw [engineBody, if_pos rfl]
    cases engineIssue .coll _ _ _ c s <;> rfl
  all_goals rw [hplain _ (by decide)]; rfl

/-- Settles O37: the stages of an issue, each by its own lemma; the COLL's place and its release behind them. -/
theorem engineIssue : Obligations.EngineIssue := by
  refine ⟨fun i kind d a tl s c s₁ h he => ⟨fun hfull => ?_, fun hlen => ⟨fun hdesk => ?_, fun off hdesk => ⟨fun hal => ?_, fun hal hp => ?_,
    fun hal hp => ⟨fun addr s' hc => ?_, fun code addr s' hc hne => ?_, fun hc hk => ?_⟩⟩⟩⟩, ?_, ?_⟩
  · exact heldAt_of_starts h (exec_engine he) (by rw [engineBody, engineIssue_full hfull, effThen])
  · exact faults_of_starts h (exec_engine he) (by rw [engineBody, engineIssue_elsewhere hlen hdesk, effThen])
  · exact faults_of_starts h (exec_engine he) (by rw [engineBody, engineIssue_misaligned hlen hdesk hal, effThen])
  · exact heldAt_of_starts h (exec_engine he) (by rw [engineBody, engineIssue_absent hlen hdesk hal hp, effThen])
  · exact heldAt_of_starts h (exec_engine he) (by rw [engineBody, engineIssue_present hlen hdesk hal hp rfl, hc, engineChecked, effThen])
  · exact faultsLeaving_of_starts h (exec_engine he)
      (by rw [engineBody, engineIssue_present hlen hdesk hal hp rfl, hc, engineChecked_fails hne, effThen])
  · refine completes_of_starts h (exec_engine he) ?_
    rw [engineBody, engineIssue_present hlen hdesk hal hp rfl, hc, engineChecked, engineUnit_single hk, effThen]
    split <;> rfl
  · intro d a tl s c s₁ s₂ off rel h hlen hdesk hal card hp hc hclm cl mine hplace hrel
    have hplace' : holdsPlace c s₁ (collCard card).clm = true ∨ unitLoad c s₁ < 256 := hplace
    refine completes_of_starts h (exec_engine (kind := .coll) rfl) ?_
    rw [engineBody, engineIssue_present hlen hdesk hal hp rfl, show Spec.cardFault s₁ c.t .coll card = none from hc, engineChecked,
      engineUnit_coll hclm hplace' hrel, effThen]
    rfl
  · intro d a tl s c s₁ off h hlen hdesk hal card hp hc hclm cl full
    have hcheck : Spec.cardFault s₁ c.t .coll card = none := hc
    refine ⟨fun ⟨hno, hfull⟩ => ?_, fun hnot hkind hrel => ?_⟩
    · refine heldAt_of_starts h (exec_engine (kind := .coll) rfl) ?_
      rw [engineBody, engineIssue_present hlen hdesk hal hp rfl, hcheck, engineChecked, engineUnit_full hclm hno hfull, effThen]
    · have hplace : holdsPlace c s₁ (collCard card).clm = true ∨ unitLoad c s₁ < 256 := by
        by_cases hno : holdsPlace c s₁ (collCard card).clm = true
        · exact .inl hno
        · exact .inr (Nat.lt_of_not_le fun hle => hnot ⟨Bool.eq_false_iff.2 hno, hle⟩)
      refine heldAt_of_starts h (exec_engine (kind := .coll) rfl) ?_
      rw [engineBody, engineIssue_present hlen hdesk hal hp rfl, hcheck, engineChecked, engineUnit_release_waits hclm hplace hkind hrel, effThen]

/-! ## Bins (R32 to R36, R285) -/

/-- Settles O38: the entry operand is tested, then the lanes are deposited in their order. -/
theorem spawnAndRebin : Obligations.SpawnAndRebin := by
  refine ⟨fun e p g s c s₁ h => ?_, fun key e p g s c s₁ h => ?_⟩
  · split
    · next hbad => exact faults_of_starts h rfl (if_pos hbad)
    · next hgood => exact completes_of_starts h rfl (if_neg hgood)
  · intro km
    split
    · next hbad => exact faults_of_starts h rfl (if_pos hbad)
    · next hgood => exact completes_of_starts h rfl (if_neg hgood)

/-! ## LAUNCH and WAITCH (R286, R287, R390) -/

/-- Settles O39: a LAUNCH goes through the checks of its record in their order. -/
theorem launchInstruction : Obligations.LaunchInstruction := by
  refine ⟨fun d r s c s₁ h => ⟨fun hal => ?_, fun s' hal hread => ?_, fun code addr s' hal hread => ?_, fun b s₂ desc s₃ hal hread hdesc =>
    ⟨fun hv => ?_, fun code addr s' hv hh => ?_, fun hb s₄ hv hh => ⟨fun hwhy => ?_, fun hwhy hsup => ?_, fun hwhy hsup =>
      ⟨fun hdepth => ?_, fun hdepth hq => ?_, fun hdepth hq => ?_⟩⟩⟩⟩, fun d g s c s₁ h => ⟨fun hnone => ?_, fun x hx => ⟨fun hst => ?_, fun v hst hset => ?_⟩⟩⟩
  · exact faults_of_starts h rfl (if_pos hal)
  · exact heldAt_of_starts h rfl (by simp only [hal, ne_eq, not_true_eq_false, if_false, hread])
  · exact faultsLeaving_of_starts h rfl (by simp only [hal, ne_eq, not_true_eq_false, if_false, hread])
  · exact faults_of_starts h rfl (by simp only [hal, ne_eq, not_true_eq_false, if_false, hread, hdesc, hv, Bool.not_false, if_true])
  · exact faultsLeaving_of_starts h rfl
      (by simp only [hal, ne_eq, not_true_eq_false, if_false, hread, hdesc, hv, Bool.not_true, Bool.false_eq_true, hh])
  · exact faults_of_starts h rfl
      (by simp only [hal, ne_eq, not_true_eq_false, if_false, hread, hdesc, hv, Bool.not_true, Bool.false_eq_true, hh, hwhy, not_false_eq_true, if_true])
  · exact faults_of_starts h rfl
      (by simp only [hal, ne_eq, not_true_eq_false, if_false, hread, hdesc, hv, Bool.not_true, Bool.false_eq_true, hh, hwhy, hsup, if_true])
  · refine completes_of_starts h rfl ?_
    simp only [hal, ne_eq, not_true_eq_false, if_false, hread, hdesc, hv, Bool.not_true, Bool.false_eq_true, hh, hwhy, hsup, hdepth, if_true]
    rfl
  · refine completes_of_starts h rfl ?_
    simp only [hal, ne_eq, not_true_eq_false, if_false, hread, hdesc, hv, Bool.not_true, Bool.false_eq_true, hh, hwhy, hsup, Nat.not_lt.2 hdepth, hq, if_true]
    rfl
  · refine completes_of_starts h rfl ?_
    simp only [hal, ne_eq, not_true_eq_false, if_false, hread, hdesc, hv, Bool.not_true, Bool.false_eq_true, hh, hwhy, hsup, Nat.not_lt.2 hdepth, Nat.not_le.2 hq]
  · exact completes_of_starts h rfl (by simp only [hnone])
  · exact heldAt_of_starts h rfl (by simp only [hx, hst])
  · refine completes_of_starts h rfl ?_
    simp only [hx, hst]
    cases hgr : nmGet (gridKey c.t.part ((c.s g).toNat % 2 ^ 32)) s₁.grids with
    | none => rfl
    | some gr => simp only [hset gr hgr, if_true]

end Sys2Proof.Proofs
end

