-- ==== Sys2Proof/Proofs/MatrixPort.lean ====
section
/-! PROOFS. The matrix port (R291 to R313): claims, tiles, codebooks, codes and status. -/

namespace Sys2Proof.Proofs

open Machine

variable {i : Instr} {s s₀ s₁ s₂ : State} {c : Ctx} {t : Team} {g : Group}

/-! ## The port (R291, R299) -/

theorem onPort_of_atPort (h : Spec.atPort c s t s₁) (f : Ctx → State → Eff) : onPort f c s = f { c with t := t } s₁ := by
  obtain ⟨rfl, ht⟩ := h
  simp only [onPort, ht]

/-! ## The team stays on its core -/

/-- The core that a team is placed on. -/
def teamCore (s : State) (tid : Nat) : Option Nat := (teamOf s tid).map Team.core

theorem teamCore_modTeam {f : Team → Team} (hf : ∀ t, (f t).core = t.core) (s : State) (j tid : Nat) :
    teamCore (modTeam s j f) tid = teamCore s tid := by
  unfold teamCore
  by_cases hj : tid = j
  · rw [hj, teamOf_modTeam_self, Option.map_map]
    exact congrArg (fun h => Option.map h (teamOf s j)) (funext hf)
  · rw [teamOf_modTeam_ne hj]

theorem teamCore_modGroup (s : State) (j gid : Nat) (f : Group → Group) (tid : Nat) : teamCore (modGroup s j gid f) tid = teamCore s tid :=
  teamCore_modTeam (f := fun t => t.modGroup gid f) (fun _ => rfl) s j tid

theorem applyQuarter_core (t : Team) (q : Quarter) (seed : Nat) : (applyQuarter t q seed).core = t.core := by
  unfold applyQuarter
  split <;> rfl

theorem teamCore_runPass (s : State) (core : Nat) (p : Pass) (tid : Nat) : teamCore (runPass s core p) tid = teamCore s tid := by
  unfold runPass
  induction p.quarters generalizing s with
  | nil => rfl
  | cons q l ih => exact (ih _).trans (teamCore_modTeam (fun t => applyQuarter_core t q _) _ _ _)

theorem teamCore_flushArray (s : State) (core tid : Nat) : teamCore (flushArray s core) tid = teamCore s tid := by
  have hfold (l : List Pass) (s : State) : teamCore (l.foldl (fun s p => runPass s core p) s) tid = teamCore s tid := by
    induction l generalizing s with
    | nil => rfl
    | cons p l ih => exact (ih _).trans (teamCore_runPass s core p tid)
  simp only [flushArray]
  split
  · rfl
  · exact (hfold _ _).trans rfl

theorem teamCore_moveOn (i : Instr) (c : Ctx) (s : State) (tid : Nat) : teamCore (moveOn i c s) tid = teamCore s tid := by
  rw [moveOn, teamCore_modTeam fun t => by obtain ⟨_, h⟩ := sharedStep_eq t c.g (usesWith c.g.hints i) c.g.hints.peek; rw [h], teamCore_modGroup]

/-- A team whose instruction reaches the port stands on the core on which it started. -/
theorem core_of_atPort (h : Starts i s c s₁) (hport : Spec.atPort c s₁ t s₂) : t.core = c.core := by
  obtain ⟨s₀, hgo⟩ := h
  obtain ⟨u, hteam, -, rfl⟩ := start_go_ctx hgo
  obtain ⟨rfl, ht⟩ := hport
  have hcore : teamCore (flushArray (moveOn i c u) c.core) c.tid = teamCore u c.tid := (teamCore_flushArray _ _ _).trans (teamCore_moveOn i c u _)
  rw [teamCore, teamCore, ht, hteam] at hcore
  exact Option.some.inj hcore

section Port

variable {body : Ctx → State → Eff} (h : Starts i s c s₁) (hport : Spec.atPort c s₁ t s₂) (he : exec i s = issue i (onPort body) s)

include h hport he

theorem port_completes {s₃ : State} (hb : body { c with t := t } s₂ = .done s₃) : Completes i s c s₃ :=
  completes_of_starts h he ((onPort_of_atPort hport body).trans hb)

theorem port_held {w : Wait} {s₃ : State} (hb : body { c with t := t } s₂ = .hold w s₃) : HeldAt i s c w s₃ :=
  heldAt_of_starts h he ((onPort_of_atPort hport body).trans hb)

theorem port_faults {code addr aux scode : Nat} {lanes : Mask} (hb : body { c with t := t } s₂ = .fault code addr lanes aux scode) :
    Faults i s c code addr lanes aux scode :=
  faults_of_starts h he ((onPort_of_atPort hport body).trans hb)

theorem port_faultsLeaving {code addr : Nat} {lanes : Mask} {s₃ : State} (hb : body { c with t := t } s₂ = .refused s₃ code addr lanes) :
    FaultsLeaving i s c s₃ code addr lanes :=
  faultsLeaving_of_starts h he ((onPort_of_atPort hport body).trans hb)

end Port

theorem lowNum_bind {α : Type} (v : DWord) (bits : Nat) (f : Nat → Option α) :
    (lowNum v bits).bind f = if v.toNat < 2 ^ bits then f v.toNat else none := by
  unfold lowNum objNum
  split <;> rfl

theorem slotOf_eq (c : Ctx) (t : Team) (r : BitVec 6) : ({ c with t := t } : Ctx).slotOf r = Spec.slotNamed c t r := lowNum_bind _ 6 _

theorem tileOf_eq (c : Ctx) (t : Team) (r : BitVec 6) : ({ c with t := t } : Ctx).tileOf r = Spec.tileNamed c t r := lowNum_bind _ 8 _

theorem lowNum_of_lt {v : DWord} {bits : Nat} (h : v.toNat < 2 ^ bits) : lowNum v bits = some v.toNat := if_pos h

theorem onShelf_meets {f : State → Eff} {u : State} (h : meetEcc s c.core true = (true, u)) : onShelf c f s = .refused u 0x15 0 c.g.m0 := by
  simp only [onShelf, h]

theorem onShelf_passes {f : State → Eff} {u : State} (h : meetEcc s c.core true = (false, u)) : onShelf c f s = f u := by
  simp only [onShelf, h]

/-! ## Claims (R294, R295) -/

theorem claimNum_of_free {ph n : Nat} {mine : List Nat} (h : ph ∉ mine) : claimNum ph mine n = ph := by
  rw [claimNum, if_neg (by simpa using h)]

section Claims

variable {d n : BitVec 6}

theorem tclaim_slot (h : Starts (.tclaim d 0) s c s₁) (hport : Spec.atPort c s₁ t s₂) :
    let free := lowestFree 64 ((teamsOn s₂ c.core).flatMap (fun u => u.slots.map (·.phys)))
    (t.header.tslot ≤ t.slots.length ∨ free = none → Completes (.tclaim d 0) s c (changeGroup c s₂ (fun g => g.setS d.toNat 1))) ∧
    (∀ ph, t.slots.length < t.header.tslot → free = some ph → (∀ x ∈ t.slots, x.num ≠ ph) →
      Completes (.tclaim d 0) s c (changeGroup c (modTeam s₂ c.tid (fun u => { u with slots := u.slots ++ [⟨ph, ph, []⟩] }))
        (fun g => g.setS d.toNat (BitVec.ofNat 64 (ph * 256))))) := by
  have hcore : Ctx.core { c with t := t } = c.core := core_of_atPort h hport
  refine ⟨fun hfull => port_completes h hport rfl ?_, fun ph hlt hfree hnew => port_completes h hport rfl ?_⟩
  · simp only [isSet_zero, Bool.false_eq_true, if_false]
    split
    · rfl
    · next hroom => simp only [hcore, Config.traySlots, hfull.resolve_left hroom]; rfl
  · have hnum : ph ∉ t.slots.map (·.num) := by simpa using hnew
    simp only [isSet_zero, Bool.false_eq_true, if_false, Nat.not_le.2 hlt, hcore, Config.traySlots, hfree, claimNum_of_free hnum]
    rfl

theorem tclaim_tile (h : Starts (.tclaim d 1) s c s₁) (hport : Spec.atPort c s₁ t s₂) :
    let free := lowestFree Config.accTiles ((teamsOn s₂ c.core).flatMap (fun u => u.tiles.map (·.phys)))
    (t.header.atile ≤ t.tiles.length ∨ free = none → Completes (.tclaim d 1) s c (changeGroup c s₂ (fun g => g.setS d.toNat 1))) ∧
    (∀ ph, t.tiles.length < t.header.atile → free = some ph → (∀ x ∈ t.tiles, x.num ≠ ph) →
      Completes (.tclaim d 1) s c (changeGroup c (modTeam s₂ c.tid (fun u => { u with tiles := u.tiles ++ [⟨ph, ph, [], [], 0, 0, [], 0, []⟩] }))
        (fun g => g.setS d.toNat (BitVec.ofNat 64 (ph * 256))))) := by
  have hcore : Ctx.core { c with t := t } = c.core := core_of_atPort h hport
  refine ⟨fun hfull => port_completes h hport rfl ?_, fun ph hlt hfree hnew => port_completes h hport rfl ?_⟩
  · simp only [isSet_one, if_true]
    split
    · rfl
    · next hroom => simp only [hcore, hfull.resolve_left hroom]; rfl
  · have hnum : ph ∉ t.tiles.map (·.num) := by simpa using hnew
    simp only [isSet_one, if_true, Nat.not_le.2 hlt, if_false, hcore, hfree, claimNum_of_free hnum]
    rfl

theorem trel_slot (h : Starts (.trel n 0) s c s₁) (hport : Spec.atPort c s₁ t s₂) :
    (Spec.slotNamed c t n = none → Faults (.trel n 0) s c 0x08 0 c.g.m0 0 0) ∧
    (∀ x, Spec.slotNamed c t n = some x →
      if t.cmds.any (fun y => y.fillsSlot x.num) = true then HeldAt (.trel n 0) s c .mat s₂
      else Completes (.trel n 0) s c (modTeam s₂ c.tid (fun u => { u with slots := u.slots.filter (fun y => y.num ≠ x.num) }))) := by
  refine ⟨fun hx => port_faults h hport rfl ?_, fun x hx => ?_⟩
  · simp only [isSet_zero, Bool.false_eq_true, if_false, slotOf_eq, hx]
    rfl
  · split
    · next hfill => exact port_held h hport rfl (by simp only [isSet_zero, Bool.false_eq_true, if_false, slotOf_eq, hx]; exact if_pos hfill)
    · next hidle => exact port_completes h hport rfl (by simp only [isSet_zero, Bool.false_eq_true, if_false, slotOf_eq, hx]; exact if_neg hidle)

theorem trel_tile (h : Starts (.trel n 1) s c s₁) (hport : Spec.atPort c s₁ t s₂) :
    (Spec.tileNamed c t n = none → Faults (.trel n 1) s c 0x08 0 c.g.m0 0 0) ∧
    (∀ x, Spec.tileNamed c t n = some x →
      if (coreOf s₂ c.core).drains.any (fun d => d.team = c.tid && d.tile = x.num) = true then HeldAt (.trel n 1) s c .mat s₂
      else Completes (.trel n 1) s c (modTeam s₂ c.tid (fun u => { u with tiles := u.tiles.filter (fun y => y.num ≠ x.num) }))) := by
  have hcore : Ctx.core { c with t := t } = c.core := core_of_atPort h hport
  refine ⟨fun hx => port_faults h hport rfl ?_, fun x hx => ?_⟩
  · simp only [isSet_one, if_true, tileOf_eq, hx]
    rfl
  · split
    · next hdrain => exact port_held h hport rfl (by simp only [isSet_one, if_true, tileOf_eq, hx, hcore]; exact if_pos hdrain)
    · next hidle => exact port_completes h hport rfl (by simp only [isSet_one, if_true, tileOf_eq, hx, hcore]; exact if_neg hidle)

end Claims

/-- Settles O40: TCLAIM and TREL, each for a slot and for a tile. -/
theorem trayClaims : Obligations.TrayClaims :=
  ⟨fun _ _ _ _ _ _ h hport => tclaim_slot h hport, fun _ _ _ _ _ _ h hport => tclaim_tile h hport,
    fun _ _ _ _ _ _ h hport => trel_slot h hport, fun _ _ _ _ _ _ h hport => trel_tile h hport⟩

/-! ## Tables and bit sets built over a range -/

section Ranges

variable {α : Type}

theorem nmGet_map_pair (l : List Nat) (f : Nat → α) (k : Nat) : nmGet k (l.map (fun i => (i, f i))) = if k ∈ l then some (f k) else none := by
  induction l with
  | nil => rfl
  | cons i l ih =>
    rw [List.map_cons, nmGet, ih]
    by_cases hk : k = i
    · simp [hk]
    · simp [hk]

/-- A table of the values other than the default, read with the default. -/
theorem nmGetD_nonzero [DecidableEq α] {z : α} {n : Nat} {f : Nat → α} {k : Nat} (hk : k < n) :
    nmGetD ((List.range n).filterMap (fun i => if f i = z then none else some (i, f i))) k z = f k := by
  have hget (l : List Nat) : nmGet k (l.filterMap (fun i => if f i = z then none else some (i, f i))) =
      if k ∈ l ∧ f k ≠ z then some (f k) else none := by
    induction l with
    | nil => rfl
    | cons i l ih =>
      by_cases hi : k = i
      · subst hi
        by_cases hf : f k = z <;> simp [hf, ih, nmGet]
      · by_cases hf : f i = z <;> simp [hf, ih, nmGet, hi]
  rw [nmGetD, hget]
  by_cases hf : f k = z <;> simp [hf, hk]

theorem getLsbD_two_pow {r k : Nat} (hk : k < 64) : (BitVec.ofNat 64 (2 ^ r)).getLsbD k = decide (r = k) := by
  rw [BitVec.getLsbD_ofNat, Nat.testBit_two_pow]
  simp [hk]

/-- The rows of a condition, set one after another. -/
theorem getLsbD_foldl_rows (l : List Nat) (p : Nat → Bool) (v : DWord) {k : Nat} (hk : k < 64) :
    (l.foldl (fun (v : DWord) r => if p r then v ||| BitVec.ofNat 64 (2 ^ r) else v) v).getLsbD k = (v.getLsbD k || (decide (k ∈ l) && p k)) := by
  induction l generalizing v with
  | nil => simp
  | cons r l ih =>
    rw [List.foldl_cons, ih]
    have hstep : (if p r then v ||| BitVec.ofNat 64 (2 ^ r) else v).getLsbD k = (v.getLsbD k || (decide (r = k) && p r)) := by
      split
      · next hp => rw [BitVec.getLsbD_or, getLsbD_two_pow hk, hp, Bool.and_true]
      · next hp => rw [Bool.eq_false_iff.2 hp, Bool.and_false, Bool.or_false]
    rw [hstep]
    by_cases hr : r = k
    · subst hr
      cases p r <;> simp
    · simp [hr, Ne.symm hr]

theorem testBit_foldl_bits (n : Nat) (p : Nat → Bool) :
    (List.range n).foldl (fun acc i => if p i then acc + 2 ^ i else acc) 0 < 2 ^ n ∧
    ∀ k, ((List.range n).foldl (fun acc i => if p i then acc + 2 ^ i else acc) 0).testBit k = (decide (k < n) && p k) := by
  induction n with
  | zero => simp
  | succ n ih =>
    obtain ⟨hlt, hbit⟩ := ih
    rw [List.range_succ, List.foldl_append, List.foldl_cons, List.foldl_nil]
    generalize (List.range n).foldl (fun acc i => if p i then acc + 2 ^ i else acc) 0 = x at hlt hbit
    have hpow : 2 ^ (n + 1) = 2 ^ n + 2 ^ n := by rw [Nat.pow_succ, Nat.mul_two]
    cases hp : p n with
    | false =>
      refine ⟨by simp; omega, fun k => ?_⟩
      by_cases hk : k = n
      · subst hk; simp [hbit, hp]
      · have : k < n + 1 ↔ k < n := by omega
        simp [hbit, this]
    | true =>
      refine ⟨by simp; omega, fun k => ?_⟩
      rw [if_pos rfl, Nat.add_comm]
      rcases Nat.lt_trichotomy k n with hk | hk | hk
      · rw [Nat.testBit_two_pow_add_gt hk, hbit]
        simp [hk, Nat.lt_succ_of_lt hk]
      · subst hk
        rw [Nat.testBit_two_pow_add_eq, hbit]
        simp [hp]
      · rw [Nat.testBit_lt_two_pow (by calc 2 ^ n + x < 2 ^ (n + 1) := by omega
            _ ≤ 2 ^ k := Nat.pow_le_pow_right (by decide) hk)]
        simp; omega

end Ranges

/-! ## MENC (R108, R309) -/

/-- Bit plane `p` of a row of 64 codes. -/
def codePlane (code : Nat → Nat) (p : Nat) : Nat :=
  (List.range 64).foldl (fun acc i => if (((List.range 64).map code).getD i 0).testBit p then acc + 2 ^ i else acc) 0

/-- The 32 bytes of a row of codes: four bit planes (R108). -/
def codeRow (code : Nat → Nat) : List Byte := [0, 1, 2, 3].flatMap (fun p => natBytes 8 (codePlane code p))

/-- A slot's data with its 64 rows of codes. -/
def codedRows (m : Memory) (code : Nat → Nat → Nat) : Memory :=
  (List.range 64).foldl (fun m r => writeBytes m (32 * r) (codeRow (code r))) m

theorem codePlane_lt (code : Nat → Nat) (p : Nat) : codePlane code p < 2 ^ 64 := (testBit_foldl_bits 64 _).1

theorem testBit_codePlane (code : Nat → Nat) (p : Nat) {j : Nat} (hj : j < 64) : (codePlane code p).testBit j = (code j).testBit p := by
  rw [codePlane, (testBit_foldl_bits 64 _).2]
  simp [hj]

theorem codeRow_length (code : Nat → Nat) : (codeRow code).length = 32 := by
  simp [codeRow]

/-- A byte of a memory after rows of 32 bytes from address 0 up. -/
theorem readByte_rows (m : Memory) (row : Nat → List Byte) (hlen : ∀ r, (row r).length = 32) (n x : Nat) :
    readByte ((List.range n).foldl (fun m r => writeBytes m (32 * r) (row r)) m) x =
      if x < 32 * n then (row (x / 32)).getD (x % 32) 0 else readByte m x := by
  induction n with
  | zero => simp
  | succ n ih =>
    rw [List.range_succ, List.foldl_append, List.foldl_cons, List.foldl_nil, readByte_writeBytes, ih, hlen]
    by_cases hin : 32 * n ≤ x ∧ x < 32 * n + 32
    · have hrow : x / 32 = n := by omega
      have hoff : x - 32 * n = x % 32 := by omega
      rw [if_pos hin, if_pos (by omega), hrow, hoff]
    · rw [if_neg hin]
      by_cases hlt : x < 32 * n
      · rw [if_pos hlt, if_pos (by omega)]
      · rw [if_neg hlt, if_neg (by omega)]

/-- Eight bytes of a row, read back. -/
theorem readBytes_codedRows (m : Memory) (code : Nat → Nat → Nat) {r p : Nat} (hr : r < 64) (hp : p < 4) :
    readBytes (codedRows m code) (32 * r + 8 * p) 8 = natBytes 8 (codePlane (code r) p) := by
  have hplane (k : Nat) (hk : k < 8) : (codeRow (code r)).getD (8 * p + k) 0 = (natBytes 8 (codePlane (code r) p)).getD k 0 := by
    have hdrop : (codeRow (code r)).drop (8 * p) = natBytes 8 (codePlane (code r) p) ++ (codeRow (code r)).drop (8 * p + 8) := by
      rcases p with _ | _ | _ | _ | p
      · simp [codeRow]
      · simp [codeRow, List.drop_append, List.drop_of_length_le]
      · simp [codeRow, List.drop_append, List.drop_of_length_le]
      · simp [codeRow, List.drop_append, List.drop_of_length_le]
      · omega
    rw [List.getD_eq_getElem?_getD, ← List.getElem?_drop, hdrop, List.getElem?_append_left (by rwa [natBytes_length]),
      List.getD_eq_getElem?_getD]
  have hread := readBytes_writeBytes m (32 * r + 8 * p) (natBytes 8 (codePlane (code r) p))
  rw [natBytes_length] at hread
  refine (readBytes_eq fun x hlo hhi => ?_).trans hread
  obtain ⟨k, rfl⟩ := Nat.exists_eq_add_of_le hlo
  have hk : k < 8 := by omega
  have hrow : (32 * r + 8 * p + k) / 32 = r := by omega
  have hoff : (32 * r + 8 * p + k) % 32 = 8 * p + k := by omega
  rw [codedRows, readByte_rows m _ (fun r => codeRow_length (code r)), if_pos (by omega), hrow, hoff, hplane k hk, readByte_writeBytes,
    natBytes_length, if_pos (by omega), Nat.add_sub_cancel_left]

theorem readByte_codedRows_out (m : Memory) (code : Nat → Nat → Nat) {b : Nat} (hb : 2048 ≤ b) :
    readByte (codedRows m code) b = readByte m b := by
  rw [codedRows, readByte_rows m _ (fun r => codeRow_length (code r)), if_neg (by omega)]

/-- A slot's codes are read back from their planes. -/
theorem c4Code_codedRows (m : Memory) (code : Nat → Nat → Nat) {r j : Nat} (hr : r < 64) (hj : j < 64) (hcode : code r j < 16) :
    c4Code (codedRows m code) r j = code r j := by
  have hplane (p : Nat) (hp : p < 4) : (readLE (codedRows m code) (32 * r + 8 * p) 8).testBit j = (code r j).testBit p := by
    rw [readLE, readBytes_codedRows m code hr hp, leNat_natBytes, show 256 ^ 8 = 2 ^ 64 from rfl,
      Nat.mod_eq_of_lt (codePlane_lt (code r) p), testBit_codePlane (code r) p hj]
  have hbits : ∀ n < 16, (if n.testBit 0 then 2 ^ 0 else 0) + (if n.testBit 1 then 2 ^ 1 else 0) + (if n.testBit 2 then 2 ^ 2 else 0) +
      (if n.testBit 3 then 2 ^ 3 else 0) = n := by decide
  simp only [c4Code, hplane 0 (by decide), hplane 1 (by decide), hplane 2 (by decide), hplane 3 (by decide)]
  exact hbits _ hcode

/-- What a fold over the numbers below a bound has chosen among them is below it. -/
theorem fold_choice_lt {β : Type} {n : Nat} (hn : 0 < n) {step : Option (Nat × β) → Nat → Option (Nat × β)}
    (hstep : ∀ acc c, step acc c = acc ∨ ∃ d, step acc c = some (c, d)) : ((List.range n).foldl step none).elim 0 (·.1) < n := by
  have hfold (l : List Nat) (hl : ∀ c ∈ l, c < n) (acc : Option (Nat × β)) (hacc : acc.elim 0 (·.1) < n) :
      (l.foldl step acc).elim 0 (·.1) < n := by
    induction l generalizing acc with
    | nil => exact hacc
    | cons c l ih =>
      refine ih (fun c' hc' => hl c' (List.mem_cons_of_mem _ hc')) _ ?_
      rcases hstep acc c with h | ⟨d, h⟩
      · rwa [h]
      · rw [h]
        exact hl c List.mem_cons_self
  exact hfold _ (fun c hc => List.mem_range.1 hc) none hn

theorem mencCode_lt (tab : List FVal) (x : FVal) : mencCode tab x < 16 := by
  unfold mencCode
  split
  · decide
  · refine fold_choice_lt (by decide) fun acc c => ?_
    dsimp only
    split
    · exact .inl rfl
    · split
      · exact .inr ⟨_, rfl⟩
      · split
        · exact .inr ⟨_, rfl⟩
        · exact .inl rfl

/-! ## MZERO and MFILL (R301) -/

theorem mzero_outcome {tr : BitVec 6} (h : Starts (.mzero tr) s c s₁) (hport : Spec.atPort c s₁ t s₂) :
    (Spec.tileNamed c t tr = none → Faults (.mzero tr) s c 0x08 0 c.g.m0 0 0) ∧
    (∀ x u, Spec.tileNamed c t tr = some x → meetEcc s₂ c.core true = (false, u) →
      Completes (.mzero tr) s c (modTeam u c.tid (fun u => u.setTile x.num ⟨x.num, x.phys, [], [], 0, 0, [], BitVec.allOnes 64, x.recs⟩))) ∧
    (∀ x u, Spec.tileNamed c t tr = some x → meetEcc s₂ c.core true = (true, u) → FaultsLeaving (.mzero tr) s c u 0x15 0 c.g.m0) := by
  have hcore : Ctx.core { c with t := t } = c.core := core_of_atPort h hport
  refine ⟨fun hx => port_faults h hport rfl ?_, fun x u hx he => port_completes h hport rfl ?_, fun x u hx he => port_faultsLeaving h hport rfl ?_⟩
  · simp only [tileOf_eq, hx]
    rfl
  · simp only [tileOf_eq, hx]
    exact onShelf_passes (by rwa [hcore])
  · simp only [tileOf_eq, hx]
    exact onShelf_meets (by rwa [hcore])

/-- The 32-bit word number `i` of bytes. -/
def wordAt (bs : List Byte) (i : Nat) : Nat := leNat ((bs.drop (4 * i)).take 4)

/-- The tile that MFILL leaves from 16,384 bytes. -/
def filledTile (x : Tile) (int : Bool) (kind : Nat) (bs : List Byte) (seed : Nat) : Tile :=
  let all := (List.range 4096).map (fun i => fillElem int (wordAt bs i) (seed + i))
  let es : NMap Elem := (List.range 4096).filterMap (fun i =>
    let v := (all.getD i (0, false)).1
    if v = 0 then none else some (i, v))
  { x with
    kinds := (List.range 64).map (fun r => (r, kind)), elems := es, colFlags := 0, shadow := es, valid := BitVec.allOnes 64
    rowFlags := (List.range 64).foldl (fun (v : DWord) r =>
      if ((all.drop (64 * r)).take 64).any (·.2) then v ||| BitVec.ofNat 64 (2 ^ r) else v) 0 }

theorem filledTile_elem (x : Tile) (int : Bool) (kind : Nat) (bs : List Byte) (seed : Nat) {r j : Nat} (hr : r < 64) (hj : j < 64) :
    (filledTile x int kind bs seed).elem r j = (fillElem int (wordAt bs (64 * r + j)) (seed + (64 * r + j))).1 := by
  have hk : 64 * r + j < 4096 := by omega
  simp only [Tile.elem, filledTile]
  rw [nmGetD_nonzero hk]
  simp [hk]

theorem filledTile_rowFlags (x : Tile) (int : Bool) (kind : Nat) (bs : List Byte) (seed : Nat) {r : Nat} (hr : r < 64) :
    (filledTile x int kind bs seed).rowFlags.getLsbD r =
      (List.range 64).any (fun j => (fillElem int (wordAt bs (64 * r + j)) (seed + (64 * r + j))).2) := by
  have hrow : (((List.range 4096).map (fun i => fillElem int (wordAt bs i) (seed + i))).drop (64 * r)).take 64 =
      (List.range 64).map (fun j => fillElem int (wordAt bs (64 * r + j)) (seed + (64 * r + j))) := by
    refine List.ext_getElem (by simp; omega) fun j _ _ => ?_
    simp
  simp only [filledTile]
  rw [getLsbD_foldl_rows _ _ _ hr, hrow, List.any_map]
  simp [hr, Function.comp_def]

theorem filledTile_kinds (x : Tile) (int : Bool) (kind : Nat) (bs : List Byte) (seed : Nat) {r : Nat} (hr : r < 64) :
    nmGet r (filledTile x int kind bs seed).kinds = some kind := by
  simp only [filledTile]
  rw [nmGet_map_pair]
  simp [hr]

theorem mfill_completes {tr a : BitVec 6} {u : State} {x : Tile} {off : Nat} (h : Starts (.mfill tr a) s c s₁) (hport : Spec.atPort c s₁ t s₂)
    (hx : Spec.tileNamed c t tr = some x) (hfmt : fmtAccf c.g.fmt ≤ 1) (hal : (c.s a).toNat % 128 = 0)
    (hdesk : ownDesk s₂ t (c.s a).toNat 16384 = some off) (hp : t.present off 16384 = true) (he : meetEcc s₂ c.core true = (false, u)) :
    Completes (.mfill tr a) s c (modTeam { u with free := u.free + 4096 } c.tid (fun y => y.setTile x.num
      (filledTile x (fmtAccf c.g.fmt = 1) (Spec.accKind c.g.fmt) (readBytes t.desk off 16384) u.free))) := by
  have hcore : Ctx.core { c with t := t } = c.core := core_of_atPort h hport
  have haddr : (Ctx.s { c with t := t } a).toNat = (c.s a).toNat := rfl
  refine port_completes h hport rfl ?_
  simp only [tileOf_eq, hx, haddr, Nat.not_lt.2 hfmt, if_false, hal, ne_eq, not_true_eq_false, hdesk, hp, Bool.not_true, Bool.false_eq_true]
  rw [onShelf_passes (by rwa [hcore])]
  simp only [filledTile, wordAt, Spec.accKind]
  congr 3

theorem mfill_outcome {tr a : BitVec 6} {u : State} {x : Tile} {off : Nat} (h : Starts (.mfill tr a) s c s₁) (hport : Spec.atPort c s₁ t s₂)
    (hx : Spec.tileNamed c t tr = some x) (hfmt : fmtAccf c.g.fmt ≤ 1) (hal : (c.s a).toNat % 128 = 0)
    (hdesk : ownDesk s₂ t (c.s a).toNat 16384 = some off) (hp : t.present off 16384 = true) (he : meetEcc s₂ c.core true = (false, u)) :
    let bs := readBytes t.desk off 16384
    let word (i : Nat) : Nat := leNat ((bs.drop (4 * i)).take 4)
    ∃ (tile : Tile) (f : Nat), Completes (.mfill tr a) s c (modTeam { u with free := f } c.tid (fun u => u.setTile x.num tile)) ∧
      tile.num = x.num ∧ tile.phys = x.phys ∧ (∀ r, r < 64 → nmGet r tile.kinds = some (Spec.accKind c.g.fmt)) ∧ tile.colFlags = 0 ∧ tile.valid = BitVec.allOnes 64 ∧
      tile.shadow = tile.elems ∧
      (∀ r j, r < 64 → j < 64 →
        (fmtAccf c.g.fmt = 1 → tile.elem r j = BitVec.ofNat 34 (word (64 * r + j))) ∧
        (fmtAccf c.g.fmt = 0 → (decodeF fp32 (word (64 * r + j))).finite = true →
          tile.elem r j = BitVec.ofNat 34 (roundVal extFmt .rne (decodeF fp32 (word (64 * r + j)))).bits)) ∧
      (∀ r, r < 64 → tile.rowFlags.getLsbD r =
        (fmtAccf c.g.fmt = 0 && (List.range 64).any (fun j => !(decodeF fp32 (word (64 * r + j))).finite))) := by
  intro bs word
  refine ⟨filledTile x (fmtAccf c.g.fmt = 1) (Spec.accKind c.g.fmt) bs u.free, u.free + 4096, mfill_completes h hport hx hfmt hal hdesk hp he,
    rfl, rfl, fun r hr => filledTile_kinds x _ _ _ _ hr, rfl, rfl, rfl, fun r j hr hj => ?_, fun r hr => ?_⟩
  · rw [filledTile_elem x _ _ _ _ hr hj]
    refine ⟨fun hint => ?_, fun hint hfin => ?_⟩
    · rw [fillElem, if_pos (decide_eq_true hint)]
      rfl
    · rw [fillElem, if_neg (by simp [hint])]
      exact congrArg Prod.fst (if_pos hfin)
  · rw [filledTile_rowFlags x _ _ _ _ hr]
    rcases Nat.le_one_iff_eq_zero_or_eq_one.1 hfmt with hint | hint
    · have hflag (w seed : Nat) : (fillElem (decide (fmtAccf c.g.fmt = 1)) w seed).2 = !(decodeF fp32 w).finite := by
        rw [fillElem, if_neg (by simp [hint])]
        dsimp only
        split <;> simp [*]
      simp only [hflag]
      rw [decide_eq_true hint, Bool.true_and]
      rfl
    · simp [fillElem, hint]

/-! ## Codebooks, codes, status and quarters (R296, R297, R309, R312) -/

theorem cbld_desk {k a : BitVec 6} {off : Nat} (h : Starts (.cbld k a 1) s c s₁) (hport : Spec.atPort c s₁ t s₂)
    (hal : (c.s a).toNat % 32 = 0) (hdesk : ownDesk s₂ t (c.s a).toNat 32 = some off) (hk : (c.s k).toNat < 16) (hp : t.present off 32 = true) :
    Completes (.cbld k a 1) s c (loadCodebook s₂ c (c.s k).toNat (readBytes t.desk off 32)) := by
  have hcore : Ctx.core { c with t := t } = c.core := core_of_atPort h hport
  have haddr : (Ctx.s { c with t := t } a).toNat = (c.s a).toNat := rfl
  have hnum : lowNum (Ctx.s { c with t := t } k) 4 = some (c.s k).toNat := lowNum_of_lt hk
  refine port_completes h hport rfl ?_
  simp only [haddr, hal, ne_eq, not_true_eq_false, if_false, isSet_one, if_true, hdesk, hnum, hp, Bool.not_true, Bool.false_eq_true]
  simp only [loadCodebook, hcore]

theorem cbld_mem {k a : BitVec 6} {s₃ s₄ : State} {l : List (Access × Xlat)} {bs : List Byte} (h : Starts (.cbld k a 0) s c s₁)
    (hport : Spec.atPort c s₁ t s₂) (hal : (c.s a).toNat % 32 = 0) (hk : (c.s k).toNat < 16)
    (hcheck : checkMem { c with t := t } ((List.range 16).map (fun i => ⟨i, (c.s a).toNat + 2 * i, 2, 2, .read, .none⟩)) s₂ = .ok l s₃)
    (hsend : canSend s₃ { c with t := t } l false = true)
    (hread : readAtOnce { c with t := t } (l.map (fun p => ({ c with t := t } : Ctx).request 0 c.g.m0 p.1 p.2 false)) s₃ = .done s₄ bs) :
    Completes (.cbld k a 0) s c (loadCodebook s₄ c (c.s k).toNat bs) := by
  have hcore : Ctx.core { c with t := t } = c.core := core_of_atPort h hport
  have haddr : (Ctx.s { c with t := t } a).toNat = (c.s a).toNat := rfl
  have hnum : lowNum (Ctx.s { c with t := t } k) 4 = some (c.s k).toNat := lowNum_of_lt hk
  refine port_completes h hport rfl ?_
  simp only [haddr, hal, ne_eq, not_true_eq_false, if_false, isSet_zero, Bool.false_eq_true, hcheck, hnum, hsend, Bool.not_true, hread]
  simp only [loadCodebook, hcore]

theorem menc_outcome {d sl k : BitVec 6} {x y : Slot} (h : Starts (.menc d sl k) s c s₁) (hport : Spec.atPort c s₁ t s₂)
    (hx : Spec.slotNamed c t d = some x) (hy : Spec.slotNamed c t sl = some y) (hk : (c.s k).toNat < 16) :
    ∃ data : Memory, Completes (.menc d sl k) s c (modTeam s₂ c.tid (fun u => u.setSlot x.num data)) ∧
      (∀ r j, r < 64 → j < 64 → c4Code data r j = mencCode
        ((List.range 16).map (fun n => decodeF bf16 (((t.codebook (c.s k).toNat).getD n 0)).toNat)) (slotElem y.data 0 [] r j)) ∧
      (∀ b, 2048 ≤ b → readByte data b = readByte x.data b) := by
  have hnum : lowNum (Ctx.s { c with t := t } k) 4 = some (c.s k).toNat := lowNum_of_lt hk
  refine ⟨codedRows x.data (fun r j => mencCode
    ((List.range 16).map (fun n => decodeF bf16 (((t.codebook (c.s k).toNat).getD n 0)).toNat)) (slotElem y.data 0 [] r j)),
    port_completes h hport rfl ?_, fun r j hr hj => c4Code_codedRows _ _ hr hj (mencCode_lt _ _), fun b hb => readByte_codedRows_out _ _ hb⟩
  simp only [slotOf_eq, hx, hy, hnum]
  rfl

theorem mstat_outcome {d : BitVec 6} {sel : BitVec 2} (h : Starts (.mstat d sel) s c s₁) (hport : Spec.atPort c s₁ t s₂) :
    ((coreOf s₂ c.core).drains.any (fun x => x.team = c.tid) = true → HeldAt (.mstat d sel) s c .mat s₂) ∧
    ((coreOf s₂ c.core).drains.any (fun x => x.team = c.tid) = false →
      Completes (.mstat d sel) s c (changeGroup c (if sel = 1 then modTeam s₂ c.tid (fun u => { u with mstat := 0 }) else s₂)
        (fun g => g.setS d.toNat (if sel = 2 then BitVec.ofNat 64 Config.wakeLatency else BitVec.ofNat 64 t.mstat.toNat)))) := by
  have hcore : Ctx.core { c with t := t } = c.core := core_of_atPort h hport
  refine ⟨fun hdrain => port_held h hport rfl ?_, fun hidle => port_completes h hport rfl ?_⟩
  · simp only [hcore]
    exact if_pos hdrain
  · simp only [hcore]
    rw [if_neg (Bool.eq_false_iff.1 hidle), ← apply_ite (BitVec.ofNat 64)]
    rfl

theorem mmq_outcome {a b p : BitVec 6} {qmask : BitVec 4} {metric : BitVec 2} (h : Starts (.mmq a b p qmask metric) s c s₁) :
    (mmqQuarters c a b p qmask metric = none → Faults (.mmq a b p qmask metric) s c 0x08 0 c.g.m0 0 0) ∧
    (∀ qs u, mmqQuarters c a b p qmask metric = some qs → (if qs = [] then u = s₁ else meetEcc s₁ c.core true = (false, u)) →
      Completes (.mmq a b p qmask metric) s c (modCore u c.core (fun x =>
        qs.foldl (fun x q => joinPass x (cycleAt s₁ c.core) q) (closeDue x (cycleAt s₁ c.core))))) ∧
    (∀ qs u, mmqQuarters c a b p qmask metric = some qs → qs ≠ [] → meetEcc s₁ c.core true = (true, u) →
      FaultsLeaving (.mmq a b p qmask metric) s c u 0x15 0 c.g.m0) := by
  refine ⟨fun hq => faults_of_starts h rfl ?_, fun qs u hq he => completes_of_starts h rfl ?_, fun qs u hq hne he => faultsLeaving_of_starts h rfl ?_⟩
  · simp only [hq]
    rfl
  · simp only [hq, List.isEmpty_iff]
    split
    · next hnil => rw [if_pos hnil] at he; rw [he]
    · next hnil => rw [if_neg hnil] at he; exact onShelf_passes he
  · simp only [hq, List.isEmpty_iff, hne, if_false]
    exact onShelf_meets he

/-- Settles O41: each instruction of the port by its own lemma. -/
theorem matrixPortInstructions : Obligations.MatrixPortInstructions :=
  ⟨fun _ _ _ _ _ _ h hport => mzero_outcome h hport,
    fun _ _ _ _ _ _ _ _ _ _ h hport hx hfmt hal hdesk hp he => mfill_outcome h hport hx hfmt hal hdesk hp he,
    fun _ _ _ _ _ _ _ _ h hport hal hdesk hk hp => cbld_desk h hport hal hdesk hk hp,
    fun _ _ _ _ _ _ _ _ _ _ _ h hport hal hk hcheck hsend hread => cbld_mem h hport hal hk hcheck hsend hread,
    fun _ _ _ _ _ _ _ _ _ _ h hport hx hy hk => menc_outcome h hport hx hy hk,
    fun _ _ _ _ _ _ _ h hport => mstat_outcome h hport, fun _ _ _ _ _ _ _ _ h => mmq_outcome h⟩

end Sys2Proof.Proofs
end

