-- ==== Sys2Proof/Proofs/MatrixArithmetic.lean ====
section
/-! PROOFS. What a quarter and CUPD add to a tile, and what MDRAIN gives (R91, R93, R298, R302 to R308, R313). -/

namespace Sys2Proof.Proofs

open Machine

variable {i : Instr} {s s₀ s₁ s₂ : State} {c : Ctx} {t : Team} {g : Group}

/-! ## Folds that change what one of their steps is about -/

section Folds

variable {β ι γ : Type} {step : β → ι → β} {get : β → γ}

theorem foldl_get_out {l : List ι} (h : ∀ x, ∀ k ∈ l, get (step x k) = get x) (x : β) : get (l.foldl step x) = get x := by
  induction l generalizing x with
  | nil => rfl
  | cons k l ih => exact (ih (fun x k' hk' => h x k' (List.mem_cons_of_mem _ hk')) _).trans (h x k List.mem_cons_self)

/-- One step of a fold changes the value; what it relies on (`P`) is kept by all. -/
theorem foldl_get_once {l : List ι} {P : β → Prop} {F : γ → γ} {k₀ : ι} (hnd : l.Nodup) (hk₀ : k₀ ∈ l) (hP : ∀ x k, P x → P (step x k))
    (hset : ∀ x, P x → get (step x k₀) = F (get x)) (hother : ∀ x, ∀ k ∈ l, k ≠ k₀ → get (step x k) = get x) {x : β} (hx : P x) :
    get (l.foldl step x) = F (get x) := by
  induction l generalizing x with
  | nil => cases hk₀
  | cons k l ih =>
    obtain ⟨hk, hnd⟩ := List.nodup_cons.1 hnd
    rw [List.foldl_cons]
    rcases List.mem_cons.1 hk₀ with rfl | hmem
    · rw [foldl_get_out (fun x k' hk' => hother x k' (List.mem_cons_of_mem _ hk') fun h => hk (h ▸ hk')), hset x hx]
    · have hne : k ≠ k₀ := fun h => hk (h ▸ hmem)
      rw [ih hnd hmem (fun x k' hk' => hother x k' (List.mem_cons_of_mem _ hk')) (hP x k hx), hother x k List.mem_cons_self hne]

end Folds

/-! ## Tiles (R110, R313) -/

theorem nmGetD_nmDel_self {α : Type} (k : Nat) (m : NMap α) (d : α) : nmGetD (nmDel k m) k d = d := by
  rw [nmGetD, nmGet_nmDel_self, Option.getD_none]

theorem nmGetD_nmDel_ne {α : Type} {j k : Nat} (h : j ≠ k) (m : NMap α) (d : α) : nmGetD (nmDel k m) j d = nmGetD m j d := by
  rw [nmGetD, nmGet_nmDel_ne h, nmGetD]

theorem nmGetD_setElem_self (m : NMap Elem) (k : Nat) (v : Elem) : nmGetD (setElem m k v) k 0 = v := by
  rw [setElem]
  split
  · next hv => rw [nmGetD_nmDel_self, hv]
  · rw [nmGetD_nmPut_self]

theorem nmGetD_setElem_ne {j k : Nat} (h : j ≠ k) (m : NMap Elem) (v : Elem) : nmGetD (setElem m k v) j 0 = nmGetD m j 0 := by
  rw [setElem]
  split
  · exact nmGetD_nmDel_ne h m 0
  · exact nmGetD_nmPut_ne h v 0 m

theorem num_of_tileAt {n : Nat} {x : Tile} (h : t.tileAt n = some x) : x.num = n := by
  simpa using List.find?_some h

theorem num_of_slotAt {n : Nat} {x : Slot} (h : t.slotAt n = some x) : x.num = n := by
  simpa using List.find?_some h

/-- A team's tile is the one that it was set to. -/
theorem tileAt_setTile {n : Nat} {x y : Tile} (hx : t.tileAt n = some x) (hy : y.num = n) : (t.setTile n y).tileAt n = some y := by
  unfold Team.tileAt at hx ⊢
  unfold Team.setTile
  dsimp only
  generalize t.tiles = l at hx ⊢
  induction l with
  | nil => cases hx
  | cons z l ih =>
    by_cases hz : z.num = n
    · simp [hz, hy]
    · simp only [List.find?_cons, hz, decide_false] at hx
      simp only [List.map_cons, List.find?_cons, hz, if_false, decide_false]
      exact ih hx

section Rows

variable {x : Tile} {r r' j kind seed : Nat}

theorem rowAs_elem_ne (hr : r' ≠ r) (hj : j < 64) : (x.rowAs r kind seed).elem r' j = x.elem r' j := by
  simp only [Tile.elem, Tile.rowAs]
  split
  · rfl
  · refine foldl_get_out (get := fun m => nmGetD m (64 * r' + j) 0) (fun m k hk => nmGetD_setElem_ne ?_ m _) x.elems
    have := List.mem_range.1 hk
    omega

theorem rowAs_elem_of_kind (h : nmGetD x.kinds r' kind = kind) (hj : j < 64) : (x.rowAs r kind seed).elem r' j = x.elem r' j := by
  by_cases hr : r' = r
  · subst hr
    simp only [Tile.elem, Tile.rowAs, h, if_true]
  · exact rowAs_elem_ne hr hj

theorem rowAs_kind (h : nmGetD x.kinds r' kind = kind) : nmGetD (x.rowAs r kind seed).kinds r' kind = kind := by
  simp only [Tile.rowAs]
  by_cases hr : r' = r
  · rw [hr, nmGetD_nmPut_self]
  · rw [nmGetD_nmPut_ne hr, h]

variable {rows : List Nat}

theorem as_elem_out (hr : r ∉ rows) (hj : j < 64) : (x.as rows kind seed).elem r j = x.elem r j :=
  foldl_get_out (get := fun x : Tile => x.elem r j) (fun _ _ hk => rowAs_elem_ne (fun h => hr (h ▸ hk)) hj) x

theorem as_elem_of_kind (h : nmGetD x.kinds r kind = kind) (hj : j < 64) : (x.as rows kind seed).elem r j = x.elem r j := by
  unfold Tile.as
  induction rows generalizing x with
  | nil => rfl
  | cons k rows ih => exact (ih (rowAs_kind h)).trans (rowAs_elem_of_kind h hj)

theorem as_rowFlags : (x.as rows kind seed).rowFlags = x.rowFlags := by
  unfold Tile.as
  refine foldl_get_out (get := Tile.rowFlags) (fun _ _ _ => ?_) x
  rfl

theorem as_colFlags : (x.as rows kind seed).colFlags = x.colFlags := by
  unfold Tile.as
  refine foldl_get_out (get := Tile.colFlags) (fun _ _ _ => ?_) x
  rfl

theorem as_num : (x.as rows kind seed).num = x.num := by
  unfold Tile.as
  refine foldl_get_out (get := Tile.num) (fun _ _ _ => ?_) x
  rfl

end Rows

/-- Rows set one after another in a set of flags. -/
theorem getLsbD_foldl_or (l : List Nat) (v : DWord) {k : Nat} (hk : k < 64) :
    (l.foldl (fun (v : DWord) r => v ||| BitVec.ofNat 64 (2 ^ r)) v).getLsbD k = (v.getLsbD k || decide (k ∈ l)) := by
  have h := getLsbD_foldl_rows l (fun _ => true) v hk
  rwa [Bool.and_true] at h

/-! ## A quarter (R298) -/

/-- The terms that a quarter adds to element (r, j). -/
def quarterTerms (t : Team) (q : Quarter) (seed : Nat) (sa sb : Slot) (r j : Nat) : List FVal :=
  (List.range 64).map (fun k =>
    if k < q.ks then .fin false 0 0
    else arrayTerm q.metric (orFree (slotElem sa.data (fmtAf q.fmt) (t.codebook (fmtCba q.fmt)) r k) (seed + 64 * r + k))
      (orFree (slotElem sb.data (fmtBf q.fmt) (t.codebook (fmtCbb q.fmt)) k j) (seed + 4096 + 64 * k + j)))

/-- A quarter's terms reach one element, and its shadow in redundant mode. -/
def quarterStep (int red : Bool) (terms : Nat → Nat → List FVal) (x : Tile) (p : Nat × Nat) : Tile :=
  let i := 64 * p.1 + p.2
  let ts := terms p.1 p.2
  let x : Tile := { x with elems := setElem x.elems i (addTerms int (nmGetD x.elems i 0) ts) }
  if red then { x with shadow := setElem x.shadow i (addTerms int (nmGetD x.shadow i 0) ts) } else x

/-- The rows of a quarter. -/
def quarterRows (q : Quarter) : List Nat := (List.range 8).map (fun i => q.row + i)

/-- A quarter's flags and record. -/
def quarterMarks (t : Team) (q : Quarter) (sa sb : Slot) (x : Tile) : Tile :=
  let ks := (List.range 64).filter (fun k => q.ks ≤ k)
  let rf := (quarterRows q).filter (fun r => ks.any (fun k => !(slotElem sa.data (fmtAf q.fmt) (t.codebook (fmtCba q.fmt)) r k).finite))
  let cf := (List.range 64).filter (fun j => ks.any (fun k => !(slotElem sb.data (fmtBf q.fmt) (t.codebook (fmtCbb q.fmt)) k j).finite))
  { x with
    rowFlags := rf.foldl (fun v r => v ||| BitVec.ofNat 64 (2 ^ r)) x.rowFlags
    colFlags := cf.foldl (fun v j => v ||| BitVec.ofNat 64 (2 ^ j)) x.colFlags
    recs := (quarterRows q).foldl (fun m r => nmPut r (q.a, q.b) m) x.recs }

/-- The sums of a quarter in its tile. -/
def quarterSums (t : Team) (q : Quarter) (seed : Nat) (sa sb : Slot) (x : Tile) : Tile :=
  ((quarterRows q).flatMap (fun r => (List.range 64).map (fun j => (r, j)))).foldl
    (quarterStep (fmtAccf q.fmt = 1) (fmtRed q.fmt) (quarterTerms t q seed sa sb)) (x.as (quarterRows q) (Spec.accKind q.fmt) (seed + 8192))

/-- The tile that a quarter leaves. -/
def quarterTile (t : Team) (q : Quarter) (seed : Nat) (sa sb : Slot) (x : Tile) : Tile :=
  let y := quarterMarks t q sa sb (quarterSums t q seed sa sb x)
  if fmtRed q.fmt then y else clearValid y (quarterRows q)

theorem applyQuarter_eq {q : Quarter} {seed : Nat} {sa sb : Slot} {x : Tile} (ha : t.slotAt q.a = some sa) (hb : t.slotAt q.b = some sb)
    (hx : t.tileAt q.tile = some x) : applyQuarter t q seed = t.setTile q.tile (quarterTile t q seed sa sb x) := by
  simp only [applyQuarter, ha, hb, hx]
  rfl

section Quarters

variable {q : Quarter} {sa sb : Slot} {x : Tile} {seed r j : Nat}

theorem mem_quarterRows : r ∈ quarterRows q ↔ q.row ≤ r ∧ r < q.row + 8 := by
  rw [quarterRows, List.mem_map]
  refine ⟨fun ⟨k, hk, hr⟩ => ?_, fun ⟨hlo, hhi⟩ => ⟨r - q.row, List.mem_range.2 (by omega), by omega⟩⟩
  have := List.mem_range.1 hk
  omega

theorem quarterRows_nodup : (quarterRows q).Nodup :=
  List.Nodup.map (fun a b h => by omega) List.nodup_range

theorem quarterStep_elem_ne {int red : Bool} {terms : Nat → Nat → List FVal} {k l : Nat} (hne : ¬(k = r ∧ l = j)) (hl : l < 64) (hj : j < 64) :
    (quarterStep int red terms x (k, l)).elem r j = x.elem r j := by
  have hkey : 64 * r + j ≠ 64 * k + l := by omega
  simp only [quarterStep]
  split <;> exact nmGetD_setElem_ne hkey _ _

theorem quarterStep_elem_self {int red : Bool} {terms : Nat → Nat → List FVal} :
    (quarterStep int red terms x (r, j)).elem r j = addTerms int (x.elem r j) (terms r j) := by
  simp only [quarterStep]
  split <;> exact nmGetD_setElem_self _ _ _

/-- The steps of one row. -/
theorem quarterRow_elem {int red : Bool} {terms : Nat → Nat → List FVal} {k : Nat} (hj : j < 64) :
    (((List.range 64).map (fun l => (k, l))).foldl (quarterStep int red terms) x).elem r j =
      if k = r then addTerms int (x.elem r j) (terms r j) else x.elem r j := by
  rw [List.foldl_map]
  split
  · next hk =>
    subst hk
    exact foldl_get_once (get := fun x : Tile => x.elem k j) (P := fun _ => True) (F := fun e => addTerms int e (terms k j)) List.nodup_range
      (List.mem_range.2 hj) (fun _ _ _ => trivial) (fun _ _ => quarterStep_elem_self)
      (fun _ l hl hne => quarterStep_elem_ne (fun h => hne h.2) (List.mem_range.1 hl) hj) trivial
  · next hk =>
    exact foldl_get_out (get := fun x : Tile => x.elem r j) (fun _ l hl => quarterStep_elem_ne (fun h => hk h.1) (List.mem_range.1 hl) hj) x

theorem quarterSums_elem_out (hr : r ∉ quarterRows q) (hj : j < 64) : (quarterSums t q seed sa sb x).elem r j = x.elem r j := by
  rw [quarterSums, List.foldl_flatMap]
  refine (foldl_get_out (get := fun x : Tile => x.elem r j) (fun x k hk => ?_) _).trans (as_elem_out hr hj)
  rw [quarterRow_elem hj, if_neg fun h : k = r => hr (h ▸ hk)]

theorem quarterSums_elem_in (hr : r ∈ quarterRows q) (hj : j < 64) (hkind : nmGetD x.kinds r (Spec.accKind q.fmt) = Spec.accKind q.fmt) :
    (quarterSums t q seed sa sb x).elem r j = addTerms (fmtAccf q.fmt = 1) (x.elem r j) (quarterTerms t q seed sa sb r j) := by
  rw [quarterSums, List.foldl_flatMap]
  refine (foldl_get_once (get := fun x : Tile => x.elem r j) (P := fun _ => True)
    (F := fun e => addTerms (fmtAccf q.fmt = 1) e (quarterTerms t q seed sa sb r j)) quarterRows_nodup hr (fun _ _ _ => trivial)
    (fun x _ => ?_) (fun x k _ hne => ?_) trivial).trans ?_
  · rw [quarterRow_elem hj, if_pos rfl]
  · rw [quarterRow_elem hj, if_neg hne]
  · rw [as_elem_of_kind hkind hj]

theorem quarterSums_rowFlags : (quarterSums t q seed sa sb x).rowFlags = x.rowFlags := by
  refine (foldl_get_out (step := quarterStep _ _ _) (get := Tile.rowFlags) (fun x p _ => ?_) _).trans as_rowFlags
  simp only [quarterStep]
  split <;> rfl

theorem quarterSums_num : (quarterSums t q seed sa sb x).num = x.num := by
  refine (foldl_get_out (step := quarterStep _ _ _) (get := Tile.num) (fun x p _ => ?_) _).trans as_num
  simp only [quarterStep]
  split <;> rfl

theorem quarterTile_elem : (quarterTile t q seed sa sb x).elem r j = (quarterSums t q seed sa sb x).elem r j := by
  simp only [Tile.elem, quarterTile]
  split
  · simp only [quarterMarks]
  · simp only [clearValid, quarterMarks]

theorem quarterTile_num : (quarterTile t q seed sa sb x).num = x.num := by
  simp only [quarterTile]
  split
  · simp only [quarterMarks, quarterSums_num]
  · simp only [clearValid, quarterMarks, quarterSums_num]

theorem quarterTile_rowFlags_out (hr : r ∉ quarterRows q) (hlt : r < 64) :
    (quarterTile t q seed sa sb x).rowFlags.getLsbD r = x.rowFlags.getLsbD r := by
  have hflags : (quarterTile t q seed sa sb x).rowFlags = (quarterMarks t q sa sb (quarterSums t q seed sa sb x)).rowFlags := by
    simp only [quarterTile]
    split <;> rfl
  rw [hflags, quarterMarks, quarterSums_rowFlags]
  dsimp only
  rw [getLsbD_foldl_or _ _ hlt]
  simp [hr]

/-- Finite operands take part as they are (R93). -/
theorem quarterTerms_finite (h : ∀ k, k < 64 → q.ks ≤ k → (slotElem sa.data (fmtAf q.fmt) (t.codebook (fmtCba q.fmt)) r k).finite = true ∧
      (slotElem sb.data (fmtBf q.fmt) (t.codebook (fmtCbb q.fmt)) k j).finite = true) :
    quarterTerms t q seed sa sb r j = (List.range 64).map (fun k => if k < q.ks then .fin false 0 0 else
      arrayTerm q.metric (slotElem sa.data (fmtAf q.fmt) (t.codebook (fmtCba q.fmt)) r k)
        (slotElem sb.data (fmtBf q.fmt) (t.codebook (fmtCbb q.fmt)) k j)) := by
  refine List.map_congr_left fun k hk => ?_
  split
  · rfl
  · next hks =>
    obtain ⟨ha, hb⟩ := h k (List.mem_range.1 hk) (Nat.not_lt.1 hks)
    rw [orFree, if_pos ha, orFree, if_pos hb]

end Quarters

theorem quarter_outcome {q : Quarter} {seed : Nat} {sa sb : Slot} {x : Tile} (ha : t.slotAt q.a = some sa) (hb : t.slotAt q.b = some sb)
    (hx : t.tileAt q.tile = some x) :
    let av (r k : Nat) : FVal := slotElem sa.data (fmtAf q.fmt) (t.codebook (fmtCba q.fmt)) r k
    let bv (k j : Nat) : FVal := slotElem sb.data (fmtBf q.fmt) (t.codebook (fmtCbb q.fmt)) k j
    ∃ y : Tile, (applyQuarter t q seed).tileAt q.tile = some y ∧
      (∀ r j, r < 64 → j < 64 → (r < q.row ∨ q.row + 8 ≤ r) → y.elem r j = x.elem r j ∧ y.rowFlags.getLsbD r = x.rowFlags.getLsbD r) ∧
      (∀ r j, q.row ≤ r → r < q.row + 8 → j < 64 → nmGetD x.kinds r (Spec.accKind q.fmt) = Spec.accKind q.fmt →
        (∀ k, k < 64 → q.ks ≤ k → (av r k).finite = true ∧ (bv k j).finite = true) →
        y.elem r j = addTerms (fmtAccf q.fmt = 1) (x.elem r j)
          ((List.range 64).map (fun k => if k < q.ks then .fin false 0 0 else arrayTerm q.metric (av r k) (bv k j)))) := by
  intro av bv
  refine ⟨quarterTile t q seed sa sb x, ?_, fun r j hr hj hout => ?_, fun r j hlo hhi hj hkind hfin => ?_⟩
  · rw [applyQuarter_eq ha hb hx]
    exact tileAt_setTile hx (quarterTile_num.trans (num_of_tileAt hx))
  · have hnot : r ∉ quarterRows q := fun h => by have := mem_quarterRows.1 h; omega
    exact ⟨quarterTile_elem.trans (quarterSums_elem_out hnot hj), quarterTile_rowFlags_out hnot hr⟩
  · rw [quarterTile_elem, quarterSums_elem_in (mem_quarterRows.2 ⟨hlo, hhi⟩) hj hkind, quarterTerms_finite hfin]

/-! ## CUPD (R308) -/

/-- Row `r` of the slot, added to row `d` of a tile's elements. -/
def cupdAdd (fmt : Word) (sa : Slot) (cb : List (BitVec 16)) (cc : BitVec 6) (seed : Nat) (m : NMap Elem) (r d : Nat) : NMap Elem :=
  (List.range 64).foldl (fun m j =>
    let i := 64 * d + j
    let y := if j = cc.toNat then .fin false 1 0 else orFree (slotElem sa.data (fmtAf fmt) cb r j) (seed + 64 * r + j)
    setElem m i (if fmtAccf fmt = 1 then addInt (nmGetD m i 0) [y] else addRun (nmGetD m i 0) [y])) m

/-- A row of the slot reaches the tile. -/
def cupdStep (fmt : Word) (sa : Slot) (cb : List (BitVec 16)) (cc : BitVec 6) (seed : Nat) (dst : Nat → Nat) (x : Tile) (r : Nat) : Tile :=
  let d := dst r
  if 64 ≤ d then x
  else
    let bad := (List.range 64).any (fun j => j ≠ cc.toNat && !(slotElem sa.data (fmtAf fmt) cb r j).finite)
    let x := x.rowAs d (Spec.accKind fmt) (seed + 4096)
    let x : Tile := { x with
      elems := cupdAdd fmt sa cb cc seed x.elems r d, shadow := if fmtRed fmt then cupdAdd fmt sa cb cc seed x.shadow r d else x.shadow,
      rowFlags := if bad then x.rowFlags ||| BitVec.ofNat 64 (2 ^ d) else x.rowFlags }
    if fmtRed fmt then x else clearValid x [d]

section Cupd

variable {fmt : Word} {sa : Slot} {cb : List (BitVec 16)} {cc : BitVec 6} {seed : Nat} {dst : Nat → Nat} {x : Tile} {r d j : Nat}

theorem cupdAdd_ne {m : NMap Elem} {k : Nat} (hd : k ≠ d) (hj : j < 64) :
    nmGetD (cupdAdd fmt sa cb cc seed m r d) (64 * k + j) 0 = nmGetD m (64 * k + j) 0 := by
  refine foldl_get_out (get := fun m => nmGetD m (64 * k + j) 0) (fun m l hl => nmGetD_setElem_ne ?_ m _) m
  have := List.mem_range.1 hl
  omega

theorem cupdAdd_self {m : NMap Elem} (hj : j < 64) : nmGetD (cupdAdd fmt sa cb cc seed m r d) (64 * d + j) 0 =
    (if fmtAccf fmt = 1 then addInt (nmGetD m (64 * d + j) 0) [if j = cc.toNat then .fin false 1 0 else orFree (slotElem sa.data (fmtAf fmt) cb r j) (seed + 64 * r + j)]
      else addRun (nmGetD m (64 * d + j) 0) [if j = cc.toNat then .fin false 1 0 else orFree (slotElem sa.data (fmtAf fmt) cb r j) (seed + 64 * r + j)]) := by
  refine foldl_get_once (get := fun m => nmGetD m (64 * d + j) 0) (P := fun _ => True)
    (F := fun e => if fmtAccf fmt = 1 then addInt e [if j = cc.toNat then .fin false 1 0 else orFree (slotElem sa.data (fmtAf fmt) cb r j) (seed + 64 * r + j)]
      else addRun e [if j = cc.toNat then .fin false 1 0 else orFree (slotElem sa.data (fmtAf fmt) cb r j) (seed + 64 * r + j)])
    List.nodup_range (List.mem_range.2 hj) (fun _ _ _ => trivial) (fun m _ => nmGetD_setElem_self _ _ _)
    (fun m l hl hne => nmGetD_setElem_ne ?_ m _) trivial
  have := List.mem_range.1 hl
  omega

theorem cupdStep_ne (hr : dst r ≠ d) (hd : d < 64) (hj : j < 64) : (cupdStep fmt sa cb cc seed dst x r).elem d j = x.elem d j ∧
    (cupdStep fmt sa cb cc seed dst x r).rowFlags.getLsbD d = x.rowFlags.getLsbD d := by
  have helem : nmGetD (cupdAdd fmt sa cb cc seed (x.rowAs (dst r) (Spec.accKind fmt) (seed + 4096)).elems r (dst r)) (64 * d + j) 0 = x.elem d j :=
    (cupdAdd_ne hr.symm hj).trans (rowAs_elem_ne hr.symm hj)
  have hflags (b : Bool) : (if b then x.rowFlags ||| BitVec.ofNat 64 (2 ^ dst r) else x.rowFlags).getLsbD d = x.rowFlags.getLsbD d := by
    split
    · rw [BitVec.getLsbD_or, getLsbD_two_pow hd, decide_eq_false hr, Bool.or_false]
    · rfl
  simp only [cupdStep]
  split
  · exact ⟨rfl, rfl⟩
  · split
    · exact ⟨helem, hflags _⟩
    · exact ⟨helem, hflags _⟩

theorem cupdStep_kind (h : nmGetD x.kinds d (Spec.accKind fmt) = Spec.accKind fmt) :
    nmGetD (cupdStep fmt sa cb cc seed dst x r).kinds d (Spec.accKind fmt) = Spec.accKind fmt := by
  simp only [cupdStep]
  split
  · exact h
  · split <;> exact rowAs_kind (seed := seed + 4096) h

theorem cupdStep_self (hr : dst r = d) (hd : d < 64) (hj : j < 64) (h : nmGetD x.kinds d (Spec.accKind fmt) = Spec.accKind fmt)
    {y : FVal} (hy : (if j = cc.toNat then .fin false 1 0 else orFree (slotElem sa.data (fmtAf fmt) cb r j) (seed + 64 * r + j)) = y) :
    (cupdStep fmt sa cb cc seed dst x r).elem d j = if fmtAccf fmt = 1 then addInt (x.elem d j) [y] else addRun (x.elem d j) [y] := by
  have helem : nmGetD (cupdAdd fmt sa cb cc seed (x.rowAs d (Spec.accKind fmt) (seed + 4096)).elems r d) (64 * d + j) 0 =
      if fmtAccf fmt = 1 then addInt (x.elem d j) [y] else addRun (x.elem d j) [y] := by
    rw [cupdAdd_self hj, hy, ← rowAs_elem_of_kind (r := d) (seed := seed + 4096) h hj, Tile.elem]
  simp only [cupdStep, hr, Nat.not_le.2 hd, if_false]
  split <;> exact helem

end Cupd

theorem cupd_outcome {a tr p cc : BitVec 6} {u : State} {sa : Slot} {x : Tile} (h : Starts (.cupd a tr p cc) s c s₁)
    (hport : Spec.atPort c s₁ t s₂) (ha : Spec.slotNamed c t a = some sa) (hx : Spec.tileNamed c t tr = some x) (hfmt : fmtOk c.g.fmt false = true)
    (he : meetEcc s₂ c.core true = (false, u)) :
    let dst (r : Nat) : Nat := (if r < 32 then lane (t.vreg c.g p.toNat) r else lane (t.vreg c.g (p.toNat + 1)) (r - 32)).toNat
    ∃ (y : Tile) (f : Nat), Completes (.cupd a tr p cc) s c (modTeam { u with free := f } c.tid (fun u => u.setTile x.num y)) ∧
      (∀ i j, i < 64 → j < 64 →
        ((∀ r, r < 64 → dst r ≠ i) → y.elem i j = x.elem i j ∧ y.rowFlags.getLsbD i = x.rowFlags.getLsbD i) ∧
        (nmGetD x.kinds i (Spec.accKind c.g.fmt) = Spec.accKind c.g.fmt →
          ∀ r, r < 64 → dst r = i → (∀ r', r' < 64 → r' ≠ r → dst r' ≠ i) → (Spec.cupdTerm c t sa r j cc).finite = true →
          y.elem i j = (if fmtAccf c.g.fmt = 1 then addInt (x.elem i j) [Spec.cupdTerm c t sa r j cc]
            else addRun (x.elem i j) [Spec.cupdTerm c t sa r j cc]))) := by
  intro dst
  have hcore : Ctx.core { c with t := t } = c.core := core_of_atPort h hport
  refine ⟨(List.range 64).foldl (cupdStep c.g.fmt sa (t.codebook (fmtCba c.g.fmt)) cc u.free dst) x, u.free + 12288,
    port_completes h hport rfl ?_, fun i j hi hj => ⟨fun hout => ?_, fun hkind r hr hdst honce hfin => ?_⟩⟩
  · simp only [slotOf_eq, ha, tileOf_eq, hx, hfmt, Bool.not_true, Bool.false_eq_true, if_false]
    rw [onShelf_passes (by rwa [hcore])]
    rfl
  · have hget := foldl_get_out (get := fun x : Tile => (x.elem i j, x.rowFlags.getLsbD i))
      (step := cupdStep c.g.fmt sa (t.codebook (fmtCba c.g.fmt)) cc u.free dst) (l := List.range 64)
      (fun x r hr => Prod.ext (cupdStep_ne (hout r (List.mem_range.1 hr)) hi hj).1 (cupdStep_ne (hout r (List.mem_range.1 hr)) hi hj).2) x
    exact Prod.mk.inj hget
  · have hterm : (if j = cc.toNat then .fin false 1 0 else orFree (slotElem sa.data (fmtAf c.g.fmt) (t.codebook (fmtCba c.g.fmt)) r j)
        (u.free + 64 * r + j)) = Spec.cupdTerm c t sa r j cc := by
      unfold Spec.cupdTerm at hfin ⊢
      split
      · rfl
      · next hj' => rw [if_neg hj'] at hfin; rw [orFree, if_pos hfin]
    exact foldl_get_once (step := cupdStep c.g.fmt sa (t.codebook (fmtCba c.g.fmt)) cc u.free dst) (get := fun x : Tile => x.elem i j)
      (P := fun x => nmGetD x.kinds i (Spec.accKind c.g.fmt) = Spec.accKind c.g.fmt)
      (F := fun e => if fmtAccf c.g.fmt = 1 then addInt e [Spec.cupdTerm c t sa r j cc] else addRun e [Spec.cupdTerm c t sa r j cc])
      List.nodup_range (List.mem_range.2 hr) (fun _ _ hx => cupdStep_kind hx) (fun _ hx => cupdStep_self hdst hi hj hx hterm)
      (fun _ k hk hne => (cupdStep_ne (honce k (List.mem_range.1 hk) hne) hi hj).1) hkind

/-! ## Rows whose copies differ (R313) -/

theorem mismatchRow_iff (x : Tile) (r : Nat) : mismatchRow x = some r ↔ r < 64 ∧ Spec.Differs x r ∧ ∀ r', r' < r → ¬ Spec.Differs x r' := by
  have hdiff (k : Nat) : (x.valid.getLsbD k && (List.range 64).any (fun j =>
      !x.flagged k j && decide (nmGetD x.elems (64 * k + j) 0 ≠ nmGetD x.shadow (64 * k + j) 0))) = true ↔ Spec.Differs x k := by
    simp [Spec.Differs]
  rw [mismatchRow, List.find?_range_eq_some, hdiff, List.mem_range]
  simp only [Bool.not_eq_true', Bool.eq_false_iff, ne_eq, hdiff]
  tauto

/-! ## The best candidate of a row (R305) -/

section Best

variable {x : Tile} {int max hi : Bool} {fmt : Word} {ofs i : Nat}

theorem beats_iff {a b : Best} : beats int max hi a b = true ↔ betterVal int max a.val b.val = true ∨
    (betterVal int max b.val a.val = false ∧ (if hi then b.idx < a.idx else a.idx < b.idx)) := by
  rw [beats, Bool.or_eq_true, Bool.and_eq_true, Bool.not_eq_true']
  cases hi <;> simp

/-- The pair that a candidate offers. -/
def pairAt (x : Tile) (int : Bool) (fmt : Word) (ofs i j : Nat) : Best := ⟨(j + ofs) % 2 ^ 32, Spec.offered x int fmt i j⟩

/-- The step of `rowBest` on the best pair so far. -/
def bestStep (x : Tile) (int max hi : Bool) (fmt : Word) (ofs i : Nat) (acc : Option Best) (j : Nat) : Option Best :=
  if x.flagged i j || (!int && (decodeF fp32 (convElem x int fp32 fmt i j).1).isNaN) then acc
  else some (acc.elim (pairAt x int fmt ofs i j) fun old => if beats int max hi (pairAt x int fmt ofs i j) old then pairAt x int fmt ofs i j else old)

theorem rowBest_eq : (rowBest x int max hi fmt ofs i).1 = (List.range 64).foldl (bestStep x int max hi fmt ofs i) none := by
  unfold rowBest
  generalize hst : (none, 0) = acc
  have hnone : (none : Option Best) = acc.1 := by rw [← hst]
  rw [hnone]
  clear hst hnone
  induction List.range 64 generalizing acc with
  | nil => rfl
  | cons j l ih =>
    rw [List.foldl_cons, List.foldl_cons, ih]
    congr 1
    obtain ⟨b, st⟩ := acc
    simp only [bestStep]
    split
    · rfl
    · cases b with
      | none => rfl
      | some old => exact (apply_ite some _ _ _).symm

theorem bestStep_skips {acc : Option Best} {j : Nat} (h : ¬ Spec.Candidate x int fmt i j) : bestStep x int max hi fmt ofs i acc j = acc := by
  rw [bestStep, if_pos]
  by_contra hno
  apply h
  cases int <;> simpa [Spec.Candidate, Spec.offered] using hno

theorem bestStep_takes {acc : Option Best} {j : Nat} (h : Spec.Candidate x int fmt i j) : bestStep x int max hi fmt ofs i acc j =
    some (acc.elim (pairAt x int fmt ofs i j) fun old => if beats int max hi (pairAt x int fmt ofs i j) old then pairAt x int fmt ofs i j else old) := by
  rw [bestStep, if_neg]
  obtain ⟨hflag, hval⟩ := h
  rcases hval with hint | hnan
  · simp [hflag, hint]
  · rw [Spec.offered] at hnan
    simp [hflag, hnan]

/-- The best of a row is what the fold over its candidates leaves. -/
theorem rowBest_of_best {b : Best} (h : Spec.BestOfRow x int max hi fmt ofs i b) : (rowBest x int max hi fmt ofs i).1 = some b := by
  obtain ⟨j₀, hj₀, hcand, rfl, hbest⟩ := h
  have hfold (n : Nat) (hn : n ≤ 64) :
      (j₀ < n → (List.range n).foldl (bestStep x int max hi fmt ofs i) none = some (pairAt x int fmt ofs i j₀)) ∧
      (n ≤ j₀ → ∀ b, (List.range n).foldl (bestStep x int max hi fmt ofs i) none = some b →
        ∃ j, j < n ∧ Spec.Candidate x int fmt i j ∧ b = pairAt x int fmt ofs i j) := by
    induction n with
    | zero => exact ⟨fun h => absurd h (Nat.not_lt_zero _), fun _ b hb => nomatch hb⟩
    | succ n ih =>
      obtain ⟨hafter, hbefore⟩ := ih (Nat.le_of_succ_le hn)
      rw [List.range_succ, List.foldl_append, List.foldl_cons, List.foldl_nil]
      generalize (List.range n).foldl (bestStep x int max hi fmt ofs i) none = acc at hafter hbefore
      refine ⟨fun hlt => ?_, fun hle b hb => ?_⟩
      · rcases Nat.lt_succ_iff_lt_or_eq.1 hlt with hlt | rfl
        · rw [hafter hlt]
          by_cases hc : Spec.Candidate x int fmt i n
          · obtain ⟨hbetter, htie⟩ := hbest n (by omega) (by omega) hc
            rw [bestStep_takes hc, Option.elim_some, if_neg]
            rw [beats_iff]
            rintro (hval | ⟨hval, hidx⟩)
            · exact absurd (hbetter.symm.trans hval) Bool.false_ne_true
            · have hlow := htie hval
              cases hi
              · exact Nat.lt_asymm hlow hidx
              · exact Nat.lt_asymm hlow hidx
          · exact bestStep_skips hc
        · rw [bestStep_takes hcand]
          cases acc with
          | none => rfl
          | some old =>
            obtain ⟨j, hj, hc, rfl⟩ := hbefore (Nat.le_refl _) old rfl
            obtain ⟨hbetter, htie⟩ := hbest j (by omega) (by omega) hc
            rw [Option.elim_some, if_pos]
            rw [beats_iff]
            by_cases hsame : betterVal int max (Spec.offered x int fmt i j₀) (Spec.offered x int fmt i j) = true
            · exact .inl hsame
            · exact .inr ⟨hbetter, htie (Bool.eq_false_iff.2 hsame)⟩
      · by_cases hc : Spec.Candidate x int fmt i n
        · rw [bestStep_takes hc] at hb
          cases acc with
          | none =>
            exact ⟨n, Nat.lt_succ_self n, hc, (Option.some.inj hb).symm⟩
          | some old =>
            obtain ⟨j, hj, hcj, hold⟩ := hbefore (by omega) old rfl
            rw [Option.elim_some] at hb
            split at hb
            · exact ⟨n, Nat.lt_succ_self n, hc, (Option.some.inj hb).symm⟩
            · exact ⟨j, Nat.lt_succ_of_lt hj, hcj, (Option.some.inj hb).symm.trans hold⟩
        · rw [bestStep_skips hc] at hb
          obtain ⟨j, hj, hcj, hbj⟩ := hbefore (by omega) b hb
          exact ⟨j, Nat.lt_succ_of_lt hj, hcj, hbj⟩
  rw [rowBest_eq]
  exact (hfold 64 (Nat.le_refl _)).1 hj₀

theorem rowBest_none (h : ∀ j, j < 64 → ¬ Spec.Candidate x int fmt i j) : (rowBest x int max hi fmt ofs i).1 = none := by
  rw [rowBest_eq]
  exact foldl_get_out (get := fun acc => acc) (fun _ j hj => bestStep_skips (h j (List.mem_range.1 hj))) none

end Best

/-! ## The bytes and the registers of a drain (R302 to R306) -/

/-- Chunks of one length are found at their places. -/
theorem chunk_flatMap {α β : Type} {f : α → List β} {n : Nat} (hlen : ∀ a, (f a).length = n) {l : List α} {k : Nat} (hk : k < l.length) :
    ((l.flatMap f).drop (n * k)).take n = f l[k] := by
  induction l generalizing k with
  | nil => cases hk
  | cons a l ih =>
    rw [List.flatMap_cons]
    cases k with
    | zero => rw [Nat.mul_zero, List.drop_zero, List.take_append_of_le_length (Nat.le_of_eq (hlen a).symm), ← hlen a, List.take_length,
        List.getElem_cons_zero]
    | succ k =>
      have hdrop : n * (k + 1) = (f a).length + n * k := by rw [hlen, Nat.mul_succ, Nat.add_comm]
      rw [hdrop, List.drop_append, List.drop_of_length_le (by omega), List.nil_append, Nat.add_sub_cancel_left, List.getElem_cons_succ]
      exact ih (Nat.lt_of_succ_lt_succ hk)

/-- The values of a range, as bytes, are found at their places. -/
theorem chunk_range (f : Nat → Nat × Nat) (n : Nat) {size k : Nat} (hk : k < size) :
    ((((List.range size).map f).flatMap (fun y => natBytes n y.1)).drop (n * k)).take n = natBytes n (f k).1 := by
  have hlt : k < ((List.range size).map f).length := by simpa using hk
  rw [chunk_flatMap (f := fun y : Nat × Nat => natBytes n y.1) (fun y => natBytes_length n _) hlt, List.getElem_map, List.getElem_range]

section Drains

variable {x x' : Tile} {int max hi : Bool} {fmt : Word} {ofs i r j : Nat}

/-- Two tiles with the same number, flags and elements. -/
structure Alike (x x' : Tile) : Prop where
  num : x'.num = x.num
  flagged : ∀ i j, x'.flagged i j = x.flagged i j
  elem : ∀ i j, i < 64 → j < 64 → x'.elem i j = x.elem i j

/-- A tile that already holds the kind of element is as it was. -/
theorem alike_as {kind seed : Nat} (h : ∀ r, r < 64 → nmGetD x.kinds r kind = kind) : Alike x (x.as (List.range 64) kind seed) where
  num := as_num
  flagged i j := by rw [Tile.flagged, as_rowFlags, as_colFlags, Tile.flagged]
  elem i j hi hj := as_elem_of_kind (h i hi) hj

theorem Alike.convElem (h : Alike x x') (hi : i < 64) (hj : j < 64) (f : Fmt) : convElem x' int f fmt i j = convElem x int f fmt i j := by
  unfold Machine.convElem
  rw [h.flagged, h.elem i j hi hj, h.num]

theorem Alike.candidate (h : Alike x x') (hi : i < 64) (hj : j < 64) : Spec.Candidate x' int fmt i j ↔ Spec.Candidate x int fmt i j := by
  rw [Spec.Candidate, Spec.offered, h.flagged, h.convElem hi hj, Spec.Candidate, Spec.offered]

theorem Alike.bestOfRow {b : Best} (h : Alike x x') (hr : i < 64) (hb : Spec.BestOfRow x int max hi fmt ofs i b) :
    Spec.BestOfRow x' int max hi fmt ofs i b := by
  obtain ⟨j, hj, hc, hbj, hall⟩ := hb
  have hoff (k : Nat) (hk : k < 64) : Spec.offered x' int fmt i k = Spec.offered x int fmt i k := congrArg Prod.fst (h.convElem hr hk fp32)
  refine ⟨j, hj, (h.candidate hr hj).2 hc, by rw [hbj, hoff j hj], fun k hk hne hck => ?_⟩
  rw [hoff k hk]
  exact hall k hk hne ((h.candidate hr hk).1 hck)

theorem drainCvt_chunk {dst : Nat} (hr : r < 64) (hj : j < 64) :
    ((drainCvt x int dst fmt).1.drop (drainBytes dst * (64 * r + j))).take (drainBytes dst) =
      natBytes (drainBytes dst) (convElem x int (drainFmt dst) fmt r j).1 := by
  have hk : 64 * r + j < 4096 := by omega
  have hdiv : (64 * r + j) / 64 = r := by omega
  have hmod : (64 * r + j) % 64 = j := by omega
  simp only [drainCvt]
  rw [chunk_range _ _ hk, hdiv, hmod]

theorem drainMean_chunk {dst cc : Nat} (hr : r < 64) (hj : j < 64) :
    ((drainMean x dst fmt cc).1.drop (drainBytes dst * (64 * r + j))).take (drainBytes dst) =
      natBytes (drainBytes dst) (Spec.meanAt x (drainFmt dst) fmt cc r j) := by
  have hk : 64 * r + j < 4096 := by omega
  have hdiv : (64 * r + j) / 64 = r := by omega
  have hmod : (64 * r + j) % 64 = j := by omega
  simp only [drainMean]
  rw [chunk_range _ _ hk, hdiv, hmod]
  congr 1
  simp only [Spec.meanAt, Bool.or_eq_true, Bool.not_eq_true']
  by_cases hflag : x.flagged r j = true ∨ x.flagged r cc = true
  · rw [if_pos hflag, if_pos (by tauto)]
  rw [if_neg hflag]
  by_cases hfin : (decodeF extFmt (x.elem r cc).toNat).finite = false
  · rw [if_pos hfin, if_pos (by tauto)]
  have hgood : ¬(x.flagged r j = true ∨ x.flagged r cc = true ∨ (decodeF extFmt (x.elem r cc).toNat).finite = false) := by tauto
  rw [if_neg hfin, if_neg hgood]
  by_cases hcol : j = cc
  · rw [if_pos hcol, if_pos hcol]
  rw [if_neg hcol, if_neg hcol]
  by_cases hzero : (decodeF extFmt (x.elem r cc).toNat).isZero = true
  · rw [if_pos hzero, if_pos hzero]
  rw [if_neg hzero, if_neg hzero]
  generalize fpDiv (drainFmt dst) (fmtDrnd fmt) (decodeF extFmt (x.elem r j).toNat) (decodeF extFmt (x.elem r cc).toNat) = q
  generalize decodeF extFmt (x.elem r j).toNat = e
  cases e <;> cases q.fl.ovf <;> cases fmtSat fmt <;> simp [FVal.isNaN, FVal.finite]

theorem Alike.meanAt {cc : Nat} (h : Alike x x') (hr : r < 64) (hj : j < 64) (hcc : cc < 64) (f : Fmt) :
    Spec.meanAt x' f fmt cc r j = Spec.meanAt x f fmt cc r j := by
  unfold Spec.meanAt
  rw [h.flagged, h.flagged, h.elem r j hr hj, h.elem r cc hr hcc]

/-- What a row without a candidate leaves (R305). -/
def emptyBest (int : Bool) : Best := ⟨0xFFFFFFFF, if int then 0x80000000 else canonNaN fp32⟩

theorem drainBest_getD {m : Nat} {old : List Best} (hr : i < 64) : (drainBest x int m hi fmt ofs old).1.getD i default =
    if m ≤ 2 then (rowBest x int (m = 2 || m = 4) hi fmt ofs i).1.getD (emptyBest int)
    else (rowBest x int (m = 2 || m = 4) hi fmt ofs i).1.elim (old.getD i (emptyBest int)) fun n =>
      if !(old.getD i (emptyBest int)).valid int || beats int (m = 2 || m = 4) hi n (old.getD i (emptyBest int)) then n
      else old.getD i (emptyBest int) := by
  simp only [drainBest, List.map_map, List.getD_eq_getElem?_getD, List.getElem?_map, List.getElem?_range hr, Option.map_some, Option.getD_some,
    Function.comp_apply, emptyBest]
  split
  · rfl
  · cases (rowBest x int (decide (m = 2) || decide (m = 4)) hi fmt ofs i).1 with
    | none => rfl
    | some n => rfl

theorem drainBest_length {m : Nat} {old : List Best} : (drainBest x int m hi fmt ofs old).1.length = 64 := by
  simp [drainBest]

end Drains

/-- A best list as a drain writes it, to registers and to the desk alike. -/
theorem bestAt_eq {l : List Best} (hlen : l.length = 64) {d : DrainOp} (hout : d.out = bestBytes l) (hregs : d.regs = bestRegs l) {i : Nat}
    (hi : i < 64) : Spec.bestAt d i = ⟨(l.getD i default).idx % 2 ^ 32, (l.getD i default).val % 2 ^ 32⟩ := by
  have hlt : i < l.length := by omega
  have hget : l[i] = l.getD i default := by rw [List.getD_eq_getElem?_getD, List.getElem?_eq_getElem hlt, Option.getD_some]
  unfold Spec.bestAt
  split
  · rw [hregs]
    have hk : i % 32 < 32 := Nat.mod_lt _ (by decide)
    rcases (by omega : i / 32 = 0 ∨ i / 32 = 1) with h | h
    · have hi' : i % 32 = i := by omega
      rw [h]
      change Best.mk (lane (ofLanes fun k => lo32 (l.getD k default).idx) (i % 32)).toNat
        (lane (ofLanes fun k => lo32 (l.getD k default).val) (i % 32)).toNat = _
      rw [lane_ofLanes hk, lane_ofLanes hk, hi', lo32, lo32, BitVec.toNat_ofNat, BitVec.toNat_ofNat]
    · have hi' : 32 + i % 32 = i := by omega
      rw [h]
      change Best.mk (lane (ofLanes fun k => lo32 (l.getD (32 + k) default).idx) (i % 32)).toNat
        (lane (ofLanes fun k => lo32 (l.getD (32 + k) default).val) (i % 32)).toNat = _
      rw [lane_ofLanes hk, lane_ofLanes hk, hi', lo32, lo32, BitVec.toNat_ofNat, BitVec.toNat_ofNat]
  · have hidx := chunk_flatMap (f := fun b : Best => natBytes 4 b.idx) (fun b => natBytes_length 4 _) hlt
    have hval := chunk_flatMap (f := fun b : Best => natBytes 4 b.val) (fun b => natBytes_length 4 _) hlt
    have hsize : (l.flatMap fun b => natBytes 4 b.idx).length = 256 := by simp [hlen]
    rw [hout, bestBytes, List.drop_append_of_le_length (by omega), List.take_append_of_le_length (by rw [List.length_drop]; omega), hidx, ← hsize,
      ← List.drop_drop, List.drop_left, hval, leNat_natBytes, leNat_natBytes, hget]
    rfl

/-! ## MDRAIN (R302 to R307) -/

/-- The running bests that stand in a drain's destination. -/
def standingBests (c : Ctx) (a : BitVec 6) (dst : BitVec 3) (off : Nat) : List Best :=
  if dst = 6 then (List.range 64).map (fun i =>
    ⟨(lane (c.v (a.toNat + i / 32)) (i % 32)).toNat, (lane (c.v (a.toNat + 2 + i / 32)) (i % 32)).toNat⟩)
  else (List.range 64).map (fun i => ⟨readLE c.t.desk (off + 4 * i) 4, readLE c.t.desk (off + 256 + 4 * i) 4⟩)

/-- The higher index wins a tie (R305). -/
def tieHigh (c : Ctx) : Bool := decide (if c.h.tie ≠ 0 then c.h.tie = 2 else fmtTieb c.g.fmt = 1)

/-- What a drain gives: the bytes, the registers and the status. -/
def drainData (c : Ctx) (x : Tile) (a o : BitVec 6) (dst mode : BitVec 3) (off : Nat) : List Byte × List Lanes × Nat :=
  let m := mode.toNat
  let old : List Best := if !(3 ≤ m && m ≤ 4) then [] else standingBests c a dst off
  if m = 0 then (let r := drainCvt x (fmtAccf c.g.fmt = 1) dst.toNat c.g.fmt; (r.1, [], r.2))
  else if m = 5 then (let r := drainMean x dst.toNat c.g.fmt (c.s o).toNat; (r.1, [], r.2))
  else (let r := drainBest x (fmtAccf c.g.fmt = 1) m (tieHigh c) c.g.fmt (c.s o).toNat old; (bestBytes r.1, bestRegs r.1, r.2))

/-- The drain that an MDRAIN puts in flight. -/
def drainOp (c : Ctx) (x : Tile) (a o : BitVec 6) (dst mode : BitVec 3) (off : Nat) (u : State) : DrainOp :=
  let r := drainData c (x.as (List.range 64) (Spec.accKind c.g.fmt) u.free) a o dst mode off
  ⟨u.nextId, c.tid, c.gid, x.num, dst.toNat, off, a.toNat, r.1, r.2.1, r.2.2⟩

/-- The bytes of a drain's destination. -/
def drainSize (dst mode : BitVec 3) : Nat := if 1 ≤ mode.toNat && mode.toNat ≤ 4 then 512 else 4096 * drainBytes dst.toNat

/-- A drain to the desk is held back: by the lines of a running best, or by an earlier release fence. -/
def drainHeld (c : Ctx) (s : State) (dst mode : BitVec 3) (off : Nat) : Bool :=
  !(dst = 6 : Bool) && ((3 ≤ mode.toNat && mode.toNat ≤ 4 && !c.t.present off 512) || fenceHolds s c.tid c.gid c.g.fences)

/-- The drain is in flight, or has landed. -/
def drainDone (c : Ctx) (d : DrainOp) (dst mode : BitVec 3) (off : Nat) (u : State) : State :=
  let s := modCore { u with free := u.free + 8192, nextId := u.nextId + 1 } c.core (fun y => { y with drains := y.drains ++ [d] })
  let s := if dst = 6 then s else modTeam s c.tid (fun v => v.markAbsent off (drainSize dst mode) drainMark d.id)
  if (popHold s).1 then (popHold s).2 else landDrain (popHold s).2 c.core d

/-- MDRAIN across the Shelf: a row whose copies differ, or the drain. -/
def drainBody (c : Ctx) (x : Tile) (a o : BitVec 6) (dst mode : BitVec 3) (off : Nat) (u : State) : Eff :=
  match mismatchRow x with
  | some r => .fault 0x07 0 c.g.m0 (x.num + 256 * r + 65536 * (nmGetD x.recs r (0, 0)).1 + 2 ^ 24 * (nmGetD x.recs r (0, 0)).2) 0
  | none => .done (drainDone c (drainOp c x a o dst mode off u) dst mode off u)

/-- MDRAIN, with its destination at `r` or nowhere. -/
def drainAt (c : Ctx) (x : Tile) (a o : BitVec 6) (dst mode : BitVec 3) (u : State) : Option Nat → Eff
  | none => .fault 0x05 (c.s a).toNat c.g.m0 0 0
  | some off => if drainHeld c u dst mode off then .hold .issue u else onShelf c (drainBody c x a o dst mode off) u

section Mdrain

variable {tr a o : BitVec 6} {dst mode : BitVec 3} {x : Tile} {off : Nat}

/-- The stages of MDRAIN. -/
theorem exec_mdrain (tr a o : BitVec 6) (dst mode : BitVec 3) : ∃ body,
    (∀ s, exec (.mdrain tr a o dst mode) s = issue (.mdrain tr a o dst mode) (onPort body) s) ∧
    ∀ c u x, c.tileOf tr = some x → body c u = if !drainOk c dst.toNat mode.toNat (c.s o) then .bad 0x08 c.g.m0
      else if !(dst = 6 : Bool) && (c.s a).toNat % 128 ≠ 0 then .fault 0x03 (c.s a).toNat c.g.m0 0 0
      else drainAt c x a o dst mode u (if dst = 6 then some 0 else ownDesk u c.t (c.s a).toNat (drainSize dst mode)) := by
  refine ⟨_, fun s => rfl, fun c u x hx => ?_⟩
  simp only [hx]
  rfl

theorem drainSize_eq (dst mode : BitVec 3) :
    drainSize dst mode = if 1 ≤ mode.toNat ∧ mode.toNat ≤ 4 then 512 else 4096 * drainBytes dst.toNat := by
  simp only [drainSize, Bool.and_eq_true, decide_eq_true_eq]

/-- The drain's destination: registers, or an aligned range of the own desk. -/
def DrainTo (c : Ctx) (s : State) (a : BitVec 6) (dst mode : BitVec 3) (off : Nat) : Prop :=
  dst = 6 ∧ off = 0 ∨ dst ≠ 6 ∧ (c.s a).toNat % 128 = 0 ∧ ownDesk s c.t (c.s a).toNat (drainSize dst mode) = some off

section Effect

variable (hx : c.tileOf tr = some x) (hok : drainOk c dst.toNat mode.toNat (c.s o) = true) (hto : DrainTo c s a dst mode off)

include hx hok hto

theorem mdrain_checked {body : Ctx → State → Eff} (hbody : ∀ c u x, c.tileOf tr = some x → body c u =
      if !drainOk c dst.toNat mode.toNat (c.s o) then .bad 0x08 c.g.m0
      else if !(dst = 6 : Bool) && (c.s a).toNat % 128 ≠ 0 then .fault 0x03 (c.s a).toNat c.g.m0 0 0
      else drainAt c x a o dst mode u (if dst = 6 then some 0 else ownDesk u c.t (c.s a).toNat (drainSize dst mode))) :
    body c s = if drainHeld c s dst mode off then .hold .issue s else onShelf c (drainBody c x a o dst mode off) s := by
  rw [hbody c s x hx, hok, if_neg (by decide)]
  rcases hto with ⟨rfl, rfl⟩ | ⟨hdst, hal, hdesk⟩
  · rfl
  · rw [if_neg hdst, hdesk, hal]
    simp only [ne_eq, not_true_eq_false, decide_false, Bool.and_false, Bool.false_eq_true, if_false, drainAt]

end Effect

theorem drainBody_differs {r : Nat} (h : mismatchRow x = some r) : drainBody c x a o dst mode off s =
    .fault 0x07 0 c.g.m0 (x.num + 256 * r + 65536 * (nmGetD x.recs r (0, 0)).1 + 2 ^ 24 * (nmGetD x.recs r (0, 0)).2) 0 := by
  simp only [drainBody, h]

theorem drainBody_drains (h : mismatchRow x = none) :
    drainBody c x a o dst mode off s = .done (drainDone c (drainOp c x a o dst mode off s) dst mode off s) := by
  simp only [drainBody, h]

theorem drainHeld_iff : drainHeld c s dst mode off = true ↔
    dst ≠ 6 ∧ (((3 ≤ mode.toNat ∧ mode.toNat ≤ 4) ∧ c.t.present off 512 = false) ∨ fenceHolds s c.tid c.gid c.g.fences = true) := by
  simp [drainHeld]

theorem standingBests_getD {i : Nat} (hi : i < 64) (d : Best) :
    (standingBests c a dst off).getD i d = Spec.standing c c.t a (dst = 6) off i := by
  simp only [standingBests, Spec.standing, decide_eq_true_eq]
  split
  · simp [hi, Ctx.v]
  · simp [hi]

theorem standing_lt (i : Nat) : (Spec.standing c t a (dst = 6) off i).idx < 2 ^ 32 ∧ (Spec.standing c t a (dst = 6) off i).val < 2 ^ 32 := by
  unfold Spec.standing
  split
  · exact ⟨BitVec.isLt _, BitVec.isLt _⟩
  · have hle (b : Nat) : readLE t.desk b 4 < 2 ^ 32 := by
      have := leNat_lt (readBytes t.desk b 4)
      rwa [readBytes_length] at this
    exact ⟨hle _, hle _⟩

theorem mode_max (mode : BitVec 3) : (decide (mode.toNat = 2) || decide (mode.toNat = 4)) = (decide (mode = 2) || decide (mode = 4)) := by
  revert mode
  decide

theorem mode_max_of_merging : ∀ mode : BitVec 3, 3 ≤ mode.toNat ∧ mode.toNat ≤ 4 →
    (decide (mode.toNat = 2) || decide (mode.toNat = 4)) = decide (mode = 4) := by
  decide

section Op

variable (hk : ∀ r, r < 64 → nmGetD x.kinds r (Spec.accKind c.g.fmt) = Spec.accKind c.g.fmt)

include hk

/-- The elements that a drain writes. -/
theorem drainOp_elem {r j : Nat} (hr : r < 64) (hj : j < 64) (hm : mode = 0 ∨ mode = 5) (hok : drainOk c dst.toNat mode.toNat (c.s o) = true) :
    ((drainOp c x a o dst mode off s).out.drop (drainBytes dst.toNat * (64 * r + j))).take (drainBytes dst.toNat) = natBytes (drainBytes dst.toNat)
      (if mode = 0 then (convElem x (fmtAccf c.g.fmt = 1) (drainFmt dst.toNat) c.g.fmt r j).1
        else Spec.meanAt x (drainFmt dst.toNat) c.g.fmt (c.s o).toNat r j) := by
  have halike : Alike x (x.as (List.range 64) (Spec.accKind c.g.fmt) s.free) := alike_as hk
  rcases hm with rfl | rfl
  · have hout : (drainOp c x a o dst 0 off s).out =
        (drainCvt (x.as (List.range 64) (Spec.accKind c.g.fmt) s.free) (fmtAccf c.g.fmt = 1) dst.toNat c.g.fmt).1 := by
      simp only [drainOp, drainData, show (0 : BitVec 3).toNat = 0 from rfl, if_true]
    rw [if_pos rfl, ← halike.convElem hr hj, hout, drainCvt_chunk hr hj]
  · have hcol : (c.s o).toNat < 64 := by
      simp only [drainOk, Bool.and_eq_true] at hok
      simpa using hok.2
    have hout : (drainOp c x a o dst 5 off s).out =
        (drainMean (x.as (List.range 64) (Spec.accKind c.g.fmt) s.free) dst.toNat c.g.fmt (c.s o).toNat).1 := by
      simp only [drainOp, drainData, show (5 : BitVec 3).toNat = 5 from rfl, OfNat.ofNat_ne_zero, if_false, if_true]
    rw [if_neg (by decide), ← halike.meanAt hr hj hcol, hout, drainMean_chunk hr hj]

end Op

/-- The best lists that a drain of modes 1 to 4 writes. -/
theorem drainOp_bestAt (hm : 1 ≤ mode.toNat ∧ mode.toNat ≤ 4) {i : Nat} (hi : i < 64) : Spec.bestAt (drainOp c x a o dst mode off s) i =
    let b := (drainBest (x.as (List.range 64) (Spec.accKind c.g.fmt) s.free) (fmtAccf c.g.fmt = 1) mode.toNat (tieHigh c) c.g.fmt (c.s o).toNat
      (if !(3 ≤ mode.toNat && mode.toNat ≤ 4) then [] else standingBests c a dst off)).1.getD i default
    ⟨b.idx % 2 ^ 32, b.val % 2 ^ 32⟩ := by
  have h0 : mode.toNat ≠ 0 := by omega
  have h5 : mode.toNat ≠ 5 := by omega
  refine bestAt_eq drainBest_length ?_ ?_ hi
  · simp only [drainOp, drainData, h0, h5, if_false]
  · simp only [drainOp, drainData, h0, h5, if_false]

theorem best_idx_lt {i : Nat} {b : Best} (h : Spec.BestOfRow x (fmtAccf c.g.fmt = 1) (mode = 2 || mode = 4) (tieHigh c) c.g.fmt (c.s o).toNat i b) :
    b.idx % 2 ^ 32 = b.idx := by
  obtain ⟨j, -, -, rfl, -⟩ := h
  exact Nat.mod_mod _ _

section Bests

variable {i : Nat} {b : Best} (hk : ∀ r, r < 64 → nmGetD x.kinds r (Spec.accKind c.g.fmt) = Spec.accKind c.g.fmt) (hi : i < 64)

include hk hi

theorem rowBest_as_best (h : Spec.BestOfRow x (fmtAccf c.g.fmt = 1) (mode = 2 || mode = 4) (tieHigh c) c.g.fmt (c.s o).toNat i b) :
    (rowBest (x.as (List.range 64) (Spec.accKind c.g.fmt) s.free) (fmtAccf c.g.fmt = 1) (mode.toNat = 2 || mode.toNat = 4) (tieHigh c)
      c.g.fmt (c.s o).toNat i).1 = some b := by
  rw [mode_max]
  exact rowBest_of_best ((alike_as hk).bestOfRow hi h)

theorem rowBest_as_none (h : ∀ j, j < 64 → ¬ Spec.Candidate x (fmtAccf c.g.fmt = 1) c.g.fmt i j) :
    (rowBest (x.as (List.range 64) (Spec.accKind c.g.fmt) s.free) (fmtAccf c.g.fmt = 1) (mode.toNat = 2 || mode.toNat = 4) (tieHigh c)
      c.g.fmt (c.s o).toNat i).1 = none :=
  rowBest_none fun j hj hc => h j hj (((alike_as hk).candidate hi hj).1 hc)

section Plain

variable (hm : mode = 1 ∨ mode = 2)

include hm

theorem drainOp_best (h : Spec.BestOfRow x (fmtAccf c.g.fmt = 1) (mode = 2 || mode = 4) (tieHigh c) c.g.fmt (c.s o).toNat i b) :
    Spec.bestAt (drainOp c x a o dst mode off s) i = ⟨b.idx, b.val % 2 ^ 32⟩ := by
  have hlo : 1 ≤ mode.toNat ∧ mode.toNat ≤ 2 := by rcases hm with rfl | rfl <;> decide
  rw [drainOp_bestAt ⟨hlo.1, by omega⟩ hi]
  dsimp only
  rw [drainBest_getD hi, if_pos hlo.2, rowBest_as_best hk hi h, Option.getD_some, best_idx_lt h]

theorem drainOp_empty (h : ∀ j, j < 64 → ¬ Spec.Candidate x (fmtAccf c.g.fmt = 1) c.g.fmt i j) :
    Spec.bestAt (drainOp c x a o dst mode off s) i = ⟨0xFFFFFFFF, if (fmtAccf c.g.fmt = 1 : Bool) then 0x80000000 else 0x7FC00000⟩ := by
  have hlo : 1 ≤ mode.toNat ∧ mode.toNat ≤ 2 := by rcases hm with rfl | rfl <;> decide
  rw [drainOp_bestAt ⟨hlo.1, by omega⟩ hi]
  dsimp only
  rw [drainBest_getD hi, if_pos hlo.2, rowBest_as_none hk hi h, Option.getD_none, emptyBest]
  cases (fmtAccf c.g.fmt = 1 : Bool) <;> decide

end Plain

section Merging

variable (hm : 3 ≤ mode.toNat ∧ mode.toNat ≤ 4)

include hm

theorem drainOp_standing (h : ∀ j, j < 64 → ¬ Spec.Candidate x (fmtAccf c.g.fmt = 1) c.g.fmt i j) :
    Spec.bestAt (drainOp c x a o dst mode off s) i = Spec.standing c c.t a (dst = 6) off i := by
  have hmerge : (!(decide (3 ≤ mode.toNat) && decide (mode.toNat ≤ 4))) = false := by simp [hm]
  obtain ⟨hidx, hval⟩ := standing_lt (c := c) (t := c.t) (a := a) (dst := dst) (off := off) i
  rw [drainOp_bestAt ⟨by omega, hm.2⟩ hi, hmerge]
  dsimp only
  rw [if_neg Bool.false_ne_true, drainBest_getD hi, if_neg (by omega), rowBest_as_none hk hi h, Option.elim_none, standingBests_getD hi,
    Nat.mod_eq_of_lt hidx, Nat.mod_eq_of_lt hval]

theorem drainOp_merged (h : Spec.BestOfRow x (fmtAccf c.g.fmt = 1) (mode = 2 || mode = 4) (tieHigh c) c.g.fmt (c.s o).toNat i b) :
    Spec.bestAt (drainOp c x a o dst mode off s) i =
      if (Spec.standing c c.t a (dst = 6) off i).valid (fmtAccf c.g.fmt = 1) = false ∨
        beats (fmtAccf c.g.fmt = 1) (mode = 4) (tieHigh c) b (Spec.standing c c.t a (dst = 6) off i) = true then ⟨b.idx, b.val % 2 ^ 32⟩
      else Spec.standing c c.t a (dst = 6) off i := by
  have hmerge : (!(decide (3 ≤ mode.toNat) && decide (mode.toNat ≤ 4))) = false := by simp [hm]
  have hmax := mode_max_of_merging mode hm
  obtain ⟨hidx, hval⟩ := standing_lt (c := c) (t := c.t) (a := a) (dst := dst) (off := off) i
  rw [drainOp_bestAt ⟨by omega, hm.2⟩ hi, hmerge]
  dsimp only
  rw [if_neg Bool.false_ne_true, drainBest_getD hi, if_neg (by omega), rowBest_as_best hk hi h, Option.elim_some, standingBests_getD hi, hmax]
  simp only [Bool.or_eq_true, Bool.not_eq_true']
  split
  · rw [best_idx_lt h]
  · rw [Nat.mod_eq_of_lt hidx, Nat.mod_eq_of_lt hval]

end Merging

end Bests

end Mdrain

/-- The clause of O42 on MDRAIN: it is held, meets a row whose copies differ, or drains. -/
theorem mdrain_outcome {tr a o : BitVec 6} {dst mode : BitVec 3} {x : Tile} {off : Nat} (h : Starts (.mdrain tr a o dst mode) s c s₁)
    (hport : Spec.atPort c s₁ t s₂) (hx : Spec.tileNamed c t tr = some x) (hok : drainOk c dst.toNat mode.toNat (c.s o) = true)
    (hto : DrainTo { c with t := t } s₂ a dst mode off) :
    (drainHeld { c with t := t } s₂ dst mode off = true → HeldAt (.mdrain tr a o dst mode) s c .issue s₂) ∧
    (drainHeld { c with t := t } s₂ dst mode off = false → ∀ u, meetEcc s₂ c.core true = (false, u) →
      (∀ r, mismatchRow x = some r → Faults (.mdrain tr a o dst mode) s c 0x07 0 c.g.m0
        (x.num + 2 ^ 8 * r + 2 ^ 16 * (nmGetD x.recs r (0, 0)).1 + 2 ^ 24 * (nmGetD x.recs r (0, 0)).2) 0) ∧
      (mismatchRow x = none → Completes (.mdrain tr a o dst mode) s c
        (drainDone { c with t := t } (drainOp { c with t := t } x a o dst mode off u) dst mode off u))) := by
  have hcore : Ctx.core { c with t := t } = c.core := core_of_atPort h hport
  obtain ⟨body, hexec, hbody⟩ := exec_mdrain tr a o dst mode
  have hchecked := mdrain_checked ((tileOf_eq c t tr).trans hx) hok hto hbody
  refine ⟨fun hheld => port_held h hport (hexec s) (hchecked.trans (if_pos hheld)), fun hfree u he => ⟨fun r hr => ?_, fun hnone => ?_⟩⟩
  · refine port_faults h hport (hexec s) (hchecked.trans ?_)
    rw [hfree, if_neg Bool.false_ne_true, onShelf_passes (by rwa [hcore]), drainBody_differs hr]
    rfl
  · refine port_completes h hport (hexec s) (hchecked.trans ?_)
    rw [hfree, if_neg Bool.false_ne_true, onShelf_passes (by rwa [hcore]), drainBody_drains hnone]

/-- What a drain writes, in each of its modes. -/
theorem drainOp_writes {a o : BitVec 6} {dst mode : BitVec 3} {x : Tile} {off : Nat} {u : State}
    (hok : drainOk c dst.toNat mode.toNat (c.s o) = true) (hk : ∀ r, r < 64 → nmGetD x.kinds r (Spec.accKind c.g.fmt) = Spec.accKind c.g.fmt) :
    let merging := 3 ≤ mode.toNat ∧ mode.toNat ≤ 4
    let int : Bool := fmtAccf c.g.fmt = 1
    let hi : Bool := if c.h.tie ≠ 0 then c.h.tie = 2 else fmtTieb c.g.fmt = 1
    let best := Spec.BestOfRow x int (mode = 2 || mode = 4) hi c.g.fmt (c.s o).toNat
    let old := Spec.standing c c.t a (dst = 6) off
    let d := drainOp c x a o dst mode off u
    (∀ r j, r < 64 → j < 64 → mode = 0 ∨ mode = 5 →
      (d.out.drop (drainBytes dst.toNat * (64 * r + j))).take (drainBytes dst.toNat) = natBytes (drainBytes dst.toNat)
        (if mode = 0 then (convElem x int (drainFmt dst.toNat) c.g.fmt r j).1
          else Spec.meanAt x (drainFmt dst.toNat) c.g.fmt (c.s o).toNat r j)) ∧
    (∀ i b, i < 64 → mode = 1 ∨ mode = 2 → best i b → Spec.bestAt d i = ⟨b.idx, b.val % 2 ^ 32⟩) ∧
    (∀ i, i < 64 → mode = 1 ∨ mode = 2 → (∀ j, j < 64 → ¬ Spec.Candidate x int c.g.fmt i j) →
      Spec.bestAt d i = ⟨0xFFFFFFFF, if int then 0x80000000 else 0x7FC00000⟩) ∧
    (∀ i b, i < 64 → merging → best i b → Spec.bestAt d i =
      if (old i).valid int = false ∨ betterVal int (mode = 4) b.val (old i).val = true ∨ (betterVal int (mode = 4) (old i).val b.val = false ∧
          (if hi then (old i).idx < b.idx else b.idx < (old i).idx)) then ⟨b.idx, b.val % 2 ^ 32⟩ else old i) ∧
    (∀ i, i < 64 → merging → (∀ j, j < 64 → ¬ Spec.Candidate x int c.g.fmt i j) → Spec.bestAt d i = old i) := by
  intro merging int hi best old d
  have hhi : hi = tieHigh c := by
    simp only [hi, tieHigh]
    split <;> rfl
  refine ⟨fun r j hr hj hm => drainOp_elem hk hr hj hm hok, fun i b hi' hm hb => ?_, fun i hi' hm hnone => drainOp_empty hk hi' hm hnone,
    fun i b hi' hm hb => ?_, fun i hi' hm hnone => drainOp_standing hk hi' hm hnone⟩
  · simp only [best, hhi] at hb
    exact drainOp_best hk hi' hm hb
  · simp only [best, hhi] at hb
    rw [hhi]
    refine (drainOp_merged hk hi' hm hb).trans ?_
    simp only [beats_iff]
    rfl

/-- Settles O42: a quarter and CUPD by what one of their steps leaves; a drain by its destination, its mode and its rows. -/
theorem matrixArithmetic : Obligations.MatrixArithmetic := by
  refine ⟨fun t q seed sa sb x ha hb hx _ => quarter_outcome ha hb hx, fun a tr p cc s c s₁ s₂ u t sa x h hport ha hx hfmt he =>
    cupd_outcome h hport ha hx hfmt he, ?_, mismatchRow_iff⟩
  intro tr a o dst mode s c s₁ s₂ t x off h hport hx hok merging size hto
  have hcore : Ctx.core { c with t := t } = c.core := core_of_atPort h hport
  have hsize : drainSize dst mode = size := drainSize_eq dst mode
  have hto' : DrainTo { c with t := t } s₂ a dst mode off := by
    rw [DrainTo, hsize]
    exact hto
  obtain ⟨hheld, hgo⟩ := mdrain_outcome h hport hx hok hto'
  refine ⟨fun hdst hback => hheld (drainHeld_iff.2 ⟨hdst, hback⟩), fun hfree u he => ?_⟩
  have hnot : drainHeld { c with t := t } s₂ dst mode off = false := by
    refine Bool.eq_false_iff.2 fun hback => ?_
    obtain ⟨hdst, hwhy⟩ := drainHeld_iff.1 hback
    obtain ⟨hlines, hfence⟩ := hfree hdst
    rcases hwhy with ⟨hm, habsent⟩ | hfence'
    · exact Bool.false_ne_true (habsent.symm.trans (hlines hm))
    · exact Bool.false_ne_true (hfence.symm.trans hfence')
  obtain ⟨hdiffers, hdrains⟩ := hgo hnot u he
  refine ⟨hdiffers, fun hsame hk => ?_⟩
  obtain ⟨helem, hbest, hempty, hmerged, hstanding⟩ := drainOp_writes (c := { c with t := t }) (a := a) (off := off) (u := u) hok hk
  refine ⟨drainOp { c with t := t } x a o dst mode off u, rfl, rfl, rfl, rfl, rfl, rfl, helem, hbest, hempty, hmerged, hstanding, ?_⟩
  have hdone := hdrains hsame
  rw [drainDone, hcore, hsize] at hdone
  exact hdone

end Sys2Proof.Proofs
end

