-- ==== Sys2Proof/Proofs/SystemInstructions.lean ====
section
/-! PROOFS. Hint words (R183 to R188), class 7 (R204 to R207) and the privileged instructions (R335 to R352). -/

namespace Sys2Proof.Proofs

open Machine

variable {i : Instr} {s s₀ s₁ s₂ : State} {c : Ctx} {t : Team} {g : Group}

/-! ## Hint words (R183 to R188) -/

/-- A hint is issued by `issueHint`, with what it adds and what its run takes. -/
theorem exec_hint {add : Hints → Hints} {fits : Hints → Bool} {delay : Nat} (h : Spec.hintOf i = some (add, fits, delay)) (s : State) :
    exec i s = issueHint i fits add delay s := by
  cases i <;> simp only [Spec.hintOf, Option.some.injEq, Prod.mk.injEq, reduceCtorEq] at h <;> obtain ⟨rfl, rfl, rfl⟩ := h
  case himm => rfl
  case hsched => simp only [BitVec.truncate_eq_setWidth, ← BitVec.ofNat_toNat]; rfl
  case hmod => simp only [BitVec.truncate_eq_setWidth, ← BitVec.ofNat_toNat]; rfl

/-- A hint of a group that is there to issue joins its run, or faults. -/
theorem issueHint_eq (hp : Spec.Present s t g) (fits : Hints → Bool) (add : Hints → Hints) (delay : Nat) :
    issueHint i fits add delay s =
      if !i.wf t.header.ever || 3 ≤ g.hints.total || !fits g.hints then
        .next (raiseFault (Spec.acquired s t g) s.cur.1 s.cur.2 g 0x01 0 g.m0 0 0 g.restart)
      else .next (retire (modGroup (Spec.acquired s t g) s.cur.1 s.cur.2 (fun x => { x with
        pc := (g.pc + 4) % 2 ^ 48, wait := keepArrival g.wait, notBefore := if delay = 0 then 0 else cycleAt (Spec.acquired s t g) t.core + delay,
        hints := add { g.hints with first := some (g.hints.first.getD g.pc) } })) t.core s.cur.1 s.cur.2) := by
  obtain ⟨ht, hg, hstop, hres, hfault, hreg, hread⟩ := hp
  unfold issueHint
  simp only [ht, hg, hstop, hres, hfault, hreg, hread, Option.isSome_none, Bool.not_true, Bool.or_self, Bool.false_eq_true, if_false]
  rfl

/-- Settles O44: the three checks of a run, and what a hint leaves. -/
theorem hintWords : Obligations.HintWords := by
  intro i s t g add fits delay hp hhint
  refine ⟨fun hwf htotal hfits => ?_, fun hbad => ?_⟩
  · rw [exec_hint hhint, issueHint_eq hp, if_neg]
    have htotal' : ¬ 3 ≤ g.hints.total := Nat.not_le.2 htotal
    simp [hwf, htotal', hfits]
  · rw [exec_hint hhint, issueHint_eq hp, if_pos]
    · rfl
    · rw [Bool.or_eq_true, Bool.or_eq_true, Bool.not_eq_true', Bool.not_eq_true', decide_eq_true_eq, or_assoc]
      exact hbad

/-! ## Class 7 (R204 to R207) -/

/-- A group that stands at a yield point without a wait of its own is a candidate as one that waits for nothing. -/
theorem canIssue_yielded (s : State) (tid gid : Nat) : canIssue (modGroup s tid gid (fun g => { g with wait := some .yielded })) tid gid =
    canIssue (modGroup s tid gid (fun g => { g with wait := none })) tid gid := by
  have hgroup (w : Option Wait) : groupOf (modGroup s tid gid (fun g => { g with wait := w })) tid gid =
      (groupOf s tid gid).map (fun g => { g with wait := w }) := by
    unfold groupOf
    rw [teamOf_modGroup_self]
    cases teamOf s tid <;> simp
  unfold canIssue
  rw [teamOf_modGroup_self, teamOf_modGroup_self, hgroup, hgroup]
  cases teamOf s tid with
  | none => rfl
  | some t => cases groupOf s tid gid <;> rfl

/-- Settles O45: each instruction does what its clause says of it, by its own definition. -/
theorem systemInstructions : Obligations.SystemInstructions := by
  refine ⟨fun s c s₁ h => completes_of_starts h rfl rfl, fun s c s₁ h => completes_of_starts h rfl rfl, canIssue_yielded, fun n s c s₁ h => ?_,
    fun s c s₁ h => completes_of_starts h rfl rfl, fun code s c s₁ h => completes_of_starts h rfl rfl,
    fun code s c s₁ h => faults_of_starts h rfl rfl⟩
  refine completes_of_starts h rfl ?_
  dsimp only
  generalize (if c.h.count ≠ 0 then c.h.imm.toNat % 2 ^ 32 else n.toNat) = k
  split <;> rfl

/-! ## CSRs (R339 to R342) -/

section Csr

variable {r a : BitVec 6} {csr : BitVec 12}

theorem csrr_outcome (h : Starts (.csrr r a csr) s c s₁) :
    (csr.toNat < 0x200 → ∀ code, csrTarget s₁ c (c.s a) = .error code → Faults (.csrr r a csr) s c code 0 c.g.m0 0 0) ∧
    (∀ core, (if csr.toNat < 0x200 then csrTarget s₁ c (c.s a) else .ok c.core) = .ok core →
      Completes (.csrr r a csr) s c (changeGroup c s₁ (fun g => g.setS r.toNat (BitVec.ofNat 64 (csrRead s₁ c.t.part core csr))))) := by
  refine ⟨fun hlow code he => faults_of_starts h rfl ?_, fun core hcore => completes_of_starts h rfl ?_⟩
  · simp only [hlow, if_true, he]
    rfl
  · simp only [hcore]
    rfl

theorem csrw_outcome (h : Starts (.csrw r a csr) s c s₁) :
    (csr.toNat < 0x200 → ∀ code, csrTarget s₁ c (c.s a) = .error code → Faults (.csrw r a csr) s c code 0 c.g.m0 0 0) ∧
    (∀ core, (if csr.toNat < 0x200 then csrTarget s₁ c (c.s a) else .ok c.core) = .ok core →
      Completes (.csrw r a csr) s c (csrWrite s₁ c.t.part core c.t.aspace csr (c.s r).toNat)) := by
  refine ⟨fun hlow code he => faults_of_starts h rfl ?_, fun core hcore => completes_of_starts h rfl ?_⟩
  · simp only [hlow, if_true, he]
    rfl
  · simp only [hcore]

end Csr

/-! ## TRESUME (R346, R348, R401) -/

section Tresume

variable {d a : BitVec 6} {fin : BitVec 1} {l : List Saved} {u : State} (h : Starts (.tresume d a fin) s c s₁)

include h

theorem tresume_misaligned (hal : (c.s a).toNat % 4096 ≠ 0) : Faults (.tresume d a fin) s c 0x03 (c.s a).toNat c.g.m0 0 0 :=
  faults_of_starts h rfl (if_pos hal)

variable (hal : (c.s a).toNat % 4096 = 0)

include hal

theorem tresume_unsettled (hset : groupSettled s₁ c = false) : HeldAt (.tresume d a fin) s c .issue s₁ :=
  heldAt_of_starts h rfl (by simp only [hal, ne_eq, not_true_eq_false, if_false, hset, Bool.not_false, if_true])

variable (hset : groupSettled s₁ c = true)

include hset

theorem tresume_nothing (hfind : findImages c s₁ (c.s a).toNat = .nothing) :
    Completes (.tresume d a fin) s c (changeGroup c s₁ (fun g => g.setS d.toNat 1)) :=
  completes_of_starts h rfl (by simp only [hal, ne_eq, not_true_eq_false, if_false, hset, Bool.not_true, Bool.false_eq_true, hfind]; rfl)

theorem tresume_fault {code addr : Nat} (hfind : findImages c s₁ (c.s a).toNat = .fault code addr u) :
    FaultsLeaving (.tresume d a fin) s c u code addr c.g.m0 :=
  faultsLeaving_of_starts h rfl (by simp only [hal, ne_eq, not_true_eq_false, if_false, hset, Bool.not_true, Bool.false_eq_true, hfind])

variable (hfind : findImages c s₁ (c.s a).toNat = .images l s₂)

include hfind

theorem tresume_full (hfin : fin = 0) (hq : Config.resumeDepth ≤ (partOf s₁ c.t.part).resumeQ.length) :
    Completes (.tresume d a fin) s c (changeGroup c s₁ (fun g => g.setS d.toNat 2)) := by
  subst hfin
  refine completes_of_starts h rfl ?_
  simp only [hal, ne_eq, not_true_eq_false, if_false, hset, Bool.not_true, Bool.false_eq_true, hfind, isSet_zero, Bool.not_false, Bool.true_and,
    hq, decide_true, if_true]
  rfl

theorem tresume_resumes (hfin : fin = 0) (hq : (partOf s₁ c.t.part).resumeQ.length < Config.resumeDepth) (hmark : markImages c 2 l s₂ = some u) :
    let ids := l.map (fun x => x.team.id)
    let s₃ := changeGroup c u (fun g => g.setS d.toNat 0)
    let s₄ : State := { s₃ with nextId := s₃.nextId + 1, saved := s₃.saved.map (fun y =>
      if ids.contains y.team.id && !y.resumed then { y with resumed := true, readyAt := s₃.nextId } else y) }
    Completes (.tresume d a fin) s c (dispatchPart (modPart s₄ c.t.part (fun p => { p with resumeQ := p.resumeQ ++ ids })) c.t.part) := by
  subst hfin
  refine completes_of_starts h rfl ?_
  simp only [hal, ne_eq, not_true_eq_false, if_false, hset, Bool.not_true, Bool.false_eq_true, hfind, isSet_zero, Bool.not_false, Bool.true_and,
    Nat.not_le.2 hq, decide_false, hmark]
  rfl

theorem tresume_ends (hfin : fin = 1) (hmark : markImages c 3 l s₂ = some u) :
    let ids := l.map (fun x => x.team.id)
    let s₃ := changeGroup c u (fun g => g.setS d.toNat 0)
    Completes (.tresume d a fin) s c (dispatchPart (l.foldl (fun s x => teamOver s x.team.grid true)
      { s₃ with saved := s₃.saved.filter (fun y => !ids.contains y.team.id) }) c.t.part) := by
  subst hfin
  refine completes_of_starts h rfl ?_
  simp only [hal, ne_eq, not_true_eq_false, if_false, hset, Bool.not_true, Bool.false_eq_true, hfind, isSet_one, Bool.false_and, if_true, hmark]
  rfl

end Tresume

/-! ## TFLUSH (R338, R349, R362) -/

theorem tflush_outcome {a b : BitVec 6} {al : BitVec 1} (h : Starts (.tflush a b al) s c s₁) :
    let v := (c.s a).toNat
    let space := if c.t.supervisor then v / 2 ^ 48 else c.t.aspace
    let drop (x : Core) : Core := { x with stash := x.stash.filter (fun e => !flushes space (v % 2 ^ 48 / 4096) (c.s b).toNat e) }
    (2 ^ (if c.t.supervisor then 56 else 48) ≤ v → Faults (.tflush a b al) s c 0x05 0 c.g.m0 0 0) ∧
    (v < 2 ^ (if c.t.supervisor then 56 else 48) → al = 0 → Completes (.tflush a b al) s c (modCore s₁ c.core drop)) ∧
    (v < 2 ^ (if c.t.supervisor then 56 else 48) → al = 1 →
      let s₂ := reloadDescriptor s₁ c.t.part space
      Completes (.tflush a b al) s c (releaseTables { s₂ with
        cores := s₂.cores.map (fun p => if inPartition s₂ c.t.part (clusterOfCore p.1) then (p.1, drop p.2) else p) } c.t.part)) := by
  intro v space drop
  have hlow (hv : v < 2 ^ (if c.t.supervisor then 56 else 48)) : ¬ v / 2 ^ (if c.t.supervisor then 56 else 48) ≠ 0 :=
    not_not.2 (Nat.div_eq_of_lt hv)
  refine ⟨fun hv => faults_of_starts h rfl (if_pos ?_), fun hv hal => completes_of_starts h rfl ((if_neg (hlow hv)).trans ?_),
    fun hv hal => completes_of_starts h rfl ((if_neg (hlow hv)).trans ?_)⟩
  · exact Nat.pos_iff_ne_zero.1 (Nat.div_pos hv (Nat.two_pow_pos _))
  · subst hal
    rfl
  · subst hal
    rfl

/-! ## SPLIT and HALT (R350, R351) -/

theorem split_outcome {d a : BitVec 6} (h : Starts (.split d a) s c s₁) :
    let v := (c.s a).toNat
    let core := bitsOf v 9 8 * 192 + v % 256
    let regs := bitsOf v 19 16
    let desk := bitsOf v 23 20
    let near := bitsOf v 27 24
    let legal := bitsOf v 15 10 = 0 ∧ v < 2 ^ 28 ∧ regs ≠ 0 ∧ desk ≠ 0 ∧ near ≤ 12 ∧ regs + 2 * desk + near = 16 ∧ v % 256 ≤ 191 ∧
      inPartition s₁ c.t.part (bitsOf v 9 8) = true
    (¬ legal → Completes (.split d a) s c (changeGroup c s₁ (fun g => g.setS d.toNat 1))) ∧
    (legal → c.g.wait ≠ some (.split core) → (teamsOn s₁ core ≠ [] ∨ (coreOf s₁ core).ingress ≠ 0) →
      Completes (.split d a) s c (changeGroup c s₁ (fun g => g.setS d.toNat 3))) ∧
    (legal → (c.g.wait = some (.split core) ∨ teamsOn s₁ core = [] ∧ (coreOf s₁ core).ingress = 0) →
      let s₂ := ((coreOf s₁ core).nears.filter (fun p => 16 * near ≤ p.1)).foldl (fun s p => evictForSplit s c.t.part core p.1) s₁
      let used := ∃ p ∈ (coreOf s₂ core).nears, 16 * near ≤ p.1 ∧ p.2.state ≠ .free ∧ p.2.state ≠ .quarantined
      (used → HeldAt (.split d a) s c (.split core) (modCore s₂ core (fun x => { x with closed := true }))) ∧
      (¬ used → Completes (.split d a) s c (dispatchPart (changeGroup c (modCore s₂ core (fun x => { x with
        closed := splitsBeside s₂ c core, split := BitVec.ofNat 32 (near * 256 + desk * 16 + regs) })) (fun g => g.setS d.toNat 0)) c.t.part))) := by
  intro v core regs desk near legal
  have hill : (bitsOf v 15 10 ≠ 0 || v / 2 ^ 28 ≠ 0 || regs = 0 || desk = 0 || 12 < near || regs + 2 * desk + near ≠ 16 || 191 < v % 256 ||
      !inPartition s₁ c.t.part (bitsOf v 9 8)) = true ↔ ¬ legal := by
    have hv : v / 2 ^ 28 = 0 ↔ v < 2 ^ 28 := Nat.div_eq_zero_iff_lt (Nat.two_pow_pos 28)
    simp only [legal, Bool.or_eq_true, decide_eq_true_eq, Bool.not_eq_true', ne_eq, hv]
    grind
  have hbusy : (decide (c.g.wait ≠ some (.split core)) && (!(teamsOn s₁ core).isEmpty || decide ((coreOf s₁ core).ingress ≠ 0))) = true ↔
      c.g.wait ≠ some (.split core) ∧ (teamsOn s₁ core ≠ [] ∨ (coreOf s₁ core).ingress ≠ 0) := by
    simp
  refine ⟨fun hnot => completes_of_starts h rfl (if_pos (hill.2 hnot)), fun hlegal hw hteams =>
    completes_of_starts h rfl ((if_neg (mt hill.1 (not_not.2 hlegal))).trans (if_pos (hbusy.2 ⟨hw, hteams⟩))), fun hlegal hfree => ?_⟩
  have hidle : ¬ (decide (c.g.wait ≠ some (.split core)) && (!(teamsOn s₁ core).isEmpty || decide ((coreOf s₁ core).ingress ≠ 0))) = true := by
    rw [hbusy]
    tauto
  intro s₂ used
  have hused : (coreOf s₂ core).nears.any (fun p => 16 * near ≤ p.1 && p.2.state ≠ .free && p.2.state ≠ .quarantined) = true ↔ used := by
    simp [used, and_assoc]
  refine ⟨fun hu => heldAt_of_starts h rfl ((if_neg (mt hill.1 (not_not.2 hlegal))).trans ((if_neg hidle).trans (if_pos (hused.2 hu)))),
    fun hu => completes_of_starts h rfl ((if_neg (mt hill.1 (not_not.2 hlegal))).trans ((if_neg hidle).trans (if_neg (mt hused.1 hu))))⟩

theorem halt_outcome {code : BitVec 16} (h : Starts (.halt code) s c s₁) :
    ∃ s₂, Completes (.halt code) s c s₂ ∧ (partOf s₂ c.t.part).halted = true ∧ (partOf s₂ c.t.part).haltCode = code.toNat ∧
      s₂.msix = s₁.msix ++ [2 * c.t.part + 1] ∧ (∀ p ∈ s₂.teams, p.2.part = c.t.part → p.2.stopping = true ∧ p.2.cmds = []) ∧
      s₂.saved = s₁.saved := by
  refine ⟨haltPart s₁ c.t.part code.toNat, completes_of_starts h rfl rfl, ?_, ?_, rfl, fun p hp hpart => ?_, rfl⟩
  · simp [haltPart, partOf]
  · simp [haltPart, partOf]
  · obtain ⟨q, hq, rfl⟩ := List.mem_map.1 hp
    split at hpart
    · next hin => simp only [if_pos hin, and_self]
    · next hout => exact absurd hpart hout

/-- Settles O47: each privileged instruction by its own lemmas. -/
theorem privilegedInstructions : Obligations.PrivilegedInstructions :=
  ⟨fun _ _ _ _ _ _ h => csrr_outcome h, fun _ _ _ _ _ _ h => csrw_outcome h,
    fun _ _ _ _ _ _ h => ⟨tresume_misaligned h, tresume_unsettled h, tresume_nothing h, fun _ _ _ hal hset => tresume_fault h hal hset,
      fun _ _ hal hset => tresume_full h hal hset, fun _ _ _ hal hset => tresume_resumes h hal hset, fun _ _ _ hal hset => tresume_ends h hal hset⟩,
    fun _ _ _ _ _ _ h => tflush_outcome h, fun _ _ _ _ _ h => split_outcome h, fun _ _ _ _ h => halt_outcome h⟩

end Sys2Proof.Proofs
end

