-- ==== Sys2Proof/Proofs/TimerEvents.lean ====
section
/-! PROOFS. Bins, the watchdog, the active set, sleeps and time slices (R33, R35, R53, R187, R205, R386, R389). -/

namespace Sys2Proof.Proofs

open Machine

variable {i : Instr} {s s₀ s₁ s₂ : State} {t : Team} {g : Group}

/-! ## Bins (R33, R35) -/

section Bins

variable {core bin n idx : Nat} {b : Bin}

theorem binTimerExpiry_outcome (hb : nmGet bin (coreOf s core).bins = some b) :
    (b.start + (coreOf s core).binTimeout ≤ cycleAt s core →
      let s₁ := modCore s core (fun c => { c with bins := nmDel bin c.bins, launchedBins := c.launchedBins ++ [(bin, b)] })
      Spec.Happens (.binTimerExpiry core bin) s (if (popHold s₁).1 then (popHold s₁).2
        else startBins core (coreOf (popHold s₁).2 core).launchedBins (popHold s₁).2)) ∧
    (cycleAt s core < b.start + (coreOf s core).binTimeout → Spec.Happens (.binTimerExpiry core bin) s s) := by
  have hexec : exec (.binTimerExpiry core bin) s =
      .next (if b.start + (coreOf s core).binTimeout ≤ cycleAt s core then launchBin s core bin else s) := by
    change execBinTimerExpiry core bin s = _
    simp only [execBinTimerExpiry, hb]
  refine ⟨fun hdue => ?_, fun hearly => ?_⟩
  · rw [Spec.Happens, hexec, if_pos hdue]
    simp only [launchBin, hb]
  · rw [Spec.Happens, hexec, if_neg (Nat.not_le.2 hearly)]

theorem binGroupStart_outcome (hl : (coreOf s core).launchedBins = [(n, b)]) (hcan : binCanStart s core b = true)
    (ht : teamOf s b.team = some t) (hfree : nmFree t.groups t.header.gmax = some idx) :
    Spec.Happens (.binGroupStart core) s (enterCore (modCore (modTeam s b.team (fun u => binGroup u n b idx)) core
      (fun c => { c with launchedBins := c.launchedBins.erase (n, b) })) core b.team idx) := by
  change execBinGroupStart core s = _
  simp only [execBinGroupStart, hl, startBins, hcan, if_true, ht, Option.bind_some, hfree]

end Bins

/-! ## The watchdog (R53, R398) -/

theorem watchdogExpiry_outcome {team gid : Nat} {rest : NMap Group} (ht : teamOf s team = some t) (hg : t.groups = (gid, g) :: rest) :
    (t.resident = true → t.stopping = false → t.lastRetire + t.interval ≤ cycleAt s t.core →
      Spec.Happens (.watchdogExpiry team) s (takeFault (lrBump s 6 (clusterOfCore t.core) 0 (2 ^ 32 - 1)) team gid
        ⟨0x0B, g.index, g.restart, 0, g.m0, 0, 0, false, 0, some g.restart, s.nextId, true⟩)) ∧
    (cycleAt s t.core < t.lastRetire + t.interval → Spec.Happens (.watchdogExpiry team) s s) := by
  refine ⟨fun hres hstop hdue => ?_, fun hearly => ?_⟩
  · change execWatchdogExpiry team s = _
    simp only [execWatchdogExpiry, ht, hg, hres, hstop, hdue, Bool.not_false, Bool.and_self, decide_true, if_true]
  · change execWatchdogExpiry team s = _
    simp only [execWatchdogExpiry, ht, hg, Nat.not_le.2 hearly, decide_false, Bool.and_false, Bool.false_eq_true, if_false]

/-! ## The active set (R386) -/

section ActiveSet

variable {core : Nat} {p : Nat × Nat × Nat}

theorem activeSetSwap_outcome {x : (Nat × Nat) × Nat} (hp : readyPending s core = some p) (hx : heldActive s core = [x]) :
    Spec.Happens (.activeSetSwap core) s (modCore s core (fun c => { c with
      active := c.active.filter (· ≠ x.1) ++ [(p.1, p.2.1)], pend := c.pend.filter (· ≠ p) ++ [(x.1.1, x.1.2, 0)] })) := by
  change execActiveSetSwap core s = _
  simp only [execActiveSetSwap, hp, hx, List.foldl_nil, exchange]
  rfl

variable {x : Nat × Nat} {rest : List (Nat × Nat)} (hp : readyPending s core = some p) (hheld : heldActive s core = [])
  (hx : (coreOf s core).active = x :: rest) (hg : groupOf s x.1 x.2 = some g)

include hp hheld hx hg

theorem exec_forcedSwap : exec (.forcedSwap core) s =
    .next (if p.2.2 + 2 ^ 16 ≤ cycleAt s core + 1 && atBoundary g then exchange s core x p else s) := by
  change execForcedSwap core s = _
  simp only [execForcedSwap, hp, hheld, hx, hg, List.isEmpty_nil, Bool.and_true, Option.any_some]

theorem forcedSwap_outcome :
    (g.hints.first = none → g.wait = none → p.2.2 + 2 ^ 16 ≤ cycleAt s core + 1 → Spec.Happens (.forcedSwap core) s (exchange s core x p)) ∧
    (g.hints.first ≠ none ∨ (∃ id, g.wait = some (.release id)) ∨ g.wait = some .placeHome ∨
        (∃ k, g.wait = some (.split k)) ∨ cycleAt s core + 1 < p.2.2 + 2 ^ 16 →
      Spec.Happens (.forcedSwap core) s s) := by
  have hexec := exec_forcedSwap hp hheld hx hg
  refine ⟨fun hfirst hwait hdue => ?_, fun hno => ?_⟩
  · have hb : atBoundary g = true := by simp [atBoundary, hfirst, hwait]
    rw [Spec.Happens, hexec, if_pos (by simp only [hdue, decide_true, hb, Bool.and_self])]
  · rw [Spec.Happens, hexec, if_neg]
    rw [Bool.and_eq_true, decide_eq_true_eq]
    rintro ⟨hdue, hb⟩
    rcases hno with hfirst | ⟨id, hwait⟩ | hwait | ⟨k, hwait⟩ | hearly
    · have hnone : g.hints.first.isNone = true := (Bool.and_eq_true_iff.1 hb).1
      exact hfirst (Option.isNone_iff_eq_none.1 hnone)
    · simp [atBoundary, hwait] at hb
    · simp [atBoundary, hwait] at hb
    · simp [atBoundary, hwait] at hb
    · omega

end ActiveSet

/-! ## Sleeps and time slices (R187, R205, R389) -/

theorem timeSliceExpiry_outcome {team : Nat} {gr w : Grid} (ht : teamOf s team = some t) (hgr : nmGet t.grid s.grids = some gr)
    (hq : (partOf s t.part).tslice ≠ 0) (hcls : gr.rec_.cls ≠ 0) (htog : together gr.rec_ gr.header = false)
    (hdue : t.placedAt + 1024 * (partOf s t.part).tslice ≤ cycleAt s t.core) (hw : ∃ k, (k, w) ∈ s.grids) (hpart : w.part = t.part)
    (hlo : 1 ≤ w.rec_.cls) (hhi : w.rec_.cls ≤ gr.rec_.cls) (hfits : couldPlace s t w = true) :
    Spec.Happens (.timeSliceExpiry team) s (modTeam s team (fun u => if u.stopping || !u.resident then u
      else { u with stopping := true, saveWhy := 3 })) := by
  obtain ⟨k, hk⟩ := hw
  have hwaits : s.grids.any (fun w => decide (w.2.part = t.part) && (decide (1 ≤ w.2.rec_.cls) && decide (w.2.rec_.cls ≤ gr.rec_.cls)) &&
      couldPlace s t w.2) = true :=
    List.any_eq_true.2 ⟨(k, w), hk, by simp only [hpart, hlo, hhi, hfits, decide_true, Bool.and_self]⟩
  change execTimeSliceExpiry team s = _
  simp only [execTimeSliceExpiry, ht, hgr, hq, hcls, htog, hdue, hwaits, ne_eq, not_false_eq_true, decide_true, Bool.not_false, Bool.true_or,
    Bool.and_self, if_true, stopTeam]

/-- Settles O48: each timer by the test that its event makes. -/
theorem timerEvents : Obligations.TimerEvents := by
  refine ⟨fun _ _ _ _ hb => binTimerExpiry_outcome hb, fun _ _ _ _ _ _ hl hcan ht hfree => binGroupStart_outcome hl hcan ht hfree,
    fun _ _ _ _ _ _ ht hg => watchdogExpiry_outcome ht hg, fun _ _ _ _ hp hx => activeSetSwap_outcome hp hx,
    fun _ _ _ _ _ _ hp hheld hx hg => forcedSwap_outcome hp hheld hx hg, fun team gid u t g s ht hg hwait hdue => ?_,
    fun team gid t g s ht hg hwait hdue => ?_,
    fun _ _ _ _ _ ht hgr hq hcls htog hdue hw hpart hlo hhi hfits => timeSliceExpiry_outcome ht hgr hq hcls htog hdue hw hpart hlo hhi hfits⟩
  · change execSleepExpiry team gid s = _
    simp only [execSleepExpiry, ht, hg, hwait, hdue, if_true]
  · change execHschedDelayExpiry team gid s = _
    simp only [execHschedDelayExpiry, ht, hg, hwait, hdue, Option.isNone_none, decide_true, Bool.and_self, if_true]

end Sys2Proof.Proofs
end

