-- ==== Sys2Proof/Proofs/ResetAndSanity.lean ====
section
/-! PROOFS. The state after reset (R339, R340, R363, R407, R429) and sample words of the encoding tables (R171, R172, R176). -/

namespace Sys2Proof.Proofs

open Machine

/-! ## A table that maps every key it holds to the default -/

theorem nmGetD_of_forall_default {α : Type} {d : α} :
    ∀ {m : NMap α}, (∀ p ∈ m, p.2 = d) → ∀ k, nmGetD m k d = d
  | [], _, _ => rfl
  | (j, x) :: m, hall, k => by
      have hx : x = d := hall (j, x) (.head m)
      by_cases hk : k = j
      · simp [nmGetD, nmGet, hk, hx]
      · have hrest := nmGetD_of_forall_default (fun p hp => hall p (.tail _ hp)) k
        simpa [nmGetD, nmGet, hk] using hrest

theorem coreOf_reset (core : Nat) : coreOf State.reset core = .blank := nmGetD_of_forall_default (by simp [State.reset]) core

theorem clusterOf_reset (c : Nat) : clusterOf State.reset c = .blank := nmGetD_of_forall_default (by simp [State.reset]) c

theorem partOf_reset (p : Nat) : partOf State.reset p = .blank := nmGetD_of_forall_default (by simp [State.reset]) p

theorem nearFrame_reset (core n : Nat) : nearFrame State.reset core n = .blank := by
  rw [nearFrame, coreOf_reset]; exact nmGetD_of_forall_default (by simp [Core.blank]) n

theorem farFrame_reset (c sl n : Nat) : farFrame State.reset c sl n = .blank := by
  have hslice : nmGetD (Cluster.blank).slices sl [] = [] := nmGetD_of_forall_default (by simp [Cluster.blank]) sl
  rw [farFrame, clusterOf_reset, hslice]; exact nmGetD_of_forall_default (by simp) n

theorem gemar_reset_down : ∀ p ∈ State.reset.gemar, p.2.up = false := by simp [State.reset]

theorem reset_memoryCanonical : MemoryCanonical State.reset := ⟨by decide, by decide⟩

/-- Settles O59: every table of the reset state holds its blank entry at every key. -/
theorem resetValues : Obligations.ResetValues := by
  refine ⟨⟨fun core => ?_, fun c => ?_, fun p => ?_, fun core n => ?_, fun c sl n => ?_, rfl, rfl, rfl, rfl, rfl, rfl, gemar_reset_down⟩,
    reset_memoryCanonical⟩
  · rw [coreOf_reset]; exact ⟨rfl, rfl, rfl, rfl, rfl, rfl⟩
  · rw [clusterOf_reset]; exact ⟨rfl, rfl⟩
  · rw [partOf_reset]; exact ⟨rfl, rfl, rfl, rfl, rfl, rfl⟩
  · rw [nearFrame_reset]; exact ⟨rfl, rfl⟩
  · rw [farFrame_reset]; exact ⟨rfl, rfl⟩

/-- Settles O56: each word is decoded by evaluation. -/
theorem decodeSanity : Obligations.DecodeSanity := by
  unfold Obligations.DecodeSanity
  refine ⟨?_, ?_, ?_, ?_, ?_, ?_, ?_, ?_, ?_, ?_, ?_, ?_, ?_⟩ <;> decide +kernel

end Sys2Proof.Proofs
end

