-- ==== Sys2Proof/Proofs/MessageEvents.lean ====
section
/-! PROOFS. A result that reaches its team (R239), and the records of earlier points that a second entry of the team keeps. -/

namespace Sys2Proof.Proofs

open Machine

variable {s : State} {r : MemReq}

/-- A result is written once for every entry of the team table under its team's name, as the clause of O49 says, when none of these entries keeps
the record of an earlier point. -/
theorem deliver_of_no_marks (hmarks : ∀ p ∈ s.teams, p.1 = r.team → p.2.marks = []) (bs : List Byte) :
    deliver s r bs = modTeam s r.team (fun t => t.putResult r.group r.dest bs) := by
  have hteams : nmModify r.team (fun t => t.late r.group r.instr (fun t => t.putResult r.group r.dest bs)) s.teams =
      nmModify r.team (fun t => t.putResult r.group r.dest bs) s.teams := by
    refine List.map_congr_left fun p hp => ?_
    by_cases hk : p.1 = r.team
    · simp only [hk, if_true, Team.late, hmarks p hp hk, List.isEmpty_nil]
    · simp only [hk, if_false]
  simp only [deliver, modTeam, hteams]

/-- The record of a group as it stood before its instruction 1. -/
def groupMark : Mark := ⟨0, 1, 0, default, [], []⟩

/-- Two entries of the team table under one name; the first keeps no record of an earlier point, the second keeps one. -/
def twiceListed : State :=
  { State.reset with teams := [(0, { (default : Team) with groups := [(0, default)] }),
      (0, { (default : Team) with groups := [(0, default)], marks := [groupMark] })] }

/-- A word for the scalar register 1 of that team's group, read by its instruction 0. -/
def wordForTwice : MemReq := { (default : MemReq) with dest := .scalar 1 4 }

/-- Refutes O49: the clause on `deliver` looks at the first entry of a team's name alone. Where the table lists the name a second time with a record
of an earlier point, the result of an older instruction enters that record too, which the plain write does not do. -/
theorem not_messageEvents : ¬ Obligations.MessageEvents := by
  intro h
  obtain ⟨-, hdeliver, -⟩ := h
  have hteams := congrArg State.teams (hdeliver wordForTwice [1] twiceListed _ rfl rfl)
  revert hteams
  decide +kernel

end Sys2Proof.Proofs
end

