-- ==== Sys2Proof/Proofs/UnitEvents.lean ====
section
/-! PROOFS. The events of the units of a core (R91, R250, R270, R272, R280, R282, R299, R303, R315, R326, R334). -/

namespace Sys2Proof.Proofs

open Machine

variable {i : Instr} {s s₀ s₁ s₂ s₃ s₄ : State} {t : Team} {g : Group} {c : Ctx}

/-! ## The passes of the array and its sub-arrays (R91, R299, R315) -/

section Array

variable {core sub : Nat} {p : Pass} {rest : List Pass}

theorem arrayPass_outcome (hclosed : (coreOf s core).closedPasses = p :: rest) (hawake : (coreOf s core).gated = []) :
    Spec.Happens (.arrayPass core) s (runPass (modCore s core (fun c => { c with closedPasses := rest })) core p) := by
  change execArrayPass core s = _
  simp only [execArrayPass, hclosed, hawake, List.isEmpty_nil, if_true]

/-- The passes that are due are the oldest one alone. -/
theorem takeWhile_due_singleton {now : Nat} (hdue : p.opened + 16 ≤ now ∨ p.full = true)
    (hnext : ∀ q, rest.head? = some q → now < q.opened + 16 ∧ q.full = false) :
    (p :: rest).takeWhile (fun p => decide (p.opened + 16 ≤ now) || p.full) = [p] := by
  have hp : (decide (p.opened + 16 ≤ now) || p.full) = true := by simpa using hdue
  cases rest with
  | nil => simp only [List.takeWhile_cons, hp, List.takeWhile_nil, if_true]
  | cons q rest =>
    obtain ⟨hearly, hroom⟩ := hnext q rfl
    have hq : (decide (q.opened + 16 ≤ now) || q.full) = false := by simp [hearly, hroom]
    simp only [List.takeWhile_cons, hp, hq, if_true, Bool.false_eq_true, if_false]

theorem passTimeout_outcome (hopen : (coreOf s core).openPasses = p :: rest) (hdue : p.opened + 16 ≤ cycleAt s core ∨ p.full = true)
    (hnext : ∀ q, rest.head? = some q → cycleAt s core < q.opened + 16 ∧ q.full = false) :
    Spec.Happens (.passTimeout core) s (modCore s core (fun c => { c with closedPasses := c.closedPasses ++ [p], openPasses := rest })) := by
  change execPassTimeout core s = _
  simp only [execPassTimeout, modCore, closeDue, closeFirst, hopen, takeWhile_due_singleton hdue hnext, List.length_singleton,
    List.take_succ_cons, List.take_zero, List.drop_succ_cons, List.drop_zero]

theorem subarrayGate_outcome (hsub : sub < 4) (hon : (coreOf s core).marrIdle ≠ 0)
    (hidle : nmGetD (coreOf s core).lastArray sub 0 + (coreOf s core).marrIdle ≤ cycleAt s core) (hopen : (coreOf s core).openPasses = [])
    (hclosed : (coreOf s core).closedPasses = []) (hawake : sub ∉ (coreOf s core).gated) :
    Spec.Happens (.subarrayGate core sub) s (modCore s core (fun c => { c with gated := sub :: c.gated })) := by
  change execSubarrayGate core sub s = _
  simp [execSubarrayGate, hsub, hon, hidle, hopen, hclosed, hawake, modCore]

theorem subarrayWake_outcome (hclosed : (coreOf s core).closedPasses ≠ []) (hgated : sub ∈ (coreOf s core).gated) :
    (nmGet sub (coreOf s core).waking = none → Spec.Happens (.subarrayWake core sub) s
      (modCore s core (fun c => { c with waking := nmPut sub (cycleAt s core + Config.wakeLatency) c.waking }))) ∧
    (∀ w, nmGet sub (coreOf s core).waking = some w →
      (cycleAt s core < w → Spec.Happens (.subarrayWake core sub) s s) ∧
      (w ≤ cycleAt s core → Spec.Happens (.subarrayWake core sub) s
        (modCore s core (fun c => { c with gated := c.gated.filter (· ≠ sub), waking := nmDel sub c.waking })))) := by
  have hwaits : ((coreOf s core).closedPasses.isEmpty || !(coreOf s core).gated.contains sub) = false := by simp [hclosed, hgated]
  refine ⟨fun hw => ?_, fun w hw => ⟨fun hearly => ?_, fun hdue => ?_⟩⟩ <;> change execSubarrayWake core sub s = _
  · simp only [execSubarrayWake, hwaits, hw, Bool.false_eq_true, if_false, modCore]
  · simp only [execSubarrayWake, hwaits, hw, Bool.false_eq_true, if_false, Nat.not_le.2 hearly]
  · simp only [execSubarrayWake, hwaits, hw, Bool.false_eq_true, if_false, hdue, if_true, modCore]

end Array

/-! ## Predicates and drains (R303, R326, R334) -/

section Landing

variable {core id : Nat}

theorem runStage2_eq_stage2 (s : State) (core : Nat) (o : PredOp) : runStage2 s core o = Spec.stage2 s core o := by
  rw [runStage2, Spec.stage2, ite_not]

theorem predicateCompletion_outcome {o : PredOp}
    (ho : s.cores.findSome? (fun p => (p.2.preds.find? (fun d => d.id = id)).map (fun d => (p.1, d))) = some (core, o)) :
    Spec.Happens (.predicateCompletion id) s (if predReady (Spec.stage2 (enterStage2 s core o) core o) core o
      then landPred (Spec.stage2 (enterStage2 s core o) core o) core o else Spec.stage2 (enterStage2 s core o) core o) := by
  change execPredicateCompletion id s = _
  simp only [execPredicateCompletion, ho, runPred, runStage2_eq_stage2]

theorem exec_mdrainCompletion {d : DrainOp}
    (hd : s.cores.findSome? (fun p => (p.2.drains.find? (fun d => d.id = id)).map (fun d => (p.1, d))) = some (core, d)) :
    exec (.mdrainCompletion id) s = .next
      (if d.dst = 6 && resultBlocked s d.team d.group ((List.range 4).map (fun k => RegName.v (d.vd + k))) then s else landDrain s core d) := by
  change execMdrainCompletion id s = _
  simp only [execMdrainCompletion, hd]

theorem mdrainCompletion_outcome {d : DrainOp}
    (hd : s.cores.findSome? (fun p => (p.2.drains.find? (fun d => d.id = id)).map (fun d => (p.1, d))) = some (core, d)) :
    (d.dst ≠ 6 ∨ resultBlocked s d.team d.group ((List.range 4).map (fun k => RegName.v (d.vd + k))) = false →
      Spec.Happens (.mdrainCompletion id) s (landDrain s core d)) ∧
    (d.dst = 6 → resultBlocked s d.team d.group ((List.range 4).map (fun k => RegName.v (d.vd + k))) = true →
      Spec.Happens (.mdrainCompletion id) s s) := by
  refine ⟨fun hfree => (exec_mdrainCompletion hd).trans (congrArg _ (if_neg ?_)),
    fun hdst hblocked => (exec_mdrainCompletion hd).trans (congrArg _ (if_pos ?_))⟩
  · rw [Bool.and_eq_true, decide_eq_true_eq, not_and_or, Bool.not_eq_true]
    exact hfree
  · rw [hblocked, Bool.and_true, decide_eq_true hdst]

end Landing

/-! ## Engine commands (R272, R280, R282) -/

section Commands

variable {team tl num : Nat} {k : Cmd}

theorem cmdOf_eq (ht : teamOf s team = some t) (hk : t.cmd tl num = some k) : cmdOf s team tl num = some (t, k) := by
  simp only [cmdOf, ht, Option.bind_some, hk, Option.map_some]

theorem completeCmd_not_landed (hk : k.landed = false) : completeCmd s team k = s := by
  simp only [completeCmd, hk, Bool.not_false, Bool.true_or, if_true]

theorem completeCmd_landed (hland : k.landed = true) (hsent : k.sent = []) (hfail : k.failed = none) (hstat : k.stat ≠ 1) :
    completeCmd s team k = modTeam s team (fun u =>
      (({ u with cmds := u.cmds.filter (fun d => !(d.tl = k.tl && d.num = k.num)) } : Team).tlComplete k.tl k.num).markLanded k.tl k.num) := by
  simp only [completeCmd, hland, hsent, hfail, hstat, List.all_nil, Bool.not_true, Bool.or_self, Bool.false_eq_true, if_false, List.foldl_nil]

theorem engineCommand_outcome (ht : teamOf s team = some t) (hk : t.cmd tl num = some k) (hres : t.resident = true) :
    (k.kind ≠ .coll → Spec.Happens (.copyDataLanding team tl num) s (landCmd s t k)) ∧
    (k.kind = .dcmp → Spec.Happens (.dcmpStreamEnd team tl num) s (checkEnd (completeNow (landCmd s t k) team tl num) team)) ∧
    (k.landed = false → Spec.Happens (.engineCommandCompletion team tl num) s (checkEnd s team)) ∧
    (k.landed = true → k.sent = [] → k.failed = none → k.stat ≠ 1 →
      Spec.Happens (.engineCommandCompletion team tl num) s (checkEnd (modTeam s team (fun u =>
        (({ u with cmds := u.cmds.filter (fun d => !(d.tl = k.tl && d.num = k.num)) } : Team).tlComplete k.tl k.num).markLanded k.tl k.num)) team)) := by
  have hcmd := cmdOf_eq ht hk
  have hcompletion : exec (.engineCommandCompletion team tl num) s = .next (checkEnd (completeCmd s team k) team) := by
    change execEngineCommandCompletion team tl num s = _
    simp only [execEngineCommandCompletion, hcmd, hres, if_true]
  refine ⟨fun hkind => ?_, fun hkind => ?_, fun hland => ?_, fun hland hsent hfail hstat => ?_⟩
  · change execCopyDataLanding team tl num s = _
    simp only [execCopyDataLanding, hcmd, hkind, hres, decide_false, Bool.not_true, Bool.or_self, Bool.false_eq_true, if_false]
  · change execDcmpStreamEnd team tl num s = _
    simp only [execDcmpStreamEnd, hcmd, hkind, hres, decide_true, Bool.and_self, if_true]
  · rw [Spec.Happens, hcompletion, completeCmd_not_landed hland]
  · rw [Spec.Happens, hcompletion, completeCmd_landed hland hsent hfail hstat]

variable {grid n : Nat}

theorem collArrival_none (h : ∀ x ∈ s.colls, x.grid = grid → x.k = n → collComplete s x = false) : Spec.Happens (.collArrival grid n) s s := by
  have hfind : s.colls.find? (fun x => x.grid = grid && x.k = n && collComplete s x) = none := by
    rw [List.find?_eq_none]
    intro x hx hall
    rw [Bool.and_eq_true, Bool.and_eq_true, decide_eq_true_eq, decide_eq_true_eq] at hall
    obtain ⟨⟨hgrid, hk⟩, hcomplete⟩ := hall
    rw [h x hx hgrid hk] at hcomplete
    cases hcomplete
  change execCollArrival grid n s = _
  simp only [execCollArrival, hfind]

theorem collArrival_some {x : Coll} (h : s.colls.find? (fun x => x.grid = grid && x.k = n && collComplete s x) = some x) :
    Spec.Happens (.collArrival grid n) s (x.issued.foldl (fun s y => checkEnd (completeNow s y.1 y.2.1 y.2.2) y.1) (runColl s x)) := by
  change execCollArrival grid n s = _
  simp only [execCollArrival, h]

end Commands

/-! ## A waiting group tries its instruction again (R250, R270) -/

section Again

variable {team gid va : Nat} (ht : teamOf s team = some t) (hg : groupOf s team gid = some g)

include ht hg

theorem exec_waitaReread {data base : BitVec 6} {uns wide : BitVec 1} {cond : BitVec 3} (hwait : g.wait = some (.waita va))
    (hf : fetchInstr s t g = (.ok (.waita data uns wide base cond), s₁)) :
    exec (.waitaReread team gid) s = exec (.waita data uns wide base cond) { s₁ with cur := (team, gid) } := by
  change execWaitaReread team gid s = _
  simp only [execWaitaReread, ht, hg, hwait, hf]
  rfl

theorem waitaReread_not_fetched (hwait : g.wait = some (.waita va)) (hf : ∀ i, (fetchInstr s t g).1 ≠ .ok i) :
    Spec.Happens (.waitaReread team gid) s s := by
  change execWaitaReread team gid s = _
  simp only [execWaitaReread, ht, hg, hwait]
  split
  · next hok => exact absurd (congrArg Prod.fst hok) (hf _)
  · rfl

theorem exec_xwaitMerge {m : BitVec 6} (hwait : g.wait = some .xwait) (hf : fetchInstr s t g = (.ok (.xwait m), s₁)) :
    exec (.xwaitMerge team gid) s = exec (.xwait m) { s₁ with cur := (team, gid) } := by
  change execXwaitMerge team gid s = _
  simp only [execXwaitMerge, ht, hg, hwait, hf]
  rfl

theorem again_not_waiting (hwait : g.wait = none) :
    Spec.Happens (.waitaReread team gid) s s ∧ Spec.Happens (.xwaitMerge team gid) s s := by
  refine ⟨?_, ?_⟩
  · change execWaitaReread team gid s = _
    simp only [execWaitaReread, ht, hg, hwait]
  · change execXwaitMerge team gid s = _
    simp only [execXwaitMerge, ht, hg, hwait]

end Again

/-- Settles O50: each unit by the tests of its event, and the two that try a waiting instruction again by what WAITA and XWAIT do. -/
theorem unitEvents : Obligations.UnitEvents := by
  refine ⟨fun _ _ _ _ hclosed hawake => arrayPass_outcome hclosed hawake,
    fun _ _ _ _ hopen hdue hnext => passTimeout_outcome hopen hdue hnext,
    fun _ _ _ hsub hon hidle hopen hclosed hawake => subarrayGate_outcome hsub hon hidle hopen hclosed hawake,
    fun _ _ _ hclosed hgated => subarrayWake_outcome hclosed hgated, fun _ _ _ _ ho => predicateCompletion_outcome ho,
    fun _ _ _ _ hd => mdrainCompletion_outcome hd, fun _ _ _ _ _ _ ht hk hres => engineCommand_outcome ht hk hres,
    fun _ _ _ h => collArrival_none h, fun _ _ _ _ h => collArrival_some h, ?_,
    fun _ _ _ _ _ _ ht hg hwait hf => waitaReread_not_fetched ht hg hwait hf, ?_, fun _ _ _ _ _ ht hg hwait => again_not_waiting ht hg hwait⟩
  · intro team gid va t g data uns wide base cond s s₁ c s₂ s₃ s₄ acc x bs ht hg hwait hf h hcheck hfree hentry hback hp
    obtain ⟨-, hreads⟩ := waitOnAddress data base uns wide cond _ c s₂ acc x s₃ s₄ bs h hcheck
    obtain ⟨hdone, -⟩ := hreads hfree hentry hback
    intro w v
    have hread := hdone hp
    rw [Spec.Happens, exec_waitaReread ht hg hwait hf]
    split
    · next hcond => exact (if_pos hcond).mp hread
    · next hcond => exact (if_neg hcond).mp hread
  · intro team gid t g m s s₁ c s₂ all ht hg hwait hf h hn hmet
    exact (exec_xwaitMerge ht hg hwait hf).trans (xwait_completes hn h hmet)

end Sys2Proof.Proofs
end

