-- ==== Sys2Proof/Proofs/PageEvents.lean ====
section
/-! PROOFS. Walks, page moves, promotions and stash sweeps (R249, R358, R360, R366, R369, R372, R375, R403, R412). -/

namespace Sys2Proof.Proofs

open Machine

variable {s s₁ s₂ : State} {t : Team} {m : Move} {l : Leaf} {mv core aspace vpage part : Nat}

theorem pageWalk_outcome {ad lv : Nat} (hmiss : stashFind s core aspace (vpage * 4096) = none) (hpool : inPool (vpage * 4096) = false)
    (hd : walkDescriptor s (partOfCluster s.layout (clusterOfCore core)) aspace = (.ok ad, s₁))
    (hw : walkRoot true s₁ (partOfCluster s.layout (clusterOfCore core)) aspace ad (vpage * 4096) = (.leaf l lv, s₂)) :
    Spec.Happens (.pageWalk core aspace vpage) s (stashInstall s₂ core aspace (vpage * 4096) l) := by
  change execPageWalk core aspace vpage s = _
  simp only [execPageWalk, hmiss, hpool, hd, hw, Option.isSome_none, Bool.or_self, Bool.false_eq_true, if_false]

/-! ## Sectors on their way (R403, R428) -/

theorem meetAll_sound {l : List (Nat × Bool)} (h : ∀ b ∈ l, busWorn s b.1 = false) : meetAll l s = (false, s) := by
  induction l with
  | nil => rfl
  | cons b l ih =>
    rw [List.forall_mem_cons] at h
    obtain ⟨hb, hl⟩ := h
    simp only [meetAll, meetEcc, hb, Bool.not_false, if_true]
    exact ih hl

theorem carried_sound {l : List (Nat × Bool)} (h : ∀ b ∈ l, busWorn s b.1 = false) (bs : List Byte) : carried s l bs = (bs, s) := by
  simp only [carried, meetAll_sound h]

theorem sendSectors_sound {src : Place} (h : ∀ b ∈ shelfBus src, busWorn s b.1 = false) (again : Bool) (l : List Nat) :
    sendSectors s src again l = (l.map (fun k => (k, (frameAt s src).dirty.getLsbD k, again,
      writeBytes [] 0 (readBytes (frameAt s src).data (16 * k) 16))), s) := by
  induction l with
  | nil => rfl
  | cons k l ih => simp only [sendSectors, carried_sound h, ih, List.map_cons]

@[simp] theorem meetEcc_moves (s : State) (bus : Nat) (shelf : Bool) : (meetEcc s bus shelf).2.moves = s.moves := by
  unfold meetEcc
  split <;> rfl

@[simp] theorem meetAll_moves (l : List (Nat × Bool)) (s : State) : (meetAll l s).2.moves = s.moves := by
  induction l generalizing s with
  | nil => rfl
  | cons b l ih =>
    have hmoves := meetEcc_moves s b.1 b.2
    rw [meetAll]
    split
    · next u hu => rw [hu] at hmoves; exact hmoves
    · next u hu => rw [hu] at hmoves; exact (ih u).trans hmoves

@[simp] theorem carried_moves (s : State) (l : List (Nat × Bool)) (bs : List Byte) : (carried s l bs).2.moves = s.moves := by
  have hmoves := meetAll_moves l s
  rw [carried]
  split
  · next u hu => rw [hu] at hmoves; exact hmoves
  · next u hu => rw [hu] at hmoves; exact hmoves

@[simp] theorem modFrame_moves (s : State) (p : Place) (f : Frame → Frame) : (modFrame s p f).moves = s.moves := by
  cases p <;> rfl

/-! ## The steps of a move (R366, R403) -/

section Move

variable (hm : nmGet mv s.moves = some m)

include hm

theorem frameSeal_outcome (hopen : m.sealed = false) (hrewritten : m.rewritten = true) :
    Spec.Happens (.frameSeal mv) s (freeFrame (sendRecalls
      { (sendSectors s m.src true (sectorsOf (frameAt s m.src).dirty)).2 with
        moves := nmModify mv (fun x => { x with
          sealed := true, sectors := x.sectors ++ (sendSectors s m.src true (sectorsOf (frameAt s m.src).dirty)).1,
          resent := (sendSectors s m.src true (sectorsOf (frameAt s m.src).dirty)).1.length })
          (sendSectors s m.src true (sectorsOf (frameAt s m.src).dirty)).2.moves }
      m.part (frameAt s m.src).hold m.aspace m.vpage m.src) m.src) := by
  change execFrameSeal mv s = _
  simp only [execFrameSeal, sealMove, modMove, hm, hopen, hrewritten, Bool.not_true, Bool.or_self, Bool.false_eq_true, if_false]

theorem sealNotice_outcome (hsealed : m.sealed = true) :
    Spec.Happens (.sealNotice mv) s (if isFrame m.dst = true ∧ m.resent = 0 then
      modFrame { s with moves := nmModify mv (fun m => if m.sealed then { m with notice := true } else m) s.moves } m.dst
        (fun f => { f with srcSealed := true })
      else { s with moves := nmModify mv (fun m => if m.sealed then { m with notice := true } else m) s.moves }) := by
  change execSealNotice mv s = _
  simp only [execSealNotice, noticeMove, modMove, nmGet_nmModify_self, hm, Option.map_some, hsealed, if_true, sealedAt, Bool.and_true,
    Bool.and_eq_true, decide_eq_true_eq]

theorem sectorLanding_outcome {sec : Nat} {x : Nat × Bool × Bool × Memory} (hx : m.sectors.find? (·.1 = sec) = some x) (hdst : isFrame m.dst = true) :
    let left := if x.2.2.1 then m.resent - 1 else m.resent
    let r := carried { s with moves := nmModify mv (fun m => { m with
        sectors := m.sectors.erase x, resent := if x.2.2.1 then m.resent - 1 else m.resent }) s.moves } (shelfBus m.dst) (readBytes x.2.2.2 0 16)
    let s₁ := modFrame r.2 m.dst (fun f => { f with
      data := writeBytes f.data (16 * sec) r.1
      valid := f.valid ||| BitVec.ofNat 256 (2 ^ sec)
      dirty := if x.2.1 then f.dirty ||| BitVec.ofNat 256 (2 ^ sec) else f.dirty })
    Spec.Happens (.sectorLanding mv sec) s (if m.notice = true ∧ left = 0 then
      modFrame s₁ m.dst (fun f => { f with srcSealed := true }) else s₁) := by
  intro left r s₁
  have hland : landSector s mv sec = s₁ := by simp only [landSector, hm, hx, hdst, if_true, modMove, s₁, r]
  have hhost : m.toHost = false := by simp [Move.toHost, hdst]
  have hmoved : nmGet mv s₁.moves = some { m with sectors := m.sectors.erase x, resent := left } := by
    simp only [s₁, r, modFrame_moves, carried_moves, nmGet_nmModify_self, hm, Option.map_some, left]
  change execSectorLanding mv sec s = _
  simp only [execSectorLanding, hm, hhost, Bool.false_and, Bool.false_eq_true, if_false, hland, hmoved, sealedAt, hdst, Bool.true_and,
    Bool.and_eq_true, decide_eq_true_eq]

theorem moveDone_waits (hnot : m.sealed = false ∨ m.sectors ≠ [] ∨ m.notice = false) : Spec.Happens (.moveDone mv) s s := by
  have hstays : finishMove s mv = s := by
    simp only [finishMove, hm]
    rw [if_pos]
    obtain hopen | hleft | hquiet := hnot
    · simp [hopen]
    · simp [hleft]
    · simp [hquiet]
  change execMoveDone mv s = _
  simp only [execMoveDone, hm, hstays, Option.isNone_some, Bool.false_eq_true, if_false]

theorem moveDone_ends (hsealed : m.sealed = true) (hlanded : m.sectors = []) (hnotice : m.notice = true) :
    let s₁ : State := { s with moves := nmDel mv s.moves }
    let s₂ := wakeParked (if isFrame m.dst = true then modFrame (sealedAt s₁ m) m.dst (fun f => { f with state := .resident })
      else cameHome (setResidence s₁ m.hclu m.hpage none) m.part m.aspace m.vpage) mv [m.src, m.dst, .home m.hclu m.hpage]
    Spec.Happens (.moveDone mv) s (if (nmGet mv s₂.moves).isNone then followHome s₂ m else s₂) := by
  intro s₁ s₂
  have hfinish : finishMove s mv = s₂ := by
    simp only [finishMove, hm, hsealed, hlanded, hnotice, List.isEmpty_nil, Bool.not_true, Bool.or_self, Bool.false_eq_true, if_false, s₂, s₁]
  change execMoveDone mv s = _
  simp only [execMoveDone, hm, hfinish]

end Move

/-! ## What an agent decides (R249, R375, R412) -/

section Agent

theorem pageMove_home (hl : leafNow s part aspace (vpage * 4096) = some l) :
    Spec.Happens (.pageMove part aspace vpage .home) s (moveHome s part aspace vpage false) := by
  change execPageMove part aspace vpage .home s = _
  simp only [execPageMove, hl]

theorem exec_pageMove_near {team : Nat} (hl : leafNow s part aspace (vpage * 4096) = some l)
    (ht : s.teams.find? (fun t => t.2.resident && t.2.core = core && t.2.part = part && t.2.aspace = aspace) = some (team, t)) :
    exec (.pageMove part aspace vpage (.near core)) s = .next (if wantedNear s part core aspace vpage l then
      placeNear (modCore s core (fun x => { x with touches := nmDel (aspace * 2 ^ 36 + vpage) x.touches })) part core team aspace vpage false else s) := by
  change execPageMove part aspace vpage (.near core) s = _
  simp only [execPageMove, hl, promoteNear, ht]

theorem wantedNear_of_not_external (hl : ∀ idx, l.place ≠ .ext idx) : wantedNear s part core aspace vpage l =
    decide ((clusterOf s (clusterOfCore core)).touchThresh ≤ nmGetD (coreOf s core).touches (aspace * 2 ^ 36 + vpage) 0) := by
  unfold wantedNear
  split
  · next idx hidx => exact absurd hidx (hl idx)
  · rfl

theorem wantedNear_of_external {idx : Nat} (hl : l.place = .ext idx) :
    wantedNear s part core aspace vpage l = (ownedPage s part idx (vpage * 4096)).isSome := by
  simp only [wantedNear, hl]

variable {c h cl : Nat} (hplace : l.place = .home c h)

include hplace

theorem wantedBy_of_home : wantedBy s l = nmGet h (clusterOf s c).wanted := by simp only [wantedBy, hplace]

theorem promoteFar_of_home : promoteFar s part aspace vpage cl l =
    placeFar (modCluster s c (fun x => { x with touches := nmDel h x.touches, wanted := nmDel h x.wanted })) part aspace vpage (some cl) := by
  simp only [promoteFar, hplace]

theorem touchPromotion_home {team : Nat}
    (ht : s.teams.find? (fun t => t.2.resident && t.2.core = core && t.2.aspace = aspace) = some (team, t))
    (hl : leafNow s t.part aspace (vpage * 4096) = some l) (hwanted : nmGet h (clusterOf s c).wanted = some (clusterOfCore core)) :
    Spec.Happens (.touchPromotion core aspace vpage) s
      (placeFar (modCluster s c (fun x => { x with touches := nmDel h x.touches, wanted := nmDel h x.wanted })) t.part aspace vpage
        (some (clusterOfCore core))) := by
  change execTouchPromotion core aspace vpage s = _
  simp only [execTouchPromotion, ht, hl, wantedBy_of_home hplace, hwanted, if_true, promoteFar_of_home hplace]

theorem pageMove_far (hl : leafNow s part aspace (vpage * 4096) = some l) (hwanted : nmGet h (clusterOf s c).wanted = some cl)
    (hcl : inPartition s part cl = true) :
    Spec.Happens (.pageMove part aspace vpage (.far cl (h % 96))) s
      (placeFar (modCluster s c (fun x => { x with touches := nmDel h x.touches, wanted := nmDel h x.wanted })) part aspace vpage (some cl)) := by
  change execPageMove part aspace vpage (.far cl (h % 96)) s = _
  simp only [execPageMove, hl, homeOf, hplace, hcl, wantedBy_of_home hplace, hwanted, promoteFar_of_home hplace, decide_true, Bool.and_self, if_true]

end Agent

/-! ## The sweep of a cluster's stashes (R372) -/

theorem nmGet_map_of_keys {α : Type} {f : Nat × α → Nat × α} (hf : ∀ p, (f p).1 = p.1) (k : Nat) (m : NMap α) :
    nmGet k (m.map f) = (nmGet k m).map (fun v => (f (k, v)).2) := by
  induction m with
  | nil => rfl
  | cons p m ih =>
    obtain ⟨j, v⟩ := p
    have hj : f (j, v) = (j, (f (j, v)).2) := Prod.ext (hf (j, v)) rfl
    rw [List.map_cons, hj, nmGet, nmGet, ih]
    by_cases hk : k = j
    · subst hk; rw [if_pos rfl, if_pos rfl, Option.map_some]
    · rw [if_neg hk, if_neg hk]

/-- A part of every entry of a table changes as `g` says, and the default's part is what `g` makes of it. -/
theorem nmGetD_map_part {α β : Type} {f : Nat × α → Nat × α} {part : α → β} {g : β → β} {d : α} {k : Nat} (hf : ∀ p, (f p).1 = p.1)
    (hpart : ∀ v, part (f (k, v)).2 = g (part v)) (hd : g (part d) = part d) (m : NMap α) :
    part (nmGetD (m.map f) k d) = g (part (nmGetD m k d)) := by
  rw [nmGetD, nmGetD, nmGet_map_of_keys hf]
  cases nmGet k m with
  | none => exact hd.symm
  | some v => exact hpart v

/-- A frame leaves quarantine when the sweep of `s` has been the second on every cluster of its partition. -/
def leaveQuarantine (s : State) (cl : Nat) (f : Frame) : Frame :=
  if f.state = .quarantined && (partClusters s.layout (partOfCluster s.layout cl)).all (fun k => f.sweeps.getD k 0 + 2 ≤ (clusterOf s k).sweeps)
  then { f with state := .free, sweeps := [] } else f

/-- The colour of a cluster has flipped and one more sweep is counted. -/
def sweptCluster (s : State) (cluster : Nat) : State :=
  modCluster s cluster (fun x => { x with colour := !x.colour, sweeps := x.sweeps + 1, lastSweep := x.cycle })

/-- The stash of a core of the cluster has only its entries of the old colour. -/
def sweptCore (s : State) (cluster : Nat) (p : Nat × Core) : Nat × Core :=
  if clusterOfCore p.1 = cluster then (p.1, { p.2 with stash := p.2.stash.filter (fun e => e.colour = (clusterOf s cluster).colour) }) else p

def sweptStashes (s : State) (cluster : Nat) : State :=
  { sweptCluster s cluster with cores := (sweptCluster s cluster).cores.map (sweptCore s cluster) }

/-- A core, and a cluster, whose frames leave quarantine if they can. -/
def releasedCore (s : State) (p : Nat × Core) : Nat × Core :=
  (p.1, { p.2 with nears := p.2.nears.map (fun q => (q.1, leaveQuarantine s (clusterOfCore p.1) q.2)) })
def releasedCluster (s : State) (p : Nat × Cluster) : Nat × Cluster :=
  (p.1, { p.2 with slices := p.2.slices.map (fun sl => (sl.1, sl.2.map (fun q => (q.1, leaveQuarantine s p.1 q.2)))) })

/-- The state after the sweep of a cluster. -/
def swept (s : State) (cluster : Nat) : State :=
  { sweptStashes s cluster with
    cores := (sweptStashes s cluster).cores.map (releasedCore (sweptStashes s cluster))
    clusters := (sweptStashes s cluster).clusters.map (releasedCluster (sweptStashes s cluster)) }

section Sweep

variable {cluster : Nat}

theorem stashSweep_happens (hdue : (clusterOf s cluster).lastSweep + 2 ^ 20 ≤ (clusterOf s cluster).cycle)
    (hquiet : ∀ m ∈ s.flight, (∃ r bs, m.2 = .result r bs) ∨ (∃ r, m.2 = .bounced r) ∨ (∃ r mv, m.2 = .parked r mv) ∨ m.2.req = none ∨
      (∃ r, m.2.req = some r ∧ (r.foreign = true ∨ clusterOfCore r.core ≠ cluster))) :
    Spec.Happens (.stashSweep cluster) s (swept s cluster) := by
  change execStashSweep cluster s = _
  rw [execStashSweep]
  refine congrArg _ (if_neg ?_)
  rw [Bool.or_eq_true, decide_eq_true_eq, not_or, List.any_eq_true]
  refine ⟨Nat.not_lt.2 hdue, ?_⟩
  rintro ⟨⟨id, x⟩, hx, hbusy⟩
  obtain ⟨r, bs, rfl⟩ | ⟨r, rfl⟩ | ⟨r, mv, rfl⟩ | hreq | ⟨r, hreq, haway⟩ := hquiet _ hx
  · cases hbusy
  · cases hbusy
  · cases hbusy
  · revert hbusy hreq
    cases x <;> simp [Msg.req]
  · revert hbusy
    have hno : (!r.foreign && decide (clusterOfCore r.core = cluster)) = false := by
      obtain hforeign | hother := haway
      · simp [hforeign]
      · simp [hother]
    cases x <;> simp_all [Msg.req]

theorem clusterOf_swept (s : State) (cluster : Nat) : (clusterOf (swept s cluster) cluster).colour = !(clusterOf s cluster).colour ∧
    (clusterOf (swept s cluster) cluster).sweeps = (clusterOf s cluster).sweeps + 1 := by
  have hself : clusterOf (sweptCluster s cluster) cluster = { clusterOf s cluster with
      colour := !(clusterOf s cluster).colour, sweeps := (clusterOf s cluster).sweeps + 1, lastSweep := (clusterOf s cluster).cycle } :=
    clusterOf_modCluster_self s cluster _
  refine ⟨?_, ?_⟩
  · refine (nmGetD_map_part (f := releasedCluster (sweptStashes s cluster)) (part := Cluster.colour) (g := id) (fun _ => rfl) (fun _ => rfl) rfl _).trans ?_
    exact congrArg Cluster.colour hself
  · refine (nmGetD_map_part (f := releasedCluster (sweptStashes s cluster)) (part := Cluster.sweeps) (g := id) (fun _ => rfl) (fun _ => rfl) rfl _).trans ?_
    exact congrArg Cluster.sweeps hself

theorem sweptCore_fst (s : State) (cluster : Nat) (p : Nat × Core) : (sweptCore s cluster p).1 = p.1 := by
  unfold sweptCore
  split <;> rfl

/-- A sweep's frames leave the stashes alone. -/
theorem coreOf_swept_stash (s : State) (cluster core : Nat) :
    (coreOf (swept s cluster) core).stash = (nmGetD (s.cores.map (sweptCore s cluster)) core .blank).stash :=
  nmGetD_map_part (f := releasedCore (sweptStashes s cluster)) (part := Core.stash) (g := id) (fun _ => rfl) (fun _ => rfl) rfl _

theorem stash_swept (hcore : clusterOfCore core = cluster) : (coreOf (swept s cluster) core).stash =
    (coreOf s core).stash.filter (fun e => e.colour = (clusterOf s cluster).colour) := by
  rw [coreOf_swept_stash]
  refine nmGetD_map_part (part := Core.stash) (g := fun l => l.filter (fun e => e.colour = (clusterOf s cluster).colour))
    (sweptCore_fst s cluster) (fun v => ?_) rfl s.cores
  simp only [sweptCore, hcore, if_true]

theorem stash_swept_elsewhere (hcore : clusterOfCore core ≠ cluster) : (coreOf (swept s cluster) core).stash = (coreOf s core).stash := by
  rw [coreOf_swept_stash]
  refine nmGetD_map_part (part := Core.stash) (g := id) (sweptCore_fst s cluster) (fun v => ?_) rfl s.cores
  simp only [sweptCore, hcore, if_false, id]

end Sweep

/-- Settles O51: each event of a page by the tests that it makes; a sweep by what it leaves of each table's entries. -/
theorem pageEvents : Obligations.PageEvents := by
  refine ⟨⟨fun _ _ _ _ _ _ _ _ _ hmiss hpool hd hw => pageWalk_outcome hmiss hpool hd hw, ?_,
    fun _ _ _ hm hsealed => sealNotice_outcome hm hsealed, fun _ _ _ _ _ hm hx hdst => sectorLanding_outcome hm hx hdst,
    fun _ _ bs h => carried_sound h bs, fun _ _ _ hm => ⟨fun h => moveDone_waits hm (.inl h), fun _ h => moveDone_waits hm (.inr (.inl h))⟩,
    fun _ _ _ _ _ hl => pageMove_home hl, ?_, ?_, ?_⟩, ?_⟩
  · intro mv m s hm hopen hrewritten f again s₁
    refine ⟨fun hsound => ?_, frameSeal_outcome hm hopen hrewritten⟩
    have hsend := sendSectors_sound hsound true (sectorsOf f.dirty)
    exact ⟨congrArg Prod.snd hsend, congrArg Prod.fst hsend⟩
  · intro part aspace vpage core team t l s hl ht key promoted
    have hexec := exec_pageMove_near hl ht
    refine ⟨fun hin htouched => ?_, fun hin hfew => ?_, fun idx hidx hnone => ?_, fun idx w hidx hw => ?_⟩
    · rw [Spec.Happens, hexec, wantedNear_of_not_external hin, if_pos (decide_eq_true htouched)]
    · rw [Spec.Happens, hexec, wantedNear_of_not_external hin, if_neg (by rw [decide_eq_true_eq]; exact Nat.not_le.2 hfew)]
    · rw [Spec.Happens, hexec, wantedNear_of_external hidx, hnone, Option.isSome_none, if_neg Bool.false_ne_true]
    · rw [Spec.Happens, hexec, wantedNear_of_external hidx, hw, Option.isSome_some, if_pos rfl]
  · intro core aspace vpage team c h t l s ht hl hplace counted
    exact ⟨fun hwanted => touchPromotion_home hplace ht hl hwanted, fun cl hwanted hcl => pageMove_far hplace hl hwanted hcl⟩
  · intro cluster s hdue hquiet
    obtain ⟨hcolour, hsweeps⟩ := clusterOf_swept s cluster
    exact ⟨swept s cluster, stashSweep_happens hdue hquiet, hcolour, hsweeps, fun _ hcore => stash_swept hcore,
      fun _ hcore => stash_swept_elsewhere hcore⟩
  · intro mv m s hm hsealed hlanded
    exact ⟨fun hquiet => moveDone_waits hm (.inr (.inr hquiet)), fun hnotice => moveDone_ends hm hsealed hlanded hnotice⟩

end Sys2Proof.Proofs
end

