-- ==== Sys2Proof/Proofs/DispatcherEvents.lean ====
section
/-! PROOFS. The dispatcher of a halted partition, completion words and swap-out (R351, R381, R382, R393). -/

namespace Sys2Proof.Proofs

open Machine

variable {s s₁ s₂ : State} {t : Team}

theorem dispatchPart_idle {part : Nat} (h : (partOf s part).halted = true ∨ s.mgmt.recovery = true) : dispatchPart s part = s := by
  rw [dispatchPart, if_pos]
  obtain h | h := h <;> simp [h]

section GridCompletion

variable {grid : Nat} {g : Grid} (hg : nmGet grid s.grids = some g)

include hg

theorem gridCompletion_waits (h : g.finished = false ∨ gridSettled s g = false) : Spec.Happens (.gridCompletion grid) s s := by
  change execGridCompletion grid s = _
  simp only [execGridCompletion, completeGrid, hg]
  rw [if_pos]
  obtain h | h := h <;> simp [h]

theorem gridCompletion_completes (hfinished : g.finished = true) (hsettled : gridSettled s g = true) :
    let s₁ := if g.rec_.done = 0 ∨ (partOf s g.part).halted = true then s
      else devPut s g.part g.rec_.aspace ((partClusters s.layout g.part).headD 0) g.rec_.done
        (natBytes 8 ((grid % 2 ^ 32) * 2 ^ 32 + (if g.killed then 2 else 1)))
    Spec.Happens (.gridCompletion grid) s { s₁ with grids := nmDel grid s₁.grids } := by
  change execGridCompletion grid s = _
  simp only [execGridCompletion, completeGrid, hg, hfinished, hsettled, Bool.not_true, Bool.or_self, Bool.false_eq_true, if_false,
    Bool.or_eq_true, decide_eq_true_eq]

end GridCompletion

section SwapOut

variable {team : Nat} (ht : teamOf s team = some t)

include ht

theorem swapOut_waits (h : t.stopping = false ∨ t.resident = false ∨ (partOf s t.part).halted = true) : Spec.Happens (.swapOut team) s s := by
  change execSwapOut team s = _
  simp only [execSwapOut, ht]
  rw [if_pos]
  obtain h | h | h := h <;> simp [h]

variable (hstop : t.stopping = true) (hres : t.resident = true) (hrun : (partOf s t.part).halted = false) (hgang : t.gang = false)

include hstop hres hrun hgang

/-- The swap-out of a team that is alone: what it could finish is finished, and it goes if it is quiet. -/
theorem exec_swapOut : exec (.swapOut team) s = .next (
    let s := finishTeam (stopTeam s team 4) team
    if ([team].filterMap (teamOf s)).all (quiet s) then
      let s₁ := ([team].filterMap (teamOf s)).foldl (fun s (t : Team) => (t.cmds.filter (fun c => !c.landed)).foldl (fun s c =>
        resetCmd (spoilCmd s t.id c.tl c.num) t.id c) s) s
      (swapTeams s₁ (([team].filterMap (teamOf s₁)).map (fun t => if t.saveWhy = 2 && childOver t then { t with saveWhy := 1 } else t)) false).getD s
    else s) := by
  change execSwapOut team s = _
  simp only [execSwapOut, ht, hstop, hres, hrun, hgang, Bool.not_true, Bool.or_self, Bool.false_eq_true, if_false]
  rfl

variable {t₁ : Team} (ht₁ : teamOf (finishTeam (stopTeam s team 4) team) team = some t₁)

include ht₁

theorem swapOut_not_quiet (hquiet : quiet (finishTeam (stopTeam s team 4) team) t₁ = false) :
    Spec.Happens (.swapOut team) s (finishTeam (stopTeam s team 4) team) := by
  rw [Spec.Happens, exec_swapOut ht hstop hres hrun hgang]
  simp only [List.filterMap_cons, ht₁, List.filterMap_nil, List.all_cons, hquiet, Bool.false_and, Bool.false_eq_true, if_false]

theorem swapOut_leaves (hquiet : quiet (finishTeam (stopTeam s team 4) team) t₁ = true) (hcmds : t₁.cmds = []) (hwhy : t₁.saveWhy ≠ 2)
    (hswap : swapTeams (finishTeam (stopTeam s team 4) team) [t₁] false = some s₂) : Spec.Happens (.swapOut team) s s₂ := by
  rw [Spec.Happens, exec_swapOut ht hstop hres hrun hgang]
  simp only [List.filterMap_cons, ht₁, List.filterMap_nil, List.all_cons, List.all_nil, hquiet, Bool.and_self, if_true, List.foldl_cons,
    List.foldl_nil, hcmds, List.filter_nil, List.map_cons, List.map_nil, hwhy, decide_false, Bool.false_and, Bool.false_eq_true, if_false,
    hswap, Option.getD_some]

end SwapOut

/-- Settles O52: each event by the tests that it makes before it acts. -/
theorem dispatcherEvents : Obligations.DispatcherEvents := by
  refine ⟨fun part s => ⟨rfl, fun h => congrArg _ (dispatchPart_idle h)⟩,
    fun _ _ _ hg => ⟨gridCompletion_waits hg, gridCompletion_completes hg⟩,
    fun _ _ _ ht => ⟨swapOut_waits ht, fun hstop hres hrun hgang => ?_⟩⟩
  intro s₁ t₁ ht₁
  exact ⟨swapOut_not_quiet ht hstop hres hrun hgang ht₁, fun _ hquiet hcmds hwhy hswap =>
    swapOut_leaves ht hstop hres hrun hgang ht₁ hquiet hcmds hwhy hswap⟩

end Sys2Proof.Proofs
end

