-- ==== Sys2Proof/Proofs/ManagementEvents.lean ====
section
/-! PROOFS. The management block: firmware images, SPDM answers, column sensors and the bus test (R418 to R421, R423 to R428). -/

namespace Sys2Proof.Proofs

open Machine

variable {s : State}

/-! ## Firmware images (R418 to R420) -/

/-- The staged image: what its header says is its length, if the window holds that much. -/
def stagedImage (m : Mgmt) : List Byte :=
  if fwSize (readBytes m.staging 0 1024) ≤ 0x800000 then readBytes m.staging 0 (fwSize (readBytes m.staging 0 1024)) else readBytes m.staging 0 1024

/-- The slot of the image's kind that is not running, or slot A in recovery. -/
def storeSlot (m : Mgmt) (kind : Nat) : Nat :=
  if m.recovery then 0 else 1 - (m.runningSlots.findSome? (fun x => if x.1 = kind then some x.2 else none)).getD 1

/-- The management block after a staged image has been checked, and stored if it passed. -/
def storedMgmt (m : Mgmt) (hold : Bool) : Mgmt :=
  let img := stagedImage m
  let res := fwCheck m.minSvn img
  let kind := fwField img 4 1
  { m with
    fwCmd := 1, fwBusy := hold, fwPending := res, fwResult := if hold then m.fwResult else res
    slots := if res = 0 then (kind, storeSlot m kind, img) :: m.slots.filter (fun x => ¬(x.1 = kind ∧ x.2.1 = storeSlot m kind)) else m.slots
    latest := if res = 0 then nmPut kind (storeSlot m kind) m.latest else m.latest }

@[simp] theorem popHold_mgmt (s : State) : (popHold s).2.mgmt = s.mgmt := by
  unfold popHold
  split <;> rfl

theorem fwStoreStagedImage_happens (hio : hostIo s = true) (hidle : s.mgmt.fwBusy = false) :
    Spec.Happens .fwStoreStagedImage s { (popHold s).2 with mgmt := storedMgmt s.mgmt (popHold s).1 } := by
  change execFwStoreStagedImage s = _
  simp only [execFwStoreStagedImage, hio, hidle, Bool.not_true, Bool.or_self, Bool.false_eq_true, if_false]
  rw [modMgmt, popHold_mgmt]
  rfl

theorem fwSlot_cons (m : Mgmt) (kind slot : Nat) (img : List Byte) (l : List (Nat × Nat × List Byte)) (k sl : Nat) :
    fwSlot { m with slots := (kind, slot, img) :: l } k sl = if kind = k ∧ slot = sl then img else fwSlot { m with slots := l } k sl := by
  unfold fwSlot
  rw [List.findSome?_cons]
  by_cases h : kind = k ∧ slot = sl
  · rw [if_pos h, if_pos h, Option.getD_some]
  · rw [if_neg h, if_neg h]

/-- The copies of the other slots stay when one slot's copies go. -/
theorem fwSlot_filter_ne {kind slot k sl : Nat} (hne : (k, sl) ≠ (kind, slot)) (m : Mgmt) :
    fwSlot { m with slots := m.slots.filter (fun x => ¬(x.1 = kind ∧ x.2.1 = slot)) } k sl = fwSlot m k sl := by
  unfold fwSlot
  dsimp only
  congr 1
  induction m.slots with
  | nil => rfl
  | cons x l ih =>
    by_cases hx : x.1 = kind ∧ x.2.1 = slot
    · have hother : ¬(x.1 = k ∧ x.2.1 = sl) := fun h => hne (Prod.ext (h.1.symm.trans hx.1) (h.2.symm.trans hx.2))
      rw [List.filter_cons_of_neg (by simpa using hx), List.findSome?_cons, if_neg hother]
      exact ih
    · rw [List.filter_cons_of_pos (by rw [decide_eq_true_eq]; exact hx), List.findSome?_cons, List.findSome?_cons, ih]

section Stored

variable {m : Mgmt} {hold : Bool}

theorem storedMgmt_refused (hbad : fwCheck m.minSvn (stagedImage m) ≠ 0) : (storedMgmt m hold).slots = m.slots := by
  simp only [storedMgmt, if_neg hbad]

variable (hgood : fwCheck m.minSvn (stagedImage m) = 0)

include hgood

theorem slots_storedMgmt : (storedMgmt m hold).slots = (fwField (stagedImage m) 4 1, storeSlot m (fwField (stagedImage m) 4 1), stagedImage m) ::
    m.slots.filter (fun x => ¬(x.1 = fwField (stagedImage m) 4 1 ∧ x.2.1 = storeSlot m (fwField (stagedImage m) 4 1))) := by
  simp only [storedMgmt, if_pos hgood]

theorem latest_storedMgmt : nmGet (fwField (stagedImage m) 4 1) (storedMgmt m hold).latest = some (storeSlot m (fwField (stagedImage m) 4 1)) := by
  simp only [storedMgmt, if_pos hgood, nmGet_nmPut_self]

theorem fwSlot_storedMgmt (k sl : Nat) : fwSlot (storedMgmt m hold) k sl =
    if fwField (stagedImage m) 4 1 = k ∧ storeSlot m (fwField (stagedImage m) 4 1) = sl then stagedImage m else fwSlot m k sl := by
  rw [fwSlot, slots_storedMgmt hgood]
  refine (fwSlot_cons m _ _ _ _ k sl).trans ?_
  by_cases h : fwField (stagedImage m) 4 1 = k ∧ storeSlot m (fwField (stagedImage m) 4 1) = sl
  · rw [if_pos h, if_pos h]
  · rw [if_neg h, if_neg h]
    exact fwSlot_filter_ne (fun heq => h ⟨(congrArg Prod.fst heq).symm, (congrArg Prod.snd heq).symm⟩) m

/-- The next power-on picks the stored copy: it was stored last and passes its check. -/
theorem fwPick_freshen_stored {u : State} (hu : u.mgmt = storedMgmt m hold) :
    fwPick (freshen u).mgmt (fwField (stagedImage m) 4 1) = some (storeSlot m (fwField (stagedImage m) 4 1), stagedImage m) := by
  have hlatest : nmGet (fwField (stagedImage m) 4 1) (freshen u).mgmt.latest = some (storeSlot m (fwField (stagedImage m) 4 1)) := by
    rw [← latest_storedMgmt hgood (hold := hold), ← hu]; rfl
  have hslot : fwSlot (freshen u).mgmt (fwField (stagedImage m) 4 1) (storeSlot m (fwField (stagedImage m) 4 1)) = stagedImage m := by
    have hsame : ∀ k sl, fwSlot (freshen u).mgmt k sl = fwSlot u.mgmt k sl := fun _ _ => rfl
    rw [hsame, hu, fwSlot_storedMgmt hgood, if_pos ⟨rfl, rfl⟩]
  have hsvn : (freshen u).mgmt.minSvn = m.minSvn := by
    change u.mgmt.minSvn = _
    rw [hu]; rfl
  rw [fwPick, hlatest, Option.toList_some, List.singleton_append, List.find?_cons_of_pos (by simp [hslot, hsvn, hgood]), Option.map_some, hslot]

theorem stored_into {u : State} (hu : u.mgmt = storedMgmt m hold) {slot : Nat} (hslot : storeSlot m (fwField (stagedImage m) 4 1) = slot) :
    fwSlot u.mgmt (fwField (stagedImage m) 4 1) slot = stagedImage m ∧
    (∀ k sl, (k, sl) ≠ (fwField (stagedImage m) 4 1, slot) → fwSlot u.mgmt k sl = fwSlot m k sl) ∧
    fwPick (freshen u).mgmt (fwField (stagedImage m) 4 1) = some (slot, stagedImage m) := by
  subst hslot
  refine ⟨?_, fun k sl hne => ?_, fwPick_freshen_stored hgood hu⟩
  · rw [hu, fwSlot_storedMgmt hgood, if_pos ⟨rfl, rfl⟩]
  · rw [hu, fwSlot_storedMgmt hgood, if_neg fun h => hne (Prod.ext h.1.symm h.2.symm)]

end Stored

/-! ## Attestation (R421) -/

theorem answer_of_hostIo (hio : hostIo s = true) (a : Spdm) : answer s a = { s with mgmt := { s.mgmt with spdm := a } } := if_pos hio

/-- The measurements of the layout and of the fuses exist always. -/
theorem measurements_nonempty (s : State) : measurements s [1, 2, 3, 4, 5] ≠ [] := by
  refine List.ne_nil_of_mem (a := (4, (measurement s 4).getD [])) (List.mem_filterMap.2 ⟨4, by simp, ?_⟩)
  rfl

theorem getMeasurements_one {i : Nat} (hi : i ≠ 255) (nonce : List Byte) : exec (.getMeasurements i nonce) s =
    .next (answer s (if (measurements s [i]).isEmpty then .error
      else .measurements (measurements s [i]) (Config.deviceSign (nonce ++ (measurements s [i]).flatMap (·.2))))) := by
  change execGetMeasurements i nonce s = _
  simp only [execGetMeasurements, if_neg hi]

theorem measurements_singleton_some {i : Nat} {b : List Byte} (hb : measurement s i = some b) : measurements s [i] = [(i, b)] := by
  simp [measurements, hb]

theorem measurements_singleton_none {i : Nat} (hb : measurement s i = none) : measurements s [i] = [] := by
  simp [measurements, hb]

/-! ## Column sensors (R423, R424) -/

section Sensor

variable {old : Option Sensor} {ns : List Int} {v0 v1 : Int} {moved : Bool}

theorem outOfRange_iff (v : Int) : outOfRange v = true ↔ v < -40 ∨ 150 < v := by simp [outOfRange]

theorem sampleColumn_f0 (h : v0 < -40 ∨ 150 < v0) : (sampleColumn old ns v0 v1 moved).f0 = true := by
  simp [sampleColumn, (outOfRange_iff v0).2 h]

theorem sampleColumn_f1 (h : v1 < -40 ∨ 150 < v1) : (sampleColumn old ns v0 v1 moved).f1 = true := by
  simp [sampleColumn, (outOfRange_iff v1).2 h]

theorem sampleColumn_both_work (h0 : (sampleColumn old ns v0 v1 moved).f0 = false) (h1 : (sampleColumn old ns v0 v1 moved).f1 = false) :
    (sampleColumn old ns v0 v1 moved).reading = max v0 v1 := by
  simp only [sampleColumn] at h0 h1 ⊢
  rw [h0, h1]
  rfl

theorem sampleColumn_both_fail (h0 : (sampleColumn old ns v0 v1 moved).f0 = true) (h1 : (sampleColumn old ns v0 v1 moved).f1 = true) :
    (sampleColumn old ns v0 v1 moved).reading = 150 := by
  simp only [sampleColumn] at h0 h1 ⊢
  rw [h0, h1]
  rfl

theorem sensors_foldl_fails (l : List Nat) (s : State) :
    (l.foldl (fun s _ => lrBump (setEvents s 1) 8 0 0 (2 ^ 32 - 1)) s).mgmt.sensors = s.mgmt.sensors := by
  induction l generalizing s with
  | nil => rfl
  | cons n l ih => exact (ih _).trans rfl

variable {cluster col : Nat}

/-- The sensors of a column that have failed by this sample. -/
def newFailures (old : Option Sensor) (x : Sensor) : Nat :=
  (if x.f0 && !(old.getD Sensor.blank).f0 then 1 else 0) + (if x.f1 && !(old.getD Sensor.blank).f1 then 1 else 0)

/-- A sample of a column is kept, and its new failures, its residency bin and its voltage's bin are counted. -/
def countedSample (s : State) (key fails : Nat) (x : Sensor) : State :=
  let s := modMgmt s (fun m => { m with sensors := nmPut key x m.sensors })
  let s := (List.range fails).foldl (fun s _ => lrBump (setEvents s 1) 8 0 0 (2 ^ 32 - 1)) s
  let s := lrBump s 1 key (residencyBin x.reading) ((2 ^ 32 - 1) * 1000000)
  lrBump { s with free := s.free + 1 } 2 key (Config.voltageBin s.free).val ((2 ^ 32 - 1) * 1000000)

theorem countedSample_sensors (s : State) (key fails : Nat) (x : Sensor) : nmGet key (countedSample s key fails x).mgmt.sensors = some x := by
  have hsame : (countedSample s key fails x).mgmt.sensors = nmPut key x s.mgmt.sensors := sensors_foldl_fails _ _
  rw [hsame, nmGet_nmPut_self]

theorem exec_sensorSample (hcluster : cluster < 4) (hcol : col < 192) :
    let x := sampleColumn (nmGet (192 * cluster + col) s.mgmt.sensors) (neighbourReadings s cluster col) v0 v1 moved
    let u := countedSample s (192 * cluster + col) (newFailures (nmGet (192 * cluster + col) s.mgmt.sensors) x) x
    exec (.sensorSample cluster col v0 v1 moved) s = .next (if x.f0 && x.f1 then
      { u with clusters := nmModify cluster (fun c => { c with
          safeClock := if c.safeClock.contains col then c.safeClock else c.safeClock ++ [col] }) u.clusters } else u) := by
  have hin : (decide (4 ≤ cluster) || decide (192 ≤ col)) = false := by simp [hcluster, hcol]
  change execSensorSample cluster col v0 v1 moved s = _
  rw [execSensorSample, hin, if_neg Bool.false_ne_true]
  rfl

theorem sensorSample_happens (hcluster : cluster < 4) (hcol : col < 192) :
    ∃ s', Spec.Happens (.sensorSample cluster col v0 v1 moved) s s' ∧ nmGet (192 * cluster + col) s'.mgmt.sensors =
      some (sampleColumn (nmGet (192 * cluster + col) s.mgmt.sensors) (neighbourReadings s cluster col) v0 v1 moved) := by
  refine ⟨_, exec_sensorSample hcluster hcol, ?_⟩
  split
  · exact countedSample_sensors s _ _ _
  · exact countedSample_sensors s _ _ _

end Sensor

/-! ## The bus test (R427, R428) -/

section Bus

variable {core k : Nat} {lanes : List Nat}

theorem eraseDups_of_forall_eq {l : List Nat} (hne : l ≠ []) (hall : ∀ x ∈ l, x = k) : l.eraseDups = [k] := by
  cases l with
  | nil => exact absurd rfl hne
  | cons x l =>
    rw [List.forall_mem_cons] at hall
    obtain ⟨rfl, hl⟩ := hall
    have hnone : l.filter (fun b => !b == x) = [] := List.filter_eq_nil_iff.2 fun b hb => by simp [hl b hb]
    rw [List.eraseDups_cons, hnone, List.eraseDups_nil]

/-- The first test of a lane group notes its bad lanes, and repairs none. -/
theorem testGroup_first (hour : Nat) (bad : List Nat) : testGroup hour bad ⟨[], [], [], []⟩ = (⟨bad.eraseDups, [], [], []⟩, 0, false) := by
  simp [testGroup]

theorem busTest_resident (h : ∃ p ∈ s.teams, p.2.resident = true ∧ p.2.core = core) (bad : List Nat) : Spec.Happens (.busTest core bad) s s := by
  refine congrArg _ (if_pos ?_)
  obtain ⟨p, hp, hres, hcore⟩ := h
  exact List.any_eq_true.2 ⟨p, hp, by simp [hres, hcore]⟩

variable (hfree : ∀ p ∈ s.teams, p.2.resident = true → p.2.core ≠ core) (hnew : nmGetD s.mgmt.buses core [] = [])

include hfree hnew

theorem exec_busTest (bad : List Nat) : exec (.busTest core bad) s = .next ((bad.map (· / 128)).eraseDups.foldl (fun s k =>
    let (g, n, full) := testGroup (powerHours s.mgmt) (bad.filter (fun l => l / 128 = k)) (nmGetD (nmGetD s.mgmt.buses core []) k ⟨[], [], [], []⟩)
    let s := modMgmt s (fun m => { m with buses := nmPut core (nmPut k g (nmGetD m.buses core [])) m.buses })
    setEvents s ((if n = 0 then 0 else 4) + (if full then 8 else 0))) s) := by
  have hnone : s.teams.any (fun t => t.2.resident && t.2.core = core) = false := by
    rw [List.any_eq_false]
    intro p hp
    simpa using hfree p hp
  change execBusTest core bad s = _
  simp only [execBusTest, hnone, Bool.false_eq_true, if_false, hnew, List.map_nil, List.nil_append]

theorem busTest_no_lane : Spec.Happens (.busTest core []) s s := exec_busTest hfree hnew []

theorem busTest_first (hne : lanes ≠ []) (hgroup : ∀ l ∈ lanes, l / 128 = k) : ∃ s', Spec.Happens (.busTest core lanes) s s' ∧
    nmGet k (nmGetD s'.mgmt.buses core []) = some ⟨lanes.eraseDups, [], [], []⟩ := by
  have hkeys : (lanes.map (· / 128)).eraseDups = [k] := eraseDups_of_forall_eq (by simpa using hne) (by simpa using hgroup)
  have hall : lanes.filter (fun l => l / 128 = k) = lanes := List.filter_eq_self.2 (by simpa using hgroup)
  have hempty : nmGetD ([] : NMap LaneGroup) k ⟨[], [], [], []⟩ = ⟨[], [], [], []⟩ := rfl
  have hexec := exec_busTest hfree hnew lanes
  simp only [hkeys, List.foldl_cons, List.foldl_nil, hall, hnew, hempty, testGroup_first] at hexec
  exact ⟨_, hexec, by simp only [setEvents, modMgmt, nmGetD_nmPut_self, nmGet_nmPut_self]⟩

end Bus

/-- Settles O54: the image that is stored is the staged one; the answers, the sample and the bus test by their cases. -/
theorem managementEvents : Obligations.ManagementEvents := by
  refine ⟨fun v s hio => congrArg _ (if_pos hio), fun _ => rfl, fun s hio hidle hhold => ?_, fun s hio hidle => ?_,
    fun s hbusy => congrArg _ (if_pos hbusy), fun s hio => ?_, fun cluster col v0 v1 moved s hcluster hcol => ?_, fun core bad s => ?_⟩
  · change execFwRaiseMinimumSvn s = _
    simp only [execFwRaiseMinimumSvn, hio, hidle, hhold, Bool.not_true, Bool.or_self, Bool.false_eq_true, if_false, modMgmt]
  · refine ⟨_, fwStoreStagedImage_happens hio hidle, rfl, fun hbad hsize => ?_, fun img himg hsize hgood => ?_⟩
    · have hstaged : stagedImage s.mgmt = readBytes s.mgmt.staging 0 (fwSize (readBytes s.mgmt.staging 0 1024)) := if_pos hsize
      exact storedMgmt_refused (by rwa [hstaged])
    · have hstaged : stagedImage s.mgmt = img := (if_pos hsize).trans himg.symm
      subst hstaged
      intro kind into
      refine ⟨fun hrec => ?_, fun running hrec hrun => ?_⟩
      · exact stored_into hgood rfl (if_pos hrec)
      · exact stored_into hgood rfl (by simp only [storeSlot, hrec, Bool.false_eq_true, if_false, kind] at hrun ⊢; rw [hrun, Option.getD_some])
  · intro gives
    have hgives : ∀ {e : Instr} {a : Spdm}, exec e s = .next (answer s a) → gives e a := fun he => he.trans (congrArg _ (answer_of_hostIo hio _))
    refine ⟨hgives rfl, hgives rfl, hgives rfl, hgives rfl, fun off len => hgives rfl, fun nonce => hgives rfl, fun i b nonce hi hb => hgives ?_,
      fun nonce => hgives ?_, fun i nonce hi hb => hgives ?_⟩
    · rw [getMeasurements_one hi, measurements_singleton_some hb]
      simp only [List.isEmpty_cons, Bool.false_eq_true, if_false, List.flatMap_cons, List.flatMap_nil, List.append_nil]
    · refine congrArg (fun a => Host.Outcome.next (answer s a)) (if_neg ?_)
      rw [List.isEmpty_iff]
      exact measurements_nonempty s
    · rw [getMeasurements_one hi, measurements_singleton_none hb]
      rfl
  · obtain ⟨s', hs', hx⟩ := sensorSample_happens (s := s) (v0 := v0) (v1 := v1) (moved := moved) hcluster hcol
    exact ⟨s', _, hs', hx, rfl, rfl, sampleColumn_f0, sampleColumn_f1, sampleColumn_both_work, sampleColumn_both_fail⟩
  · refine ⟨fun h => busTest_resident h bad, fun hfree hnew hbad => ?_, fun k lanes hfree hnew hbad hne hgroup => ?_⟩
    · subst hbad; exact busTest_no_lane hfree hnew
    · subst hbad; exact busTest_first hfree hnew hne hgroup

end Sys2Proof.Proofs
end

