-- ==== Sys2Proof/Proofs/LinkAndPowerEvents.lean ====
section
/-! PROOFS. Peer requests, links, and the power with its boot stages (R413 to R416, R418, R422, R426). -/

namespace Sys2Proof.Proofs

open Machine

variable {s s' : State}

/-! ## Peers and links (R413 to R416) -/

section Peer

variable {port addr : Nat}

theorem exec_peerRequest (port addr : Nat) (op : PeerOp) (s : State) : exec (.peerRequest port addr op) s = execPeerRequest port addr op s := rfl

theorem peerRequest_down (op : PeerOp) (hdown : (gemarOf s port).up = false) : Spec.Happens (.peerRequest port addr op) s s := by
  rw [Spec.Happens, exec_peerRequest]
  simp only [execPeerRequest, hdown, Bool.not_false, if_true]

variable (hup : (gemarOf s port).up = true)

include hup

theorem peerRequest_outside (op : PeerOp) (hout : inbound s port addr (peerAcc op).2 = false) :
    Spec.Happens (.peerRequest port addr op) s { s with peerAnswer := none } := by
  rw [Spec.Happens, exec_peerRequest]
  simp only [execPeerRequest, hup, hout, Bool.not_true, Bool.not_false, Bool.false_eq_true, if_false, if_true]

theorem peerRequest_read {n : Nat} {bs : List Byte} (hin : inbound s port addr n = true)
    (hrun : peerRun .read (cuts addr n) [] s = some (bs, s')) :
    Spec.Happens (.peerRequest port addr (.read n)) s { s' with peerAnswer := some bs } := by
  rw [Spec.Happens, exec_peerRequest]
  simp only [execPeerRequest, peerAcc, hup, hin, hrun, Bool.not_true, Bool.false_eq_true, if_false]

theorem peerRequest_write {l bs : List Byte} (hin : inbound s port addr l.length = true)
    (hrun : peerRun (.write l) (cuts addr l.length) l s = some (bs, s')) :
    Spec.Happens (.peerRequest port addr (.write l)) s { s' with peerAnswer := some bs } := by
  rw [Spec.Happens, exec_peerRequest]
  simp only [execPeerRequest, peerAcc, hup, hin, hrun, Bool.not_true, Bool.false_eq_true, if_false]

end Peer

section Link

variable {port : Nat} {g : Gemar} (hg : nmGet port s.gemar = some g)

include hg

theorem gemarOf_eq : gemarOf s port = g := by rw [gemarOf, nmGetD, hg, Option.getD_some]

theorem gemar_modGemar (f : Gemar → Gemar) : nmGet port (modGemar s port f).gemar = some (f g) := by
  simp only [modGemar, nmGet_nmModify_self, hg, Option.map_some]

theorem linkUp_outcome (serial : DWord) : ∃ s', Spec.Happens (.linkUp port serial) s s' ∧
    s'.mgmt.events = (if g.up then s.mgmt.events else s.mgmt.events ||| 32) ∧
    nmGet port s'.gemar = some { g with up := true, lanes := 8, serial := serial } := by
  refine ⟨_, rfl, ?_, ?_⟩
  · rw [gemarOf_eq hg]
    split <;> rfl
  · rw [gemarOf_eq hg]
    split <;> exact gemar_modGemar hg (fun g => { g with up := true, lanes := 8, serial := serial })

theorem linkDown_down (hdown : g.up = false) : Spec.Happens (.linkDown port) s s := by
  change execLinkDown port s = _
  simp only [execLinkDown, gemarOf_eq hg, hdown, Bool.not_false, if_true]

theorem linkDown_quiet (hup : g.up = true) (hquiet : s.flight = []) : ∃ s', Spec.Happens (.linkDown port) s s' ∧
    s'.mgmt.events = s.mgmt.events ||| 32 ∧ nmGet port s'.gemar = some { g with up := false } := by
  refine ⟨linkChanged (modGemar s port (fun g => { g with up := false })), ?_, rfl, gemar_modGemar hg (fun g => { g with up := false })⟩
  change execLinkDown port s = _
  simp only [execLinkDown, gemarOf_eq hg, hup, Bool.not_true, Bool.false_eq_true, if_false, hquiet, List.foldl_nil]

end Link

/-! ## Power and boot (R418, R422, R426) -/

theorem thermalTrip_outcome {stack : Nat} (h : stack < 4) : ∃ s', Spec.Happens (.thermalTrip stack) s s' ∧ s'.power = false ∧ s'.mgmt.tripped = true :=
  ⟨_, congrArg Host.Outcome.next (if_pos h), rfl, rfl⟩

theorem powerOn_off (hoff : s.power = false) : Spec.Happens .powerOn s (startBoot (freshen s)) := by
  change execPowerOn s = _
  rw [execPowerOn, hoff, if_pos (by rfl)]
  rfl

theorem startBoot_freshen_events (htrip : s.mgmt.tripped = true) : (startBoot (freshen s)).mgmt.events.testBit 1 = true := by
  have hevents : (startBoot (freshen s)).mgmt.events = if s.mgmt.tripped then 0 ||| 2 else 0 := rfl
  rw [hevents, htrip]
  decide

theorem powerOn_stays (hon : s.power = true) (h : 7 ≤ s.mgmt.stage ∨ s.mgmt.recovery = true ∨ s.mgmt.stuck = true) : Spec.Happens .powerOn s s := by
  have hbooting : booting s = false := by
    obtain h | h | h := h
    · simp [booting, Nat.not_lt.2 h]
    · simp [booting, h]
    · simp [booting, h]
  change execPowerOn s = _
  simp only [execPowerOn, hon, hbooting, Bool.not_true, Bool.false_eq_true, if_false]

theorem powerOn_goes_on (hon : s.power = true) (hrec : s.mgmt.recovery = false) (hstuck : s.mgmt.stuck = false) (hstage : s.mgmt.stage < 7) :
    Spec.Happens .powerOn s (bootStep s) := by
  have hbooting : booting s = true := by simp [booting, hon, hrec, hstuck, hstage]
  change execPowerOn s = _
  simp only [execPowerOn, hon, hbooting, Bool.not_true, Bool.false_eq_true, if_false, if_true]

/-- The boot has not failed. -/
def BootGoesOn (s : State) (n : Nat) : Prop := s.mgmt.stage = n ∧ s.mgmt.recovery = false ∧ s.mgmt.stuck = false

section Boot

theorem beginStage_goesOn {n : Nat} (hrec : s.mgmt.recovery = false) (hstuck : s.mgmt.stuck = false) : BootGoesOn (beginStage s n) n :=
  ⟨rfl, hrec, hstuck⟩

/-- What the training of a port leaves: the boot has not failed. -/
theorem trainPorts_keeps (s : State) : (trainPorts s).mgmt.recovery = s.mgmt.recovery ∧ (trainPorts s).mgmt.stuck = s.mgmt.stuck := by
  unfold trainPorts
  generalize List.range 12 = l
  induction l generalizing s with
  | nil => exact ⟨rfl, rfl⟩
  | cons n l ih =>
    obtain ⟨hrec, hstuck⟩ := ih (if Config.trains (8 + n) s.free
      then modGemar { s with free := s.free + 1 } n (fun g => { g with up := true, lanes := 8, serial := Config.peerSerial n s.free })
      else linkChanged { s with free := s.free + 1 })
    rw [List.foldl_cons]
    refine ⟨hrec.trans ?_, hstuck.trans ?_⟩ <;> split <;> rfl

/-- An image that runs changes no copy, and so none that the boot picks. -/
theorem fwPick_runImage (s : State) (k : Nat) (p : Nat × List Byte) (kind : Nat) : fwPick (runImage s k p).mgmt kind = fwPick s.mgmt kind := rfl

variable (hrec : s.mgmt.recovery = false) (hstuck : s.mgmt.stuck = false)

include hrec hstuck

theorem bootStep_one (h : s.mgmt.stage = 1) :
    BootGoesOn (bootStep s) 2 ∨ (bootStep s).mgmt.stuck = true ∧ (bootStep s).mgmt.stage = s.mgmt.stage := by
  simp only [bootStep, h]
  split
  · exact .inl ⟨rfl, hrec, hstuck⟩
  · exact .inr ⟨rfl, h⟩

theorem bootStep_two (h : s.mgmt.stage = 2) :
    (fwPick s.mgmt 1 = none → (bootStep s).mgmt.recovery = true ∧ (bootStep s).mgmt.failCode = 1) ∧
    (fwPick s.mgmt 1 ≠ none → BootGoesOn (bootStep s) 3) := by
  simp only [bootStep, h, verifyImage]
  refine ⟨fun hnone => ?_, fun hsome => ?_⟩
  · rw [hnone]; exact ⟨rfl, rfl⟩
  · obtain ⟨p, hp⟩ := Option.ne_none_iff_exists'.1 hsome
    rw [hp]; exact ⟨rfl, hrec, hstuck⟩

theorem bootStep_three (h : s.mgmt.stage = 3) :
    BootGoesOn (bootStep s) 4 ∨ ∃ k, k < 4 ∧ (bootStep s).mgmt.recovery = true ∧ (bootStep s).mgmt.failCode = 0x10 + k := by
  simp only [bootStep, h]
  split
  · next k hk =>
    have hmem : k ∈ [0, 1, 2, 3] := List.mem_of_find?_eq_some hk
    exact .inr ⟨k, by simp at hmem; omega, rfl, rfl⟩
  · exact .inl ⟨rfl, hrec, hstuck⟩

theorem bootStep_four (h : s.mgmt.stage = 4) :
    (fwPick s.mgmt 2 = none → (bootStep s).mgmt.recovery = true ∧ (bootStep s).mgmt.failCode = 2) ∧
    (fwPick s.mgmt 2 ≠ none → fwPick s.mgmt 3 = none → (bootStep s).mgmt.recovery = true ∧ (bootStep s).mgmt.failCode = 3) ∧
    (fwPick s.mgmt 2 ≠ none → fwPick s.mgmt 3 ≠ none → BootGoesOn (bootStep s) 5) := by
  simp only [bootStep, h, verifyImage]
  refine ⟨fun hnone => ?_, fun hsome hnone => ?_, fun hsome hsome' => ?_⟩
  · rw [hnone]; exact ⟨rfl, rfl⟩
  · obtain ⟨p, hp⟩ := Option.ne_none_iff_exists'.1 hsome
    rw [hp]
    simp only [Option.map_some, fwPick_runImage, hnone, Option.map_none]
    exact ⟨rfl, rfl⟩
  · obtain ⟨p, hp⟩ := Option.ne_none_iff_exists'.1 hsome
    obtain ⟨q, hq⟩ := Option.ne_none_iff_exists'.1 hsome'
    rw [hp]
    simp only [Option.map_some, fwPick_runImage, hq]
    exact ⟨rfl, hrec, hstuck⟩

theorem bootStep_five (h : s.mgmt.stage = 5) :
    BootGoesOn (bootStep s) 6 ∨ (bootStep s).mgmt.stuck = true ∧ (bootStep s).mgmt.stage = s.mgmt.stage := by
  simp only [bootStep, h]
  split
  · exact .inl ⟨rfl, hrec, hstuck⟩
  · exact .inr ⟨rfl, h⟩

theorem bootStep_six (h : s.mgmt.stage = 6) : BootGoesOn (bootStep s) 7 ∧ (bootStep s).mgmt.ready = true := by
  obtain ⟨hkeepsRec, hkeepsStuck⟩ := trainPorts_keeps s
  simp only [bootStep, h]
  exact ⟨⟨rfl, hkeepsRec.trans hrec, hkeepsStuck.trans hstuck⟩, rfl⟩

end Boot

/-- Settles O55: the peer's request and the links by their tests, and the boot stage by stage. -/
theorem linkAndPowerEvents : Obligations.LinkAndPowerEvents := by
  refine ⟨fun port addr op s => ⟨peerRequest_down op, fun hup hout => peerRequest_outside hup op hout, ?_, ?_⟩,
    fun port g s hg => ⟨⟨_, rfl, gemar_modGemar hg _⟩, ⟨_, rfl, gemar_modGemar hg _⟩, linkUp_outcome hg, linkDown_down hg, linkDown_quiet hg⟩,
    fun s => ⟨rfl, fun _ => rfl, rfl, fun _ h => thermalTrip_outcome h⟩,
    fun s hoff => ⟨_, powerOn_off hoff, rfl, rfl, rfl, rfl, rfl, rfl, startBoot_freshen_events⟩, fun s hon => ⟨powerOn_stays hon, fun hrec hstuck => ?_⟩⟩
  · rintro n bs s' rfl hup hin hrun
    exact peerRequest_read hup hin hrun
  · rintro l bs s' rfl hup hin hrun
    exact peerRequest_write hup hin hrun
  · intro goesOn recovers noLink
    by_cases hstage : s.mgmt.stage < 7
    · exact ⟨bootStep s, powerOn_goes_on hon hrec hstuck hstage, bootStep_one hrec hstuck, bootStep_two hrec hstuck, bootStep_three hrec hstuck,
        bootStep_four hrec hstuck, bootStep_five hrec hstuck, bootStep_six hrec hstuck⟩
    · exact ⟨s, powerOn_stays hon (.inl (Nat.not_lt.1 hstage)), fun h => absurd h (by omega), fun h => absurd h (by omega),
        fun h => absurd h (by omega), fun h => absurd h (by omega), fun h => absurd h (by omega), fun h => absurd h (by omega)⟩

end Sys2Proof.Proofs
end

