-- ==== Sys2Proof/Proofs/MemoryKept.lean ====
section
/-! PROOFS. What the changes of the state keep: the canonical form of memory (log entry 2), and the window tables and mailbox tails of the
partitions. Each lemma carries the relation over one function of the model; its proof goes through the branches of the function and cites the
lemmas of the functions that it calls. -/

namespace Sys2Proof.Proofs

open Machine

/-- From `s` to `t` memory keeps its canonical form, and, where `tables` says so, every partition its window table and its mailbox's tail. -/
def Keeps (tables : Bool) (s t : State) : Prop :=
  (MemoryCanonical s → MemoryCanonical t) ∧
  (tables = true → ∀ p, (partOf t p).windows = (partOf s p).windows ∧ (partOf t p).mbxTail = (partOf s p).mbxTail)

variable {b : Bool} {s₀ s t : State}

theorem Keeps.refl (b : Bool) (s : State) : Keeps b s s := ⟨id, fun _ _ => ⟨rfl, rfl⟩⟩

theorem Keeps.trans (h : Keeps b s₀ s) (h' : Keeps b s t) : Keeps b s₀ t := by
  obtain ⟨hmem, htab⟩ := h
  obtain ⟨hmem', htab'⟩ := h'
  refine ⟨fun hc => hmem' (hmem hc), fun hb p => ?_⟩
  obtain ⟨hw, hm⟩ := htab hb p
  obtain ⟨hw', hm'⟩ := htab' hb p
  exact ⟨hw'.trans hw, hm'.trans hm⟩

/-! ## The changes of the state's fields -/

/-- A change of memory that keeps its canonical form, and of nothing that a partition owns. -/
theorem Keeps.of_wf (h : Keeps b s₀ s) (hd : Memory.wf s.dram = true → Memory.wf t.dram = true)
    (hh : Memory.wf s.hostMem = true → Memory.wf t.hostMem = true) (hp : t.parts = s.parts) : Keeps b s₀ t := by
  refine h.trans ⟨fun hc => ⟨hd hc.1, hh hc.2⟩, fun _ p => ?_⟩
  simp only [partOf, hp, and_self]

/-- A change of neither memory nor partitions. -/
theorem Keeps.of_eq (h : Keeps b s₀ s) (hd : t.dram = s.dram) (hh : t.hostMem = s.hostMem) (hp : t.parts = s.parts) : Keeps b s₀ t :=
  h.of_wf (fun hw => by rwa [hd]) (fun hw => by rwa [hh]) hp

section Fields

variable {power : Bool} {clusters : NMap Cluster} {cores : NMap Core} {teams : NMap Team} {grids : NMap Grid} {saved : List Saved}
  {flight : NMap Msg} {moves : NMap Move} {counts : List (CountPoint × Source × Nat)} {colls : List Coll} {mgmt : Mgmt} {gemar : NMap Gemar}
  {peerMem : NMap Memory} {peerIn : NMap (Nat × Nat)} {hostRead : List Byte} {peerAnswer : Option (List Byte)} {msix : List Nat}
  {agenda : List Agenda} {holds : List Bool} {cur : Nat × Nat} {free nextId : Nat}

theorem fields_keeps (h : Keeps b s₀ s) : Keeps b s₀ ⟨power, s.dram, clusters, cores, s.parts, teams, grids, saved, flight, moves, counts,
    colls, mgmt, gemar, s.hostMem, peerMem, peerIn, hostRead, peerAnswer, msix, agenda, holds, cur, free, nextId⟩ :=
  h.of_eq rfl rfl rfl

theorem dram_keeps (h : Keeps b s₀ s) {a : Nat} {bs : List Byte} : Keeps b s₀ ⟨power, writeBytes s.dram a bs, clusters, cores, s.parts, teams,
    grids, saved, flight, moves, counts, colls, mgmt, gemar, s.hostMem, peerMem, peerIn, hostRead, peerAnswer, msix, agenda, holds, cur, free,
    nextId⟩ :=
  h.of_wf (fun hw => wf_writeBytes hw a bs) id rfl

theorem pasted_keeps (h : Keeps b s₀ s) {a n : Nat} {src : Memory} : Keeps b s₀ ⟨power, pasteRange s.dram a n src, clusters, cores, s.parts,
    teams, grids, saved, flight, moves, counts, colls, mgmt, gemar, s.hostMem, peerMem, peerIn, hostRead, peerAnswer, msix, agenda, holds, cur,
    free, nextId⟩ :=
  h.of_wf (fun hw => wf_pasteRange hw a n src) id rfl

theorem hostMem_keeps (h : Keeps b s₀ s) {a : Nat} {bs : List Byte} : Keeps b s₀ ⟨power, s.dram, clusters, cores, s.parts, teams, grids, saved,
    flight, moves, counts, colls, mgmt, gemar, writeBytes s.hostMem a bs, peerMem, peerIn, hostRead, peerAnswer, msix, agenda, holds, cur, free,
    nextId⟩ :=
  h.of_wf id (fun hw => wf_writeBytes hw a bs) rfl

end Fields

theorem modPart_keeps (h : Keeps b s₀ s) {p : Nat} {f : Partition → Partition} (hw : (f (partOf s p)).windows = (partOf s p).windows)
    (hm : (f (partOf s p)).mbxTail = (partOf s p).mbxTail) : Keeps b s₀ (modPart s p f) := by
  refine h.trans ⟨id, fun _ q => ?_⟩
  by_cases hq : q = p
  · subst hq
    rw [partOf_modPart_self]
    exact ⟨hw, hm⟩
  · rw [partOf_modPart_ne hq]
    exact ⟨rfl, rfl⟩

/-- Any change of a partition keeps memory. -/
theorem modPart_keeps_memory (h : Keeps false s₀ s) {p : Nat} {f : Partition → Partition} : Keeps false s₀ (modPart s p f) :=
  h.trans ⟨id, nofun⟩

theorem foldl_keeps {α : Type} {f : State → α → State} (hf : ∀ s x, Keeps b s₀ s → Keeps b s₀ (f s x)) (h : Keeps b s₀ s) {l : List α} :
    Keeps b s₀ (l.foldl f s) := by
  induction l generalizing s with
  | nil => exact h
  | cons x l ih => exact ih (hf s x h)

theorem modTeam_keeps (h : Keeps b s₀ s) {t : Nat} {f : Team → Team} : Keeps b s₀ (modTeam s t f) := h.of_eq rfl rfl rfl

theorem modGroup_keeps (h : Keeps b s₀ s) {t g : Nat} {f : Group → Group} : Keeps b s₀ (modGroup s t g f) := h.of_eq rfl rfl rfl

theorem setCore_keeps (h : Keeps b s₀ s) {c : Nat} {x : Core} : Keeps b s₀ (setCore s c x) := h.of_eq rfl rfl rfl

theorem modCore_keeps (h : Keeps b s₀ s) {c : Nat} {f : Core → Core} : Keeps b s₀ (modCore s c f) := h.of_eq rfl rfl rfl

theorem modCluster_keeps (h : Keeps b s₀ s) {c : Nat} {f : Cluster → Cluster} : Keeps b s₀ (modCluster s c f) := h.of_eq rfl rfl rfl

theorem setFrame_keeps (h : Keeps b s₀ s) {p : Place} {x : Frame} : Keeps b s₀ (setFrame s p x) := by
  cases p <;> exact h.of_eq rfl rfl rfl

theorem modFrame_keeps (h : Keeps b s₀ s) {p : Place} {f : Frame → Frame} : Keeps b s₀ (modFrame s p f) := setFrame_keeps h

theorem newId_keeps (h : Keeps b s₀ s) : Keeps b s₀ (newId s).2 := h.of_eq rfl rfl rfl

theorem popHold_keeps (h : Keeps b s₀ s) : Keeps b s₀ (popHold s).2 := by
  unfold popHold
  split
  · exact h
  · exact h.of_eq rfl rfl rfl

theorem drawBytes_keeps (h : Keeps b s₀ s) {n : Nat} : Keeps b s₀ (drawBytes s n).2 := h.of_eq rfl rfl rfl

theorem putMsg_keeps (h : Keeps b s₀ s) {id : Nat} {m : Msg} : Keeps b s₀ (putMsg s id m) := h.of_eq rfl rfl rfl

theorem dropMsg_keeps (h : Keeps b s₀ s) {id : Nat} : Keeps b s₀ (dropMsg s id) := h.of_eq rfl rfl rfl

theorem post_keeps (h : Keeps b s₀ s) {m : Msg} : Keeps b s₀ (post s m) := h.of_eq rfl rfl rfl

theorem lrBump_keeps (h : Keeps b s₀ s) {code elem field cap : Nat} : Keeps b s₀ (lrBump s code elem field cap) := h.of_eq rfl rfl rfl

theorem takeFault_keeps (h : Keeps b s₀ s) {t g : Nat} {f : FaultInfo} : Keeps b s₀ (takeFault s t g f) := h.of_eq rfl rfl rfl

theorem countWrite_keeps (h : Keeps b s₀ s) {pt : CountPoint} {src : Source} : Keeps b s₀ (countWrite s pt src) := h.of_eq rfl rfl rfl

theorem clearCount_keeps (h : Keeps b s₀ s) {pt : CountPoint} {src : Source} : Keeps b s₀ (clearCount s pt src) := h.of_eq rfl rfl rfl

/-! ## Home pages and frames (R119 to R122, R363 to R365) -/

theorem setBlockImage_keeps (h : Keeps b s₀ s) {c p k : Nat} {img : List Byte} : Keeps b s₀ (setBlockImage s c p k img) :=
  modCluster_keeps (dram_keeps h)

theorem homeWrite_keeps (h : Keeps b s₀ s) {c p off : Nat} {pk : Bool} {bs : List Byte} (hw : homeWrite s c p pk off bs = some t) :
    Keeps b s₀ t := by
  unfold homeWrite at hw
  grind [Option.map_eq_some_iff, setBlockImage_keeps, dram_keeps, hostMem_keeps]

theorem setResidence_keeps (h : Keeps b s₀ s) {c p : Nat} {q : Option Place} : Keeps b s₀ (setResidence s c p q) := by
  simp only [setResidence]
  split
  · exact modPart_keeps h rfl rfl
  · exact modCluster_keeps h

theorem fetchSector_keeps (h : Keeps b s₀ s) {p : Place} {sec : Nat} (hf : fetchSector s p sec = some t) : Keeps b s₀ t := by
  unfold fetchSector at hf
  grind [Option.map_eq_some_iff, setFrame_keeps]

theorem meetEcc_keeps (h : Keeps b s₀ s) {bus : Nat} {shelf : Bool} : Keeps b s₀ (meetEcc s bus shelf).2 := by
  unfold meetEcc
  split
  · exact h
  · exact lrBump_keeps (fields_keeps h)

theorem meetAll_keeps (h : Keeps b s₀ s) {l : List (Nat × Bool)} : Keeps b s₀ (meetAll l s).2 := by
  induction l generalizing s with
  | nil => exact h
  | cons x l ih =>
    unfold meetAll
    grind [meetEcc_keeps]

theorem carried_keeps (h : Keeps b s₀ s) {l : List (Nat × Bool)} {bs : List Byte} : Keeps b s₀ (carried s l bs).2 := by
  unfold carried
  grind [meetAll_keeps, drawBytes_keeps]

/-! ## Translation (R338, R358 to R362, R410, R411) -/

theorem holdTable_keeps (h : Keeps b s₀ s) {c p aspace : Nat} : Keeps b s₀ (holdTable s c p aspace) := by
  unfold holdTable
  grind [modFrame_keeps, setFrame_keeps, setResidence_keeps]

theorem tableRead_keeps (h : Keeps b s₀ s) {c p off aspace : Nat} : Keeps b s₀ (tableRead s c p off aspace).2 := by
  unfold tableRead
  have hheld := holdTable_keeps h (c := c) (p := p) (aspace := aspace)
  dsimp only
  split
  · split
    · split
      · cases hf : fetchSector (holdTable s c p aspace) _ (off / 16) with
        | none => exact hheld
        | some t => exact fetchSector_keeps hheld hf
      · exact hheld
    · exact hheld
  · exact hheld

theorem walkRead_keeps (h : Keeps b s₀ s) {live : Bool} {c t off aspace : Nat} : Keeps b s₀ (walkRead live s c t off aspace).2 := by
  unfold walkRead
  grind [holdTable_keeps, meetAll_keeps, tableRead_keeps]

theorem walkFrom_keeps (h : Keeps b s₀ s) {live : Bool} {part aspace va l c t : Nat} : Keeps b s₀ (walkFrom live part aspace va l c t s).2 := by
  induction l generalizing c t s with
  | zero => unfold walkFrom; grind [walkRead_keeps]
  | succ l ih => unfold walkFrom; grind [walkRead_keeps]

theorem walkRoot_keeps (h : Keeps b s₀ s) {live : Bool} {part aspace desc va : Nat} : Keeps b s₀ (walkRoot live s part aspace desc va).2 := by
  unfold walkRoot
  grind [walkFrom_keeps]

theorem windowCheck_keeps (h : Keeps b s₀ s) {part idx va : Nat} {need : Need} {acc : Acc} : Keeps b s₀ (windowCheck s part idx va need acc).2 := by
  have hflagged : Keeps b s₀ { s with mgmt := { s.mgmt with events := s.mgmt.events ||| 16 } } := fields_keeps h
  unfold windowCheck
  generalize windowOf s part idx = w
  generalize { s with mgmt := { s.mgmt with events := s.mgmt.events ||| 16 } } = u at *
  dsimp only
  split_ifs
  all_goals assumption

theorem windowPlace_keeps (h : Keeps b s₀ s) {part idx va : Nat} {need : Need} {acc : Acc} : Keeps b s₀ (windowPlace s part idx va need acc).2 := by
  unfold windowPlace
  grind [windowCheck_keeps]

theorem descPlace_keeps (h : Keeps b s₀ s) {live : Bool} {part aspace : Nat} : Keeps b s₀ (descPlace live s part aspace).2 := by
  unfold descPlace
  grind [walkRoot_keeps, windowPlace_keeps]

theorem readDescriptor_keeps (h : Keeps b s₀ s) {part aspace : Nat} : Keeps b s₀ (readDescriptor s part aspace).2 := by
  unfold readDescriptor
  grind [descPlace_keeps]

theorem loadDescriptor_keeps (h : Keeps b s₀ s) {part aspace : Nat} : Keeps b s₀ (loadDescriptor s part aspace).2 := by
  unfold loadDescriptor
  exact modPart_keeps (readDescriptor_keeps h) rfl rfl

theorem descriptor_keeps (h : Keeps b s₀ s) {part aspace : Nat} : Keeps b s₀ (descriptor s part aspace).2 := by
  unfold descriptor
  grind [loadDescriptor_keeps]

theorem walkDescriptor_keeps (h : Keeps b s₀ s) {part aspace : Nat} : Keeps b s₀ (walkDescriptor s part aspace).2 := by
  unfold walkDescriptor
  grind [descPlace_keeps, meetAll_keeps, loadDescriptor_keeps]

theorem stashInstall_keeps (h : Keeps b s₀ s) {core aspace va : Nat} {l : Leaf} : Keeps b s₀ (stashInstall s core aspace va l) :=
  h.of_eq rfl rfl rfl

theorem stashDrop_keeps (h : Keeps b s₀ s) {core aspace va : Nat} : Keeps b s₀ (stashDrop s core aspace va) := h.of_eq rfl rfl rfl

theorem lookupLeaf_keeps (h : Keeps b s₀ s) {core part aspace va : Nat} : Keeps b s₀ (lookupLeaf s core part aspace va).2.2 := by
  unfold lookupLeaf
  grind [walkDescriptor_keeps, walkRoot_keeps, stashInstall_keeps]

theorem leafXlat_keeps (h : Keeps b s₀ s) {part va : Nat} {user : Bool} {need : Need} {acc : Acc} {l : Leaf} {rp : Option (Nat × Nat)} :
    Keeps b s₀ (leafXlat s part va user need acc l rp).2 := by
  unfold leafXlat
  grind [windowPlace_keeps]

theorem translate_keeps (h : Keeps b s₀ s) {core part aspace va : Nat} {user : Bool} {need : Need} {acc : Acc} :
    Keeps b s₀ (Machine.translate s core part aspace va user need acc).2 := by
  unfold Machine.translate
  split
  · have hdesc := walkDescriptor_keeps h (part := part) (aspace := aspace)
    dsimp only
    split
    · next hw => rwa [hw] at hdesc
    · next hw =>
      rw [hw] at hdesc
      repeat' split
      all_goals exact hdesc
  · have hleaf := lookupLeaf_keeps h (core := core) (part := part) (aspace := aspace) (va := va)
    dsimp only
    split
    · exact hleaf
    · exact leafXlat_keeps hleaf

/-! ## Accesses at their places (R364, R365, R410) -/

/-- An access keeps what `Keeps` says in every state that it may leave. -/
def PerfKeeps (b : Bool) (s₀ : State) : Perf → Prop
  | .done s _ => Keeps b s₀ s
  | .bad _ s => Keeps b s₀ s
  | .bounced => True
  | .waits => True

section Access

variable {r : MemReq} {p : Place}

theorem withEcc_keeps (h : Keeps b s₀ s) {bus : Nat} {shelf : Bool} {go : State → Perf} (hgo : ∀ u, Keeps b s₀ u → PerfKeeps b s₀ (go u)) :
    PerfKeeps b s₀ (withEcc s bus shelf r go) := by
  have hmeet := meetEcc_keeps h (bus := bus) (shelf := shelf)
  unfold withEcc
  grind [PerfKeeps, drawBytes_keeps]

theorem withShelf_keeps (h : Keeps b s₀ s) {go : State → Perf} (hgo : ∀ u, Keeps b s₀ u → PerfKeeps b s₀ (go u)) :
    PerfKeeps b s₀ (withShelf s p r go) := by
  unfold withShelf
  split
  · exact withEcc_keeps h hgo
  · exact hgo s h

/-- What an access does at a frame whose sector it can have. -/
def frameAct (p : Place) (r : MemReq) (s : State) : Perf :=
  match fetchSector s p (r.va % 4096 / 16) with
  | none => .bad 0x0F s
  | some s =>
    let f := frameAt s p
    let (res, wr) := applyAcc r.acc (readBytes f.data (r.va % 4096) r.size)
    let f := { f with ref_ := true, hold := if r.foreign then f.hold else f.hold ||| BitVec.ofNat 16 (2 ^ (r.core % 16)) }
    match wr with
    | none => .done (setFrame s p f) res
    | some bs =>
      let s := setFrame s p { f with data := writeBytes f.data (r.va % 4096) bs, dirty := f.dirty ||| BitVec.ofNat 256 (2 ^ (r.va % 4096 / 16)) }
      let mine := f.repl.filter (fun q => q.1 = r.core)
      let s := if r.rep = 2 then mine.foldl (fun s q => modFrame s (.near q.1 q.2) (fun x => overlay x (r.va % 4096) r.acc bs)) s else s
      .done s res

theorem frameAct_keeps (h : Keeps b s₀ s) : PerfKeeps b s₀ (frameAct p r s) := by
  unfold frameAct
  split
  · exact h
  · next u hu =>
    have hfetched := fetchSector_keeps h hu
    dsimp only
    split
    · exact setFrame_keeps hfetched
    · split
      · exact foldl_keeps (fun _ _ h => modFrame_keeps h) (setFrame_keeps hfetched)
      · exact setFrame_keeps hfetched

/-- An access at a frame, by where its sector is. -/
theorem performFrame_eq (s : State) (p : Place) (r : MemReq) : performFrame s p r =
    if (frameAt s p).valid.getLsbD (r.va % 4096 / 16) then withShelf s p r (frameAct p r)
    else if sectorComing s p (r.va % 4096 / 16) then .waits
    else match (frameAt s p).replicaOf with
      | some h => if (frameAt s h).valid.getLsbD (r.va % 4096 / 16) then withShelf s h r (frameAct p r)
        else withEcc s (192 * (frameAt s h).hclu + (frameAt s h).hpage % 192) false r (fun s => withShelf s h r (frameAct p r))
      | none => withEcc s (192 * (frameAt s p).hclu + (frameAt s p).hpage % 192) false r (fun s => withShelf s p r (frameAct p r)) := rfl

theorem performFrame_keeps (h : Keeps b s₀ s) : PerfKeeps b s₀ (performFrame s p r) := by
  have hact : ∀ u, Keeps b s₀ u → PerfKeeps b s₀ (frameAct p r u) := fun _ h => frameAct_keeps h
  rw [performFrame_eq]
  split
  · exact withShelf_keeps h hact
  · split
    · trivial
    · split
      · split
        · exact withShelf_keeps h hact
        · exact withEcc_keeps h fun _ h => withShelf_keeps h hact
      · exact withEcc_keeps h fun _ h => withShelf_keeps h hact

theorem updateReplica_keeps (h : Keeps b s₀ s) {off n core frame : Nat} : Keeps b s₀ (updateReplica s p off n core frame) := modFrame_keeps h

theorem performAt_keeps (h : Keeps b s₀ s) : PerfKeeps b s₀ (performAt s p r) := by
  have hframe := performFrame_keeps h (p := p) (r := r)
  unfold performAt
  split
  · split
    · trivial
    · split
      · next u res hu =>
        rw [hu] at hframe
        exact foldl_keeps (fun _ _ h => updateReplica_keeps h) hframe
      · exact hframe
  · exact hframe

theorem performRaw_keeps (h : Keeps b s₀ s) {m : Memory} {a : Nat} {put : Memory → State}
    (hput : ∀ bs, Keeps b s₀ (put (writeBytes m a bs))) : PerfKeeps b s₀ (performRaw r m a put s) := by
  unfold performRaw
  dsimp only
  split
  · exact h
  · exact hput _

/-- What an access does at a home page that no frame holds. -/
def homeAct (c h : Nat) (r : MemReq) (s : State) : Perf :=
  match homeRead s c h r.pk (r.va % 4096) r.size with
  | none => .bad 0x0F s
  | some old =>
    let (res, wr) := applyAcc r.acc old
    match wr with
    | none => .done s res
    | some bs =>
      match homeWrite s c h r.pk (r.va % 4096) bs with
      | some s => .done s res
      | none => .bad 0x0F s

theorem homeAct_keeps (h : Keeps b s₀ s) {c n : Nat} : PerfKeeps b s₀ (homeAct c n r s) := by
  unfold homeAct
  split
  · exact h
  · dsimp only
    split
    · exact h
    · split
      · next hw => exact homeWrite_keeps h hw
      · exact h

theorem perform_home_keeps (h : Keeps b s₀ s) {c n : Nat} (hr : r.place = .home c n) : PerfKeeps b s₀ (perform s r) := by
  have heq : perform s r = match residenceOf s c n with
    | none => withEcc s (192 * c + n % 192) false r (homeAct c n r)
    | some q =>
      if !isFrame q then (if r.foreign then .waits else .bounced)
      else if (frameAt s q).tbl && (frameAt s q).holds c n then performFrame s q r
      else if !r.foreign then .bounced
      else if (frameAt s q).holds c n && frameTakes (frameAt s q) (frameAt s q).ten = some true then performAt s q r
      else .waits := by
    simp only [perform, hr]; rfl
  rw [heq]
  split
  · exact withEcc_keeps h fun _ h => homeAct_keeps h
  · split
    · split <;> trivial
    · split
      · exact performFrame_keeps h
      · split
        · trivial
        · split
          · exact performAt_keeps h
          · trivial

theorem perform_keeps (h : Keeps b s₀ s) : PerfKeeps b s₀ (perform s r) := by
  cases hr : r.place with
  | home c n => exact perform_home_keeps h hr
  | pool a =>
    simp only [perform, hr]
    exact withEcc_keeps h fun _ h => performRaw_keeps h fun _ => dram_keeps h
  | host a =>
    simp only [perform, hr]
    split
    · split
      · trivial
      · split
        · exact performAt_keeps h
        · trivial
    · exact performRaw_keeps h fun _ => hostMem_keeps h
  | peer port a =>
    simp only [perform, hr]
    split
    · exact h
    · exact performRaw_keeps h fun _ => fields_keeps h
  | ext idx =>
    simp only [perform, hr]
    exact h
  | far c sl n =>
    simp only [perform, hr]
    split
    · trivial
    · trivial
    · exact performAt_keeps h
  | near c n =>
    simp only [perform, hr]
    split
    · trivial
    · trivial
    · exact performAt_keeps h

end Access

end Sys2Proof.Proofs
end

