-- ==== Sys2Proof/Proofs/MovesKept.lean ====
section
/-! PROOFS. What messages, commits, page moves and placements keep: no one of them takes memory out of its canonical form (log entry 2), or
changes a partition's window table or its mailbox tail. -/
namespace Sys2Proof.Proofs
open Machine
variable {b : Bool} {s₀ s t : State}

theorem homeWrite_getD_keeps (h : Keeps b s₀ s) {c p off : Nat} {pk : Bool} {bs : List Byte} : Keeps b s₀ ((homeWrite s c p pk off bs).getD s) := by
  cases hw : homeWrite s c p pk off bs with
  | none => exact h
  | some u => exact homeWrite_keeps h hw

theorem ite_keeps {p : Prop} [Decidable p] {u v : State} (hu : Keeps b s₀ u) (hv : Keeps b s₀ v) : Keeps b s₀ (if p then u else v) := by
  split; exacts [hu, hv]

theorem freeFrame_keeps (h : Keeps b s₀ s) {p} : Keeps b s₀ (freeFrame s p) := by
  unfold freeFrame
  grind [modFrame_keeps]

theorem deliver_keeps (h : Keeps b s₀ s) {r bs} : Keeps b s₀ (deliver s r bs) :=
  h.of_eq rfl rfl rfl

theorem zeroPlane_keeps (h : Keeps b s₀ s) {m} : Keeps b s₀ (zeroPlane s m) := by
  unfold zeroPlane
  grind [modTeam_keeps]

theorem landShared_keeps (h : Keeps b s₀ s) {tid gid names} : Keeps b s₀ (landShared s tid gid names) := by
  unfold landShared
  grind [fields_keeps, foldl_keeps, deliver_keeps, dropMsg_keeps, zeroPlane_keeps]

theorem fillResult_keeps (h : Keeps b s₀ s) {tid gid core names} : Keeps b s₀ (fillResult s tid gid core names) := by
  unfold fillResult
  grind [landShared_keeps, modTeam_keeps]

theorem fillAfter_keeps (h : Keeps b s₀ s) {r} : Keeps b s₀ (fillAfter s r) := by
  unfold fillAfter
  grind [fillResult_keeps]

theorem parkAt_keeps (h : Keeps b s₀ s) {id r} : Keeps b s₀ (parkAt s id r) :=
  h.of_eq rfl rfl rfl

theorem startCommit_keeps (h : Keeps b s₀ s) {id r} : Keeps b s₀ (startCommit s id r) := by
  unfold startCommit
  grind [fields_keeps, foldl_keeps, post_keeps, putMsg_keeps]

theorem noteTouch_keeps (h : Keeps b s₀ s) {r} : Keeps b s₀ (noteTouch s r) := by
  unfold noteTouch
  grind [modCore_keeps, modCluster_keeps]

theorem moveClose_keeps (h : Keeps b s₀ s) {src t2 g pt rel back} : Keeps b s₀ (moveClose s src t2 g pt rel back) := by
  unfold moveClose
  grind [putMsg_keeps, modGroup_keeps, dropMsg_keeps, post_keeps]

theorem noteSent_keeps (h : Keeps b s₀ s) {src pt back} : Keeps b s₀ (noteSent s src pt back) := by
  unfold noteSent
  grind [modGroup_keeps, modTeam_keeps]

theorem moveSend_keeps (h : Keeps b s₀ s) {src old new} : Keeps b s₀ (moveSend s src old new) := by
  unfold moveSend
  grind [moveClose_keeps, noteSent_keeps]

theorem countPerformed_keeps (h : Keeps b s₀ s) {r at_} : Keeps b s₀ (countPerformed s r at_) := by
  unfold countPerformed
  grind [moveSend_keeps, countWrite_keeps]

theorem ackPeer_keeps (h : Keeps b s₀ s) {tid gid name} : Keeps b s₀ (ackPeer s tid gid name) :=
  h.of_eq rfl rfl rfl

theorem afterPerform_keeps (h : Keeps b s₀ s) {s0 : State} {id r bs} : Keeps b s₀ (afterPerform s0 s id r bs) := by
  unfold afterPerform
  grind [countPerformed_keeps, popHold_keeps, post_keeps, ackPeer_keeps, deliver_keeps]

theorem unsend_keeps (h : Keeps b s₀ s) {id r} : Keeps b s₀ (unsend s id r) := by
  unfold unsend
  grind [moveSend_keeps, ackPeer_keeps]

theorem dropLater_keeps (h : Keeps b s₀ s) {tid gid instr} : Keeps b s₀ (dropLater s tid gid instr) := by
  unfold dropLater
  grind [fields_keeps, foldl_keeps, unsend_keeps, dropMsg_keeps, putMsg_keeps]

theorem rollBack_keeps (h : Keeps b s₀ s) {tid m} : Keeps b s₀ (rollBack s tid m) :=
  h.of_eq rfl rfl rfl

theorem lateFault_keeps (h : Keeps b s₀ s) {id r code} : Keeps b s₀ (lateFault s id r code) := by
  unfold lateFault
  grind [unsend_keeps, drawBytes_keeps, takeFault_keeps, deliver_keeps, dropLater_keeps, rollBack_keeps, modTeam_keeps]

theorem returned_keeps (h : Keeps b s₀ s) {id r} : Keeps b s₀ (returned s id r) := by
  unfold returned
  grind [lrBump_keeps, parkAt_keeps, putMsg_keeps]

theorem bounceAll_keeps (h : Keeps b s₀ s) {id r} : Keeps b s₀ (bounceAll s id r) := by
  unfold bounceAll
  grind [fields_keeps, foldl_keeps, returned_keeps, stashDrop_keeps]

theorem retranslate_keeps (h : Keeps b s₀ s) {r} : Keeps b s₀ (retranslate s r).2 := by
  unfold retranslate
  grind [stashDrop_keeps, translate_keeps, moveSend_keeps]

/-- A bounced request walks again at once, if its walk need not wait and there is a miss-status entry for it (R117, R369). -/
def walkAgain (k : Nat) (s : State) (id : Nat) (r : MemReq) : State :=
  match retranslate (dropMsg s id) r with
  | (.ok r', s') => if entryFree s' r' then settle k s' id r' else putMsg s id (.bounced r)
  | (.error 0, s) => putMsg s id (.bounced r)
  | (.error c, s) => lateFault s id r c

/-- What becomes of a request that has bounced (R369). -/
def afterBounce (k : Nat) (s : State) (id : Nat) (r : MemReq) : State :=
  if 8 ≤ r.tries + 1 then s
  else if (popHold s).1 || heldBack (popHold s).2 r id then (popHold s).2
  else walkAgain k (popHold s).2 id r

/-- What becomes of a request by what its access comes to. -/
def afterAccess (k : Nat) (s : State) (id : Nat) (r : MemReq) : Perf → State
  | .done s' bs => noteTouch (afterPerform s s' id r bs) r
  | .waits => putMsg s id (.mem r)
  | .bad c s => lateFault s id r c
  | .bounced => afterBounce k (bounceAll s id r) id r

/-- The agenda may hold a message back at a point that it passes (log entry 1). -/
def holdIf (p : Bool) (s : State) : Bool × State := if p then popHold s else (false, s)

theorem holdIf_keeps (h : Keeps b s₀ s) {p : Bool} : Keeps b s₀ (holdIf p s).2 := by
  unfold holdIf
  split
  · exact popHold_keeps h
  · exact h

theorem settle_succ (k : Nat) (s : State) (id : Nat) (r : MemReq) : settle (k + 1) s id r =
    let p := holdIf (missing s r).isSome s
    if p.1 then putMsg p.2 id (.sector r ((missing p.2 r).getD 0))
    else
      let q := holdIf (isStrictCommit p.2 r.place r && !commitOn p.2 r.place && frameTakes (frameAt p.2 r.place) r.ten = some true) p.2
      if q.1 then startCommit q.2 id r else afterAccess k q.2 id r (perform q.2 r) := by
  rw [settle]
  cases missing s r <;> rfl

theorem settle_keeps (h : Keeps b s₀ s) {k id : Nat} {r : MemReq} : Keeps b s₀ (settle k s id r) := by
  induction k generalizing s r with
  | zero => exact parkAt_keeps h
  | succ k ih =>
    have hwalk : ∀ u, Keeps b s₀ u → Keeps b s₀ (walkAgain k u id r) := fun u hu => by
      unfold walkAgain
      grind [retranslate_keeps, dropMsg_keeps, putMsg_keeps, lateFault_keeps]
    have hbounce : ∀ u, Keeps b s₀ u → Keeps b s₀ (afterBounce k u id r) := fun u hu => by
      unfold afterBounce
      grind [popHold_keeps]
    have haccess : ∀ u x, Keeps b s₀ u → PerfKeeps b s₀ x → Keeps b s₀ (afterAccess k u id r x) := fun u x hu hx => by
      cases x with
      | done v bs => exact noteTouch_keeps (afterPerform_keeps hx)
      | waits => exact putMsg_keeps hu
      | bad c v => exact lateFault_keeps hx
      | bounced => exact hbounce _ (bounceAll_keeps hu)
    rw [settle_succ]
    dsimp only
    split
    · exact putMsg_keeps (holdIf_keeps h)
    · split
      · exact startCommit_keeps (holdIf_keeps (holdIf_keeps h))
      · exact haccess _ _ (holdIf_keeps (holdIf_keeps h)) (perform_keeps (holdIf_keeps (holdIf_keeps h)))

theorem performMsg_keeps (h : Keeps b s₀ s) {id r} : Keeps b s₀ (performMsg s id r) := by
  unfold performMsg
  grind [fillAfter_keeps, settle_keeps, dropMsg_keeps]

theorem replay_keeps (h : Keeps b s₀ s) {id r} : Keeps b s₀ (replay s id r) := by
  unfold replay
  grind [retranslate_keeps, dropMsg_keeps, fillAfter_keeps, settle_keeps, putMsg_keeps, lateFault_keeps]

theorem commitDone_keeps (h : Keeps b s₀ s) {cm r} : Keeps b s₀ (commitDone s cm r) := by
  unfold commitDone
  grind [fillAfter_keeps, noteTouch_keeps, countPerformed_keeps, dropMsg_keeps]

theorem commitValue_keeps (h : Keeps b s₀ s) {r bs} : Keeps b s₀ (commitValue s r bs) := by
  unfold commitValue
  grind [post_keeps, deliver_keeps]

theorem commitBad_keeps (h : Keeps b s₀ s) {cm r code} : Keeps b s₀ (commitBad s cm r code) := by
  unfold commitBad
  grind [fields_keeps, foldl_keeps, lateFault_keeps, modFrame_keeps, dropMsg_keeps]

theorem performFrame_done_keeps (h : Keeps b s₀ s) {p r bs} (e : performFrame s p r = .done t bs) : Keeps b s₀ t := by
  have hp := performFrame_keeps h (p := p) (r := r)
  rwa [e] at hp

theorem performFrame_bad_keeps (h : Keeps b s₀ s) {p r code} (e : performFrame s p r = .bad code t) : Keeps b s₀ t := by
  have hp := performFrame_keeps h (p := p) (r := r)
  rwa [e] at hp

theorem finishCommit_keeps (h : Keeps b s₀ s) {p} : Keeps b s₀ (finishCommit s p) := by
  unfold finishCommit
  split
  · exact h
  · next cm r off done hfind =>
    dsimp only
    have hends : ∀ u, Keeps b s₀ u → Keeps b s₀ (commitDone ((frameAt u p).repl.foldl (fun s q => updateReplica s p off r.size q.1 q.2) u) cm r) :=
      fun u hu => commitDone_keeps (foldl_keeps (fun _ _ h => updateReplica_keeps h) hu)
    split
    · exact hends _ (fields_keeps h)
    · split
      · next hv => exact hends _ (commitValue_keeps (performFrame_done_keeps (fields_keeps h) hv))
      · next hv => exact commitBad_keeps (performFrame_bad_keeps (fields_keeps h) hv)
      · exact fields_keeps h

theorem deliveryGone_keeps (h : Keeps b s₀ s) {d} : Keeps b s₀ (deliveryGone s d) := by
  unfold deliveryGone
  grind [moveSend_keeps, modTeam_keeps, post_keeps]

theorem acceptDelivery_keeps (h : Keeps b s₀ s) {tid d} : Keeps b s₀ (acceptDelivery s tid d) :=
  h.of_eq rfl rfl rfl

theorem takeDelivery_keeps (h : Keeps b s₀ s) {id d} : Keeps b s₀ (takeDelivery s id d) := by
  unfold takeDelivery
  grind [deliveryGone_keeps, putMsg_keeps, acceptDelivery_keeps]

theorem readDesk_keeps (h : Keeps b s₀ s) {t1 off n} : Keeps b s₀ (readDesk s t1 off n).2 := by
  unfold readDesk
  grind [drawBytes_keeps]

theorem takeRemoteLoad_keeps (h : Keeps b s₀ s) {id tid gid core addr size dest lanes fences} :
    Keeps b s₀ (takeRemoteLoad s id tid gid core addr size dest lanes fences) := by
  unfold takeRemoteLoad
  grind [putMsg_keeps, modTeam_keeps, drawBytes_keeps, post_keeps, readDesk_keeps]

theorem serveLoad_keeps (h : Keeps b s₀ s) {id tid gid core addr size dest lanes fences} :
    Keeps b s₀ (serveLoad s id tid gid core addr size dest lanes fences) := by
  unfold serveLoad
  grind [fillResult_keeps, takeRemoteLoad_keeps, dropMsg_keeps]

theorem bringMsg_keeps (h : Keeps b s₀ s) {id} : Keeps b s₀ (bringMsg s id) := by
  unfold bringMsg
  grind [performMsg_keeps, replay_keeps, finishCommit_keeps, takeDelivery_keeps, modCore_keeps, dropMsg_keeps, serveLoad_keeps, ackPeer_keeps]

theorem flushHost_keeps (h : Keeps b s₀ s) : Keeps b s₀ (flushHost s) := by
  unfold flushHost
  grind [fields_keeps, foldl_keeps, bringMsg_keeps]

theorem writeBack_keeps (h : Keeps b s₀ s) {p : Place} : Keeps b s₀ (writeBack s p) := by
  have hwrite : ∀ u k, Keeps b s₀ u → Keeps b s₀ ((homeWrite u (frameAt s p).hclu (frameAt s p).hpage (frameAt s p).pk (16 * k)
      (readBytes (frameAt s p).data (16 * k) 16)).getD u) := fun u k hu => homeWrite_getD_keeps hu
  unfold writeBack
  grind [foldl_keeps, freeFrame_keeps, flushHost_keeps, setResidence_keeps]

theorem sealedAt_keeps (h : Keeps b s₀ s) {m} : Keeps b s₀ (sealedAt s m) := by
  unfold sealedAt
  grind [modFrame_keeps]

theorem cameHome_keeps (h : Keeps b s₀ s) {part aspace vpage} : Keeps b s₀ (cameHome s part aspace vpage) :=
  h.of_eq rfl rfl rfl

theorem wakeParked_keeps (h : Keeps b s₀ s) {mv places} : Keeps b s₀ (wakeParked s mv places) := by
  unfold wakeParked
  grind [fields_keeps, foldl_keeps, popHold_keeps, putMsg_keeps, replay_keeps]

theorem finishMove_keeps (h : Keeps b s₀ s) {mv} : Keeps b s₀ (finishMove s mv) := by
  unfold finishMove
  grind [fields_keeps, foldl_keeps, modFrame_keeps, sealedAt_keeps, cameHome_keeps, setResidence_keeps, wakeParked_keeps]

theorem modMove_keeps (h : Keeps b s₀ s) {mv f} : Keeps b s₀ (modMove s mv f) :=
  h.of_eq rfl rfl rfl

theorem landSector_keeps (h : Keeps b s₀ s) {mv sec} : Keeps b s₀ (landSector s mv sec) := by
  unfold landSector
  grind [modMove_keeps, carried_keeps, modFrame_keeps, homeWrite_getD_keeps]

theorem landAll_keeps (h : Keeps b s₀ s) {mv} : Keeps b s₀ (landAll s mv) := by
  unfold landAll
  grind [fields_keeps, foldl_keeps, landSector_keeps, flushHost_keeps]

theorem noticeMove_keeps (h : Keeps b s₀ s) {mv} : Keeps b s₀ (noticeMove s mv) :=
  h.of_eq rfl rfl rfl

theorem landMove_keeps (h : Keeps b s₀ s) {mv} : Keeps b s₀ (landMove s mv) := by
  unfold landMove
  grind [landAll_keeps, noticeMove_keeps, sealedAt_keeps]

theorem sendSectors_keeps (h : Keeps b s₀ s) {src resent l} : Keeps b s₀ (sendSectors s src resent l).2 := by
  induction l generalizing s with
  | nil => exact h
  | cons k l ih => exact ih (carried_keeps h)

theorem takeRecall_keeps (h : Keeps b s₀ s) {core aspace vpage loc} : Keeps b s₀ (takeRecall s core aspace vpage loc) := by
  unfold takeRecall
  grind [lrBump_keeps, modCore_keeps]

theorem sendRecalls_keeps (h : Keeps b s₀ s) {part hold aspace vpage loc} : Keeps b s₀ (sendRecalls s part hold aspace vpage loc) := by
  unfold sendRecalls
  grind [fields_keeps, foldl_keeps, popHold_keeps, post_keeps, takeRecall_keeps]

theorem sealMove_keeps (h : Keeps b s₀ s) {mv} : Keeps b s₀ (sealMove s mv) := by
  unfold sealMove
  grind [sendSectors_keeps, modMove_keeps, freeFrame_keeps, sendRecalls_keeps]

theorem endMove_keeps (h : Keeps b s₀ s) {mv} : Keeps b s₀ (endMove s mv) := by
  unfold endMove
  grind [finishMove_keeps, landMove_keeps, sealMove_keeps]

theorem dropReplica_keeps (h : Keeps b s₀ s) {home core n} : Keeps b s₀ (dropReplica s home core n) := by
  unfold dropReplica
  grind [freeFrame_keeps, modFrame_keeps]

theorem dropReplicas_keeps (h : Keeps b s₀ s) {home} : Keeps b s₀ (dropReplicas s home) := by
  unfold dropReplicas
  grind [fields_keeps, foldl_keeps, dropReplica_keeps]

theorem landSealed_keeps (h : Keeps b s₀ s) {c p} : Keeps b s₀ (landSealed s c p) := by
  unfold landSealed
  grind [landMove_keeps]

/-- A write of bytes into a frame that holds their sector, or fetches it first. -/
def frameWrite (s : State) (sec off : Nat) (bs : List Byte) (q : Place) : State := match fetchSector s q sec with
    | some s => modFrame s q (fun f => { f with data := writeBytes f.data off bs, dirty := f.dirty ||| BitVec.ofNat 256 (2 ^ sec) })
    | none => s

theorem frameWrite_keeps (h : Keeps b s₀ s) {sec off bs q} : Keeps b s₀ (frameWrite s sec off bs q) := by
  unfold frameWrite
  split
  · next e => exact modFrame_keeps (fetchSector_keeps h e)
  · exact h

theorem currentWrite_keeps (h : Keeps b s₀ s) {c p pk off bs} : Keeps b s₀ (currentWrite s c p pk off bs) := by
  have hland := landSealed_keeps h (c := c) (p := p)
  have hhome := homeWrite_getD_keeps hland (c := c) (p := p) (pk := pk) (off := off) (bs := bs)
  have hframe := fun q => frameWrite_keeps hland (sec := off / 16) (off := off) (bs := bs) (q := q)
  simp only [frameWrite] at hframe
  unfold currentWrite
  dsimp only
  split
  · exact ite_keeps (hframe _) (ite_keeps (hframe _) hhome)
  · split
    · exact ite_keeps (hframe _) hhome
    · exact hhome

theorem tableWrite_keeps (h : Keeps b s₀ s) {c p off v} : Keeps b s₀ (tableWrite s c p off v) := by
  unfold tableWrite
  grind [currentWrite_keeps]

theorem rewriteLeaf_keeps (h :
    Keeps b s₀ s) {part aspace va src srcTen dst dstTen} (e : rewriteLeaf s part aspace va src srcTen dst dstTen = some t) :
    Keeps b s₀ t := by
  unfold rewriteLeaf at e
  grind [Option.bind_eq_some_iff, tableWrite_keeps]

theorem startMove_keeps (h : Keeps b s₀ s) {part aspace vpage l dst team mv}
    (e : startMove s part aspace vpage l dst team = some (mv, t)) : Keeps b s₀ t := by
  have hended := finishCommit_keeps h (p := l.place)
  have hsole := ite_keeps (p := isFrame l.place) (dropReplicas_keeps hended (home := l.place)) hended
  simp only [startMove, Option.ite_none_left_eq_some] at e
  obtain ⟨-, -, e⟩ := e
  split at e
  · cases e
  · next hu =>
    obtain ⟨rfl, rfl⟩ := e
    refine fields_keeps (newId_keeps ?_)
    have hnamed := rewriteLeaf_keeps (b := b) (s₀ := s₀) ?_ hu
    · exact ite_keeps (setResidence_keeps hnamed) hnamed
    · refine ite_keeps (modFrame_keeps (sendSectors_keeps (ite_keeps (setFrame_keeps ?_) ?_))) (sendSectors_keeps (ite_keeps (setFrame_keeps ?_) ?_))
      all_goals exact ite_keeps (modFrame_keeps hsole) (setResidence_keeps hsole)

theorem moveHome_keeps (h : Keeps b s₀ s) {part aspace vpage whole} : Keeps b s₀ (moveHome s part aspace vpage whole) := by
  unfold moveHome
  grind [startMove_keeps, popHold_keeps, endMove_keeps]

theorem followHome_keeps (h : Keeps b s₀ s) {m} : Keeps b s₀ (followHome s m) := by
  unfold followHome
  grind [moveHome_keeps]

theorem runMove_keeps (h : Keeps b s₀ s) {mv} : Keeps b s₀ (runMove s mv) := by
  unfold runMove
  grind [endMove_keeps, followHome_keeps]

theorem freeUnnamed_keeps (h : Keeps b s₀ s) {p} : Keeps b s₀ (freeUnnamed s p) := by
  unfold freeUnnamed
  grind [finishCommit_keeps, wakeParked_keeps, freeFrame_keeps, setResidence_keeps, dropReplicas_keeps]

/-- The state that a step of the clock leaves. -/
def passState : Pass1 → State
  | .gone s | .taken s | .passed s => s

theorem clockAt_keeps (h : Keeps b s₀ s) {part p} : Keeps b s₀ (passState (clockAt s part p)) := by
  unfold clockAt
  grind [passState, freeUnnamed_keeps, modFrame_keeps]

theorem clockRun_keeps (h : Keeps b s₀ s) {part place l} : Keeps b s₀ (clockRun s part place l).2.2 := by
  induction l generalizing s with
  | nil => exact h
  | cons n l ih =>
    have hn := clockAt_keeps h (part := part) (p := place n)
    unfold clockRun
    cases e : clockAt s part (place n) <;> rw [e] at hn
    · exact hn
    · exact ih hn
    · exact hn

theorem evict_keeps (h : Keeps b s₀ s) {part p} : Keeps b s₀ (evict s part p) := by
  unfold evict
  grind [dropReplica_keeps, finishCommit_keeps, moveHome_keeps]

theorem evictNear_keeps (h : Keeps b s₀ s) {part core team} : Keeps b s₀ (evictNear s part core team) := by
  unfold evictNear
  grind [clockRun_keeps, evict_keeps, modCore_keeps]

theorem makeRoom_keeps (h : Keeps b s₀ s) {part core team quota k} : Keeps b s₀ (makeRoom part core team quota k s) := by
  induction k generalizing s with
  | zero => exact h
  | succ k ih => exact ite_keeps h (ih (evictNear_keeps h))

theorem carriedPage_keeps (h : Keeps b s₀ s) {x} : Keeps b s₀ (carriedPage s x).2 := by
  unfold carriedPage
  grind [meetAll_keeps, drawBytes_keeps]

theorem makeReplica_keeps (h : Keeps b s₀ s) {core team aspace vpage n l} : Keeps b s₀ (makeReplica s core team aspace vpage n l) := by
  unfold makeReplica
  grind [carriedPage_keeps, setFrame_keeps, modFrame_keeps, stashInstall_keeps, stashDrop_keeps]

theorem placeNear_keeps (h : Keeps b s₀ s) {part core team aspace vpage asked} : Keeps b s₀ (placeNear s part core team aspace vpage asked) := by
  unfold placeNear
  split
  · exact h
  · next l hl =>
    have hroom := ite_keeps (p := (coreOf s core).nearQuota ≤ (teamNears s core team).length) (makeRoom_keeps h
      (part := part) (core := core) (team := team) (quota := (coreOf s core).nearQuota) (k := (teamNears s core team).length)) h
    dsimp only
    refine ite_keeps h (ite_keeps h (ite_keeps h (ite_keeps h ?_)))
    split
    · exact hroom
    · refine ite_keeps (makeReplica_keeps hroom) ?_
      split
      · exact hroom
      · next hmv =>
        have hm := startMove_keeps hroom hmv
        by_cases hf : isFrame l.place
        · simp only [hf, if_true]
          exact ite_keeps (popHold_keeps hm) (runMove_keeps (popHold_keeps hm))
        · simp only [hf]
          exact runMove_keeps hm

theorem evictFar_keeps (h : Keeps b s₀ s) {part c sl} : Keeps b s₀ (evictFar s part c sl) := by
  unfold evictFar
  grind [clockRun_keeps, evict_keeps, modCluster_keeps]

theorem makeRoomFar_keeps (h : Keeps b s₀ s) {part c sl k} : Keeps b s₀ (makeRoomFar part c sl k s) := by
  induction k generalizing s with
  | zero => exact h
  | succ k ih => exact ite_keeps h (ih (evictFar_keeps h))

theorem placeFar_keeps (h : Keeps b s₀ s) {part aspace vpage dest} : Keeps b s₀ (placeFar s part aspace vpage dest) := by
  unfold placeFar
  split
  · exact h
  · next l hl =>
    dsimp only
    refine ite_keeps h ?_
    split
    · exact makeRoomFar_keeps h
    · split
      · exact makeRoomFar_keeps h
      · next hmv =>
        have hm := startMove_keeps (makeRoomFar_keeps h) hmv
        exact ite_keeps (popHold_keeps hm) (runMove_keeps (popHold_keeps hm))

end Sys2Proof.Proofs
end

