-- ==== Sys2Proof/Proofs/HostEvents.lean ====
section
/-! PROOFS. What the host does (R337, R379, R380, R405 to R408, R411, R412): the submission port, CXL.mem, BAR0, window tables and the reset of a
partition. -/

namespace Sys2Proof.Proofs

open Machine

variable {s s' : State} {part : Nat}

/-! ## The submission port (R380, R408) -/

section Port

variable {off : Nat} {bytes : List Byte} (hio : hostIo s = true) (hne : bytes ≠ []) (hclu : partClusters s.layout part ≠ [])

include hio hne hclu in
theorem submissionPort_collects (hoff : off + bytes.length < 64) : Spec.Happens (.submissionPortWrite part off bytes) s
    (modPart s part (fun p => { p with port := writeBytes p.port off bytes })) := by
  have hlast : off + bytes.length ≠ 64 := by omega
  have hin : ¬ 64 < off + bytes.length := by omega
  change execSubmissionPortWrite part off bytes s = _
  simp [execSubmissionPortWrite, hio, hne, hclu, hlast, hin, modPart]

theorem submissionPort_withheld (hoff : off + bytes.length = 64) (hfull : 1024 ≤ queued s part true + (partOf s part).submitted.length) :
    Spec.Happens (.submissionPortWrite part off bytes) s s := by
  change execSubmissionPortWrite part off bytes s = _
  simp [execSubmissionPortWrite, hoff, hfull]

include hio hne hclu in
theorem submissionPort_completes (hoff : off + bytes.length = 64) (hroom : queued s part true + (partOf s part).submitted.length < 1024) :
    Spec.Happens (.submissionPortWrite part off bytes) s
      (acceptAll part ((partOf s part).submitted ++ [readBytes (writeBytes (partOf s part).port off bytes) 0 64])
        (modPart s part (fun p => { p with
          port := writeBytes p.port off bytes
          submitted := p.submitted ++ [readBytes (writeBytes (partOf s part).port off bytes) 0 64] }))) := by
  change execSubmissionPortWrite part off bytes s = _
  simp [execSubmissionPortWrite, takeSubmitted, hio, hne, hclu, hoff, Nat.not_le.mpr hroom, partOf_modPart_self]
  rfl

end Port

theorem acceptAll_cons_some {b : List Byte} (l : List (List Byte)) (h : acceptRecord s part b = some s') :
    acceptAll part (b :: l) s = acceptAll part l s' := by
  rw [acceptAll, h]

theorem acceptAll_cons_none {b : List Byte} (l : List (List Byte)) (h : acceptRecord s part b = none) :
    acceptAll part (b :: l) s = modPart s part (fun p => { p with submitted := b :: l }) := by
  rw [acceptAll, h]

/-! ## CXL.mem (R405, R406) -/

theorem cxlMemRead_happens {off n : Nat} {bs : List Byte} (hup : hostMemUp s = true) (hin : off + n ≤ 4 * hdmSpan)
    (hread : hdmRead (cuts off n) s = some (bs, s')) : Spec.Happens (.cxlMemRead off n) s { s' with hostRead := bs } := by
  change execCxlMemRead off n s = _
  simp [execCxlMemRead, hup, Nat.not_lt.mpr hin, hread]

theorem cxlMemWrite_happens {off : Nat} {bytes : List Byte} (hup : hostMemUp s = true) (hin : off + bytes.length ≤ 4 * hdmSpan)
    (hwrite : hdmWrite (cuts off bytes.length) bytes s = some s') : Spec.Happens (.cxlMemWrite off bytes) s s' := by
  change execCxlMemWrite off bytes s = _
  simp [execCxlMemWrite, hup, Nat.not_lt.mpr hin, hwrite]

/-! ## The registers of BAR0 (R337, R407) -/

/-- The six event bits less those that a write names: a written one clears its bit. -/
theorem testBit_sub_mod_sixtyFour (n : DWord) (i : Nat) : (63 - n.toNat % 64).testBit i = (decide (i < 6) && !n.getLsbD i) := by
  have hlow : n.toNat % 2 ^ 6 < 2 ^ 6 := Nat.mod_lt _ (by decide)
  have h := Nat.testBit_two_pow_sub_succ hlow i
  rw [show 2 ^ 6 - (n.toNat % 2 ^ 6 + 1) = 63 - n.toNat % 64 by omega, Nat.testBit_mod_two_pow] at h
  rw [h, BitVec.getLsbD]
  cases decide (i < 6) <;> simp

theorem blockRead_other {reg : Nat} (hreg : reg ∉ [0x100, 0x108, 0x110, 0x118, 0x120, 0x128, 0x200, 0x208])
    (hwin : ¬ (0x4000 ≤ reg ∧ reg < 0x6000)) : blockRead s part reg = 0 := by
  simp only [List.mem_cons, not_or] at hreg
  unfold blockRead
  split <;> first | omega | simp only [hwin, Bool.and_eq_true, decide_eq_true_eq, if_false]

theorem mgmtRead_other {reg : Nat} (hreg : 0x58 < reg) : mgmtRead s reg = 0 := by
  unfold mgmtRead
  split <;> first | omega | rfl

section Registers

variable (hio : hostIo s = true) (v : DWord)

include hio

theorem layoutWrite_refused (h : v.toNat % 4 = 3 ∨ ∃ p ∈ s.teams, p.2.resident = true) :
    Spec.Happens (.layoutWrite v) s { s with mgmt := { s.mgmt with layoutRefused := true } } := by
  have hany : (decide (v.toNat % 4 = 3) || s.teams.any (fun p => p.2.resident)) = true := by
    simpa only [Bool.or_eq_true, decide_eq_true_eq, List.any_eq_true] using h
  change execLayoutWrite v s = _
  simp only [execLayoutWrite, hio, hany, Bool.not_true, Bool.false_eq_true, if_false, if_true]

theorem layoutWrite_taken (hcode : v.toNat % 4 ≠ 3) (hfree : ∀ p ∈ s.teams, p.2.resident = false) :
    Spec.Happens (.layoutWrite v) s { s with mgmt := { s.mgmt with layout := v.toNat % 4, layoutRefused := false } } := by
  have hany : (decide (v.toNat % 4 = 3) || s.teams.any (fun p => p.2.resident)) = false := by
    simpa [hcode] using hfree
  change execLayoutWrite v s = _
  simp only [execLayoutWrite, hio, hany, Bool.not_true, Bool.false_eq_true, if_false]

theorem eventsClear_outcome : ∃ s', Spec.Happens (.eventsClear v) s s' ∧
    ∀ i, s'.mgmt.events.testBit i = (s.mgmt.events.testBit i && decide (i < 6) && !v.getLsbD i) := by
  refine ⟨{ s with mgmt := { s.mgmt with events := s.mgmt.events &&& (63 - (v.toNat % 64)) } }, ?_, fun i => ?_⟩
  · change execEventsClear v s = _
    rw [execEventsClear, if_pos hio]
  · rw [Nat.testBit_and, testBit_sub_mod_sixtyFour, Bool.and_assoc]

variable (hpart : part < 4)

include hpart

theorem mbxHeadWrite_taken (hroom : wrapInt (((partOf s part).mbxTail : Int) - v.toNat) 64 ≤ 2 ^ (partOf s part).mbxSize) :
    Spec.Happens (.mbxHeadWrite part v) s (flushRecords (modPart s part (fun p => { p with mbxHead := v.toNat })) part) := by
  change execMbxHeadWrite part v s = _
  simp only [execMbxHeadWrite, hio, hpart, hroom, decide_true, Bool.and_self, if_true]

theorem mbxBaseWrite_happens : Spec.Happens (.mbxBaseWrite part v) s
    (flushRecords (modPart s part (fun p => { p with mbxBase := v.toNat / 64 * 64 })) part) := by
  change execMbxBaseWrite part v s = _
  simp only [execMbxBaseWrite, hio, hpart, decide_true, Bool.and_self, if_true]

/-- The registers of a partition's block that a write of BAR0 reaches. -/
theorem exec_blockWrite {reg : Nat} (hreg : reg < 0x10000) : exec (.bar0RegisterWrite (0x100000 + 0x10000 * part + reg) v) s = .next (
    if reg = 0x118 then flushRecords (modPart s part (fun p => { p with mbxSize := clampTo 0 16 v.toNat })) part
    else if reg = 0x200 then modPart s part (fun p => { p with pinBase := v.toNat / 4096 * 4096 })
    else if reg = 0x208 then modPart s part (fun p => { p with pinSize := v.toNat })
    else s) := by
  have hblock : (0x100000 + 0x10000 * part + reg - 0x100000) / 0x10000 = part := by omega
  have hoff : (0x100000 + 0x10000 * part + reg - 0x100000) % 0x10000 = reg := by omega
  have hstage : ¬ 0x800000 ≤ 0x100000 + 0x10000 * part + reg := by omega
  have hlow : ¬ 0x100000 + 0x10000 * part + reg < 0x100000 := by omega
  change execBar0RegisterWrite _ v s = _
  simp [execBar0RegisterWrite, hio, hblock, hoff, hstage, hlow, Nat.not_le.mpr hpart]

theorem mbxSizeWrite_happens : Spec.Happens (.bar0RegisterWrite (0x100000 + 0x10000 * part + 0x118) v) s
    (flushRecords (modPart s part (fun p => { p with mbxSize := min 16 v.toNat })) part) := by
  have hclamp : clampTo 0 16 v.toNat = min 16 v.toNat := by
    grind [clampTo]
  rw [Spec.Happens, exec_blockWrite hio v hpart (by decide), if_pos rfl, hclamp]

theorem pinBaseWrite_happens : Spec.Happens (.bar0RegisterWrite (0x100000 + 0x10000 * part + 0x200) v) s
    (modPart s part (fun p => { p with pinBase := v.toNat / 4096 * 4096 })) :=
  exec_blockWrite hio v hpart (by decide)

theorem pinSizeWrite_happens : Spec.Happens (.bar0RegisterWrite (0x100000 + 0x10000 * part + 0x208) v) s
    (modPart s part (fun p => { p with pinSize := v.toNat })) :=
  exec_blockWrite hio v hpart (by decide)

omit v in
theorem bar0Read_block {reg : Nat} (hreg : reg < 0x10000) : (bar0Read s (0x100000 + 0x10000 * part + reg)).1 = blockRead s part reg := by
  have hblock : (0x100000 + 0x10000 * part + reg - 0x100000) / 0x10000 = part := by omega
  have hoff : (0x100000 + 0x10000 * part + reg) % 0x10000 = reg := by omega
  have hstage : ¬ 0x800000 ≤ 0x100000 + 0x10000 * part + reg := by omega
  have hlow : 0x100000 ≤ 0x100000 + 0x10000 * part + reg := by omega
  have hhigh : 0x100000 + 0x10000 * part + reg < 0x140000 := by omega
  simp [bar0Read, hio, hblock, hoff, hstage, hlow, hhigh]

omit v in
theorem bar0Read_port {off : Nat} (hoff : off < 0x40) : (bar0Read s (0x100000 + 0x10000 * part + off)).1 = 0 := by
  rw [bar0Read_block hio hpart (by omega), blockRead_other (by simp; omega) (by omega)]

end Registers

theorem mbxHeadWrite_refused {v : DWord} (hroom : ¬ wrapInt (((partOf s part).mbxTail : Int) - v.toNat) 64 ≤ 2 ^ (partOf s part).mbxSize) :
    Spec.Happens (.mbxHeadWrite part v) s s := by
  change execMbxHeadWrite part v s = _
  simp only [execMbxHeadWrite, hroom, decide_false, Bool.and_false, Bool.false_eq_true, if_false]

theorem bar0Read_events (hio : hostIo s = true) : (bar0Read s 0x18).1 = s.mgmt.events := by
  simp [bar0Read, hio, mgmtRead]

section Unlisted

variable {off : Nat} (hoff : Spec.bar0Listed off = false)

include hoff

theorem not_listed : 0x58 < off ∧ ¬ (0x800000 ≤ off ∧ off < 0x1000000) ∧ (0x100000 ≤ off → off < 0x140000 →
    0x40 ≤ off % 0x10000 ∧ off % 0x10000 ∉ [0x100, 0x108, 0x110, 0x118, 0x120, 0x128, 0x200, 0x208] ∧
      ¬ (0x4000 ≤ off % 0x10000 ∧ off % 0x10000 < 0x6000)) := by
  simp only [Spec.bar0Listed, Bool.or_eq_false_iff, Bool.and_eq_false_imp, decide_eq_true_eq, decide_eq_false_iff_not, Bool.and_eq_true,
    List.contains_eq_mem, Nat.not_le, Nat.not_lt] at hoff
  grind

theorem bar0Read_unlisted : (bar0Read s off).1 = 0 := by
  obtain ⟨hlow, hstage, hblock⟩ := not_listed hoff
  unfold bar0Read
  split
  · rfl
  · split
    · next h => simp at h; omega
    · split
      · next h =>
        simp only [Bool.and_eq_true, decide_eq_true_eq] at h
        obtain ⟨-, hreg, hwin⟩ := hblock h.1 h.2
        exact blockRead_other hreg hwin
      · exact mgmtRead_other hlow

theorem bar0Write_unlisted (v : DWord) : Spec.Happens (.bar0RegisterWrite off v) s s := by
  obtain ⟨hlow, hstage, hblock⟩ := not_listed hoff
  change execBar0RegisterWrite off v s = _
  have hregs : ¬ (off < 0x100000 ∨ 4 ≤ (off - 0x100000) / 0x10000) → (off - 0x100000) % 0x10000 ∉ [0x118, 0x200, 0x208] := fun h => by
    obtain ⟨-, hreg, -⟩ := hblock (by omega) (by omega)
    rw [show (off - 0x100000) % 0x10000 = off % 0x10000 by omega]
    exact fun hmem => hreg ((by decide : [0x118, 0x200, 0x208] ⊆ [0x100, 0x108, 0x110, 0x118, 0x120, 0x128, 0x200, 0x208]) hmem)
  unfold execBar0RegisterWrite
  dsimp only
  split
  · rfl
  · split
    · next h => simp at h; omega
    · split
      · rfl
      · next h =>
        have hreg := hregs (by simpa using h)
        simp only [List.mem_cons, List.not_mem_nil, not_or] at hreg
        obtain ⟨hsize, hbase, hpin, -⟩ := hreg
        rw [if_neg hsize, if_neg hbase, if_neg hpin]

end Unlisted

/-! ## Window tables (R411, R412) -/

theorem windowTableWrite_happens {off : Nat} {bytes : List Byte} (hio : hostIo s = true) (hpart : part < 4) (hin : off + bytes.length ≤ 8192)
    (hquiet : (putWindowBytes off bytes (partOf s part)).releasing = []) :
    Spec.Happens (.windowTableWrite part off bytes) s (modPart s part (putWindowBytes off bytes)) := by
  change execWindowTableWrite part off bytes s = _
  simp [execWindowTableWrite, hio, Nat.not_le.mpr hpart, Nat.not_lt.mpr hin, hquiet]

theorem endRelease_of_mem {idx : Nat} (hmem : idx ∈ (partOf s part).releasing) : endRelease s part idx =
    if stillFramed ((framedIn s part idx).foldl (fun s p => bringHome s part p) s) part idx then (framedIn s part idx).foldl (fun s p => bringHome s part p) s
    else modPart ((framedIn s part idx).foldl (fun s p => bringHome s part p) s) part (fun p => { p with
      releasing := p.releasing.filter (· ≠ idx)
      windows := writeByte p.windows (32 * idx + 0x1A) (readByte p.windows (32 * idx + 0x1A) &&& 3) }) := by
  simp [endRelease, hmem]

/-! ## The reset of a partition (R408) -/

theorem resetPart_keeps {b : Bool} {s₀ : State} (h : Keeps b s₀ s) : Keeps b s₀ (resetPart s part) := by
  refine modPart_keeps (fields_keeps ?_) rfl rfl
  refine foldl_keeps (fun _ _ hcore => foldl_keeps (fun _ _ hu => writeBack_keeps hu) hcore) ?_
  refine foldl_keeps (fun _ _ hclu => foldl_keeps (fun _ _ hslice => foldl_keeps (fun _ _ hu => writeBack_keeps hu) hslice) hclu) ?_
  exact foldl_keeps (fun _ _ hu => runMove_keeps hu) (fields_keeps h)

theorem partOf_resetPart (s : State) (part : Nat) : ∃ p : Partition, partOf (resetPart s part) part = { Partition.blank with
    mbxBase := p.mbxBase, mbxSize := p.mbxSize, mbxHead := p.mbxHead, mbxTail := p.mbxTail, mbxSeq := p.mbxSeq, pinBase := p.pinBase,
    pinSize := p.pinSize, windows := p.windows, releasing := p.releasing } :=
  ⟨_, partOf_modPart_self _ _ _⟩

theorem preset_outcome (hio : hostIo s = true) (hpart : part < 4) : ∃ s', Spec.Happens (.preset part 1) s s' ∧
    (partOf s' part).halted = false ∧ (partOf s' part).resumeQ = [] ∧ (partOf s' part).held = [] ∧ (partOf s' part).asBase = 0 ∧
    (partOf s' part).fqBase = 0 ∧ (partOf s' part).nextGrid = 1 ∧
    ((∀ m ∈ s.moves, m.2.part ≠ part) → (partOf s' part).windows = (partOf s part).windows ∧
      (partOf s' part).mbxTail = (partOf s part).mbxTail) := by
  obtain ⟨p, hp⟩ := partOf_resetPart s part
  have hkept := (resetPart_keeps (part := part) (Keeps.refl true s)).2 rfl part
  refine ⟨resetPart s part, ?_, ?_, ?_, ?_, ?_, ?_, ?_, fun _ => hkept⟩
  · change execPreset part 1 s = _
    simp [execPreset, hio, hpart]
  all_goals rw [hp]; rfl

/-- Settles O53: each clause by a lemma about its event; a reset keeps the window table and the mailbox's tail because no function that ends a move
or writes a frame back changes them. -/
theorem hostEvents : Obligations.HostEvents := by
  unfold Obligations.HostEvents
  refine ⟨fun part off bytes s hio hne hclu => ⟨submissionPort_collects hio hne hclu, submissionPort_withheld, submissionPort_completes hio hne hclu⟩,
    fun part b l s => ⟨rfl, fun s' => acceptAll_cons_some l, acceptAll_cons_none l⟩, fun off n bs s s' => cxlMemRead_happens,
    fun off bytes s s' => cxlMemWrite_happens, fun v s hio => ⟨layoutWrite_refused hio v, layoutWrite_taken hio v⟩,
    fun v s hio => eventsClear_outcome hio v, fun part v s hio hpart => ⟨mbxHeadWrite_taken hio v hpart, mbxHeadWrite_refused⟩,
    fun part v s hio hpart => mbxBaseWrite_happens hio v hpart,
    fun part v s hio hpart => ⟨mbxSizeWrite_happens hio v hpart, pinBaseWrite_happens hio v hpart, pinSizeWrite_happens hio v hpart,
      fun off => bar0Read_port hio hpart, bar0Read_block hio hpart (by decide), bar0Read_block hio hpart (by decide), bar0Read_events hio⟩,
    fun off s _ hoff => ⟨bar0Read_unlisted hoff, bar0Write_unlisted hoff⟩,
    fun part off bytes s hio hpart hin _ hquiet => windowTableWrite_happens hio hpart hin hquiet,
    fun part idx s hmem => ⟨fun hstill => ?_, fun hdone => ?_⟩, fun part s hio hpart => preset_outcome hio hpart⟩
  · change Host.Outcome.next (endRelease s part idx) = _
    rw [endRelease_of_mem hmem, if_pos hstill]
  · change Host.Outcome.next (endRelease s part idx) = _
    rw [endRelease_of_mem hmem, if_neg (by simp [hdone])]

end Sys2Proof.Proofs
end

