-- ==== Sys2Proof/Proofs/IssueKept.lean ====
section
/-! PROOFS. What an instruction's issue keeps of memory's canonical form (log entry 2): the start and the end of an instruction, and the outcomes
that an effect, a device access or a step can have. -/

namespace Sys2Proof.Proofs

open Machine

variable {s₀ s t : State}

/-- The state that a step leaves keeps memory canonical. -/
def OutKeeps (s₀ : State) : Host.Outcome State Fault Refusal → Prop
  | .next s => Keeps false s₀ s
  | .fault _ => True
  | .refused _ => True

/-- The states that an effect can leave keep memory canonical; a refusal and a fault take the state of before it. -/
def EffKeeps (s₀ : State) : Eff → Prop
  | .done s => Keeps false s₀ s
  | .hold _ s => Keeps false s₀ s
  | .refused _ _ _ _ => True
  | .fault _ _ _ _ _ => True

def StartKeeps (s₀ : State) : Start → Prop
  | .idle => True
  | .fault _ _ s => Keeps false s₀ s
  | .held _ _ s => Keeps false s₀ s
  | .go _ s s' => Keeps false s₀ s ∧ Keeps false s₀ s'

def GotKeeps (s₀ : State) : Got → Prop
  | .ok _ s => Keeps false s₀ s
  | .wait => True
  | .fault _ _ s => Keeps false s₀ s
  | .gone _ => True

def AtOnceKeeps (s₀ : State) : AtOnce → Prop
  | .done s _ => Keeps false s₀ s
  | .held s => Keeps false s₀ s
  | .bad _ _ s => Keeps false s₀ s

def CheckedKeeps (s₀ : State) : Checked → Prop
  | .fault _ _ s => Keeps false s₀ s
  | .wait => True
  | .ok _ s => Keeps false s₀ s

def PlacedKeeps (s₀ : State) : Placed → Prop
  | .all s => Keeps false s₀ s
  | .passed s => Keeps false s₀ s
  | .waits s => Keeps false s₀ s

def ImageKeeps (s₀ : State) : ImageRead → Prop
  | .ok _ s => Keeps false s₀ s
  | .wait => True
  | .fault _ _ s => Keeps false s₀ s

def FoundKeeps (s₀ : State) : Found → Prop
  | .images _ s => Keeps false s₀ s
  | .nothing => True
  | .wait => True
  | .fault _ _ s => Keeps false s₀ s

def RanKeeps (s₀ : State) : Ran → Prop
  | .landed s => Keeps false s₀ s
  | .partly _ s => Keeps false s₀ s
  | .wait => True
  | .fault _ _ s => Keeps false s₀ s
  | .gone _ => True

theorem EffKeeps.ite {p : Prop} [Decidable p] {e e' : Eff} (he : EffKeeps s₀ e) (he' : EffKeeps s₀ e') : EffKeeps s₀ (if p then e else e') := by
  split; exacts [he, he']

theorem OutKeeps.ite {p : Prop} [Decidable p] {o o' : Host.Outcome State Fault Refusal} (ho : OutKeeps s₀ o) (ho' : OutKeeps s₀ o') :
    OutKeeps s₀ (if p then o else o') := by
  split; exacts [ho, ho']

theorem FoundKeeps.ite {p : Prop} [Decidable p] {e e' : Found} (he : FoundKeeps s₀ e) (he' : FoundKeeps s₀ e') :
    FoundKeeps s₀ (if p then e else e') := by
  split; exacts [he, he']

theorem bad_keeps {code : Nat} {lanes : Mask} : EffKeeps s₀ (.bad code lanes) := trivial

/-! ## The start and the end of an instruction (R40, R41, R47, R182) -/

section

variable (h : Keeps false s₀ s)

include h

theorem refreshFrame_keeps {core n : Nat} {home : Place} : Keeps false s₀ (refreshFrame s core n home) := modFrame_keeps (carriedPage_keeps h)

theorem refreshReplicas_keeps {core bind : Nat} : Keeps false s₀ (refreshReplicas s core bind) := by
  refine foldl_keeps (fun u p hu => ?_) h
  cases p.2.replicaOf with
  | none => exact hu
  | some q => exact refreshFrame_keeps hu

theorem passYield_keeps {tid gid : Nat} : Keeps false s₀ (passYield s tid gid) := h.of_eq rfl rfl rfl

theorem afterYield_keeps {tid gid : Nat} {y : Bool} : Keeps false s₀ (afterYield s tid gid y) := ite_keeps (passYield_keeps h) h

theorem moveOn_keeps {i : Instr} {c : Ctx} : Keeps false s₀ (moveOn i c s) := h.of_eq rfl rfl rfl

theorem raiseFault_keeps {tid gid : Nat} {g : Group} {code addr : Nat} {lanes : Mask} {aux scode restart : Nat} :
    Keeps false s₀ (raiseFault s tid gid g code addr lanes aux scode restart) := takeFault_keeps h

theorem holdGroup_keeps {tid gid core : Nat} {w : Wait} : Keeps false s₀ (holdGroup s tid gid core w) := modGroup_keeps h

theorem youngest_keeps {core tid gid : Nat} : Keeps false s₀ (youngest s core tid gid) := modCore_keeps h

theorem retire_keeps {core tid gid : Nat} : Keeps false s₀ (retire s core tid gid) := modTeam_keeps (youngest_keeps h)

theorem start_keeps {i : Instr} : StartKeeps s₀ (start i s) := by
  unfold start
  dsimp only
  split
  · next t g _ _ =>
    have hfresh : Keeps false s₀ (if g.wait = some (.performed true) then refreshReplicas s t.core 0 else s) := ite_keeps (refreshReplicas_keeps h) h
    split
    · trivial
    · split
      · trivial
      · generalize (if g.wait = some (.performed true) then refreshReplicas s t.core 0 else s) = u at hfresh ⊢
        split
        · exact hfresh
        · split
          · exact hfresh
          · split
            · exact hfresh
            · split
              · exact ⟨hfresh, moveOn_keeps (afterYield_keeps hfresh)⟩
              · trivial
  · trivial

theorem conclude_keeps {c : Ctx} {e : Eff} (he : EffKeeps s₀ e) : Keeps false s₀ (conclude c s e) := by
  cases e with
  | done u => exact retire_keeps he
  | refused u => exact raiseFault_keeps (fields_keeps h)
  | fault => exact raiseFault_keeps h
  | hold w u => exact holdGroup_keeps (modTeam_keeps (modGroup_keeps he))

/-- An issued instruction keeps memory canonical when its effect does. -/
theorem issue_keeps {i : Instr} {body : Ctx → State → Eff} (hbody : ∀ c u, Keeps false s₀ u → EffKeeps s₀ (body c u)) :
    OutKeeps s₀ (issue i body s) := by
  have hstart := start_keeps h (i := i)
  unfold issue
  cases e : start i s <;> rw [e] at hstart
  case idle => exact h
  case fault => exact raiseFault_keeps hstart
  case held => exact holdGroup_keeps hstart
  case go c u u' => exact conclude_keeps hstart.1 (hbody c u' hstart.2)

theorem onGroup_keeps {f : Ctx → Group → Group} {c : Ctx} : EffKeeps s₀ (onGroup f c s) := modGroup_keeps h

theorem onShelf_keeps {f : State → Eff} {c : Ctx} (hf : ∀ u, Keeps false s₀ u → EffKeeps s₀ (f u)) : EffKeeps s₀ (onShelf c f s) := by
  have hmet := meetEcc_keeps h (bus := c.core) (shelf := true)
  unfold onShelf
  split
  · trivial
  · next u e => exact hf u (by rwa [e] at hmet)

end

end Sys2Proof.Proofs
end

