-- ==== Sys2Proof/Proofs/ComputeKept.lean ====
section
/-! PROOFS. What keeps memory in its canonical form (log entry 2): classes 0 to 3: scalar, control, vector and floating instructions, with the fetch of a body that REPT skips. -/

namespace Sys2Proof.Proofs

open Machine

variable {s₀ s t : State}

theorem toScalar_keeps (h : Keeps false s₀ s) {d f x} : EffKeeps s₀ (toScalar d f x s) := by
  unfold toScalar
  grind [onGroup_keeps]

theorem sBin_keeps (h : Keeps false s₀ s) {op d a b u w x} : EffKeeps s₀ (sBin op d a b u w x s) := by
  unfold sBin
  grind [toScalar_keeps]

theorem sImm_keeps (h : Keeps false s₀ s) {op d a imm x} : EffKeeps s₀ (sImm op d a imm x s) := by
  unfold sImm
  grind [toScalar_keeps]

theorem branch_keeps (h : Keeps false s₀ s) {off n taken also x} : EffKeeps s₀ (branch off n taken also x s) := by
  unfold branch
  grind [onGroup_keeps]

theorem execJr_keeps (h : Keeps false s₀ s) {a kind} : OutKeeps s₀ (execJr a kind s) :=
  issue_keeps h fun c u hu => by
    grind [onGroup_keeps, bad_keeps]

theorem bounceBack_keeps (h : Keeps false s₀ s) {core aspace va} : Keeps false s₀ (bounceBack s core aspace va) :=
  h.of_eq rfl rfl rfl

theorem fetchBounced_keeps (h : Keeps false s₀ s) {r} : Keeps false s₀ (fetchBounced s r) :=
  h.of_eq rfl rfl rfl

theorem perform_done_keeps (h : Keeps false s₀ s) {r : MemReq} {bs : List Byte} (e : perform s r = .done t bs) : Keeps false s₀ t := by
  have hp := perform_keeps h (r := r)
  rwa [e] at hp

theorem perform_bad_keeps (h : Keeps false s₀ s) {r : MemReq} {code : Nat} (e : perform s r = .bad code t) : Keeps false s₀ t := by
  have hp := perform_keeps h (r := r)
  rwa [e] at hp

theorem fetchFrom_keeps (h : Keeps false s₀ s) {tm : Team} {g : Group} {pc k : Nat} : Keeps false s₀ (fetchFrom tm g pc k s).2 := by
  induction k generalizing s with
  | zero => exact h
  | succ k ih =>
    have htrans := translate_keeps h (core := tm.core) (part := tm.part) (aspace := tm.aspace) (va := pc) (user := !tm.supervisor)
      (need := .exec) (acc := .read)
    unfold fetchFrom
    split
    · next e => rwa [e] at htrans
    · next e => rwa [e] at htrans
    · next x u e =>
      rw [e] at htrans
      dsimp only
      split
      · next hp => exact ite_keeps (modGroup_keeps (perform_done_keeps htrans hp)) (perform_done_keeps htrans hp)
      · next hp => exact perform_bad_keeps htrans hp
      · exact htrans
      · split
        · exact fetchBounced_keeps htrans
        · exact ih (fetchBounced_keeps htrans)

theorem fetchAt_keeps (h : Keeps false s₀ s) {tm g pc} : Keeps false s₀ (fetchAt s tm g pc).2 := by
  unfold fetchAt
  grind [fetchFrom_keeps]

theorem skipBody_keeps (h : Keeps false s₀ s) {tm : Team} {g : Group} {fuel n pc : Nat} : Keeps false s₀ (skipBody tm g fuel n pc s).2 := by
  induction fuel generalizing s n pc with
  | zero =>
    unfold skipBody
    exact h
  | succ fuel ih =>
    have hfetch := fetchAt_keeps h (tm := tm) (g := g) (pc := pc)
    cases n with
    | zero =>
      unfold skipBody
      exact h
    | succ n =>
      unfold skipBody
      split
      all_goals
        rename_i e
        rw [e] at hfetch
      · exact hfetch
      · exact ih hfetch
      · exact ih hfetch

theorem execRept_keeps (h : Keeps false s₀ s) {a len} : OutKeeps s₀ (execRept a len s) :=
  issue_keeps h fun c u hu => by
    grind [skipBody_keeps, onGroup_keeps, EffKeeps]

theorem execIfv_keeps (h : Keeps false s₀ s) {mask neg off} : OutKeeps s₀ (execIfv mask neg off s) :=
  issue_keeps h fun c u hu => by
    grind [onGroup_keeps, bad_keeps]

theorem execElsev_keeps (h : Keeps false s₀ s) {off} : OutKeeps s₀ (execElsev off s) :=
  issue_keeps h fun c u hu => by
    grind [onGroup_keeps, bad_keeps]

theorem execEndv_keeps (h : Keeps false s₀ s) : OutKeeps s₀ (execEndv s) :=
  issue_keeps h fun c u hu => by
    grind [onGroup_keeps, bad_keeps]

theorem writeVec_keeps (h : Keeps false s₀ s) {c guard nw d r} : Keeps false s₀ (writeVec c guard nw d r s) := by
  unfold writeVec
  grind [modTeam_keeps, modGroup_keeps]

theorem vecBin_keeps (h : Keeps false s₀ s) {op guard nw d a b x} : EffKeeps s₀ (vecBin op guard nw d a b x s) := by
  unfold vecBin
  grind [writeVec_keeps, EffKeeps]

theorem writeMask_keeps (h : Keeps false s₀ s) {c guard mask f} : Keeps false s₀ (writeMask c guard mask f s) :=
  h.of_eq rfl rfl rfl

theorem vecUn_keeps (h : Keeps false s₀ s) {op guard nw d a x} : EffKeeps s₀ (vecUn op guard nw d a x s) := by
  unfold vecUn
  grind [writeVec_keeps, EffKeeps]

theorem writePair_keeps (h : Keeps false s₀ s) {c guard nw d r} : Keeps false s₀ (writePair c guard nw d r s) := by
  unfold writePair
  grind [modTeam_keeps, modGroup_keeps]

theorem execVmov_keeps (h : Keeps false s₀ s) {guard nw d a b mod} : OutKeeps s₀ (execVmov guard nw d a b mod s) :=
  issue_keeps h fun _ _ hu =>
    ite_keeps (writeVec_keeps hu) (ite_keeps (writeVec_keeps hu) (ite_keeps (writeVec_keeps hu) (writePair_keeps hu)))

theorem execVscan_keeps (h : Keeps false s₀ s) {guard nw d a b mod} : OutKeeps s₀ (execVscan guard nw d a b mod s) :=
  issue_keeps h fun _ _ hu => modGroup_keeps (writeVec_keeps hu)

theorem writeFloat_keeps (h : Keeps false s₀ s) {c guard nw d r} : Keeps false s₀ (writeFloat c guard nw d r s) := by
  unfold writeFloat
  grind [writeVec_keeps, modGroup_keeps]

theorem fltBin_keeps (h : Keeps false s₀ s) {op guard nw d a b x} : EffKeeps s₀ (fltBin op guard nw d a b x s) := by
  unfold fltBin
  grind [writeFloat_keeps, EffKeeps]

theorem fltTri_keeps (h : Keeps false s₀ s) {op guard d a b x} : EffKeeps s₀ (fltTri op guard d a b x s) := by
  unfold fltTri
  grind [writeFloat_keeps, EffKeeps]

theorem fltCompare_keeps (h : Keeps false s₀ s) {c guard cond mask x y} : Keeps false s₀ (fltCompare c guard cond mask x y s) :=
  h.of_eq rfl rfl rfl

theorem fltUn_keeps (h : Keeps false s₀ s) {op guard nw d a x} : EffKeeps s₀ (fltUn op guard nw d a x s) := by
  unfold fltUn
  grind [writeFloat_keeps, EffKeeps]

theorem writeFloatPair_keeps (h : Keeps false s₀ s) {c guard nw d r} : Keeps false s₀ (writeFloatPair c guard nw d r s) := by
  unfold writeFloatPair
  grind [writePair_keeps, modGroup_keeps]

theorem execDcvt_keeps (h : Keeps false s₀ s) {guard nw d a code rnd} : OutKeeps s₀ (execDcvt guard nw d a code rnd s) :=
  issue_keeps h fun _ _ hu => by
    dsimp only [EffKeeps]
    split
    exacts [writeFloatPair_keeps hu, writeFloat_keeps hu, writeFloatPair_keeps hu, writeFloatPair_keeps hu, writeFloat_keeps hu,
      writeFloat_keeps hu, writeFloatPair_keeps hu, writeFloatPair_keeps hu]

theorem execFscale_keeps (h : Keeps false s₀ s) {guard nw d a b mod} : OutKeeps s₀ (execFscale guard nw d a b mod s) :=
  issue_keeps h fun _ _ hu => ite_keeps (writeFloatPair_keeps hu) (writeFloat_keeps hu)

end Sys2Proof.Proofs
end

