-- ==== Sys2Proof/Proofs/AccessKept.lean ====
section
/-! PROOFS. What keeps memory in its canonical form (log entry 2): class 4: accesses to mem and the scratchpad, their order, PLACE, WAITA, ACQ and REL. -/

namespace Sys2Proof.Proofs

open Machine

variable {s₀ s t : State}

theorem translateAll_keeps (h : Keeps false s₀ s) {c : Ctx} {l : List Access} : Keeps false s₀ (translateAll c l s).2 := by
  induction l generalizing s with
  | nil => exact h
  | cons a l ih =>
    have htrans := translate_keeps h (core := c.core) (part := c.t.part) (aspace := c.t.aspace) (va := a.addr) (user := !c.t.supervisor)
      (need := a.acc.need) (acc := a.acc)
    unfold translateAll
    split
    all_goals
      rename_i e
      rw [e] at htrans
    · exact htrans
    · exact ih htrans

theorem checkMem_keeps (h : Keeps false s₀ s) {c l} : CheckedKeeps s₀ (checkMem c l s) := by
  have htrans := translateAll_keeps h (c := c) (l := sortAccesses l)
  unfold checkMem
  split
  · exact h
  · split
    · exact h
    · split
      · trivial
      all_goals
        rename_i e
        rw [e] at htrans
      · exact htrans
      · dsimp only
        split <;> exact htrans

theorem noteAt_keeps (h : Keeps false s₀ s) {src p back} : Keeps false s₀ (noteAt s src p back) := by
  unfold noteAt
  grind [noteSent_keeps]

theorem submit_keeps (h : Keeps false s₀ s) {r} : Keeps false s₀ (submit s r) := by
  unfold submit
  grind [noteAt_keeps, newId_keeps, modGroup_keeps, popHold_keeps, putMsg_keeps, settle_keeps]

theorem sendEach_keeps (h : Keeps false s₀ s) {c : Ctx} {instr : Nat} {lanes : Mask} {far : Bool} {l : List (Access × Xlat)} :
    Keeps false s₀ (sendEach c instr lanes far l s) := by
  induction l generalizing s with
  | nil => exact h
  | cons p l ih => exact ite_keeps h (ih (submit_keeps h))

theorem pruneMarks_keeps (h : Keeps false s₀ s) {tid} : Keeps false s₀ (pruneMarks s tid) :=
  h.of_eq rfl rfl rfl

theorem sendAll_keeps (h : Keeps false s₀ s) {c lanes l far names} : Keeps false s₀ (sendAll c lanes l far names s) := by
  unfold sendAll
  grind [fillResult_keeps, newId_keeps, modTeam_keeps, sendEach_keeps, pruneMarks_keeps]

theorem memAccess_keeps (h : Keeps false s₀ s) {c active names l far} : EffKeeps s₀ (memAccess c active names l far s) := by
  have hcheck := checkMem_keeps h (c := c) (l := l)
  unfold memAccess
  split
  · trivial
  · exact h
  · next e =>
    rw [e] at hcheck
    split
    · exact sendAll_keeps hcheck
    · exact h

theorem readWindow_keeps (h : Keeps false s₀ s) {tm off n} : Keeps false s₀ (readWindow s tm off n).2 := by
  unfold readWindow
  grind [drawBytes_keeps]

theorem spadAct_keeps {c : Ctx} {x : List (Access × List Byte) × State} (h : Keeps false s₀ x.2) {p : Access × Spad} :
    Keeps false s₀ (spadAct c x p).2 := by
  unfold spadAct
  grind [modTeam_keeps, readDesk_keeps, readWindow_keeps]

theorem sendDelivery_keeps (h : Keeps false s₀ s) {d} : Keeps false s₀ (sendDelivery s d) := by
  unfold sendDelivery
  grind [noteSent_keeps, modTeam_keeps, newId_keeps, popHold_keeps, putMsg_keeps, modCore_keeps, takeDelivery_keeps]

theorem sendRemoteLoad_keeps (h : Keeps false s₀ s) {tid gid core addr size dest lanes fences} :
    Keeps false s₀ (sendRemoteLoad s tid gid core addr size dest lanes fences) := by
  unfold sendRemoteLoad
  grind [newId_keeps, popHold_keeps, putMsg_keeps, takeRemoteLoad_keeps]

theorem spadSend_keeps (h : Keeps false s₀ s) {c active p} : Keeps false s₀ (spadSend c active s p) := by
  unfold spadSend
  grind [sendDelivery_keeps, sendRemoteLoad_keeps]

theorem spadLand_keeps (h : Keeps false s₀ s) {c instr r} : Keeps false s₀ (spadLand c instr s r) := by
  unfold spadLand
  grind [post_keeps, modTeam_keeps]

theorem spadLanes_keeps (h : Keeps false s₀ s) {c active instr l} : Keeps false s₀ (spadLanes c active instr l s) := by
  have hact : ∀ (k : List (Access × Spad)) (x : List (Access × List Byte) × State), Keeps false s₀ x.2 → Keeps false s₀ (k.foldl (spadAct c) x).2 :=
    fun k => by
      induction k with
      | nil => exact fun _ hx => hx
      | cons p k ih => exact fun x hx => ih _ (spadAct_keeps hx)
  exact foldl_keeps (fun _ _ hu => spadSend_keeps hu) (foldl_keeps (fun _ _ hu => spadLand_keeps hu) (hact l ([], s) h))

theorem spadAccess_keeps (h : Keeps false s₀ s) {c active names l atomic} : EffKeeps s₀ (spadAccess c active names l atomic s) := by
  unfold spadAccess
  grind [fillResult_keeps, spadLanes_keeps, EffKeeps]

theorem clearPlane_keeps (h : Keeps false s₀ s) {c m data} : Keeps false s₀ (clearPlane c m data s) :=
  h.of_eq rfl rfl rfl

theorem execPlld_keeps (h : Keeps false s₀ s) {guard data ofs base planes} : OutKeeps s₀ (execPlld guard data ofs base planes s) :=
  issue_keeps h fun c u hu => by
    dsimp only
    grind [memAccess_keeps, clearPlane_keeps, EffKeeps]

theorem execPlst_keeps (h : Keeps false s₀ s) {guard data ofs base planes} : OutKeeps s₀ (execPlst guard data ofs base planes s) :=
  issue_keeps h fun c u hu => by
    dsimp only
    grind [memAccess_keeps, EffKeeps]

theorem ordAfter_keeps (h : Keeps false s₀ s) {c} : Keeps false s₀ (ordAfter c s) := by
  unfold ordAfter
  grind [modGroup_keeps, refreshReplicas_keeps]

theorem newEpoch_keeps (h : Keeps false s₀ s) {tid gid scope} : Keeps false s₀ (newEpoch s tid gid scope) :=
  h.of_eq rfl rfl rfl

theorem takeAnswer_keeps (h : Keeps false s₀ s) {src pt rel} : Keeps false s₀ (takeAnswer s src pt rel) := by
  unfold takeAnswer
  grind [modGroup_keeps, modTeam_keeps]

theorem takeClose_keeps (h : Keeps false s₀ s) {src pt n rel} : Keeps false s₀ (takeClose s src pt n rel) := by
  unfold takeClose
  grind [clearCount_keeps, popHold_keeps, post_keeps, takeAnswer_keeps]

theorem sendClose_keeps (h : Keeps false s₀ s) {src pt n rel} : Keeps false s₀ (sendClose s src pt n rel) := by
  unfold sendClose
  grind [popHold_keeps, post_keeps, takeClose_keeps]

theorem openRelease_keeps (h : Keeps false s₀ s) {tid gid sys} {y} (e : openRelease s tid gid sys = some (y, t)) : Keeps false s₀ t := by
  unfold openRelease at e
  grind [foldl_keeps, newId_keeps, modGroup_keeps, sendClose_keeps, popHold_keeps, post_keeps]

theorem fence_keeps (h : Keeps false s₀ s) {c acq rel scope} : EffKeeps s₀ (fence c acq rel scope s) := by
  unfold fence
  dsimp only
  split
  · exact h
  · have hhome : Keeps false s₀ (if 2 ≤ scope then modGroup s c.tid c.gid (fun g => { g with placeHome := [] }) else s) :=
      ite_keeps (modGroup_keeps h) h
    generalize (if 2 ≤ scope then modGroup s c.tid c.gid (fun g => { g with placeHome := [] }) else s) = u at hhome ⊢
    split
    · exact hhome
    · next v hopen =>
      have hv : Keeps false s₀ v := by
        grind [Option.map_eq_some_iff, newEpoch_keeps, openRelease_keeps]
      split
      · split
        · exact hv
        · exact ite_keeps (refreshReplicas_keeps hv) hv
      · exact hv

/-- The effect of an atomic once its release fence is passed: its own effect, and what its acquire leaves to wait for. -/
def orderedGo (f : Ctx → State → Eff) (c : Ctx) (s : State) : Eff := match f c s with
  | .done s => .done (ordAfter c s)
  | e => e

theorem orderedGo_keeps {f : Ctx → State → Eff} (hf : ∀ c u, Keeps false s₀ u → EffKeeps s₀ (f c u)) (h : Keeps false s₀ s) {c : Ctx} :
    EffKeeps s₀ (orderedGo f c s) := by
  have heff := hf c s h
  unfold orderedGo
  split
  · next e =>
    rw [e] at heff
    exact ordAfter_keeps heff
  · exact heff

theorem withOrder_keeps (h : Keeps false s₀ s) {f : Ctx → State → Eff} (hf : ∀ c u, Keeps false s₀ u → EffKeeps s₀ (f c u)) {c : Ctx} :
    EffKeeps s₀ (withOrder f c s) := by
  have hgo := fun c u (hu : Keeps false s₀ u) => orderedGo_keeps hf hu (c := c)
  have hfence := fence_keeps h (c := c) (acq := false) (rel := true) (scope := c.h.scope)
  unfold withOrder
  simp only [orderedGo] at hgo
  dsimp only
  split
  · exact h
  · split
    · exact hgo c s h
    · have heff := hf { c with g := { c.g with fences := c.g.fences.next s c.h.scope } } s h
      split
      · split
        · next e =>
          rw [e] at hfence
          exact hgo _ _ hfence
        · exact h
      · exact heff

theorem memOrSpad_keeps (h :
    Keeps false s₀ s) {sp : Bool} {c : Ctx} {active : Mask} {names : List RegName} {l l' : List Access} {atomic far : Bool} :
    EffKeeps s₀ (if sp then spadAccess c active names l atomic s else memAccess c active names l' far s) :=
  .ite (spadAccess_keeps h) (memAccess_keeps h)

theorem execAtom_keeps (h : Keeps false s₀ s) {guard data ofs base op} : OutKeeps s₀ (execAtom guard data ofs base op s) :=
  issue_keeps h fun _ _ hu => withOrder_keeps hu fun _ _ hv => memOrSpad_keeps hv

theorem execAtomx_keeps (h : Keeps false s₀ s) {guard data ofs base op} : OutKeeps s₀ (execAtomx guard data ofs base op s) :=
  issue_keeps h fun _ _ hu => withOrder_keeps hu fun _ _ hv => memOrSpad_keeps hv

theorem execRed_keeps (h : Keeps false s₀ s) {guard data ofs base op} : OutKeeps s₀ (execRed guard data ofs base op s) :=
  issue_keeps h fun _ _ hu => withOrder_keeps hu fun _ _ hv => memAccess_keeps hv

theorem execSatom_keeps (h : Keeps false s₀ s) {data base op} : OutKeeps s₀ (execSatom data base op s) :=
  issue_keeps h fun _ _ hu => withOrder_keeps hu fun _ _ hv => spadAccess_keeps hv

theorem placeOne_keeps (h : Keeps false s₀ s) {c w vpage} : Keeps false s₀ (placeOne c w s vpage) := by
  unfold placeOne
  grind [fields_keeps, placeNear_keeps, popHold_keeps, post_keeps, placeFar_keeps, modGroup_keeps, moveHome_keeps]

theorem execPlace_keeps (h : Keeps false s₀ s) {len base wher} : OutKeeps s₀ (execPlace len base wher s) :=
  issue_keeps h fun _ _ hu => by
    dsimp only
    split
    · exact hu
    · exact foldl_keeps (fun _ _ hv => placeOne_keeps hv) hu

theorem readBounced_keeps (h : Keeps false s₀ s) {r} : Keeps false s₀ (readBounced s r) :=
  h.of_eq rfl rfl rfl

theorem readRun_keeps {before : State} (hb : Keeps false s₀ before) (h : Keeps false s₀ s) {all l : List MemReq} :
    AtOnceKeeps s₀ (readRun before all l s) := by
  induction l generalizing s with
  | nil => exact h
  | cons r l ih =>
    unfold readRun
    split
    · next hp =>
      have hrest := ih (perform_done_keeps h hp)
      split
      · next e => rwa [e] at hrest
      · exact hrest
    · next hp => exact perform_bad_keeps h hp
    · exact readBounced_keeps h
    · exact modGroup_keeps hb

theorem readAtOnce_keeps (h : Keeps false s₀ s) {c l} : AtOnceKeeps s₀ (readAtOnce c l s) := by
  have hrun := readRun_keeps h h (all := l) (l := l)
  unfold readAtOnce
  split
  · exact h
  · split
    · next e =>
      rw [e] at hrun
      exact modGroup_keeps hrun
    · exact hrun

theorem checkMem_ok_keeps (h : Keeps false s₀ s) {c : Ctx} {l : List Access} {r : List (Access × Xlat)} (e : checkMem c l s = .ok r t) :
    Keeps false s₀ t := by
  have hcheck := checkMem_keeps h (c := c) (l := l)
  rwa [e] at hcheck

theorem readAtOnce_done_keeps (h : Keeps false s₀ s) {c : Ctx} {l : List MemReq} {bs : List Byte} (e : readAtOnce c l s = .done t bs) :
    Keeps false s₀ t := by
  have hread := readAtOnce_keeps h (c := c) (l := l)
  rwa [e] at hread

theorem readAtOnce_held_keeps (h : Keeps false s₀ s) {c : Ctx} {l : List MemReq} (e : readAtOnce c l s = .held t) : Keeps false s₀ t := by
  have hread := readAtOnce_keeps h (c := c) (l := l)
  rwa [e] at hread

theorem execWaita_keeps (h : Keeps false s₀ s) {data uns wide base cond} : OutKeeps s₀ (execWaita data uns wide base cond s) :=
  issue_keeps h fun c u hu => by
    dsimp only
    split
    · trivial
    · exact hu
    · next e => exact checkMem_ok_keeps hu e
    · next acc x l v e =>
      have hv : Keeps false s₀ v := checkMem_ok_keeps hu e
      split
      · exact hv
      · split
        · next w _ hw =>
          have hw : Keeps false s₀ w := readAtOnce_done_keeps hv hw
          exact .ite (passYield_keeps (modGroup_keeps hw)) hw
        · next hw => exact readAtOnce_held_keeps hv hw
        · trivial

theorem execAcq_keeps (h : Keeps false s₀ s) {a d scope} : OutKeeps s₀ (execAcq a d scope s) :=
  issue_keeps h fun c u hu => by
    dsimp only
    split
    · trivial
    · exact hu
    · next e => exact checkMem_ok_keeps hu e
    · next acc x l v e =>
      have hv : Keeps false s₀ v := checkMem_ok_keeps hu e
      split
      · exact hv
      · split
        · next w _ hw =>
          have hw : Keeps false s₀ w := readAtOnce_done_keeps hv hw
          exact modGroup_keeps (ite_keeps hw (refreshReplicas_keeps hw))
        · next hw => exact readAtOnce_held_keeps hv hw
        · trivial

/-- REL's own write, once its release has completed. -/
def relFinish (c : Ctx) (acc : Access) (x : Xlat) (s : State) : Eff :=
  let c := match groupOf s c.tid c.gid with
    | some g => { c with g := { c.g with phase := g.phase } }
    | none => c
  let s := sendAll c c.g.m0 [(acc, x)] true [] s
  .done (if readsOut s c.tid c.gid false && !takenBack s c.tid c.gid s.nextId then modGroup s c.tid c.gid (fun g => { g with wait := some (.performed false) }) else s)

theorem relFinish_keeps (h : Keeps false s₀ s) {c : Ctx} {acc : Access} {x : Xlat} : EffKeeps s₀ (relFinish c acc x s) := by
  unfold relFinish
  exact ite_keeps (modGroup_keeps (sendAll_keeps h)) (sendAll_keeps h)

/-- REL opens its release, and writes if that has completed at once. -/
def relOpen (c : Ctx) (sys : Bool) (acc : Access) (x : Xlat) (s : State) : Eff :=
  match openRelease s c.tid c.gid sys with
  | none => .hold (.release 0) s
  | some (id, s) => if (groupOf s c.tid c.gid).any (fun g => (g.release id).isSome) then .hold (.release id) s else relFinish c acc x s

theorem relOpen_keeps (h : Keeps false s₀ s) {c : Ctx} {sys : Bool} {acc : Access} {x : Xlat} : EffKeeps s₀ (relOpen c sys acc x s) := by
  unfold relOpen
  split
  · exact h
  · next e =>
    have hopen := openRelease_keeps h e
    split
    · exact hopen
    · exact relFinish_keeps hopen

theorem execRel_keeps (h : Keeps false s₀ s) {a scope} : OutKeeps s₀ (execRel a scope s) :=
  issue_keeps h fun c u hu => by
    dsimp only
    split
    · trivial
    · exact hu
    · next e => exact checkMem_ok_keeps hu e
    · next acc x l v e =>
      have hv : Keeps false s₀ v := checkMem_ok_keeps hu e
      split
      · exact hv
      · split
        · split
          · split
            · exact hv
            · exact relFinish_keeps hv (c := c) (acc := acc) (x := x)
          · exact relOpen_keeps hv (c := c) (sys := scope = 4) (acc := acc) (x := x)
        · exact relOpen_keeps hv (c := c) (sys := scope = 4) (acc := acc) (x := x)

theorem execTlwait_keeps (h : Keeps false s₀ s) {a tl} : OutKeeps s₀ (execTlwait a tl s) :=
  issue_keeps h fun _ _ hu => by
    exact .ite hu (.ite (passYield_keeps hu) hu)

end Sys2Proof.Proofs
end

