-- ==== Sys2Proof/Proofs/EngineKept.lean ====
section
/-! PROOFS. What keeps memory in its canonical form (log entry 2): barriers, exchanges, queues and engine commands. -/

namespace Sys2Proof.Proofs

open Machine

variable {s₀ s t : State}

theorem execBaralloc_keeps (h : Keeps false s₀ s) {d p} : OutKeeps s₀ (execBaralloc d p s) :=
  issue_keeps h fun c u hu => by
    grind [onGroup_keeps, modTeam_keeps, bad_keeps]

theorem execBarfree_keeps (h : Keeps false s₀ s) {d b} : OutKeeps s₀ (execBarfree d b s) :=
  issue_keeps h fun c u hu => by
    grind [onGroup_keeps, modTeam_keeps, bad_keeps]

theorem checkDeadlock_keeps (h : Keeps false s₀ s) {tid} : Keeps false s₀ (checkDeadlock s tid) := by
  unfold checkDeadlock
  grind [takeFault_keeps, lrBump_keeps]

theorem thenCheck_keeps {tid : Nat} {o : Host.Outcome State Fault Refusal} (h : OutKeeps s₀ o) : OutKeeps s₀ (thenCheck tid o) := by
  cases o with
  | next s => exact checkDeadlock_keeps h
  | fault => trivial
  | refused => trivial

theorem arrive_keeps (h : Keeps false s₀ s) {c n x} : Keeps false s₀ (arrive c n x s) :=
  h.of_eq rfl rfl rfl

theorem execBararr_keeps (h : Keeps false s₀ s) {b} : OutKeeps s₀ (execBararr b s) := by
  refine thenCheck_keeps (issue_keeps h fun c u hu => ?_)
  split
  · trivial
  · refine .ite trivial ?_
    split
    · exact hu
    · exact arrive_keeps hu

theorem awaitPhase_keeps (h : Keeps false s₀ s) {c n ph} : EffKeeps s₀ (awaitPhase c n ph s) := by
  unfold awaitPhase
  grind [passYield_keeps, EffKeeps]

theorem execBarwait_keeps (h : Keeps false s₀ s) {b} : OutKeeps s₀ (execBarwait b s) := by
  refine thenCheck_keeps (issue_keeps h fun c u hu => ?_)
  split
  · trivial
  · refine .ite trivial ?_
    split
    · exact passYield_keeps hu
    · exact awaitPhase_keeps hu

theorem execBarsync_keeps (h : Keeps false s₀ s) {b} : OutKeeps s₀ (execBarsync b s) := by
  refine thenCheck_keeps (issue_keeps h fun c u hu => ?_)
  split
  · trivial
  · refine .ite trivial ?_
    split
    · exact .ite (awaitPhase_keeps hu) hu
    · split
      · exact hu
      · exact awaitPhase_keeps (arrive_keeps hu)

theorem takeXclose_keeps (h : Keeps false s₀ s) {grid src dst ph n} : Keeps false s₀ (takeXclose s grid src dst ph n) := by
  unfold takeXclose
  grind [modTeam_keeps]

theorem execXarr_keeps (h : Keeps false s₀ s) {m} : OutKeeps s₀ (execXarr m s) :=
  issue_keeps h fun c u hu => by
    dsimp only
    split
    · trivial
    · exact .ite trivial (foldl_keeps (fun _ _ hv => ite_keeps (post_keeps (popHold_keeps hv)) (takeXclose_keeps (popHold_keeps hv))) (modTeam_keeps hu))

theorem execXwait_keeps (h : Keeps false s₀ s) {m} : OutKeeps s₀ (execXwait m s) :=
  issue_keeps h fun c u hu => by
    dsimp only
    split
    · trivial
    · exact .ite trivial (.ite hu (.ite hu (passYield_keeps (modTeam_keeps hu))))

theorem setQueue_keeps (h : Keeps false s₀ s) {tid n q} : Keeps false s₀ (setQueue s tid n q) :=
  h.of_eq rfl rfl rfl

theorem execQalloc_keeps (h : Keeps false s₀ s) {d a cc} : OutKeeps s₀ (execQalloc d a cc s) :=
  issue_keeps h fun c u hu => by
    grind [onGroup_keeps, setQueue_keeps, bad_keeps]

theorem execQfree_keeps (h : Keeps false s₀ s) {d q} : OutKeeps s₀ (execQfree d q s) :=
  issue_keeps h fun c u hu => by
    grind [onGroup_keeps, modTeam_keeps, bad_keeps]

theorem pushQueue_keeps (h : Keeps false s₀ s) {tid n x w} : Keeps false s₀ (pushQueue s tid n x w) :=
  h.of_eq rfl rfl rfl

theorem execQpush_keeps (h : Keeps false s₀ s) {q w} : OutKeeps s₀ (execQpush q w s) :=
  issue_keeps h fun c u hu => by
    split
    · trivial
    · exact .ite (pushQueue_keeps hu) (setQueue_keeps hu)

theorem popQueue_keeps (h : Keeps false s₀ s) {tid n x} : Keeps false s₀ (popQueue s tid n x).2 := by
  unfold popQueue
  grind [setQueue_keeps]

theorem execQpop_keeps (h : Keeps false s₀ s) {d q} : OutKeeps s₀ (execQpop d q s) :=
  issue_keeps h fun c u hu => by
    dsimp only
    split
    · trivial
    · exact .ite (passYield_keeps (modGroup_keeps (popQueue_keeps hu))) (setQueue_keeps hu)

theorem execQtry_keeps (h : Keeps false s₀ s) {d q w push} : OutKeeps s₀ (execQtry d q w push s) :=
  issue_keeps h fun c u hu => by
    grind [onGroup_keeps, pushQueue_keeps, popQueue_keeps, bad_keeps, EffKeeps]

theorem execQgrant_keeps (h : Keeps false s₀ s) {q n} : OutKeeps s₀ (execQgrant q n s) :=
  issue_keeps h fun c u hu => by
    dsimp only
    split
    · trivial
    · exact .ite trivial (setQueue_keeps hu)

theorem badPage_keeps (h : Keeps false s₀ s) {tm need acc a n} {y z} (e : badPage s tm need acc a n = some (y, z, t)) : Keeps false s₀ t := by
  unfold badPage at e
  split at e
  · cases e
  · obtain ⟨i, -, hi⟩ := List.exists_of_findSome?_eq_some e
    have htrans := fun va => translate_keeps h (core := tm.core) (part := tm.part) (aspace := tm.aspace) (va := va) (user := !tm.supervisor)
      (need := need) (acc := acc)
    dsimp only at hi
    generalize (if i = 0 then a else (a / 4096 + i) * 4096) = va at hi
    have htrans := htrans va
    grind

theorem checkColl_keeps (h : Keeps false s₀ s) {tm b} {y z} (e : checkColl s tm b = some (y, z, t)) : Keeps false s₀ t := by
  unfold checkColl at e
  grind [badPage_keeps, Option.or_eq_some_iff]

theorem checkCard_keeps (h : Keeps false s₀ s) {tm kind card} {y z} (e : checkCard s tm kind card = some (y, z, t)) : Keeps false s₀ t := by
  unfold checkCard at e
  grind [checkColl_keeps, Option.map_eq_some_iff]

theorem countSends_keeps (h : Keeps false s₀ s) {tm kind card} : Keeps false s₀ (countSends s tm kind card) :=
  h.of_eq rfl rfl rfl

theorem hideLines_keeps (h : Keeps false s₀ s) {tm kind card tl num} : Keeps false s₀ (hideLines s tm kind card tl num) := by
  unfold hideLines
  grind [foldl_keeps, modTeam_keeps]

theorem engAccess_keeps (h : Keeps false s₀ s) {tm c x x1 x2 x3} : GotKeeps s₀ (engAccess tm c x s x1 x2 x3) := by
  induction x generalizing s with
  | zero => trivial
  | succ k ih =>
    have htrans := translate_keeps h (core := tm.core) (part := tm.part) (aspace := tm.aspace) (va := x1) (user := !tm.supervisor)
      (need := x2.need) (acc := x2)
    unfold engAccess
    split
    · exact h
    · split
      · trivial
      all_goals
        rename_i e
        rw [e] at htrans
      · exact htrans
      · dsimp only
        split
        · trivial
        · split
          · next hp =>
            have hdone := perform_done_keeps htrans hp
            dsimp only [GotKeeps]
            split
            · exact countWrite_keeps (noteSent_keeps hdone)
            · exact hdone
          · trivial
          · next hp => exact perform_bad_keeps htrans hp
          · exact ih (bounceBack_keeps htrans)

theorem engAccess_ok_keeps (h : Keeps false s₀ s) {tm : Team} {c : Cmd} {k va n : Nat} {acc : Acc} {bs : List Byte}
    (e : engAccess tm c k s va acc n = .ok bs t) : Keeps false s₀ t := by
  have hacc := engAccess_keeps h (tm := tm) (c := c) (x := k) (x1 := va) (x2 := acc) (x3 := n)
  rwa [e] at hacc

theorem engReadCuts_keeps (h : Keeps false s₀ s) {tm c x} : GotKeeps s₀ (engReadCuts tm c x s) := by
  induction x generalizing s with
  | nil => exact h
  | cons p l ih =>
    obtain ⟨va, n⟩ := p
    have hacc := engAccess_keeps h (tm := tm) (c := c) (x := 9) (x1 := va) (x2 := .read) (x3 := n)
    unfold engReadCuts
    split
    · next e =>
      have hrest := ih (engAccess_ok_keeps h e)
      split
      · next e => rwa [e] at hrest
      · exact hrest
    · exact hacc

theorem engRead_keeps (h : Keeps false s₀ s) {tm c va n} : GotKeeps s₀ (engRead tm c va n s) := by
  unfold engRead
  grind [engReadCuts_keeps]

theorem sprayRow_keeps (h : Keeps false s₀ s) {tm c space a n src} : Keeps false s₀ (sprayRow tm c space a n src s) := by
  unfold sprayRow
  refine foldl_keeps (fun u q hu => ?_) (drawBytes_keeps h)
  dsimp only
  split
  · split
    · next e => exact engAccess_ok_keeps hu e
    · exact hu
  · split
    · exact modTeam_keeps hu
    · exact hu

theorem runPass_keeps (h : Keeps false s₀ s) {core p} : Keeps false s₀ (runPass s core p) := by
  unfold runPass
  grind [fields_keeps, foldl_keeps, modTeam_keeps, modCore_keeps]

theorem flushArray_keeps (h : Keeps false s₀ s) {core} : Keeps false s₀ (flushArray s core) := by
  unfold flushArray
  grind [foldl_keeps, runPass_keeps, modCore_keeps]

theorem overlapFree_keeps (h : Keeps false s₀ s) {tm k a bs} : Keeps false s₀ (overlapFree tm k a bs s).2 := by
  unfold overlapFree
  grind [drawBytes_keeps]

theorem engWriteCuts_keeps (h : Keeps false s₀ s) {tm c x x1} : GotKeeps s₀ (engWriteCuts tm c x x1 s) := by
  induction x generalizing s x1 with
  | nil => exact h
  | cons p l ih =>
    obtain ⟨va, n⟩ := p
    have hacc := engAccess_keeps h (tm := tm) (c := c) (x := 9) (x1 := va) (x2 := .write (x1.take n)) (x3 := n)
    unfold engWriteCuts
    split
    · next e => exact ih (engAccess_ok_keeps h e)
    · exact hacc

theorem engWrite_keeps (h : Keeps false s₀ s) {tm c va bs} : GotKeeps s₀ (engWrite tm c va bs s) := by
  unfold engWrite
  grind [engWriteCuts_keeps]

theorem writeRow_keeps (h : Keeps false s₀ s) {tm c k j bs} : GotKeeps s₀ (writeRow tm c k j bs s) := by
  unfold writeRow
  grind [flushArray_keeps, modTeam_keeps, overlapFree_keeps, engWrite_keeps, sendDelivery_keeps, GotKeeps]

theorem writeRow_ok_keeps (h : Keeps false s₀ s) {tm : Team} {c : Cmd} {k : CopyCard} {j : Nat} {bs bs' : List Byte}
    (e : writeRow tm c k j bs s = .ok bs' t) : Keeps false s₀ t := by
  have hrow := writeRow_keeps h (tm := tm) (c := c) (k := k) (j := j) (bs := bs)
  rwa [e] at hrow

theorem sprayCmd_keeps (h : Keeps false s₀ s) {tm c n} : Keeps false s₀ (sprayCmd tm c n s) := by
  unfold sprayCmd
  dsimp only
  split
  · exact sprayRow_keeps h
  · split
    · exact h
    · refine foldl_keeps (fun u j hu => ?_) h
      split
      · split
        · next e => exact writeRow_ok_keeps (drawBytes_keeps hu) e
        · exact drawBytes_keeps hu
      · exact sprayRow_keeps hu
  · exact h

def DecodedKeeps (s₀ : State) : Decoded → Prop
  | .ended _ s => Keeps false s₀ s
  | .error _ s => Keeps false s₀ s
  | .stop _ g => GotKeeps s₀ g

theorem engRead_ok_keeps (h : Keeps false s₀ s) {tm : Team} {c : Cmd} {va n : Nat} {bs : List Byte} (e : engRead tm c va n s = .ok bs t) :
    Keeps false s₀ t := by
  have hread := engRead_keeps h (tm := tm) (c := c) (va := va) (n := n)
  rwa [e] at hread

theorem dcmpLoop_keeps (h : Keeps false s₀ s) {tm : Team} {c : Cmd} {src slen cap k p : Nat} {out : List Byte} :
    DecodedKeeps s₀ (dcmpLoop tm c src slen cap k p out s) := by
  induction k generalizing s p out with
  | zero => exact h
  | succ k ih =>
    have hread : ∀ u, Keeps false s₀ u → ∀ va n, GotKeeps s₀ (engRead tm c va n u) := fun u hu va n => engRead_keeps hu
    unfold dcmpLoop
    split
    · exact h
    · split
      · next e =>
        have hu := engRead_ok_keeps h e
        dsimp only
        split
        · split
          · next e =>
            have hv := engRead_ok_keeps hu e
            split
            · exact hv
            · exact ih hv
          · exact hread _ hu _ _
        · split
          · exact hu
          · split
            · next e =>
              have hv := engRead_ok_keeps hu e
              split
              · exact hv
              · split
                · exact hv
                · split
                  · exact ih hv
                  · exact hv
            · exact hread _ hu _ _
      · exact hread _ h _ _

theorem decodeCmd_ok_keeps (h : Keeps false s₀ s) {tm : Team} {c : Cmd} {d : List Byte × Nat} (e : decodeCmd tm c s = .ok (d, t)) :
    Keeps false s₀ t := by
  unfold decodeCmd at e
  have hloop := dcmpLoop_keeps h (tm := tm) (c := c) (src := cardField c.card 0 8) (slen := cardField c.card 0x10 4)
    (cap := cardField c.card 0x14 4) (k := cardField c.card 0x10 4 + 1) (p := 0) (out := [])
  split at e
  · next eq =>
    rw [eq] at hloop
    cases e
    exact hloop
  · next eq =>
    rw [eq] at hloop
    cases e
    exact drawBytes_keeps hloop
  · cases e

theorem spoilCmd_keeps (h : Keeps false s₀ s) {tid tl num} : Keeps false s₀ (spoilCmd s tid tl num) := by
  unfold spoilCmd
  split
  · exact h
  · dsimp only
    split
    · exact h
    · split
      · split
        · exact h
        · split
          · next e => exact modTeam_keeps (sprayCmd_keeps (decodeCmd_ok_keeps h e))
          · exact sprayCmd_keeps h
      · exact ite_keeps h (modTeam_keeps (sprayCmd_keeps h))
      · exact h

theorem takeEngineFault_keeps (h : Keeps false s₀ s) {tm c code addr again} : Keeps false s₀ (takeEngineFault s tm c code addr again) :=
  h.of_eq rfl rfl rfl

theorem completeCmd_keeps (h : Keeps false s₀ s) {tid c} : Keeps false s₀ (completeCmd s tid c) := by
  unfold completeCmd
  grind [foldl_keeps, clearCount_keeps, modTeam_keeps, takeEngineFault_keeps]

theorem completeNow_keeps (h : Keeps false s₀ s) {tid tl num} : Keeps false s₀ (completeNow s tid tl num) := by
  unfold completeNow
  grind [completeCmd_keeps]

theorem rowsLanded_keeps (h : Keeps false s₀ s) {tm c n} : Keeps false s₀ (rowsLanded s tm c n) :=
  h.of_eq rfl rfl rfl

theorem dcmpPut_keeps (h : Keeps false s₀ s) {tm c out} : GotKeeps s₀ (dcmpPut tm c out s) := by
  unfold dcmpPut
  grind [engWrite_keeps, modTeam_keeps, GotKeeps]

theorem readRow_keeps (h : Keeps false s₀ s) {tm c space a n} : GotKeeps s₀ (readRow tm c space a n s) := by
  unfold readRow
  grind [engRead_keeps, GotKeeps]

theorem writeRows_keeps (h : Keeps false s₀ s) {tm : Team} {c : Cmd} {k : CopyCard} {part : Bool} {j : Nat} {l : List (List Byte)} :
    GotKeeps s₀ (writeRows tm c k part j l s).2 := by
  induction l generalizing s j with
  | nil => exact h
  | cons bs l ih =>
    have hrow := writeRow_keeps h (tm := tm) (c := c) (k := k) (j := j) (bs := bs)
    unfold writeRows
    split
    · next u e =>
      rw [e] at hrow
      dsimp only
      split
      · split
        · exact popHold_keeps hrow
        · exact ih (popHold_keeps hrow)
      · exact ih hrow
    · split
      · exact h
      · trivial
    · exact hrow

theorem ran_keeps {g : Got} (hg : GotKeeps s₀ g) : RanKeeps s₀ g.ran := by
  cases g <;> exact hg

theorem readRows_ok_keeps (h : Keeps false s₀ s) {tm : Team} {c : Cmd} {k : CopyCard} {l : List Nat} {rows : List (List Byte)}
    (e : readRows tm c k l s = .ok (rows, t)) : Keeps false s₀ t := by
  induction l generalizing s rows with
  | nil =>
    cases e
    exact h
  | cons r l ih =>
    have hrow := readRow_keeps h (tm := tm) (c := c) (space := k.srcSpace) (a := k.srcRow r) (n := k.rowb)
    unfold readRows at e
    split at e
    · next eq =>
      rw [eq] at hrow
      split at e
      · next eq' =>
        cases e
        exact ih hrow eq'
      · cases e
    · cases e

theorem readRows_error_keeps (h : Keeps false s₀ s) {tm : Team} {c : Cmd} {k : CopyCard} {l : List Nat} {g : Got}
    (e : readRows tm c k l s = .error g) : GotKeeps s₀ g := by
  induction l generalizing s with
  | nil => cases e
  | cons r l ih =>
    have hrow := readRow_keeps h (tm := tm) (c := c) (space := k.srcSpace) (a := k.srcRow r) (n := k.rowb)
    unfold readRows at e
    split at e
    · next eq =>
      rw [eq] at hrow
      split at e
      · cases e
      · next eq' =>
        cases e
        exact ih hrow eq'
    · cases e
      exact hrow

theorem moveData_keeps (h : Keeps false s₀ s) {tm c} : RanKeeps s₀ (moveData tm c s) := by
  unfold moveData
  dsimp only
  split
  · exact h
  · split
    · next e => exact ran_keeps (readRows_error_keeps h e)
    · next rows u e =>
      have hu := readRows_ok_keeps h e
      split
      · have hrows := writeRows_keeps hu (tm := tm) (c := c) (k := copyCard c.card)
          (part := (copyCard c.card).xf = 0 && !(copyCard c.card).selfLaps u tm) (j := c.rowsDone)
          (l := (transform (copyCard c.card) rows).drop c.rowsDone)
        split
        · next e =>
          rw [e] at hrows
          split <;> exact hrows
        · exact ran_keeps hrows
      · refine foldl_keeps (fun v x hv => ?_) hu
        split
        · exact hv
        · exact foldl_keeps (fun _ _ hw => sendDelivery_keeps hw) hv

theorem decodeCmd_error_keeps (h : Keeps false s₀ s) {tm : Team} {c : Cmd} {g : Got × Nat} (e : decodeCmd tm c s = .error g) :
    GotKeeps s₀ g.1 := by
  unfold decodeCmd at e
  have hloop := dcmpLoop_keeps h (tm := tm) (c := c) (src := cardField c.card 0 8) (slen := cardField c.card 0x10 4)
    (cap := cardField c.card 0x14 4) (k := cardField c.card 0x10 4 + 1) (p := 0) (out := [])
  split at e
  · cases e
  · cases e
  · next eq =>
    rw [eq] at hloop
    cases e
    exact hloop

/-- What a command's data leaves when it has run, in part or to its end. -/
def landed (s : State) (t : Team) (c : Cmd) (r : Ran) (n : Nat) (f : State → State) (g : Cmd → Cmd) : State :=
  let land (s : State) (f : Cmd → Cmd) : State := modTeam s t.id (fun u =>
    (u.modCmd c.tl c.num (fun x => f { x with landed := true })).markLanded c.tl c.num)
  match r with
  | .landed s => land (f s) g
  | .partly n s => rowsLanded s t c n
  | .wait => s
  | .gone a => land s (fun x => { x with failed := some a })
  | .fault code a s =>
    takeEngineFault (modTeam (sprayCmd t c n s) t.id (fun u => u.modCmd c.tl c.num (fun x => { x with stopped := true }))) t.id c code a true

theorem landed_keeps (h : Keeps false s₀ s) {tm : Team} {c : Cmd} {r : Ran} (hr : RanKeeps s₀ r) {n : Nat} {f : State → State} {g : Cmd → Cmd}
    (hf : ∀ u, Keeps false s₀ u → Keeps false s₀ (f u)) : Keeps false s₀ (landed s tm c r n f g) := by
  cases r with
  | landed u => exact modTeam_keeps (hf u hr)
  | partly n u => exact rowsLanded_keeps hr
  | wait => exact h
  | fault code a u => exact takeEngineFault_keeps (modTeam_keeps (sprayCmd_keeps hr))
  | gone a => exact modTeam_keeps h

theorem landCmd_keeps (h : Keeps false s₀ s) {tm c} : Keeps false s₀ (landCmd s tm c) := by
  unfold landCmd
  dsimp only
  split
  · exact h
  · split
    · split
      · next out stat u e =>
        have hu : Keeps false s₀ u := by
          split at e
          · cases e
            exact h
          · exact decodeCmd_ok_keeps h e
        exact landed_keeps h (tm := tm) (c := c) (n := out.length) (g := fun x => { x with stat := stat })
          (f := fun s => modTeam s tm.id (fun u => u.writeDesk (c.cardOff + 0x30) (natBytes 4 out.length ++ natBytes 4 stat)))
          (ran_keeps (dcmpPut_keeps hu)) fun _ hv => modTeam_keeps hv
      · next g e =>
        have hg : GotKeeps s₀ g.1 := by
          split at e
          · cases e
          · exact decodeCmd_error_keeps h e
        exact landed_keeps h (tm := tm) (c := c) (n := g.2) (f := fun s => s) (g := fun x => x) (ran_keeps hg) fun _ hv => hv
    · exact h
    · exact landed_keeps h (tm := tm) (c := c) (n := 0) (f := fun s => s) (g := fun x => x) (moveData_keeps h) fun _ hv => hv

theorem engWrite_ok_keeps (h : Keeps false s₀ s) {tm : Team} {c : Cmd} {va : Nat} {bs bs' : List Byte} (e : engWrite tm c va bs s = .ok bs' t) :
    Keeps false s₀ t := by
  have hwrite := engWrite_keeps h (tm := tm) (c := c) (va := va) (bs := bs)
  rwa [e] at hwrite

theorem collSpoil_keeps (h : Keeps false s₀ s) {x} (e : collSpoil x s = some t) : Keeps false s₀ t := by
  induction x generalizing s with
  | nil =>
    cases e
    exact h
  | cons p l ih =>
    obtain ⟨u, c⟩ := p
    have hdrawn := drawBytes_keeps h (n := (collCard c.card).writes u.index ((collCard c.card).contributions s u.grid))
    unfold collSpoil at e
    dsimp only at e
    split at e
    · next eq => exact ih (modTeam_keeps (engWrite_ok_keeps hdrawn eq)) e
    · cases e
    · exact ih (modTeam_keeps hdrawn) e

theorem engWrite_fault_keeps (h : Keeps false s₀ s) {tm : Team} {c : Cmd} {va code a : Nat} {bs : List Byte}
    (e : engWrite tm c va bs s = .fault code a t) : Keeps false s₀ t := by
  have hwrite := engWrite_keeps h (tm := tm) (c := c) (va := va) (bs := bs)
  rwa [e] at hwrite

theorem collWrites_keeps (h : Keeps false s₀ s) {data x} (e : collWrites data x s = some t) : Keeps false s₀ t := by
  induction x generalizing s with
  | nil =>
    cases e
    exact h
  | cons p l ih =>
    obtain ⟨u, c⟩ := p
    unfold collWrites at e
    dsimp only at e
    split at e
    · next eq => exact ih (modTeam_keeps (engWrite_ok_keeps h eq)) e
    · next eq => exact ih (modTeam_keeps (takeEngineFault_keeps (engWrite_fault_keeps h eq))) e
    · cases e

theorem collReads_ok_keeps (h : Keeps false s₀ s) {l : List (Team × Cmd)} {own : List (List Byte)} (e : collReads l s = .ok (own, t)) :
    Keeps false s₀ t := by
  induction l generalizing s own with
  | nil =>
    cases e
    exact h
  | cons p l ih =>
    obtain ⟨u, c⟩ := p
    unfold collReads at e
    dsimp only at e
    split at e
    · next eq =>
      split at e
      · next eq' =>
        cases e
        exact ih (engRead_ok_keeps h eq) eq'
      · cases e
    · cases e
    · cases e
    · cases e

theorem engRead_fault_keeps (h : Keeps false s₀ s) {tm : Team} {c : Cmd} {va n code a : Nat} (e : engRead tm c va n s = .fault code a t) :
    Keeps false s₀ t := by
  have hread := engRead_keeps h (tm := tm) (c := c) (va := va) (n := n)
  rwa [e] at hread

theorem collReads_error_keeps (h : Keeps false s₀ s) {l : List (Team × Cmd)} {tm : Team} {c : Cmd} {code a : Nat}
    (e : collReads l s = .error (some (tm, c, code, a, t))) : Keeps false s₀ t := by
  induction l generalizing s with
  | nil => cases e
  | cons p l ih =>
    obtain ⟨u, c⟩ := p
    unfold collReads at e
    dsimp only at e
    split at e
    · next eq =>
      split at e
      · cases e
      · next eq' =>
        cases e
        exact ih (engRead_ok_keeps h eq) eq'
    · cases e
    · cases e
    · next eq =>
      cases e
      exact engRead_fault_keeps h eq

theorem runColl_keeps (h : Keeps false s₀ s) {x} : Keeps false s₀ (runColl s x) := by
  unfold runColl
  dsimp only
  split
  · exact h
  · split
    · split
      · next e => exact fields_keeps (collSpoil_keeps h e)
      · exact h
    · split
      · exact h
      · next e => exact takeEngineFault_keeps (collReads_error_keeps h e)
      · next e =>
        have hread := collReads_ok_keeps h e
        split
        · next e => exact fields_keeps (collWrites_keeps (fields_keeps hread) e)
        · exact fields_keeps hread

theorem runCmd_keeps (h : Keeps false s₀ s) {tid tl num} : Keeps false s₀ (runCmd s tid tl num) := by
  unfold runCmd
  dsimp only
  split
  · exact h
  · split
    · split
      · split
        · exact foldl_keeps (fun _ _ hu => completeNow_keeps hu) (runColl_keeps h)
        · exact h
      · exact completeNow_keeps h
    · have hspoilt := spoilCmd_keeps h (tid := tid) (tl := tl) (num := num)
      split
      · exact hspoilt
      · next t' c' _ =>
        split
        · exact ite_keeps (popHold_keeps hspoilt) (completeNow_keeps (landCmd_keeps (popHold_keeps hspoilt)))
        · exact ite_keeps hspoilt (completeNow_keeps (landCmd_keeps hspoilt))
    · exact completeNow_keeps (landCmd_keeps h)

theorem engineIssue_keeps (h : Keeps false s₀ s) {kind d a tl c} : EffKeeps s₀ (Machine.engineIssue kind d a tl c s) := by
  unfold Machine.engineIssue
  dsimp only
  split
  · exact h
  · split
    · trivial
    · split
      · trivial
      · split
        · exact h
        · split
          · exact h
          · trivial
          · split
            · exact h
            · split
              · exact h
              · next rel u e =>
                have hopen : Keeps false s₀ u := by
                  split at e
                  · exact openRelease_keeps h e
                  · cases e
                    exact h
                refine spoilCmd_keeps (ite_keeps (popHold_keeps ?_) (runCmd_keeps (popHold_keeps ?_)))
                all_goals
                  refine ite_keeps (fields_keeps ?_) ?_
                  all_goals exact hideLines_keeps (countSends_keeps (modGroup_keeps (modTeam_keeps hopen)))

end Sys2Proof.Proofs
end

