-- ==== Sys2Proof/Proofs/DispatchKept.lean ====
section
/-! PROOFS. What keeps memory in its canonical form (log entry 2): bins, the device's own accesses, the dispatcher, and the instructions that make work. -/

namespace Sys2Proof.Proofs

open Machine

variable {s₀ s t : State}

theorem enterCore_keeps (h : Keeps false s₀ s) {core tid gid} : Keeps false s₀ (enterCore s core tid gid) :=
  h.of_eq rfl rfl rfl

theorem startBins_keeps (h : Keeps false s₀ s) {core x} : Keeps false s₀ (startBins core x s) := by
  induction x generalizing s with
  | nil => exact h
  | cons p l ih =>
    unfold startBins
    split
    · split
      · exact ih h
      · exact ih (enterCore_keeps (modCore_keeps (modTeam_keeps h)))
    · exact ih h

theorem launchBin_keeps (h : Keeps false s₀ s) {core n} : Keeps false s₀ (launchBin s core n) := by
  unfold launchBin
  grind [modCore_keeps, popHold_keeps, startBins_keeps]

theorem refill_keeps (h : Keeps false s₀ s) {core} : Keeps false s₀ (refill s core) :=
  h.of_eq rfl rfl rfl

theorem leaveCore_keeps (h : Keeps false s₀ s) {core out} : Keeps false s₀ (leaveCore s core out) :=
  h.of_eq rfl rfl rfl

theorem clearCore_keeps (h : Keeps false s₀ s) {core tid} : Keeps false s₀ (clearCore s core tid) :=
  h.of_eq rfl rfl rfl

theorem serveReached_keeps (h : Keeps false s₀ s) {tm refused} : Keeps false s₀ (serveReached s tm refused) := by
  unfold serveReached
  grind [foldl_keeps, serveLoad_keeps, dropMsg_keeps, modCore_keeps, deliveryGone_keeps, acceptDelivery_keeps]

theorem landDrain_keeps (h : Keeps false s₀ s) {core d} : Keeps false s₀ (landDrain s core d) := by
  unfold landDrain
  grind [modCore_keeps, modTeam_keeps, fillResult_keeps]

theorem landDrains_keeps (h : Keeps false s₀ s) {core tid} : Keeps false s₀ (landDrains s core tid) := by
  unfold landDrains
  grind [foldl_keeps, landDrain_keeps]

theorem stopTeam_keeps (h : Keeps false s₀ s) {tid why} : Keeps false s₀ (stopTeam s tid why) :=
  h.of_eq rfl rfl rfl

theorem spill_keeps (h : Keeps false s₀ s) {part} : Keeps false s₀ (spill s part) := by
  unfold spill
  grind [stopTeam_keeps]

theorem devXlat_keeps (h : Keeps false s₀ s) {live part aspace cluster va user need acc} :
    Keeps false s₀ (devXlat live s part aspace cluster va user need acc).2 := by
  unfold devXlat
  grind [translate_keeps, walkDescriptor_keeps, descriptor_keeps, walkRoot_keeps, leafXlat_keeps]

/-- An access of the device at its place, or again once what it waits for has run to its end. -/
def devPerform (again : State → Got) (va : Nat) (r : MemReq) (s : State) : Got :=
  match perform s r with
  | .done s bs => .ok bs s
  | .bad c s => .fault c va s
  | _ =>
    match moveAt s r.at_ with
    | some mv => again (runMove s mv)
    | none => if commitOn s (performedAt s r) then again (finishCommit s (performedAt s r)) else .wait

theorem devPerform_keeps {again : State → Got} (hagain : ∀ u, Keeps false s₀ u → GotKeeps s₀ (again u)) (h :
    Keeps false s₀ s) {va : Nat} {r : MemReq} :
    GotKeeps s₀ (devPerform again va r s) := by
  unfold devPerform
  split
  · next hp => exact perform_done_keeps h hp
  · next hp => exact perform_bad_keeps h hp
  · split
    · exact hagain _ (runMove_keeps h)
    · split
      · exact hagain _ (finishCommit_keeps h)
      · trivial

theorem devAccess_keeps (h : Keeps false s₀ s) {part aspace cluster user va acc n x} :
    GotKeeps s₀ (devAccess part aspace cluster user va acc n x s) := by
  induction x generalizing s with
  | zero => trivial
  | succ k ih =>
    have htrans := devXlat_keeps h (live := true) (part := part) (aspace := aspace) (cluster := cluster) (va := va) (user := user)
      (need := acc.need) (acc := acc)
    unfold devAccess
    dsimp only
    split
    all_goals
      rename_i e
      rw [e] at htrans
    · exact ih (foldl_keeps (fun _ _ hu => runMove_keeps hu) htrans)
    · exact htrans
    · next x u =>
      exact devPerform_keeps (again := devAccess part aspace cluster user va acc n k) (va := va)
        (r := ⟨0, 0, Config.deviceAgent, part, aspace, user, va, n, acc, .none, .group 0 0 0, x.place, x.ten, x.rep, x.pk, true, 0, 0, 0, 0, .none⟩)
        (fun _ hu => ih hu) (ite_keeps (flushHost_keeps htrans) htrans)

theorem devAccess_ok_keeps (h : Keeps false s₀ s) {part aspace cluster : Nat} {user : Bool} {va n k : Nat} {acc : Acc} {bs : List Byte}
    (e : devAccess part aspace cluster user va acc n k s = .ok bs t) : Keeps false s₀ t := by
  have hacc := devAccess_keeps h (part := part) (aspace := aspace) (cluster := cluster) (user := user) (va := va) (acc := acc) (n := n) (x := k)
  rwa [e] at hacc

theorem devWriteCuts_keeps (h : Keeps false s₀ s) {part aspace cluster x x1} : GotKeeps s₀ (devWriteCuts part aspace cluster x x1 s) := by
  induction x generalizing s x1 with
  | nil => exact h
  | cons p l ih =>
    obtain ⟨va, n⟩ := p
    have hacc := devAccess_keeps h (part := part) (aspace := aspace) (cluster := cluster) (user := false) (va := va) (acc := .write (x1.take n))
      (n := n) (x := 5)
    unfold devWriteCuts
    split
    · next e => exact ih (devAccess_ok_keeps h e)
    · exact hacc

theorem devWrite_keeps (h : Keeps false s₀ s) {part aspace cluster va bs} : GotKeeps s₀ (devWrite s part aspace cluster va bs) := by
  unfold devWrite
  grind [devWriteCuts_keeps]

theorem devPut_keeps (h : Keeps false s₀ s) {part aspace cluster va bs} : Keeps false s₀ (devPut s part aspace cluster va bs) := by
  have hwrite := devWrite_keeps h (part := part) (aspace := aspace) (cluster := cluster) (va := va) (bs := bs)
  unfold devPut
  split
  · next e => rwa [e] at hwrite
  · next e => rwa [e] at hwrite
  · exact h

theorem putNeighbours_keeps (h : Keeps false s₀ s) {g index nbrs} : Keeps false s₀ (putNeighbours s g index nbrs) := by
  unfold putNeighbours
  grind [devPut_keeps]

theorem placeTeam_keeps (h : Keeps false s₀ s) {g index core slot nbrs} : Keeps false s₀ (placeTeam s g index core slot nbrs) := by
  unfold placeTeam
  grind [fields_keeps, foldl_keeps, newId_keeps, enterCore_keeps]

theorem placeTogether_keeps (h : Keeps false s₀ s) {g} : PlacedKeeps s₀ (placeTogether s g) := by
  unfold placeTogether
  grind [fields_keeps, foldl_keeps, putNeighbours_keeps, placeTeam_keeps, PlacedKeeps]

theorem placeEach_keeps (h : Keeps false s₀ s) {key x} : PlacedKeeps s₀ (placeEach key x s) := by
  induction x generalizing s with
  | zero => exact h
  | succ k ih =>
    unfold placeEach
    split
    · exact h
    · split
      · exact h
      · split
        · exact h
        · split
          · exact h
          · exact ih (placeTeam_keeps (putNeighbours_keeps h))

theorem placeGrid_keeps (h : Keeps false s₀ s) {limit g} : PlacedKeeps s₀ (placeGrid limit s g) := by
  unfold placeGrid
  grind [placeTogether_keeps, placeEach_keeps, PlacedKeeps]

theorem placeClass_keeps (h : Keeps false s₀ s) {part limit x} : Keeps false s₀ (placeClass part limit x s) := by
  induction x generalizing s with
  | nil => exact h
  | cons key l ih =>
    unfold placeClass
    split
    · exact ih h
    · next g _ =>
      have hplaced := placeGrid_keeps h (limit := limit) (g := g)
      split
      all_goals
        rename_i e
        rw [e] at hplaced
      · exact ih hplaced
      · exact ih hplaced
      · exact ih (fields_keeps hplaced)

theorem devReadCuts_keeps (h : Keeps false s₀ s) {part aspace cluster user x} : GotKeeps s₀ (devReadCuts part aspace cluster user x s) := by
  induction x generalizing s with
  | nil => exact h
  | cons p l ih =>
    obtain ⟨va, n⟩ := p
    have hacc := devAccess_keeps h (part := part) (aspace := aspace) (cluster := cluster) (user := user) (va := va) (acc := .read) (n := n) (x := 5)
    unfold devReadCuts
    split
    · next e =>
      have hrest := ih (devAccess_ok_keeps h e)
      split
      · next e => rwa [e] at hrest
      · exact hrest
    · exact hacc

theorem devRead_keeps (h : Keeps false s₀ s) {part aspace cluster user va n} : GotKeeps s₀ (devRead s part aspace cluster user va n) := by
  unfold devRead
  grind [devReadCuts_keeps]

/-- A page read through the device's accesses. -/
def slowPage (part aspace cluster : Nat) (user : Bool) (va : Nat) (s : State) : ImageRead :=
  match devRead s part aspace cluster user va 4096 with
  | .ok bs s => .ok (writeBytes [] 0 bs) s
  | .fault c a s => .fault c a s
  | _ => .wait

theorem slowPage_keeps (h : Keeps false s₀ s) {part aspace cluster : Nat} {user : Bool} {va : Nat} :
    ImageKeeps s₀ (slowPage part aspace cluster user va s) := by
  have hread := devRead_keeps h (part := part) (aspace := aspace) (cluster := cluster) (user := user) (va := va) (n := 4096)
  unfold slowPage
  split
  · next e => rwa [e] at hread
  · next e => rwa [e] at hread
  · trivial

theorem readPage_keeps (h : Keeps false s₀ s) {part aspace cluster user va} : ImageKeeps s₀ (readPage part aspace cluster user va s) := by
  have htrans := devXlat_keeps h (live := true) (part := part) (aspace := aspace) (cluster := cluster) (va := va) (user := user)
    (need := .read) (acc := .read)
  unfold readPage
  dsimp only
  split
  all_goals
    rename_i e
    rw [e] at htrans
  · exact slowPage_keeps htrans (part := part) (aspace := aspace) (cluster := cluster) (user := user) (va := va)
  · exact htrans
  · split
    · exact htrans
    · exact slowPage_keeps htrans (part := part) (aspace := aspace) (cluster := cluster) (user := user) (va := va)

theorem readImage_keeps (h : Keeps false s₀ s) {part aspace cluster user at_ x x1} :
    ImageKeeps s₀ (readImage part aspace cluster user at_ x x1 s) := by
  induction x generalizing s x1 with
  | nil => exact h
  | cons p l ih =>
    have hpage := readPage_keeps h (part := part) (aspace := aspace) (cluster := cluster) (user := user) (va := at_ + 4096 * p)
    unfold readImage
    split
    · next e =>
      rw [e] at hpage
      exact ih hpage
    · exact hpage

theorem reopenBin_keeps (h : Keeps false s₀ s) {core x} : Keeps false s₀ (reopenBin core s x) := by
  unfold reopenBin
  grind [setCore_keeps]

theorem restoreTeam_keeps (h : Keeps false s₀ s) {x core} (e : restoreTeam s x core = some t) : Keeps false s₀ t := by
  have himage := readImage_keeps h (part := x.team.part) (aspace := x.team.aspace) (cluster := clusterOfCore core) (user := false)
    (at_ := x.image) (x := x.team.header.imagePages) (x1 := [])
  unfold restoreTeam at e
  dsimp only at e
  split at e
  · next eq =>
    rw [eq] at himage
    cases e
    refine foldl_keeps (fun _ _ hu => enterCore_keeps hu) (foldl_keeps (fun _ _ hu => post_keeps hu) (modCore_keeps
      (foldl_keeps (fun _ _ hu => reopenBin_keeps hu) (modPart_keeps_memory (fields_keeps ?_)))))
    split
    · exact newId_keeps (newId_keeps (devPut_keeps himage))
    · exact newId_keeps (devPut_keeps himage)
  · cases e

theorem restoreAll_keeps (h : Keeps false s₀ s) {x} (e : restoreAll x s = some t) : Keeps false s₀ t := by
  induction x generalizing s with
  | nil =>
    cases e
    exact h
  | cons y l ih =>
    obtain ⟨u, hu, e⟩ := Option.bind_eq_some_iff.mp e
    exact ih (restoreTeam_keeps h hu) e

theorem getD_keeps (h : Keeps false s₀ s) {o : Option State} (ho : ∀ u, o = some u → Keeps false s₀ u) : Keeps false s₀ (o.getD s) := by
  cases o with
  | none => exact h
  | some u => exact ho u rfl

theorem tryRestore_keeps (h : Keeps false s₀ s) {x} : Keeps false s₀ (tryRestore s x) := by
  unfold tryRestore
  split
  · exact h
  · refine getD_keeps h fun u e => ?_
    split at e
    · exact restoreAll_keeps h e
    · exact restoreTeam_keeps h e

theorem restoreClass_keeps (h : Keeps false s₀ s) {part cls} : Keeps false s₀ (restoreClass part cls s) := by
  unfold restoreClass
  grind [foldl_keeps, tryRestore_keeps]

theorem dispatchClasses_keeps (h : Keeps false s₀ s) {part x} : Keeps false s₀ (dispatchClasses part x s) := by
  induction x generalizing s with
  | nil => exact h
  | cons c l ih =>
    have hstarved : Keeps false s₀ (match starved s part c with
      | some key => placeClass part 1 [key] s
      | none => s) := by
      split
      · exact placeClass_keeps h
      · exact h
    exact ite_keeps hstarved (ih (placeClass_keeps (restoreClass_keeps hstarved)))

theorem dispatchPart_keeps (h : Keeps false s₀ s) {part} : Keeps false s₀ (dispatchPart s part) := by
  unfold dispatchPart
  grind [spill_keeps, dispatchClasses_keeps]

theorem tellParent_keeps (h : Keeps false s₀ s) {parent id status} : Keeps false s₀ (tellParent s parent id status) :=
  h.of_eq rfl rfl rfl

theorem completeGrid_keeps (h : Keeps false s₀ s) {key} : Keeps false s₀ (completeGrid s key) := by
  unfold completeGrid
  grind [fields_keeps, devPut_keeps]

theorem teamOver_keeps (h : Keeps false s₀ s) {key killed} : Keeps false s₀ (teamOver s key killed) := by
  unfold teamOver
  grind [fields_keeps, tellParent_keeps, popHold_keeps, completeGrid_keeps]

theorem endTeam_keeps (h : Keeps false s₀ s) {tm} : Keeps false s₀ (endTeam s tm) :=
  dispatchPart_keeps (teamOver_keeps (startBins_keeps (fields_keeps (clearCore_keeps (serveReached_keeps (landDrains_keeps (flushArray_keeps h)))))))

theorem checkEnd_keeps (h : Keeps false s₀ s) {tid} : Keeps false s₀ (checkEnd s tid) := by
  unfold checkEnd
  grind [foldl_keeps, launchBin_keeps, endTeam_keeps]

theorem endIdle_keeps (h : Keeps false s₀ s) : Keeps false s₀ (endIdle s) := by
  unfold endIdle
  grind [foldl_keeps, checkEnd_keeps]

theorem execColl_keeps (h : Keeps false s₀ s) {d a tl} : OutKeeps s₀ (execColl d a tl s) :=
  issue_keeps h fun c u hu => by
    have hissue := engineIssue_keeps hu (kind := .coll) (d := d) (a := a) (tl := tl) (c := c)
    split
    · next e =>
      rw [e] at hissue
      exact endIdle_keeps hissue
    · exact hissue

theorem putDeposit_keeps (h : Keeps false s₀ s) {core n b d} : Keeps false s₀ (putDeposit s core n b d) := by
  unfold putDeposit
  grind [modCore_keeps, launchBin_keeps]

theorem deposit_keeps (h : Keeps false s₀ s) {core key d} : Keeps false s₀ (deposit s core key d) := by
  unfold deposit
  grind [putDeposit_keeps, launchBin_keeps, newId_keeps]

theorem deposits_keeps (h : Keeps false s₀ s) {c p m key word} : Keeps false s₀ (deposits c p m key word s) := by
  unfold deposits
  grind [foldl_keeps, deposit_keeps]

theorem execSpawn_keeps (h : Keeps false s₀ s) {e p guard} : OutKeeps s₀ (execSpawn e p guard s) :=
  issue_keeps h fun _ _ hu => .ite trivial (deposits_keeps hu)

theorem execRebin_keeps (h : Keeps false s₀ s) {key e p guard} : OutKeeps s₀ (execRebin key e p guard s) :=
  issue_keeps h fun _ _ hu => .ite trivial (modGroup_keeps (deposits_keeps hu))

theorem readRecord_keeps (h : Keeps false s₀ s) {c a n} : AtOnceKeeps s₀ (readRecord c s a n) := by
  have hcheck := checkMem_keeps h (c := c) (l := (cuts a n).map (fun k => ⟨0, k.1, k.2, 1, .read, .none⟩))
  unfold readRecord
  split
  · next e => rwa [e] at hcheck
  · exact h
  · next e =>
    rw [e] at hcheck
    split
    · exact readAtOnce_keeps hcheck
    · exact h

theorem nextGridId_keeps (h : Keeps false s₀ s) {part} : Keeps false s₀ (nextGridId s part).2 := by
  unfold nextGridId
  grind [modPart_keeps_memory]

theorem addGrid_keeps (h : Keeps false s₀ s) {part id r w host depth parent mark} : Keeps false s₀ (addGrid s part id r w host depth parent mark) :=
  h.of_eq rfl rfl rfl

theorem preemptReserve_keeps (h : Keeps false s₀ s) {part} : Keeps false s₀ (preemptReserve s part) := by
  unfold preemptReserve
  grind [foldl_keeps, stopTeam_keeps]

theorem execLaunch_keeps (h : Keeps false s₀ s) {d r} : OutKeeps s₀ (execLaunch d r s) :=
  issue_keeps h fun c u hu => by
    have hrecord := readRecord_keeps hu (c := c) (a := (c.s r).toNat) (n := 64)
    dsimp only
    refine .ite trivial ?_
    split
    · trivial
    · next e => rwa [e] at hrecord
    · next v b e =>
      rw [e] at hrecord
      have hdesc := descriptor_keeps hrecord (part := c.t.part) (aspace := (parseRecord b).aspace)
      refine .ite trivial ?_
      have hread := devRead_keeps hdesc (part := c.t.part) (aspace := (parseRecord b).aspace) (cluster := clusterOfCore c.core)
        (user := !c.t.supervisor) (va := (parseRecord b).kern) (n := 64)
      split
      · trivial
      · next e =>
        rw [e] at hread
        refine .ite trivial (.ite trivial (.ite (onGroup_keeps hread) (.ite (onGroup_keeps hread) ?_)))
        refine dispatchPart_keeps (ite_keeps (preemptReserve_keeps ?_) ?_)
        all_goals exact modGroup_keeps (modTeam_keeps (addGrid_keeps (nextGridId_keeps hread)))
      · exact hdesc

theorem execWaitch_keeps (h : Keeps false s₀ s) {d g} : OutKeeps s₀ (execWaitch d g s) :=
  issue_keeps h fun c u hu => by
    have hgive : ∀ v : Nat, Keeps false s₀ (passYield (modGroup u c.tid c.gid (fun g => g.setS d.toNat (BitVec.ofNat 64 v))) c.tid c.gid) :=
      fun v => passYield_keeps (modGroup_keeps hu)
    dsimp only
    split
    · exact hgive 1
    · split
      · exact hu
      · split
        · exact .ite (hgive _) hu
        · exact hgive _

end Sys2Proof.Proofs
end

