-- ==== Sys2Proof/Proofs/PortKept.lean ====
section
/-! PROOFS. What keeps memory in its canonical form (log entry 2): the matrix port, predicates, hints, user-mode control and the privileged instructions. -/

namespace Sys2Proof.Proofs

open Machine

variable {s₀ s t : State}

theorem onPort_keeps (h : Keeps false s₀ s) {f : Ctx → State → Eff} (hf : ∀ c u, Keeps false s₀ u → EffKeeps s₀ (f c u)) {c : Ctx} :
    EffKeeps s₀ (onPort f c s) := by
  have hflush := flushArray_keeps h (core := c.core)
  unfold onPort
  dsimp only
  split
  · exact hf _ _ hflush
  · exact hflush

theorem execTclaim_keeps (h : Keeps false s₀ s) {d k} : OutKeeps s₀ (execTclaim d k s) :=
  issue_keeps h fun _ _ hu => onPort_keeps hu fun c u hu => by
    dsimp only
    refine .ite (.ite (onGroup_keeps hu) ?_) (.ite (onGroup_keeps hu) ?_)
    all_goals split
    · exact onGroup_keeps hu
    · exact onGroup_keeps (modTeam_keeps hu)
    · exact onGroup_keeps hu
    · exact onGroup_keeps (modTeam_keeps hu)

theorem execTrel_keeps (h : Keeps false s₀ s) {n k} : OutKeeps s₀ (execTrel n k s) :=
  issue_keeps h fun _ _ hu => onPort_keeps hu fun c u hu => by
    refine .ite ?_ ?_
    all_goals split
    · trivial
    · exact .ite hu (modTeam_keeps hu)
    · trivial
    · exact .ite hu (modTeam_keeps hu)

theorem execMmq_keeps (h : Keeps false s₀ s) {a b p qmask metric} : OutKeeps s₀ (execMmq a b p qmask metric s) :=
  issue_keeps h fun c u hu => by
    grind [modCore_keeps, onShelf_keeps, bad_keeps, EffKeeps]

theorem execMzero_keeps (h : Keeps false s₀ s) {tm} : OutKeeps s₀ (execMzero tm s) :=
  issue_keeps h fun _ _ hu => onPort_keeps hu fun c u hu => by
    split
    · trivial
    · exact onShelf_keeps hu fun _ hv => modTeam_keeps hv

theorem execMdrain_keeps (h : Keeps false s₀ s) {tm a o dst mode} : OutKeeps s₀ (execMdrain tm a o dst mode s) :=
  issue_keeps h fun _ _ hu => onPort_keeps hu fun c u hu => by
    dsimp only
    split
    · trivial
    · refine .ite trivial (.ite trivial ?_)
      split
      · trivial
      · refine .ite hu (onShelf_keeps hu fun v hv => ?_)
        split
        · trivial
        · refine ite_keeps (popHold_keeps ?_) (landDrain_keeps (popHold_keeps ?_))
          all_goals exact ite_keeps (modCore_keeps (newId_keeps (fields_keeps hv))) (modTeam_keeps (modCore_keeps (newId_keeps (fields_keeps hv))))

theorem execMfill_keeps (h : Keeps false s₀ s) {tm a} : OutKeeps s₀ (execMfill tm a s) :=
  issue_keeps h fun _ _ hu => onPort_keeps hu fun c u hu => by
    dsimp only
    split
    · trivial
    · refine .ite trivial (.ite trivial ?_)
      split
      · trivial
      · exact .ite hu (onShelf_keeps hu fun _ hv => modTeam_keeps (fields_keeps hv))

theorem execCupd_keeps (h : Keeps false s₀ s) {a tm p cc} : OutKeeps s₀ (execCupd a tm p cc s) :=
  issue_keeps h fun _ _ hu => onPort_keeps hu fun c u hu => by
    dsimp only
    split
    · exact .ite trivial (onShelf_keeps hu fun _ hv => modTeam_keeps (fields_keeps hv))
    · trivial

theorem execMenc_keeps (h : Keeps false s₀ s) {d sl k} : OutKeeps s₀ (execMenc d sl k s) :=
  issue_keeps h fun _ _ hu => onPort_keeps hu fun c u hu => by
    dsimp only
    split
    · exact modTeam_keeps hu
    · trivial

theorem loadCodebook_keeps (h : Keeps false s₀ s) {c k bs} : Keeps false s₀ (loadCodebook s c k bs) :=
  h.of_eq rfl rfl rfl

theorem execCbld_keeps (h : Keeps false s₀ s) {k a p} : OutKeeps s₀ (execCbld k a p s) :=
  issue_keeps h fun _ _ hu => onPort_keeps hu fun c u hu => by
    dsimp only
    refine .ite trivial (.ite ?_ ?_)
    · split
      · trivial
      · split
        · trivial
        · exact .ite hu (loadCodebook_keeps hu)
    · split
      · trivial
      · exact hu
      · next e =>
        have hv := checkMem_ok_keeps hu e
        split
        · trivial
        · refine .ite hu ?_
          split
          · next e => exact loadCodebook_keeps (readAtOnce_done_keeps hv e)
          · next e => exact readAtOnce_held_keeps hv e
          · trivial

theorem execMstat_keeps (h : Keeps false s₀ s) {d sel} : OutKeeps s₀ (execMstat d sel s) :=
  issue_keeps h fun _ _ hu => onPort_keeps hu fun _ _ hu => by
    exact .ite hu (onGroup_keeps (ite_keeps (modTeam_keeps hu) hu))

theorem runStage2_keeps (h : Keeps false s₀ s) {core o} : Keeps false s₀ (runStage2 s core o) := by
  unfold runStage2
  grind [modCore_keeps]

theorem enterStage2_keeps (h : Keeps false s₀ s) {core o} : Keeps false s₀ (enterStage2 s core o) := by
  unfold enterStage2
  grind [modCore_keeps]

theorem landPred_keeps (h : Keeps false s₀ s) {core o} : Keeps false s₀ (landPred s core o) := by
  unfold landPred
  grind [modCore_keeps, modTeam_keeps, fillResult_keeps]

theorem runPred_keeps (h : Keeps false s₀ s) {core o} : Keeps false s₀ (runPred s core o) := by
  unfold runPred
  grind [runStage2_keeps, enterStage2_keeps, landPred_keeps]

theorem predicate_keeps (h : Keeps false s₀ s) {k guard d p q ty c} : EffKeeps s₀ (predicate k guard d p q ty c s) := by
  unfold predicate
  dsimp only
  refine .ite (fillResult_keeps h) (.ite h (.ite trivial ?_))
  exact ite_keeps (popHold_keeps (modCore_keeps (newId_keeps h))) (runPred_keeps (popHold_keeps (modCore_keeps (newId_keeps h))))

theorem issueHint_keeps (h : Keeps false s₀ s) {i fits add delay} : OutKeeps s₀ (issueHint i fits add delay s) := by
  unfold issueHint
  grind [refreshReplicas_keeps, raiseFault_keeps, modGroup_keeps, retire_keeps, OutKeeps]

theorem execHimm_keeps (h : Keeps false s₀ s) {value} : OutKeeps s₀ (execHimm value s) := by
  unfold execHimm
  grind [issueHint_keeps]

theorem execHsched_keeps (h : Keeps false s₀ s) {delay reuseB reuseA keep} : OutKeeps s₀ (execHsched delay reuseB reuseA keep s) := by
  unfold execHsched
  grind [issueHint_keeps]

theorem execHmod_keeps (h : Keeps false s₀ s) {xd xe sos peek far w64 sp ord scope sat rme rnd tie} :
    OutKeeps s₀ (execHmod xd xe sos peek far w64 sp ord scope sat rme rnd tie s) := by
  unfold execHmod
  grind [issueHint_keeps]

theorem execNop_keeps (h : Keeps false s₀ s) : OutKeeps s₀ (execNop s) := issue_keeps h fun _ _ hu => hu

theorem yieldNow_keeps (h : Keeps false s₀ s) {c} : EffKeeps s₀ (yieldNow c s) := by
  unfold yieldNow
  grind [modGroup_keeps, passYield_keeps, EffKeeps]

theorem dropDrains_keeps (h : Keeps false s₀ s) {core tid gid} : Keeps false s₀ (dropDrains s core tid gid) :=
  h.of_eq rfl rfl rfl

theorem endGroup_keeps (h : Keeps false s₀ s) {c} : Keeps false s₀ (endGroup c s) :=
  checkEnd_keeps (checkDeadlock_keeps (startBins_keeps (leaveCore_keeps (modTeam_keeps (modCore_keeps (fields_keeps (dropDrains_keeps h)))))))

theorem execCsrr_keeps (h : Keeps false s₀ s) {d a csr} : OutKeeps s₀ (execCsrr d a csr s) :=
  issue_keeps h fun c u hu => by
    grind [onGroup_keeps, bad_keeps]

theorem toMailbox_keeps (h : Keeps false s₀ s) {p rec_} : Keeps false s₀ (toMailbox s p rec_).2 := by
  unfold toMailbox
  dsimp only
  split
  · exact h
  · split
    · exact fields_keeps h
    · exact hostMem_keeps (modPart_keeps_memory (flushHost_keeps h))

theorem tryDeliver_keeps (h : Keeps false s₀ s) {p sup rec_} : Keeps false s₀ (tryDeliver s p sup rec_).2 := by
  unfold tryDeliver
  dsimp only
  split
  · exact toMailbox_keeps h
  · split
    · exact h
    · have hwrite := fun a => devWrite_keeps h (part := p) (aspace := (partOf s p).fqSpace) (cluster := (partClusters s.layout p).headD 0)
        (va := a) (bs := withSeq rec_ ((partOf s p).fqSeq + 1))
      have hwrite := hwrite ((partOf s p).fqBase + 64 * ((partOf s p).fqTail % 2 ^ (partOf s p).fqSize))
      split
      · next e =>
        rw [e] at hwrite
        exact modPart_keeps_memory hwrite
      · next e =>
        rw [e] at hwrite
        exact toMailbox_keeps hwrite
      · exact h

theorem patchSeq_keeps (h : Keeps false s₀ s) {p rec_ seq} : Keeps false s₀ (patchSeq s p rec_ seq) := by
  unfold patchSeq
  grind [fields_keeps, devPut_keeps]

theorem deliverList_keeps (h : Keeps false s₀ s) {p x} : Keeps false s₀ (deliverList p x s).2 := by
  induction x generalizing s with
  | nil => exact h
  | cons q l ih =>
    obtain ⟨sup, r⟩ := q
    have htry := tryDeliver_keeps h (p := p) (sup := sup) (rec_ := r)
    unfold deliverList
    split
    all_goals
      rename_i e
      rw [e] at htry
    · exact ih (patchSeq_keeps htry)
    · exact ih htry

theorem flushRecords_keeps (h : Keeps false s₀ s) {p} : Keeps false s₀ (flushRecords s p) := by
  unfold flushRecords
  grind [deliverList_keeps, modPart_keeps_memory]

theorem csrWrite_keeps (h : Keeps false s₀ s) {part core aspace csr v} : Keeps false s₀ (csrWrite s part core aspace csr v) := by
  unfold csrWrite
  grind [modCore_keeps, modCluster_keeps, descriptor_keeps, flushRecords_keeps, modPart_keeps_memory]

theorem execCsrw_keeps (h : Keeps false s₀ s) {b a csr} : OutKeeps s₀ (execCsrw b a csr s) :=
  issue_keeps h fun c u hu => by
    split
    · trivial
    · exact csrWrite_keeps hu

theorem checkImages_keeps (h : Keeps false s₀ s) {c gang x} : FoundKeeps s₀ (checkImages c gang x s) := by
  induction x generalizing s with
  | nil => exact h
  | cons y l ih =>
    have htrans := devXlat_keeps h (live := true) (part := c.t.part) (aspace := c.t.aspace) (cluster := clusterOfCore c.core) (va := y.image)
      (user := false) (need := .write) (acc := .write [])
    unfold checkImages
    dsimp only
    split
    · trivial
    all_goals
      rename_i e
      rw [e] at htrans
    · exact htrans
    · have himage := readImage_keeps htrans (part := c.t.part) (aspace := c.t.aspace) (cluster := clusterOfCore c.core) (user := false)
        (at_ := y.image) (x := y.team.header.imagePages) (x1 := [])
      split
      · next e => rwa [e] at himage
      · trivial
      · next e =>
        rw [e] at himage
        split
        · trivial
        · have hrest := ih himage
          split
          · next e => rwa [e] at hrest
          · exact hrest

theorem findImages_keeps (h : Keeps false s₀ s) {c a} : FoundKeeps s₀ (findImages c s a) := by
  have htrans := devXlat_keeps h (live := true) (part := c.t.part) (aspace := c.t.aspace) (cluster := clusterOfCore c.core) (va := a)
    (user := false) (need := .write) (acc := .write [])
  unfold findImages
  split
  · trivial
  all_goals
    rename_i e
    rw [e] at htrans
  · exact htrans
  · have hread := devRead_keeps htrans (part := c.t.part) (aspace := c.t.aspace) (cluster := clusterOfCore c.core) (user := false)
      (va := a) (n := 16)
    split
    · next e => rwa [e] at hread
    · next e =>
      rw [e] at hread
      split
      · trivial
      · dsimp only
        exact .ite trivial (checkImages_keeps hread)
    · trivial

theorem markImages_keeps (h : Keeps false s₀ s) {c v x} (e : markImages c v x s = some t) : Keeps false s₀ t := by
  induction x generalizing s with
  | nil =>
    cases e
    exact h
  | cons y l ih =>
    have hwrite := devWrite_keeps h (part := c.t.part) (aspace := c.t.aspace) (cluster := clusterOfCore c.core) (va := y.image + 4) (bs := [v])
    unfold markImages at e
    split at e
    · next eq =>
      rw [eq] at hwrite
      exact ih hwrite e
    · next eq =>
      rw [eq] at hwrite
      exact ih hwrite e
    · cases e

theorem execTresume_keeps (h : Keeps false s₀ s) {d a fin} : OutKeeps s₀ (execTresume d a fin s) :=
  issue_keeps h fun c u hu => by
    have hfind := findImages_keeps hu (c := c) (a := (c.s a).toNat)
    dsimp only
    refine .ite trivial (.ite hu ?_)
    split
    · trivial
    · exact hu
    · exact modGroup_keeps hu
    · next e =>
      rw [e] at hfind
      refine .ite (modGroup_keeps hu) ?_
      split
      · exact hu
      · next e =>
        have hmark := markImages_keeps hfind e
        exact dispatchPart_keeps (ite_keeps (foldl_keeps (fun _ _ hv => teamOver_keeps hv) (fields_keeps (modGroup_keeps hmark)))
          (modPart_keeps_memory (fields_keeps (modGroup_keeps hmark))))

theorem reloadDescriptor_keeps (h : Keeps false s₀ s) {part aspace} : Keeps false s₀ (reloadDescriptor s part aspace) := by
  unfold reloadDescriptor
  grind [descPlace_keeps, meetAll_keeps, loadDescriptor_keeps, modPart_keeps_memory]

theorem releaseTables_keeps (h : Keeps false s₀ s) {part} : Keeps false s₀ (releaseTables s part) := by
  refine foldl_keeps (fun _ _ hclu => foldl_keeps (fun _ _ hslice => foldl_keeps (fun u f hu => ?_) hslice) hclu) h
  exact ite_keeps (setFrame_keeps (setResidence_keeps (foldl_keeps (fun _ _ hv => homeWrite_getD_keeps hv) hu))) hu

theorem execTflush_keeps (h : Keeps false s₀ s) {a b all} : OutKeeps s₀ (execTflush a b all s) :=
  issue_keeps h fun _ _ hu => .ite trivial (.ite (releaseTables_keeps (fields_keeps (reloadDescriptor_keeps hu))) (modCore_keeps hu))

theorem evictForSplit_keeps (h : Keeps false s₀ s) {part core n} : Keeps false s₀ (evictForSplit s part core n) := by
  unfold evictForSplit
  grind [runMove_keeps, finishCommit_keeps, freeUnnamed_keeps, evict_keeps]

theorem execSplit_keeps (h : Keeps false s₀ s) {d a} : OutKeeps s₀ (execSplit d a s) :=
  issue_keeps h fun c u hu => by
    have hevict : ∀ (l : NMap Frame) n, Keeps false s₀ (l.foldl (fun s p => evictForSplit s c.t.part n p.1) u) :=
      fun l n => foldl_keeps (fun _ _ hv => evictForSplit_keeps hv) hu
    refine .ite (modGroup_keeps hu) (.ite (modGroup_keeps hu) (.ite (modCore_keeps (hevict _ _)) ?_))
    exact dispatchPart_keeps (modGroup_keeps (modCore_keeps (hevict _ _)))

theorem haltPart_keeps (h : Keeps false s₀ s) {part code} : Keeps false s₀ (haltPart s part code) := by
  unfold haltPart
  grind [fields_keeps, modPart_keeps_memory]

theorem execSleep_keeps (h : Keeps false s₀ s) {n} : OutKeeps s₀ (execSleep n s) :=
  issue_keeps h fun c u hu => by
    dsimp only
    grind [yieldNow_keeps, modGroup_keeps, passYield_keeps, EffKeeps]

theorem execBrk_keeps (h : Keeps false s₀ s) {code} : OutKeeps s₀ (execBrk code s) := issue_keeps h fun _ _ _ => trivial

end Sys2Proof.Proofs
end

