-- ==== Sys2Proof/Proofs/EventKept.lean ====
section
/-! PROOFS. What keeps memory in its canonical form (log entry 2): the events of a core, messages, page moves and swap-outs. -/

namespace Sys2Proof.Proofs

open Machine

variable {s₀ s t : State}

theorem execBinTimerExpiry_keeps (h : Keeps false s₀ s) {core bin} : OutKeeps s₀ (execBinTimerExpiry core bin s) := by
  unfold execBinTimerExpiry
  grind [launchBin_keeps, OutKeeps]

theorem execBinGroupStart_keeps (h : Keeps false s₀ s) {core} : OutKeeps s₀ (execBinGroupStart core s) := by
  unfold execBinGroupStart
  grind [startBins_keeps, OutKeeps]

theorem execWatchdogExpiry_keeps (h : Keeps false s₀ s) {team} : OutKeeps s₀ (execWatchdogExpiry team s) := by
  unfold execWatchdogExpiry
  grind [takeFault_keeps, lrBump_keeps, OutKeeps]

theorem exchange_keeps (h : Keeps false s₀ s) {core out in_} : Keeps false s₀ (exchange s core out in_) :=
  h.of_eq rfl rfl rfl

theorem execActiveSetSwap_keeps (h : Keeps false s₀ s) {core} : OutKeeps s₀ (execActiveSetSwap core s) := by
  unfold execActiveSetSwap
  grind [exchange_keeps, OutKeeps]

theorem execForcedSwap_keeps (h : Keeps false s₀ s) {core} : OutKeeps s₀ (execForcedSwap core s) := by
  unfold execForcedSwap
  grind [exchange_keeps, OutKeeps]

theorem execSleepExpiry_keeps (h : Keeps false s₀ s) {team group} : OutKeeps s₀ (execSleepExpiry team group s) := by
  unfold execSleepExpiry
  grind [modGroup_keeps, OutKeeps]

theorem fetch_keeps (h : Keeps false s₀ s) {tm g} : Keeps false s₀ (fetch s tm g).2 := by
  unfold fetch
  grind [fetchAt_keeps]

theorem fetchInstr_keeps (h : Keeps false s₀ s) {tm g} : Keeps false s₀ (fetchInstr s tm g).2 := by
  unfold fetchInstr
  grind [fetch_keeps]

theorem execWaitaReread_keeps (h : Keeps false s₀ s) {team group} : OutKeeps s₀ (execWaitaReread team group s) := by
  unfold execWaitaReread
  grind [fields_keeps, fetchInstr_keeps, execWaita_keeps, OutKeeps]

theorem execLoadDataReturn_keeps (h : Keeps false s₀ s) {id} : OutKeeps s₀ (execLoadDataReturn id s) := by
  unfold execLoadDataReturn
  grind [deliver_keeps, dropMsg_keeps, fillAfter_keeps, OutKeeps]

theorem execSectorArrival_keeps (h : Keeps false s₀ s) {id} : OutKeeps s₀ (execSectorArrival id s) := by
  unfold execSectorArrival
  grind [fields_keeps, performMsg_keeps, OutKeeps]

theorem execFrameAccess_keeps (h : Keeps false s₀ s) {id} : OutKeeps s₀ (execFrameAccess id s) := by
  unfold execFrameAccess
  grind [performMsg_keeps, OutKeeps]

theorem execReplicaLock_keeps (h : Keeps false s₀ s) {id} : OutKeeps s₀ (execReplicaLock id s) := by
  unfold execReplicaLock
  grind [post_keeps, modFrame_keeps, dropMsg_keeps, OutKeeps]

theorem execReplicaUpdate_keeps (h : Keeps false s₀ s) {id} : OutKeeps s₀ (execReplicaUpdate id s) := by
  unfold execReplicaUpdate
  grind [post_keeps, updateReplica_keeps, dropMsg_keeps, OutKeeps]

theorem execSideboardAccess_keeps (h : Keeps false s₀ s) {id} : OutKeeps s₀ (execSideboardAccess id s) := by
  unfold execSideboardAccess
  grind [performMsg_keeps, OutKeeps]

theorem execBounce_keeps (h : Keeps false s₀ s) {id} : OutKeeps s₀ (execBounce id s) := by
  unfold execBounce
  grind [replay_keeps, OutKeeps]

theorem execMoveDone_keeps (h : Keeps false s₀ s) {mv} : OutKeeps s₀ (execMoveDone mv s) := by
  unfold execMoveDone
  grind [finishMove_keeps, followHome_keeps, OutKeeps]

theorem execRecall_keeps (h : Keeps false s₀ s) {id} : OutKeeps s₀ (execRecall id s) := by
  unfold execRecall
  grind [takeRecall_keeps, dropMsg_keeps, OutKeeps]

theorem execPageWalk_keeps (h : Keeps false s₀ s) {core aspace vpage} : OutKeeps s₀ (execPageWalk core aspace vpage s) := by
  unfold execPageWalk
  grind [walkDescriptor_keeps, walkRoot_keeps, stashInstall_keeps, OutKeeps]

theorem execCloseMessage_keeps (h : Keeps false s₀ s) {id} : OutKeeps s₀ (execCloseMessage id s) := by
  unfold execCloseMessage
  grind [takeClose_keeps, dropMsg_keeps, OutKeeps]

theorem execCloseAnswer_keeps (h : Keeps false s₀ s) {id} : OutKeeps s₀ (execCloseAnswer id s) := by
  unfold execCloseAnswer
  grind [takeAnswer_keeps, dropMsg_keeps, OutKeeps]

theorem execEngineCommandCompletion_keeps (h : Keeps false s₀ s) {team tl num} : OutKeeps s₀ (execEngineCommandCompletion team tl num s) := by
  unfold execEngineCommandCompletion
  grind [checkEnd_keeps, completeCmd_keeps, OutKeeps]

theorem execDcmpStreamEnd_keeps (h : Keeps false s₀ s) {team tl num} : OutKeeps s₀ (execDcmpStreamEnd team tl num s) := by
  unfold execDcmpStreamEnd
  grind [checkEnd_keeps, completeNow_keeps, landCmd_keeps, OutKeeps]

theorem execCollArrival_keeps (h : Keeps false s₀ s) {grid k} : OutKeeps s₀ (execCollArrival grid k s) := by
  unfold execCollArrival
  grind [foldl_keeps, checkEnd_keeps, completeNow_keeps, runColl_keeps, OutKeeps]

theorem execCopyDataLanding_keeps (h : Keeps false s₀ s) {team tl num} : OutKeeps s₀ (execCopyDataLanding team tl num s) := by
  unfold execCopyDataLanding
  grind [landCmd_keeps, OutKeeps]

theorem execDrawerDelivery_keeps (h : Keeps false s₀ s) {id} : OutKeeps s₀ (execDrawerDelivery id s) := by
  unfold execDrawerDelivery
  grind [takeDelivery_keeps, modCore_keeps, dropMsg_keeps, OutKeeps]

theorem execDeliveryRetry_keeps (h : Keeps false s₀ s) {id} : OutKeeps s₀ (execDeliveryRetry id s) := by
  unfold execDeliveryRetry
  grind [takeDelivery_keeps, dropMsg_keeps, OutKeeps]

theorem execRemoteLoad_keeps (h : Keeps false s₀ s) {id} : OutKeeps s₀ (execRemoteLoad id s) := by
  unfold execRemoteLoad
  grind [serveLoad_keeps, OutKeeps]

theorem execTargetGoneAnswer_keeps (h : Keeps false s₀ s) {id} : OutKeeps s₀ (execTargetGoneAnswer id s) := by
  unfold execTargetGoneAnswer
  grind [dropMsg_keeps, takeFault_keeps, modTeam_keeps, OutKeeps]

theorem execExchangeClose_keeps (h : Keeps false s₀ s) {id} : OutKeeps s₀ (execExchangeClose id s) := by
  unfold execExchangeClose
  grind [takeXclose_keeps, dropMsg_keeps, OutKeeps]

theorem execXwaitMerge_keeps (h : Keeps false s₀ s) {team group} : OutKeeps s₀ (execXwaitMerge team group s) := by
  unfold execXwaitMerge
  grind [fields_keeps, fetchInstr_keeps, execXwait_keeps, OutKeeps]

theorem execArrayPass_keeps (h : Keeps false s₀ s) {core} : OutKeeps s₀ (execArrayPass core s) := by
  unfold execArrayPass
  grind [runPass_keeps, modCore_keeps, OutKeeps]

theorem execPassTimeout_keeps (h : Keeps false s₀ s) {core} : OutKeeps s₀ (execPassTimeout core s) := by
  unfold execPassTimeout
  grind [modCore_keeps, OutKeeps]

theorem execSubarrayGate_keeps (h : Keeps false s₀ s) {core sub} : OutKeeps s₀ (execSubarrayGate core sub s) := by
  unfold execSubarrayGate
  grind [setCore_keeps, OutKeeps]

theorem execSubarrayWake_keeps (h : Keeps false s₀ s) {core sub} : OutKeeps s₀ (execSubarrayWake core sub s) := by
  unfold execSubarrayWake
  grind [setCore_keeps, OutKeeps]

theorem execPredicateCompletion_keeps (h : Keeps false s₀ s) {id} : OutKeeps s₀ (execPredicateCompletion id s) := by
  unfold execPredicateCompletion
  grind [runPred_keeps, OutKeeps]

theorem promoteFar_keeps (h : Keeps false s₀ s) {part aspace vpage cl l} : Keeps false s₀ (promoteFar s part aspace vpage cl l) := by
  unfold promoteFar
  grind [placeFar_keeps, modCluster_keeps]

theorem promoteNear_keeps (h : Keeps false s₀ s) {part core aspace vpage} : Keeps false s₀ (promoteNear s part core aspace vpage) := by
  unfold promoteNear
  grind [placeNear_keeps, modCore_keeps]

theorem execPageMove_keeps (h : Keeps false s₀ s) {part aspace vpage dst} : OutKeeps s₀ (execPageMove part aspace vpage dst s) := by
  unfold execPageMove
  grind [moveHome_keeps, promoteFar_keeps, promoteNear_keeps, OutKeeps]

theorem execFrameSeal_keeps (h : Keeps false s₀ s) {mv} : OutKeeps s₀ (execFrameSeal mv s) := by
  unfold execFrameSeal
  grind [sealMove_keeps, OutKeeps]

theorem execSealNotice_keeps (h : Keeps false s₀ s) {mv} : OutKeeps s₀ (execSealNotice mv s) := by
  unfold execSealNotice
  grind [noticeMove_keeps, sealedAt_keeps, OutKeeps]

theorem execSectorLanding_keeps (h : Keeps false s₀ s) {mv sector} : OutKeeps s₀ (execSectorLanding mv sector s) := by
  unfold execSectorLanding
  grind [landSector_keeps, sealedAt_keeps, OutKeeps]

theorem execTouchPromotion_keeps (h : Keeps false s₀ s) {core aspace vpage} : OutKeeps s₀ (execTouchPromotion core aspace vpage s) := by
  unfold execTouchPromotion
  grind [promoteFar_keeps, promoteNear_keeps, OutKeeps]

theorem execPlaceFarRequest_keeps (h : Keeps false s₀ s) {id} : OutKeeps s₀ (execPlaceFarRequest id s) := by
  unfold execPlaceFarRequest
  grind [placeFar_keeps, dropMsg_keeps, OutKeeps]

theorem execStashSweep_keeps (h : Keeps false s₀ s) {cluster} : OutKeeps s₀ (execStashSweep cluster s) := by
  unfold execStashSweep
  grind [fields_keeps, modCluster_keeps, OutKeeps]

theorem commitWrite_keeps (h : Keeps false s₀ s) {cm r off} : Keeps false s₀ (commitWrite s cm r off) := by
  unfold commitWrite
  split
  · next e => exact foldl_keeps (fun _ _ hu => post_keeps hu) (putMsg_keeps (commitValue_keeps (performFrame_done_keeps h e)))
  · next e => exact commitBad_keeps (performFrame_bad_keeps h e)
  · exact h

theorem execReplicaAcknowledgement_keeps (h : Keeps false s₀ s) {id} : OutKeeps s₀ (execReplicaAcknowledgement id s) := by
  unfold execReplicaAcknowledgement
  grind [dropMsg_keeps, putMsg_keeps, commitDone_keeps, moveHome_keeps, fillAfter_keeps, commitWrite_keeps, OutKeeps]

theorem execPeerWriteAck_keeps (h : Keeps false s₀ s) {id} : OutKeeps s₀ (execPeerWriteAck id s) := by
  unfold execPeerWriteAck
  grind [ackPeer_keeps, dropMsg_keeps, OutKeeps]

theorem execZeroLengthReadCompletion_keeps (h : Keeps false s₀ s) {id} : OutKeeps s₀ (execZeroLengthReadCompletion id s) := by
  unfold execZeroLengthReadCompletion
  grind [modGroup_keeps, dropMsg_keeps, OutKeeps]

/-- The event of a message. -/
def msgEvent (s : State) (id : Nat) : Msg → Host.Outcome State Fault Refusal
  | .mem r => if isFrame r.place then execFrameAccess id s else execSideboardAccess id s
  | .bounced _ => execBounce id s
  | .parked _ mv => .next (runMove s mv)
  | .sector _ _ => execSectorArrival id s
  | .result _ _ => execLoadDataReturn id s
  | .lock _ _ _ => execReplicaLock id s
  | .lockAck _ _ _ => execReplicaAcknowledgement id s
  | .update _ _ _ => execReplicaUpdate id s
  | .updateAck _ _ _ => execReplicaAcknowledgement id s
  | .commit _ _ _ _ => .next s
  | .close _ _ _ _ => execCloseMessage id s
  | .answer _ _ _ => execCloseAnswer id s
  | .delivery _ ref => if ref then execDeliveryRetry id s else execDrawerDelivery id s
  | .rload _ _ _ _ _ _ _ _ => execRemoteLoad id s
  | .gone _ _ _ _ => execTargetGoneAnswer id s
  | .xclose _ _ _ _ _ => execExchangeClose id s
  | .recall _ _ _ _ => execRecall id s
  | .placeFar _ _ _ => execPlaceFarRequest id s
  | .peerAck _ _ _ _ _ _ => execPeerWriteAck id s
  | .zread _ _ _ => execZeroLengthReadCompletion id s

/-- The state of an outcome, or the one before it. -/
def afterOutcome (s : State) : Host.Outcome State Fault Refusal → State
  | .next s => s
  | _ => s

theorem afterOutcome_keeps (h : Keeps false s₀ s) {o : Host.Outcome State Fault Refusal} (ho :
    OutKeeps s₀ o) : Keeps false s₀ (afterOutcome s o) := by
  cases o with
  | next u => exact ho
  | fault => exact h
  | refused => exact h

theorem msgEvent_keeps (h : Keeps false s₀ s) {id : Nat} {m : Msg} : OutKeeps s₀ (msgEvent s id m) := by
  cases m with
  | mem r => exact .ite (execFrameAccess_keeps h) (execSideboardAccess_keeps h)
  | bounced => exact execBounce_keeps h
  | parked _ mv => exact runMove_keeps h
  | sector => exact execSectorArrival_keeps h
  | result => exact execLoadDataReturn_keeps h
  | lock => exact execReplicaLock_keeps h
  | lockAck => exact execReplicaAcknowledgement_keeps h
  | update => exact execReplicaUpdate_keeps h
  | updateAck => exact execReplicaAcknowledgement_keeps h
  | commit => exact h
  | close => exact execCloseMessage_keeps h
  | answer => exact execCloseAnswer_keeps h
  | delivery _ ref => exact .ite (execDeliveryRetry_keeps h) (execDrawerDelivery_keeps h)
  | rload => exact execRemoteLoad_keeps h
  | gone => exact execTargetGoneAnswer_keeps h
  | xclose => exact execExchangeClose_keeps h
  | placeFar => exact execPlaceFarRequest_keeps h
  | peerAck => exact execPeerWriteAck_keeps h
  | zread => exact execZeroLengthReadCompletion_keeps h
  | _ => exact execRecall_keeps h -- the recall, whose name is a keyword of Mathlib

theorem runMsg_keeps (h : Keeps false s₀ s) {id m} : Keeps false s₀ (runMsg s id m) := by
  change Keeps false s₀ (afterOutcome s (msgEvent s id m))
  exact afterOutcome_keeps h (msgEvent_keeps h)

theorem finishRound_keeps (h : Keeps false s₀ s) {tid} : Keeps false s₀ (finishRound tid s) := by
  have hmsgs : Keeps false s₀ (s.flight.foldl (fun s m => match teamOf s tid, nmGet m.1 s.flight with
      | some t, some x => if concerns s t m.1 x then runMsg s m.1 x else s
      | _, _ => s) s) := by
    refine foldl_keeps (fun u m hu => ?_) h
    split
    · exact ite_keeps (runMsg_keeps hu) hu
    · exact hu
  unfold finishRound
  dsimp only
  split
  · exact hmsgs
  · refine foldl_keeps (fun _ _ hu => ite_keeps (runCmd_keeps hu) hu) (foldl_keeps (fun _ _ hu => runPred_keeps hu) ?_)
    exact landDrains_keeps (flushArray_keeps hmsgs)

theorem finishRounds_keeps (h : Keeps false s₀ s) {tid x} : Keeps false s₀ (finishRounds tid x s) := by
  induction x generalizing s with
  | zero => exact h
  | succ k ih => exact ih (finishRound_keeps h)

theorem finishTeam_keeps (h : Keeps false s₀ s) {tid} : Keeps false s₀ (finishTeam s tid) := by
  unfold finishTeam
  grind [fields_keeps, finishRounds_keeps]

theorem resetCmd_keeps (h : Keeps false s₀ s) {tid c} : Keeps false s₀ (resetCmd s tid c) := by
  unfold resetCmd
  grind [foldl_keeps, modTeam_keeps, clearCount_keeps]

theorem withSections_keeps (h : Keeps false s₀ s) {x} : Keeps false s₀ (withSections x s).2 := by
  induction x generalizing s with
  | nil => exact h
  | cons u l ih => exact ih (fields_keeps h)

theorem writePage_keeps (h : Keeps false s₀ s) {part aspace cluster va page} : GotKeeps s₀ (writePage part aspace cluster va page s) := by
  have htrans := devXlat_keeps h (live := true) (part := part) (aspace := aspace) (cluster := cluster) (va := va) (user := false)
    (need := .write) (acc := .write [])
  unfold writePage
  split
  all_goals
    rename_i e
    rw [e] at htrans
  · exact devWrite_keeps htrans
  · exact htrans
  · split
    · exact pasted_keeps htrans
    · exact devWrite_keeps htrans

theorem writeImage_keeps (h : Keeps false s₀ s) {part aspace cluster img at_ x} (e : writeImage part aspace cluster img at_ x s = some t) :
    Keeps false s₀ t := by
  induction x generalizing s with
  | nil =>
    cases e
    exact h
  | cons p l ih =>
    have hpage := writePage_keeps h (part := part) (aspace := aspace) (cluster := cluster) (va := at_ + 4096 * p)
      (page := sliceRange img (4096 * p) 4096)
    unfold writeImage at e
    split at e
    · next eq =>
      rw [eq] at hpage
      exact ih hpage e
    · next eq =>
      rw [eq] at hpage
      exact ih hpage e
    · cases e

theorem writeImages_keeps (h : Keeps false s₀ s) {gang x} (e : writeImages gang x s = some t) : Keeps false s₀ t := by
  induction x generalizing s with
  | nil =>
    cases e
    exact h
  | cons p l ih =>
    obtain ⟨u, dev⟩ := p
    unfold writeImages at e
    dsimp only at e
    split at e
    · next eq => exact ih (writeImage_keeps h eq) e
    · cases e

theorem saveTeam_keeps (h : Keeps false s₀ s) {gang next ready spilled dev tm} : Keeps false s₀ (saveTeam gang next ready spilled dev s tm) := by
  unfold saveTeam
  grind [fields_keeps, foldl_keeps, newId_keeps, dropMsg_keeps, clearCore_keeps]

theorem saveTeams_keeps (h : Keeps false s₀ s) {gang suspended x} : Keeps false s₀ (saveTeams gang suspended x s) := by
  induction x generalizing s with
  | nil => exact h
  | cons p l ih =>
    obtain ⟨u, dev⟩ := p
    exact ih (saveTeam_keeps h)

theorem deliverRecord_keeps (h : Keeps false s₀ s) {p sup rec_} : Keeps false s₀ (deliverRecord s p sup rec_) := by
  unfold deliverRecord
  grind [flushRecords_keeps, modPart_keeps_memory]

theorem swapTeams_keeps (h : Keeps false s₀ s) {l gang} (e : swapTeams s l gang = some t) : Keeps false s₀ t := by
  unfold swapTeams at e
  extract_lets l₁ bad l₂ rec_ l₃ at e
  clear_value l₃ rec_ bad
  dsimp only at e
  split at e
  · cases e
  · next u eq =>
    have hwritten := writeImages_keeps (withSections_keeps h) eq
    have hfreed : Keeps false s₀ (l₃.foldl (fun s (t : Team) => startBins t.core (coreOf s t.core).launchedBins s)
        (saveTeams gang bad.isSome (withSections l₃ s).1 u)) := foldl_keeps (fun _ _ hv => startBins_keeps hv) (saveTeams_keeps hwritten)
    have hrecord : ∀ v, Keeps false s₀ v → Keeps false s₀ (match (generalizing := false) bad with
        | some (t, _) => deliverRecord v t.part t.supervisor rec_
        | none => v) := fun v hv => by
      split
      · exact deliverRecord_keeps hv
      · exact hv
    split at e
    · cases e
      exact hrecord _ hfreed
    · cases e
      exact dispatchPart_keeps (hrecord _ hfreed)

theorem execSwapOut_keeps (h : Keeps false s₀ s) {team} : OutKeeps s₀ (execSwapOut team s) := by
  unfold execSwapOut
  dsimp only [OutKeeps]
  split
  · exact h
  · refine ite_keeps h ?_
    have hstopped : ∀ ids : List Nat, Keeps false s₀ (ids.foldl finishTeam (ids.foldl (fun s i => stopTeam s i 4) s)) := fun ids =>
      foldl_keeps (fun _ _ hu => finishTeam_keeps hu) (foldl_keeps (fun _ _ hu => stopTeam_keeps hu) h)
    refine ite_keeps (getD_keeps (hstopped _) fun u e => swapTeams_keeps ?_ e) (hstopped _)
    exact foldl_keeps (fun _ _ hu => foldl_keeps (fun _ _ hv => resetCmd_keeps (spoilCmd_keeps hv)) hu) (hstopped _)

theorem execDispatchStarvation_keeps (h : Keeps false s₀ s) {part} : OutKeeps s₀ (execDispatchStarvation part s) := dispatchPart_keeps h

theorem execTimeSliceExpiry_keeps (h : Keeps false s₀ s) {team} : OutKeeps s₀ (execTimeSliceExpiry team s) := by
  unfold execTimeSliceExpiry
  dsimp only [OutKeeps]
  split
  · exact h
  · split
    · exact h
    · exact ite_keeps (stopTeam_keeps h) h

theorem execGridCompletion_keeps (h : Keeps false s₀ s) {grid} : OutKeeps s₀ (execGridCompletion grid s) := completeGrid_keeps h

end Sys2Proof.Proofs
end

