-- ==== Sys2Proof/Proofs/HostKept.lean ====
section
/-! PROOFS. What keeps memory in its canonical form (log entry 2): the host, the management block, the peers, and the boot. -/

namespace Sys2Proof.Proofs

open Machine

variable {s₀ s t : State}

theorem refuseRecord_keeps (h : Keeps false s₀ s) {part id r why} : Keeps false s₀ (refuseRecord s part id r why) :=
  ite_keeps h (devPut_keeps h)

theorem acceptRecord_keeps (h : Keeps false s₀ s) {part bytes} (e : acceptRecord s part bytes = some t) : Keeps false s₀ t := by
  have hnamed := nextGridId_keeps h (part := part)
  unfold acceptRecord at e
  dsimp only at e
  split at e
  · cases e
    exact refuseRecord_keeps hnamed
  · have hdesc := descriptor_keeps hnamed (part := part) (aspace := (parseRecord bytes).aspace)
    split at e
    · cases e
      exact refuseRecord_keeps hdesc
    · have hread := devRead_keeps hdesc (part := part) (aspace := (parseRecord bytes).aspace)
        (cluster := (partClusters (descriptor (nextGridId s part).2 part (parseRecord bytes).aspace).2.layout part).headD 0)
        (user := !(parseRecord bytes).supervisor) (va := (parseRecord bytes).kern) (n := 64)
      split at e
      · next eq =>
        rw [eq] at hread
        cases e
        exact refuseRecord_keeps hread
      · next eq =>
        rw [eq] at hread
        split at e
        · cases e
          exact refuseRecord_keeps hread
        · cases e
          exact dispatchPart_keeps (ite_keeps (preemptReserve_keeps (addGrid_keeps hread)) (addGrid_keeps hread))
      · cases e

theorem acceptAll_keeps (h : Keeps false s₀ s) {part x} : Keeps false s₀ (acceptAll part x s) := by
  induction x generalizing s with
  | nil => exact modPart_keeps_memory h
  | cons b l ih =>
    unfold acceptAll
    split
    · next e => exact ih (acceptRecord_keeps h e)
    · exact modPart_keeps_memory h

theorem takeSubmitted_keeps (h : Keeps false s₀ s) {part} : Keeps false s₀ (takeSubmitted s part) := by
  unfold takeSubmitted
  grind [acceptAll_keeps]

theorem execSubmissionPortWrite_keeps (h : Keeps false s₀ s) {part off bytes} : OutKeeps s₀ (execSubmissionPortWrite part off bytes s) := by
  unfold execSubmissionPortWrite
  grind [takeSubmitted_keeps, modPart_keeps_memory, OutKeeps]

theorem homeAccess_keeps (h : Keeps false s₀ s) {c w off n acc x} {y} (e : homeAccess c w off n acc x s = some (y, t)) : Keeps false s₀ t := by
  induction x generalizing s with
  | zero => cases e
  | succ k ih =>
    unfold homeAccess at e
    split at e
    · cases e
      exact h
    · dsimp only at e
      split at e
      · next hp =>
        cases e
        exact perform_done_keeps h hp
      · split at e
        · exact ih (runMove_keeps h) e
        · split at e
          · exact ih (finishCommit_keeps h) e
          · cases e

theorem hdmRead_keeps (h : Keeps false s₀ s) {x} {y} (e : hdmRead x s = some (y, t)) : Keeps false s₀ t := by
  induction x generalizing s y with
  | nil =>
    cases e
    exact h
  | cons p l ih =>
    obtain ⟨o, n⟩ := p
    obtain ⟨⟨bs, u⟩, hu, e⟩ := Option.bind_eq_some_iff.mp e
    obtain ⟨⟨rest, v⟩, hv, e⟩ := Option.map_eq_some_iff.mp e
    cases e
    exact ih (homeAccess_keeps h hu) hv

theorem execCxlMemRead_keeps (h : Keeps false s₀ s) {off n} : OutKeeps s₀ (execCxlMemRead off n s) := by
  unfold execCxlMemRead
  grind [fields_keeps, hdmRead_keeps, OutKeeps]

theorem hdmWrite_keeps (h : Keeps false s₀ s) {x x1} (e : hdmWrite x x1 s = some t) : Keeps false s₀ t := by
  induction x generalizing s x1 with
  | nil =>
    cases e
    exact h
  | cons p l ih =>
    obtain ⟨o, n⟩ := p
    obtain ⟨⟨bs, u⟩, hu, e⟩ := Option.bind_eq_some_iff.mp e
    exact ih (homeAccess_keeps h hu) e

theorem execCxlMemWrite_keeps (h : Keeps false s₀ s) {off bytes} : OutKeeps s₀ (execCxlMemWrite off bytes s) :=
  ite_keeps h (getD_keeps h fun _ e => hdmWrite_keeps h e)

theorem modMgmt_keeps (h : Keeps false s₀ s) {f} : Keeps false s₀ (modMgmt s f) :=
  h.of_eq rfl rfl rfl

theorem answer_keeps (h : Keeps false s₀ s) {a} : Keeps false s₀ (answer s a) := by
  unfold answer
  grind [modMgmt_keeps]

theorem execGetVersion_keeps (h : Keeps false s₀ s) : OutKeeps s₀ (execGetVersion s) := by
  unfold execGetVersion
  grind [answer_keeps, OutKeeps]

theorem execGetCapabilities_keeps (h : Keeps false s₀ s) : OutKeeps s₀ (execGetCapabilities s) := by
  unfold execGetCapabilities
  grind [answer_keeps, OutKeeps]

theorem execNegotiateAlgorithms_keeps (h : Keeps false s₀ s) : OutKeeps s₀ (execNegotiateAlgorithms s) := by
  unfold execNegotiateAlgorithms
  grind [answer_keeps, OutKeeps]

theorem execGetDigests_keeps (h : Keeps false s₀ s) : OutKeeps s₀ (execGetDigests s) := by
  unfold execGetDigests
  grind [answer_keeps, OutKeeps]

theorem execGetCertificate_keeps (h : Keeps false s₀ s) {slot off len} : OutKeeps s₀ (execGetCertificate slot off len s) := by
  unfold execGetCertificate
  grind [answer_keeps, OutKeeps]

theorem execChallenge_keeps (h : Keeps false s₀ s) {slot nonce} : OutKeeps s₀ (execChallenge slot nonce s) := by
  unfold execChallenge
  grind [answer_keeps, OutKeeps]

theorem execGetMeasurements_keeps (h : Keeps false s₀ s) {index nonce} : OutKeeps s₀ (execGetMeasurements index nonce s) := by
  unfold execGetMeasurements
  grind [answer_keeps, OutKeeps]

theorem execLayoutWrite_keeps (h : Keeps false s₀ s) {v} : OutKeeps s₀ (execLayoutWrite v s) := by
  unfold execLayoutWrite
  grind [fields_keeps, OutKeeps]

theorem execEventsClear_keeps (h : Keeps false s₀ s) {v} : OutKeeps s₀ (execEventsClear v s) := by
  unfold execEventsClear
  grind [fields_keeps, OutKeeps]

theorem execLrCmd_keeps (h : Keeps false s₀ s) {v} : OutKeeps s₀ (execLrCmd v s) := by
  unfold execLrCmd
  grind [modMgmt_keeps, OutKeeps]

theorem execFwStoreStagedImage_keeps (h : Keeps false s₀ s) : OutKeeps s₀ (execFwStoreStagedImage s) := by
  unfold execFwStoreStagedImage
  grind [popHold_keeps, modMgmt_keeps, OutKeeps]

theorem execFwRaiseMinimumSvn_keeps (h : Keeps false s₀ s) : OutKeeps s₀ (execFwRaiseMinimumSvn s) := by
  unfold execFwRaiseMinimumSvn
  grind [popHold_keeps, modMgmt_keeps, OutKeeps]

theorem execFwCommandDone_keeps (h : Keeps false s₀ s) : OutKeeps s₀ (execFwCommandDone s) := by
  unfold execFwCommandDone
  grind [modMgmt_keeps, OutKeeps]

theorem execPreset_keeps (h : Keeps false s₀ s) {part v} : OutKeeps s₀ (execPreset part v s) := by
  unfold execPreset
  grind [resetPart_keeps, OutKeeps]

theorem execMbxHeadWrite_keeps (h : Keeps false s₀ s) {part v} : OutKeeps s₀ (execMbxHeadWrite part v s) := by
  unfold execMbxHeadWrite
  grind [flushRecords_keeps, modPart_keeps_memory, OutKeeps]

theorem bringHome_keeps (h : Keeps false s₀ s) {part p} : Keeps false s₀ (bringHome s part p) := by
  unfold bringHome
  grind [runMove_keeps, freeUnnamed_keeps, moveHome_keeps]

theorem endRelease_keeps (h : Keeps false s₀ s) {part idx} : Keeps false s₀ (endRelease s part idx) := by
  unfold endRelease
  grind [foldl_keeps, bringHome_keeps, modPart_keeps_memory]

theorem execWindowTableWrite_keeps (h : Keeps false s₀ s) {part off bytes} : OutKeeps s₀ (execWindowTableWrite part off bytes s) := by
  unfold execWindowTableWrite
  grind [foldl_keeps, popHold_keeps, endRelease_keeps, modPart_keeps_memory, OutKeeps]

theorem execOwnedReleaseDone_keeps (h : Keeps false s₀ s) {part idx} : OutKeeps s₀ (execOwnedReleaseDone part idx s) := by
  unfold execOwnedReleaseDone
  grind [endRelease_keeps, OutKeeps]

theorem execBar0RegisterWrite_keeps (h : Keeps false s₀ s) {off v} : OutKeeps s₀ (execBar0RegisterWrite off v s) :=
  ite_keeps h (ite_keeps (fields_keeps h) (ite_keeps h (ite_keeps (flushRecords_keeps (modPart_keeps_memory h))
    (ite_keeps (modPart_keeps_memory h) (ite_keeps (modPart_keeps_memory h) h)))))

theorem peerRun_keeps (h : Keeps false s₀ s) {acc x x1} {y} (e : peerRun acc x x1 s = some (y, t)) : Keeps false s₀ t := by
  induction x generalizing s x1 y with
  | nil =>
    cases e
    exact h
  | cons p l ih =>
    obtain ⟨a, n⟩ := p
    obtain ⟨⟨bs, u⟩, hu, e⟩ := Option.bind_eq_some_iff.mp e
    obtain ⟨⟨rest, v⟩, hv, e⟩ := Option.map_eq_some_iff.mp e
    cases e
    exact ih (homeAccess_keeps h hu) hv

theorem execPeerRequest_keeps (h : Keeps false s₀ s) {port addr op} : OutKeeps s₀ (execPeerRequest port addr op s) := by
  unfold execPeerRequest
  grind [fields_keeps, peerRun_keeps, OutKeeps]

theorem modGemar_keeps (h : Keeps false s₀ s) {port f} : Keeps false s₀ (modGemar s port f) :=
  h.of_eq rfl rfl rfl

theorem execFlitCrcRetry_keeps (h : Keeps false s₀ s) {port} : OutKeeps s₀ (execFlitCrcRetry port s) := by
  unfold execFlitCrcRetry
  grind [modGemar_keeps, OutKeeps]

theorem goneFault_keeps (h : Keeps false s₀ s) {tid gid va lanes} : Keeps false s₀ (goneFault s tid gid va lanes) := by
  unfold goneFault
  grind [takeFault_keeps, modTeam_keeps]

theorem peerGone_keeps (h : Keeps false s₀ s) {tid gid name va lanes} : Keeps false s₀ (peerGone s tid gid name va lanes) := by
  unfold peerGone
  grind [foldl_keeps, goneFault_keeps, ackPeer_keeps]

theorem linkChanged_keeps (h : Keeps false s₀ s) : Keeps false s₀ (linkChanged s) :=
  h.of_eq rfl rfl rfl

theorem execLinkDown_keeps (h : Keeps false s₀ s) {port} : OutKeeps s₀ (execLinkDown port s) := by
  refine ite_keeps h (foldl_keeps (fun u m hu => ?_) (linkChanged_keeps (modGemar_keeps h)))
  split
  · exact ite_keeps (peerGone_keeps (dropMsg_keeps hu)) hu
  · exact hu
  · split
    · exact ite_keeps (foldl_keeps (fun _ _ hv => goneFault_keeps hv) (fillAfter_keeps (lateFault_keeps (dropMsg_keeps hu)))) hu
    · exact hu

theorem execLinkUp_keeps (h : Keeps false s₀ s) {port serial} : OutKeeps s₀ (execLinkUp port serial s) := by
  unfold execLinkUp
  grind [modGemar_keeps, linkChanged_keeps, OutKeeps]

theorem beginStage_keeps (h : Keeps false s₀ s) {stage} : Keeps false s₀ (beginStage s stage) :=
  h.of_eq rfl rfl rfl

theorem startBoot_keeps (h : Keeps false s₀ s) : Keeps false s₀ (startBoot s) :=
  h.of_eq rfl rfl rfl

theorem stopBoot_keeps (h : Keeps false s₀ s) : Keeps false s₀ (stopBoot s) :=
  h.of_eq rfl rfl rfl

theorem runImage_keeps (h : Keeps false s₀ s) {kind p} : Keeps false s₀ (runImage s kind p) :=
  h.of_eq rfl rfl rfl

theorem verifyImage_keeps (h : Keeps false s₀ s) {kind} (e : verifyImage s kind = some t) : Keeps false s₀ t := by
  unfold verifyImage at e
  grind [runImage_keeps, Option.map_eq_some_iff]

theorem enterRecovery_keeps (h : Keeps false s₀ s) {code} : Keeps false s₀ (enterRecovery s code) :=
  h.of_eq rfl rfl rfl

theorem trainPorts_keeps_memory (h : Keeps false s₀ s) : Keeps false s₀ (trainPorts s) := by
  unfold trainPorts
  grind [fields_keeps, foldl_keeps, modGemar_keeps, linkChanged_keeps]

theorem bootStep_keeps (h : Keeps false s₀ s) : Keeps false s₀ (bootStep s) := by
  unfold bootStep
  dsimp only
  split
  · exact startBoot_keeps h
  · exact ite_keeps (beginStage_keeps (fields_keeps h)) (stopBoot_keeps (fields_keeps h))
  · split
    · next e => exact beginStage_keeps (verifyImage_keeps h e)
    · exact enterRecovery_keeps h
  · split
    · exact enterRecovery_keeps (fields_keeps h)
    · exact beginStage_keeps (fields_keeps h)
  · split
    · exact enterRecovery_keeps h
    · next e =>
      split
      · exact enterRecovery_keeps (verifyImage_keeps h e)
      · next e' => exact beginStage_keeps (verifyImage_keeps (verifyImage_keeps h e) e')
  · exact ite_keeps (beginStage_keeps (fields_keeps h)) (stopBoot_keeps (fields_keeps h))
  · exact modMgmt_keeps (beginStage_keeps (trainPorts_keeps_memory h))
  · exact h

/-- Power begins with an empty DRAM, and the host's memory stays. -/
theorem freshen_keeps (h : Keeps false s₀ s) : Keeps false s₀ (freshen s) := h.trans ⟨fun hc => ⟨rfl, hc.2⟩, nofun⟩

theorem execPowerOn_keeps (h : Keeps false s₀ s) : OutKeeps s₀ (execPowerOn s) := by
  unfold execPowerOn
  grind [bootStep_keeps, freshen_keeps, OutKeeps]

theorem powerOff_keeps (h : Keeps false s₀ s) : Keeps false s₀ (powerOff s) :=
  h.of_eq rfl rfl rfl

theorem flushLifetime_keeps (h : Keeps false s₀ s) : Keeps false s₀ (flushLifetime s) :=
  h.of_eq rfl rfl rfl

theorem execThermalTrip_keeps (h : Keeps false s₀ s) {stack} : OutKeeps s₀ (execThermalTrip stack s) := by
  unfold execThermalTrip
  grind [powerOff_keeps, flushLifetime_keeps, modMgmt_keeps, lrBump_keeps, OutKeeps]

theorem execOvercurrent_keeps (h : Keeps false s₀ s) (rail : Nat) : OutKeeps s₀ (execOvercurrent rail s) := by
  unfold execOvercurrent
  grind [powerOff_keeps, OutKeeps]

theorem setEvents_keeps (h : Keeps false s₀ s) {bits} : Keeps false s₀ (setEvents s bits) :=
  h.of_eq rfl rfl rfl

theorem execSensorSample_keeps (h : Keeps false s₀ s) {cluster col s0 s1 moved} : OutKeeps s₀ (execSensorSample cluster col s0 s1 moved s) := by
  unfold execSensorSample
  grind [fields_keeps, foldl_keeps, modMgmt_keeps, lrBump_keeps, setEvents_keeps, OutKeeps]

theorem execLifetimeFlush_keeps (h : Keeps false s₀ s) : OutKeeps s₀ (execLifetimeFlush s) := by
  unfold execLifetimeFlush
  grind [flushLifetime_keeps, lrBump_keeps, OutKeeps]

theorem execOrderlyShutdown_keeps (h : Keeps false s₀ s) : OutKeeps s₀ (execOrderlyShutdown s) := by
  unfold execOrderlyShutdown
  grind [powerOff_keeps, flushLifetime_keeps, OutKeeps]

theorem execPowerLoss_keeps (h : Keeps false s₀ s) : OutKeeps s₀ (execPowerLoss s) := by
  unfold execPowerLoss
  grind [powerOff_keeps, OutKeeps]

theorem execBusTest_keeps (h : Keeps false s₀ s) {core bad} : OutKeeps s₀ (execBusTest core bad s) := by
  unfold execBusTest
  grind [foldl_keeps, modMgmt_keeps, setEvents_keeps, OutKeeps]

theorem execMdrainCompletion_keeps (h : Keeps false s₀ s) {id} : OutKeeps s₀ (execMdrainCompletion id s) := by
  unfold execMdrainCompletion
  grind [landDrain_keeps, OutKeeps]

theorem execMbxBaseWrite_keeps (h : Keeps false s₀ s) {part v} : OutKeeps s₀ (execMbxBaseWrite part v s) := by
  unfold execMbxBaseWrite
  grind [flushRecords_keeps, modPart_keeps_memory, OutKeeps]

theorem execGemarLaneLoss_keeps (h : Keeps false s₀ s) {port} : OutKeeps s₀ (execGemarLaneLoss port s) := by
  unfold execGemarLaneLoss
  grind [modGemar_keeps, OutKeeps]

theorem execHschedDelayExpiry_keeps (h : Keeps false s₀ s) {team group} : OutKeeps s₀ (execHschedDelayExpiry team group s) := by
  unfold execHschedDelayExpiry
  grind [modGroup_keeps, OutKeeps]

end Sys2Proof.Proofs
end

