-- ==== Sys2Proof/Proofs/StepKept.lean ====
section
/-! PROOFS. What keeps memory in its canonical form (log entry 2): a step: every instruction and event, what is due, and the agenda. -/

namespace Sys2Proof.Proofs

open Machine

variable {s₀ s t : State}

/-- Each instruction and each event keeps memory canonical: the instructions of one effect by the lemma of their effect. -/
theorem exec_keeps (h : Keeps false s₀ s) {i} : OutKeeps s₀ (exec i s) := by
  cases i
  case sadd | ssub | smul | smulh | sdiv | srem | sand | sor | sxor | sshl | sshr | smin | smax | scmp | ssel | sbit | sget | sset | mget | mput
    | sext | saddi | sandi | sori | sxori | sshli | sshri | slti | sltni | sli | bra | call | bz | bnz | bany | bnone | setfmt | vcmp | vred | mop
    | mcnt | tlget => exact issue_keeps h fun _ _ hu => modGroup_keeps hu
  case vadd | vsub | vmul | vmulh | vand | vor | vxor | vshl | vshr | vmin | vmax | vabsd | vext => exact issue_keeps h fun _ _ hu => vecBin_keeps hu
  case vmad | vsel | vlane | vshuf | vrot | vslide | bperm => exact issue_keeps h fun _ _ hu => writeVec_keeps hu
  case vbit | fclass => exact issue_keeps h fun _ _ hu => vecUn_keeps hu
  case fadd | fsub | fmul => exact issue_keeps h fun _ _ hu => fltBin_keeps hu
  case ffma | fnma => exact issue_keeps h fun _ _ hu => fltTri_keeps hu
  case fmin | fmax | cvt | hfma2 => exact issue_keeps h fun _ _ hu => writeFloat_keeps hu
  case fcmp | dcmpF64 => exact issue_keeps h fun _ _ hu => fltCompare_keeps hu
  case frcp | frsq | fex2 | flg2 => exact issue_keeps h fun _ _ hu => fltUn_keeps hu
  case dadd | dmul | dfma => exact issue_keeps h fun _ _ hu => writeFloatPair_keeps hu
  case ld | st | sld | sst => exact issue_keeps h fun _ _ hu => memAccess_keeps hu
  case lds | sts => exact issue_keeps h fun _ _ hu => spadAccess_keeps hu
  case fence => exact issue_keeps h fun _ _ hu => fence_keeps hu
  case copy | halo | mcast | dcmpStream => exact issue_keeps h fun _ _ hu => engineIssue_keeps hu
  case gor2 | gor3 | ginc | gins | gseg => exact issue_keeps h fun _ _ hu => predicate_keeps hu
  case yield => exact issue_keeps h fun _ _ hu => yieldNow_keeps hu
  case exit => exact issue_keeps h fun _ _ hu => endGroup_keeps hu
  case trap => exact issue_keeps h fun _ _ hu => raiseFault_keeps hu
  case halt => exact issue_keeps h fun _ _ hu => haltPart_keeps hu
  case jr => exact execJr_keeps h
  case rept => exact execRept_keeps h
  case ifv => exact execIfv_keeps h
  case elsev => exact execElsev_keeps h
  case endv => exact execEndv_keeps h
  case vmov => exact execVmov_keeps h
  case vscan => exact execVscan_keeps h
  case dcvt => exact execDcvt_keeps h
  case fscale => exact execFscale_keeps h
  case plld => exact execPlld_keeps h
  case plst => exact execPlst_keeps h
  case atom => exact execAtom_keeps h
  case atomx => exact execAtomx_keeps h
  case red => exact execRed_keeps h
  case satom => exact execSatom_keeps h
  case place => exact execPlace_keeps h
  case waita => exact execWaita_keeps h
  case acq => exact execAcq_keeps h
  case rel => exact execRel_keeps h
  case tlwait => exact execTlwait_keeps h
  case baralloc => exact execBaralloc_keeps h
  case barfree => exact execBarfree_keeps h
  case bararr => exact execBararr_keeps h
  case barwait => exact execBarwait_keeps h
  case barsync => exact execBarsync_keeps h
  case xarr => exact execXarr_keeps h
  case xwait => exact execXwait_keeps h
  case qalloc => exact execQalloc_keeps h
  case qfree => exact execQfree_keeps h
  case qpush => exact execQpush_keeps h
  case qpop => exact execQpop_keeps h
  case qtry => exact execQtry_keeps h
  case qgrant => exact execQgrant_keeps h
  case coll => exact execColl_keeps h
  case spawn => exact execSpawn_keeps h
  case rebin => exact execRebin_keeps h
  case launch => exact execLaunch_keeps h
  case waitch => exact execWaitch_keeps h
  case tclaim => exact execTclaim_keeps h
  case trel => exact execTrel_keeps h
  case mmq => exact execMmq_keeps h
  case mzero => exact execMzero_keeps h
  case mdrain => exact execMdrain_keeps h
  case mfill => exact execMfill_keeps h
  case cupd => exact execCupd_keeps h
  case menc => exact execMenc_keeps h
  case cbld => exact execCbld_keeps h
  case mstat => exact execMstat_keeps h
  case himm => exact execHimm_keeps h
  case hsched => exact execHsched_keeps h
  case hmod => exact execHmod_keeps h
  case nop => exact execNop_keeps h
  case csrr => exact execCsrr_keeps h
  case csrw => exact execCsrw_keeps h
  case tresume => exact execTresume_keeps h
  case tflush => exact execTflush_keeps h
  case split => exact execSplit_keeps h
  case sleep => exact execSleep_keeps h
  case brk => exact execBrk_keeps h
  case binTimerExpiry => exact execBinTimerExpiry_keeps h
  case binGroupStart => exact execBinGroupStart_keeps h
  case watchdogExpiry => exact execWatchdogExpiry_keeps h
  case activeSetSwap => exact execActiveSetSwap_keeps h
  case forcedSwap => exact execForcedSwap_keeps h
  case sleepExpiry => exact execSleepExpiry_keeps h
  case waitaReread => exact execWaitaReread_keeps h
  case loadDataReturn => exact execLoadDataReturn_keeps h
  case sectorArrival => exact execSectorArrival_keeps h
  case frameAccess => exact execFrameAccess_keeps h
  case replicaLock => exact execReplicaLock_keeps h
  case replicaUpdate => exact execReplicaUpdate_keeps h
  case sideboardAccess => exact execSideboardAccess_keeps h
  case bounce => exact execBounce_keeps h
  case moveDone => exact execMoveDone_keeps h
  case pageRecall => exact execRecall_keeps h
  case pageWalk => exact execPageWalk_keeps h
  case closeMessage => exact execCloseMessage_keeps h
  case closeAnswer => exact execCloseAnswer_keeps h
  case engineCommandCompletion => exact execEngineCommandCompletion_keeps h
  case dcmpStreamEnd => exact execDcmpStreamEnd_keeps h
  case collArrival => exact execCollArrival_keeps h
  case copyDataLanding => exact execCopyDataLanding_keeps h
  case drawerDelivery => exact execDrawerDelivery_keeps h
  case deliveryRetry => exact execDeliveryRetry_keeps h
  case remoteLoad => exact execRemoteLoad_keeps h
  case targetGoneAnswer => exact execTargetGoneAnswer_keeps h
  case exchangeClose => exact execExchangeClose_keeps h
  case xwaitMerge => exact execXwaitMerge_keeps h
  case arrayPass => exact execArrayPass_keeps h
  case passTimeout => exact execPassTimeout_keeps h
  case subarrayGate => exact execSubarrayGate_keeps h
  case subarrayWake => exact execSubarrayWake_keeps h
  case predicateCompletion => exact execPredicateCompletion_keeps h
  case pageMove => exact execPageMove_keeps h
  case frameSeal => exact execFrameSeal_keeps h
  case sealNotice => exact execSealNotice_keeps h
  case sectorLanding => exact execSectorLanding_keeps h
  case touchPromotion => exact execTouchPromotion_keeps h
  case placeFarRequest => exact execPlaceFarRequest_keeps h
  case stashSweep => exact execStashSweep_keeps h
  case swapOut => exact execSwapOut_keeps h
  case dispatchStarvation => exact execDispatchStarvation_keeps h
  case timeSliceExpiry => exact execTimeSliceExpiry_keeps h
  case gridCompletion => exact execGridCompletion_keeps h
  case submissionPortWrite => exact execSubmissionPortWrite_keeps h
  case cxlMemRead => exact execCxlMemRead_keeps h
  case cxlMemWrite => exact execCxlMemWrite_keeps h
  case getVersion => exact execGetVersion_keeps h
  case getCapabilities => exact execGetCapabilities_keeps h
  case negotiateAlgorithms => exact execNegotiateAlgorithms_keeps h
  case getDigests => exact execGetDigests_keeps h
  case getCertificate => exact execGetCertificate_keeps h
  case challenge => exact execChallenge_keeps h
  case getMeasurements => exact execGetMeasurements_keeps h
  case layoutWrite => exact execLayoutWrite_keeps h
  case eventsClear => exact execEventsClear_keeps h
  case lrCmd => exact execLrCmd_keeps h
  case fwStoreStagedImage => exact execFwStoreStagedImage_keeps h
  case fwRaiseMinimumSvn => exact execFwRaiseMinimumSvn_keeps h
  case fwCommandDone => exact execFwCommandDone_keeps h
  case preset => exact execPreset_keeps h
  case mbxHeadWrite => exact execMbxHeadWrite_keeps h
  case windowTableWrite => exact execWindowTableWrite_keeps h
  case ownedReleaseDone => exact execOwnedReleaseDone_keeps h
  case bar0RegisterWrite => exact execBar0RegisterWrite_keeps h
  case peerRequest => exact execPeerRequest_keeps h
  case peerWriteAck => exact execPeerWriteAck_keeps h
  case flitCrcRetry => exact execFlitCrcRetry_keeps h
  case linkDown => exact execLinkDown_keeps h
  case linkUp => exact execLinkUp_keeps h
  case powerOn => exact execPowerOn_keeps h
  case thermalTrip => exact execThermalTrip_keeps h
  case overcurrent rail => exact execOvercurrent_keeps h rail
  case sensorSample => exact execSensorSample_keeps h
  case lifetimeFlush => exact execLifetimeFlush_keeps h
  case orderlyShutdown => exact execOrderlyShutdown_keeps h
  case powerLoss => exact execPowerLoss_keeps h
  case busTest => exact execBusTest_keeps h
  case mdrainCompletion => exact execMdrainCompletion_keeps h
  case replicaAcknowledgement => exact execReplicaAcknowledgement_keeps h
  case zeroLengthReadCompletion => exact execZeroLengthReadCompletion_keeps h
  case mbxBaseWrite => exact execMbxBaseWrite_keeps h
  case gemarLaneLoss => exact execGemarLaneLoss_keeps h
  case hschedDelayExpiry => exact execHschedDelayExpiry_keeps h

theorem changed_keeps (h : Keeps false s₀ s) {s1 : State} (e : changed s1 s = some t) : Keeps false s₀ t := by
  unfold changed at e
  grind

theorem eq_some_of_orElse {α : Type} {o : Option α} {f : Unit → Option α} {x : α} (e : o.orElse f = some x) : o = some x ∨ f () = some x := by
  cases o with
  | none => exact .inr e
  | some y => exact .inl e

theorem dueMessage_keeps (h : Keeps false s₀ s) (e : dueMessage s = some t) : Keeps false s₀ t := by
  unfold dueMessage at e
  obtain e | e := eq_some_of_orElse e
  · obtain ⟨m, -, e⟩ := List.exists_of_findSome?_eq_some e
    exact changed_keeps (runMsg_keeps h) e
  · obtain ⟨m, -, e⟩ := List.exists_of_findSome?_eq_some e
    exact changed_keeps (runMove_keeps h) e

theorem firstEvent_keeps (h : Keeps false s₀ s) {l} (e : firstEvent s l = some t) : Keeps false s₀ t := by
  obtain ⟨i, -, e⟩ := List.exists_of_findSome?_eq_some e
  have hexec := exec_keeps h (i := i)
  split at e
  · next eq =>
    rw [eq] at hexec
    exact changed_keeps hexec e
  · cases e

theorem servePart_keeps (h : Keeps false s₀ s) {part} : Keeps false s₀ (servePart s part) := by
  unfold servePart
  grind [dispatchPart_keeps, takeSubmitted_keeps]

theorem dueNow_keeps (h : Keeps false s₀ s) (e : dueNow s = some t) : Keeps false s₀ t := by
  unfold dueNow at e
  obtain e | e := eq_some_of_orElse e
  · exact dueMessage_keeps h e
  obtain e | e := eq_some_of_orElse e
  · exact firstEvent_keeps h e
  · obtain ⟨p, -, e⟩ := List.exists_of_findSome?_eq_some e
    exact changed_keeps (servePart_keeps h) e

theorem runGroup_keeps (h : Keeps false s₀ s) {tid gid} : OutKeeps s₀ (runGroup tid gid s) := by
  unfold runGroup
  grind [fields_keeps, fetchInstr_keeps, exec_keeps, raiseFault_keeps, OutKeeps]

theorem tryGroup_keeps (h : Keeps false s₀ s) {tid gid} {o} (e : tryGroup tid gid s = some o) : OutKeeps s₀ o := by
  unfold tryGroup at e
  grind [runGroup_keeps]

theorem issueOldest_keeps (h : Keeps false s₀ s) {x} {o} (e : issueOldest x s = some o) : OutKeeps s₀ o := by
  induction x with
  | nil => cases e
  | cons p l ih =>
    unfold issueOldest at e
    obtain e | e := eq_some_of_orElse e
    · exact tryGroup_keeps h e
    · exact ih e

theorem issueCores_keeps (h : Keeps false s₀ s) {x} {o} (e : issueCores x s = some o) : OutKeeps s₀ o := by
  induction x generalizing s o with
  | nil => cases e
  | cons c l ih =>
    unfold issueCores at e
    split at e
    · exact ih h e
    · next u eq =>
      have hu : Keeps false s₀ u := issueOldest_keeps h eq
      cases e
      cases hrest : issueCores l u with
      | none => exact hu
      | some o => exact ih hu hrest
    · next eq =>
      cases e
      exact issueOldest_keeps h eq

theorem tick_keeps (h : Keeps false s₀ s) {n} : Keeps false s₀ (tick s n) :=
  h.of_eq rfl rfl rfl

theorem stampReady_keeps (h : Keeps false s₀ s) : Keeps false s₀ (stampReady s) := by
  unfold stampReady
  grind [foldl_keeps, setCore_keeps]

theorem pass_keeps (h : Keeps false s₀ s) {n} : Keeps false s₀ (pass s n) := tick_keeps (stampReady_keeps h)

theorem swapAll_keeps (h : Keeps false s₀ s) : Keeps false s₀ (swapAll s) :=
  foldl_keeps (fun _ _ hu => foldl_keeps (fun _ _ hv => afterOutcome_keeps hv (exec_keeps hv)) hu) h

theorem autoStep_keeps (h : Keeps false s₀ s) : OutKeeps s₀ (autoStep s) := by
  unfold autoStep
  split
  · exact exec_keeps h
  · split
    · next e => exact dueNow_keeps h e
    · split
      · next e => exact pass_keeps (swapAll_keeps (stampReady_keeps (issueCores_keeps h e)))
      · next e => exact issueCores_keeps h e
      · exact pass_keeps (swapAll_keeps (stampReady_keeps h))

theorem beforeEvent_keeps (h : Keeps false s₀ s) {ev} : Keeps false s₀ (beforeEvent ev s) := by
  unfold beforeEvent
  grind [stampReady_keeps]

theorem upset_keeps (h : Keeps false s₀ s) {unit victim} : Keeps false s₀ (upset s unit victim) := by
  unfold upset
  refine ite_keeps h ?_
  split
  · exact lrBump_keeps h
  · refine ite_keeps (lrBump_keeps h) ?_
    split
    · next t g _ _ =>
      have hfetch := fetchInstr_keeps h (tm := t) (g := g)
      refine ite_keeps h ?_
      split
      · next e =>
        rw [e] at hfetch
        exact ite_keeps (raiseFault_keeps (lrBump_keeps hfetch)) h
      · exact h
    · exact h

theorem agendaStep_keeps (h : Keeps false s₀ s) {a} : OutKeeps s₀ (agendaStep a s) := by
  unfold agendaStep
  grind [exec_keeps, beforeEvent_keeps, runGroup_keeps, pass_keeps, servePart_keeps, upset_keeps, OutKeeps]

theorem step_keeps (h : Keeps false s₀ s) : OutKeeps s₀ (step s) := by
  unfold step
  grind [fields_keeps, autoStep_keeps, agendaStep_keeps, OutKeeps]

/-- Settles O60: each function of the model keeps the canonical form, because memory changes only by writes of bytes, pasted ranges and the empty
memory of a power-on; a step is such a function. -/
theorem stepKeepsMemoryCanonical : Obligations.StepKeepsMemoryCanonical := by
  unfold Obligations.StepKeepsMemoryCanonical
  intro s t hs e
  have hstep := step_keeps (Keeps.refl false s)
  rw [e] at hstep
  exact hstep.1 hs

end Sys2Proof.Proofs
end

