-- ==== Sys2Proof/Proofs/Determinants.lean ====
section
/-! PROOFS. A dyadic number as the rational number that it is, and the determinants of the model as the determinants of R319 over the rational
numbers. -/

namespace Sys2Proof.Proofs

open Machine

/-! ## Dyadic numbers -/

section

variable {a b : Dya}

theorem two_pow_toNat_mul {x y : ℤ} (h : x ≤ y) : (2 : ℚ) ^ (y - x).toNat * 2 ^ x = 2 ^ y := by
  rw [← zpow_natCast, Int.toNat_of_nonneg (by omega), ← zpow_add₀ two_ne_zero]
  congr 1; omega

@[simp] theorem rat_zero : Spec.rat .zero = 0 := by simp [Spec.rat, Dya.zero]

@[simp] theorem rat_add (a b : Dya) : Spec.rat (a.add b) = Spec.rat a + Spec.rat b := by
  unfold Dya.add Spec.rat
  split
  · next h => push_cast; rw [← two_pow_toNat_mul h]; ring
  · next h => push_cast; rw [← two_pow_toNat_mul (x := b.e) (y := a.e) (by omega)]; ring

@[simp] theorem rat_neg (a : Dya) : Spec.rat a.neg = - Spec.rat a := by simp [Spec.rat, Dya.neg]

@[simp] theorem rat_sub (a b : Dya) : Spec.rat (a.sub b) = Spec.rat a - Spec.rat b := by simp [Dya.sub, sub_eq_add_neg]

@[simp] theorem rat_mul (a b : Dya) : Spec.rat (a.mul b) = Spec.rat a * Spec.rat b := by
  simp only [Spec.rat, Dya.mul, zpow_add₀ (two_ne_zero (α := ℚ))]
  push_cast
  ring

@[simp] theorem rat_abs (a : Dya) : Spec.rat a.abs = |Spec.rat a| := by
  simp [Spec.rat, Dya.abs, abs_mul]

theorem rat_pos : 0 < Spec.rat a ↔ 0 < a.m := by
  rw [Spec.rat, mul_pos_iff_of_pos_right (zpow_pos two_pos _), Int.cast_pos]

theorem rat_neg_iff : Spec.rat a < 0 ↔ a.m < 0 := by
  rw [Spec.rat, ← not_le, mul_nonneg_iff_of_pos_right (zpow_pos two_pos _), Int.cast_nonneg_iff, not_le]

/-- A dyadic number's sign is that of its rational number. -/
theorem sign_eq_sgn (a : Dya) : a.sign = Spec.sgn (Spec.rat a) := by
  simp only [Spec.sgn, rat_pos, rat_neg_iff, Dya.sign]
  rcases lt_trichotomy a.m 0 with h | h | h
  · simp [Int.sign_eq_neg_one_of_neg h, h, not_lt_of_gt h]
  · simp [h]
  · simp [Int.sign_eq_one_of_pos h, h]

@[simp] theorem dya_lt : a.lt b = decide (Spec.rat a < Spec.rat b) := by
  rw [Dya.lt, decide_eq_decide, ← rat_neg_iff, rat_sub, sub_neg]

@[simp] theorem dya_le : a.le b = decide (Spec.rat a ≤ Spec.rat b) := by
  rw [Dya.le, dya_lt, ← decide_not, decide_eq_decide, not_lt]

theorem rat_eq_zero : Spec.rat a = 0 ↔ a.m = 0 := by
  simp [Spec.rat, zpow_ne_zero]

@[simp] theorem dya_eq : a.eq b = decide (Spec.rat a = Spec.rat b) := by
  rw [Dya.eq, Bool.beq_eq_decide_eq, decide_eq_decide, ← rat_eq_zero, rat_sub, sub_eq_zero]

@[simp] theorem rat_minD (a b : Dya) : Spec.rat (a.minD b) = min (Spec.rat a) (Spec.rat b) := by
  simp only [Dya.minD, dya_lt, decide_eq_true_eq, apply_ite Spec.rat]
  split
  · next h => rw [min_eq_right h.le]
  · next h => rw [min_eq_left (not_lt.mp h)]

@[simp] theorem rat_maxD (a b : Dya) : Spec.rat (a.maxD b) = max (Spec.rat a) (Spec.rat b) := by
  simp only [Dya.maxD, dya_lt, decide_eq_true_eq, apply_ite Spec.rat]
  split
  · next h => rw [max_eq_right h.le]
  · next h => rw [max_eq_left (not_lt.mp h)]

end

/-! ## Signs -/

@[simp] theorem sgn_eq_zero {x : ℚ} : Spec.sgn x = 0 ↔ x = 0 := by
  unfold Spec.sgn
  rcases lt_trichotomy x 0 with h | h | h
  · simp [h, h.ne, not_lt_of_gt h]
  · simp [h]
  · simp [h, h.ne']

@[simp] theorem sgn_pos {x : ℚ} : 0 < Spec.sgn x ↔ 0 < x := by
  unfold Spec.sgn
  split
  · next h => simp [h]
  · next h => split <;> simp [h]

@[simp] theorem sgn_neg {x : ℚ} : Spec.sgn x < 0 ↔ x < 0 := by
  unfold Spec.sgn
  split
  · next h => simp [not_lt_of_gt h]
  · split <;> simp [*]

/-- A product of signs is negative when the product is. -/
theorem sgn_mul_neg {x y : ℚ} : Spec.sgn x * Spec.sgn y < 0 ↔ x * y < 0 := by
  simp only [mul_neg_iff, sgn_pos, sgn_neg]

/-! ## Determinants -/

variable {k : PredKind}

/-- A determinant of R319 depends on its coordinates alone. -/
theorem detT_congr {t t' : Nat → Nat → ℚ} (h : ∀ i < k.points - 1, ∀ j < k.dim, t i j = t' i j) : Spec.detT k t = Spec.detT k t' := by
  have lift (i : Fin (k.points - 1)) : Finset.sum (Finset.range k.dim) (fun c => t i.val c ^ 2) =
      Finset.sum (Finset.range k.dim) (fun c => t' i.val c ^ 2) :=
    Finset.sum_congr rfl fun c hc => by rw [h _ i.isLt _ (Finset.mem_range.mp hc)]
  unfold Spec.detT
  congr 2
  funext i j
  split
  · next hj => exact h _ i.isLt _ hj
  · exact lift i

/-- The model's cofactors of a determinant of four rows (R321). -/
theorem det_fin_four (x : Matrix (Fin 4) (Fin 4) ℚ) : Matrix.det x =
    x 3 3 * Matrix.det (x.submatrix ![0, 1, 2] ![0, 1, 2]) - x 2 3 * Matrix.det (x.submatrix ![3, 0, 1] ![0, 1, 2]) +
      (x 1 3 * Matrix.det (x.submatrix ![2, 3, 0] ![0, 1, 2]) - x 0 3 * Matrix.det (x.submatrix ![1, 2, 3] ![0, 1, 2])) := by
  rw [Matrix.det_succ_column x 3]
  simp only [Matrix.det_fin_three, Fin.sum_univ_succ]
  simp [Fin.succAbove]
  ring

@[simp] theorem exactArith_add : exactArith.add = Dya.add := rfl
@[simp] theorem exactArith_sub : exactArith.sub = Dya.sub := rfl
@[simp] theorem exactArith_mul : exactArith.mul = Dya.mul := rfl

/-- The model's determinant of two rows is that of the rational numbers. -/
theorem rat_det2 (u v : List Dya) : Spec.rat (det2 exactArith .zero u v) =
    Spec.rat (u.getD 0 .zero) * Spec.rat (v.getD 1 .zero) - Spec.rat (u.getD 1 .zero) * Spec.rat (v.getD 0 .zero) := by
  simp [det2]

/-- The model's determinant of three rows is that of the rational numbers. -/
theorem rat_det3 (u v w : List Dya) : Spec.rat (det3 exactArith .zero u v w) =
    Matrix.det (Matrix.of fun i j : Fin 3 => Spec.rat ((![u, v, w] i).getD j .zero)) := by
  simp only [det3, exactArith_add, exactArith_mul, rat_add, rat_mul, rat_det2, Matrix.det_fin_three]
  simp
  ring

/-- The model's determinant of four rows is that of the rational numbers. -/
theorem rat_det4 (a b c e : List Dya) : Spec.rat (det4 exactArith .zero a b c e) =
    Matrix.det (Matrix.of fun i j : Fin 4 => Spec.rat ((![a, b, c, e] i).getD j .zero)) := by
  simp only [det4, exactArith_add, exactArith_sub, exactArith_mul, rat_add, rat_sub, rat_mul, rat_det3, det_fin_four, Matrix.det_fin_three]
  simp

/-- The model's determinant of a predicate's rows is that of the rational numbers. -/
theorem rat_detOf (hk : k ≠ .gseg) (rows : List (List Dya)) : Spec.rat (detOf exactArith .zero k rows) =
    Matrix.det (Matrix.of fun i j : Fin (k.points - 1) => Spec.rat ((rows.getD i []).getD j .zero)) := by
  cases k with
  | gseg => exact absurd rfl hk
  | gor2 => exact (rat_det2 _ _).trans (Matrix.det_fin_two (Matrix.of fun i j : Fin 2 => Spec.rat ((rows.getD i []).getD j .zero))).symm
  | gor3 | ginc =>
    refine (rat_det3 _ _ _).trans (congrArg Matrix.det (Matrix.ext fun (i j : Fin 3) => ?_))
    fin_cases i <;> rfl
  | gins =>
    refine (rat_det4 _ _ _ _).trans (congrArg Matrix.det (Matrix.ext fun (i j : Fin 4) => ?_))
    fin_cases i <;> rfl

/-- The lift of a vector is the sum of its coordinates' squares. -/
theorem rat_liftOf {v : List Dya} (h : v.length = k.dim) :
    Spec.rat (liftOf exactArith .zero v) = Finset.sum (Finset.range k.dim) (fun c => Spec.rat (v.getD c .zero) ^ 2) := by
  have h2 : k.dim = 2 ∨ k.dim = 3 := by cases k <;> simp [PredKind.dim]
  obtain hk | hk := h2 <;> rw [hk] at h ⊢
  · obtain ⟨x, y, rfl⟩ := List.length_eq_two.mp h
    simp [liftOf, Finset.sum_range_succ, sq]
  · obtain ⟨x, y, z, rfl⟩ := List.length_eq_three.mp h
    simp [liftOf, Finset.sum_range_succ, sq]

/-- A coordinate of a row: one of its translated vector, or in the last column of GINC and GINS the lift. -/
theorem rat_rowsOf {vs : List (List Dya)} {i j : Nat} (hk : k ≠ .gseg) (hi : i < vs.length) (hd : ∀ v ∈ vs, v.length = k.dim)
    (hj : j < k.points - 1) : Spec.rat (((rowsOf exactArith .zero k vs).getD i []).getD j .zero) =
      if j < k.dim then Spec.rat ((vs.getD i []).getD j .zero)
      else Finset.sum (Finset.range k.dim) (fun c => Spec.rat ((vs.getD i []).getD c .zero) ^ 2) := by
  have hv := hd vs[i] (List.getElem_mem hi)
  unfold rowsOf
  split
  next hl =>
    have hp : k.points - 1 = k.dim + 1 := by cases k <;> simp_all [PredKind.lifted, PredKind.points, PredKind.dim]
    have hrow : (vs.map (fun v => v ++ [liftOf exactArith .zero v])).getD i [] = vs[i] ++ [liftOf exactArith .zero vs[i]] := by
      simp [hi]
    rw [hrow, List.getD_eq_getElem vs [] hi]
    split
    next hj' => rw [List.getD_append _ _ _ _ (hv ▸ hj')]
    next hj' =>
      rw [← rat_liftOf hv, List.getD_append_right _ _ _ _ (by omega), show j - vs[i].length = 0 by omega]
      rfl
  next hl =>
    have hp : k.points - 1 = k.dim := by cases k <;> simp_all [PredKind.lifted, PredKind.points, PredKind.dim]
    rw [if_pos (hp ▸ hj)]

/-- The model's determinant of translated vectors is that of R319. -/
theorem rat_detOf_rowsOf {vs : List (List Dya)} (hk : k ≠ .gseg) (hl : vs.length = k.points - 1) (hd : ∀ v ∈ vs, v.length = k.dim) :
    Spec.rat (detOf exactArith .zero k (rowsOf exactArith .zero k vs)) = Spec.detT k (fun i j => Spec.rat ((vs.getD i []).getD j .zero)) := by
  rw [rat_detOf hk]
  exact congrArg Matrix.det (Matrix.ext fun i j => rat_rowsOf hk (i.isLt.trans_eq hl.symm) hd j.isLt)

/-! ## Translated vectors -/

theorem translated_eq {α : Type} {A : Arith α} {pts : List (List α)} (h : pts ≠ []) :
    translated A pts = pts.dropLast.map (fun p => (p.zip (pts.getLast h)).map (fun q => A.sub q.1 q.2)) := by
  simp [translated, List.getLast?_eq_getLast_of_ne_nil h]

variable {α : Type} {A : Arith α} {ps : List (List α)}

theorem length_translated : (translated A ps).length = ps.length - 1 := by
  obtain rfl | h := eq_or_ne ps []
  · rfl
  · simp [translated_eq h]

theorem length_of_mem_translated {n : Nat} (hd : ∀ p ∈ ps, p.length = n) : ∀ v ∈ translated A ps, v.length = n := by
  obtain rfl | h := eq_or_ne ps []
  · simp [translated]
  · intro v hv
    rw [translated_eq h] at hv
    obtain ⟨p, hp, rfl⟩ := List.mem_map.mp hv
    simp [hd p (List.dropLast_subset _ hp), hd _ (List.getLast_mem h)]

/-- A coordinate of a translated vector is the difference of the coordinates. -/
theorem getD_translated {n i j : Nat} {z : α} (hd : ∀ p ∈ ps, p.length = n) (hi : i < ps.length - 1) (hj : j < n) :
    ((translated A ps).getD i []).getD j z = A.sub ((ps.getD i []).getD j z) ((ps.getD (ps.length - 1) []).getD j z) := by
  have h : ps ≠ [] := by rintro rfl; simp at hi
  have hl : ps.length - 1 < ps.length := by omega
  have hji : j < ps[i].length := (hd _ (List.getElem_mem _)).symm ▸ hj
  have hjl : j < (ps[ps.length - 1]).length := (hd _ (List.getElem_mem _)).symm ▸ hj
  rw [translated_eq h, List.getLast_eq_getElem h]
  simp [hi, hl, hji, hjl, show i < ps.length by omega]

end Sys2Proof.Proofs
end

