-- ==== Sys2Proof/Proofs/Predicates.lean ====
section
/-! PROOFS. The exact geometric predicates: the sign that the stages decide, the class of two segments, and the instruction (R319 to R326, R334). -/

namespace Sys2Proof.Proofs

open Machine

variable {k : PredKind} {pts : List (List Dya)}

/-! ## The stages -/

theorem getD_rats (i j : Nat) : ((Spec.rats pts).getD i []).getD j 0 = Spec.rat ((pts.getD i []).getD j .zero) := by
  rw [← rat_zero, ← List.getD_map (f := Spec.rat), ← List.getD_map (f := fun p : List Dya => p.map Spec.rat), List.map_nil, Spec.rats]

/-- The exact determinant of the translated points is D (R319). -/
theorem rat_detOf_translated (hk : k ≠ .gseg) (hl : pts.length = k.points) (hd : ∀ p ∈ pts, p.length = k.dim) :
    Spec.rat (detOf exactArith .zero k (rowsOf exactArith .zero k (translated exactArith pts))) = Spec.exactD k (Spec.rats pts) := by
  rw [rat_detOf_rowsOf hk (length_translated.trans (hl ▸ rfl)) (length_of_mem_translated hd)]
  refine detT_congr fun i hi j hj => ?_
  rw [getD_translated hd (hl ▸ hi) hj, exactArith_sub, rat_sub, hl, getD_rats, getD_rats]

/-- The points as stage 0 takes them. -/
def stagePoints (pts : List (List Dya)) : List (List Fl) := pts.map (fun p => p.map (fun x => ⟨x, false⟩))

theorem length_of_mem_stagePoints {n : Nat} (hd : ∀ p ∈ pts, p.length = n) : ∀ p ∈ stagePoints pts, p.length = n := by
  simpa [stagePoints] using hd

theorem stage0_diffs : (stage0 k pts).1 = translated flArith (stagePoints pts) := rfl

theorem length_stage0 : (stage0 k pts).1.length = pts.length - 1 := by
  simp [stage0_diffs, length_translated, stagePoints]

theorem length_of_mem_stage0 (hd : ∀ p ∈ pts, p.length = k.dim) : ∀ v ∈ (stage0 k pts).1, v.length = k.dim :=
  length_of_mem_translated (length_of_mem_stagePoints hd)

/-- The determinant of stage 1: the exact one of the differences of stage 0 (R322). -/
theorem rat_stage1 (hk : k ≠ .gseg) (hl : pts.length = k.points) (hd : ∀ p ∈ pts, p.length = k.dim) :
    Spec.rat (detOf exactArith .zero k (rowsOf exactArith .zero k ((stage0 k pts).1.map (fun r => r.map (·.v))))) =
      Spec.detT k (fun i j => Spec.rat (((stage0 k pts).1.getD i []).getD j ⟨.zero, false⟩).v) := by
  have hm : ∀ v ∈ (stage0 k pts).1.map (fun r => r.map (·.v)), v.length = k.dim := by
    simpa using length_of_mem_stage0 hd
  rw [rat_detOf_rowsOf hk (by rw [List.length_map, length_stage0, hl]) hm]
  refine detT_congr fun i _ j _ => ?_
  rw [← List.getD_map (f := Fl.v), ← List.getD_map (f := fun r : List Fl => r.map (·.v)), List.map_nil]

theorem all_zip {β γ : Type} {xs : List β} {ys : List γ} {f : β × γ → Bool} {x : β} {y : γ} (h : (xs.zip ys).all f = true) {i : Nat}
    (hx : i < xs.length) (hy : i < ys.length) : f (xs.getD i x, ys.getD i y) = true := by
  have hz : i < (xs.zip ys).length := by simp [hx, hy]
  simpa [hx, hy] using List.all_eq_true.mp h _ (List.getElem_mem hz)

/-- Where every difference of stage 0 is exact, stage 1 decides by D itself (R322). -/
theorem stage1_of_same (hl : pts.length = k.points) (hd : ∀ p ∈ pts, p.length = k.dim)
    (h : ((translated exactArith pts).zip (stage0 k pts).1).all (fun q => (q.1.zip q.2).all (fun x => x.1.eq x.2.v)) = true) :
    Spec.detT k (fun i j => Spec.rat (((stage0 k pts).1.getD i []).getD j ⟨.zero, false⟩).v) = Spec.exactD k (Spec.rats pts) := by
  refine detT_congr fun i hi j hj => ?_
  have hf := length_of_mem_stage0 hd
  have he := length_of_mem_translated (A := exactArith) hd
  have hie : i < (translated exactArith pts).length := by rw [length_translated, hl]; exact hi
  have hif : i < (stage0 k pts).1.length := by rw [length_stage0, hl]; exact hi
  have hr := all_zip (x := []) (y := []) h hie hif
  rw [List.getD_eq_getElem _ _ hie, List.getD_eq_getElem _ _ hif] at hr
  have hc := all_zip (x := .zero) (y := ⟨.zero, false⟩) hr ((he _ (List.getElem_mem _)).symm ▸ hj) ((hf _ (List.getElem_mem _)).symm ▸ hj)
  rw [dya_eq, decide_eq_true_eq] at hc
  rw [List.getD_eq_getElem _ _ hif, ← hc, getD_rats, getD_rats, ← List.getD_eq_getElem _ [] hie,
    getD_translated hd (hl ▸ hi) hj, exactArith_sub, rat_sub, hl]

/-- The stages decide by the sign of D, where the bounds keep what they promise, or stage 2 decides or an fl step has left the range
(R321 to R323). -/
theorem stagedSign_eq_sgn {bad : Bool} (hk : k ≠ .gseg) (hl : pts.length = k.points) (hd : ∀ p ∈ pts, p.length = k.dim)
    (h : (stagedSign k bad pts).2 = 2 ∨ bad = true ∨ Spec.BoundsHold k pts) :
    (stagedSign k bad pts).1 = Spec.sgn (Spec.exactD k (Spec.rats pts)) := by
  simp only [stagedSign] at h ⊢
  split at h
  next h0 =>
    rw [if_pos h0, sign_eq_sgn]
    obtain ⟨hb, hlt⟩ := Bool.and_eq_true_iff.mp h0
    obtain h | rfl | ⟨hB, -⟩ := h
    · simp at h
    · simp at hb
    · exact hB (by simpa using hlt)
  next h0 =>
    rw [if_neg h0]
    split at h
    next hs =>
      rw [if_pos hs, sign_eq_sgn, rat_stage1 hk hl hd, stage1_of_same hl hd hs]
    next hs =>
      rw [if_neg hs]
      split at h
      next h1 =>
        rw [if_pos h1, sign_eq_sgn, rat_stage1 hk hl hd]
        obtain ⟨hb, hlt⟩ := Bool.and_eq_true_iff.mp h1
        obtain h | rfl | ⟨-, hB⟩ := h
        · simp at h
        · simp at hb
        · rw [dya_lt, decide_eq_true_eq, rat_mul, rat_abs, rat_stage1 hk hl hd] at hlt
          exact hB hlt
      next h1 => rw [if_neg h1, sign_eq_sgn, rat_detOf_translated hk hl hd]

/-- The tie-break is used only where the stages find 0 and indices are given (R324). -/
theorem solvedSign_eq {bad : Bool} {ranks : Option (List Nat)} (h : ranks = none ∨ (stagedSign k bad pts).1 ≠ 0) :
    solvedSign k bad pts ranks = stagedSign k bad pts := by
  obtain rfl | h := h
  · rfl
  · cases ranks with
    | none => rfl
    | some l => exact if_neg h

/-- The sign of D, from the stages and the tie-break. -/
theorem solvedSign_eq_sgn {bad : Bool} {ranks : Option (List Nat)} (hk : k ≠ .gseg) (hl : pts.length = k.points)
    (hd : ∀ p ∈ pts, p.length = k.dim) (hr : ranks = none ∨ Spec.exactD k (Spec.rats pts) ≠ 0)
    (h : (stagedSign k bad pts).2 = 2 ∨ bad = true ∨ Spec.BoundsHold k pts) :
    (solvedSign k bad pts ranks).1 = Spec.sgn (Spec.exactD k (Spec.rats pts)) := by
  have hs := stagedSign_eq_sgn hk hl hd h
  rw [solvedSign_eq (hr.imp_right fun hD => by rwa [hs, ne_eq, sgn_eq_zero]), hs]

/-! ## GSEG -/

/-- A point of a predicate of the plane. -/
def point (x : Dya × Dya) : List Dya := [x.1, x.2]
/-- It as a point over the rational numbers. -/
def ratPoint (x : Dya × Dya) : ℚ × ℚ := (Spec.rat x.1, Spec.rat x.2)
/-- The exact orientation of three points. -/
def orient (x y z : Dya × Dya) : ℚ := Spec.exactD .gor2 (Spec.rats [point x, point y, point z])

/-- The class of collinear segments, from one coordinate of their ends. -/
def overlapClass (axis : Nat) (a b c d : Dya × Dya) : Nat :=
  let x (p : Dya × Dya) : Dya := (point p).getD axis .zero
  let lo := ((x a).minD (x b)).maxD ((x c).minD (x d))
  let hi := ((x a).maxD (x b)).minD ((x c).maxD (x d))
  if lo.lt hi then 3 else if lo.eq hi then 2 else 0

/-- The class of two segments from the signs of their four orientations. -/
def classBySigns (s₁ s₂ s₃ s₄ : Int) (a b c d : Dya × Dya) : Nat :=
  if s₁ = 0 ∧ s₂ = 0 ∧ s₃ = 0 ∧ s₄ = 0 then
    overlapClass (if a.1.eq b.1 && a.1.eq c.1 && a.1.eq d.1 then 1 else 0) a b c d
  else if s₁ * s₂ < 0 ∧ s₃ * s₄ < 0 then 1
  else if (s₁ = 0 && onSegment (point c) (point a) (point b)) || (s₂ = 0 && onSegment (point d) (point a) (point b)) ||
      (s₃ = 0 && onSegment (point a) (point c) (point d)) || (s₄ = 0 && onSegment (point b) (point c) (point d)) then 2
  else 0

/-- The points of the four orientations of two segments (R320). -/
def orientations (a b c d : Dya × Dya) : List (List (List Dya)) :=
  [[point a, point b, point c], [point a, point b, point d], [point c, point d, point a], [point c, point d, point b]]

/-- Some fl step of a lane's four orientations left the range (R320). -/
def segBad (a b c d : Dya × Dya) : Bool := (orientations a b c d).any (fun x => (stage0 .gor2 x).2.2.2)

/-- The sign of one of the four orientations, with the ranks of its points. -/
def segSign (bad : Bool) (x y z : Dya × Dya) (ranks : Option (List Nat)) (i j k : Nat) : Int :=
  (solvedSign .gor2 bad [point x, point y, point z] (ranks.map (fun l => [l.getD i 0, l.getD j 0, l.getD k 0]))).1

variable {a b c d : Dya × Dya} {ranks : Option (List Nat)}

/-- The model's class is the one by the signs that it solves. -/
theorem segClass_eq_classBySigns :
    (segClass [point a, point b, point c, point d] ranks).1 = classBySigns (segSign (segBad a b c d) a b c ranks 0 1 2)
      (segSign (segBad a b c d) a b d ranks 0 1 3) (segSign (segBad a b c d) c d a ranks 2 3 0) (segSign (segBad a b c d) c d b ranks 2 3 1)
      a b c d := rfl

theorem onSegment_iff (x p q : Dya × Dya) : onSegment (point x) (point p) (point q) = true ↔
    Spec.Between (ratPoint x).1 (ratPoint p).1 (ratPoint q).1 ∧ Spec.Between (ratPoint x).2 (ratPoint p).2 (ratPoint q).2 := by
  simp [onSegment, point, ratPoint, Spec.Between]

theorem orient_eq (x y z : Dya × Dya) : orient x y z = Spec.exactD .gor2
    [[(ratPoint x).1, (ratPoint x).2], [(ratPoint y).1, (ratPoint y).2], [(ratPoint z).1, (ratPoint z).2]] := rfl

theorem overlapClass_cases {axis : Nat} {f : ℚ × ℚ → ℚ} (hf : ∀ x, Spec.rat ((point x).getD axis .zero) = f (ratPoint x)) :
    let lo := max (min (f (ratPoint a)) (f (ratPoint b))) (min (f (ratPoint c)) (f (ratPoint d)))
    let hi := min (max (f (ratPoint a)) (f (ratPoint b))) (max (f (ratPoint c)) (f (ratPoint d)))
    (lo < hi ∧ overlapClass axis a b c d = 3) ∨ (lo = hi ∧ overlapClass axis a b c d = 2) ∨ (hi < lo ∧ overlapClass axis a b c d = 0) := by
  intro lo hi
  have hcls : overlapClass axis a b c d = if lo < hi then 3 else if lo = hi then 2 else 0 := by
    simp only [overlapClass, dya_lt, dya_eq, rat_minD, rat_maxD, hf, decide_eq_true_eq]
    rfl
  rw [hcls]
  rcases lt_trichotomy lo hi with h | h | h
  · exact .inl ⟨h, if_pos h⟩
  · exact .inr (.inl ⟨h, by simp [h]⟩)
  · exact .inr (.inr ⟨h, by simp [h.ne', h.not_gt]⟩)

/-- The class by the signs of the exact orientations is the one of R320. -/
theorem isClass_classBySigns : Spec.IsClass (ratPoint a) (ratPoint b) (ratPoint c) (ratPoint d)
    (classBySigns (Spec.sgn (orient a b c)) (Spec.sgn (orient a b d)) (Spec.sgn (orient c d a)) (Spec.sgn (orient c d b)) a b c d) := by
  simp only [Spec.IsClass, ← orient_eq, classBySigns, sgn_eq_zero, sgn_mul_neg]
  refine ⟨fun hcol => ?_, fun hcol hcross => ?_, fun hcol hcross => ?_⟩
  · rw [if_pos hcol]
    refine ⟨fun hs => ?_, fun hs => ?_⟩
    · rw [if_pos (by simpa [ratPoint, and_assoc] using hs)]
      exact overlapClass_cases fun _ => rfl
    · rw [if_neg (by simpa [ratPoint] using hs)]
      exact overlapClass_cases fun _ => rfl
  · rw [if_neg hcol, if_pos hcross]
  · rw [if_neg hcol, if_neg hcross]
    exact ⟨fun ht => if_pos (by simpa [onSegment_iff, or_assoc] using ht), fun ht => if_neg (by simpa [onSegment_iff, or_assoc] using ht)⟩

theorem orientation_lengths (x y z : Dya × Dya) : ∀ p ∈ [point x, point y, point z], p.length = PredKind.gor2.dim := by
  simp [point, PredKind.dim]

/-- One of the four orientations has the sign of its exact determinant. -/
theorem segSign_eq_sgn {bad : Bool} {x y z : Dya × Dya} {i j k : Nat} (hr : ranks = none ∨ orient x y z ≠ 0)
    (hb : bad = true ∨ Spec.BoundsHold .gor2 [point x, point y, point z]) : segSign bad x y z ranks i j k = Spec.sgn (orient x y z) :=
  solvedSign_eq_sgn (by decide) rfl (orientation_lengths x y z) (hr.imp_left fun h => by rw [h]; rfl) (.inr hb)

/-- A GSEG lane of finite coordinates has the class of R320. -/
theorem isClass_segClass (hr : ranks = none ∨ ∀ x ∈ orientations a b c d, Spec.exactD .gor2 (Spec.rats x) ≠ 0)
    (hb : segBad a b c d = true ∨ ∀ x ∈ orientations a b c d, Spec.BoundsHold .gor2 x) :
    Spec.IsClass (ratPoint a) (ratPoint b) (ratPoint c) (ratPoint d) (segClass [point a, point b, point c, point d] ranks).1 := by
  have hs {x y z : Dya × Dya} {i j k : Nat} (hx : [point x, point y, point z] ∈ orientations a b c d) :
      segSign (segBad a b c d) x y z ranks i j k = Spec.sgn (orient x y z) :=
    segSign_eq_sgn (hr.imp_right fun h => h _ hx) (hb.imp_right fun h => h _ hx)
  rw [segClass_eq_classBySigns, hs (by simp [orientations]), hs (by simp [orientations]), hs (by simp [orientations]), hs (by simp [orientations])]
  exact isClass_classBySigns

/-! ## The instruction (R317, R325, R326, R334) -/

theorem foldl_lanes_lt (f : Nat → Bool) (n : Nat) : (List.range n).foldl (fun acc i => if f i then acc + 2 ^ i else acc) 0 < 2 ^ n := by
  induction n with
  | zero => simp
  | succ n ih =>
    simp only [List.range_succ, List.foldl_append, List.foldl_cons, List.foldl_nil]
    split <;> omega

theorem foldl_lanes_eq_zero (f : Nat → Bool) (n : Nat) :
    (List.range n).foldl (fun acc i => if f i then acc + 2 ^ i else acc) 0 = 0 ↔ ∀ i < n, f i = false := by
  induction n with
  | zero => simp
  | succ n ih =>
    simp only [List.range_succ, List.foldl_append, List.foldl_cons, List.foldl_nil, Nat.forall_lt_succ_right, ← ih]
    split <;> simp [*]

/-- A set from a condition is empty when no lane has it. -/
theorem maskOf_eq_zero {f : Nat → Bool} : maskOf f = 0 ↔ ∀ i < 32, f i = false := by
  rw [← foldl_lanes_eq_zero, BitVec.toNat_eq, maskOf, BitVec.toNat_ofNat, lanes, Nat.mod_eq_of_lt (foldl_lanes_lt f 32)]
  rfl

variable {guard : BitVec 3} {vd p q : BitVec 6} {ty : BitVec 1} {ctx : Ctx} {s : State}

/-- A lane's points hold a NaN or an infinity (R325). -/
def oddPoints (ctx : Ctx) (k : PredKind) (p : BitVec 6) (ty : BitVec 1) (n : Nat) : Bool :=
  (predPoints ctx k p (ty = 1) n).any (fun x => x.any (fun y => !y.finite))

/-- The ranks of a lane's points, where the tie-break is asked for (R324). -/
def lanesRanks (ctx : Ctx) (k : PredKind) (q : BitVec 6) (n : Nat) : Option (List Nat) :=
  if ctx.h.sos then some ((List.range k.points).map (rankOf
    ((List.range k.points).map (fun j => (lane (ctx.v (q.toNat + j)) n).toNat)))) else none

/-- The predicate that an instruction puts in flight. -/
def issuedPred (ctx : Ctx) (k : PredKind) (guard : BitVec 3) (vd p q : BitVec 6) (ty : BitVec 1) (id : Nat) : PredOp :=
  let res := lanes.map (fun n => if inMask (ctx.lanes guard) n then predLane k (predPoints ctx k p (ty = 1) n) (lanesRanks ctx k q n) else (0, 0))
  ⟨id, k.num (ty = 1), ctx.tid, ctx.gid, vd.toNat, ctx.h.xd.head?, ctx.lanes guard, res.map (·.1), res.map (fun r => BitVec.ofNat 32 r.2), false⟩

theorem isSet_eq_decide_one (b : BitVec 1) : isSet b = decide (b = 1) := by
  obtain rfl | rfl := bit_cases b <;> rfl

theorem predicate_idle (hm : ctx.lanes guard = 0) :
    predicate k guard vd p q ty ctx s = .done (fillResult s ctx.tid ctx.gid ctx.core (.v vd.toNat :: ctx.h.xd.map RegName.v)) :=
  if_pos hm

theorem predicate_full (hm : ctx.lanes guard ≠ 0) (h8 : 8 ≤ (coreOf s ctx.core).preds.length) : predicate k guard vd p q ty ctx s = .hold .issue s :=
  (if_neg hm).trans (if_pos h8)

theorem predicate_odd (hm : ctx.lanes guard ≠ 0) (h8 : (coreOf s ctx.core).preds.length < 8) (hf : fmtPnf ctx.g.fmt = false)
    (ho : ∃ n, n < 32 ∧ (ctx.lanes guard).getLsbD n = true ∧ oddPoints ctx k p ty n = true) :
    predicate k guard vd p q ty ctx s = .bad 0x06 (maskOf (fun n => inMask (ctx.lanes guard) n && oddPoints ctx k p ty n)) := by
  obtain ⟨n, hn, hmn, hon⟩ := ho
  have hne : maskOf (fun n => inMask (ctx.lanes guard) n && oddPoints ctx k p ty n) ≠ 0 := fun h0 => by
    simpa [inMask, hmn, hon] using maskOf_eq_zero.mp h0 n hn
  unfold predicate
  rw [if_neg hm, if_neg (by omega)]
  simp only [isSet_eq_decide_one]
  exact if_pos (by simp [hf]; exact hne)

theorem predicate_issued (hm : ctx.lanes guard ≠ 0) (h8 : (coreOf s ctx.core).preds.length < 8)
    (ho : fmtPnf ctx.g.fmt = true ∨ ∀ n, n < 32 → (ctx.lanes guard).getLsbD n = true → oddPoints ctx k p ty n = false) :
    predicate k guard vd p q ty ctx s =
      (let o := issuedPred ctx k guard vd p q ty s.nextId
      let s₂ := modCore { s with nextId := s.nextId + 1 } ctx.core (fun x => { x with preds := x.preds ++ [o] })
      .done (if (popHold s₂).1 then (popHold s₂).2 else runPred (popHold s₂).2 ctx.core o)) := by
  unfold predicate
  rw [if_neg hm, if_neg (by omega)]
  simp only [isSet_eq_decide_one]
  refine (if_neg fun hodd => ?_).trans rfl
  obtain ⟨hne, hpnf⟩ := Bool.and_eq_true_iff.mp hodd
  obtain hf | hfin := ho
  · simp [hf] at hpnf
  · refine of_decide_eq_true hne (maskOf_eq_zero.mpr fun n hn => ?_)
    cases hmn : inMask (ctx.lanes guard) n with
    | false => rfl
    | true => exact hfin n hn hmn

theorem runPred_eq (o : PredOp) (core : Nat) : runPred s core o =
    (let s₃ := Spec.stage2 (enterStage2 s core o) core o
    if predReady s₃ core o then landPred s₃ core o else s₃) := by
  have h : runStage2 (enterStage2 s core o) core o = Spec.stage2 (enterStage2 s core o) core o := by
    simp only [runStage2, Spec.stage2, ite_not]
  simp only [runPred, h]

theorem lane_map_lanes {β : Type} {f : Nat → β} {r : β → Word} {n : Nat} (hn : n < 32) : lane ((lanes.map f).map r) n = r (f n) := by
  simp [lane, lanes, hn]

theorem issuedPred_result {n id : Nat} (hn : n < 32) (hmn : (ctx.lanes guard).getLsbD n = true) :
    lane (issuedPred ctx k guard vd p q ty id).result n = (predLane k (predPoints ctx k p (ty = 1) n) (lanesRanks ctx k q n)).1 := by
  simp only [issuedPred, lane_map_lanes hn, inMask, hmn, if_true]

theorem issuedPred_stage {n id : Nat} (hn : n < 32) (hmn : (ctx.lanes guard).getLsbD n = true) :
    lane (issuedPred ctx k guard vd p q ty id).stage n = BitVec.ofNat 32 (predLane k (predPoints ctx k p (ty = 1) n) (lanesRanks ctx k q n)).2 := by
  simp only [issuedPred, lane_map_lanes hn, inMask, hmn, if_true]

/-- A lane of finite coordinates has the sign that the stages solve (R319). -/
theorem predLane_sign {ps : List (List FVal)} (ho : ps.any (fun x => x.any (fun y => !y.finite)) = false) (hk : k ≠ .gseg) :
    let xs := ps.map (fun x => x.map FVal.toDya)
    (predLane k ps ranks).1 = BitVec.ofInt 32 (solvedSign k (stage0 k xs).2.2.2 xs ranks).1 := by
  intro xs
  unfold predLane
  rw [if_neg (by simp [ho])]
  cases k with
  | gseg => exact absurd rfl hk
  | gor2 | gor3 | ginc | gins => rfl

/-- A GSEG lane of finite coordinates has its segments' class (R320). -/
theorem predLane_class {ps : List (List FVal)} (ho : ps.any (fun x => x.any (fun y => !y.finite)) = false) :
    (predLane .gseg ps ranks).1 = BitVec.ofNat 32 (segClass (ps.map (fun x => x.map FVal.toDya)) ranks).1 := by
  unfold predLane
  rw [if_neg (by simp [ho])]

/-- Settles O43: the stages decide by the sign of D, the class of two segments follows from four such signs, and the instruction waits, faults or
puts a predicate with every lane's result in flight. -/
theorem geometricPredicates : Obligations.GeometricPredicates := by
  refine ⟨?_, ?_, ?_⟩
  · intro k bad pts ranks hk hl hd D r hr h
    exact solvedSign_eq_sgn hk hl hd hr h
  · intro a b c d ranks pt q orients hr hb
    exact isClass_segClass hr (hb.imp_left List.any_eq_true.mpr)
  · intro i k guard d p q ty s c s₁ hst hi m pts bad sos
    have he : exec i s = issue i (predicate k guard d p q ty) s := by
      obtain ⟨rfl, rfl⟩ | ⟨rfl, rfl⟩ | ⟨rfl, rfl⟩ | ⟨rfl, rfl⟩ | ⟨rfl, rfl⟩ := hi <;> rfl
    refine ⟨fun hm => completes_of_starts hst he (predicate_idle hm), fun hm h8 => heldAt_of_starts hst he (predicate_full hm h8),
      fun hm h8 hf ho => faults_of_starts hst he (predicate_odd hm h8 hf ho), fun hm h8 ho => ?_⟩
    refine ⟨issuedPred c k guard d p q ty s₁.nextId, rfl, rfl, rfl, rfl, rfl, rfl, fun n hn hmn hbad => ?_, fun n hn hmn hbad hk => ?_,
      fun n hn hmn hbad hk => ?_, ?_⟩
    · have hodd : predLane k (pts n) (sos n) = (if k = .gseg then 4 else 2, 3) := if_pos hbad
      exact ⟨(issuedPred_result hn hmn).trans (congrArg Prod.fst hodd),
        (issuedPred_stage hn hmn).trans (congrArg (fun r : Word × Nat => BitVec.ofNat 32 r.2) hodd)⟩
    · exact (issuedPred_result hn hmn).trans (predLane_sign hbad hk)
    · subst hk
      exact (issuedPred_result hn hmn).trans (predLane_class hbad)
    · have hdone := completes_of_starts hst he (predicate_issued hm h8 ho)
      rwa [runPred_eq] at hdone

end Sys2Proof.Proofs
end
